-- ==== Sys2Proof/Word.lean ====
section
/-!
DEFINITION. The words of the machine: 64-bit registers, bytes, the slice of a number that the manual writes x[hi:lo]
(01_notation R4, R21: bit 0 is the least significant bit), the engines and the prefix chain of an instruction.
-/

namespace Sys2Proof

/-- A 64-bit register value. -/
abbrev Word := BitVec 64

/-- A byte. -/
abbrev Byte := BitVec 8

/-- The n bits of x from bit lo upward: x[lo+n-1 : lo]. -/
def slice (x lo n : Nat) : Nat := x / 2 ^ lo % 2 ^ n

/-- One bit of x. -/
def bitOf (x i : Nat) : Bool := x / 2 ^ i % 2 == 1

/-- x with the n bits from bit lo replaced by v. -/
def putBits (x lo n v : Nat) : Nat :=
  x / 2 ^ (lo + n) * 2 ^ (lo + n) + v % 2 ^ n * 2 ^ lo + x % 2 ^ lo

/-- 1 for true, 0 for false. -/
def b2n (b : Bool) : Nat := if b then 1 else 0

/-- The n-bit number x read as two's complement. -/
def sext (x n : Nat) : Int :=
  let y := x % 2 ^ n
  if 2 * y < 2 ^ n then (y : Int) else (y : Int) - (2 ^ n : Nat)

/-- An integer modulo 2^n. -/
def wrapN (x : Int) (n : Nat) : Nat := (x % (2 ^ n : Nat)).toNat

/-- Division rounded up. -/
def ceilDiv (a b : Nat) : Nat := (a + b - 1) / b

/-- The engines (02_program_text R25). -/
inductive Eng where
  | s | c | v | m | a
deriving DecidableEq, Repr, Inhabited

/-- The tag of an engine (R25): 0 S, 1 C, 2 V, 3 M, 4 A. -/
def Eng.tag : Eng → Nat
  | .s => 0
  | .c => 1
  | .v => 2
  | .m => 3
  | .a => 4

/-- The engine of a tag. -/
def Eng.ofTag : Nat → Option Eng
  | 0 => some .s
  | 1 => some .c
  | 2 => some .v
  | 3 => some .m
  | 4 => some .a
  | _ => none

/-- The source code under which an engine raises its causes (R352). -/
def Eng.source : Eng → Nat
  | .s => 0
  | .c => 1
  | .v => 2
  | .m => 4
  | .a => 5

/-- A prefix chain (R35, R37, R42) with the default of every field that no prefix of it sets (R13). -/
structure Chain where
  /-- token registers that the tkw prefixes name, k0 left out, each once -/
  waits : List Nat := []
  /-- the register of a tko -/
  tko : Option Nat := none
  /-- the mod fields -/
  rnd : Nat := 0
  mask : Nat := 0
  sat : Bool := false
  ev : Bool := false
  /-- the 11 bits of an imx -/
  imx : Option Nat := none
  /-- the 11 bits of a gap -/
  gap : Option Nat := none
  /-- the profile and buffer numbers of pfb -/
  prof : Nat := 0
  buf : Nat := 0
  /-- the 10 bits of a col -/
  col : Option Nat := none
deriving DecidableEq, Repr, Inhabited

end Sys2Proof
end

