-- ==== Sys2Proof/Syntax.lean ====
section
/-!
DEFINITION. The steps of the machine: one constructor for each row of spec/opcode_table.json. The rows with an encoding
are the instructions of the five engines, their operands the fields of the row's encoding, highest field first. The rows
without one are the events of 95_what_each_step_holds, their operands the place where the event happens (core, bank,
die, stack, pc for a pseudo-channel, vf for a virtual function, id for an address piece) and, for an input from outside,
what it brings.
-/

namespace Sys2Proof

/-- The instructions and events. -/
inductive Instr where
  /-- nop16 (R37): Takes one cycle and has no other effect -/
  | nop16
  /-- bw (R37): Sets the beat cursor to cursor plus n and waits until that beat is observed open -/
  | bw (nx : Nat)
  /-- mov16 (R41): Copies sA into sD -/
  | mov16 (d a : Nat)
  /-- addi16 (R41): Adds a sign-extended 6-bit immediate to sD -/
  | addi16 (d imm : Nat)
  /-- li16 (R41): Loads a sign-extended 6-bit immediate into sD -/
  | li16 (d imm : Nat)
  /-- .block (R28): An engine reads a block header: it raises its block serial and either skips the body or runs it the number of times that repeat gives -/
  | blockHeader (ty imm lx rl : Nat)
  /-- REPN_POP (R29): The owning engine pops a count from its REPN queue at a header with repeat 0, waiting while the queue is empty -/
  | repnPop (core bank eng : Nat)
  /-- PATH_RECORD_TAKE (R33): C, V, M or A takes the next path record at the end of an S block, waiting until S has emitted it -/
  | pathRecordTake (core bank eng : Nat)
  /-- add (R261): sD gets sA plus sB modulo 2^64 -/
  | add (d a b : Nat)
  /-- sub (R261): sD gets sA minus sB -/
  | sub (d a b : Nat)
  /-- and (R261): sD gets sA and sB bitwise -/
  | and (d a b : Nat)
  /-- or (R261): sD gets sA or sB bitwise -/
  | or (d a b : Nat)
  /-- xor (R261): sD gets sA xor sB -/
  | xor (d a b : Nat)
  /-- andn (R261): sD gets sA and not sB -/
  | andn (d a b : Nat)
  /-- sll (R261): sD gets sA shifted left by sB[5:0] -/
  | sll (d a b : Nat)
  /-- srl (R261): sD gets sA shifted right logically by sB[5:0] -/
  | srl (d a b : Nat)
  /-- sra (R261): sD gets sA shifted right arithmetically by sB[5:0] -/
  | sra (d a b : Nat)
  /-- rotl (R261): sD gets sA rotated left by sB[5:0] -/
  | rotl (d a b : Nat)
  /-- min (R261): sD gets the signed smaller of sA and sB -/
  | min (d a b : Nat)
  /-- max (R261): sD gets the signed larger of sA and sB -/
  | max (d a b : Nat)
  /-- minn (R261): sD gets the unsigned smaller of sA and sB -/
  | minn (d a b : Nat)
  /-- maxn (R261): sD gets the unsigned larger of sA and sB -/
  | maxn (d a b : Nat)
  /-- mul (R261): sD gets the low 64 bits of sA times sB -/
  | mul (d a b : Nat)
  /-- mulh (R261): sD gets the high 64 bits of the signed product -/
  | mulh (d a b : Nat)
  /-- mulhn (R261): sD gets the high 64 bits of the unsigned product -/
  | mulhn (d a b : Nat)
  /-- div (R261): sD gets the signed quotient truncated toward zero -/
  | div (d a b : Nat)
  /-- divn (R261): sD gets the unsigned quotient -/
  | divn (d a b : Nat)
  /-- rem (R261): sD gets the signed remainder with the sign of sA -/
  | rem (d a b : Nat)
  /-- remn (R261): sD gets the unsigned remainder -/
  | remn (d a b : Nat)
  /-- clz (R261): sD gets the count of leading zeros of sA -/
  | clz (d a : Nat)
  /-- ctz (R261): sD gets the count of trailing zeros of sA -/
  | ctz (d a : Nat)
  /-- popc (R261): sD gets the count of set bits of sA -/
  | popc (d a : Nat)
  /-- addi (R262): sD gets sA plus the sign-extended immediate -/
  | addi (d a imm : Nat)
  /-- andi (R262): sD gets sA and the sign-extended immediate -/
  | andi (d a imm : Nat)
  /-- ori (R262): sD gets sA or the sign-extended immediate -/
  | ori (d a imm : Nat)
  /-- xori (R262): sD gets sA xor the sign-extended immediate -/
  | xori (d a imm : Nat)
  /-- slli (R262): sD gets sA shifted left by imm[5:0] -/
  | slli (d a sx : Nat)
  /-- srli (R262): sD gets sA shifted right logically by imm[5:0] -/
  | srli (d a sx : Nat)
  /-- srai (R262): sD gets sA shifted right arithmetically by imm[5:0] -/
  | srai (d a sx : Nat)
  /-- lih (R262): sD gets sD shifted left with the zero-extended immediate in the low bits -/
  | lih (d imm : Nat)
  /-- cmp.eq (R263): pD gets T when sA equals sB, F otherwise -/
  | cmpEq (px a b : Nat)
  /-- cmp.ne (R263): pD gets T when sA differs from sB -/
  | cmpNe (px a b : Nat)
  /-- cmp.lt (R263): pD gets T when sA is signed less than sB -/
  | cmpLt (px a b : Nat)
  /-- cmp.le (R263): pD gets T when sA is signed less than or equal to sB -/
  | cmpLe (px a b : Nat)
  /-- cmp.ltn (R263): pD gets T when sA is unsigned less than sB -/
  | cmpLtn (px a b : Nat)
  /-- cmp.len (R263): pD gets T when sA is unsigned less than or equal to sB -/
  | cmpLen (px a b : Nat)
  /-- cmpi.eq (R263): pD gets T when sA equals the sign-extended immediate -/
  | cmpiEq (px a imm : Nat)
  /-- cmpi.lt (R263): pD gets T when sA is signed less than the immediate -/
  | cmpiLt (px a imm : Nat)
  /-- cmpi.ltn (R263): pD gets T when sA is unsigned less than the immediate -/
  | cmpiLtn (px a imm : Nat)
  /-- sel (R264): sD gets sA when pN is T and sB otherwise -/
  | sel (d a b nx : Nat)
  /-- pand (R265): Three-valued and of two predicates -/
  | pand (d a b : Nat)
  /-- por (R265): Three-valued or of two predicates -/
  | por (d a b : Nat)
  /-- pxor (R265): Three-valued xor of two predicates -/
  | pxor (d a b : Nat)
  /-- pnot (R265): Exchanges T and F of a predicate and keeps U -/
  | pnot (d a : Nat)
  /-- pknow (R265): Turns U into F and keeps T and F -/
  | pknow (d a : Nat)
  /-- pset (R265): Sets a predicate to F, T or U -/
  | pset (d vx : Nat)
  /-- popv (R266): pD gets the two-bit element e of sA as a predicate -/
  | popv (px a ex : Nat)
  /-- ld.i8 (R267): Loads a sign-extended byte into sD -/
  | ldI8 (d a imm : Nat)
  /-- ld.n8 (R267): Loads a zero-extended byte into sD -/
  | ldN8 (d a imm : Nat)
  /-- ld.i16 (R267): Loads a sign-extended halfword into sD -/
  | ldI16 (d a imm : Nat)
  /-- ld.n16 (R267): Loads a zero-extended halfword into sD -/
  | ldN16 (d a imm : Nat)
  /-- ld.i32 (R267): Loads a sign-extended word into sD -/
  | ldI32 (d a imm : Nat)
  /-- ld.n32 (R267): Loads a zero-extended word into sD -/
  | ldN32 (d a imm : Nat)
  /-- ld.i64 (R267): Loads 64 bits into sD -/
  | ldI64 (d a imm : Nat)
  /-- st.8 (R267): Stores the low byte of sD -/
  | st8 (d a imm : Nat)
  /-- st.16 (R267): Stores the low halfword of sD -/
  | st16 (d a imm : Nat)
  /-- st.32 (R267): Stores the low word of sD -/
  | st32 (d a imm : Nat)
  /-- st.64 (R267): Stores all 64 bits of sD -/
  | st64 (d a imm : Nat)
  /-- ld.acq (R269): Acquire load of 64 bits at a scope, bypassing and at wide scopes invalidating the data cache -/
  | ldAcq (d a sx : Nat)
  /-- st.rel (R269): Release store of 64 bits after earlier and observed writes have performed at the scope -/
  | stRel (d a sx : Nat)
  /-- S_LOAD_RETURN (R268): The data of an S load returns from the cache or memory and is written to its register -/
  | sLoadReturn (core bank : Nat)
  /-- S_STORE_PERFORM (R292): An S store performs at its target -/
  | sStorePerform (core bank : Nat)
  /-- b.t (R270): Branches when pN is T -/
  | bT (px off : Nat)
  /-- b.f (R270): Branches when pN is F -/
  | bF (px off : Nat)
  /-- b.u (R270): Branches when pN is U -/
  | bU (px off : Nat)
  /-- b (R270): Always branches -/
  | b (off : Nat)
  /-- jal (R271): Branches and writes the link address to sD -/
  | jal (d off : Nat)
  /-- jr (R271): Branches to the address in sA and writes the link address to sD -/
  | jr (d a : Nat)
  /-- swpt (R272): Switch point: leaves the block to the table entry of the granted power level -/
  | swpt (a : Nat)
  /-- pwr (R273): pD gets T when the granted level equals lvl -/
  | pwr (px lx : Nat)
  /-- bnow (R274): sD gets the named beat now open -/
  | bnow (d : Nat)
  /-- palign (R144): Requests an alignment boundary at a named beat -/
  | palign (a imm : Nat)
  /-- waitt (R151): S stalls until NTIME reaches sA -/
  | waitt (a : Nat)
  /-- WAITT_WAKE (R151): S wakes from waitt within 2 ticks of NTIME reaching its operand -/
  | waittWake (core bank : Nat)
  /-- tick (R151): sD gets TICK -/
  | tick (d : Nat)
  /-- ntime (R151): sD gets NTIME -/
  | ntime (d : Nat)
  /-- fence (R275): Marker fence: S stalls until each named engine has finished its earlier work at the scope -/
  | fence (sx ex : Nat)
  /-- FENCE_RETIRE (R275): A waiting fence retires once the named engines' earlier work has finished, invalidating the cache at wide scopes -/
  | fenceRetire (core bank : Nat)
  /-- tlbi (R278): Invalidates the translations of one page and enters C's stream as a marker -/
  | tlbi (a : Nat)
  /-- tlbi.all (R278): Invalidates every translation of the task's address space -/
  | tlbiAll
  /-- isync (R277): Waits for earlier stores at die scope and makes engines refetch later blocks -/
  | isync
  /-- smark (R276): Writes an S token that completes when earlier S loads and stores are done -/
  | smark
  /-- ezw (R231): Writes sA into a word of an Easel bank after M has passed the marker -/
  | ezw (a b wx : Nat)
  /-- fpush (R233): Appends sA to the format queue -/
  | fpush (a : Nat)
  /-- repn (R279): Appends a count to an engine's REPN queue -/
  | repn (ex a : Nat)
  /-- hand (R280): Appends sA to C's handoff queue hq -/
  | handC (a : Nat)
  /-- hand (R280): Writes sA to A's register aN -/
  | handA (a nx : Nat)
  /-- evpop (R282): Pops the head event record into sD -/
  | evpop (d : Nat)
  /-- evpeek (R282): Reads the head event record into sD without removing it -/
  | evpeek (d : Nat)
  /-- gbar (R283): Arrives at a gang barrier with release at the scope -/
  | gbar (sx : Nat)
  /-- GBAR_RELEASE (R283): The barrier retires once every task has arrived, invalidating the cache at wide scopes -/
  | gbarRelease (core bank : Nat)
  /-- exit (R284): Ends the task, reading an optional successor descriptor and emitting an end record -/
  | exit (a : Nat)
  /-- post (R285): Appends a launch packet to a launch queue of the task's virtual function -/
  | post (d a b : Nat)
  /-- csrr (R286): Reads a control and status register into sD -/
  | csrr (d cx : Nat)
  /-- csrw (R286): Writes sA to a control and status register -/
  | csrw (a cx : Nat)
  /-- csrs (R286): Sets the bits of sA in a control and status register -/
  | csrs (a cx : Nat)
  /-- csrc (R286): Clears the bits of sA in a control and status register -/
  | csrc (a cx : Nat)
  /-- svc (R289): Retires and raises system call, cutting the gang -/
  | svc (imm : Nat)
  /-- brk (R289): Retires and raises breakpoint, cutting the gang -/
  | brk (imm : Nat)
  /-- dopen (R107): Opens a row of one bank into a slot -/
  | dopen (rl a gp nx : Nat)
  /-- dopenw (R107): Opens a row of every bank into one slot -/
  | dopenw (rl a gp nx : Nat)
  /-- dhold (R108): Pins a row line across beat boundaries -/
  | dhold (rl gp nx : Nat)
  /-- drel (R108): Releases one row line with write-back -/
  | drel (rl gp nx : Nat)
  /-- drelw (R108): Releases one slot in every bank with write-back -/
  | drelw (rl gp nx : Nat)
  /-- drd (R109): Reads strips of a row line over the vertical bus into the scratchpad -/
  | drd (rl a gp nx : Nat)
  /-- dwr (R109): Writes strips from the scratchpad into a row line -/
  | dwr (rl a gp nx : Nat)
  /-- dref (R110): Refreshes a refresh group of the home pseudo-channel -/
  | dref (a gp nx : Nat)
  /-- dgap (R111): Advances the anchor of command placement without placing a command -/
  | dgap (gp nx : Nat)
  /-- cbeat (R111): Sets C's beat cursor -/
  | cbeat (a : Nat)
  /-- ia.zero (R114): Infusion that zeroes strips of a slot in all banks -/
  | iaZero (d gp nx sx cx : Nat)
  /-- ia.copy (R114): Infusion that copies strips of one slot to another -/
  | iaCopy (d a gp nx sx cx : Nat)
  /-- ia.add.bf16 (R114): In-array bf16 add -/
  | iaAddBf16 (d a b gp nx sx cx : Nat)
  /-- ia.add.f32 (R114): In-array f32 add -/
  | iaAddF32 (d a b gp nx sx cx : Nat)
  /-- ia.sub.bf16 (R114): In-array bf16 subtract -/
  | iaSubBf16 (d a b gp nx sx cx : Nat)
  /-- ia.sub.f32 (R114): In-array f32 subtract -/
  | iaSubF32 (d a b gp nx sx cx : Nat)
  /-- ia.mul.bf16 (R114): In-array bf16 multiply -/
  | iaMulBf16 (d a b gp nx sx cx : Nat)
  /-- ia.mul.f32 (R114): In-array f32 multiply -/
  | iaMulF32 (d a b gp nx sx cx : Nat)
  /-- ia.fma.bf16 (R114): In-array bf16 fused multiply-add into the destination -/
  | iaFmaBf16 (d a b gp nx sx cx : Nat)
  /-- ia.fma.f32 (R114): In-array f32 fused multiply-add into the destination -/
  | iaFmaF32 (d a b gp nx sx cx : Nat)
  /-- ia.axpy.bf16 (R114): In-array bf16 scalar times a plus b -/
  | iaAxpyBf16 (d a b gp nx sx cx : Nat)
  /-- ia.axpy.f32 (R114): In-array f32 scalar times a plus b -/
  | iaAxpyF32 (d a b gp nx sx cx : Nat)
  /-- ia.acc.bf16 (R114): Accumulates bf16 strips into a well -/
  | iaAccBf16 (wx a gp nx sx cx : Nat)
  /-- ia.acc.f32 (R114): Accumulates f32 strips into a well -/
  | iaAccF32 (wx a gp nx sx cx : Nat)
  /-- ia.wld.f32 (R114): Loads f32 strips into a well -/
  | iaWldF32 (wx a gp nx sx cx : Nat)
  /-- ia.wld.bf16 (R114): Loads bf16 strips into a well, widened exactly -/
  | iaWldBf16 (wx a gp nx sx cx : Nat)
  /-- ia.wst.f32 (R114): Stores a well into a row line as f32 -/
  | iaWstF32 (d wx gp nx sx cx : Nat)
  /-- ia.wst.bf16 (R114): Stores a well into a row line rounded to bf16 -/
  | iaWstBf16 (d wx gp nx sx cx : Nat)
  /-- ia.max.bf16 (R114): In-array bf16 maximum -/
  | iaMaxBf16 (d a b gp nx sx cx : Nat)
  /-- ia.max.f32 (R114): In-array f32 maximum -/
  | iaMaxF32 (d a b gp nx sx cx : Nat)
  /-- ia.min.bf16 (R114): In-array bf16 minimum -/
  | iaMinBf16 (d a b gp nx sx cx : Nat)
  /-- ia.min.f32 (R114): In-array f32 minimum -/
  | iaMinF32 (d a b gp nx sx cx : Nat)
  /-- ia.cvt (R114): Converts two f32 row lines into one bf16 row line in the array -/
  | iaCvt (d a b gp nx sx cx : Nat)
  /-- ia.scale (R114): Loads the infuser scalar from one strip -/
  | iaScale (a gp nx sx : Nat)
  /-- cld (R129): Copies bytes from memory into the scratchpad through a plain frame -/
  | cld (a b cx : Nat)
  /-- cld.bs (R129): Copies bytes from a compute-capable frame into the scratchpad through the pinned window table -/
  | cldBs (a b cx : Nat)
  /-- cst (R129): Copies bytes from the scratchpad to memory in a plain frame -/
  | cst (a b cx : Nat)
  /-- cst.bs (R129): Copies bytes from the scratchpad to a compute-capable frame -/
  | cstBs (a b cx : Nat)
  /-- ccpy (R130): Copies bytes between scratchpad ranges, own or a gang peer's -/
  | ccpy (a b cx : Nat)
  /-- cfq (R135): Pushes entries into an operand queue, extracting fields through a pattern -/
  | cfq (nx a cx px : Nat)
  /-- cdq (R133): Pops entries of an outbound queue into the scratchpad -/
  | cdq (a nx cx : Nat)
  /-- cvf (R132): Copies scratchpad entries into the underfile -/
  | cvf (a b cx : Nat)
  /-- cfv (R132): Copies underfile entries into the scratchpad -/
  | cfv (a b cx : Nat)
  /-- ccv (R132): Copies scratchpad bytes into the Canvas -/
  | ccv (a b cx : Nat)
  /-- cpl (R132): Copies scratchpad bytes into the Palette -/
  | cpl (a b cx : Nat)
  /-- cgat (R131): Gathers indexed elements from memory into the scratchpad -/
  | cgat (a b cx ex : Nat)
  /-- csct (R131): Scatters scratchpad elements to indexed memory addresses -/
  | csct (a b cx ex : Nat)
  /-- cpat (R134): Loads a field-extraction pattern register from a descriptor -/
  | cpat (a px : Nat)
  /-- rdc (R116): Checks a parameter block and hands it to the stack's reduction engine -/
  | rdc (a : Nat)
  /-- ctx (R145): Timed transfer of scratchpad strips to a gang peer on another die -/
  | ctx (d sx lx gp nx : Nat)
  /-- cadd (R136): aD gets aA plus aB -/
  | cadd (d a b : Nat)
  /-- CADD_SUB (R136): aD gets aA minus aB -/
  | caddSub (d a b : Nat)
  /-- CADD_SHL (R136): aD gets aA shifted left by aB[5:0] -/
  | caddShl (d a b : Nat)
  /-- cmov (R136): aD gets aA -/
  | cmov (d a : Nat)
  /-- cmov.ld (R136): aD gets the 64-bit scratchpad value at aA -/
  | cmovLd (d a : Nat)
  /-- cmov.st (R136): Writes aA to the 64-bit scratchpad value at aD -/
  | cmovSt (d a : Nat)
  /-- take (R136): Pops hq into aD, waiting while hq is empty -/
  | take (d : Nat)
  /-- vadd (R194): Vector add -/
  | vadd (d a px b qx ty : Nat)
  /-- vsub (R194): Vector subtract -/
  | vsub (d a px b qx ty : Nat)
  /-- vmul (R194): Vector multiply -/
  | vmul (d a px b qx ty : Nat)
  /-- vfma (R194): Vector fused multiply-add -/
  | vfma (d a px b qx cx rl ty : Nat)
  /-- vfms (R194): Vector fused multiply-subtract -/
  | vfms (d a px b qx cx rl ty : Nat)
  /-- vmin (R194): Vector minimum -/
  | vmin (d a px b qx ty : Nat)
  /-- vmax (R194): Vector maximum -/
  | vmax (d a px b qx ty : Nat)
  /-- vabs (R194): Vector absolute value -/
  | vabs (d a px ty : Nat)
  /-- vneg (R194): Vector negation -/
  | vneg (d a px ty : Nat)
  /-- vand (R194): Vector bitwise and -/
  | vand (d a px b qx ty : Nat)
  /-- vor (R194): Vector bitwise or -/
  | vor (d a px b qx ty : Nat)
  /-- vxor (R194): Vector bitwise xor -/
  | vxor (d a px b qx ty : Nat)
  /-- vshl (R194): Vector shift left -/
  | vshl (d a px b qx ty : Nat)
  /-- vshr (R194): Vector logical shift right -/
  | vshr (d a px b qx ty : Nat)
  /-- vsra (R194): Vector arithmetic shift right -/
  | vsra (d a px b qx ty : Nat)
  /-- vrcp (R194): Vector reciprocal -/
  | vrcp (d a px ty : Nat)
  /-- vrsq (R194): Vector reciprocal square root -/
  | vrsq (d a px ty : Nat)
  /-- vexp2 (R194): Vector base-2 exponential -/
  | vexp2 (d a px ty : Nat)
  /-- vlog2 (R194): Vector base-2 logarithm -/
  | vlog2 (d a px ty : Nat)
  /-- vsqrt (R194): Vector square root -/
  | vsqrt (d a px ty : Nat)
  /-- vdiv (R194): Vector divide -/
  | vdiv (d a px b qx ty : Nat)
  /-- vcmp.eq (R196): Writes mask elements T where a equals b -/
  | vcmpEq (md a px b qx ty : Nat)
  /-- vcmp.ne (R196): Writes mask elements T where a differs from b or either is NaN -/
  | vcmpNe (md a px b qx ty : Nat)
  /-- vcmp.lt (R196): Writes mask elements T where a is less than b -/
  | vcmpLt (md a px b qx ty : Nat)
  /-- vcmp.le (R196): Writes mask elements T where a is at most b -/
  | vcmpLe (md a px b qx ty : Nat)
  /-- vcmp.gt (R196): Writes mask elements T where a is greater than b -/
  | vcmpGt (md a px b qx ty : Nat)
  /-- vcmp.ge (R196): Writes mask elements T where a is at least b -/
  | vcmpGe (md a px b qx ty : Nat)
  /-- vcmp.uo (R196): Writes mask elements T where either operand is NaN -/
  | vcmpUo (md a px b qx ty : Nat)
  /-- vsel (R197): Selects elements of a, b or c by the mask value T, F or U -/
  | vsel (d a px b qx cx rl ty : Nat)
  /-- mand (R198): Three-valued and of two masks -/
  | mand (d a b : Nat)
  /-- mor (R198): Three-valued or of two masks -/
  | mor (d a b : Nat)
  /-- mxor (R198): Three-valued xor of two masks -/
  | mxor (d a b : Nat)
  /-- mnot (R198): Exchanges T and F of a mask -/
  | mnot (d a : Nat)
  /-- mknow (R198): Turns U elements of a mask into F -/
  | mknow (d a : Nat)
  /-- mall (R198): Sets every element to whether all of a mask is T -/
  | mall (d a : Nat)
  /-- mnone (R198): Sets every element to whether all of a mask is F -/
  | mnone (d a : Nat)
  /-- vcvt (R199): Converts elements between types, one part at a time -/
  | vcvt (d a px sx xx ty : Nat)
  /-- vqnt (R200): Quantises an entry into block-integer blocks with scales -/
  | vqnt (d a px wx ty : Nat)
  /-- vdeq (R201): Dequantises a block-integer entry -/
  | vdeq (d a px wx ty : Nat)
  /-- vredsum (R202): Sums the elements of an entry in the fixed tree -/
  | vredsum (d a px ty : Nat)
  /-- vredmax (R202): Maximum of the elements of an entry -/
  | vredmax (d a px ty : Nat)
  /-- vredmin (R202): Minimum of the elements of an entry -/
  | vredmin (d a px ty : Nat)
  /-- vperm (R203): Permutes elements by an index entry -/
  | vperm (d a px b qx cx rl ty : Nat)
  /-- vrot (R203): Rotates the elements of an entry -/
  | vrot (d a px nx ty : Nat)
  /-- vbcast (R203): Broadcasts one element to every element -/
  | vbcast (d a px b qx ty : Nat)
  /-- viota (R203): Writes immediate plus element index to each element -/
  | viota (d imm ty : Nat)
  /-- vsplat (R203): Writes the immediate to every element -/
  | vsplat (d imm ty : Nat)
  /-- vmov (R203): Copies an entry -/
  | vmov (d a px ty : Nat)
  /-- vclr (R203): Writes zero bits to an entry -/
  | vclr (d ty : Nat)
  /-- vpf (R205): Reads an underfile entry into an operand queue -/
  | vpf (ex qx : Nat)
  /-- vtos (R206): Pops a queue entry and writes its first 64 bits to an S register -/
  | vtos (sx qx : Nat)
  /-- vmark (R207): Writes a token that completes when every earlier V and interval result has landed -/
  | vmark
  /-- V_RESULT_LANDING (R190): A V, interval, vpf or vtos result lands at its landing cycle, setting VST or JST bits -/
  | vResultLanding (core bank : Nat)
  /-- jadd (R215): Interval add -/
  | jadd (jd a b ty : Nat)
  /-- jsub (R215): Interval subtract -/
  | jsub (jd a b ty : Nat)
  /-- jmul (R215): Interval multiply -/
  | jmul (jd a b ty : Nat)
  /-- jdiv (R215): Interval divide -/
  | jdiv (jd a b ty : Nat)
  /-- jsqr (R215): Interval square -/
  | jsqr (jd a ty : Nat)
  /-- jsqrt (R215): Interval square root -/
  | jsqrt (jd a ty : Nat)
  /-- jexp2 (R215): Interval base-2 exponential -/
  | jexp2 (jd a ty : Nat)
  /-- jmax (R215): Interval maximum -/
  | jmax (jd a b ty : Nat)
  /-- jmin (R215): Interval minimum -/
  | jmin (jd a b ty : Nat)
  /-- jabs (R215): Interval absolute value -/
  | jabs (jd a ty : Nat)
  /-- jneg (R215): Interval negation -/
  | jneg (jd a ty : Nat)
  /-- jhull (R215): Smallest interval holding both operands -/
  | jhull (jd a b ty : Nat)
  /-- jisect (R215): Intersection of two intervals -/
  | jisect (jd a b ty : Nat)
  /-- jlo (R218): Extracts lower bounds to an entry -/
  | jlo (d a ex ty : Nat)
  /-- jhi (R218): Extracts upper bounds to an entry -/
  | jhi (d a ex ty : Nat)
  /-- jmid (R218): Extracts midpoints to an entry -/
  | jmid (d a ex ty : Nat)
  /-- jrad (R218): Extracts radii to an entry -/
  | jrad (d a ex ty : Nat)
  /-- jwid (R218): Extracts widths to an entry -/
  | jwid (d a ex ty : Nat)
  /-- jmk.pair (R216): Builds intervals from two queue entries of bounds -/
  | jmkPair (jd px a qx b ty : Nat)
  /-- jmk.point (R216): Builds point intervals from one queue entry -/
  | jmkPoint (jd px a ty : Nat)
  /-- jredsum (R221): Sums the lanes of an interval register outward -/
  | jredsum (jd a ty : Nat)
  /-- jcmp.lt (R222): Three-valued interval less-than -/
  | jcmpLt (md a b ty : Nat)
  /-- jcmp.le (R222): Three-valued interval less-or-equal -/
  | jcmpLe (md a b ty : Nat)
  /-- jcmp.eq (R222): Three-valued interval equality -/
  | jcmpEq (md a b ty : Nat)
  /-- jcmp.ne (R222): Three-valued interval inequality -/
  | jcmpNe (md a b ty : Nat)
  /-- jcmp.sub (R222): Tests whether one interval is a subset of the other -/
  | jcmpSub (md a b ty : Nat)
  /-- jcmp.dis (R222): Tests whether two intervals are disjoint -/
  | jcmpDis (md a b ty : Nat)
  /-- jempty (R223): Writes mask elements T for empty lanes, F for ordinary, U for NaI -/
  | jempty (md a ty : Nat)
  /-- jst (R219): Copies raw bits of half an interval register to an entry -/
  | jst (d a ex hx : Nat)
  /-- jcvt (R220): Converts intervals between if32 and ibf16 -/
  | jcvt (jd a px ty : Nat)
  /-- jadd.bk (R224): Contracts z = x + y -/
  | jaddBk (zz xx yy ty : Nat)
  /-- jsub.bk (R224): Contracts z = x - y -/
  | jsubBk (zz xx yy ty : Nat)
  /-- jmul.bk (R224): Contracts z = x × y -/
  | jmulBk (zz xx yy ty : Nat)
  /-- jdiv.bk (R224): Contracts z = x / y -/
  | jdivBk (zz xx yy ty : Nat)
  /-- jsqr.bk (R224): Contracts z = x² -/
  | jsqrBk (zz xx ty : Nat)
  /-- jsqrt.bk (R224): Contracts z = √x -/
  | jsqrtBk (zz xx ty : Nat)
  /-- jexp2.bk (R224): Contracts z = 2^x -/
  | jexp2Bk (zz xx ty : Nat)
  /-- jmax.bk (R224): Contracts z = max(x, y) -/
  | jmaxBk (zz xx yy ty : Nat)
  /-- jmin.bk (R224): Contracts z = min(x, y) -/
  | jminBk (zz xx yy ty : Nat)
  /-- jabs.bk (R224): Contracts z = |x| -/
  | jabsBk (zz xx ty : Nat)
  /-- jneg.bk (R224): Contracts z = -x -/
  | jnegBk (zz xx ty : Nat)
  /-- jsplat (R217): Writes a point interval from a bf16 immediate to every masked lane -/
  | jsplat (jd imm : Nat)
  /-- mtile (R235): Pops a format word, checks the Easel nest and starts its steps -/
  | mtile (b : Nat)
  /-- mzacc (R241): Clears an accumulator bank after earlier steps and copies -/
  | mzacc (b : Nat)
  /-- mret (R241): Retires the final copy of the preceding mtile if it did not retire -/
  | mret
  /-- mmark (R241): Token that completes when every earlier M token has completed -/
  | mmark
  /-- MTILE_STEP (R237): M runs one step of the nest once its A rows stand in the step buffer -/
  | mtileStep (core : Nat)
  /-- MTILE_REDUCTION_END (R239): At a reduction end M takes a copy of the accumulator bank when its drain buffer is free -/
  | mtileReductionEnd (core : Nat)
  /-- MTILE_RETIREMENT_DONE (R239): The drain of a retired copy finishes writing its units to the scratchpad -/
  | mtileRetirementDone (core : Nat)
  /-- sa.add (R251): Scatter-add of values into a table -/
  | saAdd (d a b ty : Nat)
  /-- sa.addq (R252): Scatter-add of scaled floating-point values into an i64 table -/
  | saAddq (d a b sx ty : Nat)
  /-- sa.min (R251): Scatter-minimum into a table -/
  | saMin (d a b ty : Nat)
  /-- sa.max (R251): Scatter-maximum into a table -/
  | saMax (d a b ty : Nat)
  /-- sa.or (R251): Scatter bitwise or into a table -/
  | saOr (d a b ty : Nat)
  /-- sa.and (R251): Scatter bitwise and into a table -/
  | saAnd (d a b ty : Nat)
  /-- sa.xch (R251): Scatter exchange of values with a table -/
  | saXch (d a b ty : Nat)
  /-- sa.cnt (R251): Counts index occurrences into a table -/
  | saCnt (d a ty : Nat)
  /-- sa.scl (R254): Writes a scale register -/
  | saScl (a sx : Nat)
  /-- sa.rd (R253): Converts i64 sums back into floating point -/
  | saRd (d a sx ty : Nat)
  /-- SA_WINDOW (R250): A reads, merges and sends the read-modify-writes of one window of 64 elements -/
  | saWindow (core bank : Nat)
  /-- SA_RMW_PERFORM (R250): A read-modify-write of one 32-byte unit performs at its target, own or a peer's -/
  | saRmwPerform (core bank : Nat)
  /-- BEAT_BOUNDARY (R87): The beat offset reaches the entry's length: the beat closes, debt resets and BEAT advances -/
  | beatBoundary (die : Nat)
  /-- ALIGNMENT_PAUSE_END (R143): After its alignment pause a die opens the next beat -/
  | alignmentPauseEnd (die : Nat)
  /-- BEAT_OBSERVED (R88): An engine observes a beat opening when the boundary signal reaches it, ending any bw wait on it -/
  | beatObserved (core bank eng : Nat)
  /-- BEACON_SEND (R141): Every 1,024 ticks a die sends a beacon on each link -/
  | beaconSend (die : Nat)
  /-- BEACON_RECEIVE (R141): A die receives a neighbour's beacon and updates its skew estimates -/
  | beaconReceive (die src : Nat)
  /-- LIVENESS_TIMEOUT (R317): A die that sends no beacon for 8,192 ticks is fenced off -/
  | livenessTimeout (die : Nat)
  /-- REFRESH_CHECK (R80): At D - 320 the base die looks for a planned dref and otherwise forces a refresh -/
  | refreshCheck (pc grp : Nat)
  /-- FREEZE_BEGIN (R84): At the notice's offset every die holds its beat offset -/
  | freezeBegin (die : Nat)
  /-- FORCED_REFRESH_START (R81): The forced refresh runs on its pseudo-channel in the last 96 ticks of the freeze -/
  | forcedRefreshStart (pc : Nat)
  /-- FREEZE_END (R87): After L ticks the offsets resume -/
  | freezeEnd (die : Nat)
  /-- DEADLINE_REFRESH (R83): A pseudo-channel with no attached gang is refreshed at each deadline without slip -/
  | deadlineRefresh (pc grp : Nat)
  /-- SEQ_COMMAND_START (R75): A command reaches its planned start, is checked against the timing rules and starts or faults -/
  | seqCommandStart (pc : Nat)
  /-- SEQ_COMMAND_COMPLETE (R103): A sequencer command reaches its completion point and its token completes -/
  | seqCommandComplete (pc : Nat)
  /-- TRANSFER_SEND (R382): One send of a drd or dwr crosses the vertical bus with parity checked per tick -/
  | transferSend (pc : Nat)
  /-- DRD_STRIP_LANDING (R109): A strip of a drd lands in the scratchpad at its fixed time -/
  | drdStripLanding (pc : Nat)
  /-- FAR_REQUEST_ARRIVAL (R78): A far request enters the base die's queue for its pseudo-channel -/
  | farRequestArrival (id : Nat)
  /-- FAR_SLOT (R78): A far slot of a pour beat serves the oldest queued far request -/
  | farSlot (pc : Nat)
  /-- RDC_BLOCK_ACCEPT (R95): The reduction engine queues an accepted parameter block -/
  | rdcBlockAccept (core bank : Nat)
  /-- REDUCTION_STRIP (R96): In a named beat the engine sums the sources of one destination strip -/
  | reductionStrip (stack : Nat)
  /-- REDUCTION_FINISH (R98): After the last strip the engine writes the flag with release and sends an event -/
  | reductionFinish (stack : Nat)
  /-- ADDRESS_PIECE_SEND (R125): An address command translates and sends its next piece -/
  | addressPieceSend (core bank n : Nat)
  /-- ADDRESS_PIECE_REPLY (R125): The reply or acknowledgement of a piece returns and lands -/
  | addressPieceReply (id : Nat)
  /-- PAGE_WALK (R325): A page-table walk completes with a leaf or a fault -/
  | pageWalk (core bank unit : Nat)
  /-- CTX_SEND (R146): A timed transfer is sent at its planned start along a fixed route -/
  | ctxSend (die : Nat)
  /-- CTX_LANDING (R146): A strip of a timed transfer lands in the destination scratchpad -/
  | ctxLanding (die : Nat)
  /-- NODE_FRAME_ARRIVAL (R153): A frame arrives at an Ethernet port and is served through the export table; head holds the offset
  in bits 31:0 and above them what the frame is: 0 a request, 1 an answer, 2 an answer with an error -/
  | nodeFrameArrival (port src dst head len : Nat) (wr : Bool) (data : List Byte)
  /-- NODE_ACKNOWLEDGEMENT (R152): A peer's acknowledgement or reply arrives and the piece performs -/
  | nodeAcknowledgement (id : Nat) (ok : Bool) (data : List Byte)
  /-- NODE_DESTINATION_UNREACHABLE (R152): Firmware declares a destination unreachable and the issuing gang raises aborted or fenced -/
  | nodeDestinationUnreachable (dev : Nat)
  /-- TASK_END (R284): An exiting task ends once all engines have stopped and its work has completed -/
  | taskEnd (core bank : Nat)
  /-- LQTAIL_WRITE (R309): A tail write makes new launch packets visible to the distributor -/
  | lqtailWrite (vf q val : Nat)
  /-- PACKET_READ (R309): The distributor reads a launch packet whole as an acquire -/
  | packetRead (vf q : Nat)
  /-- LQCTL_OFF (R308): Write of state 0 to a launch queue's control register -/
  | lqctlOff (vf q : Nat)
  /-- LQCTL_RUN (R320): Write of state 1 restarts a queue and clears broken -/
  | lqctlRun (vf q : Nat)
  /-- LQCTL_DRAIN (R319): Write of state 2 stops packet reads while issued launches finish -/
  | lqctlDrain (vf q : Nat)
  /-- LQCTL_ABORT (R320): Write of state 3 ends the queue's gangs and aborts its packets -/
  | lqctlAbort (vf q : Nat)
  /-- VFUSE_WRITE (R313): A driver write clears a virtual function's core-beat use count -/
  | vfuseWrite (vf : Nat)
  /-- PLANACT_WRITE (R70): A write of req and reqn requests a plan switch after checking the entries -/
  | planactWrite (val : Nat)
  /-- AELS_WRITE (R94): A write to the array error log status clears its counts, ovf and entry valid bits -/
  | aelsWrite (pc : Nat)
  /-- TELS_WRITE (R94): A write to the transfer error log status clears its counts, ovf and entry valid bits -/
  | telsWrite (pc : Nat)
  /-- MCLOG_WRITE (R351): A write of 0 to the valid bit clears a core's machine-check log -/
  | mclogWrite (core w val : Nat)
  /-- ASINV_WRITE (R330): Invalidates a page or an address space on every task of a virtual function -/
  | asinvWrite (vf val : Nat)
  /-- ASINV_DONE (R330): An invalidation completes once commands before its marker have completed -/
  | asinvDone (vf : Nat)
  /-- CEBASE_WRITE (R338): Sets a copy engine's ring; lgn 0 stops the engine after its current job -/
  | cebaseWrite (die val : Nat)
  /-- CETAIL_WRITE (R338): A tail write makes new copy-engine descriptors visible -/
  | cetailWrite (die val : Nat)
  /-- CE_JOB_START (R339): A copy engine takes a descriptor and starts or rejects its job -/
  | ceJobStart (die : Nat)
  /-- CE_JOB_COMPLETE (R339): A copy job ends and writes its completion word and ticket -/
  | ceJobComplete (die : Nat)
  /-- GANG_STOP_REQUEST (R340): A stop request reaches a task of the gang, and its sequencer accepts no more commands -/
  | gangStopRequest (core bank : Nat)
  /-- CUT_TAKEN (R341): Once every engine has stopped, the cut is taken and the gang detaches -/
  | cutTaken (gang : Nat)
  /-- CUTCMD_NO_EFFECT (R346): CUTCMD op 0 is ignored -/
  | cutcmdNoEffect (vf val : Nat)
  /-- CUTCMD_RESUME (R347): Resumes a detached gang at a chosen rebase beat -/
  | cutcmdResume (vf val : Nat)
  /-- CUTCMD_END (R346): Ends a detached gang, completing its launch with status 4 -/
  | cutcmdEnd (vf val : Nat)
  /-- CUTCMD_PREEMPT (R349): Requests every M of the gang to stop at its next retirement point -/
  | cutcmdPreempt (vf val : Nat)
  /-- ROW_REOPEN (R348): In the reopen span the sequencer reopens a saved row line and restores its hold -/
  | rowReopen (pc : Nat)
  /-- POWER_UP (R367): Power-up holds every core and sets BOOTCTL to waiting -/
  | powerUp
  /-- BOOTCTL_GO (R367): A write with go starts verification of the firmware image -/
  | bootctlGo (len : Nat)
  /-- BOOT_VERIFICATION_DONE (R367): Verification ends: the image is rejected with a reason or firmware starts -/
  | bootVerificationDone
  /-- PCIE_CONVENTIONAL_RESET (R372): A conventional reset returns BOOTCTL to state 0 -/
  | pcieConventionalReset
  /-- BWIN_WRITE (R367): Sets the PF BAR2 window base and re-enables BAR2 writes while running -/
  | bwinWrite (val : Nat)
  /-- HOST_BAR_ACCESS (R364): A host access through a function's BAR reaches registers or the function's address space -/
  | hostBarAccess (fn bar off size : Nat) (wr : Bool) (val : Nat)
  /-- HOST_WINDOW_COMPLETION (R365): A host-window read or zero-length read completes, performing earlier writes or raising an error -/
  | hostWindowCompletion (id : Nat) (ok : Bool) (data : List Byte)
  /-- ATTREQ_WRITE (R370): A write with a report address starts an attestation report -/
  | attreqWrite (val : Nat)
  /-- ATTESTATION_REPORT_DONE (R370): Firmware writes the signed report, clears busy and sends an event -/
  | attestationReportDone
  /-- RLPTR_WRITE (R366): A write clears the replay log's overflow bit -/
  | rlptrWrite (val : Nat)
  /-- FATAL_ERROR_DUMP (R372): After a fatal error firmware writes the state dump and sends an event -/
  | fatalErrorDump (cause : Nat)
  /-- PWRCTL_WRITE (R356): Firmware or the driver requests a power level and sets thresholds -/
  | pwrctlWrite (die val : Nat)
  /-- THERMAL_THRESHOLD_CHANGE (R358): A die temperature threshold engages or releases, moving the floor or fencing the die -/
  | thermalThresholdChange (die temp : Nat)
  /-- STACK_HOT_CHANGE (R79): A stack becomes hot or cool, changing refresh deadlines -/
  | stackHotChange (stack temp : Nat)
  /-- CLOCK_SKIP_TIMEOUT (R361): If no switch point comes 12,800 ticks after a cheaper grant, the die skips clock edges -/
  | clockSkipTimeout (die : Nat)
  /-- TRANSITION_WINDOW_END (R362): A clock transition window ends and held causes detach their gangs -/
  | transitionWindowEnd (die : Nat)
  /-- REGISTER_WRITE (R364): A write to a management register that has no behaviour of its own stores the value -/
  | registerWrite (pa val : Nat)
  /-- C_SCRATCHPAD_COMMAND_COMPLETE (R124): A scratchpad command of C (ccpy, cvf, cfv, ccv, cpl, cfq, cdq) finishes moving its units, pushing or popping entries and completing its token -/
  | cScratchpadCommandComplete (core bank : Nat)
  /-- SA_RD_COMPLETE (R255): A's sa.rd finishes writing its output elements, and its token completes so A can take its next instruction -/
  | saRdComplete (core bank : Nat)
  /-- EVENT_MESSAGE_TIMESTAMP (R150): An IEEE 1588 event message crosses an Ethernet port's reference plane on ingress or egress and the hardware takes its timestamp -/
  | eventMessageTimestamp (port dir : Nat)
deriving DecidableEq, Repr

end Sys2Proof
end

