-- ==== Sys2Proof/Config.lean ====
section
/-!
DEFINITION. What one implementation of the machine fixes and what the manual leaves open: the order in which the agents
move where no rule orders them, the choices among permitted outcomes, and the cryptographic functions that the manual
names without defining. None of them has a body, so no proof can see what it is.
-/

namespace Sys2Proof

/-- One move of the machine (log entry 4): an engine takes its next step; an event of the opcode table takes place; a
half tick passes on a die; or the environment makes a stored strip or a coming transfer bad, or a die fail (R89, R90, R317). -/
inductive Move where
  /-- engine eng of the task in that bank of the core does the next thing of its walk -/
  | run (core bank : Nat) (eng : Eng)
  /-- the event i happens -/
  | event (i : Instr)
  /-- half a tick passes on the die, or the first of its timed events that are due happens -/
  | elapse (die : Nat)
  /-- the strip of 32 bytes at array position strip gets syms symbols in error: bytes to flip, and its syndrome -/
  | cellFault (strip syms syn : Nat) (flips : List Nat)
  /-- the next send of the pseudo-channel fails parity at the listed ticks, each with its lane group -/
  | busFault (pc : Nat) (fails : List (Nat × Nat))
  /-- the die fails: it sends no beacon any more (R317) -/
  | dieFault (die : Nat)
deriving DecidableEq, Repr, Inhabited

namespace Config

/-- The move taken where nothing in the state says which agent moves next (R291, R391). -/
opaque freeMove : Nat → Move

/-- A choice among outcomes that a rule permits. -/
opaque freeChoice : Nat → Nat

/-- SHA-384 of a byte string, as a number of 384 bits (R367). -/
opaque sha384 : List Byte → Nat

/-- ECDSA over brainpoolP384r1: the 97 bytes of a key, a hash, r and s (R367). -/
opaque ecdsaVerify : List Byte → Nat → Nat → Nat → Bool

/-- The hash of the firmware key in mask ROM (R367). -/
opaque romHash : Nat

/-- The public key that the physical unclonable function of stack 0 gives, 97 bytes (R370). -/
opaque identityKey : List Byte

/-- The signature r, s that the boot controller makes over a hash with its private key (R370). -/
opaque identitySign : Nat → Nat × Nat

end Config

end Sys2Proof
end

