-- ==== Sys2Proof/WellFormed.lean ====
section
/-!
DEFINITION. Which instructions are well formed: every operand lies in the field that carries it (02_program_text R43), and
no operand has a value that the reference of the instruction calls illegal or reserved (R44, R390 steps 3 and 4). An event
is well formed when the place it names exists.
-/

namespace Sys2Proof

namespace WellFormed

def lt (a n : Nat) : Bool := decide (a < n)
def ge (a n : Nat) : Bool := decide (n ≤ a)

/-- The register numbers of R287. -/
def csrKnown (n : Nat) : Bool :=
  lt n 9 || (ge n 0x10 && lt n 0x17) || (ge n 0x18 && lt n 0x1C) || (ge n 0x20 && lt n 0x25)

/-- The size in bytes of an element of a V type code (R187). -/
def esize (ty : Nat) : Nat := 
  match ty with
  | 0 | 2 | 3 => 4
  | 1 | 4 | 5 => 2
  | _ => 1

/-- The number of parts of a vcvt (R199): the larger element count over the smaller. -/
def cvtParts (d s : Nat) : Nat := if lt (esize d) (esize s) then esize s / esize d else esize d / esize s

end WellFormed

open WellFormed in
/-- The instruction is well formed. -/
def wellFormed : Instr → Bool
  | .nop16 => true
  | .bw nx => lt nx 2048
  | .mov16 d a => lt d 32 && lt a 32
  | .addi16 d imm => lt d 32 && lt imm 64
  | .li16 d imm => lt d 32 && lt imm 64
  | .blockHeader ty imm lx rl => lt ty 8 && lt imm 2 && lt lx 1024 && lt rl 1024 && lt ty 5 && ge lx 1 && lt rl 1024
  | .repnPop core bank eng => lt core 768 && lt bank 2 && lt eng 5
  | .pathRecordTake core bank eng => lt core 768 && lt bank 2 && lt eng 5
  | .add d a b => lt d 32 && lt a 32 && lt b 32
  | .sub d a b => lt d 32 && lt a 32 && lt b 32
  | .and d a b => lt d 32 && lt a 32 && lt b 32
  | .or d a b => lt d 32 && lt a 32 && lt b 32
  | .xor d a b => lt d 32 && lt a 32 && lt b 32
  | .andn d a b => lt d 32 && lt a 32 && lt b 32
  | .sll d a b => lt d 32 && lt a 32 && lt b 32
  | .srl d a b => lt d 32 && lt a 32 && lt b 32
  | .sra d a b => lt d 32 && lt a 32 && lt b 32
  | .rotl d a b => lt d 32 && lt a 32 && lt b 32
  | .min d a b => lt d 32 && lt a 32 && lt b 32
  | .max d a b => lt d 32 && lt a 32 && lt b 32
  | .minn d a b => lt d 32 && lt a 32 && lt b 32
  | .maxn d a b => lt d 32 && lt a 32 && lt b 32
  | .mul d a b => lt d 32 && lt a 32 && lt b 32
  | .mulh d a b => lt d 32 && lt a 32 && lt b 32
  | .mulhn d a b => lt d 32 && lt a 32 && lt b 32
  | .div d a b => lt d 32 && lt a 32 && lt b 32
  | .divn d a b => lt d 32 && lt a 32 && lt b 32
  | .rem d a b => lt d 32 && lt a 32 && lt b 32
  | .remn d a b => lt d 32 && lt a 32 && lt b 32
  | .clz d a => lt d 32 && lt a 32
  | .ctz d a => lt d 32 && lt a 32
  | .popc d a => lt d 32 && lt a 32
  | .addi d a imm => lt d 32 && lt a 32 && lt imm 32768
  | .andi d a imm => lt d 32 && lt a 32 && lt imm 32768
  | .ori d a imm => lt d 32 && lt a 32 && lt imm 32768
  | .xori d a imm => lt d 32 && lt a 32 && lt imm 32768
  | .slli d a sx => lt d 32 && lt a 32 && lt sx 64
  | .srli d a sx => lt d 32 && lt a 32 && lt sx 64
  | .srai d a sx => lt d 32 && lt a 32 && lt sx 64
  | .lih d imm => lt d 32 && lt imm 32768
  | .cmpEq px a b => lt px 8 && lt a 32 && lt b 32
  | .cmpNe px a b => lt px 8 && lt a 32 && lt b 32
  | .cmpLt px a b => lt px 8 && lt a 32 && lt b 32
  | .cmpLe px a b => lt px 8 && lt a 32 && lt b 32
  | .cmpLtn px a b => lt px 8 && lt a 32 && lt b 32
  | .cmpLen px a b => lt px 8 && lt a 32 && lt b 32
  | .cmpiEq px a imm => lt px 8 && lt a 32 && lt imm 32768
  | .cmpiLt px a imm => lt px 8 && lt a 32 && lt imm 32768
  | .cmpiLtn px a imm => lt px 8 && lt a 32 && lt imm 32768
  | .sel d a b nx => lt d 32 && lt a 32 && lt b 32 && lt nx 8
  | .pand d a b => lt d 8 && lt a 8 && lt b 8
  | .por d a b => lt d 8 && lt a 8 && lt b 8
  | .pxor d a b => lt d 8 && lt a 8 && lt b 8
  | .pnot d a => lt d 8 && lt a 8
  | .pknow d a => lt d 8 && lt a 8
  | .pset d vx => lt d 8 && lt vx 4 && lt vx 3
  | .popv px a ex => lt px 8 && lt a 32 && lt ex 32
  | .ldI8 d a imm => lt d 32 && lt a 32 && lt imm 32768
  | .ldN8 d a imm => lt d 32 && lt a 32 && lt imm 32768
  | .ldI16 d a imm => lt d 32 && lt a 32 && lt imm 32768
  | .ldN16 d a imm => lt d 32 && lt a 32 && lt imm 32768
  | .ldI32 d a imm => lt d 32 && lt a 32 && lt imm 32768
  | .ldN32 d a imm => lt d 32 && lt a 32 && lt imm 32768
  | .ldI64 d a imm => lt d 32 && lt a 32 && lt imm 32768
  | .st8 d a imm => lt d 32 && lt a 32 && lt imm 32768
  | .st16 d a imm => lt d 32 && lt a 32 && lt imm 32768
  | .st32 d a imm => lt d 32 && lt a 32 && lt imm 32768
  | .st64 d a imm => lt d 32 && lt a 32 && lt imm 32768
  | .ldAcq d a sx => lt d 32 && lt a 32 && lt sx 8 && lt sx 5
  | .stRel d a sx => lt d 32 && lt a 32 && lt sx 8 && lt sx 5
  | .sLoadReturn core bank => lt core 768 && lt bank 2
  | .sStorePerform core bank => lt core 768 && lt bank 2
  | .bT px off => lt px 8 && lt off 1048576
  | .bF px off => lt px 8 && lt off 1048576
  | .bU px off => lt px 8 && lt off 1048576
  | .b off => lt off 1048576
  | .jal d off => lt d 32 && lt off 1048576
  | .jr d a => lt d 32 && lt a 32
  | .swpt a => lt a 32
  | .pwr px lx => lt px 8 && lt lx 4 && lt lx 3
  | .bnow d => lt d 32
  | .palign a imm => lt a 32 && lt imm 32768
  | .waitt a => lt a 32
  | .waittWake core bank => lt core 768 && lt bank 2
  | .tick d => lt d 32
  | .ntime d => lt d 32
  | .fence sx ex => lt sx 8 && lt ex 32 && lt sx 5
  | .fenceRetire core bank => lt core 768 && lt bank 2
  | .tlbi a => lt a 32
  | .tlbiAll => true
  | .isync => true
  | .smark => true
  | .ezw a b wx => lt a 32 && lt b 2 && lt wx 16
  | .fpush a => lt a 32
  | .repn ex a => lt ex 32 && lt a 32 && lt ex 5
  | .handC a => lt a 32
  | .handA a nx => lt a 32 && lt nx 32
  | .evpop d => lt d 32
  | .evpeek d => lt d 32
  | .gbar sx => lt sx 8 && ge sx 1 && lt sx 5
  | .gbarRelease core bank => lt core 768 && lt bank 2
  | .exit a => lt a 32
  | .post d a b => lt d 32 && lt a 32 && lt b 32
  | .csrr d cx => lt d 32 && lt cx 4096 && csrKnown cx
  | .csrw a cx => lt a 32 && lt cx 4096 && csrKnown cx
  | .csrs a cx => lt a 32 && lt cx 4096 && csrKnown cx
  | .csrc a cx => lt a 32 && lt cx 4096 && csrKnown cx
  | .svc imm => lt imm 32768
  | .brk imm => lt imm 32768
  | .dopen rl a gp nx => lt rl 128 && lt a 16 && lt gp 64 && lt nx 2
  | .dopenw rl a gp nx => lt rl 8 && lt a 16 && lt gp 64 && lt nx 2
  | .dhold rl gp nx => lt rl 128 && lt gp 64 && lt nx 2
  | .drel rl gp nx => lt rl 128 && lt gp 64 && lt nx 2
  | .drelw rl gp nx => lt rl 8 && lt gp 64 && lt nx 2
  | .drd rl a gp nx => lt rl 128 && lt a 16 && lt gp 64 && lt nx 2
  | .dwr rl a gp nx => lt rl 128 && lt a 16 && lt gp 64 && lt nx 2
  | .dref a gp nx => lt a 16 && lt gp 64 && lt nx 2
  | .dgap gp nx => lt gp 64 && lt nx 2
  | .cbeat a => lt a 16
  | .iaZero d gp nx sx cx => lt d 8 && lt gp 32 && lt nx 2 && lt sx 32 && lt cx 32 && lt (sx + cx) 32
  | .iaCopy d a gp nx sx cx => lt d 8 && lt a 8 && lt gp 32 && lt nx 2 && lt sx 32 && lt cx 32 && lt (sx + cx) 32
  | .iaAddBf16 d a b gp nx sx cx => lt d 8 && lt a 8 && lt b 8 && lt gp 32 && lt nx 2 && lt sx 32 && lt cx 32 && lt (sx + cx) 32
  | .iaAddF32 d a b gp nx sx cx => lt d 8 && lt a 8 && lt b 8 && lt gp 32 && lt nx 2 && lt sx 32 && lt cx 32 && lt (sx + cx) 32
  | .iaSubBf16 d a b gp nx sx cx => lt d 8 && lt a 8 && lt b 8 && lt gp 32 && lt nx 2 && lt sx 32 && lt cx 32 && lt (sx + cx) 32
  | .iaSubF32 d a b gp nx sx cx => lt d 8 && lt a 8 && lt b 8 && lt gp 32 && lt nx 2 && lt sx 32 && lt cx 32 && lt (sx + cx) 32
  | .iaMulBf16 d a b gp nx sx cx => lt d 8 && lt a 8 && lt b 8 && lt gp 32 && lt nx 2 && lt sx 32 && lt cx 32 && lt (sx + cx) 32
  | .iaMulF32 d a b gp nx sx cx => lt d 8 && lt a 8 && lt b 8 && lt gp 32 && lt nx 2 && lt sx 32 && lt cx 32 && lt (sx + cx) 32
  | .iaFmaBf16 d a b gp nx sx cx => lt d 8 && lt a 8 && lt b 8 && lt gp 32 && lt nx 2 && lt sx 32 && lt cx 32 && lt (sx + cx) 32
  | .iaFmaF32 d a b gp nx sx cx => lt d 8 && lt a 8 && lt b 8 && lt gp 32 && lt nx 2 && lt sx 32 && lt cx 32 && lt (sx + cx) 32
  | .iaAxpyBf16 d a b gp nx sx cx => lt d 8 && lt a 8 && lt b 8 && lt gp 32 && lt nx 2 && lt sx 32 && lt cx 32 && lt (sx + cx) 32
  | .iaAxpyF32 d a b gp nx sx cx => lt d 8 && lt a 8 && lt b 8 && lt gp 32 && lt nx 2 && lt sx 32 && lt cx 32 && lt (sx + cx) 32
  | .iaAccBf16 wx a gp nx sx cx => lt wx 8 && lt a 8 && lt gp 32 && lt nx 2 && lt sx 32 && lt cx 32 && lt (sx + cx) 32 && lt wx 2
  | .iaAccF32 wx a gp nx sx cx => lt wx 8 && lt a 8 && lt gp 32 && lt nx 2 && lt sx 32 && lt cx 32 && lt (sx + cx) 32 && lt wx 2
  | .iaWldF32 wx a gp nx sx cx => lt wx 8 && lt a 8 && lt gp 32 && lt nx 2 && lt sx 32 && lt cx 32 && lt (sx + cx) 32 && lt wx 2
  | .iaWldBf16 wx a gp nx sx cx => lt wx 8 && lt a 8 && lt gp 32 && lt nx 2 && lt sx 32 && lt cx 32 && lt (sx + cx) 32 && lt wx 2
  | .iaWstF32 d wx gp nx sx cx => lt d 8 && lt wx 8 && lt gp 32 && lt nx 2 && lt sx 32 && lt cx 32 && lt (sx + cx) 32 && lt wx 2
  | .iaWstBf16 d wx gp nx sx cx => lt d 8 && lt wx 8 && lt gp 32 && lt nx 2 && lt sx 32 && lt cx 32 && lt (sx + cx) 32 && lt wx 2
  | .iaMaxBf16 d a b gp nx sx cx => lt d 8 && lt a 8 && lt b 8 && lt gp 32 && lt nx 2 && lt sx 32 && lt cx 32 && lt (sx + cx) 32
  | .iaMaxF32 d a b gp nx sx cx => lt d 8 && lt a 8 && lt b 8 && lt gp 32 && lt nx 2 && lt sx 32 && lt cx 32 && lt (sx + cx) 32
  | .iaMinBf16 d a b gp nx sx cx => lt d 8 && lt a 8 && lt b 8 && lt gp 32 && lt nx 2 && lt sx 32 && lt cx 32 && lt (sx + cx) 32
  | .iaMinF32 d a b gp nx sx cx => lt d 8 && lt a 8 && lt b 8 && lt gp 32 && lt nx 2 && lt sx 32 && lt cx 32 && lt (sx + cx) 32
  | .iaCvt d a b gp nx sx cx => lt d 8 && lt a 8 && lt b 8 && lt gp 32 && lt nx 2 && lt sx 32 && lt cx 32 && lt (sx + cx) 32
  | .iaScale a gp nx sx => lt a 8 && lt gp 32 && lt nx 2 && lt sx 32
  | .cld a b cx => lt a 16 && lt b 16 && lt cx 16
  | .cldBs a b cx => lt a 16 && lt b 16 && lt cx 16
  | .cst a b cx => lt a 16 && lt b 16 && lt cx 16
  | .cstBs a b cx => lt a 16 && lt b 16 && lt cx 16
  | .ccpy a b cx => lt a 16 && lt b 16 && lt cx 16
  | .cfq nx a cx px => lt nx 16 && lt a 16 && lt cx 16 && lt px 8 && lt nx 8
  | .cdq a nx cx => lt a 16 && lt nx 16 && lt cx 16 && lt nx 4
  | .cvf a b cx => lt a 16 && lt b 16 && lt cx 16
  | .cfv a b cx => lt a 16 && lt b 16 && lt cx 16
  | .ccv a b cx => lt a 16 && lt b 16 && lt cx 16
  | .cpl a b cx => lt a 16 && lt b 16 && lt cx 16
  | .cgat a b cx ex => lt a 16 && lt b 16 && lt cx 16 && lt ex 8 && lt ex 4
  | .csct a b cx ex => lt a 16 && lt b 16 && lt cx 16 && lt ex 8 && lt ex 4
  | .cpat a px => lt a 16 && lt px 8
  | .rdc a => lt a 16
  | .ctx d sx lx gp nx => lt d 16 && lt sx 16 && lt lx 16 && lt gp 64 && lt nx 2
  | .cadd d a b => lt d 16 && lt a 16 && lt b 16
  | .caddSub d a b => lt d 16 && lt a 16 && lt b 16
  | .caddShl d a b => lt d 16 && lt a 16 && lt b 16
  | .cmov d a => lt d 16 && lt a 16
  | .cmovLd d a => lt d 16 && lt a 16
  | .cmovSt d a => lt d 16 && lt a 16
  | .take d => lt d 16
  | .vadd d a px b qx ty => lt d 1024 && lt a 8 && lt px 2 && lt b 8 && lt qx 2 && lt ty 8 && lt d 772
  | .vsub d a px b qx ty => lt d 1024 && lt a 8 && lt px 2 && lt b 8 && lt qx 2 && lt ty 8 && lt d 772
  | .vmul d a px b qx ty => lt d 1024 && lt a 8 && lt px 2 && lt b 8 && lt qx 2 && lt ty 8 && lt d 772
  | .vfma d a px b qx cx rl ty => lt d 1024 && lt a 8 && lt px 2 && lt b 8 && lt qx 2 && lt cx 8 && lt rl 2 && lt ty 8 && lt d 772 && lt ty 2
  | .vfms d a px b qx cx rl ty => lt d 1024 && lt a 8 && lt px 2 && lt b 8 && lt qx 2 && lt cx 8 && lt rl 2 && lt ty 8 && lt d 772 && lt ty 2
  | .vmin d a px b qx ty => lt d 1024 && lt a 8 && lt px 2 && lt b 8 && lt qx 2 && lt ty 8 && lt d 772
  | .vmax d a px b qx ty => lt d 1024 && lt a 8 && lt px 2 && lt b 8 && lt qx 2 && lt ty 8 && lt d 772
  | .vabs d a px ty => lt d 1024 && lt a 8 && lt px 2 && lt ty 8 && lt d 772
  | .vneg d a px ty => lt d 1024 && lt a 8 && lt px 2 && lt ty 8 && lt d 772
  | .vand d a px b qx ty => lt d 1024 && lt a 8 && lt px 2 && lt b 8 && lt qx 2 && lt ty 8 && lt d 772
  | .vor d a px b qx ty => lt d 1024 && lt a 8 && lt px 2 && lt b 8 && lt qx 2 && lt ty 8 && lt d 772
  | .vxor d a px b qx ty => lt d 1024 && lt a 8 && lt px 2 && lt b 8 && lt qx 2 && lt ty 8 && lt d 772
  | .vshl d a px b qx ty => lt d 1024 && lt a 8 && lt px 2 && lt b 8 && lt qx 2 && lt ty 8 && lt d 772 && ge ty 2
  | .vshr d a px b qx ty => lt d 1024 && lt a 8 && lt px 2 && lt b 8 && lt qx 2 && lt ty 8 && lt d 772 && ge ty 2
  | .vsra d a px b qx ty => lt d 1024 && lt a 8 && lt px 2 && lt b 8 && lt qx 2 && lt ty 8 && lt d 772 && ge ty 2
  | .vrcp d a px ty => lt d 1024 && lt a 8 && lt px 2 && lt ty 8 && lt d 772 && lt ty 2
  | .vrsq d a px ty => lt d 1024 && lt a 8 && lt px 2 && lt ty 8 && lt d 772 && lt ty 2
  | .vexp2 d a px ty => lt d 1024 && lt a 8 && lt px 2 && lt ty 8 && lt d 772 && lt ty 2
  | .vlog2 d a px ty => lt d 1024 && lt a 8 && lt px 2 && lt ty 8 && lt d 772 && lt ty 2
  | .vsqrt d a px ty => lt d 1024 && lt a 8 && lt px 2 && lt ty 8 && lt d 772 && lt ty 2
  | .vdiv d a px b qx ty => lt d 1024 && lt a 8 && lt px 2 && lt b 8 && lt qx 2 && lt ty 8 && lt d 772 && lt ty 2
  | .vcmpEq md a px b qx ty => lt md 16 && lt a 8 && lt px 2 && lt b 8 && lt qx 2 && lt ty 8
  | .vcmpNe md a px b qx ty => lt md 16 && lt a 8 && lt px 2 && lt b 8 && lt qx 2 && lt ty 8
  | .vcmpLt md a px b qx ty => lt md 16 && lt a 8 && lt px 2 && lt b 8 && lt qx 2 && lt ty 8
  | .vcmpLe md a px b qx ty => lt md 16 && lt a 8 && lt px 2 && lt b 8 && lt qx 2 && lt ty 8
  | .vcmpGt md a px b qx ty => lt md 16 && lt a 8 && lt px 2 && lt b 8 && lt qx 2 && lt ty 8
  | .vcmpGe md a px b qx ty => lt md 16 && lt a 8 && lt px 2 && lt b 8 && lt qx 2 && lt ty 8
  | .vcmpUo md a px b qx ty => lt md 16 && lt a 8 && lt px 2 && lt b 8 && lt qx 2 && lt ty 8
  | .vsel d a px b qx cx rl ty => lt d 1024 && lt a 8 && lt px 2 && lt b 8 && lt qx 2 && lt cx 8 && lt rl 2 && lt ty 8 && lt d 772
  | .mand d a b => lt d 16 && lt a 16 && lt b 16
  | .mor d a b => lt d 16 && lt a 16 && lt b 16
  | .mxor d a b => lt d 16 && lt a 16 && lt b 16
  | .mnot d a => lt d 16 && lt a 16
  | .mknow d a => lt d 16 && lt a 16
  | .mall d a => lt d 16 && lt a 16
  | .mnone d a => lt d 16 && lt a 16
  | .vcvt d a px sx xx ty => lt d 1024 && lt a 8 && lt px 2 && lt sx 8 && lt xx 8 && lt ty 8 && lt d 772 && (ty != sx) && lt xx (cvtParts ty sx)
  | .vqnt d a px wx ty => lt d 1024 && lt a 8 && lt px 2 && lt wx 8 && lt ty 8 && lt d 772 && lt ty 2 && lt wx 4
  | .vdeq d a px wx ty => lt d 1024 && lt a 8 && lt px 2 && lt wx 8 && lt ty 8 && lt d 772 && lt ty 2 && lt wx 4
  | .vredsum d a px ty => lt d 1024 && lt a 8 && lt px 2 && lt ty 8 && lt d 772
  | .vredmax d a px ty => lt d 1024 && lt a 8 && lt px 2 && lt ty 8 && lt d 772
  | .vredmin d a px ty => lt d 1024 && lt a 8 && lt px 2 && lt ty 8 && lt d 772
  | .vperm d a px b qx cx rl ty => lt d 1024 && lt a 8 && lt px 2 && lt b 8 && lt qx 2 && lt cx 8 && lt rl 2 && lt ty 8 && lt d 772 && (ge ty 6 || (cx == 0 && rl == 0))
  | .vrot d a px nx ty => lt d 1024 && lt a 8 && lt px 2 && lt nx 256 && lt ty 8 && lt d 772
  | .vbcast d a px b qx ty => lt d 1024 && lt a 8 && lt px 2 && lt b 8 && lt qx 2 && lt ty 8 && lt d 772
  | .viota d imm ty => lt d 1024 && lt imm 4096 && lt ty 8 && lt d 772
  | .vsplat d imm ty => lt d 1024 && lt imm 4096 && lt ty 8 && lt d 772
  | .vmov d a px ty => lt d 1024 && lt a 8 && lt px 2 && lt ty 8 && lt d 772
  | .vclr d ty => lt d 1024 && lt ty 8 && lt d 772
  | .vpf ex qx => lt ex 1024 && lt qx 8 && lt ex 768
  | .vtos sx qx => lt sx 32 && lt qx 8
  | .vmark => true
  | .vResultLanding core bank => lt core 768 && lt bank 2
  | .jadd jd a b ty => lt jd 32 && lt a 32 && lt b 32 && lt ty 2
  | .jsub jd a b ty => lt jd 32 && lt a 32 && lt b 32 && lt ty 2
  | .jmul jd a b ty => lt jd 32 && lt a 32 && lt b 32 && lt ty 2
  | .jdiv jd a b ty => lt jd 32 && lt a 32 && lt b 32 && lt ty 2
  | .jsqr jd a ty => lt jd 32 && lt a 32 && lt ty 2
  | .jsqrt jd a ty => lt jd 32 && lt a 32 && lt ty 2
  | .jexp2 jd a ty => lt jd 32 && lt a 32 && lt ty 2
  | .jmax jd a b ty => lt jd 32 && lt a 32 && lt b 32 && lt ty 2
  | .jmin jd a b ty => lt jd 32 && lt a 32 && lt b 32 && lt ty 2
  | .jabs jd a ty => lt jd 32 && lt a 32 && lt ty 2
  | .jneg jd a ty => lt jd 32 && lt a 32 && lt ty 2
  | .jhull jd a b ty => lt jd 32 && lt a 32 && lt b 32 && lt ty 2
  | .jisect jd a b ty => lt jd 32 && lt a 32 && lt b 32 && lt ty 2
  | .jlo d a ex ty => lt d 32 && lt a 32 && lt ex 32 && lt ty 2 && lt (32 * d + ex) 772
  | .jhi d a ex ty => lt d 32 && lt a 32 && lt ex 32 && lt ty 2 && lt (32 * d + ex) 772
  | .jmid d a ex ty => lt d 32 && lt a 32 && lt ex 32 && lt ty 2 && lt (32 * d + ex) 772
  | .jrad d a ex ty => lt d 32 && lt a 32 && lt ex 32 && lt ty 2 && lt (32 * d + ex) 772
  | .jwid d a ex ty => lt d 32 && lt a 32 && lt ex 32 && lt ty 2 && lt (32 * d + ex) 772
  | .jmkPair jd px a qx b ty => lt jd 32 && lt px 2 && lt a 8 && lt qx 2 && lt b 8 && lt ty 2
  | .jmkPoint jd px a ty => lt jd 32 && lt px 2 && lt a 8 && lt ty 2
  | .jredsum jd a ty => lt jd 32 && lt a 32 && lt ty 2
  | .jcmpLt md a b ty => lt md 16 && lt a 32 && lt b 32 && lt ty 2
  | .jcmpLe md a b ty => lt md 16 && lt a 32 && lt b 32 && lt ty 2
  | .jcmpEq md a b ty => lt md 16 && lt a 32 && lt b 32 && lt ty 2
  | .jcmpNe md a b ty => lt md 16 && lt a 32 && lt b 32 && lt ty 2
  | .jcmpSub md a b ty => lt md 16 && lt a 32 && lt b 32 && lt ty 2
  | .jcmpDis md a b ty => lt md 16 && lt a 32 && lt b 32 && lt ty 2
  | .jempty md a ty => lt md 16 && lt a 32 && lt ty 2
  | .jst d a ex hx => lt d 32 && lt a 32 && lt ex 32 && lt hx 2 && lt (32 * d + ex) 772
  | .jcvt jd a px ty => lt jd 32 && lt a 32 && lt px 2 && lt ty 2
  | .jaddBk zz xx yy ty => lt zz 32 && lt xx 32 && lt yy 32 && lt ty 2 && (zz != xx) && (zz != yy) && (xx != yy)
  | .jsubBk zz xx yy ty => lt zz 32 && lt xx 32 && lt yy 32 && lt ty 2 && (zz != xx) && (zz != yy) && (xx != yy)
  | .jmulBk zz xx yy ty => lt zz 32 && lt xx 32 && lt yy 32 && lt ty 2 && (zz != xx) && (zz != yy) && (xx != yy)
  | .jdivBk zz xx yy ty => lt zz 32 && lt xx 32 && lt yy 32 && lt ty 2 && (zz != xx) && (zz != yy) && (xx != yy)
  | .jsqrBk zz xx ty => lt zz 32 && lt xx 32 && lt ty 2 && (zz != xx)
  | .jsqrtBk zz xx ty => lt zz 32 && lt xx 32 && lt ty 2 && (zz != xx)
  | .jexp2Bk zz xx ty => lt zz 32 && lt xx 32 && lt ty 2 && (zz != xx)
  | .jmaxBk zz xx yy ty => lt zz 32 && lt xx 32 && lt yy 32 && lt ty 2 && (zz != xx) && (zz != yy) && (xx != yy)
  | .jminBk zz xx yy ty => lt zz 32 && lt xx 32 && lt yy 32 && lt ty 2 && (zz != xx) && (zz != yy) && (xx != yy)
  | .jabsBk zz xx ty => lt zz 32 && lt xx 32 && lt ty 2 && (zz != xx)
  | .jnegBk zz xx ty => lt zz 32 && lt xx 32 && lt ty 2 && (zz != xx)
  | .jsplat jd imm => lt jd 32 && lt imm 65536
  | .mtile b => lt b 2
  | .mzacc b => lt b 2
  | .mret => true
  | .mmark => true
  | .mtileStep core => lt core 768
  | .mtileReductionEnd core => lt core 768
  | .mtileRetirementDone core => lt core 768
  | .saAdd d a b ty => lt d 16 && lt a 16 && lt b 16 && lt ty 8 && lt ty 6
  | .saAddq d a b sx ty => lt d 16 && lt a 16 && lt b 16 && lt sx 16 && lt ty 8 && lt ty 2
  | .saMin d a b ty => lt d 16 && lt a 16 && lt b 16 && lt ty 8 && lt ty 6
  | .saMax d a b ty => lt d 16 && lt a 16 && lt b 16 && lt ty 8 && lt ty 6
  | .saOr d a b ty => lt d 16 && lt a 16 && lt b 16 && lt ty 8 && ge ty 2 && lt ty 6
  | .saAnd d a b ty => lt d 16 && lt a 16 && lt b 16 && lt ty 8 && ge ty 2 && lt ty 6
  | .saXch d a b ty => lt d 16 && lt a 16 && lt b 16 && lt ty 8 && lt ty 6
  | .saCnt d a ty => lt d 16 && lt a 16 && lt ty 8 && ge ty 2 && lt ty 6
  | .saScl a sx => lt a 16 && lt sx 16
  | .saRd d a sx ty => lt d 16 && lt a 16 && lt sx 16 && lt ty 8 && lt ty 2
  | .saWindow core bank => lt core 768 && lt bank 2
  | .saRmwPerform core bank => lt core 768 && lt bank 2
  | .beatBoundary die => lt die 8
  | .alignmentPauseEnd die => lt die 8
  | .beatObserved core bank eng => lt core 768 && lt bank 2 && lt eng 5
  | .beaconSend die => lt die 8
  | .beaconReceive die _ => lt die 8
  | .livenessTimeout die => lt die 8
  | .refreshCheck pc grp => lt pc 768 && lt grp 8192
  | .freezeBegin die => lt die 8
  | .forcedRefreshStart pc => lt pc 768
  | .freezeEnd die => lt die 8
  | .deadlineRefresh pc grp => lt pc 768 && lt grp 8192
  | .seqCommandStart pc => lt pc 768
  | .seqCommandComplete pc => lt pc 768
  | .transferSend pc => lt pc 768
  | .drdStripLanding pc => lt pc 768
  | .farRequestArrival _ => true
  | .farSlot pc => lt pc 768
  | .rdcBlockAccept core bank => lt core 768 && lt bank 2
  | .reductionStrip stack => lt stack 16
  | .reductionFinish stack => lt stack 16
  | .addressPieceSend core bank _ => lt core 768 && lt bank 2
  | .addressPieceReply _ => true
  | .pageWalk core bank _ => lt core 768 && lt bank 2
  | .ctxSend die => lt die 8
  | .ctxLanding die => lt die 8
  | .nodeFrameArrival port _ _ head _ _ _ => lt port 16 && lt head (3 * 2 ^ 32)
  | .nodeAcknowledgement _ _ _ => true
  | .nodeDestinationUnreachable _ => true
  | .taskEnd core bank => lt core 768 && lt bank 2
  | .lqtailWrite vf q _ => lt vf 384 && lt q 16
  | .packetRead vf q => lt vf 384 && lt q 16
  | .lqctlOff vf q => lt vf 384 && lt q 16
  | .lqctlRun vf q => lt vf 384 && lt q 16
  | .lqctlDrain vf q => lt vf 384 && lt q 16
  | .lqctlAbort vf q => lt vf 384 && lt q 16
  | .vfuseWrite vf => lt vf 384
  | .planactWrite _ => true
  | .aelsWrite pc => lt pc 768
  | .telsWrite pc => lt pc 768
  | .mclogWrite core _ _ => lt core 768
  | .asinvWrite vf _ => lt vf 384
  | .asinvDone vf => lt vf 384
  | .cebaseWrite die _ => lt die 8
  | .cetailWrite die _ => lt die 8
  | .ceJobStart die => lt die 8
  | .ceJobComplete die => lt die 8
  | .gangStopRequest core bank => lt core 768 && lt bank 2
  | .cutTaken _ => true
  | .cutcmdNoEffect vf _ => lt vf 384
  | .cutcmdResume vf _ => lt vf 384
  | .cutcmdEnd vf _ => lt vf 384
  | .cutcmdPreempt vf _ => lt vf 384
  | .rowReopen pc => lt pc 768
  | .powerUp => true
  | .bootctlGo _ => true
  | .bootVerificationDone => true
  | .pcieConventionalReset => true
  | .bwinWrite _ => true
  | .hostBarAccess _ _ _ _ _ _ => true
  | .hostWindowCompletion _ _ _ => true
  | .attreqWrite _ => true
  | .attestationReportDone => true
  | .rlptrWrite _ => true
  | .fatalErrorDump _ => true
  | .pwrctlWrite die _ => lt die 8
  | .thermalThresholdChange die _ => lt die 8
  | .stackHotChange stack _ => lt stack 16
  | .clockSkipTimeout die => lt die 8
  | .transitionWindowEnd die => lt die 8
  | .registerWrite _ _ => true
  | .cScratchpadCommandComplete core bank => lt core 768 && lt bank 2
  | .saRdComplete core bank => lt core 768 && lt bank 2
  | .eventMessageTimestamp port dir => lt port 16 && lt dir 2

end Sys2Proof
end

