-- ==== Sys2Proof/Decode.lean ====
section
/-!
DEFINITION. Decoding and encoding (02_program_text R23-R48, R390). The layout of each instruction is one row of the
encoding tables; the decoder searches the rows of the executing engine and the encoder fills the same row.
-/

namespace Sys2Proof

/-- One part of a word, from its high end: bits that select the instruction, bits that must be 0, or an operand field. -/
inductive Seg where
  | op (w v : Nat)
  | z (w : Nat)
  | f (w : Nat)
deriving DecidableEq, Repr

/-- Who decodes an instruction: one engine, or all five alike (R37, R25). -/
inductive Owner where
  | any
  | eng (e : Eng)
deriving DecidableEq, Repr

/-- The encoding of an instruction: who decodes it, its bits, and its parts from bit 31 or 15 down. -/
structure Layout where
  who : Owner
  bits : Nat
  segs : List Seg
deriving DecidableEq, Repr

namespace Seg

def width : Seg → Nat
  | .op w _ => w
  | .z w => w
  | .f w => w

/-- The bits of a list of parts. -/
def bits : List Seg → Nat
  | [] => 0
  | s :: r => s.width + bits r

/-- The selecting bits of w, whose low n bits the parts cover, are those of the row. -/
def selects : List Seg → Nat → Nat → Bool
  | [], _, _ => true
  | .op k v :: r, n, w => slice w (n - k) k == v && selects r (n - k) w
  | .z k :: r, n, w => selects r (n - k) w
  | .f k :: r, n, w => selects r (n - k) w

/-- The bits of w that must be 0 are 0. -/
def zerosOk : List Seg → Nat → Nat → Bool
  | [], _, _ => true
  | .op k _ :: r, n, w => zerosOk r (n - k) w
  | .z k :: r, n, w => slice w (n - k) k == 0 && zerosOk r (n - k) w
  | .f k :: r, n, w => zerosOk r (n - k) w

/-- The operand fields of w, highest first. -/
def fields : List Seg → Nat → Nat → List Nat
  | [], _, _ => []
  | .op k _ :: r, n, w => fields r (n - k) w
  | .z k :: r, n, w => fields r (n - k) w
  | .f k :: r, n, w => slice w (n - k) k :: fields r (n - k) w

/-- The word of a row with the given operand fields. -/
def fill : List Seg → List Nat → Nat
  | [], _ => 0
  | .op _ v :: r, as => v * 2 ^ bits r + fill r as
  | .z _ :: r, as => fill r as
  | .f _ :: r, [] => fill r []
  | .f k :: r, a :: as => a % 2 ^ k * 2 ^ bits r + fill r as

end Seg

/-- The encoding of each instruction (R25, R37, R41, R43, R45-R48); an event has none. -/
def layout : Instr → Option Layout
  | .nop16 => some ⟨.any, 16, [.op 5 0, .z 11]⟩
  | .bw _ => some ⟨.any, 16, [.op 5 7, .f 11]⟩
  | .mov16 _ _ => some ⟨.eng .s, 16, [.op 5 8, .z 1, .f 5, .f 5]⟩
  | .addi16 _ _ => some ⟨.eng .s, 16, [.op 5 9, .f 5, .f 6]⟩
  | .li16 _ _ => some ⟨.eng .s, 16, [.op 5 10, .f 5, .f 6]⟩
  | .blockHeader _ _ _ _ => some ⟨.any, 32, [.op 7 127, .f 3, .f 1, .z 1, .f 10, .f 10]⟩
  | .repnPop _ _ _ => none
  | .pathRecordTake _ _ _ => none
  | .add _ _ _ => some ⟨.eng .s, 32, [.op 7 64, .f 5, .f 5, .f 5, .op 10 0]⟩
  | .sub _ _ _ => some ⟨.eng .s, 32, [.op 7 64, .f 5, .f 5, .f 5, .op 10 1]⟩
  | .and _ _ _ => some ⟨.eng .s, 32, [.op 7 64, .f 5, .f 5, .f 5, .op 10 2]⟩
  | .or _ _ _ => some ⟨.eng .s, 32, [.op 7 64, .f 5, .f 5, .f 5, .op 10 3]⟩
  | .xor _ _ _ => some ⟨.eng .s, 32, [.op 7 64, .f 5, .f 5, .f 5, .op 10 4]⟩
  | .andn _ _ _ => some ⟨.eng .s, 32, [.op 7 64, .f 5, .f 5, .f 5, .op 10 5]⟩
  | .sll _ _ _ => some ⟨.eng .s, 32, [.op 7 64, .f 5, .f 5, .f 5, .op 10 6]⟩
  | .srl _ _ _ => some ⟨.eng .s, 32, [.op 7 64, .f 5, .f 5, .f 5, .op 10 7]⟩
  | .sra _ _ _ => some ⟨.eng .s, 32, [.op 7 64, .f 5, .f 5, .f 5, .op 10 8]⟩
  | .rotl _ _ _ => some ⟨.eng .s, 32, [.op 7 64, .f 5, .f 5, .f 5, .op 10 9]⟩
  | .min _ _ _ => some ⟨.eng .s, 32, [.op 7 64, .f 5, .f 5, .f 5, .op 10 10]⟩
  | .max _ _ _ => some ⟨.eng .s, 32, [.op 7 64, .f 5, .f 5, .f 5, .op 10 11]⟩
  | .minn _ _ _ => some ⟨.eng .s, 32, [.op 7 64, .f 5, .f 5, .f 5, .op 10 12]⟩
  | .maxn _ _ _ => some ⟨.eng .s, 32, [.op 7 64, .f 5, .f 5, .f 5, .op 10 13]⟩
  | .mul _ _ _ => some ⟨.eng .s, 32, [.op 7 64, .f 5, .f 5, .f 5, .op 10 14]⟩
  | .mulh _ _ _ => some ⟨.eng .s, 32, [.op 7 64, .f 5, .f 5, .f 5, .op 10 15]⟩
  | .mulhn _ _ _ => some ⟨.eng .s, 32, [.op 7 64, .f 5, .f 5, .f 5, .op 10 16]⟩
  | .div _ _ _ => some ⟨.eng .s, 32, [.op 7 64, .f 5, .f 5, .f 5, .op 10 17]⟩
  | .divn _ _ _ => some ⟨.eng .s, 32, [.op 7 64, .f 5, .f 5, .f 5, .op 10 18]⟩
  | .rem _ _ _ => some ⟨.eng .s, 32, [.op 7 64, .f 5, .f 5, .f 5, .op 10 19]⟩
  | .remn _ _ _ => some ⟨.eng .s, 32, [.op 7 64, .f 5, .f 5, .f 5, .op 10 20]⟩
  | .clz _ _ => some ⟨.eng .s, 32, [.op 7 64, .f 5, .f 5, .z 5, .op 10 21]⟩
  | .ctz _ _ => some ⟨.eng .s, 32, [.op 7 64, .f 5, .f 5, .z 5, .op 10 22]⟩
  | .popc _ _ => some ⟨.eng .s, 32, [.op 7 64, .f 5, .f 5, .z 5, .op 10 23]⟩
  | .addi _ _ _ => some ⟨.eng .s, 32, [.op 7 65, .f 5, .f 5, .f 15]⟩
  | .andi _ _ _ => some ⟨.eng .s, 32, [.op 7 66, .f 5, .f 5, .f 15]⟩
  | .ori _ _ _ => some ⟨.eng .s, 32, [.op 7 67, .f 5, .f 5, .f 15]⟩
  | .xori _ _ _ => some ⟨.eng .s, 32, [.op 7 68, .f 5, .f 5, .f 15]⟩
  | .slli _ _ _ => some ⟨.eng .s, 32, [.op 7 69, .f 5, .f 5, .z 9, .f 6]⟩
  | .srli _ _ _ => some ⟨.eng .s, 32, [.op 7 70, .f 5, .f 5, .z 9, .f 6]⟩
  | .srai _ _ _ => some ⟨.eng .s, 32, [.op 7 71, .f 5, .f 5, .z 9, .f 6]⟩
  | .lih _ _ => some ⟨.eng .s, 32, [.op 7 72, .f 5, .z 5, .f 15]⟩
  | .cmpEq _ _ _ => some ⟨.eng .s, 32, [.op 7 73, .z 2, .f 3, .f 5, .f 5, .op 10 0]⟩
  | .cmpNe _ _ _ => some ⟨.eng .s, 32, [.op 7 73, .z 2, .f 3, .f 5, .f 5, .op 10 1]⟩
  | .cmpLt _ _ _ => some ⟨.eng .s, 32, [.op 7 73, .z 2, .f 3, .f 5, .f 5, .op 10 2]⟩
  | .cmpLe _ _ _ => some ⟨.eng .s, 32, [.op 7 73, .z 2, .f 3, .f 5, .f 5, .op 10 3]⟩
  | .cmpLtn _ _ _ => some ⟨.eng .s, 32, [.op 7 73, .z 2, .f 3, .f 5, .f 5, .op 10 4]⟩
  | .cmpLen _ _ _ => some ⟨.eng .s, 32, [.op 7 73, .z 2, .f 3, .f 5, .f 5, .op 10 5]⟩
  | .cmpiEq _ _ _ => some ⟨.eng .s, 32, [.op 7 74, .z 2, .f 3, .f 5, .f 15]⟩
  | .cmpiLt _ _ _ => some ⟨.eng .s, 32, [.op 7 75, .z 2, .f 3, .f 5, .f 15]⟩
  | .cmpiLtn _ _ _ => some ⟨.eng .s, 32, [.op 7 76, .z 2, .f 3, .f 5, .f 15]⟩
  | .sel _ _ _ _ => some ⟨.eng .s, 32, [.op 7 77, .f 5, .f 5, .f 5, .z 7, .f 3]⟩
  | .pand _ _ _ => some ⟨.eng .s, 32, [.op 7 78, .z 2, .f 3, .z 2, .f 3, .z 2, .f 3, .op 10 0]⟩
  | .por _ _ _ => some ⟨.eng .s, 32, [.op 7 78, .z 2, .f 3, .z 2, .f 3, .z 2, .f 3, .op 10 1]⟩
  | .pxor _ _ _ => some ⟨.eng .s, 32, [.op 7 78, .z 2, .f 3, .z 2, .f 3, .z 2, .f 3, .op 10 2]⟩
  | .pnot _ _ => some ⟨.eng .s, 32, [.op 7 78, .z 2, .f 3, .z 2, .f 3, .z 5, .op 10 3]⟩
  | .pknow _ _ => some ⟨.eng .s, 32, [.op 7 78, .z 2, .f 3, .z 2, .f 3, .z 5, .op 10 4]⟩
  | .pset _ _ => some ⟨.eng .s, 32, [.op 7 78, .z 2, .f 3, .z 8, .f 2, .op 10 5]⟩
  | .popv _ _ _ => some ⟨.eng .s, 32, [.op 7 111, .z 2, .f 3, .f 5, .z 10, .f 5]⟩
  | .ldI8 _ _ _ => some ⟨.eng .s, 32, [.op 7 79, .f 5, .f 5, .f 15]⟩
  | .ldN8 _ _ _ => some ⟨.eng .s, 32, [.op 7 80, .f 5, .f 5, .f 15]⟩
  | .ldI16 _ _ _ => some ⟨.eng .s, 32, [.op 7 81, .f 5, .f 5, .f 15]⟩
  | .ldN16 _ _ _ => some ⟨.eng .s, 32, [.op 7 82, .f 5, .f 5, .f 15]⟩
  | .ldI32 _ _ _ => some ⟨.eng .s, 32, [.op 7 83, .f 5, .f 5, .f 15]⟩
  | .ldN32 _ _ _ => some ⟨.eng .s, 32, [.op 7 84, .f 5, .f 5, .f 15]⟩
  | .ldI64 _ _ _ => some ⟨.eng .s, 32, [.op 7 85, .f 5, .f 5, .f 15]⟩
  | .st8 _ _ _ => some ⟨.eng .s, 32, [.op 7 86, .f 5, .f 5, .f 15]⟩
  | .st16 _ _ _ => some ⟨.eng .s, 32, [.op 7 87, .f 5, .f 5, .f 15]⟩
  | .st32 _ _ _ => some ⟨.eng .s, 32, [.op 7 88, .f 5, .f 5, .f 15]⟩
  | .st64 _ _ _ => some ⟨.eng .s, 32, [.op 7 89, .f 5, .f 5, .f 15]⟩
  | .ldAcq _ _ _ => some ⟨.eng .s, 32, [.op 7 90, .f 5, .f 5, .f 3, .z 12]⟩
  | .stRel _ _ _ => some ⟨.eng .s, 32, [.op 7 91, .f 5, .f 5, .f 3, .z 12]⟩
  | .sLoadReturn _ _ => none
  | .sStorePerform _ _ => none
  | .bT _ _ => some ⟨.eng .s, 32, [.op 7 92, .f 3, .op 2 0, .f 20]⟩
  | .bF _ _ => some ⟨.eng .s, 32, [.op 7 92, .f 3, .op 2 1, .f 20]⟩
  | .bU _ _ => some ⟨.eng .s, 32, [.op 7 92, .f 3, .op 2 2, .f 20]⟩
  | .b _ => some ⟨.eng .s, 32, [.op 7 92, .z 3, .op 2 3, .f 20]⟩
  | .jal _ _ => some ⟨.eng .s, 32, [.op 7 93, .f 5, .f 20]⟩
  | .jr _ _ => some ⟨.eng .s, 32, [.op 7 94, .f 5, .f 5, .z 15]⟩
  | .swpt _ => some ⟨.eng .s, 32, [.op 7 95, .z 5, .f 5, .z 15]⟩
  | .pwr _ _ => some ⟨.eng .s, 32, [.op 7 121, .z 2, .f 3, .z 18, .f 2]⟩
  | .bnow _ => some ⟨.eng .s, 32, [.op 7 96, .f 5, .z 20]⟩
  | .palign _ _ => some ⟨.eng .s, 32, [.op 7 97, .z 5, .f 5, .f 15]⟩
  | .waitt _ => some ⟨.eng .s, 32, [.op 7 98, .z 5, .f 5, .z 15]⟩
  | .waittWake _ _ => none
  | .tick _ => some ⟨.eng .s, 32, [.op 7 99, .f 5, .z 20]⟩
  | .ntime _ => some ⟨.eng .s, 32, [.op 7 100, .f 5, .z 20]⟩
  | .fence _ _ => some ⟨.eng .s, 32, [.op 7 101, .z 10, .f 3, .z 7, .f 5]⟩
  | .fenceRetire _ _ => none
  | .tlbi _ => some ⟨.eng .s, 32, [.op 7 102, .z 5, .f 5, .z 5, .op 10 0]⟩
  | .tlbiAll => some ⟨.eng .s, 32, [.op 7 102, .z 15, .op 10 1]⟩
  | .isync => some ⟨.eng .s, 32, [.op 7 103, .z 25]⟩
  | .smark => some ⟨.eng .s, 32, [.op 7 104, .z 25]⟩
  | .ezw _ _ _ => some ⟨.eng .s, 32, [.op 7 105, .z 5, .f 5, .z 10, .f 1, .f 4]⟩
  | .fpush _ => some ⟨.eng .s, 32, [.op 7 106, .z 5, .f 5, .z 15]⟩
  | .repn _ _ => some ⟨.eng .s, 32, [.op 7 107, .f 5, .f 5, .z 15]⟩
  | .handC _ => some ⟨.eng .s, 32, [.op 12 3457, .f 5, .z 15]⟩
  | .handA _ _ => some ⟨.eng .s, 32, [.op 12 3460, .f 5, .f 5, .z 10]⟩
  | .evpop _ => some ⟨.eng .s, 32, [.op 7 109, .f 5, .z 20]⟩
  | .evpeek _ => some ⟨.eng .s, 32, [.op 7 110, .f 5, .z 20]⟩
  | .gbar _ => some ⟨.eng .s, 32, [.op 7 112, .z 10, .f 3, .z 12]⟩
  | .gbarRelease _ _ => none
  | .exit _ => some ⟨.eng .s, 32, [.op 7 113, .z 5, .f 5, .z 15]⟩
  | .post _ _ _ => some ⟨.eng .s, 32, [.op 7 114, .f 5, .f 5, .f 5, .z 10]⟩
  | .csrr _ _ => some ⟨.eng .s, 32, [.op 7 115, .f 5, .z 8, .f 12]⟩
  | .csrw _ _ => some ⟨.eng .s, 32, [.op 7 116, .z 5, .f 5, .z 3, .f 12]⟩
  | .csrs _ _ => some ⟨.eng .s, 32, [.op 7 117, .z 5, .f 5, .z 3, .f 12]⟩
  | .csrc _ _ => some ⟨.eng .s, 32, [.op 7 118, .z 5, .f 5, .z 3, .f 12]⟩
  | .svc _ => some ⟨.eng .s, 32, [.op 7 119, .z 10, .f 15]⟩
  | .brk _ => some ⟨.eng .s, 32, [.op 7 120, .z 10, .f 15]⟩
  | .dopen _ _ _ _ => some ⟨.eng .c, 32, [.op 7 64, .f 7, .f 4, .f 6, .f 1, .z 7]⟩
  | .dopenw _ _ _ _ => some ⟨.eng .c, 32, [.op 7 65, .z 4, .f 3, .f 4, .f 6, .f 1, .z 7]⟩
  | .dhold _ _ _ => some ⟨.eng .c, 32, [.op 7 66, .f 7, .z 4, .f 6, .f 1, .z 7]⟩
  | .drel _ _ _ => some ⟨.eng .c, 32, [.op 7 67, .f 7, .z 4, .f 6, .f 1, .z 7]⟩
  | .drelw _ _ _ => some ⟨.eng .c, 32, [.op 7 68, .z 4, .f 3, .z 4, .f 6, .f 1, .z 7]⟩
  | .drd _ _ _ _ => some ⟨.eng .c, 32, [.op 7 69, .f 7, .f 4, .f 6, .f 1, .z 7]⟩
  | .dwr _ _ _ _ => some ⟨.eng .c, 32, [.op 7 70, .f 7, .f 4, .f 6, .f 1, .z 7]⟩
  | .dref _ _ _ => some ⟨.eng .c, 32, [.op 7 71, .z 7, .f 4, .f 6, .f 1, .z 7]⟩
  | .dgap _ _ => some ⟨.eng .c, 32, [.op 7 72, .z 11, .f 6, .f 1, .z 7]⟩
  | .cbeat _ => some ⟨.eng .c, 32, [.op 7 73, .z 7, .f 4, .z 14]⟩
  | .iaZero _ _ _ _ _ => some ⟨.eng .c, 32, [.op 7 74, .f 3, .z 6, .f 5, .f 1, .f 5, .f 5]⟩
  | .iaCopy _ _ _ _ _ _ => some ⟨.eng .c, 32, [.op 7 75, .f 3, .f 3, .z 3, .f 5, .f 1, .f 5, .f 5]⟩
  | .iaAddBf16 _ _ _ _ _ _ _ => some ⟨.eng .c, 32, [.op 7 76, .f 3, .f 3, .f 3, .f 5, .f 1, .f 5, .f 5]⟩
  | .iaAddF32 _ _ _ _ _ _ _ => some ⟨.eng .c, 32, [.op 7 77, .f 3, .f 3, .f 3, .f 5, .f 1, .f 5, .f 5]⟩
  | .iaSubBf16 _ _ _ _ _ _ _ => some ⟨.eng .c, 32, [.op 7 78, .f 3, .f 3, .f 3, .f 5, .f 1, .f 5, .f 5]⟩
  | .iaSubF32 _ _ _ _ _ _ _ => some ⟨.eng .c, 32, [.op 7 79, .f 3, .f 3, .f 3, .f 5, .f 1, .f 5, .f 5]⟩
  | .iaMulBf16 _ _ _ _ _ _ _ => some ⟨.eng .c, 32, [.op 7 80, .f 3, .f 3, .f 3, .f 5, .f 1, .f 5, .f 5]⟩
  | .iaMulF32 _ _ _ _ _ _ _ => some ⟨.eng .c, 32, [.op 7 81, .f 3, .f 3, .f 3, .f 5, .f 1, .f 5, .f 5]⟩
  | .iaFmaBf16 _ _ _ _ _ _ _ => some ⟨.eng .c, 32, [.op 7 82, .f 3, .f 3, .f 3, .f 5, .f 1, .f 5, .f 5]⟩
  | .iaFmaF32 _ _ _ _ _ _ _ => some ⟨.eng .c, 32, [.op 7 83, .f 3, .f 3, .f 3, .f 5, .f 1, .f 5, .f 5]⟩
  | .iaAxpyBf16 _ _ _ _ _ _ _ => some ⟨.eng .c, 32, [.op 7 84, .f 3, .f 3, .f 3, .f 5, .f 1, .f 5, .f 5]⟩
  | .iaAxpyF32 _ _ _ _ _ _ _ => some ⟨.eng .c, 32, [.op 7 85, .f 3, .f 3, .f 3, .f 5, .f 1, .f 5, .f 5]⟩
  | .iaAccBf16 _ _ _ _ _ _ => some ⟨.eng .c, 32, [.op 7 86, .f 3, .f 3, .z 3, .f 5, .f 1, .f 5, .f 5]⟩
  | .iaAccF32 _ _ _ _ _ _ => some ⟨.eng .c, 32, [.op 7 87, .f 3, .f 3, .z 3, .f 5, .f 1, .f 5, .f 5]⟩
  | .iaWldF32 _ _ _ _ _ _ => some ⟨.eng .c, 32, [.op 7 88, .f 3, .f 3, .op 3 0, .f 5, .f 1, .f 5, .f 5]⟩
  | .iaWldBf16 _ _ _ _ _ _ => some ⟨.eng .c, 32, [.op 7 88, .f 3, .f 3, .op 3 1, .f 5, .f 1, .f 5, .f 5]⟩
  | .iaWstF32 _ _ _ _ _ _ => some ⟨.eng .c, 32, [.op 7 89, .f 3, .f 3, .op 3 0, .f 5, .f 1, .f 5, .f 5]⟩
  | .iaWstBf16 _ _ _ _ _ _ => some ⟨.eng .c, 32, [.op 7 89, .f 3, .f 3, .op 3 1, .f 5, .f 1, .f 5, .f 5]⟩
  | .iaMaxBf16 _ _ _ _ _ _ _ => some ⟨.eng .c, 32, [.op 7 90, .f 3, .f 3, .f 3, .f 5, .f 1, .f 5, .f 5]⟩
  | .iaMaxF32 _ _ _ _ _ _ _ => some ⟨.eng .c, 32, [.op 7 91, .f 3, .f 3, .f 3, .f 5, .f 1, .f 5, .f 5]⟩
  | .iaMinBf16 _ _ _ _ _ _ _ => some ⟨.eng .c, 32, [.op 7 92, .f 3, .f 3, .f 3, .f 5, .f 1, .f 5, .f 5]⟩
  | .iaMinF32 _ _ _ _ _ _ _ => some ⟨.eng .c, 32, [.op 7 93, .f 3, .f 3, .f 3, .f 5, .f 1, .f 5, .f 5]⟩
  | .iaCvt _ _ _ _ _ _ _ => some ⟨.eng .c, 32, [.op 7 94, .f 3, .f 3, .f 3, .f 5, .f 1, .f 5, .f 5]⟩
  | .iaScale _ _ _ _ => some ⟨.eng .c, 32, [.op 7 95, .z 3, .f 3, .z 3, .f 5, .f 1, .f 5, .z 5]⟩
  | .cld _ _ _ => some ⟨.eng .c, 32, [.op 7 96, .f 4, .f 4, .f 4, .z 7, .op 3 0, .z 3]⟩
  | .cldBs _ _ _ => some ⟨.eng .c, 32, [.op 7 96, .f 4, .f 4, .f 4, .z 7, .op 3 1, .z 3]⟩
  | .cst _ _ _ => some ⟨.eng .c, 32, [.op 7 97, .f 4, .f 4, .f 4, .z 7, .op 3 0, .z 3]⟩
  | .cstBs _ _ _ => some ⟨.eng .c, 32, [.op 7 97, .f 4, .f 4, .f 4, .z 7, .op 3 1, .z 3]⟩
  | .ccpy _ _ _ => some ⟨.eng .c, 32, [.op 7 98, .f 4, .f 4, .f 4, .z 13]⟩
  | .cfq _ _ _ _ => some ⟨.eng .c, 32, [.op 7 99, .f 4, .f 4, .f 4, .z 7, .f 3, .z 3]⟩
  | .cdq _ _ _ => some ⟨.eng .c, 32, [.op 7 100, .f 4, .f 4, .f 4, .z 13]⟩
  | .cvf _ _ _ => some ⟨.eng .c, 32, [.op 7 101, .f 4, .f 4, .f 4, .z 13]⟩
  | .cfv _ _ _ => some ⟨.eng .c, 32, [.op 7 102, .f 4, .f 4, .f 4, .z 13]⟩
  | .ccv _ _ _ => some ⟨.eng .c, 32, [.op 7 103, .f 4, .f 4, .f 4, .z 13]⟩
  | .cpl _ _ _ => some ⟨.eng .c, 32, [.op 7 104, .f 4, .f 4, .f 4, .z 13]⟩
  | .cgat _ _ _ _ => some ⟨.eng .c, 32, [.op 7 105, .f 4, .f 4, .f 4, .z 7, .f 3, .z 3]⟩
  | .csct _ _ _ _ => some ⟨.eng .c, 32, [.op 7 106, .f 4, .f 4, .f 4, .z 7, .f 3, .z 3]⟩
  | .cpat _ _ => some ⟨.eng .c, 32, [.op 7 107, .f 4, .z 15, .f 3, .z 3]⟩
  | .rdc _ => some ⟨.eng .c, 32, [.op 7 108, .f 4, .z 21]⟩
  | .ctx _ _ _ _ _ => some ⟨.eng .c, 32, [.op 7 109, .f 4, .f 4, .f 4, .f 6, .f 1, .op 3 0, .z 3]⟩
  | .cadd _ _ _ => some ⟨.eng .c, 32, [.op 7 110, .f 4, .f 4, .f 4, .z 7, .op 3 0, .z 3]⟩
  | .caddSub _ _ _ => some ⟨.eng .c, 32, [.op 7 110, .f 4, .f 4, .f 4, .z 7, .op 3 1, .z 3]⟩
  | .caddShl _ _ _ => some ⟨.eng .c, 32, [.op 7 110, .f 4, .f 4, .f 4, .z 7, .op 3 2, .z 3]⟩
  | .cmov _ _ => some ⟨.eng .c, 32, [.op 7 111, .f 4, .f 4, .z 11, .op 3 0, .z 3]⟩
  | .cmovLd _ _ => some ⟨.eng .c, 32, [.op 7 111, .f 4, .f 4, .z 11, .op 3 1, .z 3]⟩
  | .cmovSt _ _ => some ⟨.eng .c, 32, [.op 7 111, .f 4, .f 4, .z 11, .op 3 2, .z 3]⟩
  | .take _ => some ⟨.eng .c, 32, [.op 7 112, .f 4, .z 21]⟩
  | .vadd _ _ _ _ _ _ => some ⟨.eng .v, 32, [.op 7 64, .f 10, .f 3, .f 1, .f 3, .f 1, .z 4, .f 3]⟩
  | .vsub _ _ _ _ _ _ => some ⟨.eng .v, 32, [.op 7 65, .f 10, .f 3, .f 1, .f 3, .f 1, .z 4, .f 3]⟩
  | .vmul _ _ _ _ _ _ => some ⟨.eng .v, 32, [.op 7 66, .f 10, .f 3, .f 1, .f 3, .f 1, .z 4, .f 3]⟩
  | .vfma _ _ _ _ _ _ _ _ => some ⟨.eng .v, 32, [.op 7 67, .f 10, .f 3, .f 1, .f 3, .f 1, .f 3, .f 1, .f 3]⟩
  | .vfms _ _ _ _ _ _ _ _ => some ⟨.eng .v, 32, [.op 7 68, .f 10, .f 3, .f 1, .f 3, .f 1, .f 3, .f 1, .f 3]⟩
  | .vmin _ _ _ _ _ _ => some ⟨.eng .v, 32, [.op 7 69, .f 10, .f 3, .f 1, .f 3, .f 1, .z 4, .f 3]⟩
  | .vmax _ _ _ _ _ _ => some ⟨.eng .v, 32, [.op 7 70, .f 10, .f 3, .f 1, .f 3, .f 1, .z 4, .f 3]⟩
  | .vabs _ _ _ _ => some ⟨.eng .v, 32, [.op 7 71, .f 10, .f 3, .f 1, .z 8, .f 3]⟩
  | .vneg _ _ _ _ => some ⟨.eng .v, 32, [.op 7 72, .f 10, .f 3, .f 1, .z 8, .f 3]⟩
  | .vand _ _ _ _ _ _ => some ⟨.eng .v, 32, [.op 7 73, .f 10, .f 3, .f 1, .f 3, .f 1, .z 4, .f 3]⟩
  | .vor _ _ _ _ _ _ => some ⟨.eng .v, 32, [.op 7 74, .f 10, .f 3, .f 1, .f 3, .f 1, .z 4, .f 3]⟩
  | .vxor _ _ _ _ _ _ => some ⟨.eng .v, 32, [.op 7 75, .f 10, .f 3, .f 1, .f 3, .f 1, .z 4, .f 3]⟩
  | .vshl _ _ _ _ _ _ => some ⟨.eng .v, 32, [.op 7 76, .f 10, .f 3, .f 1, .f 3, .f 1, .z 4, .f 3]⟩
  | .vshr _ _ _ _ _ _ => some ⟨.eng .v, 32, [.op 7 77, .f 10, .f 3, .f 1, .f 3, .f 1, .z 4, .f 3]⟩
  | .vsra _ _ _ _ _ _ => some ⟨.eng .v, 32, [.op 7 78, .f 10, .f 3, .f 1, .f 3, .f 1, .z 4, .f 3]⟩
  | .vrcp _ _ _ _ => some ⟨.eng .v, 32, [.op 7 79, .f 10, .f 3, .f 1, .z 8, .f 3]⟩
  | .vrsq _ _ _ _ => some ⟨.eng .v, 32, [.op 7 80, .f 10, .f 3, .f 1, .z 8, .f 3]⟩
  | .vexp2 _ _ _ _ => some ⟨.eng .v, 32, [.op 7 81, .f 10, .f 3, .f 1, .z 8, .f 3]⟩
  | .vlog2 _ _ _ _ => some ⟨.eng .v, 32, [.op 7 82, .f 10, .f 3, .f 1, .z 8, .f 3]⟩
  | .vsqrt _ _ _ _ => some ⟨.eng .v, 32, [.op 7 83, .f 10, .f 3, .f 1, .z 8, .f 3]⟩
  | .vdiv _ _ _ _ _ _ => some ⟨.eng .v, 32, [.op 7 84, .f 10, .f 3, .f 1, .f 3, .f 1, .z 4, .f 3]⟩
  | .vcmpEq _ _ _ _ _ _ => some ⟨.eng .v, 32, [.op 7 85, .z 6, .f 4, .f 3, .f 1, .f 3, .f 1, .op 3 0, .z 1, .f 3]⟩
  | .vcmpNe _ _ _ _ _ _ => some ⟨.eng .v, 32, [.op 7 85, .z 6, .f 4, .f 3, .f 1, .f 3, .f 1, .op 3 1, .z 1, .f 3]⟩
  | .vcmpLt _ _ _ _ _ _ => some ⟨.eng .v, 32, [.op 7 85, .z 6, .f 4, .f 3, .f 1, .f 3, .f 1, .op 3 2, .z 1, .f 3]⟩
  | .vcmpLe _ _ _ _ _ _ => some ⟨.eng .v, 32, [.op 7 85, .z 6, .f 4, .f 3, .f 1, .f 3, .f 1, .op 3 3, .z 1, .f 3]⟩
  | .vcmpGt _ _ _ _ _ _ => some ⟨.eng .v, 32, [.op 7 85, .z 6, .f 4, .f 3, .f 1, .f 3, .f 1, .op 3 4, .z 1, .f 3]⟩
  | .vcmpGe _ _ _ _ _ _ => some ⟨.eng .v, 32, [.op 7 85, .z 6, .f 4, .f 3, .f 1, .f 3, .f 1, .op 3 5, .z 1, .f 3]⟩
  | .vcmpUo _ _ _ _ _ _ => some ⟨.eng .v, 32, [.op 7 85, .z 6, .f 4, .f 3, .f 1, .f 3, .f 1, .op 3 6, .z 1, .f 3]⟩
  | .vsel _ _ _ _ _ _ _ _ => some ⟨.eng .v, 32, [.op 7 86, .f 10, .f 3, .f 1, .f 3, .f 1, .f 3, .f 1, .f 3]⟩
  | .mand _ _ _ => some ⟨.eng .v, 32, [.op 7 87, .f 4, .f 4, .f 4, .op 3 0, .z 10]⟩
  | .mor _ _ _ => some ⟨.eng .v, 32, [.op 7 87, .f 4, .f 4, .f 4, .op 3 1, .z 10]⟩
  | .mxor _ _ _ => some ⟨.eng .v, 32, [.op 7 87, .f 4, .f 4, .f 4, .op 3 2, .z 10]⟩
  | .mnot _ _ => some ⟨.eng .v, 32, [.op 7 87, .f 4, .f 4, .z 4, .op 3 3, .z 10]⟩
  | .mknow _ _ => some ⟨.eng .v, 32, [.op 7 87, .f 4, .f 4, .z 4, .op 3 4, .z 10]⟩
  | .mall _ _ => some ⟨.eng .v, 32, [.op 7 87, .f 4, .f 4, .z 4, .op 3 5, .z 10]⟩
  | .mnone _ _ => some ⟨.eng .v, 32, [.op 7 87, .f 4, .f 4, .z 4, .op 3 6, .z 10]⟩
  | .vcvt _ _ _ _ _ _ => some ⟨.eng .v, 32, [.op 7 88, .f 10, .f 3, .f 1, .f 3, .z 1, .f 3, .z 1, .f 3]⟩
  | .vqnt _ _ _ _ _ => some ⟨.eng .v, 32, [.op 7 89, .f 10, .f 3, .f 1, .f 3, .z 5, .f 3]⟩
  | .vdeq _ _ _ _ _ => some ⟨.eng .v, 32, [.op 7 90, .f 10, .f 3, .f 1, .f 3, .z 5, .f 3]⟩
  | .vredsum _ _ _ _ => some ⟨.eng .v, 32, [.op 7 91, .f 10, .f 3, .f 1, .z 8, .f 3]⟩
  | .vredmax _ _ _ _ => some ⟨.eng .v, 32, [.op 7 92, .f 10, .f 3, .f 1, .z 8, .f 3]⟩
  | .vredmin _ _ _ _ => some ⟨.eng .v, 32, [.op 7 93, .f 10, .f 3, .f 1, .z 8, .f 3]⟩
  | .vperm _ _ _ _ _ _ _ _ => some ⟨.eng .v, 32, [.op 7 94, .f 10, .f 3, .f 1, .f 3, .f 1, .f 3, .f 1, .f 3]⟩
  | .vrot _ _ _ _ _ => some ⟨.eng .v, 32, [.op 7 95, .f 10, .f 3, .f 1, .f 8, .f 3]⟩
  | .vbcast _ _ _ _ _ _ => some ⟨.eng .v, 32, [.op 7 96, .f 10, .f 3, .f 1, .f 3, .f 1, .z 4, .f 3]⟩
  | .viota _ _ _ => some ⟨.eng .v, 32, [.op 7 97, .f 10, .f 12, .f 3]⟩
  | .vsplat _ _ _ => some ⟨.eng .v, 32, [.op 7 98, .f 10, .f 12, .f 3]⟩
  | .vmov _ _ _ _ => some ⟨.eng .v, 32, [.op 7 99, .f 10, .f 3, .f 1, .z 8, .f 3]⟩
  | .vclr _ _ => some ⟨.eng .v, 32, [.op 7 103, .f 10, .z 12, .f 3]⟩
  | .vpf _ _ => some ⟨.eng .v, 32, [.op 7 100, .f 10, .f 3, .z 12]⟩
  | .vtos _ _ => some ⟨.eng .v, 32, [.op 7 101, .z 5, .f 5, .f 3, .z 12]⟩
  | .vmark => some ⟨.eng .v, 32, [.op 7 102, .z 25]⟩
  | .vResultLanding _ _ => none
  | .jadd _ _ _ _ => some ⟨.eng .v, 32, [.op 7 104, .f 5, .f 5, .f 5, .op 4 0, .f 1, .z 5]⟩
  | .jsub _ _ _ _ => some ⟨.eng .v, 32, [.op 7 105, .f 5, .f 5, .f 5, .op 4 0, .f 1, .z 5]⟩
  | .jmul _ _ _ _ => some ⟨.eng .v, 32, [.op 7 106, .f 5, .f 5, .f 5, .op 4 0, .f 1, .z 5]⟩
  | .jdiv _ _ _ _ => some ⟨.eng .v, 32, [.op 7 107, .f 5, .f 5, .f 5, .op 4 0, .f 1, .z 5]⟩
  | .jsqr _ _ _ => some ⟨.eng .v, 32, [.op 7 108, .f 5, .f 5, .z 5, .op 4 0, .f 1, .z 5]⟩
  | .jsqrt _ _ _ => some ⟨.eng .v, 32, [.op 7 109, .f 5, .f 5, .z 5, .op 4 0, .f 1, .z 5]⟩
  | .jexp2 _ _ _ => some ⟨.eng .v, 32, [.op 7 110, .f 5, .f 5, .z 5, .op 4 0, .f 1, .z 5]⟩
  | .jmax _ _ _ _ => some ⟨.eng .v, 32, [.op 7 111, .f 5, .f 5, .f 5, .op 4 0, .f 1, .z 5]⟩
  | .jmin _ _ _ _ => some ⟨.eng .v, 32, [.op 7 112, .f 5, .f 5, .f 5, .op 4 0, .f 1, .z 5]⟩
  | .jabs _ _ _ => some ⟨.eng .v, 32, [.op 7 113, .f 5, .f 5, .z 5, .op 4 0, .f 1, .z 5]⟩
  | .jneg _ _ _ => some ⟨.eng .v, 32, [.op 7 113, .f 5, .f 5, .z 5, .op 4 1, .f 1, .z 5]⟩
  | .jhull _ _ _ _ => some ⟨.eng .v, 32, [.op 7 114, .f 5, .f 5, .f 5, .op 4 0, .f 1, .z 5]⟩
  | .jisect _ _ _ _ => some ⟨.eng .v, 32, [.op 7 115, .f 5, .f 5, .f 5, .op 4 0, .f 1, .z 5]⟩
  | .jlo _ _ _ _ => some ⟨.eng .v, 32, [.op 7 116, .f 5, .f 5, .f 5, .op 4 0, .f 1, .z 5]⟩
  | .jhi _ _ _ _ => some ⟨.eng .v, 32, [.op 7 116, .f 5, .f 5, .f 5, .op 4 1, .f 1, .z 5]⟩
  | .jmid _ _ _ _ => some ⟨.eng .v, 32, [.op 7 116, .f 5, .f 5, .f 5, .op 4 2, .f 1, .z 5]⟩
  | .jrad _ _ _ _ => some ⟨.eng .v, 32, [.op 7 116, .f 5, .f 5, .f 5, .op 4 3, .f 1, .z 5]⟩
  | .jwid _ _ _ _ => some ⟨.eng .v, 32, [.op 7 116, .f 5, .f 5, .f 5, .op 4 4, .f 1, .z 5]⟩
  | .jmkPair _ _ _ _ _ _ => some ⟨.eng .v, 32, [.op 7 117, .f 5, .z 1, .f 1, .f 3, .z 1, .f 1, .f 3, .op 4 0, .f 1, .z 5]⟩
  | .jmkPoint _ _ _ _ => some ⟨.eng .v, 32, [.op 7 117, .f 5, .z 1, .f 1, .f 3, .z 5, .op 4 1, .f 1, .z 5]⟩
  | .jredsum _ _ _ => some ⟨.eng .v, 32, [.op 7 118, .f 5, .f 5, .z 5, .op 4 0, .f 1, .z 5]⟩
  | .jcmpLt _ _ _ _ => some ⟨.eng .v, 32, [.op 7 119, .z 1, .f 4, .f 5, .f 5, .op 4 0, .f 1, .z 5]⟩
  | .jcmpLe _ _ _ _ => some ⟨.eng .v, 32, [.op 7 119, .z 1, .f 4, .f 5, .f 5, .op 4 1, .f 1, .z 5]⟩
  | .jcmpEq _ _ _ _ => some ⟨.eng .v, 32, [.op 7 119, .z 1, .f 4, .f 5, .f 5, .op 4 2, .f 1, .z 5]⟩
  | .jcmpNe _ _ _ _ => some ⟨.eng .v, 32, [.op 7 119, .z 1, .f 4, .f 5, .f 5, .op 4 3, .f 1, .z 5]⟩
  | .jcmpSub _ _ _ _ => some ⟨.eng .v, 32, [.op 7 119, .z 1, .f 4, .f 5, .f 5, .op 4 4, .f 1, .z 5]⟩
  | .jcmpDis _ _ _ _ => some ⟨.eng .v, 32, [.op 7 119, .z 1, .f 4, .f 5, .f 5, .op 4 5, .f 1, .z 5]⟩
  | .jempty _ _ _ => some ⟨.eng .v, 32, [.op 7 120, .z 1, .f 4, .f 5, .z 5, .op 4 0, .f 1, .z 5]⟩
  | .jst _ _ _ _ => some ⟨.eng .v, 32, [.op 7 121, .f 5, .f 5, .f 5, .op 3 0, .f 1, .z 6]⟩
  | .jcvt _ _ _ _ => some ⟨.eng .v, 32, [.op 7 122, .f 5, .f 5, .z 5, .op 3 0, .f 1, .f 1, .z 5]⟩
  | .jaddBk _ _ _ _ => some ⟨.eng .v, 32, [.op 7 123, .f 5, .f 5, .f 5, .op 4 0, .f 1, .z 5]⟩
  | .jsubBk _ _ _ _ => some ⟨.eng .v, 32, [.op 7 123, .f 5, .f 5, .f 5, .op 4 1, .f 1, .z 5]⟩
  | .jmulBk _ _ _ _ => some ⟨.eng .v, 32, [.op 7 123, .f 5, .f 5, .f 5, .op 4 2, .f 1, .z 5]⟩
  | .jdivBk _ _ _ _ => some ⟨.eng .v, 32, [.op 7 123, .f 5, .f 5, .f 5, .op 4 3, .f 1, .z 5]⟩
  | .jsqrBk _ _ _ => some ⟨.eng .v, 32, [.op 7 123, .f 5, .f 5, .z 5, .op 4 4, .f 1, .z 5]⟩
  | .jsqrtBk _ _ _ => some ⟨.eng .v, 32, [.op 7 123, .f 5, .f 5, .z 5, .op 4 5, .f 1, .z 5]⟩
  | .jexp2Bk _ _ _ => some ⟨.eng .v, 32, [.op 7 123, .f 5, .f 5, .z 5, .op 4 6, .f 1, .z 5]⟩
  | .jmaxBk _ _ _ _ => some ⟨.eng .v, 32, [.op 7 123, .f 5, .f 5, .f 5, .op 4 7, .f 1, .z 5]⟩
  | .jminBk _ _ _ _ => some ⟨.eng .v, 32, [.op 7 123, .f 5, .f 5, .f 5, .op 4 8, .f 1, .z 5]⟩
  | .jabsBk _ _ _ => some ⟨.eng .v, 32, [.op 7 123, .f 5, .f 5, .z 5, .op 4 9, .f 1, .z 5]⟩
  | .jnegBk _ _ _ => some ⟨.eng .v, 32, [.op 7 123, .f 5, .f 5, .z 5, .op 4 10, .f 1, .z 5]⟩
  | .jsplat _ _ => some ⟨.eng .v, 32, [.op 7 124, .f 5, .f 16, .z 4]⟩
  | .mtile _ => some ⟨.eng .m, 32, [.op 7 64, .f 1, .z 24]⟩
  | .mzacc _ => some ⟨.eng .m, 32, [.op 7 65, .f 1, .z 24]⟩
  | .mret => some ⟨.eng .m, 32, [.op 7 66, .z 25]⟩
  | .mmark => some ⟨.eng .m, 32, [.op 7 67, .z 25]⟩
  | .mtileStep _ => none
  | .mtileReductionEnd _ => none
  | .mtileRetirementDone _ => none
  | .saAdd _ _ _ _ => some ⟨.eng .a, 32, [.op 7 64, .f 4, .f 4, .f 4, .z 4, .f 3, .z 6]⟩
  | .saAddq _ _ _ _ _ => some ⟨.eng .a, 32, [.op 7 65, .f 4, .f 4, .f 4, .f 4, .f 3, .z 6]⟩
  | .saMin _ _ _ _ => some ⟨.eng .a, 32, [.op 7 66, .f 4, .f 4, .f 4, .z 4, .f 3, .z 6]⟩
  | .saMax _ _ _ _ => some ⟨.eng .a, 32, [.op 7 67, .f 4, .f 4, .f 4, .z 4, .f 3, .z 6]⟩
  | .saOr _ _ _ _ => some ⟨.eng .a, 32, [.op 7 68, .f 4, .f 4, .f 4, .z 4, .f 3, .z 6]⟩
  | .saAnd _ _ _ _ => some ⟨.eng .a, 32, [.op 7 69, .f 4, .f 4, .f 4, .z 4, .f 3, .z 6]⟩
  | .saXch _ _ _ _ => some ⟨.eng .a, 32, [.op 7 70, .f 4, .f 4, .f 4, .z 4, .f 3, .z 6]⟩
  | .saCnt _ _ _ => some ⟨.eng .a, 32, [.op 7 71, .f 4, .f 4, .z 8, .f 3, .z 6]⟩
  | .saScl _ _ => some ⟨.eng .a, 32, [.op 7 72, .z 4, .f 4, .z 4, .f 4, .z 9]⟩
  | .saRd _ _ _ _ => some ⟨.eng .a, 32, [.op 7 73, .f 4, .f 4, .z 4, .f 4, .f 3, .z 6]⟩
  | .saWindow _ _ => none
  | .saRmwPerform _ _ => none
  | .beatBoundary _ => none
  | .alignmentPauseEnd _ => none
  | .beatObserved _ _ _ => none
  | .beaconSend _ => none
  | .beaconReceive _ _ => none
  | .livenessTimeout _ => none
  | .refreshCheck _ _ => none
  | .freezeBegin _ => none
  | .forcedRefreshStart _ => none
  | .freezeEnd _ => none
  | .deadlineRefresh _ _ => none
  | .seqCommandStart _ => none
  | .seqCommandComplete _ => none
  | .transferSend _ => none
  | .drdStripLanding _ => none
  | .farRequestArrival _ => none
  | .farSlot _ => none
  | .rdcBlockAccept _ _ => none
  | .reductionStrip _ => none
  | .reductionFinish _ => none
  | .addressPieceSend _ _ _ => none
  | .addressPieceReply _ => none
  | .pageWalk _ _ _ => none
  | .ctxSend _ => none
  | .ctxLanding _ => none
  | .nodeFrameArrival _ _ _ _ _ _ _ => none
  | .nodeAcknowledgement _ _ _ => none
  | .nodeDestinationUnreachable _ => none
  | .taskEnd _ _ => none
  | .lqtailWrite _ _ _ => none
  | .packetRead _ _ => none
  | .lqctlOff _ _ => none
  | .lqctlRun _ _ => none
  | .lqctlDrain _ _ => none
  | .lqctlAbort _ _ => none
  | .vfuseWrite _ => none
  | .planactWrite _ => none
  | .aelsWrite _ => none
  | .telsWrite _ => none
  | .mclogWrite _ _ _ => none
  | .asinvWrite _ _ => none
  | .asinvDone _ => none
  | .cebaseWrite _ _ => none
  | .cetailWrite _ _ => none
  | .ceJobStart _ => none
  | .ceJobComplete _ => none
  | .gangStopRequest _ _ => none
  | .cutTaken _ => none
  | .cutcmdNoEffect _ _ => none
  | .cutcmdResume _ _ => none
  | .cutcmdEnd _ _ => none
  | .cutcmdPreempt _ _ => none
  | .rowReopen _ => none
  | .powerUp => none
  | .bootctlGo _ => none
  | .bootVerificationDone => none
  | .pcieConventionalReset => none
  | .bwinWrite _ => none
  | .hostBarAccess _ _ _ _ _ _ => none
  | .hostWindowCompletion _ _ _ => none
  | .attreqWrite _ => none
  | .attestationReportDone => none
  | .rlptrWrite _ => none
  | .fatalErrorDump _ => none
  | .pwrctlWrite _ _ => none
  | .thermalThresholdChange _ _ => none
  | .stackHotChange _ _ => none
  | .clockSkipTimeout _ => none
  | .transitionWindowEnd _ => none
  | .registerWrite _ _ => none
  | .cScratchpadCommandComplete _ _ => none
  | .saRdComplete _ _ => none
  | .eventMessageTimestamp _ _ => none

/-- The operands of an instruction, in the order of its encoding. -/
def operands : Instr → List Nat
  | .nop16 => []
  | .bw nx => [nx]
  | .mov16 d a => [d, a]
  | .addi16 d imm => [d, imm]
  | .li16 d imm => [d, imm]
  | .blockHeader ty imm lx rl => [ty, imm, lx, rl]
  | .repnPop _ _ _ => []
  | .pathRecordTake _ _ _ => []
  | .add d a b => [d, a, b]
  | .sub d a b => [d, a, b]
  | .and d a b => [d, a, b]
  | .or d a b => [d, a, b]
  | .xor d a b => [d, a, b]
  | .andn d a b => [d, a, b]
  | .sll d a b => [d, a, b]
  | .srl d a b => [d, a, b]
  | .sra d a b => [d, a, b]
  | .rotl d a b => [d, a, b]
  | .min d a b => [d, a, b]
  | .max d a b => [d, a, b]
  | .minn d a b => [d, a, b]
  | .maxn d a b => [d, a, b]
  | .mul d a b => [d, a, b]
  | .mulh d a b => [d, a, b]
  | .mulhn d a b => [d, a, b]
  | .div d a b => [d, a, b]
  | .divn d a b => [d, a, b]
  | .rem d a b => [d, a, b]
  | .remn d a b => [d, a, b]
  | .clz d a => [d, a]
  | .ctz d a => [d, a]
  | .popc d a => [d, a]
  | .addi d a imm => [d, a, imm]
  | .andi d a imm => [d, a, imm]
  | .ori d a imm => [d, a, imm]
  | .xori d a imm => [d, a, imm]
  | .slli d a sx => [d, a, sx]
  | .srli d a sx => [d, a, sx]
  | .srai d a sx => [d, a, sx]
  | .lih d imm => [d, imm]
  | .cmpEq px a b => [px, a, b]
  | .cmpNe px a b => [px, a, b]
  | .cmpLt px a b => [px, a, b]
  | .cmpLe px a b => [px, a, b]
  | .cmpLtn px a b => [px, a, b]
  | .cmpLen px a b => [px, a, b]
  | .cmpiEq px a imm => [px, a, imm]
  | .cmpiLt px a imm => [px, a, imm]
  | .cmpiLtn px a imm => [px, a, imm]
  | .sel d a b nx => [d, a, b, nx]
  | .pand d a b => [d, a, b]
  | .por d a b => [d, a, b]
  | .pxor d a b => [d, a, b]
  | .pnot d a => [d, a]
  | .pknow d a => [d, a]
  | .pset d vx => [d, vx]
  | .popv px a ex => [px, a, ex]
  | .ldI8 d a imm => [d, a, imm]
  | .ldN8 d a imm => [d, a, imm]
  | .ldI16 d a imm => [d, a, imm]
  | .ldN16 d a imm => [d, a, imm]
  | .ldI32 d a imm => [d, a, imm]
  | .ldN32 d a imm => [d, a, imm]
  | .ldI64 d a imm => [d, a, imm]
  | .st8 d a imm => [d, a, imm]
  | .st16 d a imm => [d, a, imm]
  | .st32 d a imm => [d, a, imm]
  | .st64 d a imm => [d, a, imm]
  | .ldAcq d a sx => [d, a, sx]
  | .stRel d a sx => [d, a, sx]
  | .sLoadReturn _ _ => []
  | .sStorePerform _ _ => []
  | .bT px off => [px, off]
  | .bF px off => [px, off]
  | .bU px off => [px, off]
  | .b off => [off]
  | .jal d off => [d, off]
  | .jr d a => [d, a]
  | .swpt a => [a]
  | .pwr px lx => [px, lx]
  | .bnow d => [d]
  | .palign a imm => [a, imm]
  | .waitt a => [a]
  | .waittWake _ _ => []
  | .tick d => [d]
  | .ntime d => [d]
  | .fence sx ex => [sx, ex]
  | .fenceRetire _ _ => []
  | .tlbi a => [a]
  | .tlbiAll => []
  | .isync => []
  | .smark => []
  | .ezw a b wx => [a, b, wx]
  | .fpush a => [a]
  | .repn ex a => [ex, a]
  | .handC a => [a]
  | .handA a nx => [a, nx]
  | .evpop d => [d]
  | .evpeek d => [d]
  | .gbar sx => [sx]
  | .gbarRelease _ _ => []
  | .exit a => [a]
  | .post d a b => [d, a, b]
  | .csrr d cx => [d, cx]
  | .csrw a cx => [a, cx]
  | .csrs a cx => [a, cx]
  | .csrc a cx => [a, cx]
  | .svc imm => [imm]
  | .brk imm => [imm]
  | .dopen rl a gp nx => [rl, a, gp, nx]
  | .dopenw rl a gp nx => [rl, a, gp, nx]
  | .dhold rl gp nx => [rl, gp, nx]
  | .drel rl gp nx => [rl, gp, nx]
  | .drelw rl gp nx => [rl, gp, nx]
  | .drd rl a gp nx => [rl, a, gp, nx]
  | .dwr rl a gp nx => [rl, a, gp, nx]
  | .dref a gp nx => [a, gp, nx]
  | .dgap gp nx => [gp, nx]
  | .cbeat a => [a]
  | .iaZero d gp nx sx cx => [d, gp, nx, sx, cx]
  | .iaCopy d a gp nx sx cx => [d, a, gp, nx, sx, cx]
  | .iaAddBf16 d a b gp nx sx cx => [d, a, b, gp, nx, sx, cx]
  | .iaAddF32 d a b gp nx sx cx => [d, a, b, gp, nx, sx, cx]
  | .iaSubBf16 d a b gp nx sx cx => [d, a, b, gp, nx, sx, cx]
  | .iaSubF32 d a b gp nx sx cx => [d, a, b, gp, nx, sx, cx]
  | .iaMulBf16 d a b gp nx sx cx => [d, a, b, gp, nx, sx, cx]
  | .iaMulF32 d a b gp nx sx cx => [d, a, b, gp, nx, sx, cx]
  | .iaFmaBf16 d a b gp nx sx cx => [d, a, b, gp, nx, sx, cx]
  | .iaFmaF32 d a b gp nx sx cx => [d, a, b, gp, nx, sx, cx]
  | .iaAxpyBf16 d a b gp nx sx cx => [d, a, b, gp, nx, sx, cx]
  | .iaAxpyF32 d a b gp nx sx cx => [d, a, b, gp, nx, sx, cx]
  | .iaAccBf16 wx a gp nx sx cx => [wx, a, gp, nx, sx, cx]
  | .iaAccF32 wx a gp nx sx cx => [wx, a, gp, nx, sx, cx]
  | .iaWldF32 wx a gp nx sx cx => [wx, a, gp, nx, sx, cx]
  | .iaWldBf16 wx a gp nx sx cx => [wx, a, gp, nx, sx, cx]
  | .iaWstF32 d wx gp nx sx cx => [d, wx, gp, nx, sx, cx]
  | .iaWstBf16 d wx gp nx sx cx => [d, wx, gp, nx, sx, cx]
  | .iaMaxBf16 d a b gp nx sx cx => [d, a, b, gp, nx, sx, cx]
  | .iaMaxF32 d a b gp nx sx cx => [d, a, b, gp, nx, sx, cx]
  | .iaMinBf16 d a b gp nx sx cx => [d, a, b, gp, nx, sx, cx]
  | .iaMinF32 d a b gp nx sx cx => [d, a, b, gp, nx, sx, cx]
  | .iaCvt d a b gp nx sx cx => [d, a, b, gp, nx, sx, cx]
  | .iaScale a gp nx sx => [a, gp, nx, sx]
  | .cld a b cx => [a, b, cx]
  | .cldBs a b cx => [a, b, cx]
  | .cst a b cx => [a, b, cx]
  | .cstBs a b cx => [a, b, cx]
  | .ccpy a b cx => [a, b, cx]
  | .cfq nx a cx px => [nx, a, cx, px]
  | .cdq a nx cx => [a, nx, cx]
  | .cvf a b cx => [a, b, cx]
  | .cfv a b cx => [a, b, cx]
  | .ccv a b cx => [a, b, cx]
  | .cpl a b cx => [a, b, cx]
  | .cgat a b cx ex => [a, b, cx, ex]
  | .csct a b cx ex => [a, b, cx, ex]
  | .cpat a px => [a, px]
  | .rdc a => [a]
  | .ctx d sx lx gp nx => [d, sx, lx, gp, nx]
  | .cadd d a b => [d, a, b]
  | .caddSub d a b => [d, a, b]
  | .caddShl d a b => [d, a, b]
  | .cmov d a => [d, a]
  | .cmovLd d a => [d, a]
  | .cmovSt d a => [d, a]
  | .take d => [d]
  | .vadd d a px b qx ty => [d, a, px, b, qx, ty]
  | .vsub d a px b qx ty => [d, a, px, b, qx, ty]
  | .vmul d a px b qx ty => [d, a, px, b, qx, ty]
  | .vfma d a px b qx cx rl ty => [d, a, px, b, qx, cx, rl, ty]
  | .vfms d a px b qx cx rl ty => [d, a, px, b, qx, cx, rl, ty]
  | .vmin d a px b qx ty => [d, a, px, b, qx, ty]
  | .vmax d a px b qx ty => [d, a, px, b, qx, ty]
  | .vabs d a px ty => [d, a, px, ty]
  | .vneg d a px ty => [d, a, px, ty]
  | .vand d a px b qx ty => [d, a, px, b, qx, ty]
  | .vor d a px b qx ty => [d, a, px, b, qx, ty]
  | .vxor d a px b qx ty => [d, a, px, b, qx, ty]
  | .vshl d a px b qx ty => [d, a, px, b, qx, ty]
  | .vshr d a px b qx ty => [d, a, px, b, qx, ty]
  | .vsra d a px b qx ty => [d, a, px, b, qx, ty]
  | .vrcp d a px ty => [d, a, px, ty]
  | .vrsq d a px ty => [d, a, px, ty]
  | .vexp2 d a px ty => [d, a, px, ty]
  | .vlog2 d a px ty => [d, a, px, ty]
  | .vsqrt d a px ty => [d, a, px, ty]
  | .vdiv d a px b qx ty => [d, a, px, b, qx, ty]
  | .vcmpEq md a px b qx ty => [md, a, px, b, qx, ty]
  | .vcmpNe md a px b qx ty => [md, a, px, b, qx, ty]
  | .vcmpLt md a px b qx ty => [md, a, px, b, qx, ty]
  | .vcmpLe md a px b qx ty => [md, a, px, b, qx, ty]
  | .vcmpGt md a px b qx ty => [md, a, px, b, qx, ty]
  | .vcmpGe md a px b qx ty => [md, a, px, b, qx, ty]
  | .vcmpUo md a px b qx ty => [md, a, px, b, qx, ty]
  | .vsel d a px b qx cx rl ty => [d, a, px, b, qx, cx, rl, ty]
  | .mand d a b => [d, a, b]
  | .mor d a b => [d, a, b]
  | .mxor d a b => [d, a, b]
  | .mnot d a => [d, a]
  | .mknow d a => [d, a]
  | .mall d a => [d, a]
  | .mnone d a => [d, a]
  | .vcvt d a px sx xx ty => [d, a, px, sx, xx, ty]
  | .vqnt d a px wx ty => [d, a, px, wx, ty]
  | .vdeq d a px wx ty => [d, a, px, wx, ty]
  | .vredsum d a px ty => [d, a, px, ty]
  | .vredmax d a px ty => [d, a, px, ty]
  | .vredmin d a px ty => [d, a, px, ty]
  | .vperm d a px b qx cx rl ty => [d, a, px, b, qx, cx, rl, ty]
  | .vrot d a px nx ty => [d, a, px, nx, ty]
  | .vbcast d a px b qx ty => [d, a, px, b, qx, ty]
  | .viota d imm ty => [d, imm, ty]
  | .vsplat d imm ty => [d, imm, ty]
  | .vmov d a px ty => [d, a, px, ty]
  | .vclr d ty => [d, ty]
  | .vpf ex qx => [ex, qx]
  | .vtos sx qx => [sx, qx]
  | .vmark => []
  | .vResultLanding _ _ => []
  | .jadd jd a b ty => [jd, a, b, ty]
  | .jsub jd a b ty => [jd, a, b, ty]
  | .jmul jd a b ty => [jd, a, b, ty]
  | .jdiv jd a b ty => [jd, a, b, ty]
  | .jsqr jd a ty => [jd, a, ty]
  | .jsqrt jd a ty => [jd, a, ty]
  | .jexp2 jd a ty => [jd, a, ty]
  | .jmax jd a b ty => [jd, a, b, ty]
  | .jmin jd a b ty => [jd, a, b, ty]
  | .jabs jd a ty => [jd, a, ty]
  | .jneg jd a ty => [jd, a, ty]
  | .jhull jd a b ty => [jd, a, b, ty]
  | .jisect jd a b ty => [jd, a, b, ty]
  | .jlo d a ex ty => [d, a, ex, ty]
  | .jhi d a ex ty => [d, a, ex, ty]
  | .jmid d a ex ty => [d, a, ex, ty]
  | .jrad d a ex ty => [d, a, ex, ty]
  | .jwid d a ex ty => [d, a, ex, ty]
  | .jmkPair jd px a qx b ty => [jd, px, a, qx, b, ty]
  | .jmkPoint jd px a ty => [jd, px, a, ty]
  | .jredsum jd a ty => [jd, a, ty]
  | .jcmpLt md a b ty => [md, a, b, ty]
  | .jcmpLe md a b ty => [md, a, b, ty]
  | .jcmpEq md a b ty => [md, a, b, ty]
  | .jcmpNe md a b ty => [md, a, b, ty]
  | .jcmpSub md a b ty => [md, a, b, ty]
  | .jcmpDis md a b ty => [md, a, b, ty]
  | .jempty md a ty => [md, a, ty]
  | .jst d a ex hx => [d, a, ex, hx]
  | .jcvt jd a px ty => [jd, a, px, ty]
  | .jaddBk zz xx yy ty => [zz, xx, yy, ty]
  | .jsubBk zz xx yy ty => [zz, xx, yy, ty]
  | .jmulBk zz xx yy ty => [zz, xx, yy, ty]
  | .jdivBk zz xx yy ty => [zz, xx, yy, ty]
  | .jsqrBk zz xx ty => [zz, xx, ty]
  | .jsqrtBk zz xx ty => [zz, xx, ty]
  | .jexp2Bk zz xx ty => [zz, xx, ty]
  | .jmaxBk zz xx yy ty => [zz, xx, yy, ty]
  | .jminBk zz xx yy ty => [zz, xx, yy, ty]
  | .jabsBk zz xx ty => [zz, xx, ty]
  | .jnegBk zz xx ty => [zz, xx, ty]
  | .jsplat jd imm => [jd, imm]
  | .mtile b => [b]
  | .mzacc b => [b]
  | .mret => []
  | .mmark => []
  | .mtileStep _ => []
  | .mtileReductionEnd _ => []
  | .mtileRetirementDone _ => []
  | .saAdd d a b ty => [d, a, b, ty]
  | .saAddq d a b sx ty => [d, a, b, sx, ty]
  | .saMin d a b ty => [d, a, b, ty]
  | .saMax d a b ty => [d, a, b, ty]
  | .saOr d a b ty => [d, a, b, ty]
  | .saAnd d a b ty => [d, a, b, ty]
  | .saXch d a b ty => [d, a, b, ty]
  | .saCnt d a ty => [d, a, ty]
  | .saScl a sx => [a, sx]
  | .saRd d a sx ty => [d, a, sx, ty]
  | .saWindow _ _ => []
  | .saRmwPerform _ _ => []
  | .beatBoundary _ => []
  | .alignmentPauseEnd _ => []
  | .beatObserved _ _ _ => []
  | .beaconSend _ => []
  | .beaconReceive _ _ => []
  | .livenessTimeout _ => []
  | .refreshCheck _ _ => []
  | .freezeBegin _ => []
  | .forcedRefreshStart _ => []
  | .freezeEnd _ => []
  | .deadlineRefresh _ _ => []
  | .seqCommandStart _ => []
  | .seqCommandComplete _ => []
  | .transferSend _ => []
  | .drdStripLanding _ => []
  | .farRequestArrival _ => []
  | .farSlot _ => []
  | .rdcBlockAccept _ _ => []
  | .reductionStrip _ => []
  | .reductionFinish _ => []
  | .addressPieceSend _ _ _ => []
  | .addressPieceReply _ => []
  | .pageWalk _ _ _ => []
  | .ctxSend _ => []
  | .ctxLanding _ => []
  | .nodeFrameArrival _ _ _ _ _ _ _ => []
  | .nodeAcknowledgement _ _ _ => []
  | .nodeDestinationUnreachable _ => []
  | .taskEnd _ _ => []
  | .lqtailWrite _ _ _ => []
  | .packetRead _ _ => []
  | .lqctlOff _ _ => []
  | .lqctlRun _ _ => []
  | .lqctlDrain _ _ => []
  | .lqctlAbort _ _ => []
  | .vfuseWrite _ => []
  | .planactWrite _ => []
  | .aelsWrite _ => []
  | .telsWrite _ => []
  | .mclogWrite _ _ _ => []
  | .asinvWrite _ _ => []
  | .asinvDone _ => []
  | .cebaseWrite _ _ => []
  | .cetailWrite _ _ => []
  | .ceJobStart _ => []
  | .ceJobComplete _ => []
  | .gangStopRequest _ _ => []
  | .cutTaken _ => []
  | .cutcmdNoEffect _ _ => []
  | .cutcmdResume _ _ => []
  | .cutcmdEnd _ _ => []
  | .cutcmdPreempt _ _ => []
  | .rowReopen _ => []
  | .powerUp => []
  | .bootctlGo _ => []
  | .bootVerificationDone => []
  | .pcieConventionalReset => []
  | .bwinWrite _ => []
  | .hostBarAccess _ _ _ _ _ _ => []
  | .hostWindowCompletion _ _ _ => []
  | .attreqWrite _ => []
  | .attestationReportDone => []
  | .rlptrWrite _ => []
  | .fatalErrorDump _ => []
  | .pwrctlWrite _ _ => []
  | .thermalThresholdChange _ _ => []
  | .stackHotChange _ _ => []
  | .clockSkipTimeout _ => []
  | .transitionWindowEnd _ => []
  | .registerWrite _ _ => []
  | .cScratchpadCommandComplete _ _ => []
  | .saRdComplete _ _ => []
  | .eventMessageTimestamp _ _ => []

/-- The word of an instruction, as a number of 16 or 32 bits; 0 for an event. -/
def encode (i : Instr) : Nat :=
  match layout i with
  | some l => Seg.fill l.segs (operands i)
  | none => 0

/-- The halfwords of an instruction as program text holds them: bits 31:16 of a 32-bit word first (R23). -/
def encodeHalfwords (i : Instr) : List Nat :=
  match layout i with
  | some l => if l.bits = 32 then [encode i / 65536, encode i % 65536] else [encode i]
  | none => []

def mk0 (i : Instr) : List Nat → Instr := fun _ => i
def mk1 (f : Nat → Instr) : List Nat → Instr := fun l => f (l.getD 0 0)
def mk2 (f : Nat → Nat → Instr) : List Nat → Instr := fun l => f (l.getD 0 0) (l.getD 1 0)
def mk3 (f : Nat → Nat → Nat → Instr) : List Nat → Instr := fun l => f (l.getD 0 0) (l.getD 1 0) (l.getD 2 0)
def mk4 (f : Nat → Nat → Nat → Nat → Instr) : List Nat → Instr :=
  fun l => f (l.getD 0 0) (l.getD 1 0) (l.getD 2 0) (l.getD 3 0)
def mk5 (f : Nat → Nat → Nat → Nat → Nat → Instr) : List Nat → Instr :=
  fun l => f (l.getD 0 0) (l.getD 1 0) (l.getD 2 0) (l.getD 3 0) (l.getD 4 0)
def mk6 (f : Nat → Nat → Nat → Nat → Nat → Nat → Instr) : List Nat → Instr :=
  fun l => f (l.getD 0 0) (l.getD 1 0) (l.getD 2 0) (l.getD 3 0) (l.getD 4 0) (l.getD 5 0)
def mk7 (f : Nat → Nat → Nat → Nat → Nat → Nat → Nat → Instr) : List Nat → Instr :=
  fun l => f (l.getD 0 0) (l.getD 1 0) (l.getD 2 0) (l.getD 3 0) (l.getD 4 0) (l.getD 5 0) (l.getD 6 0)
def mk8 (f : Nat → Nat → Nat → Nat → Nat → Nat → Nat → Nat → Instr) : List Nat → Instr :=
  fun l => f (l.getD 0 0) (l.getD 1 0) (l.getD 2 0) (l.getD 3 0) (l.getD 4 0) (l.getD 5 0) (l.getD 6 0) (l.getD 7 0)

/-- The short instructions common to the engines (R37). -/
def rowsAny16 : List (List Nat → Instr) :=
  [mk0 .nop16, mk1 .bw]

/-- The short instructions of S (R41). -/
def rowsS16 : List (List Nat → Instr) :=
  [mk2 .mov16, mk2 .addi16, mk2 .li16]

/-- The words of S (R45). -/
def rowsS : List (List Nat → Instr) :=
  [mk3 .add, mk3 .sub, mk3 .and, mk3 .or, mk3 .xor, mk3 .andn]
    ++ [mk3 .sll, mk3 .srl, mk3 .sra, mk3 .rotl, mk3 .min, mk3 .max]
    ++ [mk3 .minn, mk3 .maxn, mk3 .mul, mk3 .mulh, mk3 .mulhn, mk3 .div]
    ++ [mk3 .divn, mk3 .rem, mk3 .remn, mk2 .clz, mk2 .ctz, mk2 .popc]
    ++ [mk3 .addi, mk3 .andi, mk3 .ori, mk3 .xori, mk3 .slli, mk3 .srli]
    ++ [mk3 .srai, mk2 .lih, mk3 .cmpEq, mk3 .cmpNe, mk3 .cmpLt, mk3 .cmpLe]
    ++ [mk3 .cmpLtn, mk3 .cmpLen, mk3 .cmpiEq, mk3 .cmpiLt, mk3 .cmpiLtn, mk4 .sel]
    ++ [mk3 .pand, mk3 .por, mk3 .pxor, mk2 .pnot, mk2 .pknow, mk2 .pset]
    ++ [mk3 .popv, mk3 .ldI8, mk3 .ldN8, mk3 .ldI16, mk3 .ldN16, mk3 .ldI32]
    ++ [mk3 .ldN32, mk3 .ldI64, mk3 .st8, mk3 .st16, mk3 .st32, mk3 .st64]
    ++ [mk3 .ldAcq, mk3 .stRel, mk2 .bT, mk2 .bF, mk2 .bU, mk1 .b]
    ++ [mk2 .jal, mk2 .jr, mk1 .swpt, mk2 .pwr, mk1 .bnow, mk2 .palign]
    ++ [mk1 .waitt, mk1 .tick, mk1 .ntime, mk2 .fence, mk1 .tlbi, mk0 .tlbiAll]
    ++ [mk0 .isync, mk0 .smark, mk3 .ezw, mk1 .fpush, mk2 .repn, mk1 .handC]
    ++ [mk2 .handA, mk1 .evpop, mk1 .evpeek, mk1 .gbar, mk1 .exit, mk3 .post]
    ++ [mk2 .csrr, mk2 .csrw, mk2 .csrs, mk2 .csrc, mk1 .svc, mk1 .brk]

/-- The words of C (R46). -/
def rowsC : List (List Nat → Instr) :=
  [mk4 .dopen, mk4 .dopenw, mk3 .dhold, mk3 .drel, mk3 .drelw, mk4 .drd]
    ++ [mk4 .dwr, mk3 .dref, mk2 .dgap, mk1 .cbeat, mk5 .iaZero, mk6 .iaCopy]
    ++ [mk7 .iaAddBf16, mk7 .iaAddF32, mk7 .iaSubBf16, mk7 .iaSubF32, mk7 .iaMulBf16, mk7 .iaMulF32]
    ++ [mk7 .iaFmaBf16, mk7 .iaFmaF32, mk7 .iaAxpyBf16, mk7 .iaAxpyF32, mk6 .iaAccBf16, mk6 .iaAccF32]
    ++ [mk6 .iaWldF32, mk6 .iaWldBf16, mk6 .iaWstF32, mk6 .iaWstBf16, mk7 .iaMaxBf16, mk7 .iaMaxF32]
    ++ [mk7 .iaMinBf16, mk7 .iaMinF32, mk7 .iaCvt, mk4 .iaScale, mk3 .cld, mk3 .cldBs]
    ++ [mk3 .cst, mk3 .cstBs, mk3 .ccpy, mk4 .cfq, mk3 .cdq, mk3 .cvf]
    ++ [mk3 .cfv, mk3 .ccv, mk3 .cpl, mk4 .cgat, mk4 .csct, mk2 .cpat]
    ++ [mk1 .rdc, mk5 .ctx, mk3 .cadd, mk3 .caddSub, mk3 .caddShl, mk2 .cmov]
    ++ [mk2 .cmovLd, mk2 .cmovSt, mk1 .take]

/-- The words of V and the interval unit (R47). -/
noncomputable def rowsV : List (List Nat → Instr) :=
  [mk6 .vadd, mk6 .vsub, mk6 .vmul, mk8 .vfma, mk8 .vfms, mk6 .vmin]
    ++ [mk6 .vmax, mk4 .vabs, mk4 .vneg, mk6 .vand, mk6 .vor, mk6 .vxor]
    ++ [mk6 .vshl, mk6 .vshr, mk6 .vsra, mk4 .vrcp, mk4 .vrsq, mk4 .vexp2]
    ++ [mk4 .vlog2, mk4 .vsqrt, mk6 .vdiv, mk6 .vcmpEq, mk6 .vcmpNe, mk6 .vcmpLt]
    ++ [mk6 .vcmpLe, mk6 .vcmpGt, mk6 .vcmpGe, mk6 .vcmpUo, mk8 .vsel, mk3 .mand]
    ++ [mk3 .mor, mk3 .mxor, mk2 .mnot, mk2 .mknow, mk2 .mall, mk2 .mnone]
    ++ [mk6 .vcvt, mk5 .vqnt, mk5 .vdeq, mk4 .vredsum, mk4 .vredmax, mk4 .vredmin]
    ++ [mk8 .vperm, mk5 .vrot, mk6 .vbcast, mk3 .viota, mk3 .vsplat, mk4 .vmov]
    ++ [mk2 .vclr, mk2 .vpf, mk2 .vtos, mk0 .vmark, mk4 .jadd, mk4 .jsub]
    ++ [mk4 .jmul, mk4 .jdiv, mk3 .jsqr, mk3 .jsqrt, mk3 .jexp2, mk4 .jmax]
    ++ [mk4 .jmin, mk3 .jabs, mk3 .jneg, mk4 .jhull, mk4 .jisect, mk4 .jlo]
    ++ [mk4 .jhi, mk4 .jmid, mk4 .jrad, mk4 .jwid, mk6 .jmkPair, mk4 .jmkPoint]
    ++ [mk3 .jredsum, mk4 .jcmpLt, mk4 .jcmpLe, mk4 .jcmpEq, mk4 .jcmpNe, mk4 .jcmpSub]
    ++ [mk4 .jcmpDis, mk3 .jempty, mk4 .jst, mk4 .jcvt, mk4 .jaddBk, mk4 .jsubBk]
    ++ [mk4 .jmulBk, mk4 .jdivBk, mk3 .jsqrBk, mk3 .jsqrtBk, mk3 .jexp2Bk, mk4 .jmaxBk]
    ++ [mk4 .jminBk, mk3 .jabsBk, mk3 .jnegBk, mk2 .jsplat]

/-- The words of M (R48). -/
noncomputable def rowsM : List (List Nat → Instr) :=
  [mk1 .mtile, mk1 .mzacc, mk0 .mret, mk0 .mmark]

/-- The words of A (R48). -/
noncomputable def rowsA : List (List Nat → Instr) :=
  [mk4 .saAdd, mk5 .saAddq, mk4 .saMin, mk4 .saMax, mk4 .saOr, mk4 .saAnd]
    ++ [mk4 .saXch, mk3 .saCnt, mk2 .saScl, mk4 .saRd]


/-- The 32-bit words that an engine decodes inside a block body. -/
noncomputable def rowsOf : Eng → List (List Nat → Instr)
  | .s => rowsS
  | .c => rowsC
  | .v => rowsV
  | .m => rowsM
  | .a => rowsA

/-- The short instructions of an engine (R37, R40). -/
def rows16Of : Eng → List (List Nat → Instr)
  | .s => rowsAny16 ++ rowsS16
  | _ => rowsAny16

/-- What the bits of a word alone say: an instruction; an instruction with a non-zero reserved bit, or with a field value
that its reference reserves, read as that instruction; or no instruction. -/
inductive Word32 where
  | ok (i : Instr)
  | res (i : Instr)
  | ill
deriving DecidableEq, Repr

/-- The first row that the selecting bits of w name. -/
def findRow : List (List Nat → Instr) → Nat → Word32
  | [], _ => .ill
  | f :: r, w =>
    match layout (f []) with
    | none => findRow r w
    | some l =>
      if Seg.selects l.segs l.bits w then
        if Seg.zerosOk l.segs l.bits w then .ok (f (Seg.fields l.segs l.bits w)) else .res (f (Seg.fields l.segs l.bits w))
      else findRow r w

/-- The word w as engine e decodes it (R44). An S word of major 44 that names neither C nor A, and an ia.wld or ia.wst
with a b field above 1, hold a reserved field value (R280, R114). -/
noncomputable def decodeWord (e : Eng) (w : Nat) : Word32 :=
  match findRow (rowsOf e) w with
  | .ill =>
    match e, w / 2 ^ 25 with
    | .s, 108 => .res (.handC 0)
    | .c, 88 => .res (.iaWldF32 0 0 0 0 0 0)
    | .c, 89 => .res (.iaWstF32 0 0 0 0 0 0)
    | _, _ => .ill
  | x => x

/-- The halfword h as a short instruction of engine e (R37, R40). -/
def decodeShort (e : Eng) (h : Nat) : Word32 := findRow (rows16Of e) h

/-- The word w as a block header (R25); the engine that reads it makes the checks of R26. -/
def decodeHeader (w : Nat) : Option Instr :=
  if w / 2 ^ 25 = 127 then some (.blockHeader (slice w 22 3) (slice w 21 1) (slice w 10 10) (slice w 0 10)) else none

/-- Which prefix fields an instruction accepts (R36, R102, R122, R192, R211, R242, R248, R260). Every instruction accepts
wait. -/
structure Accepts where
  tok : Bool := false
  rnd : Bool := false
  mask : Bool := false
  sat : Bool := false
  ev : Bool := false
  imx : Bool := false
  gap : Bool := false
  prof : Bool := false
  buf : Bool := false
  col : Bool := false
deriving DecidableEq, Repr

open WellFormed in
/-- The fields of a V instruction outside the interval unit (R192), by its major. -/
def acceptsV (major : Nat) : Accepts :=
  if lt major 3 || (ge major 5 && lt major 9) then ⟨false, true, true, true, true, false, false, true, false, false⟩
  else if lt major 5 then { rnd := true, mask := true, prof := true }
  else if lt major 12 then { mask := true }
  else if major == 12 then { mask := true, sat := true, ev := true }
  else if lt major 15 then { mask := true }
  else if lt major 21 then { rnd := true, mask := true, prof := true }
  else if lt major 23 then { mask := true }
  else if major == 23 then {}
  else if major == 24 || major == 27 then ⟨false, true, true, true, true, false, false, true, false, false⟩
  else if major == 25 then {}
  else if major == 26 then { rnd := true, mask := true }
  else if lt major 31 then { mask := true }
  else if major == 31 then { mask := true, imx := true }
  else if major == 32 then { mask := true }
  else if major == 33 then { rnd := true, mask := true, sat := true, imx := true }
  else if major == 34 then { mask := true, sat := true, imx := true }
  else if major == 35 || major == 39 then { mask := true }
  else if major == 38 then { tok := true }
  else if ge major 40 && lt major 57 then { mask := true }
  else if major == 58 || major == 60 then { mask := true }
  else if major == 59 then { mask := true, ev := true }
  else {}

open WellFormed in
/-- The fields of a C instruction, by its major. -/
def acceptsC (major : Nat) : Accepts :=
  if major == 5 || major == 6 then { tok := true, gap := true, buf := true, col := true }
  else if lt major 9 then { tok := true, gap := true }
  else if major == 9 then { tok := true }
  else if lt major 32 then { tok := true, gap := true }
  else if lt major 34 || major == 41 || major == 42 || major == 44 then { tok := true, buf := true }
  else if major == 45 then { tok := true, gap := true }
  else { tok := true }

open WellFormed in
/-- The fields of an S instruction, by its major: only smark takes a token, and the forms with an immediate operand take
imx (R260, R262, R263, R267, R144). R36 does not say whether svc and brk, which take it here, and the CSR instructions, which do not, have
such an operand (log entry 71). -/
def acceptsS (major : Nat) : Accepts :=
  if major == 40 then { tok := true }
  else if (ge major 1 && lt major 9) || (ge major 10 && lt major 13) || (ge major 15 && lt major 26) || major == 33
      || major == 55 || major == 56 then { imx := true }
  else {}

open WellFormed in
/-- The fields of an A instruction, by its major and type (R248). -/
def acceptsA (major ty : Nat) : Accepts :=
  if major == 0 then { tok := true, rnd := lt ty 2, sat := ge ty 2 }
  else if major == 7 then { tok := true, sat := true }
  else if major == 9 then { tok := true, rnd := true }
  else { tok := true }

/-- The type field of a word of V or A: the last operand of most rows. -/
def typeOf (i : Instr) : Nat := (operands i).getLastD 0

/-- The fields that instruction i, decoded by engine e from a word of the given major, accepts. -/
def accepts (e : Eng) (major : Nat) (i : Instr) : Accepts :=
  match e with
  | .s => acceptsS major
  | .c => acceptsC major
  | .v => acceptsV major
  | .m => { tok := true }
  | .a => acceptsA major (typeOf i)

open WellFormed in
/-- The word holds a value that its reference calls illegal (R390 step 3): a type outside the types of the instruction
(R192, R248), D = S in vcvt (R199), aliased registers of a contractor (R225), pwr level 3 (R273), an element size code
above 3 (R128) or an unassigned register number (R286). -/
def illegalValue : Instr → Bool
  | .pwr _ lx => !lt lx 3
  | .csrr _ cx => !csrKnown cx
  | .csrw _ cx => !csrKnown cx
  | .csrs _ cx => !csrKnown cx
  | .csrc _ cx => !csrKnown cx
  | .cgat _ _ _ ex => !lt ex 4
  | .csct _ _ _ ex => !lt ex 4
  | .vfma _ _ _ _ _ _ _ ty => !lt ty 2
  | .vfms _ _ _ _ _ _ _ ty => !lt ty 2
  | .vshl _ _ _ _ _ ty => lt ty 2
  | .vshr _ _ _ _ _ ty => lt ty 2
  | .vsra _ _ _ _ _ ty => lt ty 2
  | .vrcp _ _ _ ty => !lt ty 2
  | .vrsq _ _ _ ty => !lt ty 2
  | .vexp2 _ _ _ ty => !lt ty 2
  | .vlog2 _ _ _ ty => !lt ty 2
  | .vsqrt _ _ _ ty => !lt ty 2
  | .vdiv _ _ _ _ _ ty => !lt ty 2
  | .vcvt _ _ _ sx _ ty => ty == sx
  | .vqnt _ _ _ _ ty => !lt ty 2
  | .vdeq _ _ _ _ ty => !lt ty 2
  | .jaddBk zz xx yy _ => zz == xx || zz == yy || xx == yy
  | .jsubBk zz xx yy _ => zz == xx || zz == yy || xx == yy
  | .jmulBk zz xx yy _ => zz == xx || zz == yy || xx == yy
  | .jdivBk zz xx yy _ => zz == xx || zz == yy || xx == yy
  | .jmaxBk zz xx yy _ => zz == xx || zz == yy || xx == yy
  | .jminBk zz xx yy _ => zz == xx || zz == yy || xx == yy
  | .jsqrBk zz xx _ => zz == xx
  | .jsqrtBk zz xx _ => zz == xx
  | .jexp2Bk zz xx _ => zz == xx
  | .jabsBk zz xx _ => zz == xx
  | .jnegBk zz xx _ => zz == xx
  | .saAdd _ _ _ ty => !lt ty 6
  | .saAddq _ _ _ _ ty => !lt ty 2
  | .saMin _ _ _ ty => !lt ty 6
  | .saMax _ _ _ ty => !lt ty 6
  | .saOr _ _ _ ty => lt ty 2 || !lt ty 6
  | .saAnd _ _ _ ty => lt ty 2 || !lt ty 6
  | .saXch _ _ _ ty => !lt ty 6
  | .saCnt _ _ ty => lt ty 2 || !lt ty 6
  | .saRd _ _ _ ty => !lt ty 2
  | _ => false

open WellFormed in
/-- The word holds a field value that its reference reserves (R390 step 4); the other reserved values are bits that must
be 0 and are found with the row. -/
def reservedValue (e : Eng) (major : Nat) (i : Instr) : Bool :=
  match i with
  | .pset _ vx => !lt vx 3
  | .ldAcq _ _ sx => !lt sx 5
  | .stRel _ _ sx => !lt sx 5
  | .fence sx _ => !lt sx 5
  | .gbar sx => sx == 0 || !lt sx 5
  | .repn ex _ => !lt ex 5
  | .iaScale _ _ _ _ => false
  | .cfq nx _ _ _ => !lt nx 8
  | .cdq _ nx _ => !lt nx 4
  | .vcvt d _ _ sx xx ty => !lt d 772 || !lt xx (cvtParts ty sx)
  | .vqnt d _ _ wx _ => !lt d 772 || !lt wx 4
  | .vdeq d _ _ wx _ => !lt d 772 || !lt wx 4
  | .vperm d _ _ _ _ cx rl ty => !lt d 772 || (lt ty 6 && !(cx == 0 && rl == 0))
  | .vpf ex _ => !lt ex 768
  | .jlo d _ ex _ => !lt (32 * d + ex) 772
  | .jhi d _ ex _ => !lt (32 * d + ex) 772
  | .jmid d _ ex _ => !lt (32 * d + ex) 772
  | .jrad d _ ex _ => !lt (32 * d + ex) 772
  | .jwid d _ ex _ => !lt (32 * d + ex) 772
  | .jst d _ ex _ => !lt (32 * d + ex) 772
  | _ =>
    match e with
    | .c =>
      let f := operands i
      if ge major 10 && lt major 31 then
        !lt (f.getD (f.length - 2) 0 + f.getD (f.length - 1) 0) 32
          || (ge major 22 && lt major 25 && !lt (f.getD 0 0) 2) || (major == 25 && !lt (f.getD 1 0) 2)
      else false
    | .v =>
      if lt major 21 || major == 22 || (ge major 24 && lt major 36) || major == 39 then
        !lt ((operands i).getD 0 0) 772
      else false
    | _ => false

/-- A prefix chain as far as it has been read: its fields, the prefixes and tkw in it, whether it breaks a limit of R35 and
whether a prefix of it holds a reserved value. -/
structure Scan where
  ch : Chain := {}
  pre : Nat := 0
  tkw : Nat := 0
  mods : Nat := 0
  prof : Nat := 0
  buf : Nat := 0
  breach : Bool := false
  resv : Bool := false
deriving DecidableEq, Repr

/-- The tokens that a tkw names, added to those named before (R37). -/
def addWait (l : List Nat) (k : Nat) : List Nat := if k = 0 ∨ k ∈ l then l else l ++ [k]

/-- The chain with the prefix h read after it (R35, R37, R42). -/
def addPrefix (x : Scan) (h : Nat) : Scan :=
  let x := { x with pre := x.pre + 1, breach := x.breach || decide (4 ≤ x.pre) }
  match h / 2048 with
  | 1 => { x with ch := { x.ch with tko := some (slice h 0 5) }
                  breach := x.breach || x.ch.tko.isSome, resv := x.resv || slice h 5 6 != 0 }
  | 2 =>
    let w := addWait (addWait x.ch.waits (slice h 5 5)) (slice h 0 5)
    { x with ch := { x.ch with waits := w }, tkw := x.tkw + 1
             breach := x.breach || decide (2 ≤ x.tkw) || decide (3 < w.length), resv := x.resv || bitOf h 10 }
  | 3 => { x with ch := { x.ch with rnd := slice h 8 3, mask := slice h 4 4, sat := bitOf h 3, ev := bitOf h 2 }
                  mods := x.mods + 1, breach := x.breach || decide (1 ≤ x.mods)
                  resv := x.resv || slice h 0 2 != 0 || decide (6 ≤ slice h 8 3) }
  | 4 => { x with ch := { x.ch with imx := some (slice h 0 11) }, breach := x.breach || x.ch.imx.isSome }
  | 5 => { x with ch := { x.ch with gap := some (slice h 0 11) }, breach := x.breach || x.ch.gap.isSome }
  | 6 =>
    if bitOf h 10 then
      { x with ch := { x.ch with buf := slice h 0 8 }, buf := x.buf + 1, breach := x.breach || decide (1 ≤ x.buf)
               resv := x.resv || slice h 8 2 != 0 }
    else
      { x with ch := { x.ch with prof := slice h 0 4 }, prof := x.prof + 1, breach := x.breach || decide (1 ≤ x.prof)
               resv := x.resv || slice h 4 6 != 0 }
  | _ => { x with ch := { x.ch with col := some (slice h 0 10) }, breach := x.breach || x.ch.col.isSome
                  resv := x.resv || bitOf h 10 }

/-- The halfword is a prefix of engine e (R35). -/
def isPrefix (e : Eng) (h : Nat) : Bool :=
  match h / 2048 with
  | 1 | 2 | 3 | 4 | 5 | 6 => true
  | 8 => e == .c
  | _ => false

/-- What the halfwords from an engine's program counter say. -/
inductive Decoded where
  /-- the instruction i with its chain, n halfwords in all -/
  | ok (ch : Chain) (i : Instr) (n : Nat)
  /-- cause number c (0 illegal encoding, 1 reserved field non-zero, 18 profile not supported) of source src -/
  | bad (src c : Nat)
  /-- a 32-bit word starts on the last halfword of the body (R24) -/
  | cut
deriving DecidableEq, Repr

/-- The source under which engine e raises the causes of a word (R226: the interval unit has its own). -/
def sourceOf (e : Eng) (w : Nat) : Nat :=
  if e = .v then (if 40 ≤ w / 2 ^ 25 % 64 ∧ w / 2 ^ 25 % 64 ≤ 60 then 3 else 2) else e.source

/-- A prefix of the chain that the instruction cannot use (R36). -/
def unusable (a : Accepts) (ch : Chain) : Bool :=
  (ch.tko.isSome && !a.tok) || (ch.imx.isSome && !a.imx) || (ch.gap.isSome && !a.gap) || (ch.col.isSome && !a.col)

/-- A modifier field that the instruction does not accept has a value other than its default (R36). -/
def unaccepted (a : Accepts) (ch : Chain) : Bool :=
  (ch.rnd != 0 && !a.rnd) || (ch.mask != 0 && !a.mask) || (ch.sat && !a.sat) || (ch.ev && !a.ev)
    || (ch.prof != 0 && !a.prof) || (ch.buf != 0 && !a.buf)

open WellFormed in
/-- A field value of the chain that the instruction's reference refuses: sat with a floating-point type (R192), an imx on a
shift by an immediate (R262), a strip range past the row (R109), which comes before the checks of the operands (log entry 75). -/
def chainRefused (e : Eng) (major : Nat) (i : Instr) (ch : Chain) : Bool :=
  match e with
  | .s => ge major 5 && lt major 8 && (ch.imx.getD 0 != 0)
  | .c => (major == 5 || major == 6) &&
      !lt (slice (ch.col.getD 31) 5 5 + slice (ch.col.getD 31) 0 5) 32
  | .v => ch.sat && lt (typeOf i) 2 && lt major 40
  | _ => false

/-- The word w after the chain x, with the causes of R390 steps 2 to 5 in their order. -/
noncomputable def decodeFull (e : Eng) (x : Scan) (w : Nat) : Decoded :=
  let src := sourceOf e w
  let major := w / 2 ^ 25 % 64
  if x.breach then .bad src 0
  else
    match decodeWord e w with
    | .ill => .bad src 0
    | .res i => if illegalValue i || unusable (accepts e major i) x.ch then .bad src 0 else .bad src 1
    | .ok i =>
      let a := accepts e major i
      if illegalValue i || unusable a x.ch then .bad src 0
      else if x.resv || unaccepted a x.ch || reservedValue e major i || chainRefused e major i x.ch then .bad src 1
      else if 4 ≤ x.ch.prof then .bad src 18
      else .ok x.ch i (x.pre + 2)

/-- The chain and instruction at the head of a list of halfwords that runs to the end of the block body. -/
noncomputable def decodeFrom (e : Eng) (x : Scan) : List Nat → Decoded
  | [] => .bad e.source 0
  | h :: r =>
    if 32768 ≤ h then
      match r with
      | [] => .cut
      | l :: _ => decodeFull e x (h * 65536 + l)
    else if isPrefix e h then decodeFrom e (addPrefix x h) r
    else if x.pre ≠ 0 then .bad e.source 0
    else
      match decodeShort e h with
      | .ok i => .ok {} i 1
      | .res _ => .bad e.source 1
      | .ill => .bad e.source 0

/-- The chain and instruction that engine e decodes from the halfwords at its program counter. -/
noncomputable def decode (e : Eng) (hs : List Nat) : Decoded := decodeFrom e {} hs

/-- The engine whose blocks an instruction stands in; S for the short instructions that all share and for events. -/
def engineOf (i : Instr) : Eng :=
  match layout i with
  | some ⟨.eng e, _, _⟩ => e
  | _ => .s

/-- The control instructions, each the last of its S block (R31). -/
def isControl : Instr → Bool
  | .bT _ _ => true
  | .bF _ _ => true
  | .bU _ _ => true
  | .b _ => true
  | .jal _ _ => true
  | .jr _ _ => true
  | .swpt _ => true
  | .exit _ => true
  | _ => false

/-- The last two of the halfwords are the word of a control instruction of S, whatever its other fields hold. -/
noncomputable def controlWord (e : Eng) (hs : List Nat) : Bool :=
  match e, hs.reverse with
  | .s, l :: h :: _ =>
    match decodeWord .s (h * 65536 + l) with
    | .ok i => isControl i
    | .res i => isControl i
    | .ill => false
  | _, _ => false

/-- What engine e decodes where left halfwords remain of its block: a control word that is not the last of the block is an illegal encoding
before a field that is reserved or not accepted counts (R31, R390). -/
noncomputable def decodeIn (e : Eng) (left : Nat) (hs : List Nat) : Decoded :=
  match decode e hs with
  | .bad src c => if controlWord e hs ∧ hs.length ≠ left then .bad src 0 else .bad src c
  | x => x

/-- The first of the engines in the list whose decoder gives an instruction for the halfwords. -/
noncomputable def decodeFirst : List Eng → List Nat → Option Instr
  | [], _ => none
  | e :: r, hs =>
    match decode e hs with
    | .ok _ i _ => some i
    | _ => decodeFirst r hs

/-- The instruction that the decoder reads from a word alone. A word does not say which engine's block it stands in (R44,
aside of R48), so a block header is tried first, then the engines in the order M, A, S, C, V (log entry 6). -/
noncomputable def decodeTableWord (nbits w : Nat) : Option Instr :=
  if nbits ≤ 16 then decodeFirst [.s] [w % 65536]
  else
    match decodeHeader (w % 2 ^ 32) with
    | some i => some i
    | none => decodeFirst [.m, .a, .s, .c, .v] [w % 2 ^ 32 / 65536, w % 65536]

end Sys2Proof
end

