-- ==== Sys2Proof/Machine/Real.lean ====
section
/-!
DEFINITION. Exact real values: the operations of 10_numbers are computed exactly and rounded once (R170, R194, R215).
A value is a dyadic number, a quotient, a square root, a power of two or a binary logarithm, and every question asked
of it is a comparison, which is exact.
-/

namespace Sys2Proof

/-- The dyadic number m * 2^e. -/
structure Dy where
  m : Int
  e : Int
deriving DecidableEq, Repr

namespace Dy

def zero : Dy := ⟨0, 0⟩

def ofInt (n : Int) : Dy := ⟨n, 0⟩

/-- The significand of x brought to exponent e, exact where e is at most x.e. -/
def mantAt (x : Dy) (e : Int) : Int := x.m * (2 : Int) ^ (x.e - e).toNat

def add (x y : Dy) : Dy :=
  let e := min x.e y.e
  ⟨mantAt x e + mantAt y e, e⟩

def neg (x : Dy) : Dy := ⟨-x.m, x.e⟩

def sub (x y : Dy) : Dy := add x (neg y)

def mul (x y : Dy) : Dy := ⟨x.m * y.m, x.e + y.e⟩

def abs (x : Dy) : Dy := ⟨x.m.natAbs, x.e⟩

/-- x * 2^k. -/
def scale (x : Dy) (k : Int) : Dy := ⟨x.m, x.e + k⟩

def cmp (x y : Dy) : Ordering :=
  let e := min x.e y.e
  compare (mantAt x e) (mantAt y e)

def le (x y : Dy) : Bool := cmp x y != .gt

def lt (x y : Dy) : Bool := cmp x y == .lt

end Dy

/-- The comparison of n1 / d1 * 2^e1 with n2 / d2 * 2^e2, for positive d1 and d2. -/
def cmpQuo (n1 : Int) (d1 : Nat) (e1 : Int) (n2 : Int) (d2 : Nat) (e2 : Int) : Ordering :=
  Dy.cmp ⟨n1 * d2, e1⟩ ⟨n2 * d1, e2⟩

/-- One digit of a logarithm at a time: y is m / 2^p known to lie in [lo, hi] (both over 2^p), and the n bits of f,
first bit first, are those of the fraction it is compared with. none: p bits do not decide. -/
def log2Digits (p : Nat) : Nat → Nat → Nat → Nat → Option Ordering
  | 0, _, lo, _ => if lo > 2 ^ p then some .gt else none
  | n + 1, f, lo, hi =>
    let lo2 := lo * lo / 2 ^ p
    let hi2 := (hi * hi + 2 ^ p - 1) / 2 ^ p
    let two := 2 ^ (p + 1)
    if bitOf f n then
      if hi2 < two then some .lt
      else if two ≤ lo2 then log2Digits p n f (lo2 / 2) ((hi2 + 1) / 2)
      else none
    else
      if two ≤ lo2 then some .gt
      else if hi2 < two then log2Digits p n f lo2 hi2
      else none

/-- The comparison of log2 (m * 2^e) with a, for positive m, exactly: m^(2^k) against 2^(n - e 2^k), where a is
n / 2^k. The digits of the logarithm decide it first wherever they can. -/
def cmpLog2 (m : Nat) (e : Int) (a : Dy) : Ordering :=
  let k := (-a.e).toNat
  let n : Int := a.m * (2 : Int) ^ a.e.toNat
  let l := Nat.log2 m
  if m = 2 ^ l then compare (((l : Int) + e) * (2 : Int) ^ k) n
  else
    let i : Int := n / (2 : Int) ^ k
    let f := (n % (2 : Int) ^ k).toNat
    let il := (l : Int) + e
    if il < i then .lt
    else if i < il then .gt
    else
      let y (p : Nat) : Nat := m * 2 ^ p / 2 ^ l
      match log2Digits 128 k f (y 128) (y 128 + 1) with
      | some o => o
      | none =>
        match log2Digits 512 k f (y 512) (y 512 + 1) with
        | some o => o
        | none => compare (m ^ 2 ^ k) (2 ^ (l * 2 ^ k + f))

/-- An exact real value. -/
inductive Rl where
  /-- n / d * 2^e, with d positive -/
  | quo (n : Int) (d : Nat) (e : Int)
  /-- the square root of m * 2^e, negated if neg -/
  | root (neg : Bool) (m : Nat) (e : Int)
  /-- 1 / sqrt (m * 2^e), with m positive -/
  | rroot (m : Nat) (e : Int)
  /-- 2^a -/
  | exp2 (a : Dy)
  /-- log2 (m * 2^e), with m positive -/
  | log2 (m : Nat) (e : Int)
deriving DecidableEq, Repr

namespace Rl

def ofDy (x : Dy) : Rl := .quo x.m 1 x.e

/-- The comparison of an exact value with a dyadic number. -/
def cmpDy (r : Rl) (v : Dy) : Ordering :=
  match r with
  | .quo n d e => cmpQuo n d e v.m 1 v.e
  | .root neg m e =>
    if neg then
      if m = 0 then Dy.cmp Dy.zero v
      else if v.m < 0 then Dy.cmp (Dy.mul v v) ⟨m, e⟩ else .lt
    else
      if v.m < 0 then .gt else Dy.cmp ⟨m, e⟩ (Dy.mul v v)
  | .rroot m e => if v.m ≤ 0 then .gt else Dy.cmp (Dy.ofInt 1) (Dy.mul ⟨m, e⟩ (Dy.mul v v))
  | .exp2 a => if v.m ≤ 0 then .gt else (cmpLog2 v.m.toNat v.e a).swap
  | .log2 m e => cmpLog2 m e v

/-- The sign of a value: -1, 0 or 1. -/
def sgn (r : Rl) : Int :=
  match cmpDy r Dy.zero with
  | .lt => -1
  | .eq => 0
  | .gt => 1

def neg : Rl → Rl
  | .quo n d e => .quo (-n) d e
  | .root s m e => .root (!s) m e
  | r => r

/-- The comparison of two values where at least one is a quotient by 1, both are quotients, or both are roots; these
are the pairs that the interval rules compare. -/
def cmp (x y : Rl) : Ordering :=
  match x, y with
  | .quo n1 d1 e1, .quo n2 d2 e2 => cmpQuo n1 d1 e1 n2 d2 e2
  | .root s1 m1 e1, .root s2 m2 e2 =>
    let z1 : Dy := ⟨if s1 then -(m1 : Int) else m1, e1⟩
    let z2 : Dy := ⟨if s2 then -(m2 : Int) else m2, e2⟩
    Dy.cmp z1 z2
  | _, .quo n 1 e => cmpDy x ⟨n, e⟩
  | .quo n 1 e, _ => (cmpDy y ⟨n, e⟩).swap
  | _, _ => .eq

end Rl

/-- A value or an infinity. -/
inductive ERl where
  | ninf
  | fin (r : Rl)
  | pinf
deriving DecidableEq, Repr

namespace ERl

def ofDy (x : Dy) : ERl := .fin (Rl.ofDy x)

def zero : ERl := ofDy Dy.zero

def cmp : ERl → ERl → Ordering
  | .ninf, .ninf => .eq
  | .ninf, _ => .lt
  | _, .ninf => .gt
  | .pinf, .pinf => .eq
  | .pinf, _ => .gt
  | _, .pinf => .lt
  | .fin x, .fin y => Rl.cmp x y

def le (x y : ERl) : Bool := cmp x y != .gt

def lt (x y : ERl) : Bool := cmp x y == .lt

def max (x y : ERl) : ERl := if lt x y then y else x

def min (x y : ERl) : ERl := if lt y x then y else x

def neg : ERl → ERl
  | .ninf => .pinf
  | .fin r => .fin r.neg
  | .pinf => .ninf

def sgn : ERl → Int
  | .ninf => -1
  | .fin r => r.sgn
  | .pinf => 1

end ERl

end Sys2Proof
end

