-- ==== Sys2Proof/Machine/Numeric.lean ====
section
/-!
DEFINITION. Number formats and rounding (10_numbers R167-R174, R180): f32 and bf16 as bit patterns, the exact value of
a pattern, and the one rounding of an exact value to a format by a mode.
-/

namespace Sys2Proof

/-- The rounding modes of R170. -/
inductive Mode where
  | rne | rtz | rdn | rup | rna
deriving DecidableEq, Repr

/-- A floating-point format with an 8-bit exponent of bias 127 (R167); fb is its number of fraction bits. -/
structure Fmt where
  fb : Nat
deriving DecidableEq, Repr

namespace Fmt

def f32 : Fmt := ⟨23⟩
def bf16 : Fmt := ⟨7⟩

/-- The pattern of +infinity. -/
def inf (f : Fmt) : Nat := 255 * 2 ^ f.fb
/-- The sign bit. -/
def sign (f : Fmt) : Nat := 256 * 2 ^ f.fb
/-- The canonical quiet NaN (R168). -/
def nan (f : Fmt) : Nat := 255 * 2 ^ f.fb + 2 ^ (f.fb - 1)
/-- The pattern of the largest finite value. -/
def maxFin (f : Fmt) : Nat := f.inf - 1
/-- The pattern of 1. -/
def one (f : Fmt) : Nat := 127 * 2 ^ f.fb
/-- Bytes of an element. -/
def bytes (f : Fmt) : Nat := (f.fb + 9) / 8

end Fmt

/-- What a pattern denotes. -/
inductive FVal where
  | nan
  | inf (neg : Bool)
  | fin (neg : Bool) (x : Dy)
deriving DecidableEq, Repr

namespace Fmt

def isNaN (f : Fmt) (b : Nat) : Bool := decide (f.inf < b % f.sign)
def isNeg (f : Fmt) (b : Nat) : Bool := b / f.sign % 2 == 1
def isInf (f : Fmt) (b : Nat) : Bool := b % f.sign == f.inf
def isZero (f : Fmt) (b : Nat) : Bool := b % f.sign == 0
def isSub (f : Fmt) (b : Nat) : Bool := decide (0 < b % f.sign) && decide (b % f.sign < 2 ^ f.fb)

/-- The exact magnitude of a finite pattern without sign; patterns from that of infinity on continue the scale, so
that the pattern of infinity has the magnitude 2^128. -/
def magVal (f : Fmt) (b : Nat) : Dy :=
  let x := b / 2 ^ f.fb
  if x = 0 then ⟨b, -126 - f.fb⟩ else ⟨2 ^ f.fb + b % 2 ^ f.fb, (x : Int) - 127 - f.fb⟩

/-- The value of a pattern. -/
def val (f : Fmt) (b : Nat) : FVal :=
  if f.isNaN b then .nan
  else if f.isInf b then .inf (f.isNeg b)
  else
    let v := f.magVal (b % f.sign)
    .fin (f.isNeg b) (if f.isNeg b then v.neg else v)

/-- The pattern with a sign put on. -/
def withSign (f : Fmt) (neg : Bool) (b : Nat) : Nat := if neg then f.sign + b else b

/-- The pattern with its sign inverted. -/
def flip (f : Fmt) (b : Nat) : Nat := f.withSign (!f.isNeg b) (b % f.sign)

/-- A subnormal pattern flushed to a zero of its sign (R171). -/
def flush (f : Fmt) (b : Nat) : Nat := if f.isSub b then f.withSign (f.isNeg b) 0 else b

end Fmt

/-- Where an exact positive magnitude lies among the patterns of a format: the largest pattern not above it, whether
it is that pattern's value, and on which side of the midpoint to the next pattern it lies. -/
structure Place where
  b : Nat
  exact : Bool
  half : Ordering
deriving DecidableEq, Repr

/-- The place of n / d * 2^e, for positive n and d. -/
def placeQuo (f : Fmt) (n d : Nat) (e : Int) : Place :=
  let k : Int := (Nat.log2 n : Int) - Nat.log2 d
  let ge : Bool := if 0 ≤ k then decide (d * 2 ^ k.toNat ≤ n) else decide (d ≤ n * 2 ^ (-k).toNat)
  let x := (if ge then k else k - 1) + e
  let q := max (x - f.fb) (-126 - f.fb)
  let num := n * 2 ^ (e - q).toNat
  let den := d * 2 ^ (q - e).toNat
  let r := num % den
  ⟨(q + 126 + f.fb).toNat * 2 ^ f.fb + num / den, r == 0, compare (2 * r) den⟩

/-- The largest pattern from lo, in n halving steps, whose value is not above the one that cmp compares. -/
def searchPlace (f : Fmt) (cmp : Dy → Ordering) : Nat → Nat → Nat
  | 0, lo => lo
  | n + 1, lo =>
    let mid := lo + 2 ^ n
    if mid ≤ f.inf && cmp (f.magVal mid) != .lt then searchPlace f cmp n mid else searchPlace f cmp n lo

/-- The place of a positive value known by its comparisons with dyadic numbers. -/
def placeCmp (f : Fmt) (cmp : Dy → Ordering) : Place :=
  let b := searchPlace f cmp (f.fb + 8) 0
  let v := f.magVal b
  let mid := Dy.scale (Dy.add v (f.magVal (b + 1))) (-1)
  ⟨b, cmp v == .eq, cmp mid⟩

/-- Whether a magnitude of this place rounds up to the next pattern. -/
def roundsUp (p : Place) (neg : Bool) (m : Mode) : Bool :=
  if p.exact then false
  else match m with
    | .rne => p.half == .gt || (p.half == .eq && p.b % 2 == 1)
    | .rna => p.half != .lt
    | .rtz => false
    | .rdn => neg
    | .rup => !neg

/-- A rounded pattern and whether the value overflowed: rounded beyond the largest finite magnitude (R170, R193). -/
def roundPlace (f : Fmt) (m : Mode) (neg : Bool) (p : Place) : Nat × Bool :=
  let b := if roundsUp p neg m then p.b + 1 else p.b
  if b < f.inf then (f.withSign neg b, false)
  else
    let toInf := match m with
      | .rne | .rna => true
      | .rtz => false
      | .rdn => neg
      | .rup => !neg
    (f.withSign neg (if toInf then f.inf else f.maxFin), true)

/-- round(x, f, m) of R170 for an exact value; z is the sign of an exact zero. -/
def roundRl (f : Fmt) (m : Mode) (z : Bool) (r : Rl) : Nat × Bool :=
  match r with
  | .quo n d e =>
    if n = 0 then (f.withSign z 0, false)
    else roundPlace f m (decide (n < 0)) (placeQuo f n.natAbs d e)
  | _ =>
    match r.sgn with
    | 0 => (f.withSign z 0, false)
    | s =>
      if s < 0 then roundPlace f m true (placeCmp f fun v => (r.cmpDy v.neg).swap)
      else roundPlace f m false (placeCmp f r.cmpDy)

/-- round of a dyadic number. -/
def roundDy (f : Fmt) (m : Mode) (z : Bool) (x : Dy) : Nat × Bool := roundRl f m z (Rl.ofDy x)

/-- An integer from an exact dyadic value by a mode. -/
def roundInt (m : Mode) (x : Dy) : Int :=
  let n : Nat := (x.m.natAbs) * 2 ^ x.e.toNat
  let d : Nat := 2 ^ (-x.e).toNat
  let neg := decide (x.m < 0)
  let q := n / d
  let r := n % d
  let p : Place := ⟨q, r == 0, compare (2 * r) d⟩
  let a : Int := if roundsUp p neg m then q + 1 else q
  if neg then -a else a

/-- The clamp of an integer to lo..hi. -/
def clampInt (lo hi x : Int) : Int := if x < lo then lo else if hi < x then hi else x

/-- A floating-point result: the pattern, whether it is an overflow, and whether it is a NaN made from operands none
of which is one (R193). -/
structure FRes where
  b : Nat
  of : Bool
  nv : Bool
deriving DecidableEq, Repr

namespace FRes

def ofPair (p : Nat × Bool) : FRes := ⟨p.1, p.2, false⟩
def exact (b : Nat) : FRes := ⟨b, false, false⟩
/-- A NaN result of an invalid operation. -/
def invalid (f : Fmt) : FRes := ⟨f.nan, false, true⟩
/-- A NaN result of a NaN operand, under COMPAT 0 (R168). -/
def ofNaN (f : Fmt) : FRes := ⟨f.nan, false, false⟩

end FRes

/-- The sign of an exact zero sum of operands of opposite sign (R169). -/
def zeroSum (m : Mode) : Bool := m == .rdn

/-- a + b rounded once. -/
def fAdd (f : Fmt) (m : Mode) (a b : Nat) : FRes :=
  match f.val a, f.val b with
  | .nan, _ => .ofNaN f
  | _, .nan => .ofNaN f
  | .inf s, .inf t => if s = t then .exact (f.withSign s f.inf) else .invalid f
  | .inf s, .fin _ _ => .exact (f.withSign s f.inf)
  | .fin _ _, .inf t => .exact (f.withSign t f.inf)
  | .fin s x, .fin t y =>
    let z := if s = t then s else zeroSum m
    .ofPair (roundDy f m z (Dy.add x y))

/-- a - b rounded once. -/
def fSub (f : Fmt) (m : Mode) (a b : Nat) : FRes := if f.isNaN b then .ofNaN f else fAdd f m a (f.flip b)

/-- a * b rounded once. -/
def fMul (f : Fmt) (m : Mode) (a b : Nat) : FRes :=
  match f.val a, f.val b with
  | .nan, _ => .ofNaN f
  | _, .nan => .ofNaN f
  | .inf s, .inf t => .exact (f.withSign (s != t) f.inf)
  | .inf s, .fin t y => if y.m = 0 then .invalid f else .exact (f.withSign (s != t) f.inf)
  | .fin s x, .inf t => if x.m = 0 then .invalid f else .exact (f.withSign (s != t) f.inf)
  | .fin s x, .fin t y => .ofPair (roundDy f m (s != t) (Dy.mul x y))

/-- a * b + c rounded once; the products of patterns of f, c a pattern of f. -/
def fFma (f : Fmt) (m : Mode) (a b c : Nat) : FRes :=
  match f.val a, f.val b, f.val c with
  | .nan, _, _ => .ofNaN f
  | _, .nan, _ => .ofNaN f
  | .inf s, .inf t, w =>
    match w with
    | .nan => .ofNaN f
    | .inf u => if u = (s != t) then .exact (f.withSign u f.inf) else .invalid f
    | .fin _ _ => .exact (f.withSign (s != t) f.inf)
  | .inf s, .fin t y, w =>
    match w with
    | .nan => .ofNaN f
    | .inf u => if y.m = 0 then .invalid f else if u = (s != t) then .exact (f.withSign u f.inf) else .invalid f
    | .fin _ _ => if y.m = 0 then .invalid f else .exact (f.withSign (s != t) f.inf)
  | .fin s x, .inf t, w =>
    match w with
    | .nan => .ofNaN f
    | .inf u => if x.m = 0 then .invalid f else if u = (s != t) then .exact (f.withSign u f.inf) else .invalid f
    | .fin _ _ => if x.m = 0 then .invalid f else .exact (f.withSign (s != t) f.inf)
  | .fin _ _, .fin _ _, .nan => .ofNaN f
  | .fin _ _, .fin _ _, .inf u => .exact (f.withSign u f.inf)
  | .fin s x, .fin t y, .fin u z =>
    let z0 := if (s != t) = u then u else zeroSum m
    .ofPair (roundDy f m z0 (Dy.add (Dy.mul x y) z))

/-- a / b rounded once (R195). -/
def fDiv (f : Fmt) (m : Mode) (a b : Nat) : FRes :=
  match f.val a, f.val b with
  | .nan, _ => .ofNaN f
  | _, .nan => .ofNaN f
  | .inf _, .inf _ => .invalid f
  | .inf s, .fin t _ => .exact (f.withSign (s != t) f.inf)
  | .fin s _, .inf t => .exact (f.withSign (s != t) 0)
  | .fin s x, .fin t y =>
    if y.m = 0 then
      if x.m = 0 then .invalid f else .exact (f.withSign (s != t) f.inf)
    else
      let n : Int := if decide (y.m < 0) then -x.m else x.m
      .ofPair (roundRl f m (s != t) (.quo n y.m.natAbs (x.e - y.e)))

/-- 1 / a (R194, R195). -/
def fRcp (f : Fmt) (m : Mode) (a : Nat) : FRes := fDiv f m f.one a

/-- The square root (R195). -/
def fSqrt (f : Fmt) (m : Mode) (a : Nat) : FRes :=
  match f.val a with
  | .nan => .ofNaN f
  | .inf s => if s then .invalid f else .exact f.inf
  | .fin s x =>
    if x.m = 0 then .exact (f.withSign s 0)
    else if s then .invalid f
    else .ofPair (roundRl f m false (.root false x.m.natAbs x.e))

/-- 1 / square root (R195). -/
def fRsq (f : Fmt) (m : Mode) (a : Nat) : FRes :=
  match f.val a with
  | .nan => .ofNaN f
  | .inf s => if s then .invalid f else .exact 0
  | .fin s x =>
    if x.m = 0 then .exact (f.withSign s f.inf)
    else if s then .invalid f
    else .ofPair (roundRl f m false (.rroot x.m.natAbs x.e))

/-- 2^a (R195). An exponent of magnitude above 2^20 decides by its sign alone. -/
def fExp2 (f : Fmt) (m : Mode) (a : Nat) : FRes :=
  match f.val a with
  | .nan => .ofNaN f
  | .inf s => if s then .exact 0 else .exact f.inf
  | .fin s x =>
    if Dy.lt ⟨1, 20⟩ x.abs then
      .ofPair (roundPlace f m false (if s then ⟨0, false, .lt⟩ else ⟨f.inf, false, .lt⟩))
    else .ofPair (roundRl f m false (.exp2 x))

/-- log2 a (R195). -/
def fLog2 (f : Fmt) (m : Mode) (a : Nat) : FRes :=
  match f.val a with
  | .nan => .ofNaN f
  | .inf s => if s then .invalid f else .exact f.inf
  | .fin s x =>
    if x.m = 0 then .exact (f.withSign true f.inf)
    else if s then .invalid f
    else .ofPair (roundRl f m false (.log2 x.m.natAbs x.e))

/-- a is below b as values, with -0 below +0; neither is a NaN. -/
def fBelow (f : Fmt) (a b : Nat) : Bool :=
  let key (x : Nat) : Int := if f.isNeg x then -1 - (x % f.sign : Nat) else (x % f.sign : Nat)
  decide (key a < key b)

/-- The smaller (R194). -/
def fMin (f : Fmt) (a b : Nat) : FRes :=
  if f.isNaN a || f.isNaN b then .ofNaN f else .exact (if fBelow f b a then b else a)

/-- The larger (R194). -/
def fMax (f : Fmt) (a b : Nat) : FRes :=
  if f.isNaN a || f.isNaN b then .ofNaN f else .exact (if fBelow f a b then b else a)

/-- bf16 widened exactly to f32 (R167), its NaN made canonical (R174). -/
def widen (b : Nat) : Nat := if Fmt.bf16.isNaN b then Fmt.f32.nan else b % 2 ^ 16 * 2 ^ 16

/-- f32 rounded to bf16 (R174). -/
def narrow (m : Mode) (b : Nat) : FRes :=
  match Fmt.f32.val b with
  | .nan => .ofNaN .bf16
  | .inf s => .exact (Fmt.bf16.withSign s Fmt.bf16.inf)
  | .fin s x => .ofPair (roundDy .bf16 m s x)

/-- A pattern of format f as f32. -/
def toF32 (f : Fmt) (b : Nat) : Nat := if f = .bf16 then widen b else b

/-- An f32 pattern brought to format f. -/
def ofF32 (f : Fmt) (m : Mode) (b : Nat) : FRes := if f = .bf16 then narrow m b else .exact (if Fmt.f32.isNaN b then Fmt.f32.nan else b)

/-- tree(lo, lo + n) of R97 with addition op, over the sources x; fuel bounds the depth. -/
def treeSum {α : Type} (op : α → α → α) (x : Nat → α) : Nat → Nat → Nat → α
  | 0, lo, _ => x lo
  | k + 1, lo, n =>
    if n ≤ 1 then x lo
    else
      let h := (n + 1) / 2
      op (treeSum op x k lo h) (treeSum op x k (lo + h) (n - h))

/-- f32 addition by round to nearest even. -/
def addRne (a b : Nat) : Nat := (fAdd .f32 .rne a b).b

end Sys2Proof
end

