-- ==== Sys2Proof/Machine/Sparse.lean ====
section
/-!
DEFINITION. Storage of the machine: a map from numbers to values, held as a list of pairs in ONE canonical form (keys
strictly rising, no entry equal to the value an unlisted key reads as). Memories are such maps from addresses to bytes
whose unlisted bytes read 0; register files are such maps from register numbers to words.
-/

namespace Sys2Proof

/-- A sparse map: pairs of key and value. -/
abbrev Sparse (α : Type) := List (Nat × α)

namespace Sparse

/-- The value at key k; d is what an unlisted key reads as. -/
def rd {α : Type} (d : α) : Sparse α → Nat → α
  | [], _ => d
  | (k', v) :: r, k => if k' = k then v else rd d r k

/-- The map without key k. -/
def del {α : Type} : Sparse α → Nat → Sparse α
  | [], _ => []
  | (k', v) :: r, k => if k' = k then del r k else (k', v) :: del r k

/-- The map with (k, v) put before the first larger key. -/
def ins {α : Type} : Sparse α → Nat → α → Sparse α
  | [], k, v => [(k, v)]
  | (k', v') :: r, k, v => if k < k' then (k, v) :: (k', v') :: r else (k', v') :: ins r k v

/-- The map with key k set to v. Setting the unlisted value removes the entry. -/
def wr {α : Type} [DecidableEq α] (d : α) (m : Sparse α) (k : Nat) (v : α) : Sparse α :=
  if v = d then del m k else ins (del m k) k v

/-- Every key of the map is at least n, keys rise, and no entry holds the unlisted value. -/
def okFrom {α : Type} [DecidableEq α] (d : α) : Nat → Sparse α → Bool
  | _, [] => true
  | n, (k, v) :: r => decide (n ≤ k) && decide (v ≠ d) && okFrom d (k + 1) r

/-- The canonical form. -/
def wf {α : Type} [DecidableEq α] (d : α) (m : Sparse α) : Bool := okFrom d 0 m

/-- The map that f gives on the n keys from k. -/
def ofFnFrom {α : Type} [DecidableEq α] (d : α) (f : Nat → α) : Nat → Nat → Sparse α
  | _, 0 => []
  | k, n + 1 => if f k = d then ofFnFrom d f (k + 1) n else (k, f k) :: ofFnFrom d f (k + 1) n

/-- The map that f gives on keys 0 to n - 1. -/
def ofFn {α : Type} [DecidableEq α] (d : α) (n : Nat) (f : Nat → α) : Sparse α := ofFnFrom d f 0 n

/-- The map from the first key that is at least n on (the map is sorted). -/
def dropTo {α : Type} (n : Nat) : Sparse α → Sparse α
  | [] => []
  | (k, v) :: r => if k < n then dropTo n r else (k, v) :: r

/-- The entries with keys below n (the map is sorted). -/
def takeTo {α : Type} (n : Nat) : Sparse α → Sparse α
  | [] => []
  | (k, v) :: r => if k < n then (k, v) :: takeTo n r else []

/-- The n keys from a, renumbered from 0. -/
def window {α : Type} (m : Sparse α) (a n : Nat) : Sparse α :=
  (takeTo (a + n) (dropTo a m)).map fun e => (e.1 - a, e.2)

/-- The map whose n keys from a are those of w from 0, every other key as in m. -/
def paste {α : Type} (m : Sparse α) (a n : Nat) (w : Sparse α) : Sparse α :=
  takeTo a m ++ (takeTo n w).map (fun e => (e.1 + a, e.2)) ++ dropTo (a + n) m

end Sparse

/-- A byte-addressed memory whose unlisted bytes read 0. -/
abbrev Mem := List Host.Cell

namespace Mem

/-- One byte. -/
def get (m : Mem) (a : Nat) : Byte := Sparse.rd 0#8 m a

/-- The memory with one byte written. -/
def set (m : Mem) (a : Nat) (b : Byte) : Mem := Sparse.wr 0#8 m a b

/-- n bytes from a, little-endian, as a number (R4). -/
def rdN (m : Mem) (a : Nat) : Nat → Nat
  | 0 => 0
  | n + 1 => (get m a).toNat + 256 * rdN m (a + 1) n

/-- n bytes written at a, little-endian, from a number. -/
def wrN (m : Mem) (a : Nat) : Nat → Nat → Mem
  | 0, _ => m
  | n + 1, v => wrN (set m a (BitVec.ofNat 8 v)) (a + 1) n (v / 256)

/-- The bytes of a list written from a upward. -/
def wrList (m : Mem) (a : Nat) : List Byte → Mem
  | [] => m
  | b :: r => wrList (set m a b) (a + 1) r

/-- The memory that holds the bytes of a list from a upward and nothing else. -/
def ofBytes : Nat → List Byte → Mem
  | _, [] => []
  | a, b :: r => if b = 0#8 then ofBytes (a + 1) r else (a, b) :: ofBytes (a + 1) r

/-- n bytes from a as a list. -/
def rdList (m : Mem) (a : Nat) : Nat → List Byte
  | 0 => []
  | n + 1 => get m a :: rdList m (a + 1) n

/-- The n bytes of b from sb copied to a, lowest first. -/
def copy (m : Mem) (a : Nat) (b : Mem) (sb : Nat) : Nat → Mem
  | 0 => m
  | n + 1 => copy (set m a (get b sb)) (a + 1) b (sb + 1) n

/-- The memory of n elements of w bytes that f gives. -/
def ofElems (w n : Nat) (f : Nat → Nat) : Mem :=
  Sparse.ofFn 0#8 (n * w) fun i => BitVec.ofNat 8 (f (i / w) / 256 ^ (i % w))

/-- The words of a list written 8 bytes each from o. -/
def putWords (m : Mem) (o : Nat) : List Nat → Mem
  | [] => m
  | x :: r => putWords (wrN m o 8 x) (o + 8) r

/-- n words of 8 bytes from o. -/
def getWords (m : Mem) (o : Nat) : Nat → List Nat
  | 0 => []
  | n + 1 => rdN m o 8 :: getWords m (o + 8) n

/-- The first n bytes of b placed at o. -/
def putMem (m : Mem) (o n : Nat) (b : Mem) : Mem := Sparse.paste m o n b

/-- Element e of w bytes. -/
def elem (m : Mem) (w e : Nat) : Nat := rdN m (e * w) w

/-- The canonical form. -/
def wf (m : Mem) : Bool := Sparse.wf 0#8 m

/-- The same bytes in canonical form. -/
def canon (m : Mem) : Mem := m.foldr (fun c r => set r c.1 c.2) []

/-- The first n bytes of any b placed at o. -/
def bulk (m : Mem) (o n : Nat) (b : Mem) : Mem := putMem m o n b.canon

end Mem

end Sys2Proof
end

