-- ==== Sys2Proof/Machine/State.lean ====
section
/-!
DEFINITION. The state of the machine, all of it plain data, and its value after power-up (21_host R367). INVENTORY.md names
the rule of each field. Times on a die are counted in half ticks, because a strip of a drd can land half a tick after another (06 R109).
-/

namespace Sys2Proof.Machine

/-- Why the machine stops. -/
inductive Fault where
  /-- A host access through PF BAR2 names a physical address that nothing gives (R54, R364). Raised by the host access
  meanings; safe: the manual says no such address exists. -/
  | noSuchAddress (pa : Nat)
deriving DecidableEq, Repr

/-- Why an instruction has no meaning. -/
inductive Refusal where
  /-- The instruction of that mnemonic is not modelled. Raised by Dispatch alone; safe: nothing is claimed of it. -/
  | notModelled (mnemonic : String)
deriving DecidableEq, Repr

/-- A point of the beat grid: a beat and an offset in ticks (R67). -/
structure Point where
  beat : Nat := 0
  off : Nat := 0
deriving DecidableEq, Repr, Inhabited

/-- The instruction that an engine is executing: whose it is, its chain, the address of its first halfword and its length
in halfwords. -/
structure Cur where
  core : Nat := 0
  bank : Nat := 0
  eng : Eng := .s
  ch : Chain := {}
  pc : Nat := 0
  size : Nat := 0
deriving DecidableEq, Repr, Inhabited

/-- Where an engine stands in its walk (R28). -/
inductive Phase where
  /-- no task, or the end record taken -/
  | idle
  /-- before a block header -/
  | header
  /-- its block has repeat 0 and its count has not been popped (R29) -/
  | count
  /-- in a block body -/
  | body
  /-- at the end of an S block: C, V, M and A wait for its record, S has a record to emit (R32, R33) -/
  | path
deriving DecidableEq, Repr, Inhabited

/-- What an engine waits on inside an instruction. -/
inductive Wait where
  | none
  /-- the tokens whose values it has read (R37) -/
  | tokens
  /-- a beat, by its absolute number (R37, R68) -/
  | beat (target : Nat)
  /-- the data of a load (R268) -/
  | load
  /-- a marker fence, at the block serial where it stands (R275) -/
  | fence (scope mask : Nat)
  /-- a barrier, and whether the task has arrived at it (R283) -/
  | gbar (scope : Nat) (arrived : Bool)
  /-- node time (R151) -/
  | waitt (t : Word)
  /-- a take of C, while hq is empty (R136) -/
  | hq
  /-- a walk of the page table, or room or contents of a queue: the engine tries again when it next runs -/
  | retry
deriving DecidableEq, Repr, Inhabited

/-- One engine of a task. -/
structure EngSt where
  phase : Phase := .idle
  pc : Nat := 0
  wait : Wait := .none
  /-- the running block: address of its body, halfwords, passes remaining, first pass, interlocked -/
  body : Nat := 0
  len : Nat := 0
  passes : Nat := 0
  first : Bool := false
  inter : Bool := false
  /-- the loop buffer, by halfword of the body (R28) -/
  loop : Sparse Nat := []
  serial : Nat := 0
  taken : Nat := 0
  /-- token-producing instructions issued, and those of them that are incomplete (R165) -/
  count : Nat := 0
  opn : List Nat := []
  cursor : Nat := 0
  /-- token register values that the chain at the issue stage has read (R37) -/
  latched : Option (List Word) := none
  /-- a stop request has reached the engine (R340) -/
  stopped : Bool := false
  /-- length in halfwords of the instruction that it waits in -/
  size : Nat := 0
  /-- the 32-byte unit of text that it read last, by its number in virtual addresses (R277) -/
  text : Option (Nat × List Byte) := none
deriving DecidableEq, Repr, Inhabited

/-- A path record (R32): kind 0 fall-through, 1 taken, 2 end; target address; block serial of the S block it leaves. -/
structure PathRec where
  kind : Nat := 0
  target : Nat := 0
  serial : Nat := 0
deriving DecidableEq, Repr, Inhabited

/-- What a later take of the record of an S block shows to an engine: a value that smark wrote into a token register, a value
that hand sent to A, or a tlbi marker for C (R247, R259, R278). -/
inductive Shown where
  | tok (n : Nat) (v : Word)
  | areg (n : Nat) (v : Word)
  | tlbi (va : Nat) (all : Bool)
deriving DecidableEq, Repr, Inhabited

/-- A value that engine eng sees when it takes the record of the S block with that serial. -/
structure Late where
  eng : Eng := .s
  serial : Nat := 0
  what : Shown := .tok 0 0
deriving DecidableEq, Repr, Inhabited

/-- A leaf of a page table as a translation cache or the pinned window table holds it (R326, R331). -/
structure Leaf where
  va : Nat := 0
  big : Bool := false
  pa : Nat := 0
  r : Bool := false
  w : Bool := false
  x : Bool := false
  cc : Bool := false
  pin : Bool := false
  node : Nat := 0
deriving DecidableEq, Repr, Inhabited

/-- A walk of the page table under way: for S data (unit 0), the C stream (1) or the fetch of engine t (2 + t); ahead marks a
fetch ahead, whose failure raises nothing (R126); cmd is the command of C that needs it. -/
structure Walk where
  unit : Nat := 0
  va : Nat := 0
  ahead : Bool := false
  cmd : Nat := 0
deriving DecidableEq, Repr, Inhabited

/-- The translation caches of a task, most recently used first, its pinned window table and its walks (R328, R329, R331). -/
structure Tlbs where
  cond : List Leaf := []
  strm : List Leaf := []
  pins : List Leaf := []
  walks : List Walk := []
deriving DecidableEq, Repr, Inhabited

/-- The load that S has under way (R267-R269): destination, size, sign extension, acquire scope, address, piece. keep: its bytes are
kept for the instruction that waits, which has no destination for them (R272, R284, R285). -/
structure SLoad where
  d : Nat := 0
  size : Nat := 0
  sgn : Bool := false
  acq : Option Nat := none
  va : Nat := 0
  pa : Nat := 0
  piece : Nat := 0
  keep : Bool := false
deriving DecidableEq, Repr, Inhabited

/-- A store of S that has not performed (R292). -/
structure SStore where
  pa : Nat := 0
  size : Nat := 0
  val : Nat := 0
  piece : Nat := 0
deriving DecidableEq, Repr, Inhabited

/-- S's memory side: the load under way, unperformed stores oldest first, the present lines of the data cache by physical
line number (R268), the seq of smark tokens with the count of stores they wait for, and the arrivals at barriers (R283). -/
structure SUnit where
  load : Option SLoad := none
  stores : List SStore := []
  cache : Sparse (Option Mem) := []
  marks : List (Nat × Nat) := []
  arrivals : Nat := 0
  /-- the successor descriptor that exit read (R316) -/
  succ : Option (List Nat) := none
  /-- the bytes that the instruction at the issue stage has read, with their address -/
  got : Option (Nat × List Byte) := none
  ended : Bool := false
deriving DecidableEq, Repr, Inhabited

/-- Where a result of V lands. -/
inductive VDst where
  | entry (n : Nat)
  | outq (n : Nat)
  | opq (n : Nat)
  | jreg (n : Nat)
  | mask (n : Nat)
  | sreg (n : Nat)
  /-- a vmark token (R207) -/
  | mark (seq : Nat)
deriving DecidableEq, Repr, Inhabited

/-- A result in flight (R190): its landing cycle, destination, bytes, the elements it writes (bit e for element e) and their
size, the status bits and event record it brings, and the walk position of a vtos. -/
structure Flight where
  due : Nat := 0
  dst : VDst := .entry 0
  data : Mem := []
  els : Nat := 0
  esz : Nat := 0
  vst : Nat := 0
  jst : Nat := 0
  ev : Option Nat := none
  serial : Nat := 0
deriving DecidableEq, Repr, Inhabited

/-- V: its cycle count, the results in flight in issue order, the shadows of a cut with the element size of each (R342); and since its
last cycle, S's registers as they stood then and the entries that cfq has pushed into each operand queue (R160, R206). -/
structure VUnit where
  cyc : Nat := 0
  sregs : Sparse Word := []
  pushed : Sparse Nat := []
  flights : List Flight := []
  shadows : List (Flight × Mem) := []
deriving DecidableEq, Repr, Inhabited

/-- An address command of C in flight (R123-R131). -/
structure CCmd where
  /-- number of the command in C's stream -/
  id : Nat := 0
  seq : Nat := 0
  pc : Nat := 0
  store : Bool := false
  pinned : Bool := false
  elem : Bool := false
  va : Nat := 0
  len : Nat := 0
  spad : Nat := 0
  /-- the index list of cgat and csct, and the element size -/
  idx : List Nat := []
  esz : Nat := 0
  buf : Nat := 0
  /-- byte offset of the next piece, and the pieces sent and not returned -/
  next : Nat := 0
  out : Nat := 0
  /-- clock of its die when its last piece left -/
  sent2 : Nat := 0
  failed : Bool := false
deriving DecidableEq, Repr, Inhabited

/-- A scratchpad command of C under way (R124, R130, R132, R133): kind 0 ccpy, 1 cfq, 2 cdq, 3 cvf, 4 cfv, 5 ccv, 6 cpl; its
operands, the pattern of a cfq, the entries done, C's position as a cut record gives it, and whether its queue trapped it; the
core of a ccpy's ranges. -/
structure SpadCmd where
  kind : Nat := 0
  dcore : Nat := 0
  score : Nat := 0
  seq : Nat := 0
  dst : Nat := 0
  src : Nat := 0
  n : Nat := 0
  q : Nat := 0
  pat : Nat := 0
  done : Nat := 0
  pos : List Nat := []
  failed : Bool := false
deriving DecidableEq, Repr, Inhabited

/-- C: the anchor of command placement (none after cbeat or bw), the number of its next command, its commands under way. -/
structure CUnit where
  anchor : Option Nat := none
  nextId : Nat := 0
  cmds : List CCmd := []
  spc : Option SpadCmd := none
  /-- an rdc that waits for room in the reduction engine, as parsed words -/
  rdc : Option (List Nat) := none
  /-- C's position at that rdc, for the cut record (R341) -/
  rdcAt : List Nat := []
  /-- tlbi markers that C has met and that wait for the commands before them to translate their pages (R307): address, or all -/
  marks : List (Nat × Bool) := []
deriving DecidableEq, Repr, Inhabited

/-- The A instruction under way: op 0 add, 1 addq, 2 min, 3 max, 4 or, 5 and, 6 xch, 7 cnt, 9 rd; its type, operands and scale as
read at its start, its count, rounding mode code, sat, next window, seq. -/
structure AIns where
  op : Nat := 0
  ty : Nat := 0
  base : Nat := 0
  idx : Nat := 0
  n : Nat := 0
  val : Nat := 0
  scale : Int := 0
  rnd : Nat := 0
  sat : Bool := false
  win : Nat := 0
  seq : Nat := 0
  pc : Nat := 0
deriving DecidableEq, Repr, Inhabited

/-- A read-modify-write that A has sent (R250): its instruction, the target core and 32-byte unit, and the updates in it: scratchpad
offset, index into the value list, value, status bits that its value brings. -/
structure Rmw where
  ins : AIns := {}
  core : Nat := 0
  unit : Nat := 0
  ups : List (Nat × Nat × Int × Nat) := []
deriving DecidableEq, Repr, Inhabited

/-- A: the instruction under way, the read-modify-writes that it has sent, and the window with which a record has the next
instruction begin (R344). -/
structure AUnit where
  ins : Option AIns := none
  rmws : List Rmw := []
  from_ : Option Nat := none
deriving DecidableEq, Repr, Inhabited

/-- The control and status registers of a task that are not views of other state (R287). -/
structure Csrs where
  win : Nat := 16
  vst : Nat := 0
  jst : Nat := 0
  npth : Nat := 0
  asts : Nat := 0
  bufsel : Nat := 0
  compat : Nat := 0
  mdepth : Nat := 0
  tbb : Nat := 0
deriving DecidableEq, Repr, Inhabited

/-- The nest of a running mtile (R236): Easel bank, format word, nest words, next step, steps of a reduction, steps in all, seq; M as
it stood at the mtile (R244); the rows of A of the next step, once they stand in the step buffer (R238).
atEnd: the reduction that has just ended waits for its copy to be taken; recheck: after a resume the checks of R235 come first. -/
structure MRun where
  easel : Nat := 0
  f : Nat := 0
  nest : List Nat := []
  step : Nat := 0
  per : Nat := 0
  total : Nat := 0
  seq : Nat := 0
  at_ : EngSt := {}
  buf : Option (List Nat) := none
  atEnd : Bool := false
  recheck : Bool := false
deriving DecidableEq, Repr, Inhabited

/-- A copy of an accumulator bank (R239): bank, contents, the addresses of its row 0 and the pitch of its rows, bf16 output, the
instruction that it belongs to and whether that completes with it, the units already written. -/
structure MCopy where
  ab : Nat := 0
  data : Mem := []
  base : Nat := 0
  pitch : Nat := 0
  bf : Bool := false
  seq : Nat := 0
  final : Bool := false
  done : Nat := 0
deriving DecidableEq, Repr, Inhabited

/-- M of a task: the running mtile, the copy that drains, the final copy of the mtile just before that did not retire (R241), the
mmark tokens that wait for the drain, a request to stop at the next retirement point (R349) with M waiting there, and the format word
and reduction with which a record has the mtile at M's position go on (R344). -/
structure MUnit where
  run : Option MRun := none
  again : Option (Nat × Nat) := none
  drain : Option MCopy := none
  kept : Option MCopy := none
  marks : List Nat := []
  preempt : Bool := false
  waiting : Bool := false
deriving DecidableEq, Repr, Inhabited

/-- A row line as a cut record keeps it (R344): its index, row, W and hold. -/
structure SavedRow where
  x : Nat := 0
  row : Nat := 0
  w : Bool := false
  held : Bool := false
deriving DecidableEq, Repr, Inhabited

/-- The task slot of one context bank of one core (R156). gang is the number of the gang whose task it holds. -/
structure Task where
  gang : Option Nat := none
  index : Nat := 0
  engs : Sparse EngSt := []
  sreg : Sparse Word := []
  pred : Sparse Nat := []
  creg : Sparse Word := []
  areg : Sparse Word := []
  sf : Sparse Nat := []
  /-- the token registers as engine t sees register n, at key 32 t + n -/
  kreg : Sparse Word := []
  late : List Late := []
  jreg : Mem := []
  mask : Sparse Nat := []
  opq : Sparse (List Mem) := []
  outq : Sparse (List Mem) := []
  hq : List Word := []
  repn : Sparse (List Nat) := []
  recs : List PathRec := []
  recBase : Nat := 0
  emit : Option PathRec := none
  pat : Sparse Nat := []
  csr : Csrs := {}
  bufcnt : Sparse Nat := []
  evq : List Nat := []
  evLost : Bool := false
  s : SUnit := {}
  v : VUnit := {}
  c : CUnit := {}
  m : MUnit := {}
  a : AUnit := {}
  tlb : Tlbs := {}
  /-- a stop request has reached the task (R340) -/
  stop : Bool := false
  /-- position at which a resumed command of C takes up again, by command address (R344) -/
  resume : List (Nat × Nat) := []
  /-- the row lines that its record kept when its resume was answered (R348) -/
  saved : List SavedRow := []
deriving DecidableEq, Repr, Inhabited

/-- A core (R156): what its two banks share, and what it holds once. -/
structure Core where
  spad : Mem := []
  uf : Mem := []
  fsplit : Nat := 0
  ssplit : Nat := 0
  canvas : Mem := []
  palette : Mem := []
  acc : Mem := []
  easel : Sparse Word := []
  fq : List Word := []
  halted : Bool := false
deriving DecidableEq, Repr, Inhabited

/-- The in-array operations (R114). -/
inductive IaOp where
  | zero | copy | add | sub | mul | fma | axpy | acc | wld | wst | max | min | cvt | scale
deriving DecidableEq, Repr, Inhabited

/-- The commands of a channel sequencer (R107-R114). x is a row line index, slot a slot of all banks, j and n a strip range. -/
inductive CmdKind where
  | opn (x row : Nat) (w : Bool)
  | opnw (slot row : Nat) (w : Bool)
  | hold (x : Nat)
  | rel (x : Nat)
  | relw (slot : Nat)
  | drd (x spad j n buf : Nat)
  | dwr (x j n buf : Nat) (data : Mem)
  | dref (g : Nat)
  | ia (op : IaOp) (bf : Bool) (d a b j n : Nat)
deriving DecidableEq, Repr, Inhabited

/-- An accepted command: planned start, seq of its token, bank of its task, and C's position as a cut record gives it
(R344): pc, block serial, records taken, passes, cursor. -/
structure Cmd where
  kind : CmdKind := .dref 0
  plan : Point := {}
  seq : Nat := 0
  bank : Nat := 0
  pos : List Nat := []
  /-- of a dwr, the scratchpad offset of its bytes -/
  src : Nat := 0
deriving DecidableEq, Repr, Inhabited

/-- A command that has started: its start on the grid and the die's clock then; when it completes, once that is known; and of a
transfer its width, its strips, the good ones among them, when the next send begins, when the present one ends, the failed sends
with their last failing group, and the landings to come (clock, strip). -/
structure RunCmd where
  cmd : Cmd := {}
  start : Point := {}
  from2 : Nat := 0
  done2 : Option Nat := none
  folded : Bool := false
  strips : Mem := []
  good : List Nat := []
  send2 : Option Nat := none
  end2 : Nat := 0
  fails : Nat := 0
  grp : Nat := 0
  lands : List (Nat × Nat) := []
  /-- of a transfer, the row that its row line held at its start -/
  row : Nat := 0
deriving DecidableEq, Repr, Inhabited

/-- A slot that holds a row (R50): row, contents, hold, W of its window entry, start of its open, opened by dopenw. -/
structure SlotSt where
  row : Nat := 0
  data : Mem := []
  held : Bool := false
  w : Bool := false
  opened : Point := {}
  whole : Bool := false
  useEnd : Point := {}
deriving DecidableEq, Repr, Inhabited

/-- What the sequencer remembers of commands that started, for the rules of R75 and R104. -/
structure Hist where
  opens : List Point := []
  openw : Option Point := none
  rels : Sparse (Option Point) := []
  bus : Option Point := none
  dref : Option Point := none
  ia : Option Point := none
  /-- the latest planned completion -/
  last : Option Point := none
deriving DecidableEq, Repr, Inhabited

/-- A refresh group: its deadline and its last refresh, in ticks of its die (R79); checked when the check of R80 is made. -/
structure Refresh where
  deadline : Nat := 0
  last : Nat := 0
  checked : Bool := false
deriving DecidableEq, Repr, Inhabited

/-- A cell fault of a strip: symbols in error, syndrome, bytes that read flipped (R89). -/
structure CellFault where
  strip : Nat := 0
  syms : Nat := 0
  syn : Nat := 0
  flips : List Nat := []
deriving DecidableEq, Repr, Inhabited

/-- A pseudo-channel. -/
structure Chan where
  slots : Sparse (Option SlotSt) := []
  wells : Mem := []
  scalars : Sparse Nat := []
  cmds : List Cmd := []
  runs : List RunCmd := []
  hist : Hist := {}
  debt : Nat := 0
  /-- consecutive failures of each lane group, with the tick of the first (R91) -/
  fails : Sparse (Nat × Nat) := []
  /-- the half of the lane groups over which transfers go once folded (R92): 0 groups 0-3, 1 groups 4-7 -/
  half : Nat := 0
  farq : List Nat := []
  /-- the far request that the open far slot serves, with the clock at which its present send ends (R78, R391) -/
  serving : Option (Nat × Nat) := none
  /-- the failed sends of the far request that is served or was put back, and the group of the last (R90, R94) -/
  farBad : Nat × Nat := (0, 0)
  /-- the last far slot served: beat and number in the beat -/
  slotDone : Option (Nat × Nat) := none
  refresh : Sparse (Option Refresh) := []
  busFaults : List (List (Nat × Nat)) := []
  /-- opens to come in the reopen span (R348): grid point, whole slot or not, row lines -/
  reopen : List (Point × Bool × List SavedRow) := []
  /-- commands that a cut discarded, by bank of their task, placed again on a resume (R106, R347) -/
  again : List Cmd := []
  /-- the row lines that a detach released, for the cut record (R348) -/
  saved : List SavedRow := []
deriving DecidableEq, Repr, Inhabited

/-- A parameter block in a reduction engine (R95-R99), with the physical addresses of its buffers. -/
structure RedBlk where
  core : Nat := 0
  bank : Nat := 0
  seq : Nat := 0
  buf : Nat := 0
  dst : Nat := 0
  srcs : List Nat := []
  flag : Option Nat := none
  scope : Nat := 0
  sequential : Bool := false
  bf : Bool := false
  nstrips : Nat := 0
  stride : Nat := 0
  nbeats : Nat := 0
  first : Nat := 0
  /-- beat open on the stack's die when the block was accepted: only later named beats are used (R117) -/
  accepted : Nat := 0
  done : Nat := 0
  /-- the named beat in use and the strips done in it -/
  cur : Option (Nat × Nat) := none
  /-- a beat, and the ticks by which its retries delay the next strip there (R96) -/
  late : Nat × Nat := (0, 0)
  /-- the transfers of the next strip that failed: position in the list of its buffers, failed sends, group of the last -/
  bad : List (Nat × Nat × Nat) := []
  stopped : Bool := false
deriving DecidableEq, Repr, Inhabited

/-- A stack: the blocks of its reduction engine, the beat and offset at which that engine ended its last strip, the blocks that ended in
a beat that they still own (R96); its retention state, and whether it has ever been hot (R79). -/
structure Stack where
  red : List RedBlk := []
  busy : Nat × Nat := (0, 0)
  owners : List (RedBlk × Nat) := []
  early : Bool := false
  hot : Bool := false
  temp : Nat := 0
  since : Option Nat := none
deriving DecidableEq, Repr, Inhabited

/-- A beacon in flight (R141): destination, sender's clock when it left, the latest openings of the sender with the half ticks
since each, and its estimates. -/
structure Beacon where
  dst : Nat := 0
  sent2 : Nat := 0
  opens : List (Nat × Nat) := []
  est : List (Nat × Int) := []
deriving DecidableEq, Repr, Inhabited

/-- A timed transfer (R145, R146): sender, token, C's position, planned start, source, destination, strips; once sent its clock,
the strips still to land, and the dropped ones, each with the hop that it does not cross. -/
structure CtxCmd where
  core : Nat := 0
  bank : Nat := 0
  seq : Nat := 0
  pos : List Nat := []
  plan : Point := {}
  src : Nat := 0
  dcore : Nat := 0
  daddr : Nat := 0
  n : Nat := 0
  data : Mem := []
  sent2 : Option Nat := none
  strips : List Nat := []
  cut : List (Nat × Nat) := []
deriving DecidableEq, Repr, Inhabited

/-- The power state of a die (R355-R362). -/
structure Power where
  temp : Nat := 0
  on1 : Bool := false
  on2 : Bool := false
  onc : Bool := false
  /-- tick of the last change of each threshold -/
  ch1 : Option Nat := none
  ch2 : Option Nat := none
  chc : Option Nat := none
  grant : Nat := 0
  run : Nat := 0
  skip : Bool := false
  /-- tick at which the grant became cheaper, while the switch point is to come -/
  cheaper : Option Nat := none
  /-- the level that the last swpt of a task read, for the tasks that have retired one since: task key, level -/
  switched : List (Nat × Nat) := []
  /-- a faster grant that waits for the end of the window that brings it -/
  faster : Option Nat := none
  /-- tick at which the transition window must end, and the level it brings -/
  window : Option (Nat × Nat) := none
  /-- that window brings a faster grant -/
  rising : Bool := false
  /-- causes held until the window ends: task key, code, address, immediate (R362) -/
  held : List (Nat × Nat × Nat × Nat) := []
deriving DecidableEq, Repr, Inhabited

/-- A job of a copy engine (R339): its words, the byte offset of the piece under way, that piece, its status once it ends. -/
structure CeJob where
  src : Nat := 0
  dst : Nat := 0
  len : Nat := 0
  ticket : Nat := 0
  vf : Nat := 0
  done : Nat := 0
  off : Nat := 0
  piece : Option Nat := none
  status : Nat := 0
deriving DecidableEq, Repr, Inhabited

/-- A die: clock, beat and offset in half ticks, freeze or pause under way, skew, node time, power, transfers, copy engine. -/
structure Die where
  tick2 : Nat := 0
  beat : Nat := 0
  off2 : Nat := 0
  /-- number, start and end of the freeze under way -/
  freeze : Option (Nat × Nat × Nat) := none
  pause : Option Nat := none
  /-- the beats that opened last, with the clock then -/
  opens : List (Nat × Nat) := []
  /-- half ticks by which each other die's grid lags this one's, as estimated -/
  est : Sparse Int := []
  aligned2 : Nat := 0
  beacons : List Beacon := []
  beacon2 : Nat := 0
  /-- clock of this die when the beacon of each neighbour last arrived -/
  heard : Sparse Nat := []
  /-- half ticks by which this die's clock leads, and the clock when that last changed (R142; log entry 54) -/
  drift : Int := 0
  drift2 : Nat := 0
  /-- the die has failed: nothing of it moves any more (R317) -/
  failed : Bool := false
  fenced : Bool := false
  ntime : Nat := 0
  power : Power := {}
  ctx : List CtxCmd := []
  /-- timed transfers that a cut discarded unsent (R149, R347) -/
  ctxAgain : List CtxCmd := []
  ce : Option CeJob := none
deriving DecidableEq, Repr, Inhabited

/-- Who a piece belongs to: a load or store of S, a command of C, a copy engine, a reduction block. -/
inductive PieceOf where
  | sLoad
  | sStore
  | cCmd (id : Nat)
  | copy (die : Nat)
  /-- a frame that has arrived at an Ethernet port from a peer, for an offset of the exported window (R153) -/
  | frame (port peer off : Nat)
  /-- the flag of a reduction block: seq of its rdc, status, strips finished (R98) -/
  | flag (seq status count : Nat)
  /-- the completion record of a launch of vf, outside the module: its ticket is pending until the record performs (R292, R306) -/
  | record (vf ticket : Nat)
deriving DecidableEq, Repr, Inhabited

/-- Where a piece stands: sent, in the far queue, served, answered with an error. -/
inductive PieceSt where
  | sent | queued | served | bad
deriving DecidableEq, Repr, Inhabited

/-- An address piece under way (R125). cc is the placement bit of its frame when its base die accepted it (R57), units the 32-byte
units that a controller of the capacity tier has moved (R293). -/
structure Piece where
  id : Nat := 0
  core : Nat := 0
  bank : Nat := 0
  die : Nat := 0
  own : PieceOf := .sLoad
  pa : Nat := 0
  len : Nat := 0
  wr : Bool := false
  spad : Nat := 0
  buf : Nat := 0
  data : List Byte := []
  cc : Bool := false
  units : Nat := 0
  st : PieceSt := .sent
deriving DecidableEq, Repr, Inhabited

/-- A freeze that has been announced (R81): number, grid point, length, wait before its refreshes, its forced refreshes, and the
dies on which it has begun. -/
structure Freeze where
  id : Nat := 0
  at_ : Point := {}
  len : Nat := 0
  w : Nat := 0
  refs : List (Nat × Nat) := []
  begun : List Nat := []
deriving DecidableEq, Repr, Inhabited

/-- A launch whose packet has been read (R310, R312). words are the packet's eight words. -/
structure Launch where
  id : Nat := 0
  vf : Nat := 0
  q : Nat := 0
  words : List Nat := []
  readBeat : Nat := 0
  order : Nat := 0
  issued : Nat := 0
  /-- gang numbers to be issued again (R318) -/
  again : List Nat := []
  live : Nat := 0
  ended : Nat := 0
  doneCount : Nat := 0
  use : Nat := 0
  /-- the cause of the first gang that the driver ended (R323) -/
  cause : Option Nat := none
  level3 : Option Nat := none
  /-- the status, plus 256 times the reason, with which it completes once its gangs have ended (R318, R320, R331) -/
  fail : Option Nat := none
deriving DecidableEq, Repr, Inhabited

/-- Where a gang stands. -/
inductive GangSt where
  /-- issued, to start on its beat -/
  | issued
  | attached
  /-- from its detach point until its cut is taken (R346) -/
  | detaching
  | detached
  | ended
deriving DecidableEq, Repr, Inhabited

/-- What a cut will record (R344): cause, originating task, address, immediate, pre-emption, detach point with its plan entry; the
answer of the driver that is held; whether a resume has been answered; the reopen span's first beat and the rebase beat (R347);
whether the cut was written; and how the distributor ends the gang once the cut is taken: 0 its gang number is issued again, 2 its
launch completes with status 2 (R318, R320). -/
structure CutInfo where
  code : Nat := 0
  orig : Nat := 0
  va : Nat := 0
  imm : Nat := 0
  pre : Bool := false
  at_ : Point := {}
  tick2 : Nat := 0
  idx : Nat := 0
  answer : Option Nat := none
  answered : Bool := false
  span : Nat := 0
  rebase : Option Nat := none
  machineCheck : Bool := false
  written : Bool := false
  ends : Option Nat := none
deriving DecidableEq, Repr, Inhabited

/-- An instruction in the race checker (R353): number, task key, engine, the instructions ordered before its start, its storage
ranges (space, first, last, written), those of them that are targets of an update with the kind of it that R255 exempts, of a DRAM
command or ctx the core whose engines a beat orders after it and the beat that does, and of a ctx the core that it reaches, its send
point and the offset distance from there that orders a timed access after it (R148). -/
structure RaceEnt where
  id : Nat := 0
  task : Nat := 0
  eng : Eng := .s
  seq : Nat := 0
  pre : List Nat := []
  rgn : List (Nat × Nat × Nat × Bool) := []
  tgt : List (Nat × Nat × Nat × Bool) := []
  exempt : Nat := 0
  beat : Option (Nat × Nat) := none
  timed : Option (Nat × Point × Nat) := none
deriving DecidableEq, Repr, Inhabited

/-- A gang (R315, R340). tasks are task keys, 2 core + bank, in index order. -/
structure Gang where
  id : Nat := 0
  launch : Nat := 0
  num : Nat := 0
  vf : Nat := 0
  tasks : List Nat := []
  colours : List Nat := []
  plan : Nat := 0
  rows : Bool := false
  nonid : Bool := false
  fold : Bool := false
  det : Bool := false
  start : Nat := 0
  st : GangSt := .issued
  preempt : Bool := false
  /-- the beat of its last resume and the beats by which it was rebased (R347) -/
  resume : Option (Nat × Nat) := none
  cut : CutInfo := {}
  /-- the tasks that have retired exit, each with the barriers that it had arrived at (R283), and those that have ended (R284) -/
  exits : List (Nat × Nat) := []
  gone : List Nat := []
  /-- the descriptor with which a successor starts (R316), and the window table of a launched gang (R331) -/
  succ : Option (List Nat) := none
  pins : List Leaf := []
  race : List RaceEnt := []
  raceNext : Nat := 1
  /-- what is ordered before the current position of each engine, by 8 x task key + tag (R353) -/
  known : Sparse (List Nat) := []
  /-- S's knowledge carried by the path records -/
  shown : List (Nat × Nat × List Nat) := []
  /-- what S of each task knew when it arrived at a barrier: task key, number of its arrival (R303) -/
  met : List (Nat × Nat × List Nat) := []
deriving DecidableEq, Repr, Inhabited

/-- The beat plan that beats before the last switch used, and the freezes, slips and alignment requests (R70, R81-R87, R144). -/
structure Grid where
  /-- the firmware has started the grid (R66, R367) -/
  started : Bool := false
  idle : Bool := true
  /-- slot, entry count and base of the plan before the active one; none while it was the idle plan -/
  prev : Option (Nat × Nat × Nat) := none
  /-- first beat of the active plan, while the idle plan ran before it -/
  from_ : Nat := 0
  opened : Nat := 0
  slip : Sparse Nat := []
  freezes : List Freeze := []
  freezeNext : Nat := 1
  freezeCount : Nat := 0
  aligns : List Nat := []
  forced : List Nat := []
deriving DecidableEq, Repr, Inhabited

/-- A frame that has left by an Ethernet port (R152-R154): port, the IDs of its destination and of its source, offset, write or read,
length, bytes; or an answer, perhaps with an error. -/
structure Frame where
  port : Nat := 0
  peer : Nat := 0
  src : Nat := 0
  off : Nat := 0
  wr : Bool := false
  len : Nat := 0
  reply : Bool := false
  err : Bool := false
  data : List Byte := []
deriving DecidableEq, Repr, Inhabited

/-- What has left on a PCI Express link (R365): a write, with link, host bus address and bytes; a read of len bytes; or an MSI-X
interrupt (R369). -/
structure HostWrite where
  link : Nat := 0
  addr : Nat := 0
  data : List Byte := []
  rd : Bool := false
  len : Nat := 0
  msix : Bool := false
  /-- a completion of a host access through a BAR, with Unsupported Request or another error where err is set (R364) -/
  reply : Bool := false
  err : Bool := false
deriving DecidableEq, Repr, Inhabited

/-- The distributors and the management core (17 R308-R323, 21 R363-R372). -/
structure Dist where
  launches : List Launch := []
  gangs : List Gang := []
  next : Nat := 1
  scoreboard : Sparse (List (Nat × Nat)) := []
  /-- the copy of the scoreboard that the other distributors took when the last beat opened (R317) -/
  mirror : Sparse (List (Nat × Nat)) := []
  /-- tickets of copy jobs that are pending -/
  jobs : List (Nat × Nat) := []
  /-- per function, invalidations in progress: task key, its gang, and the last command before the marker (R330) -/
  asinv : Sparse (List (Nat × Option Nat × Nat)) := []
  devLost : Bool := false
  bar2Open : Bool := true
  imageHash : Nat := 0
  nonce : List Byte := []
  config : List Nat := []
  sent : List Frame := []
  /-- frames that have arrived and wait for earlier ones of their source, with the export entry read for each (R152, R153) -/
  waiting : List (Frame × Nat) := []
  hostOut : List HostWrite := []
  stamps : Sparse Nat := []
  /-- the count of replay records has passed 2^32 (R371) -/
  lapped : Bool := false
  queueOrder : Nat := 0
deriving DecidableEq, Repr, Inhabited

/-- The state of the machine. -/
structure State where
  /-- memory by physical address; the fast tier by array position (R53, R57) -/
  mem : Mem
  /-- the management registers by physical address, each stored as its difference from its power-up value -/
  mgmt : Sparse Word
  cores : Sparse Core
  tasks : Sparse Task
  chans : Sparse Chan
  stackList : Sparse Stack
  dies : Sparse Die
  grid : Grid
  dist : Dist
  pieces : List Piece
  pieceNext : Nat
  /-- accesses to each 64 KiB frame (R334) -/
  counters : Sparse Nat
  cellFaults : List CellFault
  /-- the model's own: who moves next, moves taken freely, free values drawn, the instruction being executed -/
  agenda : List Move
  moves : Nat
  free : Nat
  cur : Cur
deriving DecidableEq, Repr

/-- The machine right after power-up: every core held, BOOTCTL waiting (R367), every register at the value INVENTORY.md gives. -/
def State.reset : State where
  mem := []
  mgmt := []
  cores := []
  tasks := []
  chans := []
  stackList := []
  dies := []
  grid := {}
  dist := {}
  pieces := []
  pieceNext := 0
  counters := []
  cellFaults := []
  agenda := []
  moves := 0
  free := 0
  cur := {}

end Sys2Proof.Machine
end

