-- ==== Sys2Proof/Machine/Access.lean ====
section
/-!
DEFINITION. Reading and writing the parts of the state: engines, tasks, cores, pseudo-channels, dies; the management
registers; the beat grid; memory by physical address, with the row lines that overlay it and the array ECC.
-/

namespace Sys2Proof.Machine

/-- The beat that a number of 48 bits names, seen from beat now: BEAT counts modulo 2^48 (R2), and of the beats with that number the
nearest one is meant (log entry 80). -/
def beatAt (now t : Nat) : Nat :=
  let d := (t + 2 ^ 48 - now % 2 ^ 48) % 2 ^ 48
  if d ≤ 2 ^ 47 ∨ now + d < 2 ^ 48 then now + d else now + d - 2 ^ 48

/-- The key of the task in a bank of a core. -/
def tkey (core bank : Nat) : Nat := 2 * core + bank

namespace State

def core (s : State) (c : Nat) : Core := Sparse.rd {} s.cores c
def setCore (s : State) (c : Nat) (x : Core) : State := { s with cores := Sparse.wr {} s.cores c x }
def modCore (s : State) (c : Nat) (f : Core → Core) : State := s.setCore c (f (s.core c))

def task (s : State) (k : Nat) : Task := Sparse.rd {} s.tasks k
def setTask (s : State) (k : Nat) (x : Task) : State := { s with tasks := Sparse.wr {} s.tasks k x }
def modTask (s : State) (k : Nat) (f : Task → Task) : State := s.setTask k (f (s.task k))

def chan (s : State) (p : Nat) : Chan := Sparse.rd {} s.chans p
def setChan (s : State) (p : Nat) (x : Chan) : State := { s with chans := Sparse.wr {} s.chans p x }
def modChan (s : State) (p : Nat) (f : Chan → Chan) : State := s.setChan p (f (s.chan p))

def stack (s : State) (k : Nat) : Stack := Sparse.rd {} s.stackList k
def setStack (s : State) (k : Nat) (x : Stack) : State := { s with stackList := Sparse.wr {} s.stackList k x }
def modStack (s : State) (k : Nat) (f : Stack → Stack) : State := s.setStack k (f (s.stack k))

def die (s : State) (d : Nat) : Die := Sparse.rd {} s.dies d
def setDie (s : State) (d : Nat) (x : Die) : State := { s with dies := Sparse.wr {} s.dies d x }
def modDie (s : State) (d : Nat) (f : Die → Die) : State := s.setDie d (f (s.die d))

/-- One engine of the task of key k. -/
def eng (s : State) (k : Nat) (e : Eng) : EngSt := Sparse.rd {} (s.task k).engs e.tag
def setEng (s : State) (k : Nat) (e : Eng) (x : EngSt) : State :=
  s.modTask k fun t => { t with engs := Sparse.wr {} t.engs e.tag x }
def modEng (s : State) (k : Nat) (e : Eng) (f : EngSt → EngSt) : State := s.setEng k e (f (s.eng k e))

/-- The key of the task whose engine is executing. -/
def key (s : State) : Nat := tkey s.cur.core s.cur.bank
def me (s : State) : Task := s.task s.key
def modMe (s : State) (f : Task → Task) : State := s.modTask s.key f
def myCore (s : State) : Core := s.core s.cur.core
def modMyCore (s : State) (f : Core → Core) : State := s.modCore s.cur.core f
def myEng (s : State) : EngSt := s.eng s.key s.cur.eng
def modMyEng (s : State) (f : EngSt → EngSt) : State := s.modEng s.key s.cur.eng f

/-- A fresh free choice (R89, R147, R268, R391): the counter is read and advanced. -/
def choose (s : State) : Nat × State := (Config.freeChoice s.free, { s with free := s.free + 1 })

/-- How many of the n units that are left the next act moves (R293): at least one; all, where the choice falls so. -/
def portion (s : State) (n : Nat) : Nat × State :=
  if n ≤ 1 then (n, s) else (if s.choose.1 % n = 0 then n else s.choose.1 % n, s.choose.2)

end State

/-- The die of a core or pseudo-channel (R1, R49), and the stack of a pseudo-channel. -/
def dieOf (c : Nat) : Nat := c / 96
def stackOf (p : Nat) : Nat := p / 48

/-! ### Management registers -/

def regChan (p : Nat) : Nat := 0x0F0000000000 + stackOf p * 0x100000 + p % 48 * 0x100
def regPlace (p w : Nat) : Nat := regChan p + w * 8
def regAels (p : Nat) : Nat := regChan p + 0x40
def regTels (p : Nat) : Nat := regChan p + 0x68
def regBlim : Nat := 0x0F0001000000
def regSlip : Nat := 0x0F0001000008
def regPlanact : Nat := 0x0F0001000010
def regPlanbase : Nat := 0x0F0001000018
def regPlan (k i : Nat) : Nat := 0x0F0001010000 + k * 0x800 + i * 8
def regQueue (v q : Nat) : Nat := 0x0F0002000000 + v * 0x400 + q * 0x40
def regVfweight (v : Nat) : Nat := 0x0F0002060000 + 8 * v
def regVfuse (v : Nat) : Nat := 0x0F0002060C00 + 8 * v
def regAsroot (v : Nat) : Nat := 0x0F0002070000 + 8 * v
def regAsinv (v : Nat) : Nat := 0x0F0002070C00 + 8 * v
def regPwlist (v : Nat) : Nat := 0x0F0002071800 + 8 * v
def regMcfg : Nat := 0x0F0002080000
def regCutbase (v : Nat) : Nat := 0x0F0002080800 + 8 * v
def regMclog (c : Nat) : Nat := 0x0F0002082000 + 32 * c
def regCutcmd (v : Nat) : Nat := 0x0F0002088000 + 8 * v
def regPwrctl (d : Nat) : Nat := 0x0F0002090000 + 0x40 * d
def regHost (o : Nat) : Nat := 0x0F00020A0000 + o
def regBootctl : Nat := regHost 0
def regBwin : Nat := regHost 8
def regHwbase (i : Nat) : Nat := regHost (0x10 + 8 * i)
def regDevqbase : Nat := regHost 0x20
def regDevqptr : Nat := regHost 0x28
def regAttreq : Nat := regHost 0x30
def regAttnonce : Nat := regHost 0x38
def regRlbase : Nat := regHost 0x68
def regRlptr : Nat := regHost 0x70
def regDumpbase : Nat := regHost 0x78
def regExpbase : Nat := 0x0F00020B0000
def regRoutebase : Nat := 0x0F00020B0008
def regCe (d : Nat) : Nat := 0x0F00020B1000 + 0x40 * d

/-- The power-up value of a management register (R86, R313, R330, R356, R366); every other register is 0. The entry count of
PLANACT while the idle plan runs is a choice (log entry 3). -/
def mgmtReset (pa : Nat) : Nat :=
  if pa = regBlim then 1024
  else if pa = regPlanact then 2 ^ 20
  else if regVfweight 0 ≤ pa ∧ pa < regVfuse 0 ∧ pa % 8 = 0 then 1
  else if regAsinv 0 ≤ pa ∧ pa < regPwlist 0 ∧ pa % 8 = 0 then 2 ^ 63
  else if regPwrctl 0 ≤ pa ∧ pa < regPwrctl 8 ∧ pa % 64 = 0 then 110 * 2 ^ 24 + 100 * 2 ^ 16 + 95 * 2 ^ 8
  else if pa = regBwin then 0x010000000000
  else if pa = regDumpbase then 0x011FC0000000
  else 0

namespace State

/-- A management register. -/
def reg (s : State) (pa : Nat) : Nat := (Sparse.rd 0#64 s.mgmt pa ^^^ BitVec.ofNat 64 (mgmtReset pa)).toNat
def setReg (s : State) (pa v : Nat) : State :=
  { s with mgmt := Sparse.wr 0#64 s.mgmt pa (BitVec.ofNat 64 v ^^^ BitVec.ofNat 64 (mgmtReset pa)) }

/-! ### The beat grid -/

/-- The entry of the idle plan (R70): len 1,024, steep 0, far 15, align 0. -/
def idleEntry : Nat := 15 * 2 ^ 24 + 1024

/-- The plan entry of beat b (R70). -/
def entry (s : State) (b : Nat) : Nat :=
  let act := s.reg regPlanact
  let base := beatAt b (s.reg regPlanbase % 2 ^ 48)
  let n := slice act 20 9
  if s.grid.idle then idleEntry
  else if base ≤ b then s.reg (regPlan (slice act 16 4) ((b - base) % (if n = 0 then 1 else n)))
  else
    match s.grid.prev with
    | none => idleEntry
    | some (k, m, base') => s.reg (regPlan k ((b - base') % (if m = 0 then 1 else m)))

/-- The index of the plan entry of beat b. -/
def entryIndex (s : State) (b : Nat) : Nat :=
  let base := beatAt b (s.reg regPlanbase % 2 ^ 48)
  let n := slice (s.reg regPlanact) 20 9
  if s.grid.idle then 0
  else if base ≤ b then (b - base) % (if n = 0 then 1 else n)
  else
    match s.grid.prev with
    | none => 0
    | some (_, m, base') => (b - base') % (if m = 0 then 1 else m)

def lenOf (s : State) (b : Nat) : Nat := s.entry b % 2 ^ 13
def farOf (s : State) (b : Nat) : Nat := slice (s.entry b) 24 4
/-- The end of the transfer window of beat b: offset len - 40 x far (R69, R75). -/
def windowEnd (s : State) (b : Nat) : Nat := s.lenOf b - 40 * s.farOf b

/-- The sum of the planned lengths of n beats from b. -/
def lensFrom (s : State) : Nat → Nat → Nat
  | _, 0 => 0
  | b, n + 1 => s.lenOf b + lensFrom s (b + 1) n

/-- The offset distance from x to y (R67); 0 where y does not come after x. Past 16 beats it is longer than every distance that
a rule names, since a beat has at least 32 ticks (R69). -/
def delta (s : State) (x y : Point) : Nat :=
  if y.beat < x.beat then 0
  else if 16 < y.beat - x.beat then 2 ^ 32
  else s.lensFrom x.beat (y.beat - x.beat) + y.off - x.off

/-- Where a die stands on the grid, in whole ticks. -/
def now (s : State) (d : Nat) : Point := ⟨(s.die d).beat, (s.die d).off2 / 2⟩

/-- The gang of number g. -/
def gang (s : State) (g : Nat) : Option Gang := s.dist.gangs.find? fun x => x.id == g
def modGang (s : State) (g : Nat) (f : Gang → Gang) : State :=
  { s with dist := { s.dist with gangs := s.dist.gangs.map fun x => if x.id = g then f x else x } }
/-- The gang whose task has key k. -/
def gangOf (s : State) (k : Nat) : Option Gang :=
  match (s.task k).gang with
  | none => none
  | some g => s.gang g

def attached (s : State) (k : Nat) : Bool :=
  match s.gangOf k with
  | some g => g.st == .attached || g.st == .detaching
  | none => false

/-- The bank of a core that issues: bank 1 only while bank 0 holds no attached task (R348). -/
def issuing (s : State) (c : Nat) : Nat := if s.attached (tkey c 0) then 0 else 1

/-- The colour of a pseudo-channel whose core runs a task of an attached gang (R71). -/
def colour (s : State) (p : Nat) : Option Nat :=
  let k := tkey p (s.issuing p)
  match s.gangOf k with
  | some g => if g.st == .attached || g.st == .detaching then some (g.colours.getD (s.task k).index 0) else none
  | none => none

/-- The pseudo-channel is steep in beat b (R71). -/
def steep (s : State) (p b : Nat) : Bool :=
  match s.colour p with
  | some c => bitOf (s.entry b) (16 + c)
  | none => false

end State

/-- The master distributor's die: the lowest-numbered responsive one (R317). -/
def masterDie (s : State) : Nat := ((List.range 8).find? fun d => !(s.die d).fenced).getD 0

/-! ### Physical addresses -/

/-- The regions of the physical address map (R54). -/
inductive Region where
  | fast | cap | mgmt | host | peer | hole
deriving DecidableEq, Repr

def region (pa : Nat) : Region :=
  if pa < 0x00C000000000 then .fast
  else if 0x010000000000 ≤ pa ∧ pa < 0x030000000000 then .cap
  else if 0x0F0000000000 ≤ pa ∧ pa < 0x100000000000 then .mgmt
  else if 0x100000000000 ≤ pa ∧ pa < 0x200000000000 then .host
  else if 2 ^ 51 ≤ pa ∧ pa < 2 ^ 51 + 2 ^ 50 then .peer
  else .hole

/-- The pseudo-channel of a fast-tier address (R56). -/
def chanOf (pa : Nat) : Nat := pa / 2 ^ 30
/-- The memory node of a physical address (R62); 18 where there is none. -/
def nodeOf (pa : Nat) : Nat :=
  match region pa with
  | .fast => pa / 0x1800000000
  | .cap => 8 + (pa - 0x010000000000) / 0x4000000000
  | .host => 16
  | .peer => 17
  | _ => 18

/-- The number of the 32-byte strip at a bank, row and strip position of pseudo-channel p. -/
def stripAt (p row bank pos : Nat) : Nat := p * 2 ^ 25 + row * 2 ^ 9 + bank * 2 ^ 5 + pos
def stripPos (x : Nat) : Nat := x % 32
def stripBank (x : Nat) : Nat := x / 32 % 16
def stripRow (x : Nat) : Nat := x / 512 % 65536
def stripChan (x : Nat) : Nat := x / 2 ^ 25

namespace State

/-- The placement bit of the frame of a fast-tier address (R57). -/
def ccFrame (s : State) (pa : Nat) : Bool :=
  let f := pa / 2 ^ 21 % 512
  bitOf (s.reg (regPlace (chanOf pa) (f / 64))) (f % 64)

/-- The strip that holds a fast-tier address in a frame with placement bit cc (R56, R58). -/
def stripIn (cc : Bool) (pa : Nat) : Nat :=
  if cc then
    let t := pa % 2 ^ 21 / 32
    stripAt (chanOf pa) (128 * (pa / 2 ^ 21 % 512) + t / 512) (t % 16) (t / 16 % 32)
  else pa / 32

/-- The strip that holds a fast-tier address now. -/
def stripOf (s : State) (pa : Nat) : Nat := stripIn (s.ccFrame pa) pa

/-- The slot of a bank that holds a row, if one does (R52). -/
def openSlot (s : State) (p bank row : Nat) : Option (Nat × SlotSt) :=
  let c := s.chan p
  (List.range 8).findSome? fun i =>
    match Sparse.rd none c.slots (8 * bank + i) with
    | some l => if l.row = row then some (8 * bank + i, l) else none
    | none => none

/-- The 32 bytes of a strip, from the row line that holds its row or from the array (R53). -/
def stripData (s : State) (x : Nat) : List Byte :=
  match s.openSlot (stripChan x) (stripBank x) (stripRow x) with
  | some (_, l) => l.data.rdList (32 * stripPos x) 32
  | none => s.mem.rdList (32 * x) 32

/-- Bytes written at offset o of a strip, into the row line that holds its row or into the array (R53); the write makes fresh
check bits (R89). A write to part of a strip is the model's choice (log entry 64): it clears the fault of the whole strip and keeps
the other bytes as they were stored, with no check of them. -/
def stripWrite (s : State) (x o : Nat) (bs : List Byte) : State :=
  let s := { s with cellFaults := s.cellFaults.filter fun f => f.strip != x }
  match s.openSlot (stripChan x) (stripBank x) (stripRow x) with
  | some (i, l) =>
    s.modChan (stripChan x) fun c =>
      { c with slots := Sparse.wr none c.slots i (some { l with data := l.data.wrList (32 * stripPos x + o) bs }) }
  | none => { s with mem := s.mem.wrList (32 * x + o) bs }

end State

/-! ### Error logs and array ECC -/

/-- a + 1, saturating at 65,535 (R94). -/
def sat16 (a : Nat) : Nat := if a < 65535 then a + 1 else a

/-- A ring log of four entries with its status register: the entry is written at head, and head advances (R94, R384). -/
def logEntry (s : State) (status head ovfBit e : Nat) : State :=
  let st := s.reg status
  let at_ := status + 8 + 8 * head
  let st := if bitOf (s.reg at_) 63 then putBits st ovfBit 1 1 else st
  (s.setReg at_ (2 ^ 63 + e)).setReg status (putBits st 0 2 (head + 1))

/-- An entry of the array error log, and its count (R94, R384). -/
def logArray (s : State) (x src syn : Nat) (ue : Bool) : State :=
  let a := regAels (stripChan x)
  let st := s.reg a
  let st := if ue then putBits st 16 16 (sat16 (slice st 16 16)) else putBits st 32 16 (sat16 (slice st 32 16))
  logEntry (s.setReg a st) a (slice st 0 2) 7
    (b2n ue * 2 ^ 62 + src * 2 ^ 59 + stripPos x * 2 ^ 54 + stripRow x * 2 ^ 38 + stripBank x * 2 ^ 34 + syn % 2 ^ 32)

/-- The bytes of a strip with the flips of its fault. -/
def flipped (bs : List Byte) (flips : List Nat) : List Byte :=
  bs.zipWith (fun b f => b ^^^ BitVec.ofNat 8 f) (flips ++ List.replicate 32 0)

/-- A read of a strip through the ECC check (R89): its bytes, or nothing where it is uncorrectable. src is the reader code of R94. -/
def eccRead (s : State) (x src : Nat) : State × Option (List Byte) :=
  let good := s.stripData x
  match s.cellFaults.find? fun f => f.strip == x with
  | none => (s, some good)
  | some f =>
    match f.syms with
    | 0 => (s, some good)
    | 1 => (logArray s x src f.syn false, some good)
    | 2 => (logArray s x src f.syn true, none)
    | _ =>
      let (c, s) := s.choose
      match c % 3 with
      | 0 => (logArray s x src f.syn true, none)
      | 1 =>
        let s' := { s with free := s.free + 32 }
        (logArray s' x src f.syn false,
          some ((List.range 32).map fun i => BitVec.ofNat 8 (Config.freeChoice (s.free + i))))
      | _ => (s, some (flipped good f.flips))

/-- The syndrome of a strip's fault. -/
def syndrome (s : State) (x : Nat) : Nat :=
  match s.cellFaults.find? fun f => f.strip == x with
  | some f => f.syn
  | none => 0

/-! ### Memory by physical address -/

/-- The parts of the n bytes from a that lie in aligned spans of w bytes, in address order; at most the given count of them. -/
def spans (w : Nat) : Nat → Nat → Nat → List (Nat × Nat)
  | 0, _, _ => []
  | k + 1, a, n =>
    if n = 0 then []
    else
      let m := Nat.min n (w - a % w)
      (a, m) :: spans w k (a + m) (n - m)

/-- The strips that n bytes at a fast-tier address touch: for each the address and length of its part. -/
def stripSpans (pa n : Nat) : List (Nat × Nat) := spans 32 (n / 32 + 2) pa n

/-- A pseudo-channel that no transfer reaches any more (R93). -/
def isLost (s : State) (p : Nat) : Bool := bitOf (s.reg (regTels p)) 11

/-- Bytes at a fast-tier address whose strips place gives, each strip through the ECC check; the first strip that is
uncorrectable, or that a lost pseudo-channel holds (R93), ends the read and is answered by its address. -/
def fastRead (s : State) (place : Nat → Nat) (src : Nat) : List (Nat × Nat) → State × Except Nat (List Byte)
  | [] => (s, .ok [])
  | (a, n) :: r =>
    if isLost s (chanOf a) then (s, .error a)
    else
      match eccRead s (place a) src with
      | (s, none) => (s, .error a)
      | (s, some bs) =>
        match fastRead s place src r with
        | (s, .ok rest) => (s, .ok ((bs.drop (a % 32)).take n ++ rest))
        | (s, .error e) => (s, .error e)

/-- Bytes written at a fast-tier address, strip by strip; a lost pseudo-channel takes none (R93). -/
def fastWrite (s : State) (place : Nat → Nat) : List (Nat × Nat) → List Byte → State
  | [], _ => s
  | (a, n) :: r, bs =>
    fastWrite (if isLost s (chanOf a) then s else s.stripWrite (place a) (a % 32) (bs.take n)) place r (bs.drop n)

/-- n free bytes: what memory outside the module holds (the host's and a peer's), which the manual does not give. -/
def freeBytes (s : State) (n : Nat) : State × List Byte :=
  ({ s with free := s.free + n }, (List.range n).map fun i => BitVec.ofNat 8 (Config.freeChoice (s.free + i)))

/-- A write that leaves on a PCI Express link for a host-window address (R365). -/
def hostWrite (s : State) (pa : Nat) (bs : List Byte) : State :=
  let x := pa - 0x100000000000
  let link := x / 2 ^ 43 % 2
  { s with dist := { s.dist with hostOut := s.dist.hostOut ++
      [{ link := link, addr := (s.reg (regHwbase link) + x % 2 ^ 43) % 2 ^ 64, data := bs }] } }

/-- A read of n bytes that leaves on a PCI Express link for a host-window address (R365). -/
def hostRead (s : State) (pa n : Nat) : State :=
  let x := pa - 0x100000000000
  let link := x / 2 ^ 43 % 2
  { s with dist := { s.dist with hostOut := s.dist.hostOut ++
      [{ link := link, addr := (s.reg (regHwbase link) + x % 2 ^ 43) % 2 ^ 64, rd := true, len := n }] } }

/-- The number that bytes spell, lowest first (R4). -/
def bytesToNat : List Byte → Nat
  | [] => 0
  | b :: r => b.toNat + 256 * bytesToNat r

/-- n bytes of a number, lowest first. -/
def natToBytes : Nat → Nat → List Byte
  | 0, _ => []
  | n + 1, v => BitVec.ofNat 8 v :: natToBytes n (v / 256)

/-- The 64-bit words that bytes hold, lowest address first. -/
def bytesToWords : Nat → List Byte → List Nat
  | 0, _ => []
  | n + 1, bs => bytesToNat (bs.take 8) :: bytesToWords n (bs.drop 8)

/-- The bytes of a list of 64-bit words. -/
def wordsToBytes (ws : List Nat) : List Byte := ws.flatMap (natToBytes 8)

/-- A read of the fast or capacity tier in one act, by an agent that makes no far request (walkers, distributors, the firmware): the
fast tier with its row lines and ECC. -/
def tierRead (s : State) (pa n src : Nat) : State × Except Nat (List Byte) :=
  if region pa = .fast then fastRead s s.stripOf src (stripSpans pa n) else (s, .ok (s.mem.rdList pa n))

/-- An 8-byte read of a table by the device itself; 0 where the read fails (log entry 65). -/
def tableWord (s : State) (pa : Nat) : State × Nat :=
  match tierRead s pa 8 2 with
  | (s, .ok bs) => (s, bytesToNat bs)
  | (s, .error _) => (s, 0)

/-! ### The way to peers -/

/-- This device's node device ID (R368): word 2 of the configuration block. -/
def nodeId (s : State) : Nat := s.dist.config.getD 2 0 % 2 ^ 18

/-- Tables lie in the fast or the capacity tier (R325). -/
def inTiers (pa : Nat) : Bool := region pa == .fast || region pa == .cap

/-- The Ethernet port by which device id is reached, if it is reachable (R154). -/
def routePort (s : State) (id : Nat) : State × Option Nat :=
  let base := slice (s.reg regRoutebase) 18 34 * 2 ^ 18
  if !inTiers base then (s, none)
  else
    match tableWord s (base + id / 8 * 8) with
    | (s, w) =>
      let b := slice w (8 * (id % 8)) 8
      (s, if bitOf b 7 ∧ slice b 4 3 = 0 ∧ bitOf (s.dist.config.getD 1 0) (b % 16) then some (b % 16) else none)

/-- A frame put on an Ethernet port. -/
def transmit (s : State) (f : Frame) : State := { s with dist := { s.dist with sent := s.dist.sent ++ [f] } }

/-- A request for a peer's window leaves by the port of the route table; whether it could (R152, R154). -/
def sendFrame (s : State) (pa len : Nat) (wr : Bool) (data : List Byte) : State × Bool :=
  let peer := slice pa 32 18
  match routePort s peer with
  | (s, some port) =>
    (transmit s { port := port, peer := peer, src := nodeId s, off := pa % 2 ^ 32, wr := wr, len := len, data := data }, true)
  | (s, none) => (s, false)

/-- The parts of an access to a peer, none of which crosses 256 bytes (R125). -/
def sendFrames (s : State) (wr : Bool) : List (Nat × Nat) → List Byte → State
  | [], _ => s
  | (a, n) :: r, bs => sendFrames (sendFrame s a n wr (if wr then bs.take n else [])).1 wr r (bs.drop n)

/-- A read of n bytes outside the module by an agent that waits for it in one act: the request leaves, and what comes back is free; none
where it fails (R152, R365). -/
def outsideRead (s : State) (pa n : Nat) : State × Option (List Byte) :=
  let sent := if region pa = .host then (hostRead s pa n, true) else sendFrame s pa n false []
  match sent with
  | (s, false) => (s, none)
  | (s, true) =>
    let (c, s) := s.choose
    let (s, bs) := freeBytes s n
    (s, if c % 2 = 1 then none else some bs)

/-- A read of n bytes by physical address by a distributor, the firmware or the host: the tiers; a request and free bytes from
outside the module; the management registers. -/
def physRead (s : State) (pa n src : Nat) : State × Except Nat (List Byte) :=
  match region pa with
  | .fast | .cap => tierRead s pa n src
  | .mgmt => (s, .ok ((List.range n).map fun i =>
      BitVec.ofNat 8 (s.reg ((pa + i) / 8 * 8) / 256 ^ ((pa + i) % 8))))
  | .host => let (s, bs) := freeBytes (hostRead s pa n) n; (s, .ok bs)
  | .peer => let (s, bs) := freeBytes (sendFrames s false (spans 256 (n / 256 + 2) pa n) []) n; (s, .ok bs)
  | .hole => (s, .ok [])

/-- A write by physical address, as physRead reads. Management registers are written by their own events only. -/
def physWrite (s : State) (pa : Nat) (bs : List Byte) : State :=
  match region pa with
  | .fast => fastWrite s s.stripOf (stripSpans pa bs.length) bs
  | .cap => { s with mem := s.mem.wrList pa bs }
  | .host => hostWrite s pa bs
  | .peer => sendFrames s true (spans 256 (bs.length / 256 + 2) pa bs.length) bs
  | _ => s

end Sys2Proof.Machine
end

