-- ==== Sys2Proof/Machine/Walk.lean ====
section
/-!
DEFINITION. Translation (18_translation R324-R332): the walk of a page table, the checks of a leaf, and the caches.
-/

namespace Sys2Proof.Machine

/-- How a walk ends (R327): a leaf that passed the attribute checks, or the first failure; bad is a strip of a table
that could not be read, at its address (R89, R93). -/
inductive WalkEnd where
  | leaf (l : Leaf)
  | absent
  | attr
  | perm
  | bad (pa : Nat)
deriving DecidableEq, Repr

/-- The checks of R55, R59, R62 and R333 on a leaf entry e that names the frame at pa. -/
def leafChecks (s : State) (e pa : Nat) (big : Bool) (va : Nat) : WalkEnd :=
  let node := slice e 59 5
  let cc := bitOf e 5
  let pin := bitOf e 6
  if region pa = .mgmt then .perm
  else if region pa = .hole then .attr
  else if region pa = .peer ∧ slice pa 32 18 = nodeId s then .attr
  else if node ≠ nodeOf pa then .attr
  else if bitOf e 7 ∧ 16 ≤ node then .attr
  else if cc ∧ (region pa ≠ .fast ∨ ¬ big ∨ ¬ pin) then .attr
  else if region pa = .fast ∧ cc ≠ s.ccFrame pa then .attr
  else .leaf { va := va, big := big, pa := pa, r := bitOf e 2, w := bitOf e 3, x := bitOf e 4, cc := cc, pin := pin,
               node := node }

/-- The levels of R325 from the third argument's list: low bit of the index, bits of the index, alignment of a table that a
pointer of this level names. -/
def levels : List (Nat × Nat × Nat) := [(47, 9, 16), (34, 13, 16), (21, 13, 8), (16, 5, 8)]

/-- The walk from the table at base through the remaining levels (R325-R327). -/
def walkFrom (va : Nat) : List (Nat × Nat × Nat) → Nat → State → State × WalkEnd
  | [], _, s => (s, .attr)
  | (lo, n, al) :: r, base, s =>
    if !inTiers base then (s, .attr)
    else
      match tierRead s (base + 8 * slice va lo n) 8 2 with
      | (s, .error pa) => (s, .bad pa)
      | (s, .ok bs) =>
        let e := bytesToNat bs
        let addr := slice e 8 44 * 256
        if !bitOf e 0 then (s, .absent)
        else if slice e 52 7 ≠ 0 then (s, .attr)
        else if bitOf e 1 then
          if lo = 21 then
            (s, if addr % 2 ^ 21 ≠ 0 then .attr else leafChecks s e addr true (va / 2 ^ 21 * 2 ^ 21))
          else if lo = 16 then
            (s, if addr % 2 ^ 16 ≠ 0 then .attr else leafChecks s e addr false (va / 2 ^ 16 * 2 ^ 16))
          else (s, .attr)
        else if r = [] ∨ slice e 2 6 ≠ 0 ∨ slice e 59 5 ≠ 0 ∨ addr % 2 ^ al ≠ 0 then (s, .attr)
        else walkFrom va r addr s

/-- A walk of the address space of virtual function v (R324): what reading the tables leaves in the error logs, and its end. -/
def walk (s : State) (v va : Nat) : State × WalkEnd :=
  walkFrom (va % 2 ^ 56) levels (slice (s.reg (regAsroot v)) 12 40 * 2 ^ 12) s

namespace Leaf

/-- The leaf maps va. -/
def maps (l : Leaf) (va : Nat) : Bool :=
  if l.big then va / 2 ^ 21 == l.va / 2 ^ 21 else va / 2 ^ 16 == l.va / 2 ^ 16

/-- The physical address of va. -/
def phys (l : Leaf) (va : Nat) : Nat := if l.big then l.pa + va % 2 ^ 21 else l.pa + va % 2 ^ 16

end Leaf

/-- A cache looked up and its entry moved to the front (least recently used last). -/
def lookup (c : List Leaf) (va : Nat) : Option (Leaf × List Leaf) :=
  match c.find? fun l => l.maps va with
  | some l => some (l, l :: c.filter fun x => !x.maps va)
  | none => none

/-- A leaf put at the front of a cache of n entries. -/
def cacheLeaf (n : Nat) (c : List Leaf) (l : Leaf) : List Leaf := (l :: c.filter fun x => !x.maps l.va).take n

/-- The cache without the entries that map va, or without any. -/
def dropLeaf (c : List Leaf) (va : Nat) (all : Bool) : List Leaf := if all then [] else c.filter fun l => !l.maps va

/-- The physical address that a distributor, a BAR or the tail of a queue finds for va in the address space of v, if the page
allows the access: 0 read, 1 write. -/
def vfPhys (s : State) (v va acc : Nat) : State × Option Nat :=
  match walk s v va with
  | (s, .leaf l) => (s, if (acc = 0 ∧ l.r) ∨ (acc = 1 ∧ l.w) then some (l.phys (va % 2 ^ 56)) else none)
  | (s, _) => (s, none)

end Sys2Proof.Machine
end

