-- ==== Sys2Proof/Machine/Notify.lean ====
section
/-!
DEFINITION. What the device tells the outside: driver events (21_host R369), replay records (R371), event records of a task
(15_conductor R281), machine-check logs (19_stops R351).
-/

namespace Sys2Proof.Machine

/-- A driver event (R369): its kind, the field of bits 47:32, the field of bits 31:0 and word 1. -/
def devEvent (s : State) (kind named low payload : Nat) : State :=
  let lgn := s.reg regDevqbase % 16
  let ptr := s.reg regDevqptr
  let head := slice ptr 32 32
  let tail := ptr % 2 ^ 32
  if lgn < 4 ∨ 2 ^ lgn ≤ (tail + 2 ^ 32 - head) % 2 ^ 32 then { s with dist := { s.dist with devLost := true } }
  else
    let w0 := kind * 2 ^ 56 + b2n s.dist.devLost * 2 ^ 55 + named % 2 ^ 16 * 2 ^ 32 + low % 2 ^ 32
    let pa := slice (s.reg regDevqbase) 12 40 * 2 ^ 12 + 16 * (tail % 2 ^ lgn)
    let s := if region pa = .host then hostWrite s pa (wordsToBytes [w0, payload]) else s
    let s := s.setReg regDevqptr (head * 2 ^ 32 + (tail + 1) % 2 ^ 32)
    { s with dist := { s.dist with devLost := false,
                                   hostOut := s.dist.hostOut ++ [{ link := 0, addr := 0, data := [], msix := true }] } }

/-- A replay record (R371): its kind, stamped beat and words 1 to 3. A ring outside the tiers receives nothing (log entry 10). -/
def replay (s : State) (kind beat : Nat) (ws : List Nat) : State :=
  let base := s.reg regRlbase
  if !bitOf base 0 then s
  else
    let n := 2 ^ (slice base 1 4 + 10)
    let tail := s.reg regRlptr % 2 ^ 32
    let pa := slice base 12 40 * 2 ^ 12 + 32 * (tail % n)
    let ovf := bitOf (s.reg regRlptr) 63 || s.dist.lapped || decide (n ≤ tail)
    let s := if inTiers pa then physWrite s pa (wordsToBytes ((kind * 2 ^ 48 + beat % 2 ^ 48) :: ws)) else s
    let s := if tail + 1 = 2 ^ 32 then { s with dist := { s.dist with lapped := true } } else s
    s.setReg regRlptr (b2n ovf * 2 ^ 63 + (tail + 1) % 2 ^ 32)

/-- An event record sent to the task of key k (R281): sender, status, count, tag. -/
def pushEvent (s : State) (k src status count tag : Nat) : State :=
  s.modTask k fun t =>
    if 32 ≤ t.evq.length then { t with evLost := true }
    else
      let r := 2 ^ 63 + src * 2 ^ 59 + b2n t.evLost * 2 ^ 58 + status * 2 ^ 48 + count % 2 ^ 16 * 2 ^ 32 + tag % 2 ^ 32
      { t with evq := t.evq ++ [r], evLost := false }

/-- The machine-check log of core c (R351): written while its valid bit is 0. -/
def logMachineCheck (s : State) (c src strip pa syn : Nat) : State :=
  let a := regMclog c
  if bitOf (s.reg a) 63 then s
  else
    let w := 2 ^ 63 + src * 2 ^ 60 + stripChan strip * 2 ^ 50 + stripBank strip * 2 ^ 46 + stripRow strip * 2 ^ 30
      + stripPos strip * 2 ^ 25
    ((s.setReg a w).setReg (a + 8) pa).setReg (a + 16) (syn % 2 ^ 32)

end Sys2Proof.Machine
end

