-- ==== Sys2Proof/Machine/CutRecord.lean ====
section
/-!
DEFINITION. The cut record of a task (19_stops R343, R344): its bytes, where they stand, and what each of them sets again when
the gang resumes.
-/

namespace Sys2Proof.Machine

/-- The value of a list of numbers packed w bits each, first lowest. -/
def packBits (w : Nat) : List Nat → Nat
  | [] => 0
  | x :: r => x % 2 ^ w + 2 ^ w * packBits w r

/-- The program counter, serial, records taken, passes remaining and cursor of an engine (R344). A count not popped yet leaves
the engine before its header (log entry 11). -/
def engPos (x : EngSt) : List Nat :=
  match x.phase with
  | .count => [x.pc, (x.serial + 2 ^ 32 - 1) % 2 ^ 32, x.taken, 0, x.cursor]
  | .body => [x.pc, x.serial, x.taken, x.passes, x.cursor]
  | _ => [x.pc, x.serial, x.taken, 0, x.cursor]

/-- The wait flags of an engine (R344). -/
def waitFlags : Wait → Nat
  | .beat _ => 1
  | .tokens => 2
  | .waitt _ => 4
  | _ => 0

/-- The four words of an engine at position pos. -/
def engWords (x : EngSt) (pos : List Nat) : List Nat :=
  [pos.getD 0 0 % 2 ^ 56, pos.getD 1 0 % 2 ^ 32 * 2 ^ 32 + pos.getD 2 0 % 2 ^ 32,
   x.count % 2 ^ 32 * 2 ^ 32 + pos.getD 3 0 % 2 ^ 16 * 2 ^ 16 + waitFlags x.wait, pos.getD 4 0 % 2 ^ 48]

/-- The commands of a task that a cut has discarded, by seq, with their positions. -/
def discarded (s : State) (k : Nat) : List (Nat × List Nat) :=
  let c := s.chan (k / 2)
  ((c.again.filter fun x => x.bank == k % 2).map fun x => (x.seq, x.pos)) ++
    (((s.die (dieOf (k / 2))).ctxAgain.filter fun x => tkey x.core x.bank == k).map fun x => (x.seq, x.pos)) ++
    (match (s.task k).c.spc with
      | some x => if x.failed then [(x.seq, x.pos)] else []
      | none => []) ++
    (match (s.task k).c.rdc with
      | some w => [(w.headD 0, (s.task k).c.rdcAt)]
      | none => [])

/-- The first command of C's stream that had not started (R106, R341): the discarded one whose token comes first. -/
def firstDiscarded : List (Nat × List Nat) → Option (Nat × List Nat)
  | [] => none
  | x :: r =>
    match firstDiscarded r with
    | none => some x
    | some y => if y.1 < x.1 then some y else some x

/-- The position of engine e of task k in its record; M inside an mtile stands at it (R244, log entry 66). -/
def recordPos (s : State) (k : Nat) (e : Eng) : List Nat :=
  match e with
  | .c =>
    match firstDiscarded (discarded s k) with
    | some x => x.2
    | none => engPos (s.eng k .c)
  | .m =>
    match (s.task k).m.run with
    | some r => engPos r.at_
    | none => engPos (s.eng k .m)
  | _ => engPos (s.eng k e)

/-- The token sequence count of an engine at that position: C has issued what stands before it (R165, R344). -/
def recordCount (s : State) (k : Nat) (e : Eng) : Nat :=
  match e with
  | .c =>
    match firstDiscarded (discarded s k) with
    | some x => (x.1 + 2 ^ 32 - 1) % 2 ^ 32
    | none => (s.eng k .c).count
  | _ => (s.eng k e).count

/-- A path record in the layout of the record. -/
def pathWord (p : PathRec) : Nat := 2 ^ 63 + p.kind * 2 ^ 61 + p.target / 2 % 2 ^ 55

/-- A count, then entries, each cut to w bits. -/
def counted (w : Nat) (l : List Nat) : List Nat := l.length :: l.map fun x => x % 2 ^ w

def halted (s : State) (k : Nat) : Bool := (s.core (k / 2)).halted

/-- The five engines in tag order. -/
def engines : List Eng := [.s, .c, .v, .m, .a]

/-- The header and the engine block of a record: offsets 0 to 0x0FFF. -/
def recordHead (s : State) (g : Gang) (k : Nat) : Mem :=
  let t := s.task k
  let c := s.core (k / 2)
  let mine := t.index == g.cut.orig
  let m : Mem := []
  let code := if halted s k then 278 else g.cut.code
  let m := m.putWords 0 [code * 2 ^ 55 + b2n (!mine && !g.cut.pre) * 2 ^ 54 + b2n g.cut.pre * 2 ^ 53 + g.cut.orig % 2 ^ 10 * 2 ^ 43,
    if mine then g.cut.va else 0, if mine then g.cut.imm % 2 ^ 15 else 0, t.csr.tbb, g.cut.at_.beat % 2 ^ 48,
    g.cut.at_.off * 2 ^ 32 + t.v.shadows.length % 2 ^ 8 * 2 ^ 8 + b2n g.rows]
  let m := engines.foldl (fun m e =>
    m.putWords (0x100 + 32 * e.tag) (if halted s k then [0, 0, 0, 0] else engWords { s.eng k e with count := recordCount s k e } (recordPos s k e))) m
  let m := m.putWords 0x200 ((t.recs.take 64).map pathWord)
  let m := engines.foldl (fun m e => m.putWords (0x400 + 40 * e.tag) (counted 16 ((Sparse.rd [] t.repn e.tag).take 4))) m
  let m := m.putWords 0x500 (counted 64 ((t.hq.take 8).map BitVec.toNat))
  let m := m.putWords 0x580 ((c.fq.take 8).length :: (match t.m.run with | some r => r.f | none => 0) :: (c.fq.take 8).map BitVec.toNat)
  let m := m.putWords 0x600 ((List.range 32).map fun i => (Sparse.rd 0 t.sreg i).toNat)
  let m := m.putWords 0x700 [packBits 2 ((List.range 8).map fun i => if i = 0 then 1 else Sparse.rd 0 t.pred i)]
  let m := m.putWords 0x800 ((List.range 16).map fun i => (Sparse.rd 0 t.creg i).toNat)
  let m := m.putWords 0x880 ((List.range 16).map fun i => (Sparse.rd 0 t.areg i).toNat)
  let m := m.putWords 0x900 ((List.range 16).map fun i => Sparse.rd 0 t.sf i)
  let m := m.putWords 0x980 [t.csr.win, t.csr.vst, t.csr.jst, t.csr.npth, t.csr.asts, t.csr.bufsel]
  let m := m.putWords 0xA00 (counted 64 (t.evq.take 32))
  let m := m.putWords 0xC00 ((List.range 32).map fun i => (Sparse.rd 0 t.kreg i).toNat)
  let m := (List.range 8).foldl (fun m i => m.wrN (0xD00 + 64 * i) 64 (Sparse.rd 0 t.pat i)) m
  m.putWords 0xF00 ((List.range 32).map fun i => (Sparse.rd 0 c.easel i).toNat)

/-- Work that stands part done: offsets 0x1000 to 0x13FF. -/
def recordWork (s : State) (k : Nat) (m : Mem) : Mem :=
  let t := s.task k
  let stopped := (t.c.cmds.filter fun x => x.failed).take 8
  let m := m.putWords 0x1000 (stopped.flatMap fun x => [2 ^ 63 + x.pc % 2 ^ 56, x.next])
  let blocks := (((List.range 16).flatMap fun i => (s.stack i).red).filter fun b => tkey b.core b.bank == k).take 4
  let m := m.putWords 0x1080 (blocks.flatMap fun b => [2 ^ 63 + b.seq % 2 ^ 32, b.done])
  let mw := (match t.m.run with | some r => 2 ^ 33 + r.step / r.per % 2 ^ 32 | none => 0) + b2n t.m.kept.isSome * 2 ^ 32
  let aw := match t.a.ins with | some i => 2 ^ 63 + i.win % 2 ^ 32 | none => 0
  m.putWords 0x10C0 [mw, aw]

/-- The registers, queues and row lines: offsets 0x1400 to 0x1_3FFF. -/
def recordRegs (s : State) (g : Gang) (k : Nat) (m : Mem) : Mem :=
  let t := s.task k
  let ch := s.chan (k / 2)
  let m := (List.range 16).foldl (fun m i =>
    m.wrN (0x1400 + 256 * i) 256 (if i = 0 then packBits 2 (List.replicate 1024 1) else Sparse.rd 0 t.mask i)) m
  let m := if !g.rows then m else
    m.putWords 0x2400 ((List.range 128).map fun x =>
      match ch.saved.find? fun l => l.x == x with
      | some l => 2 ^ 63 + b2n l.held * 2 ^ 62 + b2n l.w * 2 ^ 61 + l.row % 2 ^ 16
      | none => 0)
  let m := m.putWords 0x2800 ((t.tlb.pins.take 512).flatMap fun l =>
    [l.va / 2 ^ 21 % 2 ^ 35 * 2 ^ 21,
     l.node * 2 ^ 59 + l.pa / 2 ^ 21 % 2 ^ 31 * 2 ^ 21 + b2n l.cc * 4 + b2n l.w * 2 + b2n l.r])
  let m := m.putWords 0x4800 ((List.range 8).map fun i => (Sparse.rd [] t.opq i).length)
  let m := m.putWords 0x4840 ((List.range 4).map fun i => (Sparse.rd [] t.outq i).length)
  let queue (q : Sparse (List Mem)) (o : Nat) (n : Nat) (m : Mem) : Mem :=
    (List.range n).foldl (fun m i =>
      ((List.range 4).foldl (fun m j => m.bulk (o + 4096 * i + 1024 * j) 1024 ((Sparse.rd [] q i).getD j [])) m)) m
  queue t.outq 0x10000 4 (queue t.opq 0x8000 8 m)

/-- The kind, number and size in bytes of a destination that keeps a shadow (R342). -/
def shadowDst : VDst → Option (Nat × Nat × Nat)
  | .entry n => some (0, n, 1024)
  | .jreg n => some (1, n, 2048)
  | .mask n => some (2, n, 256)
  | _ => none

/-- The shadows and the bulk storage: from offset 0x1_4000. -/
def recordBulk (s : State) (k : Nat) (m : Mem) : Mem :=
  let t := s.task k
  let c := s.core (k / 2)
  let ch := s.chan (k / 2)
  let m := (t.v.shadows.take 20).zipIdx.foldl (fun m x =>
    let f := x.1.1
    let o := 0x14000 + 6208 * x.2
    match shadowDst f.dst with
    | some (kind, n, size) =>
      ((m.putWords o [kind * 2 ^ 62 + n, f.due]).wrN (o + 64) 128 f.els).bulk (o + 192) size x.1.2
    | none => m) m
  let m := m.bulk 0x34000 0x10000 t.jreg
  let m := m.bulk 0x44000 0x10000 c.acc
  let m := m.bulk 0x54000 0x10000 ch.wells
  let m := m.putWords 0x64000 ((List.range 16).map fun i => Sparse.rd 0 ch.scalars i)
  let m := m.bulk 0x68000 0x4000 c.palette
  m.bulk 0x80000 0x80000 c.canvas

/-- The record of task k of gang g: 1 MiB (R344). -/
def recordImage (s : State) (g : Gang) (k : Nat) : Mem :=
  recordBulk s k (recordRegs s g k (recordWork s k (recordHead s g k)))

/-- Where the record of task k of virtual function v stands; nothing where CUTBASE is 0 or names an area outside both tiers
(R343). -/
def recordAt (s : State) (v k : Nat) : Option Nat :=
  let base := slice (s.reg (regCutbase v)) 31 21 * 2 ^ 31
  if base = 0 ∨ ¬ inTiers base ∨ ¬ inTiers (base + 1536 * 2 ^ 20 - 1) ∨ region base ≠ region (base + 1536 * 2 ^ 20 - 1) then none
  else some (base + k * 0x100000)

/-- The record written at pa. -/
def writeRecord (s : State) (pa : Nat) (m : Mem) : State :=
  if region pa = .cap then { s with mem := Sparse.paste s.mem pa 0x100000 m.canon }
  else physWrite s pa (m.rdList 0 0x100000)

/-- The strips of a record in the fast tier from offset o, each through the ECC check; one that cannot be read is free (R89). -/
def readStrips32 : List (Nat × Nat) → Nat → State → Mem → State × Mem
  | [], _, s, m => (s, m)
  | x :: r, o, s, m =>
    match fastRead s s.stripOf 2 [x] with
    | (s, .ok bs) => readStrips32 r (o + 32) s (m.wrList o bs)
    | (s, .error _) =>
      let z := freeBytes s 32
      readStrips32 r (o + 32) z.1 (m.wrList o z.2)

/-- The record as it stands at pa. -/
def readRecord (s : State) (pa : Nat) : State × Mem :=
  if region pa = .cap then (s, Sparse.window s.mem pa 0x100000)
  else readStrips32 (stripSpans pa 0x100000) 0 s []

/-! ### Restoring -/

/-- The queue of a count and entries of w bits at offset o, at most n. -/
def getCounted (m : Mem) (o n w : Nat) : List Nat :=
  (m.getWords (o + 8) (Nat.min n (m.rdN o 8))).map fun x => x % 2 ^ w

/-- An engine as its four words set it. Words as the cut wrote them leave the engine where it stopped (log entry 11); a program
counter that the driver moved inside the running block stays in its body, any other stands before a header. Tokens that come after
the count are no longer taken. -/
def restoreEng (x : EngSt) (old new : List Nat) : EngSt :=
  let x := { x with stopped := false, latched := none, text := none,
                    wait := match x.wait with
                      | .gbar sc ar => .gbar sc ar
                      | _ => .none }
  if new = old then x
  else
    let pc := new.getD 0 0 % 2 ^ 56
    let count := new.getD 2 0 / 2 ^ 32
    let inBody := decide (x.body ≤ pc) && decide (pc ≤ x.body + 2 * x.len) && decide (x.len ≠ 0)
    { x with phase := if inBody then .body else .header, pc := pc, wait := .none
             serial := new.getD 1 0 / 2 ^ 32, taken := new.getD 1 0 % 2 ^ 32, count := count
             opn := x.opn.filter fun y => decide ((count + 2 ^ 32 - y) % 2 ^ 32 < 2 ^ 31)
             passes := slice (new.getD 2 0) 16 16, cursor := new.getD 3 0 % 2 ^ 48 }

/-- WIN as a record sets it (R344). -/
def restoreWin (w : Nat) : Nat := if w % 128 = 0 then 1 else if 64 < w % 128 then 64 else w % 128

/-- A file of n words at offset o as a map. -/
def getFile (m : Mem) (o n : Nat) : Sparse Word :=
  Sparse.ofFn 0 n fun i => BitVec.ofNat 64 (m.rdN (o + 8 * i) 8)

/-- Elements of 2 bits, the code 11 read as U (R164). -/
def fixMask (n v : Nat) : Nat :=
  packBits 2 ((List.range n).map fun i => if v / 4 ^ i % 4 = 3 then 2 else v / 4 ^ i % 4)

/-- The commands of C under way as the entries of a record (address, offset) set them, each stopped command by the first entry of its
address; the tokens of those whose entry is gone; the entries that no command has. -/
def restoreCmds : List CCmd → List (Nat × Nat) → List CCmd × List Nat × List (Nat × Nat)
  | [], es => ([], [], es)
  | c :: r, es =>
    match es.find? fun e => c.failed && e.1 == c.pc % 2 ^ 56 with
    | some e =>
      let x := restoreCmds r (es.erase e)
      ({ c with failed := false, next := e.2 } :: x.1, x.2)
    | none =>
      let x := restoreCmds r es
      if c.failed then (x.1, c.seq :: x.2.1, x.2.2) else (c :: x.1, x.2)

/-- The stopped address commands of a record. -/
def stoppedEntries (m : Mem) : List (Nat × Nat) :=
  (List.range 8).filterMap fun i =>
    let w := m.rdN (0x1000 + 16 * i) 8
    if bitOf w 63 then some (w % 2 ^ 56, m.rdN (0x1008 + 16 * i) 8) else none

/-- M as a record sets it (R244, R344). Inside an mtile M goes on with the one that ran, unless the driver moved M: then, and where
none ran, the mtile at M's position takes up the word and the reduction. Outside, M stands before the mtile that ran. -/
def restoreMatrix (t : Task) (moved : Bool) (m : Mem) : Task :=
  let w := m.rdN 0x10C0 8
  let word := m.rdN 0x588 8
  let u : MUnit :=
    { t.m with
      preempt := false, waiting := false, again := none
      kept := if bitOf w 32 then t.m.kept.map fun c => { c with data := Sparse.window m (0x44000 + 32768 * c.ab) 32768 } else none }
  let away : MUnit := { u with run := none, again := if bitOf w 33 then some (word, w % 2 ^ 32) else none }
  match t.m.run with
  | none => { t with m := away }
  | some r =>
    if moved then { t with m := away }
    else if bitOf w 33 then
      { t with m := { u with run := some { r with f := word, step := w % 2 ^ 32 * r.per, buf := none, recheck := true } } }
    else { t with m := away, engs := Sparse.wr {} t.engs (Eng.tag .m) { r.at_ with opn := (Sparse.rd {} t.engs (Eng.tag .m)).opn } }

/-- The shadows of a record (R342): destination, cycles that remain, elements, contents before the landing. The size of the elements
is that of the result that landed; of an entry that the driver added it is 4 bytes, 8 in a j register (log entry 67). -/
def restoreShadows (old : List (Flight × Mem)) (m : Mem) : List (Flight × Mem) :=
  (List.range (Nat.min 20 (slice (m.rdN 0x28 8) 8 8))).map fun i =>
    let o := 0x14000 + 6208 * i
    let w := m.rdN o 8
    let dst := match w / 2 ^ 62 with
      | 0 => VDst.entry (w % 2 ^ 10)
      | 1 => VDst.jreg (w % 2 ^ 5)
      | _ => VDst.mask (w % 2 ^ 4)
    let size := match old[i]? with
      | some x => x.1.esz
      | none => if w / 2 ^ 62 = 1 then 8 else 4
    ({ dst := dst, due := m.rdN (o + 8) 8, els := m.rdN (o + 64) 128, esz := size }, Sparse.window m (o + 192) 2048)

/-- The registers and queues of a task as its record m sets them; old is the record as the cut wrote it. -/
def restoreTask (t : Task) (old m : Mem) : Task :=
  let t := restoreMatrix t (old.getWords 0x160 4 != m.getWords 0x160 4) m
  let t := engines.foldl (fun t e =>
    let x := restoreEng (Sparse.rd {} t.engs e.tag) (old.getWords (0x100 + 32 * e.tag) 4) (m.getWords (0x100 + 32 * e.tag) 4)
    { t with engs := Sparse.wr {} t.engs e.tag x }) t
  let paths := (m.getWords 0x200 64).filter fun w => bitOf w 63
  let recs := paths.zipIdx.map fun w =>
    { kind := slice w.1 61 2, target := w.1 % 2 ^ 55 * 2, serial := (t.recs.getD w.2 {}).serial : PathRec }
  let cmds := restoreCmds t.c.cmds (stoppedEntries m)
  let c : EngSt := Sparse.rd {} t.engs (Eng.tag .c)
  let t := { t with engs := Sparse.wr {} t.engs (Eng.tag .c) { c with opn := c.opn.filter fun x => !cmds.2.1.contains x } }
  let a : EngSt := Sparse.rd {} t.engs (Eng.tag .a)
  let t := match t.a.ins with
    | some i =>
      if bitOf (m.rdN 0x10C8 8) 63 then t
      else { t with engs := Sparse.wr {} t.engs (Eng.tag .a) { a with count := (i.seq + 2 ^ 32 - 1) % 2 ^ 32 } }
    | none => t
  let ks := Sparse.ofFn (0 : Word) 160 fun i =>
    let o := 0xC00 + 8 * (i % 32)
    if m.rdN o 8 = old.rdN o 8 then Sparse.rd 0 t.kreg i else BitVec.ofNat 64 (m.rdN o 8 % 2 ^ 36)
  { t with
    recs := recs
    repn := engines.foldl (fun r e => Sparse.wr [] r e.tag (getCounted m (0x400 + 40 * e.tag) 4 16)) t.repn
    hq := (getCounted m 0x500 8 64).map (BitVec.ofNat 64)
    sreg := Sparse.wr 0 (getFile m 0x600 32) 0 0
    pred := Sparse.ofFn 0 8 fun i => if i = 0 then 0 else fixMask 1 (slice (m.rdN 0x700 8) (2 * i) 2)
    creg := getFile m 0x800 16
    areg := getFile m 0x880 16
    sf := Sparse.ofFn 0 16 fun i => m.rdN (0x900 + 8 * i) 8 % 2 ^ 8
    csr := { t.csr with win := restoreWin (m.rdN 0x980 8), vst := m.rdN 0x988 8 % 2 ^ 3, jst := Nat.land (m.rdN 0x990 8) 0x6FF,
                        npth := m.rdN 0x998 8 % 2 ^ 16, asts := m.rdN 0x9A0 8 % 2 ^ 3, bufsel := m.rdN 0x9A8 8 % 2 ^ 8 }
    evq := getCounted m 0xA00 32 64
    kreg := ks
    pat := Sparse.ofFn 0 8 fun i => m.rdN (0xD00 + 64 * i) 64
    mask := Sparse.ofFn 0 16 fun i => if i = 0 then 0 else fixMask 1024 (m.rdN (0x1400 + 256 * i) 256)
    opq := Sparse.ofFn [] 8 fun i =>
      (List.range (Nat.min 4 (m.rdN (0x4800 + 8 * i) 8 % 8))).map fun j => Sparse.window m (0x8000 + 4096 * i + 1024 * j) 1024
    outq := Sparse.ofFn [] 4 fun i =>
      (List.range (Nat.min 4 (m.rdN (0x4840 + 8 * i) 8 % 8))).map fun j => Sparse.window m (0x10000 + 4096 * i + 1024 * j) 1024
    jreg := Sparse.window m 0x34000 0x10000
    tlb := { t.tlb with
      pins := ((List.range 512).map fun i =>
        let a := m.rdN (0x2800 + 16 * i) 8
        let b := m.rdN (0x2808 + 16 * i) 8
        { va := a / 2 ^ 21 % 2 ^ 35 * 2 ^ 21, big := true, pa := b / 2 ^ 21 % 2 ^ 31 * 2 ^ 21, r := bitOf b 0, w := bitOf b 1,
          cc := bitOf b 2, pin := true, node := slice b 59 5 : Leaf }).filter fun l => l.r || l.w || l.pa != 0 || l.va != 0 }
    a := { t.a with
      ins := match t.a.ins with
        | some i =>
          let w := m.rdN 0x10C8 8 % 2 ^ 32
          if bitOf (m.rdN 0x10C8 8) 63 then some { i with win := w, val := if i.op = 9 then 64 * w else i.val } else none
        | none => none
      from_ := if t.a.ins.isNone && bitOf (m.rdN 0x10C8 8) 63 then some (m.rdN 0x10C8 8 % 2 ^ 32) else none }
    c := { t.c with cmds := cmds.1 }
    resume := cmds.2.2
    v := { t.v with shadows := restoreShadows t.v.shadows m } }

/-- The storage of a core and its pseudo-channel as the record sets it. -/
def restoreCore (s : State) (c : Nat) (m : Mem) : State :=
  let s := s.modCore c fun x =>
    { x with
      fq := ((m.getWords 0x590 (Nat.min 8 (m.rdN 0x580 8))).map (BitVec.ofNat 64))
      easel := getFile m 0xF00 32
      acc := Sparse.window m 0x44000 0x10000
      palette := Sparse.window m 0x68000 0x4000
      canvas := Sparse.window m 0x80000 0x80000 }
  s.modChan c fun x =>
    { x with wells := Sparse.window m 0x54000 0x10000
             scalars := Sparse.ofFn 0 16 fun i => m.rdN (0x64000 + 8 * i) 8 % 2 ^ 32 }

end Sys2Proof.Machine
end

