-- ==== Sys2Proof/Machine/Race.lean ====
section
/-!
DEFINITION. The determinism race checker (19_stops R353): the instructions it holds, the order that tokens, fences, barriers,
beats and timed edges give them, and the test of a new instruction against them.
-/

namespace Sys2Proof.Machine

/-- The storage spaces of a region: the scratchpad, underfile, Canvas and Palette of a core. -/
def spadSpace (c : Nat) : Nat := 4 * c
def ufSpace (c : Nat) : Nat := 4 * c + 1
def canvasSpace (c : Nat) : Nat := 4 * c + 2
def paletteSpace (c : Nat) : Nat := 4 * c + 3

/-- The 32-byte units of n bytes from a in a space. -/
def unitRange (sp a n : Nat) (w : Bool) : List (Nat × Nat × Nat × Bool) :=
  if n = 0 then [] else [(sp, a / 32, (a + n - 1) / 32, w)]

/-- Two ranges overlap and one of them writes. -/
def rangesClash (x y : Nat × Nat × Nat × Bool) : Bool :=
  x.1 == y.1 && decide (x.2.1 ≤ y.2.2.1) && decide (y.2.1 ≤ x.2.2.1) && (x.2.2.2 || y.2.2.2)

/-- The updates of a pair of A instructions to overlapping targets do not race (R250, R255): one engine's in stream order, or two
of one exempt kind. Kinds from 1000 on are updates that no other engine's update is exempt against. -/
def updatesOrdered (x y : RaceEnt) : Bool :=
  x.exempt != 0 && y.exempt != 0 && (x.task == y.task || (x.exempt == y.exempt && decide (x.exempt < 1000)))

/-- One of the ranges a and one of the ranges b overlap, and one of the two writes. -/
def anyClash (a b : List (Nat × Nat × Nat × Bool)) : Bool := a.any fun x => b.any fun y => rangesClash x y

/-- The instructions x (earlier) and y race (R353): where the targets of two updates meet, unless R250 or R255 excuses them, and
where any other ranges of theirs do. -/
def races (x y : RaceEnt) : Bool :=
  !y.pre.contains x.id
    && (anyClash x.rgn (y.rgn ++ y.tgt) || anyClash x.tgt y.rgn || (anyClash x.tgt y.tgt && !updatesOrdered x y))

/-- The union of two lists of numbers. -/
def joinNats (a b : List Nat) : List Nat := a ++ b.filter fun x => !a.contains x

namespace Gang

/-- What is ordered before the current position of engine e of task k. -/
def knows (g : Gang) (k : Nat) (e : Eng) : List Nat := Sparse.rd [] g.known (8 * k + e.tag)

def learn (g : Gang) (k : Nat) (e : Eng) (ids : List Nat) : Gang :=
  { g with known := Sparse.wr [] g.known (8 * k + e.tag) (joinNats (g.knows k e) ids) }

/-- The instructions that the token word w of task k orders: its own and those before its start. -/
def tokenIds (g : Gang) (k : Nat) (w : Word) : List Nat :=
  match g.race.find? fun x => x.task == k && x.eng.tag == slice w.toNat 32 3 && x.seq == w.toNat % 2 ^ 32 && x.seq != 0 with
  | some x => x.id :: x.pre
  | none => []

/-- The instructions of engine e of task k, with what is ordered before them. -/
def engineIds (g : Gang) (k : Nat) (e : Eng) : List Nat :=
  (g.race.filter fun x => x.task == k && x.eng == e).foldl (fun l x => joinNats l (x.id :: x.pre)) []

/-- The tasks that have not ended. -/
def live (g : Gang) : List Nat := g.tasks.filter fun k => !g.gone.contains k

/-- The engines of the gang's tasks that have not ended. -/
def seats (g : Gang) : List (Nat × Eng) := g.live.flatMap fun k => engines.map fun e => (k, e)

/-- The checker without the instructions that are ordered before the position of every engine of the gang. -/
def trim (g : Gang) : Gang :=
  { g with race := g.race.filter fun x => !(g.seats.all fun y => (g.knows y.1 y.2).contains x.id) }

end Gang

/-- What a wait on the token words ws tells engine e of task k. -/
def learnTokens (s : State) (k : Nat) (e : Eng) (ws : List Word) : State :=
  match s.gangOf k with
  | some g => if g.det then s.modGang g.id fun g => (g.learn k e (ws.flatMap (g.tokenIds k))).trim else s
  | none => s

/-- What an observed beat b tells engine e of task k: the DRAM commands of the core of earlier beats, the transfers into it whose
guard lies before, and what is ordered before the start of these (R300, R301). -/
def learnBeat (s : State) (k : Nat) (e : Eng) (b : Nat) : State :=
  match s.gangOf k with
  | some g =>
    if g.det then
      let ids := (g.race.filter fun x =>
        match x.beat with
        | some (c, n) => c == k / 2 && decide (n ≤ b)
        | none => false).flatMap fun x => x.id :: x.pre
      s.modGang g.id fun g => (g.learn k e ids).trim
    else s
  | none => s

/-- What a fence that names the engines of mask orders before S of task k (R299). -/
def learnFence (s : State) (k mask : Nat) : State :=
  match s.gangOf k with
  | some g =>
    if g.det then
      let ids := ([Eng.c, .v, .m, .a].filter fun e => bitOf mask e.tag).flatMap (g.engineIds k)
      s.modGang g.id fun g => (g.learn k .s ids).trim
    else s
  | none => s

/-- S of task k arrives at its n-th barrier (R283): what it knows then is kept for the tasks that leave the barrier (R303). -/
def meetBarrier (s : State) (k n : Nat) : State :=
  match s.gangOf k with
  | some g => if g.det then s.modGang g.id fun g => { g with met := (k, n, g.knows k .s) :: g.met.take 4096 } else s
  | none => s

/-- What the n-th barrier orders before S of task k: what was ordered before the arrival of each task at it (R303). -/
def learnBarrier (s : State) (k n : Nat) : State :=
  match s.gangOf k with
  | some g =>
    if g.det then
      let ids := (g.met.filter fun x => x.2.1 == n).flatMap fun x => x.2.2
      s.modGang g.id fun g => (g.learn k .s ids).trim
    else s
  | none => s

/-- Transfer x reaches one of the cores of a timed access, and every access to that core comes at the distance from its send point
that orders it (R148). -/
def timedBefore (s : State) (at_ : List (Nat × Point)) (x : RaceEnt) : Bool :=
  match x.timed with
  | none => false
  | some (c, p, need) =>
    let l := at_.filter fun y => y.1 == c
    !l.isEmpty && l.all fun y => decide (need ≤ s.delta p y.2)

/-- What S knows when it emits the record of block serial n, kept for the engines that take it (R298). -/
def shareRecord (s : State) (k n : Nat) : State :=
  match s.gangOf k with
  | some g => if g.det then s.modGang g.id fun g => { g with shown := (k, n, g.knows k .s) :: g.shown.take 4096 } else s
  | none => s

/-- What the record of block serial n tells engine e of task k. -/
def learnRecord (s : State) (k : Nat) (e : Eng) (n : Nat) : State :=
  match s.gangOf k with
  | some g =>
    if g.det then
      match g.shown.find? fun x => x.1 == k && x.2.1 == n with
      | some x => s.modGang g.id fun g => (g.learn k e x.2.2).trim
      | none => s
    else s
  | none => s

/-- An instruction put into the checker of its gang, with what is ordered before its start (also every instruction of its
engine, where all is set: the marks of R207 and R241). -/
def enterRace (g : Gang) (x : RaceEnt) (all : Bool) : Gang :=
  let pre := if all then joinNats x.pre (g.engineIds x.task x.eng) else x.pre
  { g with race := g.race ++ [{ x with id := g.raceNext, pre := pre }], raceNext := g.raceNext + 1 }

end Sys2Proof.Machine
end

