-- ==== Sys2Proof/Machine/Ops.lean ====
section
/-!
DEFINITION. The operations that the meanings share: taking a cause and the cut that follows, and the resume (19_stops R340-R348);
tokens, issue and retirement (02 R37, R38; 09 R165; 15 R258, R259); leaving a block and the path records (02 R28-R33); pieces of
memory accesses (07 R125).
-/

namespace Sys2Proof.Machine

/-! ### Row lines -/

/-- A row line leaves its slot with write-back (R52, R108). -/
def writeBack (s : State) (p x : Nat) : State :=
  match Sparse.rd none (s.chan p).slots x with
  | none => s
  | some l =>
    let s := { s with mem := Sparse.paste s.mem (32 * stripAt p l.row (x / 8) 0) 1024 l.data }
    s.modChan p fun c => { c with slots := Sparse.wr none c.slots x none }

/-- Every row line of pseudo-channel p released with write-back. -/
def writeBackAll (s : State) (p : Nat) : State := (List.range 128).foldl (fun s x => writeBack s p x) s

/-- The row lines of pseudo-channel p, as a cut record keeps them (R344). -/
def openRows (s : State) (p : Nat) : List SavedRow :=
  (List.range 128).filterMap fun x =>
    (Sparse.rd none (s.chan p).slots x).map fun l => { x := x, row := l.row % 2 ^ 16, w := l.w, held := l.held }

/-- The open row lines of the home pseudo-channel of task k are kept for its record and released with write-back (R348). -/
def releaseRows (s : State) (k : Nat) : State :=
  match openRows s (k / 2) with
  | [] => s
  | rows =>
    writeBackAll (s.modChan (k / 2) fun c =>
      { c with saved := (c.saved.filter fun y => rows.all fun z => z.x != y.x) ++ rows }) (k / 2)

/-! ### Taking a cause -/

/-- The row lines of the tasks of gang g are released at its detach point (R348); those on a fenced die are lost (R318). -/
def releaseGang (s : State) (g : Gang) : State :=
  (g.live.filter fun k => !(s.die (dieOf (k / 2))).fenced).foldl releaseRows s

/-- The gang of task k detaches with a cause (R340): the detach point is where its die now stands. A gang that is already
detaching keeps its first cause. Only a failed translation records its address (R380). -/
def detach (s : State) (k code va imm : Nat) : State :=
  match s.gangOf k with
  | none => s
  | some g =>
    if g.st = .attached then
      let named := decide (code = 150) || (decide (168 ≤ code) && decide (code < 240))
      (releaseGang s g).modGang g.id fun g =>
        { g with st := .detaching,
                 cut := { code := code, orig := (s.task k).index, va := if named then va else 0, imm := imm, at_ := s.now (dieOf (k / 2)), idx := s.entryIndex (s.die (dieOf (k / 2))).beat,
                          tick2 := (s.die (dieOf (k / 2))).tick2 } }
    else s

/-- A cause raised for task k: it is held while a transition window runs on the die (R362). -/
def raiseCause (s : State) (k code va imm : Nat) : State :=
  let d := dieOf (k / 2)
  match (s.die d).power.window with
  | some _ => s.modDie d fun x => { x with power := { x.power with held := x.power.held ++ [(k, code, va, imm)] } }
  | none => detach s k code va imm

/-- Cause number c of source src (R21, R352). -/
def causeOf (src c : Nat) : Nat := 24 * src + c

/-- The executing engine stops before its instruction, which takes no effect, and its task raises a cause (R258, R341). -/
def trap (code : Nat) (s : State) : State :=
  raiseCause (s.modMyEng fun x => { x with stopped := true, wait := .none, latched := none }) s.key code 0 0

/-- The same for a failed translation, with its address (R344). -/
def trapAt (code va : Nat) (s : State) : State :=
  raiseCause (s.modMyEng fun x => { x with stopped := true, wait := .none, latched := none }) s.key code va 0

/-- Cause number c of the executing engine's own source. -/
def trapOwn (c : Nat) (s : State) : State := trap (causeOf s.cur.eng.source c) s

/-- A machine check of core c (R351): the core halts, the check is logged, and the gang of its task is cut and can only be ended.
src is the reader code, strip the strip at physical address pa. -/
def machineCheck (s : State) (c src strip pa syn : Nat) : State :=
  let k := tkey c (s.issuing c)
  let s := (logMachineCheck s c src strip pa syn).modCore c fun x => { x with halted := true }
  let s := detach s k 278 0 0
  match s.gangOf k with
  | some g => s.modGang g.id fun g => { g with cut := { g.cut with machineCheck := true } }
  | none => s

/-! ### Tokens -/

/-- The token word that engine e of task k reads from register n (R165, R259); k0 holds none. -/
def tokenView (s : State) (k : Nat) (e : Eng) (n : Nat) : Word :=
  if n = 0 then 0 else Sparse.rd 0 (s.task k).kreg (32 * e.tag + n)

/-- The token word of an engine's instruction. -/
def tokenWord (e : Eng) (seq : Nat) : Word := BitVec.ofNat 64 (2 ^ 35 + e.tag * 2 ^ 32 + seq % 2 ^ 32)

/-- The work that a token word names has completed (R165). -/
def tokenDone (s : State) (k : Nat) (w : Word) : Bool :=
  if !bitOf w.toNat 35 then true
  else
    match Eng.ofTag (slice w.toNat 32 3) with
    | some e => !(s.eng k e).opn.contains (w.toNat % 2 ^ 32)
    | none => true

/-- The token of engine e's instruction seq completes. -/
def completeToken (s : State) (k : Nat) (e : Eng) (seq : Nat) : State :=
  s.modEng k e fun x => { x with opn := x.opn.filter fun y => y != seq }

/-- Register n of every engine's view set to w (R38); a smark of an earlier block no longer reaches it. -/
def writeToken (t : Task) (n serial : Nat) (w : Word) : Task :=
  if n = 0 then t
  else
    { t with kreg := engines.foldl (fun m e => Sparse.wr 0 m (32 * e.tag + n) w) t.kreg
             late := t.late.filter fun x =>
               match x.what with
               | .tok m _ => m != n || decide (serial ≤ x.serial)
               | _ => true }

/-- The next number of the executing engine's token-producing instructions, taken, and written by its tko (R37, R165). -/
def newToken (s : State) : Nat × State :=
  let x := s.myEng
  let seq := (x.count + 1) % 2 ^ 32
  let s := s.setEng s.key s.cur.eng { x with count := seq, opn := x.opn ++ [seq] }
  (seq, s.modMe fun t => writeToken t (s.cur.ch.tko.getD 0) x.serial (tokenWord s.cur.eng seq))

/-! ### Walking the text -/

/-- No transition window runs on the die of task k: its engines issue (R362). -/
def mayIssue (s : State) (k : Nat) : Bool := (s.die (dieOf (k / 2))).power.window.isNone

/-- The executing engine stays at its instruction. -/
def waitFor (w : Wait) (s : State) : State := s.modMyEng fun x => { x with wait := w, size := s.cur.size }

/-- The position of an engine in the path queue. -/
def pathIndex (t : Task) (x : EngSt) : Nat := (x.taken + 2 ^ 32 - t.recBase) % 2 ^ 32

/-- Where an engine stands in the walk as a cut would record it: M inside an mtile stands at the mtile (R244). -/
def standsAt (t : Task) (e : Eng) : EngSt :=
  match e, t.m.run with
  | .m, some r => r.at_
  | _, _ => Sparse.rd {} t.engs e.tag

/-- The path queue without the records that all four engines have taken (R33). -/
def trimPath (t : Task) : Task :=
  let n := [Eng.c, Eng.v, Eng.m, Eng.a].foldl (fun n e => Nat.min n (pathIndex t (standsAt t e))) t.recs.length
  { t with recs := t.recs.drop n, recBase := (t.recBase + n) % 2 ^ 32 }

/-- S emits the record it has, unless WIN records are outstanding (R33, R34). -/
def tryEmit (s : State) (k : Nat) : State :=
  let t := s.task k
  match t.emit with
  | none => s
  | some r =>
    if t.recs.length < t.csr.win then
      let s := s.setTask k { t with recs := t.recs ++ [r], emit := none }
      let s := s.modEng k .s fun x =>
        { x with phase := if r.kind = 2 then .idle else .header, pc := if r.kind = 2 then x.pc else r.target
                 taken := (x.taken + 1) % 2 ^ 32, wait := .none }
      shareRecord s k r.serial
    else s

/-- S leaves its block with a record of the given kind and target (R32). -/
def leaveBlockS (s : State) (k kind target : Nat) : State :=
  let x := s.eng k .s
  let s := s.setEng k .s { x with phase := .path, passes := 0, wait := .none, latched := none }
  tryEmit (s.modTask k fun t => { t with emit := some { kind := kind, target := target, serial := x.serial } }) k

/-- An engine leaves its own block at the end of the last pass. -/
def leaveBlock (s : State) (k : Nat) (e : Eng) : State :=
  let x := s.eng k e
  let stop := x.body + 2 * x.len
  if e = .s then leaveBlockS (s.setEng k e { x with pc := stop }) k 0 stop
  else s.setEng k e { x with phase := .header, pc := stop, passes := 0, wait := .none, latched := none }

/-- An engine at the end of its block body starts the next pass or leaves the block (R28). -/
def passEnd (s : State) (k : Nat) (e : Eng) : State :=
  let x := s.eng k e
  if 2 ≤ x.passes then s.setEng k e { x with pc := x.body, passes := x.passes - 1, first := false }
  else leaveBlock s k e

/-- The executing engine's program counter moves past its instruction. -/
def stepOver (s : State) : State :=
  s.modMyEng fun x => { x with pc := s.cur.pc + 2 * s.cur.size, wait := .none, latched := none }

/-- The executing engine retires its instruction and goes on (R28). -/
def advance (s : State) : State :=
  let s := stepOver s
  let x := s.myEng
  if x.pc = x.body + 2 * x.len then passEnd s s.key s.cur.eng else s

/-- Engine e of task k reads a block header at its program counter (R28): tag, interlock bit, length, repeat. -/
def readHeader (s : State) (k : Nat) (e : Eng) (tag il len rep : Nat) : State :=
  let x := s.eng k e
  let x := { x with serial := (x.serial + 1) % 2 ^ 32, wait := .none, latched := none }
  let stop := x.pc + 4 + 2 * len
  if tag = e.tag then
    let x := { x with body := x.pc + 4, len := len, inter := decide (il = 1) || e != Eng.v, loop := [], first := true }
    if rep = 0 then s.setEng k e { x with phase := .count }
    else s.setEng k e { x with phase := .body, pc := x.body, passes := rep }
  else s.setEng k e { x with phase := if tag = 0 then .path else .header, pc := stop }

/-- S stands in a stall that R29 names for engine e: a fence that names e, a barrier, the WIN bound, or after exit. -/
def stalledFor (s : State) (k : Nat) (e : Eng) : Bool :=
  let x := s.eng k .s
  match x.wait with
  | .fence _ mask => bitOf mask e.tag
  | .gbar _ _ => true
  | _ => x.phase == .idle || (x.phase == .path && (s.task k).emit.isSome)

/-- Engine e of task k waits for a count that can no longer come (R29). -/
def starved (s : State) (k : Nat) (e : Eng) : Bool :=
  let x := s.eng k e
  x.phase == .count && !x.stopped && (Sparse.rd [] (s.task k).repn e.tag).isEmpty && (e == .s || stalledFor s k e)

/-- Queue underflow of every engine of task k that starves, raised as soon as one does (R29): after every move (Sys2Proof.Machine.settle). -/
def starve (s : State) (k : Nat) : State :=
  (engines.filter (starved s k)).foldl (fun s e =>
    raiseCause (s.modEng k e fun x => { x with stopped := true }) k (causeOf 6 3) 0 0) s

/-- Engine e of task k pops a count at a header with repeat 0 (R29). -/
def popCount (s : State) (k : Nat) (e : Eng) : State :=
  let x := s.eng k e
  match Sparse.rd [] (s.task k).repn e.tag with
  | n :: r =>
    let s := s.modTask k fun t => { t with repn := Sparse.wr [] t.repn e.tag r }
    if n = 0 then leaveBlock s k e
    else s.setEng k e { x with phase := .body, pc := x.body, passes := n, wait := .none }
  | [] => s

/-- What engine e sees when it takes the record of block serial n (R247, R259, R278). -/
def takeLate (t : Task) (e : Eng) (n : Nat) : Task :=
  let seen := t.late.filter fun x => x.eng == e && x.serial == n
  seen.foldl (fun t x =>
    match x.what with
    | .tok m v => { t with kreg := Sparse.wr 0 t.kreg (32 * e.tag + m) v }
    | .areg m v => { t with areg := Sparse.wr 0 t.areg m v }
    | .tlbi va all => { t with c := { t.c with marks := t.c.marks ++ [(va, all)] } })
    { t with late := t.late.filter fun x => !(x.eng == e && x.serial == n) }

/-- A command of C that waits has not sent all its pieces. -/
def CCmd.unsent (c : CCmd) : Bool := !c.pinned && !c.failed && decide (c.next < c.len)

/-- The tlbi markers that C has met take effect once every command before them has translated its pages (R307): the stream TLB drops
the entries, and a fetch ahead under way brings none. -/
def passMarks (t : Task) : Task :=
  if t.c.marks.isEmpty then t
  else
    { t with c := { t.c with marks := [] }
             tlb := { t.tlb with strm := t.c.marks.foldl (fun l m => dropLeaf l m.1 m.2) t.tlb.strm
                                 walks := t.tlb.walks.filter fun w => !(w.unit == 1 && w.ahead) } }

/-- Engine e of task k takes the next path record, if S has emitted it (R33). C takes none while a scratchpad command of its own is
under way (R133). -/
def takeRecord (s : State) (k : Nat) (e : Eng) : State :=
  let t := s.task k
  let x := s.eng k e
  match (if e = .c ∧ t.c.spc.isSome then none else t.recs[pathIndex t x]?) with
  | none => s
  | some r =>
    let x := { x with taken := (x.taken + 1) % 2 ^ 32, wait := .none
                      phase := if r.kind = 2 then .idle else .header, pc := if r.kind = 2 then x.pc else r.target }
    let t := takeLate t e r.serial
    let s := s.setTask k (trimPath { t with engs := Sparse.wr {} t.engs e.tag x })
    learnRecord s k e r.serial

/-- C, V, M and A have each reached the header of the block that S runs (R259). -/
def othersReached (s : State) (k : Nat) : Bool :=
  let n := (s.eng k .s).serial
  [Eng.c, Eng.v, Eng.m, Eng.a].all fun e =>
    let x := s.eng k e
    x.serial == n || (x.phase == .header && (x.serial + 1) % 2 ^ 32 == n)

/-! ### Issue -/

/-- The token limit of R165. -/
def tokenLimit : Nat := 256

/-- The executing engine's instruction past its token waits (R37, R165): body is what it does then. -/
def afterTokens (prod : Bool) (vals : List Word) (body : State → State) (s : State) : State :=
  let s := s.modMyEng fun x => { x with latched := some vals }
  if vals.all (tokenDone s s.key) then
    if prod ∧ tokenLimit ≤ s.myEng.opn.length then waitFor .retry s
    else body (learnTokens s s.key s.cur.eng vals)
  else waitFor .tokens s

/-- Issue of the executing instruction (R37, R258, R259): the registers that its tkw names are read once, then their work must
have completed. prod: it produces a token. -/
def issue (prod : Bool) (body : State → State) (s : State) : State :=
  match s.myEng.latched with
  | some vals => afterTokens prod vals body s
  | none =>
    if s.cur.ch.waits ≠ [] ∧ s.cur.eng = .s ∧ !othersReached s s.key then waitFor .tokens s
    else afterTokens prod (s.cur.ch.waits.map (tokenView s s.key s.cur.eng)) body s

/-- An instruction of C, V, M or A past every other check is tested against the race checker (R353, R390 step 9). x gives its ranges
and its token; at_ are the cores that it reaches at fixed times, with the time of each (R148). -/
def declareAs (x : RaceEnt) (at_ : List (Nat × Point)) (all : Bool) (body : State → State) (s : State) : State :=
  match s.gangOf s.key with
  | none => body s
  | some g =>
    if !g.det then body s
    else
      let timed := (g.race.filter (timedBefore s at_)).flatMap fun y => y.id :: y.pre
      let x : RaceEnt := { x with task := s.key, eng := s.cur.eng, pre := joinNats (g.knows s.key s.cur.eng) timed }
      if g.race.any fun y => races y x then trapOwn 16 s
      else if 1024 ≤ g.race.length then trap 383 s
      else body (s.modGang g.id fun g => enterRace g x all)

/-- The same for an instruction whose ranges are no targets of an update and that reaches no core at a fixed time. -/
def declare (rgn : List (Nat × Nat × Nat × Bool)) (seq : Nat) (beat : Option (Nat × Nat)) (all : Bool) (body : State → State)
    (s : State) : State :=
  declareAs { rgn := rgn, seq := seq, beat := beat } [] all body s

/-- The number that the next token-producing instruction of the executing engine takes. -/
def nextSeq (s : State) : Nat := (s.myEng.count + 1) % 2 ^ 32

/-! ### Landings of V -/

/-- The bytes of the elements of a result laid over what its destination held: element e has size esz and is written where
bit e of els is set. -/
def overlay (old new : Mem) (els esz : Nat) (n : Nat) : Mem :=
  Sparse.ofFn 0#8 n fun i => if bitOf els (i / esz) then Mem.get new i else Mem.get old i

/-- Elements of a mask laid over another (R164). -/
def overlayMask (old new els : Nat) : Nat :=
  packBits 2 ((List.range 1024).map fun e => if bitOf els e then new / 4 ^ e % 4 else old / 4 ^ e % 4)

/-- A vpf entry lands in an operand queue: before what cfq has pushed since V's last cycle (R160). -/
def landOpq (t : Task) (n : Nat) (e : Mem) : Task :=
  let q := Sparse.rd [] t.opq n
  let m := q.length - Sparse.rd 0 t.v.pushed n
  { t with opq := Sparse.wr [] t.opq n (q.take m ++ e :: q.drop m) }

/-- S has written register n since V's last cycle, at a later place of the walk than serial (R206). -/
def wroteLater (s : State) (k n serial : Nat) : Bool :=
  let t := s.task k
  Sparse.rd 0 t.sreg n != Sparse.rd 0 t.v.sregs n
    && decide (0 < ((s.eng k .s).serial + 2 ^ 32 - serial) % 2 ^ 32 ∧ ((s.eng k .s).serial + 2 ^ 32 - serial) % 2 ^ 32 < 2 ^ 31)

/-- The value of a vtos lands in register n (R206). A write of S that stands later in the walk and met it in one cycle is kept; whether
the two met is free (R391). -/
def landSreg (s : State) (k n serial : Nat) (v : Word) : State :=
  if n = 0 then s
  else
    let (c, s) := if wroteLater s k n serial then s.choose else (0, s)
    if c % 2 = 1 then s else s.modTask k fun t => { t with sreg := Sparse.wr 0 t.sreg n v }

/-- A result lands at its destination (R160, R190, R193, R206, R207, R213). -/
def landFlight (s : State) (k : Nat) (f : Flight) : State :=
  let s := match f.dst with
    | .entry n => s.modCore (k / 2) fun c =>
        { c with uf := c.uf.putMem (1024 * n) 1024 (overlay (Sparse.window c.uf (1024 * n) 1024) f.data f.els f.esz 1024) }
    | .outq n => s.modTask k fun t => { t with outq := Sparse.wr [] t.outq n (Sparse.rd [] t.outq n ++ [f.data]) }
    | .opq n => s.modTask k fun t => landOpq t n f.data
    | .jreg n => s.modTask k fun t =>
        let x := overlay (Sparse.window t.jreg (2048 * n) 2048) f.data f.els f.esz 2048
        { t with jreg := t.jreg.putMem (2048 * n) 2048 x }
    | .mask n => s.modTask k fun t =>
        if n = 0 then t
        else { t with mask := Sparse.wr 0 t.mask n (overlayMask (Sparse.rd 0 t.mask n) (f.data.rdN 0 256) f.els) }
    | .sreg n => landSreg s k n f.serial (BitVec.ofNat 64 (f.data.rdN 0 8))
    | .mark seq => completeToken s k .v seq
  let s := s.modTask k fun t => { t with csr := { t.csr with vst := t.csr.vst ||| f.vst, jst := t.csr.jst ||| f.jst } }
  match f.ev with
  | some x => pushEvent s k (slice x 48 4) 0 (slice x 32 16) (x % 2 ^ 32)
  | none => s

/-- What a destination that keeps a shadow holds (R342). -/
def shadowOf (s : State) (k : Nat) : VDst → Mem
  | .entry n => Sparse.window (s.core (k / 2)).uf (1024 * n) 1024
  | .jreg n => Sparse.window (s.task k).jreg (2048 * n) 2048
  | .mask n => Mem.wrN [] 0 256 (Sparse.rd 0 (s.task k).mask n)
  | _ => []

/-- A result put into a list in order of landing cycle, after those of its cycle. -/
def insertDue (f : Flight) : List Flight → List Flight
  | [] => [f]
  | g :: r => if f.due < g.due then f :: g :: r else g :: insertDue f r

/-- Results in landing order (R160 step 1). -/
def landingOrder (l : List Flight) : List Flight := l.foldl (fun a f => insertDue f a) []

/-- The results of task k that are due land. -/
def landDue (s : State) (k : Nat) : State :=
  let v := (s.task k).v
  let due := landingOrder (v.flights.filter fun f => decide (f.due ≤ v.cyc))
  let s := s.modTask k fun t => { t with v := { t.v with flights := v.flights.filter fun f => decide (v.cyc < f.due) } }
  due.foldl (fun s f => landFlight s k f) s

/-- V's pipelines advance by one cycle (R30, R190). -/
def cycleV (s : State) (k : Nat) : State :=
  let s := landDue (s.modTask k fun t => { t with v := { t.v with cyc := t.v.cyc + 1 } }) k
  s.modTask k fun t => { t with v := { t.v with sregs := t.sreg, pushed := [] } }

/-- Every result of task k in flight lands, each bound for storage with a shadow (R342). -/
def drainV (s : State) (k : Nat) : State :=
  let v := (s.task k).v
  let s := s.modTask k fun t => { t with v := { t.v with flights := [], shadows := [] } }
  (landingOrder v.flights).foldl (fun s f =>
    let keep := (shadowDst f.dst).isSome
    let old := shadowOf s k f.dst
    let s := landFlight s k f
    if keep then
      s.modTask k fun t =>
        { t with v := { t.v with shadows := t.v.shadows ++ [({ f with due := f.due - v.cyc, vst := 0, jst := 0, ev := none }, old)] } }
    else s) s

/-- V writes the shadows back, last landed first, and has each shadowed result in flight again with what its destination then held
(R342). -/
def refillV (s : State) (k : Nat) : State :=
  let v := (s.task k).v
  let r := v.shadows.foldr (fun x r =>
    let f : Flight := { x.1 with data := shadowOf r.1 k x.1.dst, due := v.cyc + x.1.due }
    (landFlight r.1 k { x.1 with data := x.2 }, f :: r.2)) (s, [])
  r.1.modTask k fun t => { t with v := { t.v with shadows := [], flights := r.2 } }

/-! ### Reduction blocks -/

/-- Beat b is a named beat, still to come when the block was accepted, of reduction block x (R95, R117). -/
def RedBlk.names (x : RedBlk) (tbb b : Nat) : Bool :=
  let f := beatAt b ((x.first + tbb) % 2 ^ 48)
  decide (x.accepted < b) && decide (f ≤ b) && (b - f) % x.stride == 0 && decide ((b - f) / x.stride < x.nbeats)

/-- Pseudo-channel p holds a byte of a buffer of block x (R96). -/
def RedBlk.involves (x : RedBlk) (p : Nat) : Bool :=
  (x.dst :: x.srcs).any fun a => decide (chanOf a ≤ p) && decide (p ≤ chanOf (a + 32 * x.nstrips - 1))

/-- Ticks of a destination strip. -/
def RedBlk.ticks (x : RedBlk) : Nat := (x.srcs.length + 2) / 2

/-- The pseudo-channels of a stack that block x involves (R96). -/
def RedBlk.channels (x : RedBlk) (stack : Nat) : List Nat := ((List.range 48).map fun i => 48 * stack + i).filter x.involves

/-- The block that uses beat b: the oldest unfinished one that names it (R96). -/
def redUser (s : State) (stack b : Nat) : Option RedBlk :=
  (s.stack stack).red.find? fun x =>
    !x.stopped && decide (x.done < x.nstrips) && x.names (s.task (tkey x.core x.bank)).csr.tbb b

/-- The offset of beat b at which the next strip of a stack's engine begins: 64, or the end of its last strip there (R96). -/
def stripStart (s : State) (stack b : Nat) : Nat :=
  let z := (s.stack stack).busy
  if z.1 = b then Nat.max 64 z.2 else 64

/-- The offset of beat b at which the next strip of block x ends, after 16 ticks for each of its retries (R96). -/
def stripEnd (s : State) (stack b : Nat) (x : RedBlk) : Nat :=
  stripStart s stack b + x.ticks + if x.late.1 = b then x.late.2 else 0

/-- The engine of a stack works on a strip of block x in the beat now open: the beat is poured for every involved pseudo-channel, and
the strip can end in it (R96, R117). -/
def stripUnderWay (s : State) (stack : Nat) (x : RedBlk) : Bool :=
  let d := s.die (stack / 2)
  redUser s stack d.beat == some x && decide (2 * stripStart s stack d.beat ≤ d.off2)
    && decide (stripEnd s stack d.beat x ≤ s.windowEnd d.beat) && (x.channels stack).all fun p => !s.steep p d.beat

/-- The reduction blocks of task k stop after their current strip (R99, R341). -/
def stopBlocks (s : State) (k : Nat) : State :=
  (List.range 16).foldl (fun s i =>
    let ends (x : RedBlk) : RedBlk := if tkey x.core x.bank = k ∧ !stripUnderWay s i x then { x with stopped := true } else x
    s.modStack i fun z => { z with red := z.red.map ends }) s

/-! ### The cut and the resume -/

/-- What C of task k has planned and the sequencer or the fabric has not started is discarded (R106, R149). -/
def discardCmds (s : State) (k : Nat) : State :=
  let s := s.modChan (k / 2) fun c =>
    { c with again := c.again ++ c.cmds.filter fun x => x.bank == k % 2
             cmds := c.cmds.filter fun x => x.bank != k % 2 }
  s.modDie (dieOf (k / 2)) fun d =>
    { d with ctxAgain := d.ctxAgain ++ d.ctx.filter fun x => tkey x.core x.bank == k && x.sent2.isNone
             ctx := d.ctx.filter fun x => !(tkey x.core x.bank == k && x.sent2.isNone) }

/-- The gang of the other bank of the core of task k has chosen the beat at which it resumes (R347). -/
def reopening (s : State) (k : Nat) : Bool := (s.gangOf (tkey (k / 2) (1 - k % 2))).any fun g => g.cut.rebase.isSome && g.st == .detached

/-- A stop request reaches task k (R340): its engines stop at an instruction boundary, V drains (R342), commands that have not started
are discarded, its reduction blocks stop, and the row lines that its commands have opened since the detach point are released, unless the
gang of the other bank already reopens its own (log entry 61). -/
def stopTask (s : State) (k : Nat) : State :=
  let s := s.modTask k fun t =>
    { t with stop := true
             engs := engines.foldl (fun m e =>
               if e = .m ∨ e = .a then m else Sparse.wr {} m e.tag { Sparse.rd {} m e.tag with stopped := true }) t.engs }
  let s := if halted s k then s else drainV s k
  let s := stopBlocks (discardCmds s k) k
  if reopening s k then s else releaseRows s k

/-- Entries of a queue, and those on their way into it (R162). -/
def opqPlaces (t : Task) (q : Nat) : Nat :=
  (Sparse.rd [] t.opq q).length + (t.v.flights.filter fun f => f.dst == .opq q).length
def outqPlaces (t : Task) (q : Nat) : Nat :=
  (Sparse.rd [] t.outq q).length + (t.v.flights.filter fun f => f.dst == .outq q).length

/-- A scratchpad command of a stopped task can go no further: a cfq whose queue is full, a cdq whose queue is empty (R133, R341). -/
def spadStuck (t : Task) (x : SpadCmd) : Bool :=
  x.failed || (x.kind == 1 && decide (x.done < x.n) && decide (4 ≤ opqPlaces t x.q)) || (x.kind == 2 && outqPlaces t x.q == 0)

/-- The work of task k that the cut waits for has ended (R341): what had started completes, M stands at a retirement point with its
drain done, A between windows. -/
def taskQuiet (s : State) (k : Nat) : Bool :=
  let t := s.task k
  let c := s.core (k / 2)
  c.halted ||
    (t.stop && (t.c.cmds.all fun x => x.failed && x.out == 0)
      && (match t.c.spc with | none => true | some x => spadStuck t x)
      && (match t.a.ins with | some i => i.op != 9 || i.val % 64 == 0 | none => true)
      && ((s.chan (k / 2)).runs.all fun r => r.cmd.bank != k % 2)
      && ((s.die (dieOf (k / 2))).ctx.all fun x => tkey x.core x.bank != k)
      && (t.m.run.isNone || t.m.waiting) && t.m.drain.isNone
      && t.a.rmws.isEmpty && t.s.stores.isEmpty
      && (s.pieces.all fun p => tkey p.core p.bank != k || (match p.own with | .flag _ _ _ => false | _ => true))
      && (List.range 16).all fun i => (s.stack i).red.all fun b => tkey b.core b.bank != k || b.stopped)

/-- Every task of the gang has started, has stopped and is quiet; those on a fenced die are lost (R318). -/
def cutReady (s : State) (g : Gang) : Bool :=
  g.st == .detaching && g.live.all fun k =>
    let d := s.die (dieOf (k / 2))
    d.fenced || (decide ((match g.resume with | some r => r.1 | none => g.start) ≤ d.beat) && taskQuiet s k)

/-- A pseudo-channel without the far requests of a list; the failed sends of one that it serves or has put back are forgotten. -/
def Chan.forget (c : Chan) (ids : List Nat) : Chan :=
  let cur := match c.serving with | some x => some x.1 | none => c.farq.head?
  { c with farq := c.farq.filter fun i => !ids.contains i
           serving := c.serving.filter fun x => !ids.contains x.1
           farBad := if cur.any ids.contains then (0, 0) else c.farBad }

/-- The load that S had not retired is given up; S makes it again after the resume. -/
def dropLoad (s : State) (k : Nat) : State :=
  match (s.task k).s.load with
  | none => s
  | some l =>
    let s := s.modTask k fun t => { t with s := { t.s with load := none, got := none } }
    let p := l.pa / 2 ^ 30
    let s := s.modChan p fun c => c.forget [l.piece]
    { s with pieces := s.pieces.filter fun x => x.id != l.piece }

/-- The cut of gang g is taken (R341-R344): each task's record is written where CUTBASE has an area, and the gang detaches. A core that
a machine check halted takes its stop request now, if it has not (R351). -/
def takeCut (s : State) (g : Gang) : State :=
  let tasks := g.live.filter fun k => !(s.die (dieOf (k / 2))).fenced
  let s := g.live.foldl (fun s k => dropLoad (if (s.task k).stop then s else stopTask s k) k) s
  let written := tasks.all fun k => (recordAt s g.vf k).isSome
  let s := tasks.foldl (fun s k =>
    match recordAt s g.vf k with
    | some pa => if written then writeRecord s pa (recordImage s g k) else s
    | none => s) s
  let s := g.live.foldl (fun s k =>
    s.modChan (k / 2) fun c => if reopening s k then { c with saved := [] } else { c with hist := {}, reopen := [], saved := [] }) s
  s.modGang g.id fun g =>
    { g with st := .detached, cut := { g.cut with written := written } }

/-- A discarded command that C issues again: a dwr reads its bytes anew, after all that performed before the cut (R389). -/
def issueAgain (s : State) (k : Nat) (c : Cmd) : Cmd :=
  match c.kind with
  | .dwr x j n b _ => { c with kind := .dwr x j n b (Sparse.window (s.core (k / 2)).spad c.src (32 * n)) }
  | _ => c

/-- The commands of task k that the cut discarded are placed again, n beats later (R106, R347), unless the driver moved C; a queue
command that its queue had trapped tries again. -/
def placeAgain (s : State) (k n : Nat) (moved : Bool) : State :=
  let s := s.modTask k fun t =>
    { t with c := { t.c with spc := if moved then none else t.c.spc.map fun x => { x with failed := false }
                             rdc := if moved then none else t.c.rdc } }
  let s := s.modChan (k / 2) fun c =>
    let mine := c.again.filter fun x => x.bank == k % 2
    { c with again := c.again.filter fun x => x.bank != k % 2
             cmds := c.cmds ++ (if moved then [] else mine.map fun x => issueAgain s k { x with plan := { x.plan with beat := x.plan.beat + n } }) }
  s.modDie (dieOf (k / 2)) fun d =>
    let mine := d.ctxAgain.filter fun x => tkey x.core x.bank == k
    { d with ctxAgain := d.ctxAgain.filter fun x => tkey x.core x.bank != k
             ctx := d.ctx ++ (if moved then [] else mine.map fun x =>
               { x with plan := { x.plan with beat := x.plan.beat + n }
                        data := Sparse.window (s.core x.core).spad x.src (32 * x.n) }) }

/-- The reduction blocks of task k on a stack as its record m sets them; their named beats are counted n beats later, and those
used so far stay used (R99). A block whose entry the driver has cleared is dropped. -/
def restoreBlocks (s : State) (stack k n : Nat) (m : Mem) : State :=
  s.modStack stack fun x =>
    { x with red := x.red.filterMap fun b =>
        if tkey b.core b.bank ≠ k then some b
        else
          match (List.range 4).find? fun i => m.rdN (0x1080 + 16 * i) 8 == 2 ^ 63 + b.seq % 2 ^ 32 with
          | some i =>
            let used := match b.cur with | some c => Nat.max b.accepted c.1 | none => b.accepted
            some { b with stopped := false, cur := none, accepted := used + n, done := m.rdN (0x1088 + 16 * i) 8 }
          | none => none }

/-- The return from a cut: task k is restored from its record and goes on n beats later than planned (R344, R347). -/
def resumeTask (s : State) (g : Gang) (k n : Nat) : State :=
  match recordAt s g.vf k with
  | none => s
  | some pa =>
    let old := recordHead s g k
    let (s, m) := readRecord s pa
    let moved := !((old.getWords 0x120 4) == (m.getWords 0x120 4))
    let s := s.setTask k (restoreTask (s.task k) old m)
    let s := restoreCore s (k / 2) m
    let s := s.modTask k fun t => { t with stop := false, csr := { t.csr with tbb := (m.rdN 0x18 8 + n) % 2 ^ 48 } }
    let s := (List.range 16).foldl (fun s i => restoreBlocks s i k n m) s
    placeAgain (refillV s k) k n moved

/-! ### Pieces -/

/-- The owner of a piece is no engine of a core: a copy engine, a peer device or a distributor. -/
def PieceOf.outside : PieceOf → Bool
  | .copy _ => true
  | .frame _ _ _ => true
  | .record _ _ => true
  | _ => false

/-- A new piece sent on its way (R125, R152, R365): it leaves on a link for the host window, a write followed by a read of length 0
that pushes it; a piece for a peer leaves by its port. A peer that cannot be reached raises code 334 and sends nothing. The number of
the piece; 0 if it was not sent. -/
def sendPiece (s : State) (p : Piece) : Nat × State :=
  let id := s.pieceNext + 1
  let s := { s with pieceNext := id, pieces := s.pieces ++ [{ p with id := id }] }
  match region p.pa with
  | .host => (id, if p.wr then hostRead (hostWrite s p.pa p.data) p.pa 0 else hostRead s p.pa p.len)
  | .peer =>
    match sendFrame s p.pa p.len p.wr p.data with
    | (s, true) => (id, s)
    | (s, false) =>
      let s := { s with pieces := s.pieces.filter fun x => x.id != id }
      (0, if p.own.outside then s else raiseCause s (tkey p.core p.bank) 334 0 0)
  | _ => (id, s)

def findPiece (s : State) (id : Nat) : Option Piece := s.pieces.find? fun p => p.id == id
def dropPiece (s : State) (id : Nat) : State := { s with pieces := s.pieces.filter fun p => p.id != id }
def setPiece (s : State) (p : Piece) : State :=
  { s with pieces := s.pieces.map fun x => if x.id = p.id then p else x }

/-- A piece that the access counters count (R334): not a copy engine's, a reduction engine's or a distributor's. -/
def PieceOf.counted : PieceOf → Bool
  | .copy _ => false
  | .flag _ _ _ => false
  | .record _ _ => false
  | _ => true

/-- A piece counted at the server of its frame (R334). -/
def countAccess (s : State) (p : Piece) : State :=
  if !p.own.counted then s
  else
    let f := p.pa / 65536
    let th := s.reg regMcfg % 2 ^ 16
    let n := (Sparse.rd 0 s.counters f + 1) % 2 ^ 16
    if th ≠ 0 ∧ n = th then
      devEvent { s with counters := Sparse.wr 0 s.counters f 0 } 1 p.die 0 (p.die % 8 * 2 ^ 61 + f % 2 ^ 36 * 2 ^ 16 + th)
    else { s with counters := Sparse.wr 0 s.counters f n }

/-- The replay record of a frame whose bytes have performed at a node (R371). -/
def noteFrame (s : State) (p : Piece) : State :=
  match p.own with
  | .frame port peer off => replay s 2 (s.die (nodeOf p.pa % 8)).beat [port + peer * 2 ^ 32, off, p.len]
  | _ => s

/-- Bytes of a store laid over bytes that were read from base. -/
def layStore (base : Nat) (bs : List Byte) (st : SStore) : List Byte :=
  bs.zipIdx.map fun x =>
    let a := base + x.2
    if st.pa ≤ a ∧ a < st.pa + st.size then BitVec.ofNat 8 (st.val / 256 ^ (a - st.pa)) else x.1

/-- The stores of S of task k that memory does not hold yet. -/
def unperformed (s : State) (k : Nat) : List SStore :=
  (s.task k).s.stores.filter fun st => !(s.pieces.any fun p => p.id == st.piece && p.st == .served)

/-- Bytes read from base as S sees them: its earlier stores that memory does not hold yet lie over them (R294, R295). -/
def seenByS (s : State) (k base : Nat) (bs : List Byte) : List Byte := (unperformed s k).foldl (layStore base) bs

/-- What a read of piece p from memory address a on gives its owner. -/
def readBy (s : State) (p : Piece) (a : Nat) (bs : List Byte) : List Byte :=
  if p.own = .sLoad then seenByS s (tkey p.core p.bank) a bs else bs

/-- A piece of the fast tier served in a far slot (R53, R78, R89), at the strips that its placement gave when it was accepted (R57). An
uncorrectable strip is a machine check of the core that asks for it; for a copy engine (R339) or a peer it halts no core. -/
def serveFast (s : State) (p : Piece) : State :=
  let s := countAccess s p
  let place := State.stripIn p.cc
  let src := match p.own with | .copy _ => 2 | _ => 1
  if p.wr then noteFrame (setPiece (fastWrite s place (stripSpans p.pa p.len) p.data) { p with st := .served }) p
  else
    match fastRead s place src (stripSpans p.pa p.len) with
    | (s, .ok bs) => noteFrame (setPiece s { p with data := readBy s p p.pa bs, st := .served }) p
    | (s, .error a) =>
      let x := place a
      let s := if p.own.outside then s
        else if isLost s (chanOf a) then raiseCause s (tkey p.core p.bank) 303 0 0
        else machineCheck s p.core 1 x (a / 32 * 32) (syndrome s x)
      setPiece s { p with st := .bad }

/-- The 32-byte units that a piece touches, and the bytes of the first n of them. -/
def unitsIn (p : Piece) : Nat := (p.pa % 32 + p.len + 31) / 32
def unitOff (p : Piece) (n : Nat) : Nat := Nat.min p.len (32 * n - p.pa % 32)

/-- The next n units of a piece of the capacity tier moved by its controller (R293). -/
def serveCap (s : State) (p : Piece) (n : Nat) : State :=
  let s := if p.units = 0 then countAccess s p else s
  let o := unitOff p p.units
  let m := unitOff p (p.units + n) - o
  let q : Piece := { p with units := p.units + n, st := if unitsIn p ≤ p.units + n then .served else .sent }
  let s := if p.wr then setPiece { s with mem := s.mem.wrList (p.pa + o) ((p.data.drop o).take m) } q
    else setPiece s { q with data := p.data ++ readBy s p (p.pa + o) (s.mem.rdList (p.pa + o) m) }
  if q.st = .served then noteFrame s p else s

/-- An earlier piece of the same command writes a byte that piece p writes, and memory does not hold it yet (R131). -/
def behindWrite (s : State) (p : Piece) : Bool :=
  p.wr && s.pieces.any fun q => q.wr && q.core == p.core && q.bank == p.bank && q.own == p.own && q.st == .sent
    && decide (q.id < p.id) && decide (q.pa < p.pa + p.len) && decide (p.pa < q.pa + q.len)

/-- A piece that is ready to return: a piece of the capacity tier is served at that moment, whole or, where the choice falls so, for
some of its units (R293). -/
def readyPiece (s : State) (id : Nat) : State × Option Piece :=
  match findPiece s id with
  | none => (s, none)
  | some p =>
    match p.st with
    | .served | .bad => (s, some p)
    | .queued => (s, none)
    | .sent =>
      if region p.pa = .cap ∧ !behindWrite s p then
        let (n, s) := s.portion (unitsIn p - p.units)
        let s := serveCap s p n
        (s, (findPiece s id).filter fun q => q.st == .served)
      else (s, none)

/-- A piece enters the queue of its base die, if there is room (R78); the placement of its frame is that of now (R57). -/
def arrivePiece (s : State) (id : Nat) : State :=
  match findPiece s id with
  | none => s
  | some p =>
    if region p.pa = .fast ∧ p.st = .sent ∧ (s.chan (chanOf p.pa)).farq.length < 64 then
      setPiece (s.modChan (chanOf p.pa) fun c => { c with farq := c.farq ++ [id] }) { p with st := .queued, cc := s.ccFrame p.pa }
    else s

end Sys2Proof.Machine
end

