-- ==== Sys2Proof/Machine/Operands.lean ====
section
/-!
DEFINITION. Operands: the registers of S, C and A, immediates, the length, count and address operands of C with their checks
(07_copy_paths R121, R122), and the three-valued logic of predicates and masks (11_vector R198).
-/

namespace Sys2Proof.Machine

/-! ### S -/

/-- sN of the executing task; s0 reads 0 (R258). -/
def sv (s : State) (n : Nat) : Word := if n = 0 then 0 else Sparse.rd 0 s.me.sreg n

/-- sN written; a write to s0 is discarded (R258). -/
def setS (s : State) (n : Nat) (v : Word) : State :=
  if n = 0 then s else s.modMe fun t => { t with sreg := Sparse.wr 0 t.sreg n v }

/-- pN: 0 F, 1 T, 2 U; p0 reads T (R164, R258). -/
def pv (s : State) (n : Nat) : Nat := if n = 0 then 1 else Sparse.rd 0 s.me.pred n

/-- pN written; a write to p0 is discarded. -/
def setP (s : State) (n v : Nat) : State :=
  if n = 0 then s else s.modMe fun t => { t with pred := Sparse.wr 0 t.pred n v }

/-- The immediate of n bits, extended by an imx to n + 11 bits and sign-extended (R37). -/
def immValue (ch : Chain) (imm n : Nat) : Int :=
  match ch.imx with
  | none => sext imm n
  | some x => sext (x * 2 ^ n + imm) (n + 11)

/-- The immediate of an SI instruction as a 64-bit value (R262). -/
def immS (s : State) (imm : Nat) : Word := BitVec.ofInt 64 (immValue s.cur.ch imm 15)

/-- The address register plus immediate, modulo 2^56 (R267). -/
def effective (s : State) (a imm : Nat) : Nat := (sv s a + immS s imm).toNat % 2 ^ 56

/-! ### Three-valued logic (R198): 0 F, 1 T, 2 U -/

def and3 (a b : Nat) : Nat := if a = 0 ∨ b = 0 then 0 else if a = 1 ∧ b = 1 then 1 else 2
def or3 (a b : Nat) : Nat := if a = 1 ∨ b = 1 then 1 else if a = 0 ∧ b = 0 then 0 else 2
def xor3 (a b : Nat) : Nat := if 2 ≤ a ∨ 2 ≤ b then 2 else if a = b then 0 else 1
def not3 (a : Nat) : Nat := if a = 0 then 1 else if a = 1 then 0 else 2
def know3 (a : Nat) : Nat := if a = 1 then 1 else 0

/-! ### C and A -/

/-- aN of C. -/
def cv (s : State) (n : Nat) : Word := Sparse.rd 0 s.me.creg n
def setC (s : State) (n : Nat) (v : Word) : State := s.modMe fun t => { t with creg := Sparse.wr 0 t.creg n v }
/-- aN of A. -/
def av (s : State) (n : Nat) : Word := Sparse.rd 0 s.me.areg n

/-- The share of the scratchpad of a bank of a core: first address and end (R157). -/
def spadShare (c : Core) (bank : Nat) : Nat × Nat :=
  if bank = 0 then (0, c.ssplit * 0x10000) else (c.ssplit * 0x10000, 0x200000)

/-- The share of the underfile of a bank: first entry and end (R157). -/
def fileShare (c : Core) (bank : Nat) : Nat × Nat := if bank = 0 then (0, c.fsplit) else (c.fsplit, 768)

/-- n bytes from a lie in the own share of the scratchpad. -/
def inShare (s : State) (a n : Nat) : Bool :=
  let h := spadShare s.myCore s.cur.bank
  decide (h.1 ≤ a) && decide (a + n ≤ h.2)

/-- Entry e and the n - 1 after it lie in the own share of the underfile. -/
def inFile (s : State) (e n : Nat) : Bool :=
  let h := fileShare s.myCore s.cur.bank
  decide (h.1 ≤ e) && decide (e + n ≤ h.2)

/-- The core and address that n bytes at scratchpad address a reach, own or of a gang peer (R119, R121). -/
def reach (s : State) (a n : Nat) : Option (Nat × Nat) :=
  if a < 0x200000 then (if inShare s a n then some (s.cur.core, a) else none)
  else if a < 0x80000000 then none
  else
    let k := (a - 0x80000000) / 0x200000
    let x := (a - 0x80000000) % 0x200000
    match s.gangOf s.key with
    | none => none
    | some g =>
      match g.tasks[k]? with
      | none => none
      | some t =>
        let h := spadShare (s.core (t / 2)) (t % 2)
        if h.1 ≤ x ∧ x + n ≤ h.2 then some (t / 2, x) else none

/-- The checks of a command in their order (R122, R390): the first that fails gives its cause number. -/
def firstCause : List (Bool × Nat) → Option Nat
  | [] => none
  | (bad, c) :: r => if bad then some c else firstCause r

/-- A length operand (R122): field 0 means 32. -/
def lengthOf (s : State) (n : Nat) : Nat := if n = 0 then 32 else (cv s n).toNat
/-- A count operand: field 0 means 1. -/
def countOf (s : State) (n : Nat) : Nat := if n = 0 then 1 else (cv s n).toNat

/-- The checks of a length: out of limits (code 25), not a multiple of 32 (29). -/
def lengthChecks (len : Nat) : List (Bool × Nat) :=
  [(decide (len < 32) || decide (2097152 < len), 25), (decide (len % 32 ≠ 0), 29)]
/-- The checks of a count of entries. -/
def countChecks (n : Nat) : List (Bool × Nat) := [(decide (n < 1) || decide (768 < n), 25)]
/-- A length or count that its own check refuses counts as one unit while an earlier operand is checked (log entry 13). -/
def saneLength (len : Nat) : Nat := if len < 32 ∨ 2097152 < len ∨ len % 32 ≠ 0 then 32 else len
def saneCount (n : Nat) : Nat := if n < 1 ∨ 768 < n then 1 else n
/-- The checks of an own scratchpad address of n bytes: alignment to al (29), share (32). -/
def spadChecks (s : State) (a n al : Nat) : List (Bool × Nat) := [(decide (a % al ≠ 0), 29), (!inShare s a n, 32)]
/-- The checks of a memory address: alignment to al (29). -/
def vaChecks (a al : Nat) : List (Bool × Nat) := [(decide (a % al ≠ 0), 29)]

/-- The executing instruction goes on unless one of the checks fails. -/
def checked (l : List (Bool × Nat)) (body : State → State) (s : State) : State :=
  match firstCause l with
  | some c => trap c s
  | none => body s

end Sys2Proof.Machine
end

