-- ==== Sys2Proof/Machine/Scalar.lean ====
section
/-!
DEFINITION. The arithmetic, compares and predicates of S (15_conductor R261-R266), its short instructions (02_program_text R41)
and the instructions that read a clock, a beat or the power level (R273, R274; 08 R151).
-/

namespace Sys2Proof.Machine

/-- The high 64 bits of the signed product (R261). -/
def mulHigh (a b : Word) : Word := BitVec.ofInt 64 (a.toInt * b.toInt / (2 ^ 64 : Nat))
/-- The high 64 bits of the unsigned product. -/
def mulHighN (a b : Word) : Word := BitVec.ofNat 64 (a.toNat * b.toNat / 2 ^ 64)
/-- The signed quotient truncated toward zero; all ones for a divisor of 0 (R261). -/
def quotient (a b : Word) : Word := if b = 0 then BitVec.allOnes 64 else BitVec.ofInt 64 (a.toInt.tdiv b.toInt)
/-- The unsigned quotient. -/
def quotientN (a b : Word) : Word := if b = 0 then BitVec.allOnes 64 else BitVec.ofNat 64 (a.toNat / b.toNat)
/-- The signed remainder, with the sign of a; a for a divisor of 0. -/
def remainder (a b : Word) : Word := if b = 0 then a else BitVec.ofInt 64 (a.toInt.tmod b.toInt)
/-- The unsigned remainder. -/
def remainderN (a b : Word) : Word := if b = 0 then a else BitVec.ofNat 64 (a.toNat % b.toNat)

/-- Leading zeros of the low n bits of a. -/
def leadingZeros (a : Nat) : Nat → Nat
  | 0 => 0
  | n + 1 => if bitOf a n then 0 else leadingZeros a n + 1
/-- Trailing zeros of n bits of a from bit i. -/
def trailingZeros (a i : Nat) : Nat → Nat
  | 0 => 0
  | n + 1 => if bitOf a i then 0 else trailingZeros a (i + 1) n + 1
/-- Set bits among the low n of a. -/
def setBits (a : Nat) : Nat → Nat
  | 0 => 0
  | n + 1 => b2n (bitOf a n) + setBits a n

/-- sD gets the value that f makes of the state at issue (R258). -/
def scalarOp (d : Nat) (f : State → Word) (s : State) : State := issue false (fun s => advance (setS s d (f s))) s
/-- pD gets the element that f makes of the state at issue. -/
def predOp (d : Nat) (f : State → Nat) (s : State) : State := issue false (fun s => advance (setP s d (f s))) s

abbrev Result := Host.Outcome State Fault Refusal

/-- sD ← sA + sB (R261). -/
def execAdd (d a b : Nat) (s : State) : Result :=
  .next (scalarOp d (fun s => sv s a + sv s b) s)

/-- sD ← sA − sB (R261). -/
def execSub (d a b : Nat) (s : State) : Result :=
  .next (scalarOp d (fun s => sv s a - sv s b) s)

/-- sD ← sA & sB (R261). -/
def execAnd (d a b : Nat) (s : State) : Result :=
  .next (scalarOp d (fun s => sv s a &&& sv s b) s)

/-- sD ← sA | sB (R261). -/
def execOr (d a b : Nat) (s : State) : Result :=
  .next (scalarOp d (fun s => sv s a ||| sv s b) s)

/-- sD ← sA ^ sB (R261). -/
def execXor (d a b : Nat) (s : State) : Result :=
  .next (scalarOp d (fun s => sv s a ^^^ sv s b) s)

/-- sD ← sA & ~sB (R261). -/
def execAndn (d a b : Nat) (s : State) : Result :=
  .next (scalarOp d (fun s => sv s a &&& ~~~(sv s b)) s)

/-- sD ← sA << sB[5:0] (R261). -/
def execSll (d a b : Nat) (s : State) : Result :=
  .next (scalarOp d (fun s => sv s a <<< ((sv s b).toNat % 64)) s)

/-- sD ← sA >> sB[5:0], zeros in (R261). -/
def execSrl (d a b : Nat) (s : State) : Result :=
  .next (scalarOp d (fun s => sv s a >>> ((sv s b).toNat % 64)) s)

/-- sD ← sA >> sB[5:0], sign bits in (R261). -/
def execSra (d a b : Nat) (s : State) : Result :=
  .next (scalarOp d (fun s => (sv s a).sshiftRight ((sv s b).toNat % 64)) s)

/-- sD ← sA rotated left by sB[5:0] (R261). -/
def execRotl (d a b : Nat) (s : State) : Result :=
  .next (scalarOp d (fun s => (sv s a).rotateLeft ((sv s b).toNat % 64)) s)

/-- sD ← the signed smaller (R261). -/
def execMin (d a b : Nat) (s : State) : Result :=
  .next (scalarOp d (fun s => if (sv s b).slt (sv s a) then sv s b else sv s a) s)

/-- sD ← the signed larger (R261). -/
def execMax (d a b : Nat) (s : State) : Result :=
  .next (scalarOp d (fun s => if (sv s a).slt (sv s b) then sv s b else sv s a) s)

/-- sD ← the unsigned smaller (R261). -/
def execMinn (d a b : Nat) (s : State) : Result :=
  .next (scalarOp d (fun s => if (sv s b).ult (sv s a) then sv s b else sv s a) s)

/-- sD ← the unsigned larger (R261). -/
def execMaxn (d a b : Nat) (s : State) : Result :=
  .next (scalarOp d (fun s => if (sv s a).ult (sv s b) then sv s b else sv s a) s)

/-- sD ← the low 64 bits of the product (R261). -/
def execMul (d a b : Nat) (s : State) : Result :=
  .next (scalarOp d (fun s => sv s a * sv s b) s)

/-- sD ← the high 64 bits of the signed product (R261). -/
def execMulh (d a b : Nat) (s : State) : Result :=
  .next (scalarOp d (fun s => mulHigh (sv s a) (sv s b)) s)

/-- sD ← the high 64 bits of the unsigned product (R261). -/
def execMulhn (d a b : Nat) (s : State) : Result :=
  .next (scalarOp d (fun s => mulHighN (sv s a) (sv s b)) s)

/-- sD ← the signed quotient (R261). -/
def execDiv (d a b : Nat) (s : State) : Result :=
  .next (scalarOp d (fun s => quotient (sv s a) (sv s b)) s)

/-- sD ← the unsigned quotient (R261). -/
def execDivn (d a b : Nat) (s : State) : Result :=
  .next (scalarOp d (fun s => quotientN (sv s a) (sv s b)) s)

/-- sD ← the signed remainder (R261). -/
def execRem (d a b : Nat) (s : State) : Result :=
  .next (scalarOp d (fun s => remainder (sv s a) (sv s b)) s)

/-- sD ← the unsigned remainder (R261). -/
def execRemn (d a b : Nat) (s : State) : Result :=
  .next (scalarOp d (fun s => remainderN (sv s a) (sv s b)) s)

/-- sD ← leading zeros of sA (R261). -/
def execClz (d a : Nat) (s : State) : Result :=
  .next (scalarOp d (fun s => BitVec.ofNat 64 (leadingZeros (sv s a).toNat 64)) s)

/-- sD ← trailing zeros of sA (R261). -/
def execCtz (d a : Nat) (s : State) : Result :=
  .next (scalarOp d (fun s => BitVec.ofNat 64 (trailingZeros (sv s a).toNat 0 64)) s)

/-- sD ← set bits of sA (R261). -/
def execPopc (d a : Nat) (s : State) : Result :=
  .next (scalarOp d (fun s => BitVec.ofNat 64 (setBits (sv s a).toNat 64)) s)

/-- sD ← sA + sext(imm) (R262). -/
def execAddi (d a imm : Nat) (s : State) : Result :=
  .next (scalarOp d (fun s => sv s a + immS s imm) s)

/-- sD ← sA & sext(imm) (R262). -/
def execAndi (d a imm : Nat) (s : State) : Result :=
  .next (scalarOp d (fun s => sv s a &&& immS s imm) s)

/-- sD ← sA | sext(imm) (R262). -/
def execOri (d a imm : Nat) (s : State) : Result :=
  .next (scalarOp d (fun s => sv s a ||| immS s imm) s)

/-- sD ← sA ^ sext(imm) (R262). -/
def execXori (d a imm : Nat) (s : State) : Result :=
  .next (scalarOp d (fun s => sv s a ^^^ immS s imm) s)

/-- sD ← sA << imm[5:0] (R262). -/
def execSlli (d a sx : Nat) (s : State) : Result :=
  .next (scalarOp d (fun s => sv s a <<< (sx % 64)) s)

/-- sD ← sA >> imm[5:0], zeros in (R262). -/
def execSrli (d a sx : Nat) (s : State) : Result :=
  .next (scalarOp d (fun s => sv s a >>> (sx % 64)) s)

/-- sD ← sA >> imm[5:0], sign bits in (R262). -/
def execSrai (d a sx : Nat) (s : State) : Result :=
  .next (scalarOp d (fun s => (sv s a).sshiftRight (sx % 64)) s)

/-- What lih makes of sD (R262): 15 bits shifted in, or 26 with an imx, zero-extended. -/
def shiftIn (v : Word) (ch : Chain) (imm : Nat) : Word :=
  match ch.imx with
  | none => v <<< 15 ||| BitVec.ofNat 64 (imm % 2 ^ 15)
  | some x => v <<< 26 ||| BitVec.ofNat 64 (x % 2 ^ 11 * 2 ^ 15 + imm % 2 ^ 15)

/-- sD shifted left with the immediate below (R262). -/
def execLih (d imm : Nat) (s : State) : Result :=
  .next (scalarOp d (fun s => shiftIn (sv s d) s.cur.ch imm) s)

/-- pD ← sA = sB (R263). -/
def execCmpEq (px a b : Nat) (s : State) : Result :=
  .next (predOp px (fun s => b2n (sv s a == sv s b)) s)

/-- pD ← sA ≠ sB (R263). -/
def execCmpNe (px a b : Nat) (s : State) : Result :=
  .next (predOp px (fun s => b2n (sv s a != sv s b)) s)

/-- pD ← sA < sB, signed (R263). -/
def execCmpLt (px a b : Nat) (s : State) : Result :=
  .next (predOp px (fun s => b2n ((sv s a).slt (sv s b))) s)

/-- pD ← sA ≤ sB, signed (R263). -/
def execCmpLe (px a b : Nat) (s : State) : Result :=
  .next (predOp px (fun s => b2n ((sv s a).sle (sv s b))) s)

/-- pD ← sA < sB, unsigned (R263). -/
def execCmpLtn (px a b : Nat) (s : State) : Result :=
  .next (predOp px (fun s => b2n ((sv s a).ult (sv s b))) s)

/-- pD ← sA ≤ sB, unsigned (R263). -/
def execCmpLen (px a b : Nat) (s : State) : Result :=
  .next (predOp px (fun s => b2n ((sv s a).ule (sv s b))) s)

/-- pD ← sA = sext(imm) (R263). -/
def execCmpiEq (px a imm : Nat) (s : State) : Result :=
  .next (predOp px (fun s => b2n (sv s a == immS s imm)) s)

/-- pD ← sA < sext(imm), signed (R263). -/
def execCmpiLt (px a imm : Nat) (s : State) : Result :=
  .next (predOp px (fun s => b2n ((sv s a).slt (immS s imm))) s)

/-- pD ← sA < sext(imm), unsigned (R263). -/
def execCmpiLtn (px a imm : Nat) (s : State) : Result :=
  .next (predOp px (fun s => b2n ((sv s a).ult (immS s imm))) s)

/-- sD ← sA where pN is T, else sB (R264). -/
def execSel (d a b nx : Nat) (s : State) : Result :=
  .next (scalarOp d (fun s => if pv s nx = 1 then sv s a else sv s b) s)

/-- pD ← three-valued and of pA and pB (R265, R198). -/
def execPand (d a b : Nat) (s : State) : Result :=
  .next (predOp d (fun s => and3 (pv s a) (pv s b)) s)

/-- pD ← three-valued or of pA and pB (R265, R198). -/
def execPor (d a b : Nat) (s : State) : Result :=
  .next (predOp d (fun s => or3 (pv s a) (pv s b)) s)

/-- pD ← three-valued xor of pA and pB (R265, R198). -/
def execPxor (d a b : Nat) (s : State) : Result :=
  .next (predOp d (fun s => xor3 (pv s a) (pv s b)) s)

/-- pD ← pA with T and F exchanged (R265). -/
def execPnot (d a : Nat) (s : State) : Result :=
  .next (predOp d (fun s => not3 (pv s a)) s)

/-- pD ← pA with U made F (R265). -/
def execPknow (d a : Nat) (s : State) : Result :=
  .next (predOp d (fun s => know3 (pv s a)) s)

/-- pD ← the value v (R265). -/
def execPset (d vx : Nat) (s : State) : Result :=
  .next (predOp d (fun s => vx) s)

/-- pD ← the element coded in sA[2e+1:2e]; code 11 gives U (R266). -/
def execPopv (px a ex : Nat) (s : State) : Result :=
  .next (predOp px (fun s => Nat.min 2 (slice (sv s a).toNat (2 * ex) 2)) s)

/-- pD ← the granted level of the die equals lvl (R273). -/
def execPwr (px lx : Nat) (s : State) : Result :=
  .next (predOp px (fun s => b2n ((s.die (dieOf s.cur.core)).power.grant == lx)) s)

/-- sD ← BEAT − TBB (R274). -/
def execBnow (d : Nat) (s : State) : Result :=
  .next (scalarOp d (fun s => BitVec.ofNat 64 (((s.die (dieOf s.cur.core)).beat + 2 ^ 48 - s.me.csr.tbb) % 2 ^ 48)) s)

/-- sD ← TICK (R151). -/
def execTick (d : Nat) (s : State) : Result :=
  .next (scalarOp d (fun s => BitVec.ofNat 64 ((s.die (dieOf s.cur.core)).tick2 / 2)) s)

/-- sD ← NTIME (R151). -/
def execNtime (d : Nat) (s : State) : Result :=
  .next (scalarOp d (fun s => BitVec.ofNat 64 (s.die (dieOf s.cur.core)).ntime) s)

/-- sD ← sA (R41). -/
def execMov16 (d a : Nat) (s : State) : Result :=
  .next (scalarOp d (fun s => sv s a) s)

/-- sD ← sD + sext(imm) (R41). -/
def execAddi16 (d imm : Nat) (s : State) : Result :=
  .next (scalarOp d (fun s => sv s d + BitVec.ofInt 64 (sext imm 6)) s)

/-- sD ← sext(imm) (R41). -/
def execLi16 (d imm : Nat) (s : State) : Result :=
  .next (scalarOp d (fun s => BitVec.ofInt 64 (sext imm 6)) s)

end Sys2Proof.Machine
end

