-- ==== Sys2Proof/Machine/Power.lean ====
section
/-!
DEFINITION. Power levels and heat (20_power R355-R362), the retention state of a stack (04_beats R79), and the fencing of a die
(17_gangs R317).
-/

namespace Sys2Proof.Machine

/-- The dwell of a threshold in ticks (R358). -/
def dwell : Nat := 800000

/-- The thermal floor of a die (R358). -/
def floorOf (p : Power) : Nat := if p.on2 then 2 else if p.on1 then 1 else 0

/-- Die d is fenced off (R317); its gangs stop at the next beat boundary (R318). The distributor that follows a fenced master goes on
from the scoreboard as it stood when the last beat opened. -/
def fenceDie (s : State) (d : Nat) : State :=
  if (s.die d).fenced then s
  else
    let board := if d = masterDie s then s.dist.mirror else s.dist.scoreboard
    let s := s.modDie d fun x => { x with fenced := true }
    devEvent { s with dist := { s.dist with scoreboard := board } } 6 d 382 0

/-- The tasks of attached gangs that issue on die d. -/
def issuers (s : State) (d : Nat) : List Nat :=
  ((List.range 96).map fun i => tkey (96 * d + i) (s.issuing (96 * d + i))).filter s.attached

/-- A transition window opens on die d and ends within 3,200 ticks (R362) at level l; rising: it brings a faster grant. -/
def openWindow (s : State) (d l : Nat) (rising : Bool) : State :=
  let (c, s) := s.choose
  s.modDie d fun x =>
    { x with power := { x.power with window := some (x.tick2 / 2 + 1 + c % 3200, l), rising := rising
                                     cheaper := if rising then x.power.cheaper else none } }

/-- The switch point of R359, once every issuing task has retired a swpt that read the cheaper grant. -/
def switchPoint (s : State) (d : Nat) : State :=
  let p := (s.die d).power
  if p.cheaper.isSome ∧ p.window.isNone ∧ (issuers s d).all fun k => p.switched.contains (k, p.grant) then openWindow s d p.grant false
  else s

/-- The switch points that have come because tasks have ended or detached (R359). -/
def switchPoints (s : State) : State := (List.range 8).foldl switchPoint s

/-- The level that die d has to grant: the larger of the requested level and the floor (R355). -/
def targetOf (s : State) (d : Nat) : Nat := Nat.max (s.reg (regPwrctl d) % 4) (floorOf (s.die d).power)

/-- The grant of die d follows the level it has to grant (R355): a cheaper level is granted at once, and the clock follows at the switch
point (R359); a return to the level at which the clock runs is granted at once too, and only a die that skips clock edges still waits for
its switch point (R361); any other faster level waits for a transition window (R360). -/
def regrant (s : State) (d : Nat) : State :=
  let p := (s.die d).power
  let target := targetOf s d
  if target = p.grant then s.modDie d fun x => { x with power := { x.power with faster := none } }
  else if p.grant < target then
    let s := s.modDie d fun x =>
      { x with power := { x.power with grant := target, faster := none
                                       switched := if p.cheaper.isNone then [] else x.power.switched
                                       cheaper := some (x.tick2 / 2) } }
    switchPoint s d
  else if p.cheaper.isSome ∧ target = p.run then
    let s := s.modDie d fun x =>
      { x with power := { x.power with grant := target, faster := none, cheaper := if p.skip then p.cheaper else none } }
    switchPoint s d
  else s.modDie d fun x => { x with power := { x.power with faster := some target } }

/-- The end of the transition window of die d (R360-R362): the clock runs at the new level, unless the faster grant that the window was
to bring has been withdrawn in it; the grant follows what has changed since; held causes detach their gangs. -/
def endWindow (s : State) (d : Nat) : State :=
  let p := (s.die d).power
  match p.window with
  | none => s
  | some (_, l) =>
    let s := s.modDie d fun x =>
      { x with power :=
          if p.rising ∧ p.faster.isNone then { x.power with window := none, rising := false, held := [] }
          else if p.rising then
            { x.power with window := none, rising := false, held := [], run := l, grant := l, skip := false, faster := none, cheaper := none }
          else { x.power with window := none, held := [], run := l, skip := false } }
    let s := p.held.foldl (fun s h => detach s h.1 h.2.1 h.2.2.1 h.2.2.2) s
    switchPoint (regrant s d) d

/-- One threshold after a reading: engaged at t or above, released below t - 2, kept for the dwell after a change (R358). -/
def threshold (on : Bool) (ch : Option Nat) (t temp now : Nat) : Bool × Option Nat :=
  let may : Bool := match ch with | none => true | some c => decide (c + dwell ≤ now)
  if !may then (on, ch)
  else if !on ∧ t ≤ temp then (true, some now)
  else if on ∧ temp + 2 < t then (false, some now)
  else (on, ch)

/-- The power state of die d with its thresholds as its sensor and PWRCTL now have them (R358). -/
def thresholds (s : State) (d : Nat) : Power :=
  let r := s.reg (regPwrctl d)
  let p := (s.die d).power
  let now := (s.die d).tick2 / 2
  let a := threshold p.on1 p.ch1 (slice r 8 8) p.temp now
  let b := threshold p.on2 p.ch2 (slice r 16 8) p.temp now
  let c := threshold p.onc p.chc (slice r 24 8) p.temp now
  { p with on1 := a.1, ch1 := a.2, on2 := b.1, ch2 := b.2, onc := c.1, chc := c.2 }

/-- The thresholds of die d follow its sensor: a threshold tc that engages fences the die, and the grant follows the floor (R355, R358). -/
def feel (s : State) (d : Nat) : State :=
  let p := thresholds s d
  let crit := p.onc && !(s.die d).power.onc
  let s := s.modDie d fun x => { x with power := p }
  regrant (if crit then fenceDie s d else s) d

/-- A threshold of die d changes now, because its dwell is over (R358). -/
def feelDue (s : State) (d : Nat) : Bool := thresholds s d != (s.die d).power

/-- PWRCTL of a die is written by the firmware, or by the driver, which leaves tc (R356): req 3 is ignored. -/
def execPwrctlWrite (die val : Nat) (s : State) : Result :=
  let old := s.reg (regPwrctl die)
  let req := if val % 4 = 3 then old % 4 else val % 4
  .next (feel (s.setReg (regPwrctl die) (slice val 8 24 * 2 ^ 8 + req)) die)

/-- The sensor of a die reads temp (R357, R358). -/
def execThermalThresholdChange (die temp : Nat) (s : State) : Result :=
  .next (feel (s.modDie die fun x => { x with power := { x.power with temp := Nat.min temp 255 } }) die)

/-- The retention time of a refresh group in ticks (R79). -/
def retention (hot : Bool) : Nat := if hot then 25600000 else 51200000

/-- The retention state that the sensor of a stack asks for, if it may change now (R79): hot above 85, cool below 83, with the dwell of
R358. -/
def stackTurns (s : State) (stack : Nat) : Option Bool :=
  let x := s.stack stack
  let now := (s.die (stack / 2)).tick2 / 2
  let may : Bool := match x.since with | none => true | some c => decide (c + dwell ≤ now)
  if may && !x.hot && decide (85 < x.temp) then some true
  else if may && x.hot && decide (x.temp < 83) then some false
  else none

/-- The retention state of a stack changes. On the change to hot every deadline becomes the smaller of its value and last refresh +
25,600,000; early stands for the groups that have not been refreshed yet (R79). -/
def turnStack (s : State) (stack : Nat) : State :=
  let now := (s.die (stack / 2)).tick2 / 2
  match stackTurns s stack with
  | none => s
  | some false => s.modStack stack fun x => { x with hot := false, since := some now }
  | some true =>
    let s := s.modStack stack fun x => { x with hot := true, early := true, since := some now }
    (List.range 48).foldl (fun s i => s.modChan (48 * stack + i) fun c =>
      { c with refresh := c.refresh.map fun e =>
          (e.1, e.2.map fun r => { r with deadline := Nat.min r.deadline (r.last + 25600000) }) }) s

/-- The sensor of a stack reads temp (R79). -/
def execStackHotChange (stack temp : Nat) (s : State) : Result :=
  .next (turnStack (s.modStack stack fun x => { x with temp := temp }) stack)

/-- The die skips clock edges from 12,800 ticks after its grant became cheaper, if the switch point has not come (R361). -/
def skipDue (s : State) (d : Nat) : Bool :=
  let x := s.die d
  x.power.window.isNone && x.power.run != x.power.grant
    && match x.power.cheaper with | some t => decide (t + 12800 ≤ x.tick2 / 2) | none => false

/-- The die skips clock edges (R361). -/
def skipClock (s : State) (d : Nat) : State :=
  s.modDie d fun x => { x with power := { x.power with run := x.power.grant, skip := true } }

/-- If no switch point came 12,800 ticks after a cheaper grant, the die skips clock edges (R361). -/
def execClockSkipTimeout (die : Nat) (s : State) : Result := .next (if skipDue s die then skipClock s die else s)

/-- The transition window is over. -/
def windowDue (s : State) (d : Nat) : Bool :=
  match (s.die d).power.window with
  | some (t, _) => decide (t ≤ (s.die d).tick2 / 2)
  | none => false

/-- A transition window ends, and held causes detach their gangs (R362). -/
def execTransitionWindowEnd (die : Nat) (s : State) : Result := .next (if windowDue s die then endWindow s die else s)

/-- The task of the executing S has retired a swpt that read the grant now given (R359). -/
def noteSwitch (s : State) : State :=
  let d := dieOf s.cur.core
  let s := s.modDie d fun x =>
    { x with power := { x.power with switched := x.power.switched.filter (fun y => y.1 != s.key) ++ [(s.key, x.power.grant)] } }
  switchPoint s d

/-- A task that starts in slot k has retired no swpt (R359). -/
def unswitch (s : State) (k : Nat) : State :=
  s.modDie (dieOf (k / 2)) fun x => { x with power := { x.power with switched := x.power.switched.filter fun y => y.1 != k } }

/-- PWR as a task reads it (R357). -/
def pwrValue (s : State) (d : Nat) : Nat :=
  let p := (s.die d).power
  p.temp * 2 ^ 40 + b2n ((s.stack (2 * d)).hot || (s.stack (2 * d + 1)).hot) * 2 ^ 7 + b2n p.skip * 2 ^ 6
    + floorOf p * 2 ^ 4 + p.run * 2 ^ 2 + p.grant

end Sys2Proof.Machine
end

