-- ==== Sys2Proof/Machine/ScalarMemory.lean ====
section
/-!
DEFINITION. The memory side of S (15_conductor R267-R269, 16_ordering R292, R295): translation, loads through the data cache,
stores in walk order, acquire and release; and the walks of the page table (18_translation R325-R329).
-/

namespace Sys2Proof.Machine

/-! ### Translation -/

/-- What a translation answers: a leaf that allows the access, a walk to wait for, or a cause. -/
inductive Found where
  | leaf (l : Leaf)
  | walk
  | cause (code : Nat)
deriving DecidableEq, Repr

/-- A leaf allows a load (0), a store (1) or a fetch (2). -/
def Leaf.allows (l : Leaf) (acc : Nat) : Bool := if acc = 0 then l.r else if acc = 1 then l.w else l.x

/-- A walk for unit of task k put under way, unless one for the page is. -/
def startWalk (s : State) (k unit va : Nat) (ahead : Bool) (cmd : Nat) : State :=
  s.modTask k fun t =>
    if t.tlb.walks.any fun w => w.unit == unit && w.va == va && w.cmd == cmd then t
    else { t with tlb := { t.tlb with walks := t.tlb.walks ++ [{ unit := unit, va := va, ahead := ahead, cmd := cmd }] } }

/-- The CC bit of a leaf is that of the fast-tier frame that va reaches (R59). -/
def placed (s : State) (l : Leaf) (va : Nat) : Bool :=
  region (l.phys va) != .fast || l.cc == s.ccFrame (l.phys va)

/-- A lookup in the conductor TLB of task k (R328): the placement and the permission is checked at every use; a miss starts a walk. -/
def translate (s : State) (k unit va acc perm : Nat) : State × Found :=
  match lookup (s.task k).tlb.cond va with
  | some (l, c) =>
    let s := s.modTask k fun t => { t with tlb := { t.tlb with cond := c } }
    if !placed s l va then (s, .cause (if perm = 175 then 176 else perm))
    else if l.allows acc then (s, .leaf l) else (s, .cause perm)
  | none => (startWalk s k unit va false 0, .walk)

/-- The address va of S translated for access acc; body is given the physical address (R267). -/
def withPhys (va acc : Nat) (body : Nat → State → State) (s : State) : State :=
  match translate s s.key 0 va acc 175 with
  | (s, .leaf l) => body (l.phys va) s
  | (s, .walk) => waitFor .retry s
  | (s, .cause c) => trapAt c va s

/-! ### The data cache and the stores under way -/

/-- The memory that the data cache serves (R268). -/
def cacheable (pa : Nat) : Bool := region pa == .fast || region pa == .cap

/-- A line put into the cache of 1,024 lines (R268); which line leaves a full cache is open. -/
def fillLine (s : State) (k line : Nat) (m : Mem) : State :=
  let c := (s.task k).s.cache
  let (v, s) := if 1024 ≤ c.length then s.choose else (0, s)
  let c := if 1024 ≤ c.length then c.eraseIdx (v % c.length) else c
  s.modTask k fun t => { t with s := { t.s with cache := Sparse.wr none c line (some m) } }

/-- The invalidation of the cache by an acquire at scope sc (R268). -/
def acquireAt (s : State) (k sc : Nat) : State :=
  if 2 ≤ sc then s.modTask k fun t => { t with s := { t.s with cache := [] } } else s

/-! ### Loads -/

/-- S waits for its load: from a present line that the cache has kept, or by a piece (R268). -/
def startLoad (d size : Nat) (sgn : Bool) (acq : Option Nat) (va pa : Nat) (s : State) : State :=
  let line := pa / 64
  let present := acq.isNone && cacheable pa && (Sparse.rd none s.me.s.cache line).isSome
  let (c, s) := if present then s.choose else (0, s)
  let hit := present && c % 2 == 0
  let s := if present && !hit then
      s.modMe fun t => { t with s := { t.s with cache := Sparse.wr none t.s.cache line none } }
    else s
  let whole := acq.isNone && cacheable pa
  let (id, s) :=
    if hit then (0, s)
    else sendPiece s { core := s.cur.core, bank := s.cur.bank, die := dieOf s.cur.core, own := .sLoad,
                       pa := if whole then line * 64 else pa, len := if whole then 64 else size }
  if !hit ∧ id = 0 then s.modMyEng fun x => { x with stopped := true }
  else
    waitFor .load (s.modMe fun t => { t with s := { t.s with
      load := some { d := d, size := size, sgn := sgn, acq := acq, va := va, pa := pa, piece := id } } })

/-- A piece of S is on its way to the n bytes at va, which the instruction at the issue stage needs (R125, R268; log entry 14). -/
def startRead (va n pa : Nat) (s : State) : State :=
  let (id, s) := sendPiece s { core := s.cur.core, bank := s.cur.bank, die := dieOf s.cur.core, own := .sLoad, pa := pa, len := n }
  if id = 0 then s.modMyEng fun x => { x with stopped := true }
  else waitFor .load (s.modMe fun t => { t with s := { t.s with load := some { size := n, va := va, pa := pa, piece := id, keep := true } } })

/-- The n bytes at va are read through the TLB of S and given to body (R272, R284, R285); S waits for them. -/
def withBytes (va n : Nat) (body : List Byte → State → State) (s : State) : State :=
  match s.me.s.got.filter fun g => g.1 == va && g.2.length == n with
  | some g => body g.2 (s.modMe fun t => { t with s := { t.s with got := none } })
  | none => if s.me.s.load.isSome then waitFor .load s else withPhys va 0 (startRead va n) s

/-- A load of size bytes at va into sD (R267): it waits for its data. -/
def loadAt (d size : Nat) (sgn : Bool) (acq : Option Nat) (va : Nat) (s : State) : State :=
  if s.me.s.load.isSome then waitFor .load s
  else if va % size ≠ 0 then trap 5 s
  else withPhys va 0 (startLoad d size sgn acq va) s

/-- A plain load. -/
def loadOp (d size : Nat) (sgn : Bool) (a imm : Nat) (s : State) : State :=
  issue false (fun s => loadAt d size sgn none (effective s a imm) s) s

/-- The value of a load from its bytes. -/
def loadValue (size : Nat) (sgn : Bool) (bs : List Byte) : Word :=
  if sgn then BitVec.ofInt 64 (sext (bytesToNat bs) (8 * size)) else BitVec.ofNat 64 (bytesToNat bs)

/-- The engine whose waiting instruction an event completes becomes the executing one. -/
def focus (s : State) (k : Nat) (e : Eng) : State :=
  let x := s.eng k e
  { s with cur := { core := k / 2, bank := k % 2, eng := e, ch := {}, pc := x.pc, size := x.size } }

/-- The load of S of task k retires with the bytes it has read from base (R258, R267), or keeps them for the instruction that waits. -/
def retireLoad (s : State) (k : Nat) (l : SLoad) (base : Nat) (bs : List Byte) : State :=
  let bs := (bs.drop (l.pa - base)).take l.size
  if l.keep then
    (s.modTask k fun t => { t with s := { t.s with load := none, got := some (l.va, bs) } }).modEng k .s fun x => { x with wait := .retry }
  else
    let s := focus (s.modTask k fun t => { t with s := { t.s with load := none } }) k .s
    advance (setS s l.d (loadValue l.size l.sgn bs))

/-- The data of S's load returns (R268): from the line, or from a piece that has been served; a miss fills its line. -/
def returnLoad (s : State) (k : Nat) : State :=
  match (s.task k).s.load with
  | none => s
  | some l =>
    if (s.eng k .s).stopped then s
    else if l.piece = 0 then
      let line := l.pa / 64
      let m := (Sparse.rd none (s.task k).s.cache line).getD []
      retireLoad s k l (64 * line) (m.rdList 0 64)
    else
      match readyPiece s l.piece with
      | (s, none) => s
      | (s, some p) =>
        let s := dropPiece s l.piece
        if p.st = .bad then s.modEng k .s fun x => { x with stopped := true }
        else
          let s := if p.len = 64 ∧ !l.keep then fillLine s k (l.pa / 64) (Mem.wrList [] 0 p.data) else s
          retireLoad s k l p.pa p.data

/-! ### Stores -/

/-- The tokens of smark that waited for the stores now done (R276). -/
def settleMarks (s : State) (k : Nat) : State :=
  let marks := (s.task k).s.marks.map fun m => (m.1, m.2 - 1)
  let s := s.modTask k fun t => { t with s := { t.s with marks := marks.filter fun m => m.2 != 0 } }
  (marks.filter fun m => m.2 == 0).foldl (fun s m => completeToken s k .s m.1) s

/-- The oldest store of S that has not performed is sent (R258, R295: stores perform in walk order). One for a peer that cannot be
reached is over: its gang has raised code 334 (R154). -/
def sendStore (s : State) (k : Nat) : State :=
  match (s.task k).s.stores with
  | [] => s
  | st :: r =>
    if st.piece ≠ 0 then s
    else
      let (id, s) := sendPiece s { core := k / 2, bank := k % 2, die := dieOf (k / 2), own := .sStore, pa := st.pa,
                                   len := st.size, wr := true, data := natToBytes st.size st.val }
      if id = 0 then settleMarks (s.modTask k fun t => { t with s := { t.s with stores := r } }) k
      else s.modTask k fun t => { t with s := { t.s with stores := { st with piece := id } :: r } }

/-- S's store of the low size bytes of v retires (R267, R268): a present line takes it; it performs later. -/
def startStore (size : Nat) (v : Word) (pa : Nat) (s : State) : State :=
  let val := v.toNat % 256 ^ size
  let st : SStore := { pa := pa, size := size, val := val }
  let s := s.modMe fun t =>
    { t with s := { t.s with
        stores := t.s.stores ++ [st]
        cache := match Sparse.rd none t.s.cache (pa / 64) with
          | some m => Sparse.wr none t.s.cache (pa / 64) (some (m.wrN (pa % 64) size val))
          | none => t.s.cache } }
  advance (sendStore s s.key)

/-- A store of size bytes at va. -/
def storeAt (size : Nat) (d va : Nat) (s : State) : State :=
  if va % size ≠ 0 then trap 5 s else withPhys va 1 (startStore size (sv s d)) s

/-- A plain store. -/
def storeOp (d size : Nat) (a imm : Nat) (s : State) : State :=
  issue false (fun s => storeAt size d (effective s a imm) s) s

/-- The oldest store of S performs, if its target has it (R292). -/
def performStore (s : State) (k : Nat) : State :=
  match (s.task k).s.stores with
  | [] => s
  | st :: _ =>
    if st.piece = 0 then sendStore s k
    else
      match readyPiece s st.piece with
      | (s, none) => s
      | (s, some p) =>
        let s := dropPiece s p.id
        let s := s.modTask k fun t => { t with s := { t.s with stores := t.s.stores.drop 1 } }
        sendStore (settleMarks s k) k

/-! ### The walker -/

/-- What the end of a walk of unit means to the engine that waits: the cause of R327 by its source. -/
def walkCause (unit : Nat) (e : WalkEnd) : Nat :=
  let codes := if unit = 0 then (174, 176, 175) else if unit = 1 then (198, 200, 199) else (150, 151, 151)
  match e with
  | .absent => codes.1
  | .attr => codes.2.1
  | _ => codes.2.2

/-- The engine for which a walk of unit runs. -/
def walkEngine (unit : Nat) : Eng := if unit = 0 then .s else if unit = 1 then .c else (Eng.ofTag (unit - 2)).getD .s

/-- A command of C stops at the failing page, and C takes the cause (R126). -/
def failCommand (s : State) (k cmd code va : Nat) : State :=
  if cmd = 0 then raiseCause (s.modEng k .c fun x => { x with stopped := true }) k code va 0
  else
    raiseCause (s.modTask k fun t =>
      { t with c := { t.c with cmds := t.c.cmds.map fun c => if c.id = cmd then { c with failed := true } else c } }) k code va 0

/-- The access that waits for a walk of a unit of task k cannot be made: its engine or its command stops, with a cause. -/
def failAccess (s : State) (k : Nat) (w : Walk) (code : Nat) : State :=
  if w.unit = 1 then failCommand s k w.cmd code w.va
  else raiseCause (s.modEng k (walkEngine w.unit) fun x => { x with stopped := true }) k code w.va 0

/-- The oldest walk of a unit of task k ends (R325-R329): a leaf that passed the attribute checks is cached; a failure raises its
cause for the access that waits, unless it was a fetch ahead. A table strip that cannot be read is a machine check (R89), and one of a
lost pseudo-channel code 303 (R93). -/
def endWalk (s : State) (k unit : Nat) : State :=
  match (s.task k).tlb.walks.find? fun w => w.unit == unit with
  | none => s
  | some w =>
    let s := s.modTask k fun t => { t with tlb := { t.tlb with walks := t.tlb.walks.erase w } }
    let v := match s.gangOf k with | some g => g.vf | none => 0
    match walk s v w.va with
    | (s, .leaf l) =>
      s.modTask k fun t =>
        if unit = 1 then { t with tlb := { t.tlb with strm := cacheLeaf 16 t.tlb.strm l } }
        else { t with tlb := { t.tlb with cond := cacheLeaf 64 t.tlb.cond l } }
    | (s, .bad pa) =>
      if w.ahead then s
      else if isLost s (chanOf pa) then failAccess s k w 303
      else machineCheck s (k / 2) 2 (s.stripOf pa) (pa / 32 * 32) (syndrome s (s.stripOf pa))
    | (s, e) => if w.ahead then s else failAccess s k w (walkCause unit e)

/-- A walk of the page table ends (R325). -/
def execPageWalk (core bank unit : Nat) (s : State) : Result := .next (endWalk s (tkey core bank) unit)

/-! ### The instructions -/

/-- sD ← a sign-extended byte at sA + sext(imm) (R267). -/
def execLdI8 (d a imm : Nat) (s : State) : Result := .next (loadOp d 1 true a imm s)

/-- sD ← a zero-extended byte at sA + sext(imm) (R267). -/
def execLdN8 (d a imm : Nat) (s : State) : Result := .next (loadOp d 1 false a imm s)

/-- sD ← a sign-extended halfword at sA + sext(imm) (R267). -/
def execLdI16 (d a imm : Nat) (s : State) : Result := .next (loadOp d 2 true a imm s)

/-- sD ← a zero-extended halfword at sA + sext(imm) (R267). -/
def execLdN16 (d a imm : Nat) (s : State) : Result := .next (loadOp d 2 false a imm s)

/-- sD ← a sign-extended word at sA + sext(imm) (R267). -/
def execLdI32 (d a imm : Nat) (s : State) : Result := .next (loadOp d 4 true a imm s)

/-- sD ← a zero-extended word at sA + sext(imm) (R267). -/
def execLdN32 (d a imm : Nat) (s : State) : Result := .next (loadOp d 4 false a imm s)

/-- sD ← 64 bits at sA + sext(imm) (R267). -/
def execLdI64 (d a imm : Nat) (s : State) : Result := .next (loadOp d 8 false a imm s)

/-- The low 1 bytes of sD → sA + sext(imm) (R267). -/
def execSt8 (d a imm : Nat) (s : State) : Result := .next (storeOp d 1 a imm s)

/-- The low 2 bytes of sD → sA + sext(imm) (R267). -/
def execSt16 (d a imm : Nat) (s : State) : Result := .next (storeOp d 2 a imm s)

/-- The low 4 bytes of sD → sA + sext(imm) (R267). -/
def execSt32 (d a imm : Nat) (s : State) : Result := .next (storeOp d 4 a imm s)

/-- The low 8 bytes of sD → sA + sext(imm) (R267). -/
def execSt64 (d a imm : Nat) (s : State) : Result := .next (storeOp d 8 a imm s)

/-- Acquire load of 64 bits at scope sx (R269): at scope 2 to 4 the cache is invalidated first; the load bypasses it. -/
def execLdAcq (d a sx : Nat) (s : State) : Result :=
  .next (issue false (fun s =>
    let va := (sv s a).toNat % 2 ^ 56
    if s.me.s.load.isSome then waitFor .load s
    else if va % 8 ≠ 0 then trap 5 s
    else withPhys va 0 (fun pa s => startLoad d 8 false (some sx) va pa (acquireAt s s.key sx)) s) s)

/-- Release store of 64 bits (R269): it performs after every earlier store of S, which the order of R295 gives; what S has
observed to complete has performed. -/
def execStRel (d a _sx : Nat) (s : State) : Result :=
  .next (issue false (fun s => storeAt 8 d ((sv s a).toNat % 2 ^ 56) s) s)

/-- The data of an S load returns (R268). -/
def execSLoadReturn (core bank : Nat) (s : State) : Result := .next (returnLoad s (tkey core bank))

/-- An S store performs at its target (R292). -/
def execSStorePerform (core bank : Nat) (s : State) : Result := .next (performStore s (tkey core bank))

end Sys2Proof.Machine
end

