-- ==== Sys2Proof/Machine/Control.lean ====
section
/-!
DEFINITION. The walk of the program text: block headers, counts, path records (02_program_text R28-R33), nop16 and bw (R37), the
control instructions of S (15_conductor R270-R272, R284), and what S feeds to the other engines by queue (R279, R280).
-/

namespace Sys2Proof.Machine

/-- An engine reads a block header (R28). -/
def execBlockHeader (ty imm lx rl : Nat) (s : State) : Result :=
  let s := if s.cur.eng = .v then cycleV s s.key else s
  .next (readHeader s s.key s.cur.eng ty imm lx rl)

/-- The engine of that tag pops a count from its REPN queue, if it stands at a header with repeat 0 (R29). -/
def execRepnPop (core bank eng : Nat) (s : State) : Result :=
  let k := tkey core bank
  let e := (Eng.ofTag eng).getD .s
  let x := s.eng k e
  .next (if x.phase = .count ∧ !x.stopped then popCount s k e else s)

/-- The engine of that tag takes the next path record, if it stands at the end of an S block (R33). -/
def execPathRecordTake (core bank eng : Nat) (s : State) : Result :=
  let k := tkey core bank
  let e := (Eng.ofTag eng).getD .s
  let x := s.eng k e
  .next (if e ≠ .s ∧ x.phase = .path ∧ !x.stopped then takeRecord s k e else s)

/-- nop16 takes one cycle (R37). -/
def execNop16 (s : State) : Result := .next (advance (if s.cur.eng = .v then cycleV s s.key else s))

/-- The executing engine observes its target beat: its cursor moves there, and C's next command starts an anchor (R37, R73). Its bw is
one cycle of V (log entry 68). -/
def observeBeat (target : Nat) (s : State) : State :=
  let s := if s.cur.eng = .v then cycleV s s.key else s
  let s := learnBeat s s.key s.cur.eng target
  let cursor := (target + 2 ^ 48 - s.me.csr.tbb) % 2 ^ 48
  let s := s.modMyEng fun x => { x with cursor := cursor }
  let s := if s.cur.eng = .c then s.modMe fun t => { t with c := { t.c with anchor := none } } else s
  advance s

/-- bw waits until beat cursor + n, taken from TBB, is open (R37, R68). -/
def execBw (nx : Nat) (s : State) : Result :=
  let target := beatAt (s.die (dieOf s.cur.core)).beat ((s.myEng.cursor + nx + s.me.csr.tbb) % 2 ^ 48)
  .next (if target ≤ (s.die (dieOf s.cur.core)).beat then observeBeat target s else waitFor (.beat target) s)

/-- The boundary signal reaches an engine that waits at bw (R88). -/
def wakeBeat (s : State) (k : Nat) (e : Eng) : State :=
  let x := s.eng k e
  match x.wait with
  | .beat target =>
    if target ≤ (s.die (dieOf (k / 2))).beat ∧ !x.stopped ∧ mayIssue s k then observeBeat target (focus s k e) else s
  | _ => s

/-- An engine observes a beat opening (R88). -/
def execBeatObserved (core bank eng : Nat) (s : State) : Result :=
  .next (wakeBeat s (tkey core bank) ((Eng.ofTag eng).getD .s))

/-! ### Branches -/

/-- The byte address of the executing word's first halfword, past its prefixes. -/
def wordAddress (s : State) : Nat := s.cur.pc + 2 * (s.cur.size - 2)

/-- The target of an offset in halfwords (R31, R270). -/
def branchTarget (s : State) (off : Nat) : Nat := (((wordAddress s : Int) + 2 * sext off 20) % (2 ^ 56 : Nat)).toNat

/-- S leaves the block by a taken record (R32). -/
def takeBranch (target : Nat) (s : State) : State := leaveBlockS s s.key 1 target

/-- A branch that cond decides at issue (R270). -/
def branchOp (off : Nat) (cond : State → Bool) (s : State) : State :=
  issue false (fun s => if cond s then takeBranch (branchTarget s off) s else advance s) s

/-- Branches where pN is T (R270). -/
def execBT (px off : Nat) (s : State) : Result := .next (branchOp off (fun s => pv s px == 1) s)
/-- Branches where pN is F (R270). -/
def execBF (px off : Nat) (s : State) : Result := .next (branchOp off (fun s => pv s px == 0) s)
/-- Branches where pN is U (R270). -/
def execBU (px off : Nat) (s : State) : Result := .next (branchOp off (fun s => pv s px == 2) s)
/-- Always branches (R270). -/
def execB (off : Nat) (s : State) : Result := .next (branchOp off (fun _ => true) s)

/-- The address after the body of the running block (R271). -/
def linkAddress (s : State) : Word := BitVec.ofNat 64 (s.myEng.body + 2 * s.myEng.len)

/-- sD ← link; branches (R271). -/
def execJal (d off : Nat) (s : State) : Result :=
  .next (issue false (fun s => takeBranch (branchTarget s off) (setS s d (linkAddress s))) s)

/-- Branches to the address in sA; sD ← link (R271). -/
def execJr (d a : Nat) (s : State) : Result :=
  .next (issue false (fun s => takeBranch ((sv s a).toNat % 2 ^ 56) (setS s d (linkAddress s))) s)

/-- A switch point (R272): the block is left to the table entry of the granted level, and the die counts the task as switched
(R359). -/
def execSwpt (a : Nat) (s : State) : Result :=
  .next (issue false (fun s =>
    let va := (sv s a).toNat % 2 ^ 56
    let l := (s.die (dieOf s.cur.core)).power.grant
    if va % 8 ≠ 0 then trap 5 s
    else withBytes ((va + 8 * l) % 2 ^ 56) 8 (fun bs s => noteSwitch (takeBranch (bytesToNat bs % 2 ^ 56) s)) s) s)

/-! ### The end of a task -/

/-- A successor descriptor is well formed (R316): even entry of 56 bits, compat 0 or 1, every reserved bit 0. -/
def successorOk (ws : List Nat) : Bool :=
  let w (i : Nat) : Nat := ws.getD i 0
  w 0 % 2 == 0 && w 0 / 2 ^ 56 == 0 && w 2 / 2 ^ 21 == 0 && decide (w 2 % 16 < 2) && (ws.drop 3).all fun x => x == 0

/-- S ends its task with an end record (R284). -/
def endTask (succ : Option (List Nat)) (s : State) : State :=
  let s := s.modMe fun t => { t with s := { t.s with succ := succ, ended := true } }
  let s := match s.me.gang with
    | some g => s.modGang g fun g => { g with exits := g.exits ++ [(s.key, s.me.s.arrivals)] }
    | none => s
  leaveBlockS (stepOver s) s.key 2 0

/-- exit (R284, R316). -/
def execExit (a : Nat) (s : State) : Result :=
  .next (issue false (fun s =>
    if a = 0 then endTask none s
    else
      let va := (sv s a).toNat % 2 ^ 56
      if va % 64 ≠ 0 then trap 5 s
      else withBytes va 64 (fun bs s =>
        let ws := bytesToWords 8 bs
        if successorOk ws then endTask (some ws) s else trap 1 s) s) s)

/-! ### Queues that S fills -/

/-- Engine e waits for the path record of the block that S runs (R279). -/
def waitsForBlock (s : State) (k : Nat) (e : Eng) : Bool :=
  let x := s.eng k e
  x.phase == .path && x.serial == (s.eng k .s).serial

/-- Appends sA[15:0] to the REPN queue of engine E (R279). -/
def execRepn (ex a : Nat) (s : State) : Result :=
  .next (issue false (fun s =>
    let v := (sv s a).toNat
    let e := (Eng.ofTag ex).getD .s
    let q := Sparse.rd [] s.me.repn e.tag
    if 2 ^ 16 ≤ v then trap 1 s
    else if q.length < 4 then
      advance (s.modMe fun t => { t with repn := Sparse.wr [] t.repn e.tag (q ++ [v]) })
    else if e = .s ∨ waitsForBlock s s.key e then trap 4 s
    else waitFor .retry s) s)

/-- Appends sA to hq (R280). -/
def execHandC (a : Nat) (s : State) : Result :=
  .next (issue false (fun s =>
    if s.me.hq.length < 8 then advance (s.modMe fun t => { t with hq := t.hq ++ [sv s a] })
    else if waitsForBlock s s.key .c then trap 4 s
    else waitFor .retry s) s)

/-- Sends sA to A's register aN, which sees it when it takes the record of this block (R247, R280). A names a0 to a15, so a
number from 16 on is refused (log entry 15). -/
def execHandA (a nx : Nat) (s : State) : Result :=
  .next (issue false (fun s =>
    let v := sv s a
    if 16 ≤ nx then trap 1 s
    else advance (s.modMe fun t =>
      { t with late := t.late ++ [{ eng := .a, serial := s.myEng.serial, what := .areg nx v }] })) s)

end Sys2Proof.Machine
end

