-- ==== Sys2Proof/Machine/System.lean ====
section
/-!
DEFINITION. The system side of S: time and alignment (08_dies_time R144, R151), fences, barriers and marks (15_conductor
R275-R278, R283), events (R282), launches by post (R285), control and status registers (R286-R288), system calls (R289).
-/

namespace Sys2Proof.Machine

/-! ### Time -/

/-- Requests alignment at the boundary at which the named beat opens (R144). -/
def execPalign (a imm : Nat) (s : State) : Result :=
  .next (issue false (fun s =>
    let now := s.now (dieOf s.cur.core)
    let b := beatAt now.beat (((sv s a + immS s imm).toNat + s.me.csr.tbb) % 2 ^ 48)
    if b ≤ now.beat ∨ s.delta now ⟨b, 0⟩ < 128 then trap 346 s
    else if s.grid.aligns.contains b then advance s
    else if 16 ≤ (s.grid.aligns.filter fun x => decide (now.beat < x)).length then trap 359 s
    else advance { s with grid := { s.grid with aligns := s.grid.aligns ++ [b] } }) s)

/-- S stalls until NTIME reaches sA (R151). -/
def execWaitt (a : Nat) (s : State) : Result :=
  .next (issue false (fun s =>
    if (sv s a).toNat ≤ (s.die (dieOf s.cur.core)).ntime then advance s else waitFor (.waitt (sv s a)) s) s)

/-- S wakes from waitt once NTIME has reached its operand (R151). -/
def wakeWaitt (s : State) (k : Nat) : State :=
  let x := s.eng k .s
  match x.wait with
  | .waitt t => if t.toNat ≤ (s.die (dieOf (k / 2))).ntime ∧ !x.stopped ∧ mayIssue s k then advance (focus s k .s) else s
  | _ => s

/-- S wakes from waitt (R151). -/
def execWaittWake (core bank : Nat) (s : State) : Result := .next (wakeWaitt s (tkey core bank))

/-! ### Order -/

/-- The earlier work of engine e of task k, up to the block that S runs, has finished (R275). -/
def workDone (s : State) (k : Nat) (e : Eng) : Bool :=
  let n := (s.eng k .s).serial
  let x := s.eng k e
  match e with
  | .s => (s.task k).s.stores.isEmpty
  | .v => (x.serial == n || (x.phase == .header && (x.serial + 1) % 2 ^ 32 == n)) && (s.task k).v.flights.isEmpty
  | _ => (x.serial == n || (x.phase == .header && (x.serial + 1) % 2 ^ 32 == n)) && x.opn.isEmpty

/-- A fence with this engine mask may retire; a mask of 0 orders S's own stores. -/
def fenceDone (s : State) (k mask : Nat) : Bool :=
  if mask = 0 then workDone s k .s else engines.all fun e => !bitOf mask e.tag || workDone s k e

/-- A fence retires (R275, R299). -/
def retireFence (scope mask : Nat) (s : State) : State := advance (learnFence (acquireAt s s.key scope) s.key mask)

/-- Marker fence (R275). -/
def execFence (sx ex : Nat) (s : State) : Result :=
  .next (issue false (fun s => if fenceDone s s.key ex then retireFence sx ex s else waitFor (.fence sx ex) s) s)

/-- A waiting fence whose engines have finished retires. -/
def wakeFence (s : State) (k : Nat) : State :=
  let x := s.eng k .s
  match x.wait with
  | .fence sc mask => if fenceDone s k mask ∧ !x.stopped ∧ mayIssue s k then retireFence sc mask (focus s k .s) else s
  | _ => s

/-- A waiting fence retires once the named engines' earlier work has finished (R275). -/
def execFenceRetire (core bank : Nat) (s : State) : Result := .next (wakeFence s (tkey core bank))

/-- The conductor TLB drops the translations of a page, or all; C meets the marker in its stream (R278, R307). -/
def invalidate (va : Nat) (all : Bool) (s : State) : State :=
  advance (s.modMe fun t =>
    { t with tlb := { t.tlb with cond := dropLeaf t.tlb.cond va all }
             late := t.late ++ [{ eng := .c, serial := (Sparse.rd {} t.engs 0).serial, what := .tlbi va all }] })

/-- Invalidates the translations of the page that holds sA (R278). -/
def execTlbi (a : Nat) (s : State) : Result :=
  .next (issue false (fun s => invalidate ((sv s a).toNat % 2 ^ 56) false s) s)

/-- Invalidates every translation of the task's address space (R278). -/
def execTlbiAll (s : State) : Result := .next (issue false (fun s => invalidate 0 true s) s)

/-- Waits for earlier stores; every block is fetched from memory on its first pass, so the blocks read later are (R277). -/
def execIsync (s : State) : Result :=
  .next (issue false (fun s => if s.me.s.stores.isEmpty then advance s else waitFor .retry s) s)

/-- A register of the token file as smark writes it (R259): S sees it at issue, the other engines when they take the record. -/
def writeMark (t : Task) (n serial : Nat) (w : Word) : Task :=
  if n = 0 then t
  else
    { t with kreg := Sparse.wr 0 t.kreg n w
             late := t.late ++ [Eng.c, Eng.v, Eng.m, Eng.a].map fun e => { eng := e, serial := serial, what := .tok n w } }

/-- With tko, a token that completes when earlier loads have returned and earlier stores have performed (R276). -/
def execSmark (s : State) : Result :=
  .next (issue s.cur.ch.tko.isSome (fun s =>
    match s.cur.ch.tko with
    | none => advance s
    | some n =>
      let seq := nextSeq s
      let pending := s.me.s.stores.length
      let serial := s.myEng.serial
      let s := s.modMyEng fun x => { x with count := seq, opn := if pending = 0 then x.opn else x.opn ++ [seq] }
      advance (s.modMe fun t =>
        let t := writeMark t n serial (tokenWord .s seq)
        if pending = 0 then t else { t with s := { t.s with marks := t.s.marks ++ [(seq, pending)] } })) s)

/-- The number of barriers that task k of gang g has arrived at. -/
def arrivalsOf (s : State) (g : Gang) (k : Nat) : Nat :=
  match g.exits.find? fun x => x.1 == k with
  | some x => x.2
  | none => (s.task k).s.arrivals

/-- Every task of the gang of task k has arrived at the barrier at which it waits (R283). -/
def barrierOpen (s : State) (k : Nat) : Bool :=
  match s.gangOf k with
  | none => true
  | some g => g.tasks.all fun j => decide (arrivalsOf s g k ≤ arrivalsOf s g j)

/-- A task of the gang has retired exit without reaching that barrier. -/
def barrierBroken (s : State) (k : Nat) : Bool :=
  match s.gangOf k with
  | none => false
  | some g => g.exits.any fun j => decide (j.2 < arrivalsOf s g k)

/-- A barrier retires (R283, R303). -/
def retireBarrier (scope : Nat) (s : State) : State := advance (learnBarrier (acquireAt s s.key scope) s.key s.me.s.arrivals)

/-- The executing S arrives at a barrier (R283). -/
def arrive (s : State) : State :=
  let s := s.modMe fun t => { t with s := { t.s with arrivals := t.s.arrivals + 1 } }
  meetBarrier s s.key s.me.s.arrivals

/-- S of the executing task, arrived at a barrier: it passes, meets an exited task, or waits. -/
def atBarrier (scope : Nat) (s : State) : State :=
  if barrierOpen s s.key then retireBarrier scope s
  else if barrierBroken s s.key then trap 22 s
  else waitFor (.gbar scope true) s

/-- Arrives at a gang barrier once its earlier stores have performed (R283). -/
def execGbar (sx : Nat) (s : State) : Result :=
  .next (issue false (fun s =>
    match s.myEng.wait with
    | .gbar _ true => atBarrier sx s
    | _ =>
      if s.me.s.stores.isEmpty then
        atBarrier sx (arrive s)
      else waitFor (.gbar sx false) s) s)

/-- A waiting barrier is tried again. -/
def wakeBarrier (s : State) (k : Nat) : State :=
  let x := s.eng k .s
  match x.wait with
  | .gbar sc true => if !x.stopped ∧ mayIssue s k then atBarrier sc (focus s k .s) else s
  | .gbar sc false =>
    if !x.stopped ∧ mayIssue s k ∧ (s.task k).s.stores.isEmpty then
      atBarrier sc (arrive (focus s k .s))
    else s
  | _ => s

/-- The barrier retires once every task has arrived (R283). -/
def execGbarRelease (core bank : Nat) (s : State) : Result := .next (wakeBarrier s (tkey core bank))

/-! ### Events and launches -/

/-- Pops the head event record into sD; 0 where there is none (R282). -/
def execEvpop (d : Nat) (s : State) : Result :=
  .next (issue false (fun s =>
    advance (setS (s.modMe fun t => { t with evq := t.evq.drop 1 }) d (BitVec.ofNat 64 (s.me.evq.headD 0)))) s)

/-- Reads the head event record into sD; 0 where there is none (R282). -/
def execEvpeek (d : Nat) (s : State) : Result :=
  .next (issue false (fun s => advance (setS s d (BitVec.ofNat 64 (s.me.evq.headD 0)))) s)

/-- A launch queue breaks (R321). -/
def breakQueue (s : State) (v q : Nat) : State :=
  let a := regQueue v q + 0x18
  devEvent (s.setReg a (putBits (s.reg a) 2 1 1)) 3 v q 0

/-- The tail of a launch queue moves to t, which the replay log records (R309, R371). -/
def moveTail (s : State) (v q t : Nat) : State :=
  replay (s.setReg (regQueue v q + 8) t) 1 (s.die (masterDie s)).beat [v + q * 2 ^ 16, t, 0]

/-- A write through the page table of virtual function v at va, if it is mapped with W. -/
def vfWrite (s : State) (v va : Nat) (bs : List Byte) : State × Bool :=
  match vfPhys s v va 1 with
  | (s, some pa) => (physWrite s pa bs, true)
  | (s, none) => (s, false)

/-- A packet appended to launch queue q of virtual function v (R285, R308): the answer for sD. -/
def postPacket (s : State) (v q : Nat) (bs : List Byte) : State × Nat :=
  let base := s.reg (regQueue v q)
  let tail := s.reg (regQueue v q + 8) % 2 ^ 32
  let head := s.reg (regQueue v q + 0x10) % 2 ^ 32
  let ctl := s.reg (regQueue v q + 0x18)
  let lgn := base % 32
  if bitOf ctl 2 ∨ 2 ≤ ctl % 4 then (s, 2)
  else if lgn = 0 ∨ 16 < lgn then (breakQueue s v q, 2)
  else if 2 ^ lgn ≤ (tail + 2 ^ 32 - head) % 2 ^ 32 then (s, 0)
  else
    match vfWrite s v (slice base 6 50 * 64 + 64 * (tail % 2 ^ lgn)) bs with
    | (s, false) => (breakQueue s v q, 2)
    | (s, true) => (moveTail s v q ((tail + 1) % 2 ^ 32), 1)

/-- Appends the packet at sA to launch queue sB of the task's virtual function (R285). -/
def execPost (d a b : Nat) (s : State) : Result :=
  .next (issue false (fun s =>
    let va := (sv s a).toNat % 2 ^ 56
    let q := (sv s b).toNat
    let v := match s.gangOf s.key with | some g => g.vf | none => 0
    if va % 64 ≠ 0 then trap 5 s
    else if 16 ≤ q then trap 1 s
    else if !s.me.s.stores.isEmpty then waitFor .retry s
    else withBytes va 64 (fun bs s =>
      let r := postPacket s v q bs
      advance (setS r.1 d (BitVec.ofNat 64 r.2))) s) s)

/-! ### Control and status registers -/

/-- SKEW (R141): the largest estimate against any die, and the ticks since the last alignment boundary. -/
def skewValue (s : State) (d : Nat) : Nat :=
  let x := s.die d
  let worst := (List.range 8).foldl (fun m e => Nat.max m (Sparse.rd 0 x.est e).natAbs) 0 / 2
  Nat.min worst 255 * 2 ^ 32 + Nat.min ((x.tick2 - x.aligned2) / 2) (2 ^ 32 - 1)

/-- TASK (R288). -/
def taskValue (s : State) : Nat :=
  let size := match s.gangOf s.key with | some g => g.tasks.length | none => 0
  size * 2 ^ 32 + s.me.index * 2 ^ 16 + s.cur.bank * 2 ^ 10 + s.cur.core

/-- SLIP (R86): its cur field is the slip announced for the beat now open. -/
def slipValue (s : State) : Nat := putBits (s.reg regSlip) 0 12 (Sparse.rd 0 s.grid.slip s.grid.opened)

/-- What a task reads from control and status register n (R287). -/
def csrValue (s : State) (n : Nat) : Nat :=
  let d := dieOf s.cur.core
  let c := s.me.csr
  match n with
  | 0x000 => (s.die d).beat % 2 ^ 48
  | 0x001 => (s.die d).tick2 / 2
  | 0x002 => (s.die d).ntime
  | 0x003 => c.tbb
  | 0x004 => skewValue s d
  | 0x005 => s.reg regBlim
  | 0x006 => slipValue s
  | 0x007 => s.reg regPlanact
  | 0x008 => s.reg regPlanbase
  | 0x010 => c.win
  | 0x011 => c.compat
  | 0x012 => c.mdepth
  | 0x013 => s.myCore.fsplit
  | 0x014 => s.myCore.ssplit
  | 0x015 => taskValue s
  | 0x016 => pwrValue s d
  | 0x018 => c.vst
  | 0x019 => c.jst
  | 0x01A => c.npth
  | 0x01B => c.asts
  | 0x020 => c.bufsel
  | _ => Sparse.rd 0 s.me.bufcnt (4 * c.bufsel + (n - 0x21))

/-- A value written to a register: the registers after it, or the cause (R286, R34, R193, R213, R214, R247, R336). A write that sets
reserved bits of WIN is taken without them (log entry 70). -/
def csrWrite (c : Csrs) (n v : Nat) : Except Nat Csrs :=
  match n with
  | 0x010 => if v % 128 = 0 ∨ 64 < v % 128 then .error 1 else .ok { c with win := v % 128 }
  | 0x018 => if 8 ≤ v then .error 1 else .ok { c with vst := v }
  | 0x019 => if 2048 ≤ v ∨ bitOf v 8 then .error 1 else .ok { c with jst := v }
  | 0x01A => .ok { c with npth := v % 2 ^ 16 }
  | 0x01B => if 8 ≤ v then .error 1 else .ok { c with asts := v }
  | 0x020 => if 256 ≤ v then .error 1 else .ok { c with bufsel := v }
  | _ => .error 2

/-- A write of the value that f makes of a register's old value and sA. -/
def csrUpdate (a cx : Nat) (f : Word → Word → Word) (s : State) : State :=
  issue false (fun s =>
    match csrWrite s.me.csr cx (f (BitVec.ofNat 64 (csrValue s cx)) (sv s a)).toNat with
    | .ok c => advance (s.modMe fun t => { t with csr := c })
    | .error e => trap e s) s

/-- sD ← CSR (R286). -/
def execCsrr (d cx : Nat) (s : State) : Result :=
  .next (issue false (fun s => advance (setS s d (BitVec.ofNat 64 (csrValue s cx)))) s)
/-- CSR ← sA (R286). -/
def execCsrw (a cx : Nat) (s : State) : Result := .next (csrUpdate a cx (fun _ v => v) s)
/-- CSR ← CSR | sA (R286). -/
def execCsrs (a cx : Nat) (s : State) : Result := .next (csrUpdate a cx (fun c v => c ||| v) s)
/-- CSR ← CSR & ~sA (R286). -/
def execCsrc (a cx : Nat) (s : State) : Result := .next (csrUpdate a cx (fun c v => c &&& ~~~v) s)

/-- S retires the instruction and then raises its cause with the immediate (R289). -/
def callOut (code imm : Nat) (s : State) : State :=
  let s := stepOver s
  raiseCause (s.modMyEng fun x => { x with stopped := true }) s.key code 0 (imm % 2 ^ 15)

/-- System call (R289). -/
def execSvc (imm : Nat) (s : State) : Result := .next (issue false (callOut 20 imm) s)
/-- Breakpoint (R289). -/
def execBrk (imm : Nat) (s : State) : Result := .next (issue false (callOut 21 imm) s)

end Sys2Proof.Machine
end

