-- ==== Sys2Proof/Machine/Rows.lean ====
section
/-!
DEFINITION. The row commands and infusions of C (06_access_instructions R100-R114): their operands and checks, the planned start
(04_beats R73) and the acceptance by the channel sequencer (R74).
-/

namespace Sys2Proof.Machine

/-- The executing instruction of C, M or A takes its token and retires; its token stays incomplete. -/
def retireToken (s : State) : State := advance (newToken s).2

/-- The same for an instruction that completes as it retires. -/
def retireDone (s : State) : State :=
  let r := newToken s
  advance (completeToken r.2 r.2.key r.2.cur.eng r.1)

/-- C is in a scratchpad command, or in an rdc that waits for room in the reduction engine (log entry 17). -/
def cBusy (s : State) : Bool := s.cur.eng == .c && (s.me.c.spc.isSome || s.me.c.rdc.isSome)

/-- Issue of an instruction of C, M or A, each of which produces a token. -/
def issueToken (body : State → State) (s : State) : State :=
  issue true (fun s => if cBusy s then waitFor .retry s else body s) s

/-- A command of C that finishes at step 2 of R100: its region is declared, and it has the effect that f gives it. -/
def quick (rgn : List (Nat × Nat × Nat × Bool)) (f : State → State) (s : State) : State :=
  declare rgn (nextSeq s) none false (fun s => retireDone (f s)) s

/-- The gap of a command: a gap prefix counts 64 for each of its units (R37). -/
def gapOf (ch : Chain) (gp : Nat) : Nat := match ch.gap with | none => gp | some x => x * 64 + gp

/-- The cursor and the offset of a command of C (R73). -/
def placeCmd (s : State) (gp nx : Nat) : Nat × Nat :=
  let cursor := s.myEng.cursor
  if nx = 1 then ((cursor + 1) % 2 ^ 48, gapOf s.cur.ch gp)
  else (cursor, s.me.c.anchor.getD 0 + gapOf s.cur.ch gp)

/-- C's cursor and anchor after a command at that place. -/
def setPlace (s : State) (cursor off : Nat) : State :=
  (s.modMyEng fun x => { x with cursor := cursor }).modMe fun t => { t with c := { t.c with anchor := some off } }

/-- The planned start of a command: its named beat is counted from TBB (R68, R73). -/
def planOf (s : State) (p : Nat × Nat) : Point :=
  ⟨beatAt (s.die (dieOf s.cur.core)).beat ((p.1 + s.me.csr.tbb) % 2 ^ 48), p.2⟩

/-- The first time at which a command planned at t reaches the scratchpad of core c at a fixed time: the first landing of a drd (R148;
log entry 82). -/
def landsAt (c : Nat) (t : Point) : CmdKind → List (Nat × Point)
  | .drd _ _ _ _ _ => [(c, ⟨t.beat, t.off + 60⟩)]
  | _ => []

/-- A command sent to the home pseudo-channel's sequencer (R74): C stalls while the queue holds 64 commands or the command names a
beat more than two after the open one; a command that arrives less than 8 ticks before its start is late. src is where the bytes of a
dwr stand. -/
def sendFrom (src : Nat) (kind : CmdKind) (gp nx : Nat) (rgn : List (Nat × Nat × Nat × Bool)) (s : State) : State :=
  let place := placeCmd s gp nx
  let plan := planOf s place
  let now := s.now (dieOf s.cur.core)
  if 64 ≤ (s.chan s.cur.core).cmds.length ∨ now.beat + 2 < plan.beat then waitFor .retry s
  else if s.delta now plan < 8 then trap 250 s
  else
    declareAs { rgn := rgn, seq := nextSeq s, beat := some (s.cur.core, plan.beat + 1) } (landsAt s.cur.core plan kind) false (fun s =>
      let pos := engPos s.myEng
      let r := newToken s
      let s := setPlace r.2 place.1 place.2
      advance (s.modChan s.cur.core fun c =>
        { c with cmds := c.cmds ++ [{ kind := kind, plan := plan, seq := r.1, bank := s.cur.bank, pos := pos, src := src }] })) s

/-- A command whose bytes do not come from the scratchpad. -/
def sendCmd (kind : CmdKind) (gp nx : Nat) (rgn : List (Nat × Nat × Nat × Bool)) (s : State) : State := sendFrom 0 kind gp nx rgn s

/-- The window entry that holds an address (R127, R331). -/
def windowOf (s : State) (va : Nat) : Option Leaf := s.me.tlb.pins.find? fun l => l.maps va

/-- The row that a row address names in the home pseudo-channel, and the W bit of its window entry (R101). -/
def withRow (a : Nat) (body : Nat → Bool → State → State) (s : State) : State :=
  let va := (cv s a).toNat
  if va % 2 ^ 14 ≠ 0 then trap 29 s
  else
    match windowOf s va with
    | none => trapAt 200 va s
    | some l =>
      let pa := l.phys va
      if region pa ≠ .fast ∨ chanOf pa ≠ s.cur.core then trapAt 200 va s
      else if !l.r then trapAt 199 va s
      else body (slice pa 14 16) l.w s

/-- Opens a row of one bank (R107). -/
def execDopen (rl a gp nx : Nat) (s : State) : Result :=
  .next (issueToken (withRow a fun row w => sendCmd (.opn rl row w) gp nx []) s)
/-- Opens a row of every bank into one slot (R107). -/
def execDopenw (rl a gp nx : Nat) (s : State) : Result :=
  .next (issueToken (withRow a fun row w => sendCmd (.opnw rl row w) gp nx []) s)
/-- Pins a row line across beat boundaries (R108). -/
def execDhold (rl gp nx : Nat) (s : State) : Result := .next (issueToken (sendCmd (.hold rl) gp nx []) s)
/-- Releases one row line (R108). -/
def execDrel (rl gp nx : Nat) (s : State) : Result := .next (issueToken (sendCmd (.rel rl) gp nx []) s)
/-- Releases one slot in every bank (R108). -/
def execDrelw (rl gp nx : Nat) (s : State) : Result := .next (issueToken (sendCmd (.relw rl) gp nx []) s)

/-- The strip range of a drd or dwr: start and count (R42, R109). -/
def colRange (ch : Chain) : Nat × Nat := match ch.col with | none => (0, 32) | some x => (slice x 5 5, slice x 0 5 + 1)

/-- Reads strips of a row line into the scratchpad (R109). -/
def execDrd (rl a gp nx : Nat) (s : State) : Result :=
  .next (issueToken (fun s =>
    let j := colRange s.cur.ch
    let x := (cv s a).toNat
    checked (spadChecks s x (32 * j.2) 32)
      (sendCmd (.drd rl x j.1 j.2 s.cur.ch.buf) gp nx (unitRange (spadSpace s.cur.core) x (32 * j.2) true)) s) s)

/-- Writes strips from the scratchpad, read as the command is handed over, into a row line (R109). -/
def execDwr (rl a gp nx : Nat) (s : State) : Result :=
  .next (issueToken (fun s =>
    let j := colRange s.cur.ch
    let x := (cv s a).toNat
    checked (spadChecks s x (32 * j.2) 32)
      (sendFrom x (.dwr rl j.1 j.2 s.cur.ch.buf (Sparse.window s.myCore.spad x (32 * j.2))) gp nx
        (unitRange (spadSpace s.cur.core) x (32 * j.2) false)) s) s)

/-- Refreshes a refresh group of the home pseudo-channel (R110). -/
def execDref (a gp nx : Nat) (s : State) : Result :=
  .next (issueToken (fun s =>
    let g := (cv s a).toNat
    checked [(decide (2 ^ 13 ≤ g), 25)] (sendCmd (.dref g) gp nx []) s) s)

/-- Advances the anchor by its gap without placing a command (R111). -/
def execDgap (gp nx : Nat) (s : State) : Result :=
  .next (issueToken (quick [] fun s => let p := placeCmd s gp nx; setPlace s p.1 p.2) s)

/-- Sets C's beat cursor (R111). -/
def execCbeat (a : Nat) (s : State) : Result :=
  .next (issueToken (fun s =>
    let v := (cv s a).toNat
    checked [(decide (2 ^ 48 ≤ v), 25)] (quick [] fun s =>
      (s.modMyEng fun x => { x with cursor := v }).modMe fun t => { t with c := { t.c with anchor := none } }) s) s)

/-! ### Infusions (R114) -/

/-- An infusion sent to the sequencer: operation, type, d, a and b fields, strips. -/
def infuse (op : IaOp) (bf : Bool) (d a b gp nx sx cx : Nat) (s : State) : State :=
  issueToken (sendCmd (.ia op bf d a b sx (cx + 1)) gp nx []) s

/-- All bytes of each strip of d ← 0 (R114). -/
def execIaZero (d gp nx sx cx : Nat) (s : State) : Result :=
  .next (infuse .zero false d 0 0 gp nx sx cx s)

/-- Bytes of d ← bytes of a (R114). -/
def execIaCopy (d a gp nx sx cx : Nat) (s : State) : Result :=
  .next (infuse .copy false d a 0 gp nx sx cx s)

/-- d ← a + b (R114). -/
def execIaAddBf16 (d a b gp nx sx cx : Nat) (s : State) : Result :=
  .next (infuse .add true d a b gp nx sx cx s)

/-- d ← a + b (R114). -/
def execIaAddF32 (d a b gp nx sx cx : Nat) (s : State) : Result :=
  .next (infuse .add false d a b gp nx sx cx s)

/-- d ← a − b (R114). -/
def execIaSubBf16 (d a b gp nx sx cx : Nat) (s : State) : Result :=
  .next (infuse .sub true d a b gp nx sx cx s)

/-- d ← a − b (R114). -/
def execIaSubF32 (d a b gp nx sx cx : Nat) (s : State) : Result :=
  .next (infuse .sub false d a b gp nx sx cx s)

/-- d ← a × b (R114). -/
def execIaMulBf16 (d a b gp nx sx cx : Nat) (s : State) : Result :=
  .next (infuse .mul true d a b gp nx sx cx s)

/-- d ← a × b (R114). -/
def execIaMulF32 (d a b gp nx sx cx : Nat) (s : State) : Result :=
  .next (infuse .mul false d a b gp nx sx cx s)

/-- d ← a × b + d (R114). -/
def execIaFmaBf16 (d a b gp nx sx cx : Nat) (s : State) : Result :=
  .next (infuse .fma true d a b gp nx sx cx s)

/-- d ← a × b + d (R114). -/
def execIaFmaF32 (d a b gp nx sx cx : Nat) (s : State) : Result :=
  .next (infuse .fma false d a b gp nx sx cx s)

/-- d ← scalar × a + b (R114). -/
def execIaAxpyBf16 (d a b gp nx sx cx : Nat) (s : State) : Result :=
  .next (infuse .axpy true d a b gp nx sx cx s)

/-- d ← scalar × a + b (R114). -/
def execIaAxpyF32 (d a b gp nx sx cx : Nat) (s : State) : Result :=
  .next (infuse .axpy false d a b gp nx sx cx s)

/-- well ← well + a (R114). -/
def execIaAccBf16 (wx a gp nx sx cx : Nat) (s : State) : Result :=
  .next (infuse .acc true wx a 0 gp nx sx cx s)

/-- well ← well + a (R114). -/
def execIaAccF32 (wx a gp nx sx cx : Nat) (s : State) : Result :=
  .next (infuse .acc false wx a 0 gp nx sx cx s)

/-- well ← a, widened exactly (R114). -/
def execIaWldF32 (wx a gp nx sx cx : Nat) (s : State) : Result :=
  .next (infuse .wld false wx a 0 gp nx sx cx s)

/-- well ← a, widened exactly (R114). -/
def execIaWldBf16 (wx a gp nx sx cx : Nat) (s : State) : Result :=
  .next (infuse .wld true wx a 0 gp nx sx cx s)

/-- d ← well, rounded (R114). -/
def execIaWstF32 (d wx gp nx sx cx : Nat) (s : State) : Result :=
  .next (infuse .wst false d wx 0 gp nx sx cx s)

/-- d ← well, rounded (R114). -/
def execIaWstBf16 (d wx gp nx sx cx : Nat) (s : State) : Result :=
  .next (infuse .wst true d wx 0 gp nx sx cx s)

/-- d ← the larger of a and b (R114). -/
def execIaMaxBf16 (d a b gp nx sx cx : Nat) (s : State) : Result :=
  .next (infuse .max true d a b gp nx sx cx s)

/-- d ← the larger of a and b (R114). -/
def execIaMaxF32 (d a b gp nx sx cx : Nat) (s : State) : Result :=
  .next (infuse .max false d a b gp nx sx cx s)

/-- d ← the smaller of a and b (R114). -/
def execIaMinBf16 (d a b gp nx sx cx : Nat) (s : State) : Result :=
  .next (infuse .min true d a b gp nx sx cx s)

/-- d ← the smaller of a and b (R114). -/
def execIaMinF32 (d a b gp nx sx cx : Nat) (s : State) : Result :=
  .next (infuse .min false d a b gp nx sx cx s)

/-- d elements 0–7 ← a, 8–15 ← b, rounded to bf16 (R114). -/
def execIaCvt (d a b gp nx sx cx : Nat) (s : State) : Result :=
  .next (infuse .cvt true d a b gp nx sx cx s)

/-- scalar ← the f32 in bytes 0–3 of strip position j (R114). -/
def execIaScale (a gp nx sx : Nat) (s : State) : Result :=
  .next (infuse .scale false 0 a 0 gp nx sx 0 s)

end Sys2Proof.Machine
end

