-- ==== Sys2Proof/Machine/Sequencer.lean ====
section
/-!
DEFINITION. The channel sequencer (04_beats R72-R77, 06 R103-R114): the checks of a command at its start, the start itself, the
infusions, and the completions; the sends of a transfer, their parity, retries and folds (05_vertical_bus R90-R94, 26 R382-R384).
-/

namespace Sys2Proof.Machine

/-! ### Width of the vertical bus -/

/-- TELS.fold of pseudo-channel p: 0 full width, 1 fold in the current beat, 2 and 3 folded (R94). -/
def foldOf (s : State) (p : Nat) : Nat := slice (s.reg (regTels p)) 8 2
/-- The half that a fold uses: 0 for groups 0-3 if none of them has reached the retry limit, else 1 (R92). -/
def halfOf (s : State) (p : Nat) : Nat := (s.chan p).half
/-- The bus time of n strips in ticks (R75, R92). -/
def busTicks (folded : Bool) (n : Nat) : Nat := if folded then n else (n + 1) / 2
/-- Half ticks from the start of a send to the landing of its strip i (R382). -/
def landHalf (folded : Bool) (i : Nat) : Nat := if folded then 120 + 2 * i else 120 + i

/-! ### Slots that a command names -/

/-- The slots of an infusion: those that it reads as strips, and the one that it writes (R114). -/
def iaSlots (op : IaOp) (d a b : Nat) : List Nat × Option Nat :=
  match op with
  | .zero => ([], some d)
  | .copy => ([a], some d)
  | .add | .sub | .mul | .axpy | .max | .min | .cvt => ([a, b], some d)
  | .fma => ([a, b, d], some d)
  | .acc | .wld | .scale => ([a], none)
  | .wst => ([], some d)

/-- Every slot of all banks that an infusion names. -/
def iaNames (op : IaOp) (d a b : Nat) : List Nat :=
  let x := iaSlots op d a b
  (x.1 ++ x.2.toList).eraseDups

/-- The row lines of a slot in all 16 banks. -/
def wholeSlot (x : Nat) : List Nat := (List.range 16).map fun b => 8 * b + x

/-- The row lines that a command uses (R104). -/
def usesOf : CmdKind → List Nat
  | .drd x _ _ _ _ => [x]
  | .dwr x _ _ _ _ => [x]
  | .ia op _ d a b _ _ => (iaNames op d a b).flatMap wholeSlot
  | _ => []

/-- The length of a command in ticks as planned, to its completion, rounded up (R75, R103). -/
def planTicks (folded : Bool) : CmdKind → Nat
  | .opn _ _ _ => 28
  | .opnw _ _ _ => 192
  | .hold _ => 0
  | .rel _ => 24
  | .relw _ => 24
  | .drd _ _ _ n _ => (landHalf folded (n - 1) + 1) / 2
  | .dwr _ _ n _ _ => busTicks folded n
  | .dref _ => 96
  | .ia _ _ _ _ _ _ n => n

/-- The ticks for which a command uses its row lines and, a transfer, the bus. -/
def useTicks (folded : Bool) : CmdKind → Nat
  | .drd _ _ _ n _ => busTicks folded n
  | k => planTicks folded k

/-! ### The checks at a command's start -/

/-- A point x lies before y. -/
def Point.before (x y : Point) : Bool := decide (x.beat < y.beat) || (x.beat == y.beat && decide (x.off < y.off))

/-- A remembered point stands less than n before t. -/
def tooNear (s : State) (x : Option Point) (t : Point) (n : Nat) : Bool :=
  match x with
  | none => false
  | some x => decide (s.delta x t < n)

/-- A remembered end lies after t. -/
def endsAfter (x : Option Point) (t : Point) : Bool :=
  match x with
  | none => false
  | some x => t.before x

/-- The beat limits of R75 for a command that starts at offset o of the open beat b. -/
def overLimit (s : State) (p b o : Nat) (folded : Bool) (k : CmdKind) : Bool :=
  let len := s.lenOf b
  let wend := s.windowEnd b
  decide ((if s.steep p b then len else wend) ≤ o) ||
    match k with
    | .drd _ _ _ n _ => decide (wend < o + busTicks folded n) || decide (2 * len < 2 * o + landHalf folded (n - 1))
    | .dwr _ _ n _ _ => decide (wend < o + busTicks folded n)
    | .ia _ _ _ _ _ _ n => decide (len < o + n)
    | _ => false

/-- The reduction engine owns beat b on pseudo-channel p: b is a named beat of one of its blocks, or of one that ended in it. A stopped
block owns only the beat that it had used (R96, R99). -/
def reducing (s : State) (p b : Nat) : Bool :=
  let z := s.stack (stackOf p)
  (z.red.any fun x => x.names (s.task (tkey x.core x.bank)).csr.tbb b && x.involves p
      && (!x.stopped || x.cur.any fun c => c.1 == b))
    || z.owners.any fun x => x.2 == b && x.1.involves p

/-- The kind of the beat does not admit the command (R72, R96). -/
def kindBad (s : State) (p b : Nat) (k : CmdKind) : Bool :=
  let steep := s.steep p b
  match k with
  | .dref _ => false
  | .drd _ _ _ _ _ | .dwr _ _ _ _ _ => steep || reducing s p b
  | .ia _ _ _ _ _ _ _ => !steep || reducing s p b
  | _ => reducing s p b

/-- The slot of row line x of pseudo-channel p. -/
def slotAt (s : State) (p x : Nat) : Option SlotSt := Sparse.rd none (s.chan p).slots x

/-- An open of row into slot x at t breaks a rule (R52, R75, R104). -/
def openBad (s : State) (p x row : Nat) (t : Point) : Bool :=
  (slotAt s p x).isSome || tooNear s (Sparse.rd none (s.chan p).hist.rels x) t 24 || (s.openSlot p (x / 8) row).isSome

/-- A release of row line x at t breaks the minimum open time or cuts off a use (R75, R104). -/
def releaseBad (s : State) (x : Nat) (l : SlotSt) (t : Point) : Bool :=
  decide (s.delta l.opened t < (if l.whole then 52 + 10 * (x / 8) else 52)) || t.before l.useEnd

/-- A use of row line x at t comes too early or finds it empty (R75). -/
def useBad (s : State) (p x : Nat) (t : Point) : Bool :=
  match slotAt s p x with
  | none => true
  | some l => decide (s.delta l.opened t < (if l.whole then 192 else 28))

/-- The rules of R75 and R104 that relate a command to those before it. -/
def orderBad (s : State) (p : Nat) (k : CmdKind) (t : Point) : Bool :=
  let c := s.chan p
  let h := c.hist
  tooNear s h.dref t 96 ||
    match k with
    | .opn x row _ => openBad s p x row t || decide (4 ≤ (h.opens.filter fun o => decide (s.delta o t < 48)).length)
        || tooNear s h.openw t 192
    | .opnw x row _ => ((wholeSlot x).any fun y => openBad s p y row t) || (h.opens.any fun o => decide (s.delta o t < 48))
        || tooNear s h.openw t 192
    | .hold x => (slotAt s p x).isNone
    | .rel x => match slotAt s p x with | none => true | some l => releaseBad s x l t
    | .relw x => ((wholeSlot x).all fun y => (slotAt s p y).isNone)
        || (wholeSlot x).any fun y => match slotAt s p y with | none => false | some l => releaseBad s y l t
    | .drd _ _ _ _ _ | .dwr _ _ _ _ _ => ((usesOf k).any fun y => useBad s p y t) || endsAfter h.bus t
    | .dref _ => !c.runs.isEmpty || endsAfter h.last t
    | .ia _ _ _ _ _ _ _ => ((usesOf k).any fun y => useBad s p y t) || endsAfter h.ia t

/-- A slot that holds one row offset of one compute-capable frame in all 16 banks (R60). -/
def striped (s : State) (p x : Nat) : Bool :=
  match slotAt s p x with
  | none => false
  | some l => ((wholeSlot x).all fun y => (slotAt s p y).any fun m => m.row == l.row)
      && s.ccFrame (p * 2 ^ 30 + l.row / 128 * 2 ^ 21)

/-- The command writes a row line whose window entry had no W (R104). -/
def writeBad (s : State) (p : Nat) (k : CmdKind) : Bool :=
  match k with
  | .dwr x _ _ _ _ => !(slotAt s p x).any SlotSt.w
  | .ia op _ d a b _ _ => match (iaSlots op d a b).2 with
      | some x => !(wholeSlot x).all fun y => (slotAt s p y).any SlotSt.w
      | none => false
  | _ => false

/-- The command transfers strips. -/
def isTransfer : CmdKind → Bool
  | .drd _ _ _ _ _ => true
  | .dwr _ _ _ _ _ => true
  | _ => false

/-- The cause that a command meets at its start, if any (R60, R72, R75, R77, R93, R96, R104). The order of several is the model's choice
(log entry 72). -/
def startCause (s : State) (p : Nat) (c : Cmd) : Option Nat :=
  let b := c.plan.beat
  let o := c.plan.off
  let debt := (s.chan p).debt
  let fold := foldOf s p
  firstCause
    [ (kindBad s p b c.kind, 251),
      (isTransfer c.kind && isLost s p, 303),
      (orderBad s p c.kind ⟨b, o + debt⟩ || overLimit s p b o (decide (2 ≤ fold)) c.kind, 250),
      (overLimit s p b (o + debt) (decide (1 ≤ fold)) c.kind, 252),
      (match c.kind with
        | .ia op _ d a b _ _ => !(iaNames op d a b).all (striped s p)
        | _ => false, 248),
      (writeBad s p c.kind, 199) ]

/-- The sequencer raises a cause for the task in that bank of core p: it discards what it holds of the gang and accepts nothing
more (R106, R340). A command that it faulted at its start has not started (R75). -/
def seqRaise (s : State) (p bank code : Nat) (first : List Cmd) : State :=
  let s := s.modChan p fun c => { c with again := c.again ++ first }
  raiseCause (stopTask s (tkey p bank)) (tkey p bank) code 0 0

/-! ### The arithmetic of an infusion (R112-R114) -/

/-- a × b + c of f32 patterns, rounded once to format f by nearest even. -/
def fmaTo (f : Fmt) (a b c : Nat) : Nat :=
  match Fmt.f32.val a, Fmt.f32.val b, Fmt.f32.val c with
  | .fin s x, .fin t y, .fin u z =>
    (roundDy f .rne (if (s != t) = u then u else false) (Dy.add (Dy.mul x y) z)).1
  | _, _, _ => (ofF32 f .rne (fFma .f32 .rne a b c).b).b

/-- One element of a row line that an infusion computes from the old d, a, b and the scalar. -/
def iaElem (op : IaOp) (f : Fmt) (sc d a b : Nat) : Nat :=
  match op with
  | .add => (fAdd f .rne a b).b
  | .sub => (fSub f .rne a b).b
  | .mul => (fMul f .rne a b).b
  | .fma => (fFma f .rne a b d).b
  | .axpy => fmaTo f sc (toF32 f a) (toF32 f b)
  | .max => (fMax f a b).b
  | .min => (fMin f a b).b
  | .copy => a
  | _ => 0

/-- The elements of w bytes that bytes hold. -/
def elemsOf (w : Nat) (bs : List Byte) : List Nat :=
  (List.range (bs.length / w)).map fun i => bytesToNat ((bs.drop (i * w)).take w)

/-- The strip of a slot in a bank at a position. -/
def slotStrip (s : State) (p bank x pos : Nat) : Nat :=
  match slotAt s p (8 * bank + x) with
  | some l => stripAt p l.row bank pos
  | none => stripAt p 0 bank pos

/-- The strips read in the order of xs, each through the ECC check as the infuser's (reader code 4); none where one is
uncorrectable, which is a machine check of the owning core (R89). The strips after it are not read (log entry 76). -/
def readStrips (s : State) (p bank pos : Nat) : List Nat → State × Option (List (Nat × List Byte))
  | [] => (s, some [])
  | x :: r =>
    let st := slotStrip s p bank x pos
    match eccRead s st 4 with
    | (s, none) => (machineCheck s p 4 st (32 * st) (syndrome s st), none)
    | (s, some bs) =>
      match readStrips s p bank pos r with
      | (s, none) => (s, none)
      | (s, some l) => (s, some ((x, bs) :: l))

/-- The wells and the scalar of a bank hold n elements of w bytes from index i of well wx; f gives each from its old value. -/
def wellUpdate (m : Mem) (base i : Nat) : List Nat → (Nat → Nat → Nat) → Mem
  | [], _ => m
  | v :: r, f => wellUpdate (m.wrN (base + 4 * i) 4 (f (m.rdN (base + 4 * i) 4) v)) base (i + 1) r f

/-- One strip position of an infusion in one bank (R112-R114). A slot named twice is read once (log entry 76); the scalar keeps the bits
of a NaN (log entry 77). -/
def infuseStrip (op : IaOp) (bf : Bool) (d a b p bank pos : Nat) (s : State) : State :=
  let f : Fmt := if bf then .bf16 else .f32
  let w := f.bytes
  let n := 32 / w
  match readStrips s p bank pos (iaSlots op d a b).1.eraseDups with
  | (s, none) => s
  | (s, some l) =>
    let bytes (x : Nat) : List Byte := ((l.find? fun y => y.1 == x).map Prod.snd).getD (List.replicate 32 0)
    let base := 4096 * bank + 2048 * (d % 2)
    let put (bs : List Byte) (s : State) : State := s.stripWrite (slotStrip s p bank d pos) 0 bs
    match op with
    | .zero => put (List.replicate 32 0) s
    | .copy => put (bytes a) s
    | .acc => s.modChan p fun c =>
        { c with wells := wellUpdate c.wells base (n * pos) (elemsOf w (bytes a)) fun o v => addRne o (toF32 f v) }
    | .wld => s.modChan p fun c =>
        { c with wells := wellUpdate c.wells base (n * pos) (elemsOf w (bytes a)) fun _ v =>
            if f.isNaN v then Fmt.f32.nan else toF32 f v }
    | .wst =>
      let well := 4096 * bank + 2048 * (a % 2)
      put ((List.range n).flatMap fun i => natToBytes w (ofF32 f .rne ((s.chan p).wells.rdN (well + 4 * (n * pos + i)) 4)).b) s
    | .scale => s.modChan p fun c => { c with scalars := Sparse.wr 0 c.scalars bank (bytesToNat ((bytes a).take 4)) }
    | .cvt => put (((elemsOf 4 (bytes a)) ++ elemsOf 4 (bytes b)).flatMap fun v => natToBytes 2 (narrow .rne v).b) s
    | _ =>
      let sc := Sparse.rd 0 (s.chan p).scalars bank
      let x := elemsOf w (bytes a)
      let y := elemsOf w (bytes b)
      let z := elemsOf w (bytes d)
      put ((List.range n).flatMap fun i =>
        natToBytes w (iaElem op f sc (z.getD i 0) (x.getD i 0) (y.getD i 0))) s

/-- An infusion in all 16 banks, one strip position after another (R112). -/
def infuseAll (op : IaOp) (bf : Bool) (d a b p j n : Nat) (s : State) : State :=
  (List.range n).foldl (fun s i => (List.range 16).foldl (fun s bank => infuseStrip op bf d a b p bank (j + i) s) s) s

/-! ### The start of a command -/

/-- Row line x of pseudo-channel p holds a row from t on (R52). -/
def openRow (s : State) (p x row : Nat) (w whole : Bool) (t : Point) : State :=
  let data := Sparse.window s.mem (32 * stripAt p row (x / 8) 0) 1024
  s.modChan p fun c =>
    { c with slots := Sparse.wr none c.slots x (some { row := row, data := data, w := w, opened := t, whole := whole }) }

/-- A use of row line x until e. -/
def noteUse (s : State) (p x : Nat) (e : Point) : State :=
  s.modChan p fun c => { c with slots := match Sparse.rd none c.slots x with
    | some l => Sparse.wr none c.slots x (some { l with useEnd := if l.useEnd.before e then e else l.useEnd })
    | none => c.slots }

/-- The release of row line x at t, if it holds a row (R108). -/
def releaseRow (s : State) (p x : Nat) (t : Point) : State :=
  match slotAt s p x with
  | none => s
  | some _ => (writeBack s p x).modChan p fun c => { c with hist := { c.hist with rels := Sparse.wr none c.hist.rels x (some t) } }

/-- The deadline of a group that has not been refreshed yet counts from tick 0 (log entry 16), and follows a change to hot (R79). -/
def firstDeadline (s : State) (p : Nat) : Nat := retention (s.stack (stackOf p)).early

/-- Refresh group g of pseudo-channel p as the base die holds it. -/
def refreshOf (s : State) (p g : Nat) : Refresh :=
  (Sparse.rd none (s.chan p).refresh g).getD { deadline := firstDeadline s p, last := 0 }

/-- A refresh of group g of pseudo-channel p starts now (R79). -/
def refreshNow (s : State) (p g : Nat) : State :=
  let t := (s.die (dieOf p)).tick2 / 2
  let r : Refresh := { deadline := t + retention (s.stack (stackOf p)).hot, last := t }
  s.modChan p fun c => { c with refresh := Sparse.wr none c.refresh g (some r) }

/-- The strips that a drd reads when it starts, each ECC-checked once (R383): their bytes, and the indices of the good ones. -/
def readRow (s : State) (p x j : Nat) : Nat → State × Mem × List Nat
  | 0 => (s, [], [])
  | n + 1 =>
    match readRow s p x j n with
    | (s, m, good) =>
      let st := slotStrip s p (x / 8) (x % 8) (j + n)
      match eccRead s st 0 with
      | (s, some bs) => (s, m.wrList (32 * n) bs, good ++ [n])
      | (s, none) => (machineCheck s p 0 st (32 * st) (syndrome s st), m, good)

/-- The history after a command of that kind has started at t, planned to complete at e and to use the bus or the infusers until u. -/
def noteStart (h : Hist) (k : CmdKind) (t u e : Point) : Hist :=
  let h := { h with last := match h.last with | some x => some (if x.before e then e else x) | none => some e }
  match k with
  | .opn _ _ _ => { h with opens := (t :: h.opens).take 4 }
  | .opnw _ _ _ => { h with openw := some t }
  | .drd _ _ _ _ _ | .dwr _ _ _ _ _ => { h with bus := some u }
  | .dref _ => { h with dref := some t }
  | .ia _ _ _ _ _ _ _ => { h with ia := some u }
  | _ => h

/-- A command of pseudo-channel p that has passed the checks starts (R103, R107-R114). -/
def beginCmd (s : State) (p : Nat) (c : Cmd) : State :=
  let t : Point := ⟨c.plan.beat, c.plan.off + (s.chan p).debt⟩
  let now2 := (s.die (dieOf p)).tick2
  let fold := foldOf s p
  let folded := decide (1 ≤ fold)
  let e : Point := ⟨t.beat, t.off + planTicks folded c.kind⟩
  let u : Point := ⟨t.beat, t.off + useTicks folded c.kind⟩
  let s := (usesOf c.kind).foldl (fun s x => noteUse s p x u) s
  let r : RunCmd := { cmd := c, start := t, from2 := now2, folded := folded, done2 := some (now2 + 2 * planTicks folded c.kind) }
  let (s, r) : State × RunCmd := match c.kind with
    | .opn x row w => (openRow s p x row w false t, r)
    | .opnw x row w => ((wholeSlot x).foldl (fun s y => openRow s p y row w true t) s, r)
    | .hold x => (s.modChan p fun ch => { ch with slots := match Sparse.rd none ch.slots x with
        | some l => Sparse.wr none ch.slots x (some { l with held := true })
        | none => ch.slots }, r)
    | .rel x => (releaseRow s p x t, r)
    | .relw x => ((wholeSlot x).foldl (fun s y => releaseRow s p y t) s, r)
    | .drd x _ j n _ =>
      let (s, m, good) := readRow s p x j n
      (s, { r with done2 := none, strips := m, good := good, end2 := now2 + 2 * busTicks folded n })
    | .dwr x _ n _ data =>
      (s, { r with done2 := none, strips := data, row := ((slotAt s p x).map SlotSt.row).getD 0, end2 := now2 + 2 * busTicks folded n })
    | .dref g => (refreshNow s p g, r)
    | .ia op bf d a b j n => (infuseAll op bf d a b p j n s, r)
  let narrow := match c.kind with
    | .drd _ _ _ n _ => n - (n + 1) / 2
    | .dwr _ _ n _ _ => n - (n + 1) / 2
    | _ => 0
  s.modChan p fun ch =>
    { ch with runs := ch.runs ++ [r]
              hist := noteStart ch.hist c.kind t u e
              debt := if fold = 1 then ch.debt + narrow else ch.debt }

/-- The command of a queue that starts next: the earliest by its plan, the first accepted of those. -/
def nextCmd : List Cmd → Option Cmd
  | [] => none
  | c :: r =>
    match nextCmd r with
    | none => some c
    | some d => if d.plan.before c.plan then some d else some c

/-- The die counts offsets: it is not frozen and not in an alignment pause. -/
def counting (x : Die) : Bool := x.freeze.isNone && x.pause.isNone

/-- The announced freezes that have not begun on die d. -/
def comingFreezes (s : State) (d : Nat) : List Freeze := s.grid.freezes.filter fun f => !f.begun.contains d

/-- The freeze that begins now on die d: announced, not yet begun there, its point reached. -/
def freezeDue (s : State) (d : Nat) : Option Freeze :=
  let x := s.die d
  if !counting x then none
  else
    (comingFreezes s d).foldl (fun m f =>
      if f.at_.beat < x.beat ∨ (f.at_.beat = x.beat ∧ 2 * f.at_.off ≤ x.off2) then
        match m with
        | some y => if f.at_.before y.at_ then some f else some y
        | none => some f
      else m) none

/-- What the grid plans may start on die d: its offset counts, and no freeze begins first (R84). -/
def mayStart (s : State) (d : Nat) : Bool := counting (s.die d) && (freezeDue s d).isNone

/-- The command of pseudo-channel p whose start is due (R75, R77), in the open beat of its die. -/
def startDue (s : State) (p : Nat) : Option Cmd :=
  let x := s.die (dieOf p)
  let c := s.chan p
  if !mayStart s (dieOf p) then none
  else
    match nextCmd c.cmds with
    | some d => if d.plan.beat = x.beat ∧ 2 * (d.plan.off + c.debt) ≤ x.off2 then some d else none
    | none => none

/-- The command that is due starts, or faults at its start and does not (R75). -/
def startNext (s : State) (p : Nat) : State :=
  match startDue s p with
  | none => s
  | some c =>
    let s := s.modChan p fun ch => { ch with cmds := ch.cmds.erase c }
    match startCause s p c with
    | some code => seqRaise s p c.bank code [c]
    | none => beginCmd s p c

/-- A command reaches its planned start, is checked and starts or faults (R75, R104). -/
def execSeqCommandStart (pc : Nat) (s : State) : Result := .next (startNext s pc)

/-! ### Completion -/

/-- Bytes of a command counted in the per-buffer counter of its buffer (R336): which 0 local, 1 cross-die, 2 capacity tier, 3
stall cycles. -/
def countBuf (s : State) (k buf which n : Nat) : State :=
  s.modTask k fun t =>
    { t with bufcnt := Sparse.wr 0 t.bufcnt (4 * buf + which) ((Sparse.rd 0 t.bufcnt (4 * buf + which) + n) % 2 ^ 64) }

/-- The bytes of a transfer that has completed, counted for its buffer. -/
def countTransfer (s : State) (p : Nat) (c : Cmd) : State :=
  match c.kind with
  | .drd _ _ _ n buf => countBuf s (tkey p c.bank) buf 0 (32 * n)
  | .dwr _ _ n buf _ => countBuf s (tkey p c.bank) buf 0 (32 * n)
  | _ => s

/-- The first started command of pseudo-channel p that is due to complete. -/
def doneDue (s : State) (p : Nat) : Option RunCmd :=
  (s.chan p).runs.find? fun r => match r.done2 with
    | some t => decide (t ≤ (s.die (dieOf p)).tick2) && r.lands.isEmpty
    | none => false

/-- A started command completes and its token with it (R103). -/
def completeNext (s : State) (p : Nat) : State :=
  match doneDue s p with
  | none => s
  | some r =>
    let s := s.modChan p fun c => { c with runs := c.runs.erase r }
    countTransfer (completeToken s (tkey p r.cmd.bank) .c r.cmd.seq) p r.cmd

/-- A sequencer command reaches its completion point (R103). -/
def execSeqCommandComplete (pc : Nat) (s : State) : Result := .next (completeNext s pc)

/-! ### Sends -/

/-- The strips of a transfer, and whether it goes toward the core. -/
def stripsOf : CmdKind → Nat × Bool
  | .drd _ _ _ n _ => (n, true)
  | .dwr _ _ n _ _ => (n, false)
  | _ => (0, false)

/-- The failing (tick, lane group) pairs of a send of bus time d over the groups in use (R90, R92). -/
def failing (folded : Bool) (half d : Nat) (l : List (Nat × Nat)) : List (Nat × Nat) :=
  l.filter fun x => decide (x.1 < d) && decide (x.2 < 8) && (!folded || x.2 / 4 == half)

/-- The consecutive failures of the groups in use after a send (R91): a group that passed starts again at 0. -/
def countFails (m : Sparse (Nat × Nat)) (groups bad : List Nat) (now : Nat) : Sparse (Nat × Nat) :=
  groups.foldl (fun m g =>
    if bad.contains g then
      let x := Sparse.rd (0, 0) m g
      if x.1 = 0 ∨ x.2 + 1600000 < now then Sparse.wr (0, 0) m g (1, now) else Sparse.wr (0, 0) m g (x.1 + 1, x.2)
    else Sparse.wr (0, 0) m g (0, 0)) m

/-- Whether groups at the retry limit fold pseudo-channel p, or lose it (R92, R93); TELS and the driver event say so. A send that brings
groups of both halves to the limit folds and loses it at once, with the event of the loss alone (log entry 74). -/
def foldOrLose (s : State) (p : Nat) : State :=
  let worn := (List.range 8).filter fun g => 3 ≤ (Sparse.rd (0, 0) (s.chan p).fails g).1
  if worn = [] then s
  else
    let a := regTels p
    let old := s.reg a
    let lasting := worn.foldl (fun x g => putBits x (32 + g) 1 1) old
    let s := s.setReg a lasting
    let half := if foldOf s p ≠ 0 then halfOf s p else if slice lasting 32 4 = 0 then 0 else 1
    let hit := worn.any fun g => g / 4 == half
    let s := if foldOf s p = 0 then s.modChan p fun c => { c with half := half } else s
    if foldOf s p = 0 ∧ !hit then devEvent (s.setReg a (putBits lasting 8 2 1)) 4 p 303 0
    else if hit then
      let t := if foldOf s p = 0 then putBits lasting 8 2 1 else lasting
      devEvent (s.setReg a (putBits t 11 1 1)) 5 p 303 0
    else s

/-- The parity of one send worn pseudo-channel p: the next list of bad ticks that the environment gives, and the counts after it
(R90, R91). The failing pairs come back. -/
def paritySend (s : State) (p d : Nat) (folded : Bool) : State × List (Nat × Nat) :=
  let c := s.chan p
  let half := halfOf s p
  let bad := failing folded half d (c.busFaults.headD [])
  let groups := if folded then (List.range 4).map fun i => 4 * half + i else List.range 8
  let now := (s.die (dieOf p)).tick2 / 2
  let s := s.modChan p fun c =>
    { c with busFaults := c.busFaults.drop 1, fails := countFails c.fails groups (bad.map Prod.snd) now }
  (foldOrLose s p, bad)

/-- The transfer error log entry of a transfer that had a failed send, when its last send ends (R94, R384). -/
def logTransfer (s : State) (p : Nat) (r : RunCmd) (ok : Bool) : State :=
  if r.fails = 0 then s
  else
    let a := regTels p
    let st := s.reg a
    let st := if ok then (List.range r.fails).foldl (fun st _ => putBits st 16 16 (sat16 (slice st 16 16))) st else st
    logEntry (s.setReg a st) a (slice st 0 2) 10
      (b2n (!(stripsOf r.cmd.kind).2) * 2 ^ 62 + b2n ok * 2 ^ 61 + r.grp % 8 * 2 ^ 58 + Nat.min r.fails 3 * 2 ^ 56
        + r.cmd.plan.off % 2 ^ 13 * 2 ^ 32 + r.cmd.plan.beat % 2 ^ 32)

/-- The bytes of a dwr stand in the row that its row line held at its start (R109). -/
def putStrips (s : State) (p bank row j : Nat) (m : Mem) : Nat → State
  | 0 => s
  | n + 1 => (putStrips s p bank row j m n).stripWrite (stripAt p row bank (j + n)) 0 (m.rdList (32 * n) 32)

/-- Run r of pseudo-channel p replaced. -/
def setRun (s : State) (p : Nat) (old new : RunCmd) : State :=
  s.modChan p fun c => { c with runs := c.runs.map fun x => if x.cmd.seq = old.cmd.seq ∧ x.cmd.bank = old.cmd.bank then new else x }

/-- A transfer that ends without completing: it is gone once its strips in flight have landed. -/
def endTransfer (s : State) (p : Nat) (r : RunCmd) : State :=
  let dead : RunCmd := { r with send2 := none, end2 := 0, done2 := none }
  if r.lands.isEmpty then s.modChan p fun c => { c with runs := c.runs.filter fun x => !(x.cmd.seq == r.cmd.seq && x.cmd.bank == r.cmd.bank) }
  else setRun s p r dead

/-- A further send of transfer r that begins at clock at2 would overrun the beat (R77). -/
def sendOver (s : State) (p at2 : Nat) (r : RunCmd) : Bool :=
  overLimit s p r.start.beat (r.start.off + (at2 - r.from2) / 2) r.folded r.cmd.kind

/-- One send of transfer r ends (R90-R93, R382): strips of passing ticks land later, a passing send finishes the transfer, a
failed one delays the next and adds to the debt. A transfer that will make no further send is logged now (R384). -/
def endSend (s : State) (p : Nat) (r : RunCmd) : State :=
  let x := stripsOf r.cmd.kind
  let n := x.1
  let d := busTicks r.folded n
  let start2 := r.end2 - 2 * d
  let was := foldOf s p
  let (s, bad) := paritySend s p d r.folded
  let ticks := bad.map Prod.fst
  let lands := if x.2 then
      (r.good.filter fun i => !ticks.contains (if r.folded then i else i / 2)).map fun i => (start2 + landHalf r.folded i, i)
    else []
  let r : RunCmd := { r with lands := r.lands ++ lands }
  if bad = [] then
    let s := logTransfer s p r (!r.folded)
    let s := match r.cmd.kind with
      | .dwr x j n _ data => putStrips s p (x / 8) r.row j data n
      | _ => s
    setRun s p r { r with end2 := 0, done2 := some (if x.2 then start2 + landHalf r.folded (n - 1) else r.end2) }
  else
    let r : RunCmd := { r with fails := r.fails + 1, grp := (bad.getLastD (0, 0)).2 }
    if isLost s p then
      seqRaise (endTransfer (logTransfer s p r false) p r) p r.cmd.bank 303 []
    else
      let folds := was = 0 ∧ foldOf s p = 1
      let s := s.modChan p fun c =>
        { c with debt := c.debt + Nat.max 16 d + (if folds ∧ !r.folded then n - (n + 1) / 2 else 0) }
      let next := start2 + 2 * Nat.max 16 d
      let q : RunCmd := { r with end2 := 0, send2 := some next, folded := decide (1 ≤ foldOf s p) }
      if sendOver s p next q then setRun (logTransfer s p q false) p r { q with fails := 0 } else setRun s p r q

/-- A further send of transfer r begins, unless it would overrun the beat (R77). -/
def beginSend (s : State) (p at2 : Nat) (r : RunCmd) : State :=
  let x := stripsOf r.cmd.kind
  if sendOver s p at2 r then
    seqRaise (endTransfer (logTransfer s p r false) p r) p r.cmd.bank 252 []
  else setRun s p r { r with send2 := none, end2 := at2 + 2 * busTicks r.folded x.1 }

/-- The transfer of pseudo-channel p whose send is due to begin or to end. -/
def sendDue (s : State) (p : Nat) : Option RunCmd :=
  let now := (s.die (dieOf p)).tick2
  (s.chan p).runs.find? fun r =>
    (decide (0 < r.end2) && decide (r.end2 ≤ now)) || (match r.send2 with | some t => decide (t ≤ now) | none => false)

/-- The send that is due. -/
def sendNext (s : State) (p : Nat) : State :=
  match sendDue s p with
  | none => s
  | some r => match r.send2 with
    | some t => beginSend s p t r
    | none => endSend s p r

/-- One send of a drd or dwr crosses the vertical bus (R382). -/
def execTransferSend (pc : Nat) (s : State) : Result := .next (sendNext s pc)

/-! ### Landings of a drd -/

/-- The transfer of pseudo-channel p with a strip that is due to land. -/
def landDueOf (s : State) (p : Nat) : Option (RunCmd × (Nat × Nat)) :=
  let now := (s.die (dieOf p)).tick2
  (s.chan p).runs.findSome? fun r => (r.lands.find? fun x => decide (x.1 ≤ now)).map fun x => (r, x)

/-- A strip lands in the scratchpad of core p (R109, R382). -/
def landStrip (s : State) (p : Nat) : State :=
  match landDueOf s p with
  | none => s
  | some (r, x) =>
    let s := match r.cmd.kind with
      | .drd _ a _ _ _ => s.modCore p fun c => { c with spad := c.spad.putMem (a + 32 * x.2) 32 (Sparse.window r.strips (32 * x.2) 32) }
      | _ => s
    let r' : RunCmd := { r with lands := r.lands.erase x }
    if r'.lands.isEmpty ∧ r'.end2 = 0 ∧ r'.send2.isNone ∧ r'.done2.isNone then endTransfer s p r' else setRun s p r r'

/-- A strip of a drd lands in the scratchpad at its fixed time (R109). -/
def execDrdStripLanding (pc : Nat) (s : State) : Result := .next (landStrip s pc)

end Sys2Proof.Machine
end

