-- ==== Sys2Proof/Machine/Refresh.lean ====
section
/-!
DEFINITION. Refresh and slip (04_beats R79-R87): the checks of the base die, forced refreshes and the freezes that carry them, and
the refreshes of a pseudo-channel with no attached gang.
-/

namespace Sys2Proof.Machine

/-! ### The timeline that is known at a moment -/

/-- Ticks left of the freeze or the alignment pause of die d. -/
def heldTicks (x : Die) : Nat :=
  (match x.freeze with | some f => (f.2.2 - x.tick2 + 1) / 2 | none => 0)
    + (match x.pause with | some t => (t - x.tick2 + 1) / 2 | none => 0)

/-- Ticks of die d from now until the point p on the timeline known now (R67, R81). -/
def ticksTo (s : State) (d : Nat) (p : Point) : Nat :=
  let lens := ((comingFreezes s d).filter fun f => !p.before f.at_).foldl (fun n f => n + f.len) 0
  s.delta (s.now d) p + lens + heldTicks (s.die d)

/-- The freeze of a list that comes first at or after an offset of a beat. -/
def nextFreeze (l : List Freeze) (p : Point) : Option Freeze :=
  l.foldl (fun m f =>
    if f.at_.beat = p.beat ∧ p.off ≤ f.at_.off then
      match m with
      | some g => if f.at_.off < g.at_.off then some f else some g
      | none => some f
    else m) none

/-- The point reached n ticks after point p, with these freezes to come; fuel bounds the beats and freezes passed. -/
def pointAfter (s : State) : Nat → List Freeze → Point → Nat → Point
  | 0, _, p, _ => p
  | k + 1, l, p, n =>
    match nextFreeze l p with
    | some f =>
      let dist := f.at_.off - p.off
      if n < dist then ⟨p.beat, p.off + n⟩
      else if n < dist + f.len then f.at_
      else pointAfter s k (l.filter fun g => g.id != f.id) f.at_ (n - dist - f.len)
    | none =>
      let left := s.lenOf p.beat - p.off
      if n < left then ⟨p.beat, p.off + n⟩ else pointAfter s k l ⟨p.beat + 1, 0⟩ (n - left)

/-- The grid point that die d reaches n ticks from now. -/
def pointIn (s : State) (d n : Nat) : Point :=
  let h := heldTicks (s.die d)
  if n < h then s.now d else pointAfter s 64 (comingFreezes s d) (s.now d) (n - h)

/-- A point inside a far slot moves back to the start of that slot (R81). -/
def outOfSlot (s : State) (p : Point) : Point :=
  let e := s.windowEnd p.beat
  if s.farOf p.beat ≠ 0 ∧ e ≤ p.off then ⟨p.beat, e + (p.off - e) / 40 * 40⟩ else p

/-- Where a command of pseudo-channel p starts as known now: the retry debt delays those of the open beat alone (R77). -/
def startOf (s : State) (p : Nat) (c : Cmd) : Point :=
  ⟨c.plan.beat, c.plan.off + if c.plan.beat = (s.die (dieOf p)).beat then (s.chan p).debt else 0⟩

/-- w of R81: ticks after point p until every DRAM command of pseudo-channel c that started before it has completed. -/
def busyAfter (s : State) (c : Nat) (p : Point) : Nat :=
  let ch := s.chan c
  let folded := decide (foldOf s c ≠ 0)
  let left (t : Point) (k : CmdKind) : Nat := if t.before p then planTicks folded k - s.delta t p else 0
  let runs := ch.runs.foldl (fun m r => Nat.max m (left r.start r.cmd.kind)) 0
  let cmds := ch.cmds.foldl (fun m x => Nat.max m (left (startOf s c x) x.kind)) runs
  Nat.min 192 cmds

/-! ### The checks (R80-R82, R86, R87) -/

/-- Pseudo-channel p belongs to an attached gang that has not begun to detach. -/
def ownedBy (s : State) (p : Nat) : Option Nat :=
  let k := tkey p (s.issuing p)
  match s.gangOf k with
  | some g => if g.st = .attached then some k else none
  | none => none

/-- The refresh record of a group replaced. -/
def setRefresh (s : State) (p g : Nat) (r : Refresh) : State :=
  s.modChan p fun c => { c with refresh := Sparse.wr none c.refresh g (some r) }

/-- An accepted dref of group g starts at least 64 ticks before its deadline on the timeline known now. -/
def drefComes (s : State) (p g : Nat) (r : Refresh) : Bool :=
  let d := dieOf p
  let now := (s.die d).tick2 / 2
  (s.chan p).cmds.any fun c => c.kind == .dref g
    && decide (now + ticksTo s d (startOf s p c) + 64 ≤ r.deadline)

/-- Slip announced for beat b (R86). -/
def slipOf (s : State) (b : Nat) : Nat := Sparse.rd 0 s.grid.slip b

/-- Ticks of die d from now until freeze f begins: after every freeze before its point, and those announced before it for the same
point. -/
def freezeIn (s : State) (d : Nat) (f : Freeze) : Nat :=
  let first := (comingFreezes s d).filter fun g => g.at_.before f.at_ || (g.at_ == f.at_ && decide (g.id < f.id))
  s.delta (s.now d) f.at_ + first.foldl (fun n g => n + g.len) 0 + heldTicks (s.die d)

/-- The freeze that a forced refresh of pseudo-channel p with forced point in n ticks joins (R82). -/
def joinable (s : State) (p n : Nat) : Option Freeze :=
  let d := dieOf p
  (comingFreezes s d).find? fun f =>
    f.begun == [] && decide (freezeIn s d f ≤ n) && decide (busyAfter s p f.at_ ≤ f.w) && f.refs.all fun x => x.1 != p

/-- A refresh of group g of pseudo-channel p is forced: it joins a freeze, or a new one is announced, or its gang is cut. -/
def forceRefresh (s : State) (p g k : Nat) (r : Refresh) : State :=
  let d := dieOf p
  let n := r.deadline - 64 - (s.die d).tick2 / 2
  let s := setRefresh s p g { r with checked := true }
  match joinable s p n with
  | some f =>
    { s with grid := { s.grid with freezes := s.grid.freezes.map fun x =>
        if x.id = f.id then { x with refs := x.refs ++ [(p, g)] } else x } }
  | none =>
    let x := outOfSlot s (pointIn s d n)
    let w := busyAfter s p x
    let len := 96 + w
    if s.reg regBlim % 2 ^ 12 < slipOf s x.beat + len then raiseCause (setRefresh s p g r) k 348 0 0
    else
      { s with grid := { s.grid with
          slip := Sparse.wr 0 s.grid.slip x.beat (slipOf s x.beat + len)
          freezeNext := s.grid.freezeNext + 1
          freezes := s.grid.freezes ++ [{ id := s.grid.freezeNext, at_ := x, len := len, w := w, refs := [(p, g)] }] } }

/-- The check of R80 for group g of pseudo-channel p is due. One that becomes possible after D - 320 is made at once, and its forced point
may then be less than 160 ticks away (log entry 73). -/
def checkDue (s : State) (p g : Nat) : Bool :=
  let r := refreshOf s p g
  !r.checked && (ownedBy s p).isSome && decide (r.deadline ≤ (s.die (dieOf p)).tick2 / 2 + 320)

/-- The base die looks for a planned dref of a group, and otherwise forces its refresh. -/
def checkRefresh (s : State) (p g : Nat) : State :=
  if !checkDue s p g then s
  else
    match ownedBy s p with
    | none => s
    | some k =>
      let r := refreshOf s p g
      if drefComes s p g r then setRefresh s p g { r with checked := true } else forceRefresh s p g k r

/-- At D - 320 the base die looks for a planned dref and otherwise forces a refresh (R80). -/
def execRefreshCheck (pc grp : Nat) (s : State) : Result := .next (checkRefresh s pc grp)

/-! ### Freezes (R81, R84, R87) -/

/-- Die d holds its beat offset from now on. -/
def beginFreeze (s : State) (d : Nat) : State :=
  match freezeDue s d with
  | none => s
  | some f =>
    let fresh := f.begun == []
    let n := if fresh then (s.grid.freezeCount + 1) % 2 ^ 20 else s.grid.freezeCount
    let s := s.modDie d fun x => { x with freeze := some (f.id, x.tick2, x.tick2 + 2 * f.len) }
    { (s.setReg regSlip (putBits (s.reg regSlip) 12 20 n)) with grid := { s.grid with
        freezeCount := n
        freezes := s.grid.freezes.map fun x => if x.id = f.id then { x with begun := x.begun ++ [d] } else x } }

/-- At the notice's offset a die holds its beat offset (R84). -/
def execFreezeBegin (die : Nat) (s : State) : Result := .next (beginFreeze s die)

/-- The forced refresh of pseudo-channel p that runs now: the last 96 ticks of the freeze of its die have begun. -/
def forcedDue (s : State) (p : Nat) : Option (Freeze × Nat) :=
  let x := s.die (dieOf p)
  match x.freeze with
  | none => none
  | some z =>
    if x.tick2 + 192 < z.2.2 then none
    else
      match s.grid.freezes.find? fun f => f.id == z.1 with
      | none => none
      | some f => (f.refs.find? fun r => r.1 == p).map fun r => (f, r.2)

/-- The forced refresh of pseudo-channel p starts. -/
def startForced (s : State) (p : Nat) : State :=
  match forcedDue s p with
  | none => s
  | some (f, g) =>
    refreshNow { s with grid := { s.grid with freezes := s.grid.freezes.map fun x =>
      if x.id = f.id then { x with refs := x.refs.erase (p, g) } else x } } p g

/-- The forced refresh runs in the last 96 ticks of the freeze (R81). -/
def execForcedRefreshStart (pc : Nat) (s : State) : Result := .next (startForced s pc)

/-- The freeze of die d is over. -/
def freezeOver (x : Die) : Bool := match x.freeze with | some z => decide (z.2.2 ≤ x.tick2) | none => false

/-- The offset of die d resumes; a freeze that every die has been through is forgotten. -/
def endFreeze (s : State) (d : Nat) : State :=
  if !freezeOver (s.die d) then s
  else
    let s := s.modDie d fun x => { x with freeze := none }
    { s with grid := { s.grid with freezes := s.grid.freezes.filter fun f =>
        !(f.begun.length == 8 && f.refs == [] && (List.range 8).all fun e =>
          match (s.die e).freeze with | some z => z.1 != f.id | none => true) } }

/-- After L ticks the offsets resume (R87). -/
def execFreezeEnd (die : Nat) (s : State) : Result := .next (endFreeze s die)

/-! ### Refreshes without slip (R80, R83) -/

/-- A freeze holds a forced refresh of the group. -/
def forcedPending (s : State) (p g : Nat) : Bool := s.grid.freezes.any fun f => f.refs.contains (p, g)

/-- The base die refreshes the group itself now: the pseudo-channel has no attached gang, and the deadline is reached or the dref
that a check found has been discarded. -/
def plainDue (s : State) (p g : Nat) : Bool :=
  let r := refreshOf s p g
  (ownedBy s p).isNone && !forcedPending s p g
    && (decide (r.deadline ≤ (s.die (dieOf p)).tick2 / 2) || (r.checked && (s.chan p).cmds.all fun c => c.kind != .dref g))

/-- A pseudo-channel with no attached gang is refreshed without slip (R83). -/
def execDeadlineRefresh (pc grp : Nat) (s : State) : Result := .next (if plainDue s pc grp then refreshNow s pc grp else s)

/-- The refresh groups of pseudo-channel p that something may be due for: those with a record, and all once the deadline that a
group has before its first refresh comes near. -/
def dueGroups (s : State) (p : Nat) : List Nat :=
  let known := (s.chan p).refresh.map Prod.fst
  if (s.die (dieOf p)).tick2 / 2 + 320 < firstDeadline s p then known
  else known ++ (List.range 8192).filter fun g => (Sparse.rd none (s.chan p).refresh g).isNone

end Sys2Proof.Machine
end

