-- ==== Sys2Proof/Machine/BaseDie.lean ====
section
/-!
DEFINITION. The base die at work for others: far slots (04_beats R78, 05_vertical_bus R90) and the reduction engine of a stack
(05_vertical_bus R95-R99, 06 R117, 23 R377).
-/

namespace Sys2Proof.Machine

/-! ### Far slots -/

/-- The far slot of pseudo-channel p that begins now or has begun unserved: beat and number (R78). Far slots are not served in
steep beats, nor in the named beats of a reduction (R96). -/
def slotNow (s : State) (p : Nat) : Option (Nat × Nat) :=
  let x := s.die (dieOf p)
  let b := x.beat
  let far := s.farOf b
  let e := s.windowEnd b
  let off := x.off2 / 2
  if !mayStart s (dieOf p) ∨ (s.chan p).serving.isSome ∨ s.steep p b ∨ reducing s p b ∨ off < e then none
  else
    let j := (off - e) / 40
    if j < far ∧ (s.chan p).slotDone ≠ some (b, j) then some (b, j) else none

/-- A far transfer as the transfer error log names it. -/
def farRun (q : Piece) (b off : Nat) (bad : Nat × Nat) : RunCmd :=
  let n := (stripSpans q.pa q.len).length
  { cmd := { kind := if q.wr then .dwr 0 0 n 0 [] else .drd 0 0 0 n 0, plan := ⟨b, off⟩ }, fails := bad.1, grp := bad.2 }

/-- Bus time of a far request in ticks. -/
def farTicks (s : State) (p : Nat) (q : Piece) : Nat := busTicks (decide (foldOf s p ≠ 0)) (stripSpans q.pa q.len).length

/-- A far request is answered with an error: the pseudo-channel is lost, and the gang that issued it raises code 303 (R93). -/
def loseFar (s : State) (q : Piece) : State :=
  let s := setPiece s { q with st := .bad }
  if q.own.outside then s else raiseCause s (tkey q.core q.bank) 303 0 0

/-- A far slot of pseudo-channel p opens: it takes the oldest queued request (R78). Where in the slot its send begins is open (R391). -/
def openSlot (s : State) (p : Nat) : State :=
  match slotNow s p with
  | none => s
  | some x =>
    let s := s.modChan p fun c => { c with slotDone := some x }
    match (s.chan p).farq with
    | [] => s
    | id :: r =>
      match findPiece s id with
      | none => s.modChan p fun c => { c with farq := r }
      | some q =>
        let d := farTicks s p q
        let (c, s) := s.choose
        let at2 := (s.die (dieOf p)).tick2 + 2 * (c % (41 - d) + d)
        s.modChan p fun c => { c with farq := r, serving := some (id, at2) }

/-- The clock at which the far slot of pseudo-channel p that is open now ends. -/
def slotEnd2 (s : State) (p : Nat) : Nat :=
  let x := s.die (dieOf p)
  match (s.chan p).slotDone with
  | some (b, j) => x.tick2 + 2 * (s.windowEnd b + 40 * (j + 1)) - x.off2
  | none => x.tick2

/-- The far request that pseudo-channel p serves has ended: what it did stands in the error log (R94, R384). -/
def logFar (s : State) (p : Nat) (q : Piece) (ok : Bool) : State :=
  let x := (s.chan p).slotDone.getD (0, 0)
  let s := logTransfer s p (farRun q x.1 (s.windowEnd x.1 + 40 * x.2) (s.chan p).farBad) ok
  s.modChan p fun c => { c with farBad := (0, 0), serving := none }

/-- The send of a far request of pseudo-channel p ends (R90): a passing one is served; after a failed one the next ends 16 ticks later, or,
where that would pass the end of the slot, the request is put back at the head of the queue. -/
def endFar (s : State) (p at2 : Nat) (q : Piece) : State :=
  if isLost s p then loseFar (logFar s p q false) q
  else
    let folded := decide (foldOf s p ≠ 0)
    let d := farTicks s p q
    let gap := Nat.max 16 d
    match paritySend s p d folded with
    | (s, []) => serveFast (logFar s p q (!folded)) q
    | (s, y :: r) =>
      let g := ((y :: r).getLastD (0, 0)).2
      let s := s.modChan p fun c => { c with debt := c.debt + gap, farBad := (c.farBad.1 + 1, g) }
      let next := at2 + 2 * (gap - d) + 2 * farTicks s p q
      if isLost s p then loseFar (logFar s p q false) q
      else if next ≤ slotEnd2 s p then s.modChan p fun c => { c with serving := some (q.id, next) }
      else s.modChan p fun c => { c with serving := none, farq := q.id :: c.farq }

/-- The send of the far request of pseudo-channel p that ends now. -/
def farDue (s : State) (p : Nat) : Option (Nat × Nat) :=
  (s.chan p).serving.filter fun x => decide (x.2 ≤ (s.die (dieOf p)).tick2)

/-- The far slot of pseudo-channel p goes on: a send that ends now, or a slot that opens. -/
def serveSlot (s : State) (p : Nat) : State :=
  match farDue s p with
  | some x =>
    match findPiece s x.1 with
    | some q => endFar s p x.2 q
    | none => s.modChan p fun c => { c with serving := none }
  | none => openSlot s p

/-- A far slot of a pour beat serves the oldest queued far request (R78). -/
def execFarSlot (pc : Nat) (s : State) : Result := .next (serveSlot s pc)

/-! ### The reduction engine -/

/-- The gang of block x is attached and has not begun to detach, and the block has not been stopped. -/
def RedBlk.live (s : State) (x : RedBlk) : Bool :=
  !x.stopped && match s.gangOf (tkey x.core x.bank) with | some g => g.st == .attached | none => false

/-- The block whose next strip ends now, its retries included (R96). A strip that had begun when the gang began to detach is finished
(R99). -/
def stripDue (s : State) (stack : Nat) : Option RedBlk :=
  let x := s.die (stack / 2)
  match redUser s stack x.beat with
  | none => none
  | some y => if counting x ∧ stripUnderWay s stack y ∧ 2 * stripEnd s stack x.beat y ≤ x.off2 then some y else none

/-- A block of a stack replaced. -/
def setBlock (s : State) (stack : Nat) (old new : RedBlk) : State :=
  s.modStack stack fun z => { z with red := z.red.map fun y => if y = old then new else y }

/-- Block x leaves its engine. The beat in use stays its own until it closes, if it names it (R96). -/
def dropBlock (s : State) (stack : Nat) (x : RedBlk) : State :=
  let b := (s.die (stack / 2)).beat
  let own := x.names (s.task (tkey x.core x.bank)).csr.tbb b
  s.modStack stack fun z => { z with red := z.red.erase x, owners := if own then z.owners ++ [(x, b)] else z.owners }

/-- The source strips i of a block, each through the ECC check as the engine's (reader code 3); the first uncorrectable one ends
the read. -/
def readSources (s : State) (i : Nat) : List Nat → State × Except Nat (List (List Byte))
  | [] => (s, .ok [])
  | a :: r =>
    match eccRead s (s.stripOf (a + 32 * i)) 3 with
    | (s, none) => (s, .error (a + 32 * i))
    | (s, some bs) =>
      match readSources s i r with
      | (s, .ok l) => (s, .ok (bs :: l))
      | (s, .error e) => (s, .error e)

/-- A transfer of a strip of block x as the transfer error log names it: buffer 0 is the destination. -/
def stripRun (s : State) (stack i : Nat) (bad : Nat × Nat) : RunCmd :=
  let b := (s.die (stack / 2)).beat
  { cmd := { kind := if i = 0 then .dwr 0 0 1 0 [] else .drd 0 0 0 1 0, plan := ⟨b, stripStart s stack b⟩ }, fails := bad.1, grp := bad.2 }

/-- The transfers of one strip of block x, of the buffers in the list with their numbers, each over the bus of its pseudo-channel (R90):
those that failed, with their failed sends and last group, and whether a pseudo-channel is lost (R93). -/
def sendStrip (s : State) (stack : Nat) (x : RedBlk) : List (Nat × Nat) → State × List (Nat × Nat × Nat) × Bool
  | [] => (s, [], false)
  | (i, a) :: r =>
    let p := chanOf (a + 32 * x.done)
    let old := ((x.bad.find? fun y => y.1 == i).map Prod.snd).getD (0, 0)
    if isLost s p then (s, [], true)
    else
      let folded := decide (foldOf s p ≠ 0)
      match paritySend s p 1 folded with
      | (s, []) => sendStrip (logTransfer s p (stripRun s stack i old) (!folded)) stack x r
      | (s, y :: l) =>
        let new := (old.1 + 1, ((y :: l).getLastD (0, 0)).2)
        if isLost s p then (logTransfer s p (stripRun s stack i new) false, [], true)
        else
          match sendStrip (s.modChan p fun c => { c with debt := c.debt + 16 }) stack x r with
          | (s, bad, lost) => (s, (i, new) :: bad, lost)

/-- The transfers of the next strip of block x: all of its buffers, or those whose transfer failed in this beat. -/
def stripSends (s : State) (stack : Nat) (x : RedBlk) : List (Nat × Nat) :=
  let l := (x.dst :: x.srcs).zipIdx.map fun y => (y.2, y.1)
  if x.late.1 = (s.die (stack / 2)).beat ∧ x.late.2 ≠ 0 then l.filter fun y => x.bad.any fun z => z.1 == y.1 else l

/-- The bytes of a destination strip from its source strips (R97). -/
def sumStrips (bf sequential : Bool) (l : List (List Byte)) : List Byte :=
  let f : Fmt := if bf then .bf16 else .f32
  let w := f.bytes
  let cols := l.map (elemsOf w)
  (List.range (32 / w)).flatMap fun e =>
    let x := cols.map fun c => toF32 f (c.getD e 0)
    let y := if sequential then
        match x with
        | [] => 0
        | v :: r => r.foldl addRne v
      else treeSum addRne (fun i => x.getD i 0) 6 0 x.length
    natToBytes w (ofF32 f .rne y).b

/-- The engine of a stack finishes one destination strip (R96, R97, R377), unless a transfer of it failed: that one takes 16 ticks more
(R90). Its bytes count as local (R137). -/
def reduceStrip (s : State) (stack : Nat) : State :=
  match stripDue s stack with
  | none => s
  | some x =>
    let k := tkey x.core x.bank
    let b := (s.die (stack / 2)).beat
    let e := stripEnd s stack b x
    match sendStrip s stack x (stripSends s stack x) with
    | (s, _, true) => raiseCause (setBlock s stack x { x with stopped := true }) k 303 0 0
    | (s, y :: r, false) =>
      let late := (if x.late.1 = b then x.late.2 else 0) + 16 * (y :: r).length
      setBlock s stack x { x with late := (b, late), bad := y :: r }
    | (s, [], false) =>
      match readSources s x.done x.srcs with
      | (s, .error pa) => machineCheck (dropBlock s stack x) x.core 3 (s.stripOf pa) (pa / 32 * 32) (syndrome s (s.stripOf pa))
      | (s, .ok l) =>
        let s := s.stripWrite (s.stripOf (x.dst + 32 * x.done)) 0 (sumStrips x.bf x.sequential l)
        let n := match x.cur with | some c => if c.1 = b then c.2 else 0 | none => 0
        let y : RedBlk := { x with done := x.done + 1, cur := some (b, n + 1), late := (0, 0), bad := [], stopped := (s.task k).stop }
        let s := (setBlock s stack x y).modStack stack fun z => { z with busy := (b, e) }
        countBuf s k x.buf 0 (32 * (x.srcs.length + 1))

/-- In a named beat the engine sums the sources of one destination strip (R96). -/
def execReductionStrip (stack : Nat) (s : State) : Result := .next (reduceStrip s stack)

/-- The status with which block x ends now: 1 after its last strip, 2 once its last named beat has closed (R98). -/
def RedBlk.ending (s : State) (stack : Nat) (x : RedBlk) : Option Nat :=
  let now := (s.die (stack / 2)).beat
  let last := beatAt now ((x.first + (s.task (tkey x.core x.bank)).csr.tbb + (x.nbeats - 1) * x.stride) % 2 ^ 48)
  if x.nstrips ≤ x.done then some 1
  else if x.live s ∧ last < now then some 2
  else none

/-- The first block of a stack that ends now. -/
def endingBlock (s : State) (stack : Nat) : Option (RedBlk × Nat) :=
  (s.stack stack).red.findSome? fun x => (x.ending s stack).map fun st => (x, st)

/-- A block ends: the flag is written with release, then the event is sent and the token completes (R98, R103). -/
def finishBlock (s : State) (stack : Nat) : State :=
  match endingBlock s stack with
  | none => s
  | some (x, status) =>
    let k := tkey x.core x.bank
    let n := Nat.min x.done 65535
    let s := dropBlock s stack x
    match x.flag with
    | none => completeToken (pushEvent s k 11 status n x.seq) k .c x.seq
    | some pa =>
      (sendPiece s { core := x.core, bank := x.bank, die := stack / 2, own := .flag x.seq status n, pa := pa, len := 8, wr := true,
                     data := natToBytes 8 status }).2

/-- After the last strip the engine writes the flag with release and sends an event (R98). -/
def execReductionFinish (stack : Nat) (s : State) : Result := .next (finishBlock s stack)

/-- At the opening of its beat a stack's engine raises code 251 for the block that would use it, if the beat is steep for an
involved pseudo-channel (R117). -/
def checkNamed (s : State) (stack : Nat) : State :=
  let b := (s.die (stack / 2)).beat
  match redUser s stack b with
  | some x =>
    if x.live s ∧ (x.channels stack).any fun p => s.steep p b then raiseCause s (tkey x.core x.bank) 251 0 0 else s
  | none => s

end Sys2Proof.Machine
end

