-- ==== Sys2Proof/Machine/Copy.lean ====
section
/-!
DEFINITION. The copy, queue and transfer commands of C (07_copy_paths R119-R137), the issue of rdc (06 R116) and ctx (08 R145), and
the events that move their bytes.
-/

namespace Sys2Proof.Machine

/-! ### Address commands: operands and start -/

/-- Why a leaf of the C stream does not admit an access (R55, R59, R126): cc is the placement that the variant demands. -/
def leafCause (s : State) (l : Leaf) (va : Nat) (store : Bool) (cc : Option Bool) : Option Nat :=
  let bad : Bool := match cc with | none => false | some x => l.cc != x
  if bad || !placed s l va then some 200
  else if (if store then l.w else l.r) then none
  else some 199

/-- The pinned window of a whole range: the checks of R127 in their order, then the placement that R59 asks of the piece. -/
def windowCause (s : State) (va len : Nat) (store : Bool) : Option Nat :=
  match windowOf s va with
  | none => some 200
  | some l =>
    if !l.maps (va + len - 1) then some 201
    else if !(if store then l.w else l.r) then some 199
    else if !l.cc || !placed s l va then some 200
    else none

/-- The virtual address and length of the next piece of a command (R125, R131). -/
def pieceOf (c : CCmd) : Nat × Nat :=
  if c.elem then ((c.va + c.idx.getD (c.next / c.esz) 0 * c.esz) % 2 ^ 56, c.esz)
  else
    let a := (c.va + c.next) % 2 ^ 56
    (a, Nat.min (c.len - c.next) (256 - a % 256))

/-- The placement that a command demands: CC for .bs, plain for cld and cst, either for elements. -/
def demand (c : CCmd) : Option Bool := if c.elem then none else some c.pinned

/-- The leaf by which the next piece of command c of task k translates (R126, R127): the window table, or the stream TLB, whose entry
becomes the most recently used. -/
def leafOf (s : State) (k : Nat) (c : CCmd) (va : Nat) : State × Option Leaf :=
  if c.pinned then (s, (s.task k).tlb.pins.find? fun l => l.maps va)
  else
    match lookup (s.task k).tlb.strm va with
    | some (l, t) => (s.modTask k fun x => { x with tlb := { x.tlb with strm := t } }, some l)
    | none => (s, none)

/-- C of task k stalls for a command of buffer buf: its stall count grows by a free number of cycles, at least one (R137; log entry
23). -/
def countStall (s : State) (k buf : Nat) : State :=
  let (c, s) := s.choose
  countBuf s k buf 3 (1 + c)

/-! ### Address commands: their pieces -/

/-- Command id of task k changed. -/
def modCmd (s : State) (k id : Nat) (f : CCmd → CCmd) : State :=
  s.modTask k fun t => { t with c := { t.c with cmds := t.c.cmds.map fun c => if c.id = id then f c else c } }

def findCmd (s : State) (k id : Nat) : Option CCmd := (s.task k).c.cmds.find? fun c => c.id == id

/-- An address in the next page that a command reaches after the one that leaf l maps, if it reaches another. -/
def nextPage (c : CCmd) (l : Leaf) : Option Nat :=
  if c.elem then
    ((c.idx.drop (c.next / c.esz)).map fun i => (c.va + i * c.esz) % 2 ^ 56).find? fun va => !l.maps va
  else
    let stop := l.va + if l.big then 2 ^ 21 else 2 ^ 16
    if c.va + c.len ≤ stop then none else some (stop % 2 ^ 56)

/-- The page after the one that leaf l maps is fetched ahead for a command that reaches it (R126). -/
def fetchAhead (s : State) (k : Nat) (c : CCmd) (l : Leaf) : State :=
  match (if c.pinned then none else nextPage c l) with
  | none => s
  | some va => if (s.task k).tlb.strm.any fun x => x.maps va then s else startWalk s k 1 va true 0

/-- A piece of C of task k waits before a far queue that is full (R78). -/
def farFull (s : State) (k : Nat) : Bool :=
  s.pieces.any fun p => tkey p.core p.bank == k && (match p.own with | .cCmd _ => true | _ => false) && p.st == .sent
    && region p.pa == .fast && decide (64 ≤ (s.chan (chanOf p.pa)).farq.length)

/-- An address command translates and sends its next piece (R125, R126, R129); a store's bytes are read now. C stalls while a piece of
its own stands before a full far queue (R78). -/
def sendNextPiece (s : State) (k id : Nat) : State :=
  match findCmd s k id with
  | none => s
  | some c =>
    if c.failed ∨ c.len ≤ c.next ∨ (s.core (k / 2)).halted then s
    else if farFull s k then countStall s k c.buf
    else
      let p := pieceOf c
      match leafOf s k c p.1 with
      | (s, none) => countStall (startWalk s k 1 p.1 false id) k c.buf
      | (s, some l) =>
        match leafCause s l p.1 c.store (demand c) with
        | some code => failCommand s k id code p.1
        | none =>
          let data := if c.store then (s.core (k / 2)).spad.rdList (c.spad + c.next) p.2 else []
          let r := sendPiece s { core := k / 2, bank := k % 2, die := dieOf (k / 2), own := .cCmd id, pa := l.phys p.1, len := p.2,
                                 wr := c.store, spad := c.spad + c.next, buf := c.buf, data := data }
          if r.1 = 0 then modCmd r.2 k id fun c => { c with failed := true }
          else
            let now := (s.die (dieOf (k / 2))).tick2
            fetchAhead (modCmd r.2 k id fun c => { c with next := c.next + p.2, out := c.out + 1, sent2 := now }) k c l

/-- The command of C of task k whose next piece goes to a peer by a page that is held and leaves now, 2 ticks after its last (R373). -/
def peerDue (s : State) (k : Nat) : Option Nat :=
  let now := (s.die (dieOf (k / 2))).tick2
  if (s.core (k / 2)).halted then none
  else
    ((s.task k).c.cmds.find? fun c =>
      !c.failed && decide (0 < c.next) && decide (c.next < c.len) && decide (c.sent2 + 4 ≤ now)
        && match (leafOf s k c (pieceOf c).1).2 with
          | some l => region (l.phys (pieceOf c).1) == .peer
          | none => false).map CCmd.id

/-- An address command sends its next piece (R125). -/
def execAddressPieceSend (core bank n : Nat) (s : State) : Result := .next (sendNextPiece s (tkey core bank) n)

/-- The bytes of a piece counted for its buffer by the class of its target (R64, R336). -/
def countPiece (s : State) (k : Nat) (p : Piece) : State :=
  let node := nodeOf p.pa
  if 16 ≤ node then s
  else
    let s := countBuf s k p.buf (if node % 8 = p.die then 0 else 1) p.len
    if 8 ≤ node then countBuf s k p.buf 2 p.len else s

/-- A command all of whose pieces have returned completes (R124). -/
def settleCmd (s : State) (k id : Nat) : State :=
  match findCmd s k id with
  | none => s
  | some c =>
    if c.len ≤ c.next ∧ c.out = 0 ∧ !c.failed then
      completeToken (s.modTask k fun t => { t with c := { t.c with cmds := t.c.cmds.filter fun x => x.id != id } }) k .c c.seq
    else s

/-- An address command starts (R123, R126): the page of its first piece is translated; then it stays in flight and C goes on. It waits
for the tlbi markers before it to pass (R307; log entry 79). A command that a record stopped takes up at its offset (R344), and one whose
first page is held and lies with a peer sends its first piece now (R373). -/
def startAddress (c : CCmd) (rgn : List (Nat × Nat × Nat × Bool)) (s : State) : State :=
  let old := s.me.resume.find? fun e => e.1 == s.cur.pc % 2 ^ 56
  let c : CCmd := { c with next := Nat.min c.len ((old.map Prod.snd).getD 0) }
  if 8 ≤ s.me.c.cmds.length ∨ (!c.pinned ∧ s.me.c.marks ≠ [] ∧ s.me.c.cmds.any CCmd.unsent) then waitFor .retry s
  else
    let s := if c.pinned then s else s.modMe passMarks
    let first := pieceOf c
    match leafOf s s.key c first.1 with
    | (s, none) => waitFor .retry (countStall (startWalk s s.key 1 first.1 false 0) s.key c.buf)
    | (s, some l) =>
      match leafCause s l first.1 c.store (demand c) with
      | some code => trapAt code first.1 s
      | none =>
        declare rgn (nextSeq s) none false (fun s =>
          let r := newToken s
          let id := s.me.c.nextId + 1
          let s := r.2.modMe fun t =>
            { t with resume := t.resume.filter fun e => some e != old
                     c := { t.c with nextId := id, cmds := t.c.cmds ++ [{ c with id := id, seq := r.1, pc := s.cur.pc }] } }
          let s := if region (l.phys first.1) = .peer then sendNextPiece s s.key id else s
          advance (settleCmd s s.key id)) s

/-- cld and cst (R129): scratchpad range, memory address, length; the checks go in the order in which the operands stand. -/
def plainCopy (store pinned : Bool) (va spad cx : Nat) (s : State) : State :=
  let len := lengthOf s cx
  let n := saneLength len
  let x := (cv s spad).toNat
  let v := (cv s va).toNat
  let m := spadChecks s x n 32
  let w := vaChecks v 32
  checked ((if store then w ++ m else m ++ w) ++ lengthChecks len) (fun s =>
    let v := v % 2 ^ 56
    match (if pinned then windowCause s v len store else none) with
    | some code => trapAt code v s
    | none =>
      startAddress { store := store, pinned := pinned, va := v, len := len, spad := x, buf := s.cur.ch.buf }
        (unitRange (spadSpace s.cur.core) x len (!store)) s) s

/-- Copies bytes from memory into the scratchpad through plain frames (R129). -/
def execCld (a b cx : Nat) (s : State) : Result := .next (issueToken (plainCopy false false b a cx) s)
/-- Copies bytes from a compute-capable frame into the scratchpad through the pinned window table (R127, R129). -/
def execCldBs (a b cx : Nat) (s : State) : Result := .next (issueToken (plainCopy false true b a cx) s)
/-- Copies bytes from the scratchpad to plain frames (R129). -/
def execCst (a b cx : Nat) (s : State) : Result := .next (issueToken (plainCopy true false a b cx) s)
/-- Copies bytes from the scratchpad to a compute-capable frame (R127, R129). -/
def execCstBs (a b cx : Nat) (s : State) : Result := .next (issueToken (plainCopy true true a b cx) s)

/-- cgat and csct (R131): elements of 32 x 2^ex bytes at va + index x size. -/
def elements (store : Bool) (va spad cx ex : Nat) (s : State) : State :=
  let e := 32 * 2 ^ ex
  let w := (cv s cx).toNat
  let list := w % 2 ^ 32
  let n := w / 2 ^ 32
  let badN := decide (n < 1) || decide (65536 < n)
  let m := if badN then 1 else n
  let x := (cv s spad).toNat
  let v := (cv s va).toNat
  let xs := spadChecks s x (m * e) 32
  let vs := vaChecks v e
  checked ((if store then vs ++ xs else xs ++ vs) ++ [(badN, 25)] ++ spadChecks s list (4 * m) 4) (fun s =>
    let sp := spadSpace s.cur.core
    startAddress { store := store, elem := true, va := v % 2 ^ 56, len := n * e, spad := x, esz := e, buf := s.cur.ch.buf,
                   idx := (List.range n).map fun i => s.myCore.spad.rdN (list + 4 * i) 4 }
      (unitRange sp x (n * e) (!store) ++ unitRange sp list (4 * n) false) s) s

/-- Gathers indexed elements from memory into the scratchpad (R131). -/
def execCgat (a b cx ex : Nat) (s : State) : Result := .next (issueToken (elements false b a cx ex) s)
/-- Scatters scratchpad elements to indexed memory addresses (R131). -/
def execCsct (a b cx ex : Nat) (s : State) : Result := .next (issueToken (elements true a b cx ex) s)

/-! ### Address commands: their replies -/

/-- The copy engine of die d sends the read of its next piece, unless its job has ended (R339). -/
def readNextPiece (s : State) (d : Nat) : State :=
  match (s.die d).ce with
  | none => s
  | some j =>
    if j.status ≠ 0 ∨ j.len ≤ j.off then s
    else
      let r := sendPiece s { die := d, own := .copy d, pa := j.src + j.off, len := 256 }
      r.2.modDie d fun x => { x with ce := some { j with piece := some r.1 } }

/-- A piece of the copy engine of die d comes back: what was read is written, and what was written is followed by the next read; an
error ends the job with status 4 (R339). -/
def copyReply (s : State) (d : Nat) (p : Piece) : State :=
  let s := dropPiece s p.id
  match (s.die d).ce with
  | none => s
  | some j =>
    if p.st = .bad then s.modDie d fun x => { x with ce := some { j with status := 4, piece := none } }
    else if p.wr then readNextPiece (s.modDie d fun x => { x with ce := some { j with off := j.off + 256, piece := none } }) d
    else
      let r := sendPiece s { die := d, own := .copy d, pa := j.dst + j.off, len := 256, wr := true, data := p.data }
      r.2.modDie d fun x => { x with ce := some { j with piece := some r.1 } }

/-- A request of device src is under way in this device. -/
def frameUnderWay (s : State) (src : Nat) : Bool :=
  s.pieces.any fun p => match p.own with | .frame _ x _ => x == src | _ => false

/-- The answer to a request leaves by the port by which the request came (R153). -/
def answerFrame (s : State) (f : Frame) (err : Bool) (bs : List Byte) : State :=
  transmit s { port := f.port, peer := f.src, src := nodeId s, off := f.off, wr := f.wr, len := f.len, reply := true, err := err,
               data := bs }

/-- A request for the exported window whose entry e was read as it arrived, 0 where it is refused (R153). One that names memory is served
as R125 says for its tier, one that names a scratchpad at once; a refused one moves no byte and is answered with an error. -/
def performFrame (s : State) (f : Frame) (e : Nat) : State :=
  if e / 2 ^ 62 = 1 then
    (sendPiece s { die := f.port / 2, own := .frame f.port f.src f.off, pa := slice e 16 36 * 2 ^ 16 + f.off % 65536, len := f.len
                   wr := f.wr, data := f.data }).2
  else if e / 2 ^ 62 = 2 then
    let c := slice e 32 10
    let a := slice e 16 5 * 2 ^ 16 + f.off % 65536
    let beat := (s.die (dieOf c)).beat
    let s := if f.wr then s.modCore c fun x => { x with spad := x.spad.wrList a (f.data.take f.len) } else s
    let s := replay s 2 beat [f.port + f.src * 2 ^ 32, f.off, f.len]
    answerFrame s f false (if f.wr then [] else (s.core c).spad.rdList a f.len)
  else answerFrame s f true []

/-- The requests of device src that wait are performed one after the other (R152; log entry 81); fuel bounds them. -/
def serveWaiting (src : Nat) : Nat → State → State
  | 0, s => s
  | n + 1, s =>
    if frameUnderWay s src then s
    else
      match s.dist.waiting.find? fun w => w.1.src == src with
      | none => s
      | some w =>
        serveWaiting src n (performFrame { s with dist := { s.dist with waiting := s.dist.waiting.erase w } } w.1 w.2)

/-- The piece of a request of device src has come back: it is answered, and the next request of that device follows. -/
def frameReply (s : State) (p : Piece) (port src off : Nat) : State :=
  let f : Frame := { port := port, src := src, off := off, wr := p.wr, len := p.len }
  let s := answerFrame (dropPiece s p.id) f (p.st == .bad) (if p.wr then [] else p.data)
  serveWaiting src s.dist.waiting.length s

/-- The reply or acknowledgement of piece id returns to the command of C that sent it (R124, R129). -/
def replyPiece (s : State) (id : Nat) : State :=
  match readyPiece s id with
  | (s, none) => s
  | (s, some p) =>
    let k := tkey p.core p.bank
    match p.own with
    | .sLoad => returnLoad s k
    | .sStore => performStore s k
    | .copy d => copyReply s d p
    | .frame port src off => frameReply s p port src off
    | .record _ _ => dropPiece s id
    | .flag seq status count =>
      completeToken (pushEvent (dropPiece s id) k 11 status count seq) k .c seq
    | .cCmd cid =>
      let s := dropPiece s id
      let s := if p.wr ∨ p.st = .bad then s
        else s.modCore p.core fun c => { c with spad := c.spad.wrList p.spad (p.data.take p.len) }
      let s := if p.st = .bad then s else countPiece s k p
      settleCmd (modCmd s k cid fun c => { c with out := c.out - 1 }) k cid

/-- The reply or acknowledgement of a piece returns and lands (R125). -/
def execAddressPieceReply (id : Nat) (s : State) : Result := .next (replyPiece s id)

/-- The pieces of one sender for one pseudo-channel arrive in the order in which they were sent (R125). -/
def arrivesNow (s : State) (p : Piece) : Bool :=
  s.pieces.all fun q => !(q.core == p.core && q.bank == p.bank && q.own == p.own && chanOf q.pa == chanOf p.pa
    && q.st == .sent && decide (q.id < p.id))

/-- A far request enters the queue of the base die, which holds 64 (R78). -/
def execFarRequestArrival (id : Nat) (s : State) : Result :=
  .next (match findPiece s id with
    | none => s
    | some p =>
      if !arrivesNow s p then s
      else if region p.pa = .fast ∧ p.st = .sent ∧ 64 ≤ (s.chan (chanOf p.pa)).farq.length then
        match p.own with
        | .cCmd _ => countStall s (tkey p.core p.bank) p.buf
        | _ => s
      else arrivePiece s id)

/-! ### Scratchpad commands -/

/-- A scratchpad command begins: C works on it until it completes (R123, R133). -/
def startSpad (c : SpadCmd) (rgn : List (Nat × Nat × Nat × Bool)) (s : State) : State :=
  declare rgn (nextSeq s) none false (fun s =>
    let pos := engPos s.myEng
    let r := newToken s
    advance (r.2.modMe fun t => { t with c := { t.c with spc := some { c with seq := r.1, pos := pos } } })) s

/-- Copies bytes between scratchpad ranges, own or a gang peer's (R130). -/
def execCcpy (a b cx : Nat) (s : State) : Result :=
  .next (issueToken (fun s =>
    let len := lengthOf s cx
    let n := saneLength len
    let d := (cv s a).toNat
    let x := (cv s b).toNat
    checked ([(decide (d % 32 ≠ 0), 29), ((reach s d n).isNone, 32), (decide (x % 32 ≠ 0), 29), ((reach s x n).isNone, 32)]
        ++ lengthChecks len) (fun s =>
      match reach s d len, reach s x len with
      | some p, some q =>
        startSpad { kind := 0, dcore := p.1, dst := p.2, score := q.1, src := q.2, n := len }
          (unitRange (spadSpace p.1) p.2 len true ++ unitRange (spadSpace q.1) q.2 len false) s
      | _, _ => trap 32 s) s) s)

/-! #### Field extraction (R134, R135) -/

/-- The element size in bits, and whether it is signed, of a pattern's type code 2-7. -/
def patType (p : Nat) : Nat × Bool :=
  match slice p 16 3 with
  | 2 => (32, true)
  | 3 => (32, false)
  | 4 => (16, true)
  | 5 => (16, false)
  | 6 => (8, true)
  | _ => (8, false)

def patFields (p : Nat) : Nat := slice p 8 5
def patPeriod (p : Nat) : Nat := p % 256
/-- Offset and width of field f. -/
def patField (p f : Nat) : Nat × Nat := (slice p (64 + 16 * f) 7, slice p (64 + 16 * f + 7) 6 + 1)

/-- A descriptor of 64 bytes keeps the limits of R134. -/
def patOk (p : Nat) : Bool :=
  let nf := patFields p
  let ty := slice p 16 3
  slice p 19 45 == 0 && slice p 13 3 == 0 && slice p 320 192 == 0 && [0, 1, 2, 4, 8, 16].contains nf
    && ((List.range 16).all fun f => decide (f < nf) || slice p (64 + 16 * f) 16 == 0)
    && (if nf = 0 then ty == 0 && patPeriod p == 0
        else decide (2 ≤ ty) && decide (1 ≤ patPeriod p) && decide (patPeriod p ≤ 128)
          && (List.range nf).all fun f =>
              let x := patField p f
              slice p (64 + 16 * f + 13) 3 == 0 && decide (x.2 ≤ (patType p).1) && decide (x.1 + x.2 ≤ patPeriod p))

/-- The bytes that a cfq of n entries reads (R135). -/
def patBytes (p n : Nat) : Nat :=
  let nf := patFields p
  if nf = 0 then 1024 * n
  else
    let periods := n * (8192 / (patType p).1) / nf
    let last := (List.range nf).foldl (fun m f => Nat.max m ((patField p f).1 + (patField p f).2)) 0
    ((periods - 1) * patPeriod p + last + 7) / 8

/-- Entry i that a cfq pushes from scratchpad address a (R135). -/
def patEntry (m : Mem) (a p i : Nat) : Mem :=
  let nf := patFields p
  if nf = 0 then Sparse.window m (a + 1024 * i) 1024
  else
    let esz := (patType p).1
    let per := 8192 / esz
    Mem.ofElems (esz / 8) per fun e =>
      let x := patField p (e % nf)
      let bit := (i * per + e) / nf * patPeriod p + x.1
      let v := slice (m.rdN (a + bit / 8) ((bit % 8 + x.2 + 7) / 8)) (bit % 8) x.2
      if (patType p).2 then wrapN (sext v x.2) esz else v

/-- Pushes entries into an operand queue, extracting fields through a pattern (R135). -/
def execCfq (nx a cx px : Nat) (s : State) : Result :=
  .next (issueToken (fun s =>
    let n := countOf s cx
    let x := (cv s a).toNat
    let pat := Sparse.rd 0 s.me.pat px
    checked (spadChecks s x (patBytes pat (saneCount n)) 32 ++ countChecks n)
      (startSpad { kind := 1, src := x, n := n, q := nx, pat := pat }
        (unitRange (spadSpace s.cur.core) x (patBytes pat n) false)) s) s)

/-- Pops entries of an outbound queue into the scratchpad (R133). -/
def execCdq (a nx cx : Nat) (s : State) : Result :=
  .next (issueToken (fun s =>
    let n := countOf s cx
    let x := (cv s a).toNat
    checked (spadChecks s x (1024 * saneCount n) 32 ++ countChecks n)
      (startSpad { kind := 2, dst := x, n := n, q := nx } (unitRange (spadSpace s.cur.core) x (1024 * n) true)) s) s)

/-- The check of n entries from a first entry in the own share of the underfile (R132). -/
def fileChecks (s : State) (e n : Nat) : List (Bool × Nat) := [(!inFile s e n, 32)]

/-- Copies scratchpad entries into the underfile (R132). -/
def execCvf (a b cx : Nat) (s : State) : Result :=
  .next (issueToken (fun s =>
    let n := countOf s cx
    let m := saneCount n
    let e := (cv s a).toNat
    let x := (cv s b).toNat
    checked (fileChecks s e m ++ spadChecks s x (1024 * m) 32 ++ countChecks n)
      (startSpad { kind := 3, dst := e, src := x, n := n }
        (unitRange (spadSpace s.cur.core) x (1024 * n) false ++ [(ufSpace s.cur.core, e, e + n - 1, true)])) s) s)

/-- Copies underfile entries into the scratchpad (R132). -/
def execCfv (a b cx : Nat) (s : State) : Result :=
  .next (issueToken (fun s =>
    let n := countOf s cx
    let m := saneCount n
    let x := (cv s a).toNat
    let e := (cv s b).toNat
    checked (spadChecks s x (1024 * m) 32 ++ fileChecks s e m ++ countChecks n)
      (startSpad { kind := 4, dst := x, src := e, n := n }
        (unitRange (spadSpace s.cur.core) x (1024 * n) true ++ [(ufSpace s.cur.core, e, e + n - 1, false)])) s) s)

/-- ccv and cpl: length bytes into a storage of size bytes (R132). -/
def intoStore (kind size sp a b cx : Nat) (s : State) : State :=
  let len := lengthOf s cx
  let n := saneLength len
  let d := (cv s a).toNat
  let x := (cv s b).toNat
  checked ([(decide (d % 32 ≠ 0), 29), (decide (size < d + n), 32)] ++ spadChecks s x n 32 ++ lengthChecks len)
    (startSpad { kind := kind, dst := d, src := x, n := len }
      (unitRange (spadSpace s.cur.core) x len false ++ unitRange sp d len true)) s

/-- Copies scratchpad bytes into the Canvas (R132). -/
def execCcv (a b cx : Nat) (s : State) : Result :=
  .next (issueToken (intoStore 5 524288 (canvasSpace s.cur.core) a b cx) s)
/-- Copies scratchpad bytes into the Palette (R132). -/
def execCpl (a b cx : Nat) (s : State) : Result :=
  .next (issueToken (intoStore 6 16384 (paletteSpace s.cur.core) a b cx) s)

/-- V can no longer act for the queue command seq of task k (R133): it has taken an end record, or waits on a token of a C command
at or after this one. -/
def vGone (s : State) (k seq : Nat) : Bool :=
  let x := s.eng k .v
  x.phase == .idle ||
    (x.wait == .tokens && (x.latched.getD []).any fun w =>
      bitOf w.toNat 35 && slice w.toNat 32 3 == 1 && !tokenDone s k w
        && decide ((w.toNat % 2 ^ 32 + 2 ^ 32 - seq) % 2 ^ 32 < 2 ^ 31))

/-- A scratchpad command of task k is done: its token completes. -/
def endSpad (s : State) (k : Nat) (c : SpadCmd) : State :=
  completeToken (s.modTask k fun t => { t with c := { t.c with spc := none } }) k .c c.seq

/-- An entry is on its way into outbound queue q: V still acts for it (R133, R162; log entry 62). -/
def outqComing (s : State) (k q : Nat) : Bool := (s.task k).v.flights.any fun f => f.dst == .outq q

/-- A queue command cannot go on: it waits, or traps where the other side is gone (R133). -/
def queueStuck (s : State) (k : Nat) (c : SpadCmd) (code : Nat) : State :=
  if vGone s k c.seq ∧ !(s.task k).stop ∧ ¬(code = 27 ∧ outqComing s k c.q) then
    raiseCause ((s.modTask k fun t => { t with c := { t.c with spc := some { c with failed := true } } }).modEng k .c fun x =>
      { x with stopped := true }) k code 0 0
  else s

/-- The bytes that a copy of kind 0 or 3 to 6 moves. -/
def SpadCmd.size (c : SpadCmd) : Nat := if c.kind = 3 ∨ c.kind = 4 then 1024 * c.n else c.n

/-- A copy whose source and destination overlap: it reads all of the source first (R130). -/
def SpadCmd.overlaps (c : SpadCmd) : Bool :=
  c.kind == 0 && c.dcore == c.score && decide (c.dst < c.src + c.n) && decide (c.src < c.dst + c.n)

/-- m bytes of a copy of core own from its byte o on: from its source to its destination (R130, R132). -/
def copyBytes (s : State) (own : Nat) (c : SpadCmd) (o m : Nat) : State :=
  let spad := (s.core own).spad
  match c.kind with
  | 0 =>
    let data := Sparse.window (s.core c.score).spad (c.src + o) m
    s.modCore c.dcore fun x => { x with spad := x.spad.putMem (c.dst + o) m data }
  | 3 => s.modCore own fun x => { x with uf := x.uf.putMem (1024 * c.dst + o) m (Sparse.window spad (c.src + o) m) }
  | 4 => s.modCore own fun x => { x with spad := x.spad.putMem (c.dst + o) m (Sparse.window x.uf (1024 * c.src + o) m) }
  | 5 => s.modCore own fun x => { x with canvas := x.canvas.putMem (c.dst + o) m (Sparse.window spad (c.src + o) m) }
  | _ => s.modCore own fun x => { x with palette := x.palette.putMem (c.dst + o) m (Sparse.window spad (c.src + o) m) }

/-- A copy of task k moves some of its 32-byte units, or all that are left (R293). -/
def copyUnits32 (s : State) (k : Nat) (c : SpadCmd) : State :=
  let units := (c.size + 31) / 32
  let (n, s) := if c.overlaps then (units, s) else s.portion (units - c.done)
  let o := 32 * c.done
  let s := copyBytes s (k / 2) c o (Nat.min (32 * n) (c.size - o))
  if units ≤ c.done + n then endSpad s k c
  else s.modTask k fun t => { t with c := { t.c with spc := some { c with done := c.done + n } } }

/-- The scratchpad command of task k moves on: a copy by some of its units, a queue command by the entries that its queue lets it
(R130-R135). -/
def runSpad (s : State) (k : Nat) : State :=
  match (s.task k).c.spc with
  | none => s
  | some c =>
    let core := k / 2
    let spad := (s.core core).spad
    if c.failed then s
    else
      match c.kind with
      | 1 =>
        if c.n ≤ c.done then endSpad s k c
        else if 4 ≤ opqPlaces (s.task k) c.q then queueStuck s k c 28
        else
          let e := patEntry spad c.src c.pat c.done
          let c' := { c with done := c.done + 1 }
          let s := s.modTask k fun t =>
            { t with opq := Sparse.wr [] t.opq c.q (Sparse.rd [] t.opq c.q ++ [e]), c := { t.c with spc := some c' }
                     v := { t.v with pushed := Sparse.wr 0 t.v.pushed c.q (Sparse.rd 0 t.v.pushed c.q + 1) } }
          if c'.n ≤ c'.done then endSpad s k c' else s
      | 2 =>
        match Sparse.rd [] (s.task k).outq c.q with
        | [] => queueStuck s k c 27
        | e :: r =>
          let c' := { c with done := c.done + 1 }
          let s := s.modTask k fun t => { t with outq := Sparse.wr [] t.outq c.q r, c := { t.c with spc := some c' } }
          let s := s.modCore core fun x => { x with spad := x.spad.putMem (c.dst + 1024 * c.done) 1024 e }
          if c'.n ≤ c'.done then endSpad s k c' else s
      | _ => copyUnits32 s k c

/-- A scratchpad command of C finishes moving its units, pushing or popping entries (R124, R130-R135). -/
def execCScratchpadCommandComplete (core bank : Nat) (s : State) : Result := .next (runSpad s (tkey core bank))

/-! ### Commands that finish at step 2 -/

/-- Loads a pattern register from a descriptor (R134). -/
def execCpat (a px : Nat) (s : State) : Result :=
  .next (issueToken (fun s =>
    let x := (cv s a).toNat
    checked (spadChecks s x 64 64) (fun s =>
      let p := s.myCore.spad.rdN x 64
      checked [(!patOk p, 25)]
        (quick (unitRange (spadSpace s.cur.core) x 64 false) fun s =>
          s.modMe fun t => { t with pat := Sparse.wr 0 t.pat px p }) s) s) s)

/-- aD ← aA + aB (R136). -/
def execCadd (d a b : Nat) (s : State) : Result :=
  .next (issueToken (quick [] fun s => setC s d (cv s a + cv s b)) s)
/-- aD ← aA − aB (R136). -/
def execCaddSub (d a b : Nat) (s : State) : Result :=
  .next (issueToken (quick [] fun s => setC s d (cv s a - cv s b)) s)
/-- aD ← aA << aB[5:0] (R136). -/
def execCaddShl (d a b : Nat) (s : State) : Result :=
  .next (issueToken (quick [] fun s => setC s d (cv s a <<< ((cv s b).toNat % 64))) s)
/-- aD ← aA (R136). -/
def execCmov (d a : Nat) (s : State) : Result := .next (issueToken (quick [] fun s => setC s d (cv s a)) s)
/-- aD ← the 64-bit value at spad aA (R136). -/
def execCmovLd (d a : Nat) (s : State) : Result :=
  .next (issueToken (fun s =>
    let x := (cv s a).toNat
    checked (spadChecks s x 8 8)
      (quick (unitRange (spadSpace s.cur.core) x 8 false) fun s => setC s d (BitVec.ofNat 64 (s.myCore.spad.rdN x 8))) s) s)
/-- The 64-bit value at spad aD ← aA (R136). -/
def execCmovSt (d a : Nat) (s : State) : Result :=
  .next (issueToken (fun s =>
    let x := (cv s d).toNat
    checked (spadChecks s x 8 8)
      (quick (unitRange (spadSpace s.cur.core) x 8 true) fun s =>
        s.modMyCore fun c => { c with spad := c.spad.wrN x 8 (cv s a).toNat }) s) s)
/-- aD ← pop(hq), waiting while hq is empty; it traps where S is stalled so that it cannot fill hq (R136). -/
def execTake (d : Nat) (s : State) : Result :=
  .next (issueToken (fun s =>
    match s.me.hq with
    | v :: r => quick [] (fun s => setC (s.modMe fun t => { t with hq := r }) d v) s
    | [] => if stalledFor s s.key .c then trap 27 s else waitFor .hq s) s)

/-! ### rdc (R116) -/

/-- The checks of R116 on the words of a parameter block that the words alone show. -/
def rdcFieldBad (w : List Nat) : Bool :=
  let x := w.getD 2 0
  let y := w.getD 3 0
  let nsrc := slice x 30 4
  decide (slice x 41 23 ≠ 0) || bitOf x 37 || decide (2 ≤ slice x 35 2) || decide (5 ≤ slice x 38 3) || decide (nsrc < 2)
    || decide (12 < nsrc) || decide (x % 2 ^ 30 = 0) || decide (slice y 48 16 = 0) || decide (slice y 32 16 = 0)
    || (List.range 12).any fun i => decide (nsrc ≤ i) && decide (w.getD (4 + i) 0 ≠ 0)

/-- The buffers of a block: destination, then sources, as virtual addresses. -/
def rdcBuffers (w : List Nat) : List Nat := w.getD 0 0 :: (List.range (slice (w.getD 2 0) 30 4)).map fun i => w.getD (4 + i) 0

/-- The check of the buffers against the pinned windows, in the order of R116: the first that fails, with the virtual address of the
first buffer that fails it (R380), or the physical addresses. Bits 63:56 of an address are dropped (log entry 78). -/
def rdcPlaces (s : State) (w : List Nat) : Except (Nat × Nat) (List Nat) :=
  let bufs := (rdcBuffers w).map fun v => v % 2 ^ 56
  let n := 32 * (w.getD 2 0 % 2 ^ 30)
  let wins := bufs.map fun v => windowOf s v
  let pas := (bufs.zip wins).map fun x => match x.2 with | some l => l.phys x.1 | none => 0
  let dst := pas.headD 0
  let stack (a : Nat) : Nat := stackOf (chanOf a)
  let first (bad : Nat × Option Leaf → Bool) : Option Nat := ((bufs.zip wins).find? bad).map Prod.fst
  let crosses (x : Nat × Option Leaf) : Bool := match x.2 with
    | some l => !l.maps (x.1 + n - 1)
    | none => s.me.tlb.pins.any fun l => decide (x.1 < l.va) && decide (l.va < x.1 + n)
  let away (x : Nat × Option Leaf) : Bool := match x.2 with
    | some l => region (l.phys x.1) != .fast || stack (l.phys x.1) != stack dst
    | none => true
  let source := ((bufs.zip wins).drop 1).find? fun x => !x.2.any Leaf.r
  match first crosses, first away with
  | some v, _ => .error (201, v)
  | _, some v => .error (200, v)
  | _, _ =>
    if !(wins.headD none).any Leaf.w then .error (199, bufs.headD 0)
    else
      match source with
      | some x => .error (199, x.1)
      | none =>
        if (pas.drop 1).any fun a => a != dst && decide (a < dst + n) && decide (dst < a + n) then .error (32, 0) else .ok pas

/-- The block of words w whose buffers lie at pas goes to the reduction engine: [token, buffer number, the two control words, flag
address plus 1 or 0, destination, sources]. -/
def handOver (x : Nat) (w pas : List Nat) (flag : Option Nat) (s : State) : State :=
  declare (unitRange (spadSpace s.cur.core) x 128 false) (nextSeq s) none false (fun s =>
    let pos := engPos s.myEng
    let r := newToken s
    let flagWord := match flag with | some pa => pa + 1 | none => 0
    advance (r.2.modMe fun t =>
      { t with c := { t.c with rdc := some ([r.1, s.cur.ch.buf, w.getD 2 0, w.getD 3 0, flagWord] ++ pas), rdcAt := pos } })) s

/-- Checks a parameter block and hands it to the stack's reduction engine (R116). -/
def execRdc (a : Nat) (s : State) : Result :=
  .next (issueToken (fun s =>
    let x := (cv s a).toNat
    checked (spadChecks s x 128 128) (fun s =>
      let w := s.myCore.spad.getWords x 16
      let flag := w.getD 1 0
      checked [(rdcFieldBad w, 25), ((rdcBuffers w).any fun v => v % 32 != 0, 29), (decide (flag % 8 ≠ 0), 29)] (fun s =>
        match rdcPlaces s w with
        | .error e => trapAt e.1 e.2 s
        | .ok pas =>
          if flag = 0 then handOver x w pas none s
          else if s.me.c.marks ≠ [] ∧ s.me.c.cmds.any CCmd.unsent then waitFor .retry s
          else
            let va := flag % 2 ^ 56
            let s := s.modMe passMarks
            match lookup s.me.tlb.strm va with
            | none => waitFor .retry (countStall (startWalk s s.key 1 va false 0) s.key s.cur.ch.buf)
            | some (l, t) =>
              let s := s.modMe fun y => { y with tlb := { y.tlb with strm := t } }
              match leafCause s l va true none with
              | some code => trapAt code va s
              | none => handOver x w pas (some (l.phys va)) s) s) s) s)

/-- The reduction engine queues an accepted block, if fewer than four stand in it (R95) and no stop has reached its task (R99). -/
def acceptBlock (s : State) (k : Nat) : State :=
  match (s.task k).c.rdc with
  | none => s
  | some w =>
    let dst := w.getD 5 0
    let sk := stackOf (chanOf dst)
    if 4 ≤ (s.stack sk).red.length ∨ (s.task k).stop then s
    else
      let x := w.getD 2 0
      let y := w.getD 3 0
      let flag := w.getD 4 0
      let b : RedBlk :=
        { core := k / 2, bank := k % 2, seq := w.getD 0 0, buf := w.getD 1 0, dst := dst, srcs := w.drop 6,
          flag := if flag = 0 then none else some (flag - 1), scope := slice x 38 3, sequential := bitOf x 35, bf := bitOf x 34,
          nstrips := x % 2 ^ 30, stride := slice y 48 16, nbeats := slice y 32 16, first := y % 2 ^ 32,
          accepted := (s.die (sk / 2)).beat }
      (s.modStack sk fun z => { z with red := z.red ++ [b] }).modTask k fun t => { t with c := { t.c with rdc := none } }

/-- The reduction engine queues an accepted parameter block (R95). -/
def execRdcBlockAccept (core bank : Nat) (s : State) : Result := .next (acceptBlock s (tkey core bank))

/-! ### ctx (R145) -/

/-- The hop count between two dies (R139). -/
def hops (d e : Nat) : Nat := (d % 4 - e % 4) + (e % 4 - d % 4) + (d / 4 - e / 4) + (e / 4 - d / 4)

/-- The first of the n beats after b whose boundary lies at offset distance at least m from the point x (R148). -/
def edgeBeat (s : State) (x : Point) (m : Nat) : Nat → Nat → Nat
  | b, 0 => b
  | b, n + 1 => if m ≤ s.delta x ⟨b, 0⟩ then b else edgeBeat s x m (b + 1) n

/-- A timed transfer of scratchpad strips to a gang peer on another die (R145): the source is read now. -/
def execCtx (d sx lx gp nx : Nat) (s : State) : Result :=
  .next (issueToken (fun s =>
    let len := if lx = 0 then 32 else (cv s lx).toNat
    let m := if len < 32 ∨ 4096 < len ∨ len % 32 ≠ 0 then 32 else len
    let da := (cv s d).toNat
    let x := (cv s sx).toNat
    let target := if da < 0x80000000 then none else reach s da m
    let far : Bool := match target with | some p => dieOf p.1 != dieOf s.cur.core | none => false
    checked ([(decide (da % 32 ≠ 0), 29), (!far, 32)] ++ spadChecks s x m 32
        ++ [(decide (len < 32) || decide (4096 < len), 25), (decide (len % 32 ≠ 0), 29)]) (fun s =>
      match target with
      | none => trap 32 s
      | some p =>
        let place := placeCmd s gp nx
        let plan := planOf s place
        let die := dieOf s.cur.core
        let n := len / 32
        if s.delta (s.now die) plan < 8 then trap 322 s
        else
          let h := hops die (dieOf p.1)
          let need := 24 * h + 10 + (n - 1) / 2
          let edge := edgeBeat s plan need (plan.beat + 1) 16
          declareAs { rgn := unitRange (spadSpace s.cur.core) x len false ++ unitRange (spadSpace p.1) p.2 len true
                      seq := nextSeq s, beat := some (p.1, edge), timed := some (p.1, plan, need) }
            [(s.cur.core, s.now die), (p.1, ⟨plan.beat, plan.off + 24 * h + 2⟩)] false (fun s =>
            let pos := engPos s.myEng
            let r := newToken s
            let s := setPlace r.2 place.1 place.2
            let t : CtxCmd :=
              { core := s.cur.core, bank := s.cur.bank, seq := r.1, pos := pos, plan := plan, src := x, dcore := p.1, daddr := p.2,
                n := n, data := Sparse.window s.myCore.spad x len }
            advance (s.modDie die fun y => { y with ctx := y.ctx ++ [t] })) s) s) s)

end Sys2Proof.Machine
end

