-- ==== Sys2Proof/Machine/Fabric.lean ====
section
/-!
DEFINITION. Between dies and between chips (08_dies_time R139-R154): beacons and skew, liveness (17_gangs R317), timed transfers,
the node transport, time stamps.
-/

namespace Sys2Proof.Machine

/-! ### Beacons (R141, R142) -/

/-- The dies joined to die d by a link (R139). -/
def neighbours (d : Nat) : List Nat := (List.range 8).filter fun e => hops d e == 1

/-- The next beacons of die d are due: 1,024 ticks after the last. -/
def beaconDue (s : State) (d : Nat) : Bool := decide ((s.die d).beacon2 + 2048 ≤ (s.die d).tick2)

/-- Die d sends a beacon on each of its links. -/
def sendBeacons (s : State) (d : Nat) : State :=
  if !beaconDue s d then s
  else
    s.modDie d fun x =>
      { x with beacon2 := x.tick2
               beacons := x.beacons ++ (neighbours d).map fun e =>
                 { dst := e, sent2 := x.tick2, opens := x.opens.map fun o => (o.1, x.tick2 - o.2), est := x.est } }

/-- Every 1,024 ticks a die sends a beacon on each link (R141). -/
def execBeaconSend (die : Nat) (s : State) : Result := .next (sendBeacons s die)

/-- Two dies whose skew is estimated at 8 ticks or more: every attached gang with tasks on both raises code 349, and the next boundary
aligns (R142). -/
def skewLimit (s : State) (d e : Nat) : State :=
  let on (g : Gang) (x : Nat) : Bool := g.live.any fun k => dieOf (k / 2) == x
  let hit := s.dist.gangs.filter fun g => g.st == .attached && on g d && on g e
  let s := hit.foldl (fun s g => raiseCause s (g.live.headD 0) 349 0 0) s
  { s with grid := { s.grid with forced := joinNats s.grid.forced [s.grid.opened + 1] } }

/-- The first beacon of die e for die d that has been 24 ticks on its way. -/
def arrived (s : State) (d e : Nat) : Option Beacon :=
  let x := s.die e
  x.beacons.find? fun b => b.dst == d && decide (b.sent2 + 48 ≤ x.tick2)

/-- How far the sender of a beacon lags die d, in half ticks: the openings of the last beat that both have opened compared. -/
def lagOf (s : State) (d : Nat) (b : Beacon) : Option Int :=
  let x := s.die d
  b.opens.findSome? fun o =>
    (x.opens.find? fun y => y.1 == o.1).map fun y => (x.tick2 : Int) - 48 - o.2 - y.2

/-- Die d takes a neighbour's beacon: the estimate of the neighbour, and of the dies that it reaches by it. -/
def takeBeacon (s : State) (d e : Nat) : State :=
  match arrived s d e with
  | none => s
  | some b =>
    let s := s.modDie e fun x => { x with beacons := x.beacons.erase b }
    let s := s.modDie d fun x => { x with heard := Sparse.wr 0 x.heard e x.tick2 }
    match lagOf s d b with
    | none => s
    | some near =>
      let est := (List.range 8).foldl (fun m f =>
        if f = d then m
        else if f = e then Sparse.wr 0 m f near
        else if hops d f = 1 + hops e f then Sparse.wr 0 m f (near + Sparse.rd 0 b.est f)
        else m) (s.die d).est
      let s := s.modDie d fun x => { x with est := est }
      ((List.range 8).filter fun f => decide (16 ≤ (Sparse.rd 0 est f).natAbs)).foldl (fun s f => skewLimit s d f) s

/-- A die receives a neighbour's beacon and updates its estimates (R141). -/
def execBeaconReceive (die src : Nat) (s : State) : Result := .next (takeBeacon s die src)

/-- A neighbour of die d has heard no beacon of it for 8,192 ticks (R317). -/
def silent (s : State) (d : Nat) : Bool :=
  !(s.die d).fenced && (neighbours d).any fun e =>
    !(s.die e).fenced && decide (Sparse.rd 0 (s.die e).heard d + 16384 ≤ (s.die e).tick2)

/-- A die that sends no beacon for 8,192 ticks is fenced off (R317). -/
def execLivenessTimeout (die : Nat) (s : State) : Result := .next (if silent s die then fenceDie s die else s)

/-! ### Timed transfers (R146, R147) -/

/-- The next die on the route from d to e: along the row first (R146). -/
def towards (d e : Nat) : Nat :=
  if d % 4 < e % 4 then d + 1 else if e % 4 < d % 4 then d - 1 else if d < e then d + 4 else d - 4

/-- The links of a route, each with its direction, in order. -/
def routeOf : Nat → Nat → Nat → List (Nat × Nat)
  | 0, _, _ => []
  | n + 1, d, e => if d = e then [] else (d, towards d e) :: routeOf n (towards d e) e

/-- The links that a timed transfer crosses, in order (R146). -/
def linksOf (t : CtxCmd) : List (Nat × Nat) := routeOf 4 (dieOf t.core) (dieOf t.dcore)

/-- When strip i of a sent transfer crosses its hop k, in half ticks from now on its sender's clock (R146). -/
def crossesAt (s : State) (t : CtxCmd) (k i : Nat) : Int :=
  (t.sent2.getD 0 : Int) - (s.die (dieOf t.core)).tick2 + 48 * k + 2 * ((i / 2 : Nat) : Int)

/-- The strips of transfer t that reach its hop k: none that an earlier or this hop has dropped. -/
def stripsAt (t : CtxCmd) (k : Nat) : List Nat := (List.range t.n).filter fun i => t.cut.all fun c => c.1 != i || decide (k < c.2)

/-- The strips of transfer t that have not crossed its hop k by the moment c are dropped there (R147). -/
def dropFrom (s : State) (t : CtxCmd) (k : Nat) (c : Int) : CtxCmd :=
  let gone := (stripsAt t k).filter fun i => decide (c ≤ crossesAt s t k i)
  { t with strips := t.strips.filter (fun i => !gone.contains i)
           cut := t.cut.filter (fun x => !gone.contains x.1) ++ gone.map fun i => (i, k) }

/-- Transfers x and y, at a link that is hop k of x and hop l of y, occupy it in the tick that begins now: when their strips cross (R147). -/
def meetAt (s : State) (x y : CtxCmd) (k l : Nat) : Option (Int × Int) :=
  (stripsAt x k).findSome? fun i => (stripsAt y l).findSome? fun j =>
    let a := crossesAt s x k i
    let b := crossesAt s y l j
    if (a - b).natAbs ≤ 1 ∧ -1 ≤ max a b ∧ max a b ≤ 0 then some (a, b) else none

/-- A collision of two transfers: the transfers, the hop of each, and the moments at which their strips cross. -/
structure Collision where
  x : CtxCmd
  y : CtxCmd
  k : Nat
  l : Nat
  a : Int
  b : Int

/-- The transfers that have been sent. -/
def sentCtx (s : State) (d : Nat) : List CtxCmd := (s.die d).ctx.filter fun t => t.sent2.isSome

/-- A collision that a transfer of die d meets now. -/
def collisionDue (s : State) (d : Nat) : Option Collision :=
  (sentCtx s d).findSome? fun x => (((List.range 8).flatMap (sentCtx s)).filter fun y => y != x).findSome? fun y =>
    (linksOf x).zipIdx.findSome? fun u => ((linksOf y).zipIdx.filter fun v => v.1 == u.1).findSome? fun v =>
      (meetAt s x y u.2 v.2).map fun m => { x := x, y := y, k := u.2, l := v.2, a := m.1, b := m.2 }

/-- A transfer of die d replaced. -/
def setCtx (s : State) (old new : CtxCmd) : State :=
  s.modDie (dieOf old.core) fun x => { x with ctx := x.ctx.map fun t => if t = old then new else t }

/-- The gang that owns a transfer raises code 322. -/
def collided (s : State) (t : CtxCmd) : State := raiseCause s (tkey t.core t.bank) 322 0 0

/-- Two transfers collide: the one that reaches the link later, or together with the other from a core of lower number, keeps its strips,
and the gangs of both raise code 322 (R147). -/
def collide (s : State) (c : Collision) : State :=
  let a := crossesAt s c.x c.k 0
  let b := crossesAt s c.y c.l 0
  let xKeeps := decide (b < a) || (a == b && decide (c.x.core < c.y.core))
  let s := if xKeeps then setCtx s c.y (dropFrom s c.y c.l c.b) else setCtx s c.x (dropFrom s c.x c.k c.a)
  collided (collided s c.x) c.y

/-- The transfer of die d that is due to be sent. -/
def ctxDue (s : State) (d : Nat) : Option CtxCmd :=
  let x := s.die d
  if !mayStart s d then none
  else x.ctx.find? fun t => t.sent2.isNone && (decide (t.plan.beat < x.beat) || (t.plan.beat == x.beat && decide (2 * t.plan.off ≤ x.off2)))

/-- A transfer is sent at its planned start; one whose beat has closed before its offset was reached raises code 322 and is not
(log entry 19). -/
def sendCtx (s : State) (d : Nat) : State :=
  match ctxDue s d with
  | none => s
  | some t =>
    let x := s.die d
    if t.plan.beat < x.beat then
      collided (s.modDie d fun x => { x with ctx := x.ctx.erase t, ctxAgain := x.ctxAgain ++ [t] }) t
    else setCtx s t { t with sent2 := some x.tick2, strips := List.range t.n }

/-- A timed transfer is sent at its planned start along a fixed route (R146). -/
def execCtxSend (die : Nat) (s : State) : Result := .next (sendCtx s die)

/-- The strip of transfer t that is due to land: at t + 24h + 2 + floor(i/2) on its sender's clock (R146). -/
def stripLands (s : State) (t : CtxCmd) : Option Nat :=
  let x := s.die (dieOf t.core)
  match t.sent2 with
  | none => none
  | some z => t.strips.find? fun i => decide (z + 2 * (24 * hops (dieOf t.core) (dieOf t.dcore) + 2 + i / 2) ≤ x.tick2)

/-- The strips that are due to land, with their transfers. -/
def landingCtx (s : State) (d : Nat) : List (CtxCmd × Nat) := (s.die d).ctx.filterMap fun t => (stripLands s t).map fun i => (t, i)

/-- The strip that lands next where a transfer of die d has one due: the strips for one core land in the order of their sending cores
(R120). -/
def ctxLandDue (s : State) (d : Nat) : Option (CtxCmd × Nat) :=
  (landingCtx s d).head?.map fun x =>
    (((List.range 8).flatMap (landingCtx s)).filter fun y => y.1.dcore == x.1.dcore).foldl
      (fun m y => if y.1.core < m.1.core then y else m) x

/-- A strip lands, after the drd strips that land in the same core now (R120); after the last one the token completes, unless strips were
dropped. -/
def landCtx (s : State) (d : Nat) : State :=
  match ctxLandDue s d with
  | none => s
  | some (t, i) =>
    if (landDueOf s t.dcore).isSome then landStrip s t.dcore
    else
      let s := s.modCore t.dcore fun c => { c with spad := c.spad.putMem (t.daddr + 32 * i) 32 (Sparse.window t.data (32 * i) 32) }
      let t' : CtxCmd := { t with strips := t.strips.erase i }
      if t'.strips ≠ [] ∨ t'.cut ≠ [] then setCtx s t t'
      else completeToken (s.modDie (dieOf t.core) fun x => { x with ctx := x.ctx.erase t }) (tkey t.core t.bank) .c t.seq

/-- A transfer of die d that has lost strips and of which none is on its way any more. -/
def ctxSpent (s : State) (t : CtxCmd) : Bool :=
  t.sent2.isSome && t.cut != [] && t.strips == [] && t.cut.all fun c => decide (crossesAt s t c.2 c.1 ≤ 0)

/-- A transfer that has lost strips and of which none is on its way any more leaves nothing: its token stays open. -/
def ctxEmpty (s : State) (d : Nat) : State := s.modDie d fun x => { x with ctx := x.ctx.filter fun t => !ctxSpent s t }

/-- A strip of a timed transfer lands in the destination scratchpad (R146). -/
def execCtxLanding (die : Nat) (s : State) : Result := .next (landCtx (ctxEmpty s die) die)

/-! ### Node transport (R152-R154) -/

/-- The entry of the export table for an offset of the window; none where the piece is refused (R153). -/
def exportEntry (s : State) (off : Nat) (wr : Bool) : State × Option Nat :=
  let r := s.reg regExpbase
  let base := slice r 19 33 * 2 ^ 19
  if !bitOf r 0 || !inTiers base then (s, none)
  else
    match tableWord s (base + off / 65536 * 8) with
    | (s, e) =>
      let allowed := if wr then bitOf e 60 else bitOf e 61
      let clean := match e / 2 ^ 62 with
        | 1 => slice e 52 8 == 0 && e % 2 ^ 16 == 0 && inTiers (slice e 16 36 * 2 ^ 16)
        | 2 => slice e 42 18 == 0 && slice e 21 11 == 0 && e % 2 ^ 16 == 0 && slice e 32 10 != 0 && decide (slice e 32 10 < 768)
        | _ => false
      (s, if allowed && clean then some e else none)

/-- A request for this device's exported window: its entry is read as it arrives, and it is served once the earlier ones of its source
have been (R152, R153; log entry 81). -/
def takeRequest (s : State) (f : Frame) : State :=
  match exportEntry s f.off f.wr with
  | (s, e) =>
    let s := { s with dist := { s.dist with waiting := s.dist.waiting ++ [(f, e.getD 0)] } }
    serveWaiting f.src s.dist.waiting.length s

/-- The gang that issued a piece raises code 334; a copy job notes the error by its piece. -/
def peerError (s : State) (p : Piece) : State :=
  let s := setPiece s { p with st := .bad }
  if p.own.outside then s else raiseCause s (tkey p.core p.bank) 334 0 0

/-- A write of the same task to the same peer, sent before piece p, has not performed: p waits for it (R152). -/
def behindPeer (s : State) (p : Piece) : Bool :=
  p.wr && s.pieces.any fun q => q.wr && q.core == p.core && q.bank == p.bank && q.own.outside == p.own.outside && q.st == .sent
    && region q.pa == .peer && slice q.pa 32 18 == slice p.pa 32 18 && decide (q.id < p.id)

/-- The answer to a piece under way outside the module: it performs, or fails (R152, R153, R365). -/
def answerPiece (s : State) (p : Piece) (ok : Bool) (data : List Byte) : State :=
  if !ok then peerError s p
  else setPiece s { p with st := .served, data := if p.wr then p.data else readBy s p p.pa (data.take p.len) }

/-- An answer of device src that arrives at a port: it is for the oldest piece under way to that offset of it (R152). -/
def takeAnswer (s : State) (f : Frame) : State :=
  match s.pieces.find? fun p => region p.pa == .peer && slice p.pa 32 18 == f.src && p.pa % 2 ^ 32 == f.off && p.wr == f.wr
      && p.st == .sent with
  | some p => if behindPeer s p then s else answerPiece s p (!f.err) f.data
  | none => s

/-- A frame arrives at an Ethernet port: above the offset, head says 0 a request, 1 an answer, 2 an answer with an error. One for this
device is served or taken; one for another is forwarded as it is, or dropped and answered with an error where that device is unreachable
(R153, R154). -/
def execNodeFrameArrival (port src dst head len : Nat) (wr : Bool) (data : List Byte) (s : State) : Result :=
  let kind := head / 2 ^ 32
  let f : Frame := { port := port, peer := dst, src := src, off := head % 2 ^ 32, wr := wr, len := len, reply := kind != 0
                     err := kind == 2, data := data }
  .next (if dst = nodeId s then if kind = 0 then takeRequest s f else takeAnswer s f
    else
      match routePort s dst with
      | (s, some p) => transmit s { f with port := p }
      | (s, none) => transmit s { f with peer := src, src := dst, reply := true, err := true, data := [] })

/-- A peer's acknowledgement or reply arrives: the piece performs, or its gang raises code 334 (R152, R153). -/
def execNodeAcknowledgement (id : Nat) (ok : Bool) (data : List Byte) (s : State) : Result :=
  .next (match findPiece s id with
    | none => s
    | some p => if region p.pa ≠ .peer ∨ p.st ≠ .sent ∨ behindPeer s p then s else answerPiece s p ok data)

/-- The firmware declares a destination unreachable: every piece under way to it fails (R152). -/
def execNodeDestinationUnreachable (dev : Nat) (s : State) : Result :=
  .next ((s.pieces.filter fun p => region p.pa == .peer && slice p.pa 32 18 == dev && p.st == .sent).foldl peerError s)

/-- An event message crosses the reference plane of an Ethernet port, dir 0 in, 1 out: its time is taken (R150). -/
def execEventMessageTimestamp (port dir : Nat) (s : State) : Result :=
  .next { s with dist := { s.dist with stamps := Sparse.wr 0 s.dist.stamps (2 * port + dir) (s.die (masterDie s)).ntime } }

end Sys2Proof.Machine
end

