-- ==== Sys2Proof/Machine/Launch.lean ====
section
/-!
DEFINITION. The distributors (17_gangs R308-R323, 09 R166, 18 R331): packets, tickets, completion, eligibility, placement, the start
of a gang, the end of a task and its successor.
-/

namespace Sys2Proof.Machine

/-! ### The packet (R310, R311) -/

namespace Launch

def word (l : Launch) (i : Nat) : Nat := l.words.getD i 0
def entry (l : Launch) : Nat := l.word 0
def arg (l : Launch) : Nat := l.word 1
def ticket (l : Launch) : Nat := l.word 2 / 2 ^ 32
def ngangs (l : Launch) : Nat := l.word 2 % 2 ^ 32
/-- Tasks on virtual die v. -/
def count (l : Launch) (v : Nat) : Nat := slice (l.word 3) (8 * v) 8
def colour (l : Launch) (v : Nat) : Nat := slice (l.word 4) (16 + 3 * v) 3
def plan (l : Launch) : Nat := slice (l.word 4) 12 4
def prio (l : Launch) : Nat := slice (l.word 4) 10 2
def bank (l : Launch) : Nat := slice (l.word 4) 9 1
def pinned (l : Launch) : Bool := bitOf (l.word 4) 8
def rows (l : Launch) : Bool := bitOf (l.word 4) 7
def nonid (l : Launch) : Bool := bitOf (l.word 4) 6
def fold (l : Launch) : Bool := bitOf (l.word 4) 5
def det (l : Launch) : Bool := bitOf (l.word 4) 4
def compat (l : Launch) : Nat := l.word 4 % 16
def mdepth (l : Launch) : Nat := slice (l.word 5) 32 16
def sneed (l : Launch) : Nat := slice (l.word 5) 16 6
def fneed (l : Launch) : Nat := slice (l.word 5) 8 5
def inputs (l : Launch) : List Nat := [l.word 6 % 2 ^ 32, l.word 6 / 2 ^ 32]
def record (l : Launch) : Nat := l.word 7
/-- Tasks on all dies. -/
def total (l : Launch) : Nat := ((List.range 8).map l.count).sum

/-- A gang of the launch is still to be issued. -/
def unissued (l : Launch) : Bool := decide (l.issued < l.ngangs) || l.again != []

/-- The gang number to be issued next: the smallest. -/
def nextNum (l : Launch) : Nat := l.again.foldl Nat.min l.issued

end Launch

/-- Reserved bits of a packet are set. -/
def packetReserved (l : Launch) : Bool :=
  decide (slice (l.word 4) 40 24 ≠ 0) || decide (slice (l.word 5) 48 16 ≠ 0) || decide (slice (l.word 5) 22 10 ≠ 0)
    || decide (slice (l.word 5) 13 3 ≠ 0) || decide (l.word 5 % 256 ≠ 0)

/-- A shape that no placement can hold. -/
def badShape (l : Launch) : Bool :=
  ((List.range 8).any fun v => decide (96 < l.count v)) || (l.pinned && decide (95 < l.count 0)) || decide (l.total = 0)
    || decide (767 < l.total) || decide (32 < l.sneed) || decide (24 < l.fneed)

/-- The reason for which a packet is rejected (R311). -/
def rejectReason (l : Launch) : Option Nat :=
  firstCause
    [ (packetReserved l, 1), (decide (2 ≤ l.compat), 2), (badShape l, 3), (decide (l.entry % 2 = 1 ∨ l.entry / 2 ^ 56 ≠ 0), 4),
      (decide (l.ngangs = 0), 5) ]

/-! ### Queues and tickets -/

def queueState (s : State) (v q : Nat) : Nat := s.reg (regQueue v q + 0x18) % 4
def queueBroken (s : State) (v q : Nat) : Bool := bitOf (s.reg (regQueue v q + 0x18)) 2
def setQueueState (s : State) (v q n : Nat) : State :=
  let a := regQueue v q + 0x18
  s.setReg a (putBits (s.reg a) 0 2 n)
def queueTail (s : State) (v q : Nat) : Nat := s.reg (regQueue v q + 8) % 2 ^ 32
def queueHead (s : State) (v q : Nat) : Nat := s.reg (regQueue v q + 0x10) % 2 ^ 32
def setHead (s : State) (v q n : Nat) : State := s.setReg (regQueue v q + 0x10) (n % 2 ^ 32)

def launchOf (s : State) (id : Nat) : Option Launch := s.dist.launches.find? fun l => l.id == id
def modLaunch (s : State) (id : Nat) (f : Launch → Launch) : State :=
  { s with dist := { s.dist with launches := s.dist.launches.map fun l => if l.id = id then f l else l } }

/-- The launches of a queue that have been read and not completed. -/
def queueLaunches (s : State) (v q : Nat) : List Launch := s.dist.launches.filter fun l => l.vf == v && l.q == q

/-- Gangs of the queue are resident (R308). -/
def busy (s : State) (v q : Nat) : Bool := (queueLaunches s v q).any fun l => decide (l.live ≠ 0)

/-- A queue that drains or has been aborted goes off once nothing of it remains (R319, R320). -/
def settleQueue (s : State) (v q : Nat) : State :=
  let st := queueState s v q
  let rest := queueLaunches s v q
  if busy s v q then s
  else if st = 2 ∧ rest.all fun l => !(l.unissued && decide (l.issued ≠ 0)) then setQueueState s v q 0
  else if st = 3 ∧ rest = [] ∧ queueHead s v q = queueTail s v q then setQueueState s v q 0
  else s

/-- A ticket completes in the scoreboard of v, which keeps the last 1,024 (R314). -/
def putTicket (s : State) (v ticket status : Nat) : State :=
  if ticket = 0 then s
  else
    let old := (Sparse.rd [] s.dist.scoreboard v).filter fun x => x.1 != ticket
    { s with dist := { s.dist with scoreboard := Sparse.wr [] s.dist.scoreboard v (((ticket, status) :: old).take 1024) } }

/-- The completion record of a launch of v with that ticket is on its way out of the module (R292). -/
def recordPending (s : State) (v ticket : Nat) : Bool := s.pieces.any fun p => p.own == .record v ticket && p.st == .sent

/-- The status of an input ticket of v (R314): none while a launch or job that carries it is pending, or its record has not performed
(R306). -/
def ticketStatus (s : State) (v ticket : Nat) : Option Nat :=
  if ticket = 0 then some 1
  else if (s.dist.launches.any fun l => l.vf == v && l.ticket == ticket) || s.dist.jobs.contains (v, ticket)
      || recordPending s v ticket then none
  else
    match (Sparse.rd [] s.dist.scoreboard v).find? fun x => x.1 == ticket with
    | some x => some x.2
    | none => some 1

/-- The bytes of a completion record (R323). -/
def completionWords (s : State) (l : Launch) (status reason : Nat) : List Nat :=
  [status * 2 ^ 56 + reason * 2 ^ 48 + l.ticket, l.doneCount, (s.die (masterDie s)).beat % 2 ^ 48, l.use,
   if status = 4 then l.cause.getD 0 else 0, 0, 0, 0]

/-- The completion record of launch l is written through the page table of its function: at once in the tiers, as a piece that awaits its
acknowledgement outside the module (R292, R306, R323). Whether its page could be written. -/
def putRecord (s : State) (l : Launch) (bs : List Byte) : State × Bool :=
  match vfPhys s l.vf (l.record % 2 ^ 56) 1 with
  | (s, none) => (s, false)
  | (s, some pa) =>
    if inTiers pa then (physWrite s pa bs, true)
    else ((sendPiece s { die := masterDie s, own := .record l.vf l.ticket, pa := pa, len := bs.length, wr := true, data := bs }).2, true)

/-- A launch completes (R323): its record is written, or its queue breaks; its ticket completes. -/
def completeOne (s : State) (l : Launch) (status reason : Nat) : State :=
  let s := { s with dist := { s.dist with launches := s.dist.launches.filter fun x => x.id != l.id } }
  let s := match putRecord s l (wordsToBytes (completionWords s l status reason)) with
    | (s, true) => s
    | (s, false) => breakQueue s l.vf l.q
  settleQueue (putTicket s l.vf l.ticket status) l.vf l.q

/-- A launch that has started no gang, one of whose inputs did not complete with status 1 (R312). -/
def inputFailed (s : State) (l : Launch) : Bool :=
  l.issued == 0 && l.live == 0 && l.inputs.any fun t => match ticketStatus s l.vf t with | some st => st != 1 | none => false

/-- Every launch whose input has failed completes with status 2, and those that wait for it in turn. -/
def settleInputs : Nat → State → State
  | 0, s => s
  | n + 1, s =>
    match s.dist.launches.find? (inputFailed s) with
    | some l => settleInputs n (completeOne s l 2 0)
    | none => s

/-- A launch completes, with what follows for the launches that name its ticket. -/
def completeLaunch (s : State) (l : Launch) (status reason : Nat) : State :=
  settleInputs s.dist.launches.length (completeOne s l status reason)

/-- A launch whose gangs have all ended completes: with the status that ends it, or once it has issued its last gang. -/
def settleLaunch (s : State) (id : Nat) : State :=
  match launchOf s id with
  | none => s
  | some l =>
    if l.live ≠ 0 then s
    else
      match l.fail with
      | some st => completeLaunch s l (st % 256) (st / 256)
      | none =>
        if l.unissued then settleQueue s l.vf l.q else completeLaunch s l (if l.cause.isSome then 4 else 1) 0

/-! ### Reading packets (R309, R311) -/

/-- The firmware runs, which the distributors need (R367). -/
def running (s : State) : Bool := s.reg regBootctl % 4 == 2

/-- The packet at the head of a queue, if its 64 bytes can be read. -/
def fetchPacket (s : State) (v q : Nat) : State × Option (List Nat) :=
  let base := s.reg (regQueue v q)
  let lgn := base % 32
  if lgn = 0 ∨ 16 < lgn then (s, none)
  else
    match vfPhys s v (slice base 6 50 * 64 + 64 * (queueHead s v q % 2 ^ lgn)) 0 with
    | (s, none) => (s, none)
    | (s, some pa) =>
      match physRead s pa 64 2 with
      | (s, .ok bs) => (s, some (bytesToWords 8 bs))
      | (s, .error _) => (s, none)

/-- The record address of a packet serves: aligned, not 0, mapped with W (R311). -/
def recordOk (s : State) (v : Nat) (l : Launch) : State × Bool :=
  if l.record = 0 ∨ l.record % 64 ≠ 0 then (s, false)
  else
    match vfPhys s v l.record 1 with
    | (s, pa) => (s, pa.isSome)

/-- The head packet of a queue is taken as a launch; none where the queue breaks. -/
def takePacket (s : State) (v q : Nat) : State × Option Launch :=
  match fetchPacket s v q with
  | (s, none) => (breakQueue s v q, none)
  | (s, some ws) =>
    let s := setHead s v q (queueHead s v q + 1)
    let l : Launch := { id := s.dist.next, vf := v, q := q, words := ws, readBeat := (s.die (masterDie s)).beat,
                        order := s.dist.queueOrder }
    let s := { s with dist := { s.dist with next := s.dist.next + 1, queueOrder := s.dist.queueOrder + 1 } }
    match recordOk s v l with
    | (s, true) => ({ s with dist := { s.dist with launches := s.dist.launches ++ [l] } }, some l)
    | (s, false) => (breakQueue s v q, none)

/-- The distributor may read a packet of the queue (R309, R312). -/
def canRead (s : State) (v q : Nat) : Bool :=
  running s && queueState s v q == 1 && !queueBroken s v q && queueHead s v q != queueTail s v q
    && (queueLaunches s v q).all fun l => !l.unissued || l.fail.isSome

/-- The distributor reads the next packet of a queue: it presents the launch, or rejects it (R311). -/
def readPacket (s : State) (v q : Nat) : State :=
  if !canRead s v q then s
  else
    match takePacket s v q with
    | (s, none) => s
    | (s, some l) =>
      match rejectReason l with
      | some r => completeLaunch s l 3 r
      | none => settleInputs s.dist.launches.length s

/-- The distributor reads a launch packet whole as an acquire (R309). -/
def execPacketRead (vf q : Nat) (s : State) : Result := .next (readPacket s vf q)

/-! ### Placement (R315, R322) -/

/-- A gang that has not ended holds the bank of that key. -/
def held (s : State) (k : Nat) : Bool := s.dist.gangs.any fun g => g.st != .ended && g.tasks.contains k

/-- Core c is free for a launch (R315). -/
def coreFree (s : State) (l : Launch) (c : Nat) : Bool :=
  c != 0 && !(s.die (dieOf c)).fenced &&
    if l.bank = 0 then !held s (tkey c 0) && !held s (tkey c 1)
    else held s (tkey c 0) && !held s (tkey c 1) && decide (32 * l.fneed ≤ 768 - (s.core c).fsplit)
      && decide (l.sneed ≤ 32 - (s.core c).ssplit)

/-- The free cores of die d outside a list; every core but 0 where all is set. -/
def freeCores (s : State) (l : Launch) (all : Bool) (no : List Nat) (d : Nat) : List Nat :=
  ((List.range 96).map fun i => 96 * d + i).filter fun c =>
    !no.contains c && if all then c != 0 && !(s.die d).fenced else coreFree s l c

/-- Virtual die v can go to physical die d after the dies already mapped (R315). -/
def mapFits (l : Launch) (room : List Nat) (m : List Nat) (v d : Nat) : Bool :=
  !m.contains d && (decide (l.count v = 0) ||
    (decide (l.count v ≤ room.getD d 0) && m.zipIdx.all fun x => decide (l.count x.2 = 0) || hops v x.2 == hops d x.1))

/-- The first map in digit order that extends m (fuel: virtual dies still to map). -/
def findMap (l : Launch) (room : List Nat) : Nat → List Nat → Option (List Nat)
  | 0, m => some m
  | n + 1, m => (List.range 8).findSome? fun d => if mapFits l room m m.length d then findMap l room n (m ++ [d]) else none

/-- Where the next gang of a launch goes: its cores with their colours, in task order. -/
def placement (s : State) (l : Launch) (all : Bool) (no : List Nat) : Option (List (Nat × Nat)) :=
  let free := (List.range 8).map (freeCores s l all no)
  let room := free.map List.length
  let m := if l.pinned then
      if (List.range 8).all fun v => decide (l.count v ≤ room.getD v 0) then some (List.range 8) else none
    else findMap l room 8 []
  m.map fun m => (List.range 8).flatMap fun v =>
    ((free.getD (m.getD v 0) []).take (l.count v)).map fun c => (c, l.colour v)

/-- The effective priority of a launch at the opening of beat b (R313). -/
def level (l : Launch) (b : Nat) : Nat := Nat.min 3 (l.prio + (Nat.max 1 (b - l.readBeat) - 1) / 4096)

/-- The launch has held level 3 for 16,384 beats and still has gangs to issue (R322). -/
def reserves (l : Launch) (b : Nat) : Bool :=
  l.unissued && l.fail.isNone && match l.level3 with | some x => decide (x + 16384 ≤ b) | none => false

/-- A launch put into a list by the order in which packets were read. -/
def insertOrder (l : Launch) : List Launch → List Launch
  | [] => [l]
  | x :: r => if l.order < x.order then l :: x :: r else x :: insertOrder l r

/-- The cores that launches reserve, by launch, the oldest packet first (R322). -/
def reservations (s : State) (b : Nat) : List (Nat × List Nat) :=
  let ls := (s.dist.launches.filter fun l => reserves l b).foldl (fun a l => insertOrder l a) []
  ls.foldl (fun a l =>
    match placement s l true (a.flatMap Prod.snd) with
    | some p => a ++ [(l.id, p.map Prod.fst)]
    | none => a) []

/-- The launch that a queue presents: the oldest with gangs to issue (R312). -/
def presented (s : State) (v q : Nat) : Option Launch :=
  ((queueLaunches s v q).filter fun l => l.unissued && l.fail.isNone).foldl (fun m l =>
    match m with
    | some x => if l.order < x.order then some l else some x
    | none => some l) none

/-- A launch may start a gang, apart from its placement (R312, R319). -/
def eligible (s : State) (l : Launch) : Bool :=
  let act := s.reg regPlanact
  let st := queueState s l.vf l.q
  presented s l.vf l.q == some l && (st == 1 || (st == 2 && l.issued != 0))
    && (l.inputs.all fun t => ticketStatus s l.vf t == some 1) && l.plan == slice act 16 4 && slice act 32 2 != 1

/-- The weight of a virtual function; 0 is read as 1 (R313). -/
def weightOf (s : State) (v : Nat) : Nat := let w := s.reg (regVfweight v) % 2 ^ 16; if w = 0 then 1 else w

/-- Launch x ranks before y at beat b (R313). -/
def ranksBefore (s : State) (b : Nat) (x y : Launch) : Bool :=
  let ux := s.reg (regVfuse x.vf) * weightOf s y.vf
  let uy := s.reg (regVfuse y.vf) * weightOf s x.vf
  if level x b ≠ level y b then decide (level y b < level x b)
  else if ux ≠ uy then decide (ux < uy)
  else if x.q ≠ y.q then decide (x.q < y.q)
  else decide (x.order < y.order)

/-- The launch that starts a gang now, with its placement: eligible, its gang placeable off the cores that others reserve, first
in rank. -/
def chooseLaunch (s : State) (b : Nat) : Option (Launch × List (Nat × Nat)) :=
  let resv := reservations s b
  s.dist.launches.foldl (fun m l =>
    if !eligible s l then m
    else
      match placement s l false ((resv.filter fun x => x.1 != l.id).flatMap Prod.snd) with
      | none => m
      | some p =>
        match m with
        | some x => if ranksBefore s b l x.1 then some (l, p) else m
        | none => some (l, p)) none

/-- The next gang of a launch is placed at beat b and its cores are taken; it starts on beat b + 2 (R313, R315). -/
def issueGang (s : State) (b : Nat) (l : Launch) (p : List (Nat × Nat)) : State :=
  let num := l.nextNum
  let g : Gang :=
    { id := s.dist.next, launch := l.id, num := num, vf := l.vf, tasks := p.map fun x => tkey x.1 l.bank
      colours := p.map Prod.snd, plan := l.plan, rows := l.rows, nonid := l.nonid, fold := l.fold, det := l.det, start := b + 2 }
  let s := { s with dist := { s.dist with next := s.dist.next + 1, gangs := s.dist.gangs ++ [g] } }
  let s := modLaunch s l.id fun l =>
    { l with live := l.live + 1, issued := if num = l.issued then l.issued + 1 else l.issued, again := l.again.erase num }
  if l.bank ≠ 0 then s
  else p.foldl (fun s x => s.modCore x.1 fun c => { c with fsplit := 32 * l.fneed, ssplit := l.sneed }) s

/-- Gangs are placed until no launch is eligible; fuel bounds them by the banks of the package. -/
def placeGangs (b : Nat) : Nat → State → State
  | 0, s => s
  | n + 1, s =>
    match chooseLaunch s b with
    | some (l, p) => placeGangs b n (issueGang s b l p)
    | none => s

/-- The beat from which each launch holds level 3, at the opening of beat b. -/
def noteLevels (s : State) (b : Nat) : State :=
  { s with dist := { s.dist with launches := s.dist.launches.map fun l =>
      { l with level3 := if level l b = 3 then some (l.level3.getD b) else none } } }

/-- The work of the master distributor at the opening of beat b (R313, R322). -/
def schedule (s : State) (b : Nat) : State :=
  if running s then placeGangs b 1536 (noteLevels (settleInputs s.dist.launches.length s) b) else s

/-! ### The start of a gang (R166, R331) -/

/-- The pinned window table from the list of v, entry by entry (R331); none where a check fails. -/
def readWindows (s : State) (v base : Nat) : Nat → State × Option (List Leaf)
  | 0 => (s, some [])
  | n + 1 =>
    match readWindows s v base n with
    | (s, none) => (s, none)
    | (s, some l) =>
      match vfPhys s v ((base + 8 * n) % 2 ^ 56) 0 with
      | (s, none) => (s, none)
      | (s, some pa) =>
        match physRead s pa 8 2 with
        | (s, .error _) => (s, none)
        | (s, .ok bs) =>
          let e := bytesToNat bs
          if e % 2 ^ 21 ≠ 0 ∨ 2 ^ 56 ≤ e ∨ (l.any fun x => x.va == e) then (s, none)
          else
            match walk s v e with
            | (s, .leaf x) => if x.big ∧ x.pin then (s, some (l ++ [x])) else (s, none)
            | (s, _) => (s, none)

/-- The window table of v. -/
def windowsOf (s : State) (v : Nat) : State × Option (List Leaf) :=
  let r := s.reg (regPwlist v)
  if 512 < r % 1024 then (s, none) else readWindows s v (slice r 12 44 * 2 ^ 12) (r % 1024)

/-- A fresh task of gang g at entry (R166, R315): every engine stands before its first block header. -/
def freshTask (g : Gang) (index entry arg compat mdepth : Nat) (pins : List Leaf) : Task :=
  let a : Sparse Word := Sparse.wr 0 (Sparse.wr 0 [] 1 (BitVec.ofNat 64 arg)) 2 (BitVec.ofNat 64 g.num)
  { gang := some g.id, index := index
    engs := engines.foldl (fun m e => Sparse.wr {} m e.tag { phase := .header, pc := entry }) []
    sreg := a, creg := a
    csr := { compat := compat, mdepth := mdepth, tbb := g.start % 2 ^ 48 }
    tlb := { pins := pins } }

/-- What a core holds once, at the start of a gang: Easel banks, format queue, wells and scalars 0 (R113, R229, R233). -/
def freshCore (s : State) (c : Nat) : State :=
  (s.modCore c fun x => { x with easel := [], fq := [] }).modChan c fun x => { x with wells := [], scalars := [] }

/-- The shares of a bank of core c hold 0 (R157, R166). -/
def clearShares (s : State) (c bank : Nat) : State :=
  s.modCore c fun x =>
    let f := 1024 * x.fsplit
    let p := 65536 * x.ssplit
    if bank = 0 then { x with uf := Sparse.dropTo f x.uf, spad := Sparse.dropTo p x.spad }
    else { x with uf := Sparse.takeTo f x.uf, spad := Sparse.takeTo p x.spad }

/-- The task of key k of a launched gang starts. -/
def startTask (s : State) (g : Gang) (l : Launch) (pins : List Leaf) (k : Nat) : State :=
  let s := clearShares (freshCore (unswitch s k) (k / 2)) (k / 2) (k % 2)
  let stop : Bool := g.st != .attached
  let t := freshTask g (g.tasks.idxOf k) l.entry l.arg l.compat l.mdepth pins
  s.setTask k { t with stop := stop }

/-- A gang ends: it leaves its cores, and its launch goes on (R322, R323). exited: its last task has retired exit. -/
def endGang (s : State) (g : Gang) (exited : Bool) : State :=
  let s := g.live.foldl (fun s k =>
    let s := s.setTask k {}
    let s := s.modCore (k / 2) fun c => { c with halted := false }
    let s := s.modChan (k / 2) fun c => { c with cmds := c.cmds.filter fun x => x.bank != k % 2
                                                 again := c.again.filter fun x => x.bank != k % 2 }
    let s := s.modDie (dieOf (k / 2)) fun d =>
      { d with ctx := d.ctx.filter fun x => tkey x.core x.bank != k || x.sent2.isSome
               ctxAgain := d.ctxAgain.filter fun x => tkey x.core x.bank != k }
    let s := (List.range 16).foldl (fun s i =>
      s.modStack i fun x => { x with red := x.red.filter fun b => tkey b.core b.bank != k }) s
    let mine (p : Piece) : Bool := !p.own.outside && tkey p.core p.bank == k
    let ids := (s.pieces.filter mine).map Piece.id
    let s := { s with pieces := s.pieces.filter fun p => !mine p }
    (s.chans.map Prod.fst).foldl (fun s p => s.modChan p fun c => c.forget ids) s) s
  let s := { s with dist := { s.dist with gangs := s.dist.gangs.filter fun x => x.id != g.id } }
  let chain := s.dist.gangs.any fun x => x.launch == g.launch && x.num == g.num
  let s := modLaunch s g.launch fun l =>
    { l with live := l.live - 1, ended := l.ended + 1, doneCount := if exited && !chain then l.doneCount + 1 else l.doneCount }
  switchPoints (settleLaunch s g.launch)

/-- The launch of gang g ends with a status and a reason once its gangs have ended. -/
def failLaunch (s : State) (id status reason : Nat) : State :=
  modLaunch s id fun l => { l with fail := some (l.fail.getD (status + 256 * reason)) }

/-- A core of gang g issues from bank 0, or its bank 0 is about to (R348). -/
def bankZeroRuns (s : State) (g : Gang) : Bool :=
  g.tasks.any fun k =>
    let z := tkey (k / 2) 0
    s.attached z || match s.gangOf z with | some x => x.st == .detached && x.cut.answered | none => false

/-- The words of a successor's descriptor as a launch gives its start (R316). -/
def succLaunch (ws : List Nat) : Launch :=
  { words := [ws.getD 0 0, ws.getD 1 0, 0, 0, ws.getD 2 0 % 16, slice (ws.getD 2 0) 5 16 * 2 ^ 32] }

/-- A successor starts on the core of its predecessor, whose shares and window table it keeps (R166, R284, R316, R332). -/
def startSuccessor (s : State) (g : Gang) (ws : List Nat) (k : Nat) : State :=
  let s := freshCore (unswitch s k) (k / 2)
  let l := succLaunch ws
  s.setTask k { freshTask g 0 l.entry l.arg l.compat l.mdepth (s.task k).tlb.pins with stop := g.st != .attached }

/-- Gang g, whose beat b now opens first on some die: its windows are loaded and it attaches; a bank-1 gang waits for the next
boundary while bank 0 of one of its cores issues (R313, R331, R348). -/
def attachGang (s : State) (g : Gang) (b : Nat) : State :=
  if g.st ≠ .issued ∨ g.start ≠ b then s
  else
    match launchOf s g.launch with
    | none => endGang s g false
    | some l =>
      if l.fail.isSome then endGang s g false
      else if (g.tasks.headD 0) % 2 = 1 ∧ bankZeroRuns s g then s.modGang g.id fun g => { g with start := b + 1 }
      else if g.succ.isSome then s.modGang g.id fun g => { g with st := .attached }
      else
        match windowsOf s g.vf with
        | (s, some pins) => s.modGang g.id fun g => { g with st := .attached, pins := pins }
        | (s, none) => endGang (failLaunch s g.launch 3 6) g false

/-- The tasks on die d of the gangs that start on the beat b that it opens. -/
def startTasks (s : State) (d b : Nat) : State :=
  let s := s.dist.gangs.foldl (fun s g => attachGang s g b) s
  s.dist.gangs.foldl (fun s g =>
    if g.start ≠ b ∨ g.st = .issued ∨ g.st = .ended then s
    else
      match launchOf s g.launch with
      | none => s
      | some l =>
        (g.tasks.filter fun k => dieOf (k / 2) == d).foldl (fun s k =>
          match g.succ with
          | some ws => startSuccessor s g ws k
          | none => startTask s g l g.pins k) s) s

/-! ### The end of a task (R284, R316) -/

/-- Every engine of task k has taken its end record and all its work has completed. -/
def taskOver (s : State) (k : Nat) : Bool :=
  let t := s.task k
  t.s.ended && (engines.all fun e => (s.eng k e).phase == .idle && (s.eng k e).opn == []) && t.v.flights == [] && t.s.stores == []
    && !t.stop && s.attached k

/-- Task k ends, and its gang with its last task; a successor is issued for the next boundary. Row lines whose release has not
started raise code 250. -/
def finishTask (s : State) (k : Nat) : State :=
  match s.gangOf k with
  | none => s
  | some g =>
    if g.st ≠ .attached ∨ !taskOver s k then s
    else if ((List.range 128).any fun x => (slotAt s (k / 2) x).isSome) then raiseCause s k 250 0 0
    else
      let t := s.task k
      let s := match t.s.succ with
        | none => s.setTask k {}
        | some ws =>
          let g' : Gang := { g with
            id := s.dist.next, tasks := [k], colours := [g.colours.getD t.index 0], start := (s.die (dieOf (k / 2))).beat + 1
            st := .issued, preempt := false, resume := none, cut := {}, succ := some ws, pins := [], exits := [], gone := []
            det := bitOf (ws.getD 2 0) 4, race := [], raceNext := 1, known := [], shown := [], met := [] }
          let s := { s with dist := { s.dist with next := s.dist.next + 1, gangs := s.dist.gangs ++ [g'] } }
          let s := modLaunch s g.launch fun l => { l with live := l.live + 1 }
          s.setTask k { tlb := { pins := t.tlb.pins } }
      let g := { g with gone := g.gone ++ [k] }
      let s := s.modGang g.id fun _ => g
      if g.live = [] then endGang s g true else switchPoints s

/-- An exiting task ends once all engines have stopped and its work has completed (R284). -/
def execTaskEnd (core bank : Nat) (s : State) : Result := .next (finishTask s (tkey core bank))

end Sys2Proof.Machine
end

