-- ==== Sys2Proof/Machine/Stops.lean ====
section
/-!
DEFINITION. Stops (19_stops R340-R351): stop requests, the cut taken, the driver's answers, pre-emption, the rebase and the reopen
span, and the gangs that the distributor ends itself (17_gangs R318, R320).
-/

namespace Sys2Proof.Machine

/-! ### The stop request and the cut -/

/-- The stop request reaches task k of a gang that detaches (R340). -/
def requestStop (s : State) (k : Nat) : State :=
  match s.gangOf k with
  | some g => if g.st = .detaching ∧ !(s.task k).stop then stopTask s k else s
  | none => s

/-- A stop request reaches a task of the gang (R340). -/
def execGangStopRequest (core bank : Nat) (s : State) : Result := .next (requestStop s (tkey core bank))

/-- A detached gang leaves its cores; rows that were reopened for it are released. -/
def endDetached (s : State) (g : Gang) : State :=
  let s := if g.cut.rebase.isNone then s
    else g.live.foldl (fun s k => writeBackAll (s.modChan (k / 2) fun c => { c with reopen := [] }) (k / 2)) s
  endGang s g false

/-- The launch of gang g keeps the cause of the first of its gangs that the driver ended (R323). -/
def noteCause (s : State) (g : Gang) (code : Nat) : State :=
  modLaunch s g.launch fun l => { l with cause := some (l.cause.getD code) }

/-- The distributor ends gang g itself: its number is issued again, once, or its launch completes with status 2 (R318, R320). -/
def endByDevice (s : State) (g : Gang) (how : Nat) : State :=
  let s := if how = 0 then modLaunch s g.launch fun l => { l with again := joinNats l.again [g.num] } else failLaunch s g.launch 2 0
  endDetached s g

/-! ### Answers (R346) -/

/-- Every M of gang g is asked to stop at its next retirement point (R349). -/
def askPreempt (s : State) (g : Gang) : State :=
  let s := g.live.foldl (fun s k => s.modTask k fun t => { t with m := { t.m with preempt := true } }) s
  s.modGang g.id fun g => { g with preempt := true }

/-- The bank-1 gangs that issue from a core of gang g yield (R348). -/
def askYield (s : State) (g : Gang) : State :=
  (s.dist.gangs.filter fun x => x.st == .attached && !x.preempt && x.id != g.id
      && x.live.any fun k => k % 2 == 1 && g.live.contains (k - 1)).foldl askPreempt s

/-- The row lines that the record of task k keeps, read as its resume is answered (R344, R348). -/
def readRows (s : State) (g : Gang) (k : Nat) : State :=
  match recordAt s g.vf k with
  | none => s
  | some pa =>
    if !g.rows then s
    else
      match readRecord s pa with
      | (s, m) =>
        let rows := (List.range 128).filterMap fun x =>
          let w := m.rdN (0x2400 + 8 * x) 8
          if bitOf w 63 then some { x := x, row := w % 2 ^ 16, w := bitOf w 61, held := bitOf w 62 } else none
        s.modTask k fun t => { t with saved := rows }

/-- A resume or an end acts on a detached gang. -/
def answerGang (s : State) (g : Gang) (op : Nat) : State :=
  if op = 2 then endDetached (noteCause s g (if g.cut.machineCheck then 278 else g.cut.code)) g
  else if g.cut.answered ∨ g.cut.machineCheck then s
  else
    let s := g.live.foldl (fun s k => readRows s g k) s
    askYield (s.modGang g.id fun g => { g with cut := { g.cut with answer := none, answered := true } }) g

/-- The originating task's core, as driver events name it; task 0 where the cut is a pre-emption (R369, R387). -/
def originCore (g : Gang) : Nat := g.tasks.getD g.cut.orig 0 / 2

/-- The cut of a gang is taken: the gang detaches, ends with cause 383 where there is no record, or is ended by the distributor; a
held answer acts (R341, R343, R346, R369). -/
def finishCut (s : State) (g : Gang) : State :=
  if !cutReady s g then s
  else
    let s := switchPoints (takeCut s g)
    match s.gang g.id with
    | none => s
    | some g =>
      match g.cut.ends with
      | some how => endByDevice s g how
      | none =>
        if !g.cut.written then endDetached (noteCause s g 383) g
        else
          let code := if g.cut.machineCheck then 278 else g.cut.code
          let s := devEvent s 2 g.vf (originCore g * 2 ^ 16 + code) 0
          match g.cut.answer with
          | some op => answerGang s g op
          | none => s

/-- Once every engine has stopped, the cut is taken and the gang detaches (R341). -/
def execCutTaken (gang : Nat) (s : State) : Result :=
  .next (match s.gang gang with
    | some g => finishCut s g
    | none => s)

/-- The gang that a CUTCMD write names: of that function, with a task on the core, started, on which the op can act; bank 0 before
bank 1. None where a bit of 61:10 is set or the op is another. -/
def namedGang (s : State) (vf val op : Nat) (ok : Gang → Bool) : Option Gang :=
  if val / 2 ^ 62 ≠ op ∨ slice val 10 52 ≠ 0 then none
  else
    let c := val % 2 ^ 10
    let find (k : Nat) : Option Gang := s.dist.gangs.find? fun g => g.vf == vf && g.live.contains k && ok g
    match find (tkey c 0) with
    | some g => some g
    | none => find (tkey c 1)

/-- A resume or an end is held while the gang detaches, and acts on a detached one. -/
def cutAnswer (s : State) (vf val op : Nat) : State :=
  match namedGang s vf val op fun g => g.st == .detaching || g.st == .detached with
  | none => s
  | some g =>
    if g.st = .detached then answerGang s g op
    else if op ≠ 2 ∧ g.cut.machineCheck then s
    else s.modGang g.id fun g => { g with cut := { g.cut with answer := some op } }

/-- CUTCMD op 0 is ignored (R346). -/
def execCutcmdNoEffect (_vf _val : Nat) (s : State) : Result := .next s
/-- CUTCMD op 1 resumes a detached gang at a chosen rebase beat (R347). -/
def execCutcmdResume (vf val : Nat) (s : State) : Result := .next (cutAnswer s vf val 1)
/-- CUTCMD op 2 ends a detached gang, whose launch completes with status 4 (R346). -/
def execCutcmdEnd (vf val : Nat) (s : State) : Result := .next (cutAnswer s vf val 2)
/-- CUTCMD op 3 asks every M of an attached gang to stop at its next retirement point (R349). -/
def execCutcmdPreempt (vf val : Nat) (s : State) : Result :=
  .next (match namedGang s vf val 3 fun g => g.st == .attached with
    | some g => askPreempt s g
    | none => s)

/-! ### What a beat boundary does to gangs -/

/-- M of task k waits at a retirement point or is not inside an mtile. -/
def mWaits (s : State) (k : Nat) : Bool := (s.task k).m.run.isNone || (s.task k).m.waiting

/-- Gang g detaches at the opening of beat b without a cause of its own (R318, R320, R349). -/
def detachAt (s : State) (g : Gang) (b code : Nat) (pre : Bool) (ends : Option Nat) : State :=
  let tasks := g.live.filter fun k => !(s.die (dieOf (k / 2))).fenced
  let k := tasks.headD 0
  (releaseGang s g).modGang g.id fun g =>
    { g with st := .detaching
             cut := { code := code, orig := if pre then 0 else (s.task k).index, pre := pre, at_ := ⟨b, 0⟩, idx := s.entryIndex b
                      tick2 := (s.die (dieOf (k / 2))).tick2, ends := ends } }

/-- A pre-emption or a yield takes effect at the first boundary at which every M of the gang waits (R349), and outside the transition
windows of its dies (R362). -/
def preemptAt (s : State) (b : Nat) : State :=
  (s.dist.gangs.filter fun g => g.st == .attached && g.preempt
      && g.live.all fun k => mWaits s k && (s.die (dieOf (k / 2))).power.window.isNone).foldl
    (fun s g => detachAt s g b 0 true none) s

/-- Gang g, at the opening of beat b, ends by the distributor: at once, or when its cut is taken. -/
def endAt (s : State) (g : Gang) (b how : Nat) : State :=
  match g.st with
  | .attached => detachAt s g b 382 false (some how)
  | .detaching => s.modGang g.id fun g => { g with cut := { g.cut with ends := some how } }
  | .issued | .detached => endByDevice s g how
  | .ended => s

/-- How a gang that loses a die ends: its number is issued again if its launch is idempotent and can still be placed (R318). -/
def lossOf (s : State) (g : Gang) : Nat :=
  match launchOf s g.launch with
  | some l => if !l.nonid ∧ l.fail.isNone ∧ (placement s l true []).isSome then 0 else 2
  | none => 2

/-- The gangs with a task on a fenced die stop (R318). -/
def fencedStops (s : State) (b : Nat) : State :=
  (s.dist.gangs.filter fun g => g.live.any fun k => (s.die (dieOf (k / 2))).fenced).foldl (fun s g => endAt s g b (lossOf s g)) s

/-- The packets of an aborted queue from head to tail complete with status 2; fuel bounds them. -/
def abortPackets (v q : Nat) : Nat → State → State
  | 0, s => s
  | n + 1, s =>
    if queueHead s v q = queueTail s v q ∨ queueBroken s v q then s
    else
      match takePacket s v q with
      | (s, some l) => abortPackets v q n (completeLaunch s l 2 0)
      | (s, none) => s

/-- An aborted queue at the opening of beat b: its gangs stop, its launches and packets complete with status 2 (R320). -/
def abortQueue (s : State) (v q b : Nat) : State :=
  let ls := queueLaunches s v q
  let s := ls.foldl (fun s l => failLaunch s l.id 2 0) s
  let s := (s.dist.gangs.filter fun g => ls.any fun l => l.id == g.launch).foldl (fun s g => endAt s g b 2) s
  let s := ls.foldl (fun s l => settleLaunch s l.id) s
  let s := abortPackets v q ((queueTail s v q + 2 ^ 32 - queueHead s v q) % 2 ^ 32) s
  settleQueue (setHead s v q (queueTail s v q)) v q

/-- Every queue whose state is 3. -/
def abortQueues (s : State) (b : Nat) : State :=
  (List.range 384).foldl (fun s v => (List.range 16).foldl (fun s q => if queueState s v q = 3 then abortQueue s v q b else s) s) s

/-! ### Rebase and reopen (R347, R348) -/

/-- The row lines of slot i where it holds one row in all 16 banks. -/
def wholeOf (l : List SavedRow) (i : Nat) : Option (List SavedRow) :=
  let r := l.filter fun y => y.x % 8 == i
  if r.length = 16 ∧ r.all fun y => y.row == (r.headD {}).row then some r else none

/-- The opens of the reopen span (R348, R388): offset from its start, whole slot or not, row lines. -/
def reopenPlan (l : List SavedRow) : List (Nat × Bool × List SavedRow) :=
  let whole := (List.range 8).filterMap (wholeOf l)
  let rest := l.filter fun y => (wholeOf l (y.x % 8)).isNone
  (whole.zipIdx.map fun w => (192 * w.2, true, w.1)) ++
    rest.zipIdx.map fun y => (192 * whole.length + 12 * y.2, false, [y.1])

/-- The reopen time of a list of opens: the last one plus 28, or 0 where there is none. -/
def reopenTime (p : List (Nat × Bool × List SavedRow)) : Nat := p.foldl (fun m x => Nat.max m (x.1 + 28)) 0

/-- The first beat of the reopen span before beat b: the fewest beats whose lengths add up to n; fuel bounds them. -/
def spanStart (s : State) : Nat → Nat → Nat → Nat
  | 0, b, _ => b
  | k + 1, b, n => if n = 0 then b else spanStart s k (b - 1) (n - s.lenOf (b - 1))

/-- A refresh that the base die owes the pseudo-channels of gang g while it is detached (R347). -/
def refreshOwed (s : State) (g : Gang) : Bool :=
  g.live.any fun k => (dueGroups s (k / 2)).any fun r => plainDue s (k / 2) r

/-- At the opening of beat b, the rebase beat of gang g whose reopen span starts with b, if the conditions of R347 allow one. -/
def rebaseBeat (s : State) (g : Gang) (b : Nat) : Option Nat :=
  let free := s.dist.gangs.all fun x => !(x.st == .attached && x.live.any fun k => k % 2 == 1 && g.live.contains (k - 1))
  let t := g.live.foldl (fun m k => Nat.max m (reopenTime (reopenPlan (s.task k).saved))) 0
  let n := if t = 0 then 0 else t + 28
  if slice (s.reg regPlanact) 16 4 ≠ g.plan ∨ !free ∨ refreshOwed s g ∨ (g.live.any fun k => k % 2 == 1) && bankZeroRuns s g then none
  else ((List.range 64).map fun j => b + j).find? fun x => spanStart s 64 x n == b && s.entryIndex x == g.cut.idx

/-- Gangs whose resume has been answered choose their rebase beat (R347); bank-1 gangs in their way yield. -/
def chooseRebases (s : State) (b : Nat) : State :=
  (s.dist.gangs.filter fun g => g.st == .detached && g.cut.answered && g.cut.rebase.isNone).foldl (fun s g =>
    let s := askYield s g
    match rebaseBeat s g b with
    | some x => s.modGang g.id fun g => { g with cut := { g.cut with rebase := some x, span := b } }
    | none => s) s

/-- The reopen span of gang g opens on die d, with beat b: each open at its offset distance from there (R388). -/
def planReopens (s : State) (d b : Nat) (g : Gang) : State :=
  (g.live.filter fun k => dieOf (k / 2) == d).foldl (fun s k =>
    s.modChan (k / 2) fun c =>
      { c with reopen := (reopenPlan (s.task k).saved).map fun x => (pointAfter s 64 [] ⟨b, 0⟩ x.1, x.2) }) s

/-- The spans that start with beat b, on die d. -/
def openSpans (s : State) (d b : Nat) : State :=
  (s.dist.gangs.filter fun g => g.st == .detached && g.cut.rebase.isSome && g.cut.span == b).foldl (fun s g => planReopens s d b g) s

/-- The open of pseudo-channel p that is due in its reopen span: its offset has come, and no freeze or pause holds it (R67, R84, R143). -/
def reopenDue (s : State) (p : Nat) : Option (Point × Bool × List SavedRow) :=
  let x := s.die (dieOf p)
  if !mayStart s (dieOf p) then none
  else (s.chan p).reopen.find? fun y => decide (y.1.beat < x.beat) || (y.1.beat == x.beat && decide (2 * y.1.off ≤ x.off2))

/-- A saved row line is opened again, with its hold. -/
def reopenRow (s : State) (p : Nat) (whole : Bool) (t : Point) (y : SavedRow) : State :=
  let s := openRow s p y.x y.row y.w whole t
  s.modChan p fun c => { c with slots := Sparse.wr none c.slots y.x ((Sparse.rd none c.slots y.x).map fun l => { l with held := y.held }) }

/-- The sequencer of pseudo-channel p makes the open that is due. -/
def reopenNext (s : State) (p : Nat) : State :=
  match reopenDue s p with
  | none => s
  | some x =>
    let t := s.now (dieOf p)
    let s := s.modChan p fun c =>
      { c with reopen := c.reopen.erase x
               hist := if x.2.1 then { c.hist with openw := some t } else { c.hist with opens := (t :: c.hist.opens).take 8 } }
    x.2.2.foldl (fun s y => reopenRow s p x.2.1 t y) s

/-- In the reopen span the sequencer reopens a saved row line and restores its hold (R348). -/
def execRowReopen (pc : Nat) (s : State) : Result := .next (reopenNext s pc)

/-- At the opening of beat b the gangs whose rebase beat it is attach; a bank-1 gang that cannot looks for another (R347, R348). -/
def attachResumed (s : State) (b : Nat) : State :=
  (s.dist.gangs.filter fun g => g.st == .detached && g.cut.rebase == some b).foldl (fun s g =>
    if (g.live.any fun k => k % 2 == 1) && bankZeroRuns s g then
      s.modGang g.id fun g => { g with cut := { g.cut with rebase := none } }
    else s.modGang g.id fun g => { g with st := .attached, preempt := false, resume := some (b, b - g.cut.at_.beat) }) s

/-- The tasks on die d of the gangs that resume at beat b (R347). -/
def resumeTasks (s : State) (d b : Nat) : State :=
  s.dist.gangs.foldl (fun s g =>
    match g.resume with
    | some (x, n) =>
      if x = b then (g.live.filter fun k => dieOf (k / 2) == d).foldl (fun s k => resumeTask s g k n) s else s
    | none => s) s

end Sys2Proof.Machine
end

