-- ==== Sys2Proof/Machine/Beats.lean ====
section
/-!
DEFINITION. The beat boundary (04_beats R67, R70, R76, R87, 08_dies_time R143): what the close of a beat checks, the alignment pause,
and everything that comes about when a die opens the next beat.
-/

namespace Sys2Proof.Machine

/-! ### The close -/

/-- The pseudo-channels of die d. -/
def chansOf (d : Nat) : List Nat := (List.range 96).map fun i => 96 * d + i

/-- A command whose beat closes before it could start faults: with the cause that it would meet (R75, R77). -/
def lateCommand (s : State) (p b : Nat) : State :=
  match nextCmd (s.chan p).cmds with
  | none => s
  | some c =>
    if b < c.plan.beat then s
    else seqRaise (s.modChan p fun ch => { ch with cmds := ch.cmds.erase c }) p c.bank ((startCause s p c).getD 250) [c]

/-- The beat at which gang g started, or resumed last (R313, R347). -/
def Gang.since (g : Gang) : Nat := match g.resume with | some r => r.1 | none => g.start

/-- An open row line of a gang that was attached in beat b and is not held faults at the boundary (R76). -/
def heldCheck (s : State) (p b : Nat) : State :=
  match ownedBy s p with
  | none => s
  | some k =>
    if ((s.gangOf k).all fun g => decide (g.since ≤ b))
        && (List.range 128).any fun x => (slotAt s p x).any fun l => !l.held then raiseCause s k 250 0 0 else s

/-- Debt returns to 0, and a fold of the beat becomes lasting (R77, R92). -/
def resetDebt (s : State) (p : Nat) : State :=
  let s := s.modChan p fun c => { c with debt := 0 }
  if foldOf s p = 1 then s.setReg (regTels p) (putBits (s.reg (regTels p)) 8 2 (2 + halfOf s p)) else s

/-- Pseudo-channel p at the close of beat b of its die. -/
def closeChan (s : State) (p b : Nat) : State := resetDebt (heldCheck (lateCommand s p b) p b) p

/-- A strip is due to land in a core of die d (R88, R300). -/
def landsOn (s : State) (d : Nat) : Bool :=
  ((chansOf d).any fun p => (landDueOf s p).isSome) || (List.range 8).any fun e => (landingCtx s e).any fun y => dieOf y.1.dcore == d

/-- The offset of die d has reached the length of its beat, and what is due to land in its cores has landed (R87, R88). -/
def closeDue (s : State) (d : Nat) : Bool :=
  let x := s.die d
  counting x && decide (2 * s.lenOf x.beat ≤ x.off2) && !landsOn s d

/-- The boundary at which beat b + 1 opens aligns the dies (R143). -/
def aligned (s : State) (b : Nat) : Bool :=
  bitOf (s.entry b) 28 || s.grid.aligns.contains (b + 1) || s.grid.forced.contains (b + 1)

/-- The largest estimate of die d of how far another die lags it, in half ticks, or 0. -/
def largestLag (s : State) (d : Nat) : Nat := (List.range 8).foldl (fun m e => Nat.max m (Sparse.rd 0 (s.die d).est e).toNat) 0

/-- The pause of die d in ticks: the largest of 0 and its estimates of how far each other die lags, at most 8 (R143). -/
def pauseOf (s : State) (d : Nat) : Nat := Nat.min 8 (largestLag s d / 2)

/-- The estimates of die d once it and the others have paused, each as long as the estimates say (R141, R143). The openings before the
boundary measure the lag no more. -/
def alignEst (s : State) (d : Nat) : State :=
  let most := largestLag s d
  let n : Int := pauseOf s d
  let later (lag : Int) : Int := lag + 2 * (min 8 (((most : Int) - lag).toNat / 2 : Nat) - n)
  s.modDie d fun x =>
    { x with opens := []
             est := (List.range 8).foldl (fun m e => if e = d then m else Sparse.wr 0 m e (later (Sparse.rd 0 x.est e))) [] }

/-! ### The open -/

/-- The active plan wraps to its entry 0 as beat b opens, a switch is pending, and no attached gang names the plan (R70). -/
def switchDue (s : State) (b : Nat) : Bool :=
  let act := s.reg regPlanact
  let cur := slice act 16 4
  slice act 32 2 == 1 && s.entryIndex b == 0
    && s.dist.gangs.all fun g => !((g.st == .attached || g.st == .detaching) && g.plan == cur)

/-- A pending switch takes effect as beat b opens (R70). -/
def switchPlan (s : State) (b : Nat) : State :=
  if !switchDue s b then s
  else
    let act := s.reg regPlanact
    let old := if s.grid.idle then none else some (slice act 16 4, slice act 20 9, s.reg regPlanbase % 2 ^ 48)
    let new := putBits (putBits (putBits act 16 4 (act % 16)) 20 9 (slice act 4 9)) 32 2 0
    let s := (s.setReg regPlanact new).setReg regPlanbase (b % 2 ^ 48)
    { s with grid := { s.grid with idle := false, prev := old, from_ := b } }

/-- The slip of the beat that closes becomes SLIP.last, and beat b is the one open (R86, R87). -/
def turnSlip (s : State) (b : Nat) : State :=
  let last := slipOf s s.grid.opened
  let s := s.setReg regSlip (putBits (s.reg regSlip) 32 12 last)
  { s with grid := { s.grid with opened := b, slip := Sparse.wr 0 s.grid.slip s.grid.opened 0 } }

/-- What the package does when the first die opens beat b; the other distributors take a copy of the scoreboard (R317). -/
def firstOpening (s : State) (b : Nat) : State :=
  let s := switchPlan (turnSlip { s with dist := { s.dist with mirror := s.dist.scoreboard } } b) b
  let s := preemptAt s b
  let s := fencedStops s b
  let s := abortQueues s b
  attachResumed (chooseRebases s b) b

/-- Requests for boundaries that every working die has passed are forgotten (R144). -/
def passAligns (s : State) : State :=
  let ahead (x : Nat) : Bool := (List.range 8).any fun e => !(s.die e).fenced && decide ((s.die e).beat < x)
  { s with grid := { s.grid with aligns := s.grid.aligns.filter ahead, forced := s.grid.forced.filter ahead } }

/-- A die whose faster grant has waited for the boundary opens its transition window, unless one is open (R360). -/
def windowAt (s : State) (d : Nat) : State :=
  match (s.die d).power.faster, (s.die d).power.window with
  | some l, none => openWindow s d l true
  | _, _ => s

/-- One core-beat for each core of die d that holds an attached task (R313, R323). -/
def chargeBeat (s : State) (d : Nat) : State :=
  (chansOf d).foldl (fun s c =>
    let k := tkey c (s.issuing c)
    match s.gangOf k with
    | none => s
    | some g =>
      if s.attached k then
        let s := s.setReg (regVfuse g.vf) ((s.reg (regVfuse g.vf) + 1) % 2 ^ 64)
        modLaunch s g.launch fun l => { l with use := l.use + 1 }
      else s) s

/-- The NTIME sample of every beat divisible by 4,096, on die 0 (R371). -/
def sampleTime (s : State) (d b : Nat) : State :=
  if d = 0 ∧ b % 4096 = 0 then replay s 3 b [(s.die 0).ntime, (s.die 0).tick2 / 2, 0] else s

/-- Die d opens beat b. -/
def openBeat (s : State) (d b : Nat) : State :=
  let s := s.modDie d fun x => { x with beat := b, off2 := 0, pause := none, opens := ((b, x.tick2) :: x.opens).take 3 }
  let s := if s.grid.opened < b then firstOpening s b else s
  let s := windowAt (passAligns s) d
  let s := resumeTasks (openSpans (startTasks s d b) d b) d b
  let s := checkNamed (checkNamed s (2 * d)) (2 * d + 1)
  let s := if d = masterDie s then schedule s b else s
  sampleTime (chargeBeat s d) d b

/-- Die d opens its next beat at an alignment boundary. The skew that the alignment leaves is open within the bound of R142 (log entry
54). -/
def openAligned (s : State) (d : Nat) : State :=
  let (c, s) := s.choose
  let s := s.modDie d fun x => { x with aligned2 := x.tick2, drift := x.drift + ((c + 1) % 3 : Nat) - 1 }
  openBeat s d ((s.die d).beat + 1)

/-- The beat of die d closes: the checks of the boundary, then the next beat or the alignment pause. -/
def closeBeat (s : State) (d : Nat) : State :=
  if !closeDue s d then s
  else
    let b := (s.die d).beat
    let s := (chansOf d).foldl (fun s p => closeChan s p b) s
    let s := (s.modStack (2 * d) fun z => { z with owners := [] }).modStack (2 * d + 1) fun z => { z with owners := [] }
    if aligned s b then
      let n := pauseOf s d
      let s := alignEst s d
      if n = 0 then openAligned s d else s.modDie d fun x => { x with pause := some (x.tick2 + 2 * n) }
    else openBeat s d (b + 1)

/-- The beat offset reaches the entry's length: the beat closes, debt resets and BEAT advances (R87). -/
def execBeatBoundary (die : Nat) (s : State) : Result := .next (closeBeat s die)

/-- The alignment pause of die d is over. -/
def pauseOver (s : State) (d : Nat) : Bool :=
  match (s.die d).pause with
  | some t => decide (t ≤ (s.die d).tick2)
  | none => false

/-- After its alignment pause die d opens the next beat. -/
def endPause (s : State) (d : Nat) : State := if pauseOver s d then openAligned s d else s

/-- After its alignment pause a die opens the next beat (R143). -/
def execAlignmentPauseEnd (die : Nat) (s : State) : Result := .next (endPause s die)

end Sys2Proof.Machine
end

