-- ==== Sys2Proof/Machine/Host.lean ====
section
/-!
DEFINITION. What the driver and the host write and read (21_host R364-R372): the launch-queue registers, the plan switch, the error
logs, ASINV, the copy engines (18_translation R330, R338, R339), the base address registers and the host window.
-/

namespace Sys2Proof.Machine

/-! ### Launch queues (R308, R309, R319-R321) -/

/-- A tail write makes new packets visible; one that passes the ring breaks the queue (R309). -/
def writeTail (s : State) (v q t : Nat) : State :=
  let s := moveTail s v q (t % 2 ^ 32)
  let lgn := s.reg (regQueue v q) % 32
  if 1 ≤ lgn ∧ lgn ≤ 16 ∧ 2 ^ lgn < (t % 2 ^ 32 + 2 ^ 32 - queueHead s v q) % 2 ^ 32 then breakQueue s v q else s

/-- A tail write makes new launch packets visible to the distributor (R309). -/
def execLqtailWrite (vf q val : Nat) (s : State) : Result := .next (writeTail s vf q val)

/-- State 0: the queue presents nothing that is eligible (R308, R312). -/
def execLqctlOff (vf q : Nat) (s : State) : Result := .next (setQueueState s vf q 0)

/-- State 1 restarts a queue; a broken one loses the packets that it has not read (R320, R321). -/
def runQueue (s : State) (v q : Nat) : State :=
  let s := if queueBroken s v q then
      let a := regQueue v q + 0x18
      setHead (s.setReg a (putBits (s.reg a) 2 1 0)) v q (queueTail s v q)
    else s
  setQueueState s v q 1

/-- State 1 restarts a queue and clears broken (R320). -/
def execLqctlRun (vf q : Nat) (s : State) : Result := .next (runQueue s vf q)
/-- State 2 stops packet reads while issued launches finish (R319). -/
def execLqctlDrain (vf q : Nat) (s : State) : Result := .next (settleQueue (setQueueState s vf q 2) vf q)
/-- State 3 aborts the queue at the next beat boundary (R320). -/
def execLqctlAbort (vf q : Nat) (s : State) : Result := .next (setQueueState s vf q 3)

/-- A driver write clears the core-beats of a virtual function (R313). -/
def execVfuseWrite (vf : Nat) (s : State) : Result := .next (s.setReg (regVfuse vf) 0)

/-! ### The plan switch (R69, R70) -/

/-- A plan entry is valid. -/
def entryValid (e : Nat) : Bool :=
  let len := e % 2 ^ 13
  decide (32 ≤ len) && decide (len ≤ 8191) && decide (40 * slice e 24 4 + 32 ≤ len) && decide (slice e 13 3 = 0)
    && decide (slice e 29 35 = 0)

/-- A write of req and reqn requests a switch after the check of the entries (R70). -/
def writePlanact (s : State) (v : Nat) : State :=
  let req := v % 16
  let n := slice v 4 9
  let good := n ≠ 0 ∧ n ≤ 256 ∧ (List.range n).all fun i => entryValid (s.reg (regPlan req i))
  s.setReg regPlanact (putBits (putBits (s.reg regPlanact) 0 13 (v % 2 ^ 13)) 32 2 (if good then 1 else 2))

/-- A write of req and reqn requests a plan switch after checking the entries (R70). -/
def execPlanactWrite (val : Nat) (s : State) : Result := .next (writePlanact s val)

/-- A slot that is active or pending keeps its entries (R70). -/
def slotLocked (s : State) (k : Nat) : Bool :=
  let act := s.reg regPlanact
  (!s.grid.idle && k == slice act 16 4) || (slice act 32 2 == 1 && k == act % 16)

/-! ### Error logs (R94, R351) -/

/-- The status register at a loses its counts from bit lo on, its ovf bit, and its four entries their valid bits (R94). -/
def clearLog (s : State) (a lo n ovf : Nat) : State :=
  let s := s.setReg a (putBits (putBits (s.reg a) lo n 0) ovf 1 0)
  (List.range 4).foldl (fun s i => let e := a + 8 + 8 * i; s.setReg e (s.reg e % 2 ^ 63)) s

/-- A write to AELS clears its counts, ovf and the valid bits of its entries (R94). -/
def execAelsWrite (pc : Nat) (s : State) : Result := .next (clearLog s (regAels pc) 16 32 7)
/-- A write to TELS clears its count, ovf and the valid bits of its entries (R94). -/
def execTelsWrite (pc : Nat) (s : State) : Result := .next (clearLog s (regTels pc) 16 16 10)

/-- A write of 0 to the valid bit clears the machine-check log of a core (R351). -/
def writeMclog (s : State) (c w v : Nat) : State :=
  if w = 0 ∧ !bitOf v 63 then s.setReg (regMclog c) (s.reg (regMclog c) % 2 ^ 63) else s

/-- A write of 0 to the valid bit clears a core's machine-check log (R351). -/
def execMclogWrite (core w val : Nat) (s : State) : Result := .next (writeMclog s core w val)

/-! ### ASINV (R330) -/

/-- The tasks of virtual function v. -/
def tasksOf (s : State) (v : Nat) : List Nat := (s.dist.gangs.filter fun g => g.vf == v && g.st != .issued).flatMap Gang.live

/-- The translations of a page, or all, leave the TLB of S of task k, and C meets a tlbi marker where it stands (R307, R330). -/
def dropTask (s : State) (k va : Nat) (all : Bool) : State :=
  s.modTask k fun t =>
    { t with c := { t.c with marks := t.c.marks ++ [(va, all)] }, tlb := { t.tlb with cond := dropLeaf t.tlb.cond va all } }

/-- An invalidation starts, unless one is in progress. -/
def writeAsinv (s : State) (v x : Nat) : State :=
  let a := regAsinv v
  if !bitOf (s.reg a) 63 then s
  else
    let ks := tasksOf s v
    let marks := ks.map fun k => (k, (s.task k).gang, (s.task k).c.nextId)
    let s := ks.foldl (fun s k => dropTask s k (slice x 16 40 * 2 ^ 16) (bitOf x 56)) s
    let s := s.setReg a (slice x 16 41 * 2 ^ 16)
    { s with dist := { s.dist with asinv := Sparse.wr [] s.dist.asinv v marks } }

/-- Invalidates a page or an address space on every task of a virtual function (R330). -/
def execAsinvWrite (vf val : Nat) (s : State) : Result := .next (writeAsinv s vf val)

/-- Every command that started before the markers has completed, or its task has ended. -/
def asinvOver (s : State) (v : Nat) : Bool :=
  !bitOf (s.reg (regAsinv v)) 63
    && (Sparse.rd [] s.dist.asinv v).all fun m =>
      (s.task m.1).gang != m.2.1 || (s.task m.1).c.cmds.all fun c => decide (m.2.2 < c.id)

/-- An invalidation completes once commands before its marker have completed (R330). -/
def execAsinvDone (vf : Nat) (s : State) : Result :=
  .next (if asinvOver s vf then
    let s := s.setReg (regAsinv vf) (2 ^ 63 + s.reg (regAsinv vf) % 2 ^ 63)
    { s with dist := { s.dist with asinv := Sparse.wr [] s.dist.asinv vf [] } }
  else s)

/-! ### Copy engines (R338, R339) -/

/-- The fields of CEBASE. -/
def writeCebase (s : State) (d v : Nat) : State := s.setReg (regCe d) (slice v 12 40 * 2 ^ 12 + v % 16)

/-- Sets a copy engine's ring; lgn 0 stops the engine after its current job (R338). -/
def execCebaseWrite (die val : Nat) (s : State) : Result := .next (writeCebase s die val)
/-- A tail write makes new copy-engine descriptors visible (R338). -/
def execCetailWrite (die val : Nat) (s : State) : Result := .next (s.setReg (regCe die + 8) (val % 2 ^ 32))

/-- n bytes from pa lie wholly in one of the regions that a copy job may name. -/
def copyRange (pa n : Nat) : Bool :=
  region pa == region (pa + n - 1) && (inTiers pa || region pa == .host)

/-- A descriptor keeps every limit of R339. -/
def jobOk (w : List Nat) : Bool :=
  let x (i : Nat) : Nat := w.getD i 0
  let len := x 2 % 2 ^ 32
  decide (x 0 % 256 = 0) && decide (x 1 % 256 = 0) && decide (x 2 / 2 ^ 32 = 0) && decide (len % 256 = 0) && decide (len ≠ 0)
    && decide (slice (x 3) 9 23 = 0) && decide (x 3 % 512 < 384) && decide (x 4 % 8 = 0) && (x 4 == 0 || inTiers (x 4))
    && ((w.drop 5).all fun y => y == 0) && copyRange (x 0) len && copyRange (x 1) len
    && (decide (x 0 + len ≤ x 1) || decide (x 1 + len ≤ x 0))

/-- The copy engine of die d may take a descriptor. -/
def jobWaits (s : State) (d : Nat) : Bool :=
  let lgn := s.reg (regCe d) % 16
  (s.die d).ce.isNone && decide (1 ≤ lgn) && decide (lgn ≤ 12) && s.reg (regCe d + 8) != s.reg (regCe d + 16)

/-- A copy engine takes a descriptor: its job is rejected, or sends its first read. A descriptor that cannot be read counts as one of
zeros, which breaks a limit. -/
def startJob (s : State) (d : Nat) : State :=
  if !jobWaits s d then s
  else
    let r := s.reg (regCe d)
    let head := s.reg (regCe d + 16)
    let pa := slice r 12 40 * 2 ^ 12 + 64 * (head % 2 ^ (r % 16))
    let x := if inTiers pa then physRead s pa 64 2 else (s, .ok [])
    let w := match x.2 with
      | .ok bs => bytesToWords 8 bs
      | .error _ => []
    let s := x.1.setReg (regCe d + 16) ((head + 1) % 2 ^ 32)
    let vf := w.getD 3 0 % 512
    let ticket := w.getD 3 0 / 2 ^ 32
    let j : CeJob := { src := w.getD 0 0, dst := w.getD 1 0, len := w.getD 2 0 % 2 ^ 32, ticket := ticket, vf := vf, done := w.getD 4 0,
                       status := if jobOk w then 0 else 3 }
    let s := s.modDie d fun x => { x with ce := some j }
    let s := { s with dist := { s.dist with jobs := s.dist.jobs ++ (if ticket = 0 then [] else [(vf, ticket)]) } }
    readNextPiece s d

/-- A copy engine takes a descriptor and starts or rejects its job (R339). -/
def execCeJobStart (die : Nat) (s : State) : Result := .next (startJob s die)

/-- The status with which the job of die d ends, if it has ended. -/
def jobEnd (j : CeJob) : Option Nat := if j.status ≠ 0 then some j.status else if j.len ≤ j.off then some 1 else none

/-- A copy job ends: its completion word is written, then its ticket completes (R314, R339). -/
def endJob (s : State) (d : Nat) : State :=
  match (s.die d).ce with
  | none => s
  | some j =>
    match jobEnd j with
    | none => s
    | some st =>
      let s := s.modDie d fun x => { x with ce := none }
      let s := if j.done = 0 ∨ !inTiers j.done then s
        else physWrite s j.done (natToBytes 8 (st * 2 ^ 56 + (if st = 3 then 0 else j.off / 256)))
      let s := { s with dist := { s.dist with jobs := s.dist.jobs.erase (j.vf, j.ticket) } }
      let s := putTicket s j.vf j.ticket st
      settleInputs s.dist.launches.length s

/-- A copy job ends and writes its completion word and ticket (R339). -/
def execCeJobComplete (die : Nat) (s : State) : Result := .next (endJob s die)

/-! ### Host block (R366) -/

/-- A write clears the replay log's overflow bit (R366). -/
def execRlptrWrite (_val : Nat) (s : State) : Result := .next (s.setReg regRlptr (s.reg regRlptr % 2 ^ 32))

/-- BWIN takes its base; while the firmware runs, writes through PF BAR2 and go are then accepted (R367). -/
def writeBwin (s : State) (v : Nat) : State :=
  let s := s.setReg regBwin (slice v 30 22 * 2 ^ 30)
  if s.reg regBootctl % 4 = 2 then { s with dist := { s.dist with bar2Open := true } } else s

/-- Sets the PF BAR2 window base and re-enables BAR2 writes while running (R367). -/
def execBwinWrite (val : Nat) (s : State) : Result := .next (writeBwin s val)

/-- go and writes through PF BAR2 are accepted (R367). -/
def bar2Writable (s : State) : Bool :=
  let st := s.reg regBootctl % 4
  st == 0 || st == 3 || (st == 2 && s.dist.bar2Open)

/-- A write of len with go starts verification, or where go is ignored only sets len (R366, R367). -/
def startBoot (s : State) (len : Nat) : State :=
  if bar2Writable s then
    let s := s.setReg regBootctl (len % 2 ^ 32 * 2 ^ 32 + 1)
    { s with dist := { s.dist with bar2Open := false } }
  else s.setReg regBootctl (putBits (s.reg regBootctl) 32 32 len)

/-- A write with go starts verification of the firmware image (R367). -/
def execBootctlGo (len : Nat) (s : State) : Result := .next (startBoot s len)

/-- A write with a report address starts a report, with the nonce as it stands; a write while one is in progress is ignored (R370). -/
def writeAttreq (s : State) (v : Nat) : State :=
  if bitOf (s.reg regAttreq) 0 then s
  else
    let rep := slice v 9 43 * 2 ^ 9
    let s := s.setReg regAttreq (rep + b2n (rep != 0))
    if rep = 0 then s
    else
      let nonce := wordsToBytes ((List.range 6).map fun i => s.reg (regAttnonce + 8 * i))
      { s with dist := { s.dist with nonce := nonce } }

/-- A write with a report address starts an attestation report (R370). -/
def execAttreqWrite (val : Nat) (s : State) : Result := .next (writeAttreq s val)

/-! ### Registers without behaviour of their own -/

/-- A write to the register of a virtual function at base. -/
def vfField (base pa : Nat) : Option Nat := if base ≤ pa ∧ pa < base + 8 * 384 then some ((pa - base) / 8) else none

/-- The bits that a plain register keeps of a written value; none where the register has behaviour of its own, cannot be written, or
does not exist. -/
def plainMask (s : State) (pa : Nat) : Option Nat :=
  let keep (lo n : Nat) : Nat := (2 ^ n - 1) * 2 ^ lo
  if pa % 8 ≠ 0 then none
  else if 0x0F0000000000 ≤ pa ∧ pa < regBlim then
    let o := pa - 0x0F0000000000
    if o / 0x100000 < 16 ∧ o % 0x100000 / 0x100 < 48 ∧ o % 0x100 < 0x40 then some (keep 0 64) else none
  else if pa = regBlim then some (keep 0 12)
  else if regPlan 0 0 ≤ pa ∧ pa < regPlan 16 0 then
    if slotLocked s ((pa - regPlan 0 0) / 0x800) then none else some (keep 0 64)
  else if regQueue 0 0 ≤ pa ∧ pa < regQueue 384 0 then if pa % 0x40 = 0 then some (keep 6 50 + keep 0 5) else none
  else if (vfField (regVfweight 0) pa).isSome then some (keep 0 16)
  else if (vfField (regAsroot 0) pa).isSome then some (keep 12 40)
  else if (vfField (regPwlist 0) pa).isSome then some (keep 12 44 + keep 0 10)
  else if pa = regMcfg then some (keep 0 16)
  else if (vfField (regCutbase 0) pa).isSome then some (keep 31 21)
  else if pa = regHwbase 0 ∨ pa = regHwbase 1 then some (keep 12 52)
  else if pa = regDevqbase then some (keep 12 40 + keep 0 4)
  else if regAttnonce ≤ pa ∧ pa < regRlbase then some (keep 0 64)
  else if pa = regRlbase then some (keep 12 40 + keep 0 5)
  else if pa = regDumpbase then some (keep 30 22)
  else if pa = regExpbase then some (keep 19 33 + 1)
  else if pa = regRoutebase then some (keep 18 34)
  else none

/-- A register that only stores takes the value in its writable fields. BOOTCTL without go takes len, DEVQPTR its head. -/
def storeReg (s : State) (pa v : Nat) : State :=
  if pa = regBootctl then s.setReg pa (putBits (s.reg pa) 32 32 (v / 2 ^ 32))
  else if pa = regDevqptr then s.setReg pa (putBits (s.reg pa) 32 32 (v / 2 ^ 32))
  else
    match plainMask s pa with
    | some m => s.setReg pa (Nat.land v m)
    | none => s

/-- A write to a management register that has no behaviour of its own stores the value (R364). -/
def execRegisterWrite (pa val : Nat) (s : State) : Result := .next (storeReg s pa (val % 2 ^ 64))

/-! ### Every register, by address -/

/-- The state after a meaning that always goes on. -/
def after (r : Result) (s : State) : State := match r with | .next s => s | _ => s

/-- A write of a management register with what it does (R364). -/
def mgmtWrite (s : State) (pa v : Nat) : State :=
  let o := pa - 0x0F0000000000
  if pa < regBlim ∧ pa % 0x100 = 0x40 ∧ o % 0x100000 / 0x100 < 48 ∧ o / 0x100000 < 16 then
    after (execAelsWrite (48 * (o / 0x100000) + o % 0x100000 / 0x100) s) s
  else if pa < regBlim ∧ pa % 0x100 = 0x68 ∧ o % 0x100000 / 0x100 < 48 ∧ o / 0x100000 < 16 then
    after (execTelsWrite (48 * (o / 0x100000) + o % 0x100000 / 0x100) s) s
  else if pa = regPlanact then writePlanact s v
  else if regQueue 0 0 ≤ pa ∧ pa < regQueue 384 0 ∧ pa % 0x40 ≠ 0 then
    let z := pa - regQueue 0 0
    let vf := z / 0x400
    let q := z % 0x400 / 0x40
    if z % 0x40 = 8 then writeTail s vf q v
    else if z % 0x40 = 0x18 then
      match v % 4 with
      | 0 => setQueueState s vf q 0
      | 1 => runQueue s vf q
      | 2 => settleQueue (setQueueState s vf q 2) vf q
      | _ => setQueueState s vf q 3
    else s
  else if (vfField (regVfuse 0) pa).isSome then s.setReg pa 0
  else if (vfField (regAsinv 0) pa).isSome then writeAsinv s ((pa - regAsinv 0) / 8) v
  else if regMclog 0 ≤ pa ∧ pa < regMclog 768 then writeMclog s ((pa - regMclog 0) / 32) ((pa - regMclog 0) % 32 / 8) v
  else if (vfField (regCutcmd 0) pa).isSome then
    let vf := (pa - regCutcmd 0) / 8
    match v / 2 ^ 62 with
    | 1 => cutAnswer s vf v 1
    | 2 => cutAnswer s vf v 2
    | 3 => after (execCutcmdPreempt vf v s) s
    | _ => s
  else if regPwrctl 0 ≤ pa ∧ pa < regPwrctl 8 ∧ pa % 64 = 0 then
    after (execPwrctlWrite ((pa - regPwrctl 0) / 64) (putBits v 24 8 (slice (s.reg pa) 24 8)) s) s
  else if pa = regBootctl ∧ bitOf v 8 then startBoot s (v / 2 ^ 32)
  else if pa = regBwin then writeBwin s v
  else if pa = regAttreq then writeAttreq s v
  else if pa = regRlptr then s.setReg regRlptr (s.reg regRlptr % 2 ^ 32)
  else if regCe 0 ≤ pa ∧ pa < regCe 8 then
    let d := (pa - regCe 0) / 64
    match pa % 64 with
    | 0 => writeCebase s d v
    | 8 => s.setReg pa (v % 2 ^ 32)
    | _ => s
  else storeReg s pa v

/-- A management register as the host and the driver read it: LQCTL shows busy, SLIP the open beat's slip, CUTCMD 0 (R86, R308,
R346). -/
def mgmtRead (s : State) (pa : Nat) : Nat :=
  if regQueue 0 0 ≤ pa ∧ pa < regQueue 384 0 ∧ pa % 0x40 = 0x18 then
    let z := pa - regQueue 0 0
    putBits (s.reg pa) 8 1 (b2n (busy s (z / 0x400) (z % 0x400 / 0x40)))
  else if pa = regSlip then slipValue s
  else s.reg pa

/-- The registers that n bytes from pa touch, each once. -/
def regsIn (pa n : Nat) : List Nat := (spans 8 (n / 8 + 2) pa n).map fun x => x.1 / 8 * 8

/-- Bytes of the management registers. -/
def mgmtBytes (s : State) (pa n : Nat) : List Byte :=
  (List.range n).map fun i => BitVec.ofNat 8 (mgmtRead s ((pa + i) / 8 * 8) / 256 ^ ((pa + i) % 8))

/-- Bytes written to management registers: each register takes its old bytes where none is written. -/
def mgmtPut (s : State) (pa : Nat) (bs : List Byte) : State :=
  (regsIn pa bs.length).foldl (fun s r =>
    mgmtWrite s r (bytesToNat ((List.range 8).map fun i =>
      if pa ≤ r + i ∧ r + i < pa + bs.length then bs.getD (r + i - pa) 0
      else BitVec.ofNat 8 (mgmtRead s r / 256 ^ i)))) s

/-! ### Base address registers (R364) -/

/-- The completion of a host read: its bytes, or an error. -/
def hostReply (s : State) (fn : Nat) (r : Option (List Byte)) : State :=
  let w : HostWrite := { link := if fn < 2 then fn else (fn - 2) / 192, data := r.getD [], reply := true, err := r.isNone }
  { s with dist := { s.dist with hostOut := s.dist.hostOut ++ [w] } }

/-- A host access to physical addresses: its data, or the fault of an address that does not exist. -/
def hostAccess (s : State) (fn pa n : Nat) (wr : Bool) (bs : List Byte) : Result :=
  match region pa with
  | .hole => .fault (.noSuchAddress pa)
  | .mgmt => .next (if wr then mgmtPut s pa bs else hostReply s fn (some (mgmtBytes s pa n)))
  | _ =>
    if wr then .next (physWrite s pa bs)
    else
      match physRead s pa n 2 with
      | (s, .ok d) => .next (hostReply s fn (some d))
      | (s, .error _) => .next (hostReply s fn none)

/-- The parts of an access by virtual address, each in one page. -/
def pageSpans (va n : Nat) : List (Nat × Nat) := spans 65536 (n / 65536 + 2) va n

/-- The bytes that a read through VF BAR2 finds, page by page; none where a walk fails or data is uncorrectable. -/
def readVirtual (v : Nat) : List (Nat × Nat) → State → State × Option (List Byte)
  | [], s => (s, some [])
  | (a, n) :: r, s =>
    match vfPhys s v a 0 with
    | (s, none) => (s, none)
    | (s, some pa) =>
      match physRead s pa n 2 with
      | (s, .error _) => (s, none)
      | (s, .ok bs) =>
        match readVirtual v r s with
        | (s, none) => (s, none)
        | (s, some l) => (s, some (bs ++ l))

/-- A write through VF BAR2; the part whose walk fails is discarded. -/
def writeVirtual (v : Nat) : List (Nat × Nat) → List Byte → State → State
  | [], _, s => s
  | (a, n) :: r, bs, s =>
    writeVirtual v r (bs.drop n) (vfWrite s v a (bs.take n)).1

/-- The virtual functions that the configuration block enables (R363, R368). -/
def vfEnabled (s : State) (v : Nat) : Bool :=
  let w := s.dist.config.getD 0 0
  if v < 192 then decide (v < w % 256) else decide (v - 192 < slice w 8 8)

/-- A host access of size bytes at offset off of a base address register (R364). fn 0 and 1 are the physical functions, fn 2 + v is
virtual function v. -/
def barAccess (fn bar off size : Nat) (wr : Bool) (val : Nat) (s : State) : Result :=
  let bs := natToBytes size val
  if fn < 2 then
    if bar = 0 ∧ off + size ≤ 2 ^ 32 then hostAccess s fn (0x0F0000000000 + off) size wr bs
    else if bar = 2 ∧ off + size ≤ 2 ^ 30 then
      if wr ∧ !bar2Writable s then .next s else hostAccess s fn (s.reg regBwin + off) size wr bs
    else .next s
  else
    let v := fn - 2
    if !vfEnabled s v then .next s
    else if bar = 0 ∧ off + size ≤ 4096 then
      let n := Nat.min size (0x400 - off)
      .next (if wr then mgmtPut s (regQueue v 0 + off) (bs.take n)
        else hostReply s fn (some (mgmtBytes s (regQueue v 0 + off) n ++ natToBytes (size - n) 0)))
    else if bar = 2 ∧ off + size ≤ 2 ^ 40 then
      if wr then .next (writeVirtual v (pageSpans off size) bs s)
      else
        let r := readVirtual v (pageSpans off size) s
        .next (hostReply r.1 fn r.2)
    else .next s

/-- A host access through a function's BAR reaches registers or the function's address space (R364). -/
def execHostBarAccess (fn bar off size : Nat) (wr : Bool) (val : Nat) (s : State) : Result := barAccess fn bar off size wr val s

/-- A host-window read, or the zero-length read that follows a write, completes: the piece performs, or its gang raises code 334; a copy
job ends with an error (R339, R365). -/
def execHostWindowCompletion (id : Nat) (ok : Bool) (data : List Byte) (s : State) : Result :=
  .next (match findPiece s id with
    | none => s
    | some p =>
      if region p.pa ≠ .host ∨ p.st ≠ .sent then s else answerPiece s p ok data)

end Sys2Proof.Machine
end

