-- ==== Sys2Proof/Machine/Boot.lean ====
section
/-!
DEFINITION. Firmware and identity (21_host R367-R372): power-up, the verification of the image, the configuration block, the
attestation report, the fatal-error dump.
-/

namespace Sys2Proof.Machine

/-- Power-up: every core held, BOOTCTL waiting, every register at its power-up value; the model's own counters go on (R367). -/
def execPowerUp (s : State) : Result :=
  .next { State.reset with agenda := s.agenda, moves := s.moves, free := s.free }

/-! ### Verification (R367, R368) -/

/-- n bytes of memory at pa as the boot controller reads the image. -/
def imageBytes (s : State) (pa n : Nat) : List Byte :=
  if region pa = .fast then (stripSpans pa n).flatMap fun x => ((s.stripData (s.stripOf x.1)).drop (x.1 % 32)).take x.2
  else s.mem.rdList pa n

/-- The 64-bit word of the image at offset o. -/
def imageWord (s : State) (pa o : Nat) : Nat := bytesToNat (imageBytes s (pa + o) 8)

/-- A number from 48 bytes, highest first (R367). -/
def bigEndian (bs : List Byte) : Nat := bytesToNat bs.reverse

/-- The words of the configuration block lie within their limits (R368). -/
def configOk (w : List Nat) : Bool :=
  let x := w.getD 0 0
  decide (x / 2 ^ 16 = 0) && decide (x % 256 ≤ 192) && decide (slice x 8 8 ≤ 192) && decide (w.getD 1 0 / 2 ^ 16 = 0)
    && decide (w.getD 2 0 / 2 ^ 18 = 0)
    && (w.drop 3).all fun y => decide (y / 2 ^ 32 = 0) && decide (slice y 2 6 = 0) && decide (y % 4 ≤ 2)

/-- The words of the configuration block of the image at pa. -/
def configWords (s : State) (pa : Nat) : List Nat := bytesToWords 11 (imageBytes s (pa + imageWord s pa 0x10) 88)

/-- The first check of R367. -/
def headerOk (s : State) (pa len : Nat) : Bool :=
  let off := imageWord s pa 0x10
  imageBytes s pa 4 == [0x4C, 0x4E, 0x46, 0x57] && decide (0x200 ≤ len) && decide (len ≤ 2 ^ 30) && imageWord s pa 8 == len
    && imageWord s pa 0x18 == 88 && decide (0x200 ≤ off) && decide (off + 88 + 96 ≤ len) && configOk (configWords s pa)

/-- The reason for which an image of len bytes at pa is rejected, 0 where it is not (R367). -/
def verifyImage (s : State) (pa len : Nat) : Nat :=
  if !headerOk s pa len then 1
  else
    let key := imageBytes s (pa + 0x40) 97
    if Config.sha384 key ≠ Config.romHash then 2
    else
      let h := Config.sha384 (imageBytes s pa (len - 96))
      if Config.ecdsaVerify key h (bigEndian (imageBytes s (pa + len - 96) 48)) (bigEndian (imageBytes s (pa + len - 48) 48)) then 0
      else 3

/-- The grid of die d starts with its present beat. The skew with which the dies start is open within the bound of R142 (log entry 54). -/
def startGrid (s : State) (d : Nat) : State :=
  let (c, s) := s.choose
  s.modDie d fun x => { x with opens := [(x.beat, x.tick2)], drift := x.drift + (c % 7 : Nat) }

/-- The firmware applies the configuration block and starts the idle plan (R66, R367, R368), and with it the grid if that does not run yet:
beat 0 opens, and NTIME is sampled in it (R371). -/
def applyConfig (s : State) (w : List Nat) : State :=
  let s := (List.range 8).foldl (fun s d => feel (s.setReg (regPwrctl d) (w.getD (3 + d) 0)) d) s
  let s := { s with dist := { s.dist with config := w.take 3 } }
  if s.grid.started then { s with grid := { s.grid with idle := true, prev := none } }
  else
    let s := (List.range 8).foldl startGrid s
    sampleTime { s with grid := { s.grid with started := true, idle := true } } 0 (s.die 0).beat

/-- Verification ends: the image is rejected with a reason, or the firmware starts. -/
def endBoot (s : State) : State :=
  let r := s.reg regBootctl
  if r % 4 ≠ 1 then s
  else
    let len := r / 2 ^ 32
    let pa := s.reg regBwin
    match verifyImage s pa len with
    | 0 =>
      let s := s.setReg regBootctl (len * 2 ^ 32 + 2)
      applyConfig { s with dist := { s.dist with imageHash := Config.sha384 (imageBytes s pa (len - 96)) } } (configWords s pa)
    | n => s.setReg regBootctl (len * 2 ^ 32 + n * 16 + 3)

/-- Verification ends: the image is rejected with a reason or firmware starts (R367). -/
def execBootVerificationDone (s : State) : Result := .next (endBoot s)

/-- A conventional reset returns BOOTCTL to state 0 (R372). -/
def execPcieConventionalReset (s : State) : Result := .next (s.setReg regBootctl (putBits (s.reg regBootctl) 0 2 0))

/-! ### The attestation report (R370) -/

/-- n bytes of a number, highest first. -/
def bigBytes (n v : Nat) : List Byte := (natToBytes n v).reverse

/-- Bytes 0x00 to 0xFF of the report. -/
def reportHead (s : State) : List Byte :=
  natToBytes 8 1 ++ natToBytes 8 ((s.die 0).beat % 2 ^ 48) ++ bigBytes 48 s.dist.imageHash ++ s.dist.nonce
    ++ ((Config.identityKey ++ List.replicate 97 0).take 97) ++ List.replicate 7 0 ++ natToBytes 8 (nodeId s) ++ List.replicate 32 0

/-- The firmware writes the report at rep, then clears busy and sends an event. -/
def endReport (s : State) : State :=
  let r := s.reg regAttreq
  if !bitOf r 0 then s
  else
    let head := reportHead s
    let sig := Config.identitySign (Config.sha384 head)
    let rep := slice r 9 43 * 2 ^ 9
    let s := physWrite s rep (head ++ bigBytes 48 sig.1 ++ bigBytes 48 sig.2 ++ List.replicate 32 0)
    devEvent (s.setReg regAttreq rep) 8 0 0 0

/-- Firmware writes the signed report, clears busy and sends an event (R370). -/
def execAttestationReportDone (s : State) : Result := .next (endReport s)

/-! ### The fatal-error dump (R354, R372) -/

/-- The keys of the tasks that are attached, in core order. -/
def attachedKeys (s : State) : List Nat := (List.range 1536).filter s.attached

/-- The logs of the dump: of each pseudo-channel AELS, its entries, TELS, its entries, then MCLOG of each core. -/
def dumpLogs (s : State) : List Nat :=
  ((List.range 768).flatMap fun p => (List.range 10).map fun i => s.reg (regAels p + 8 * i))
    ++ (List.range 768).flatMap fun c => (List.range 4).map fun i => s.reg (regMclog c + 8 * i)

/-- The dump (R354, R372). -/
def dumpImage (s : State) (cause : Nat) : Mem × Nat :=
  let ks := attachedKeys s
  let logs := dumpLogs s
  let len := 64 + 0x100000 * ks.length + 8 * logs.length
  let m : Mem := Mem.putWords [] 0 [0x504D5544, len, cause, (s.die 0).beat % 2 ^ 48, (s.die 0).ntime, ks.length]
  let m := ks.zipIdx.foldl (fun m k =>
    match s.gangOf k.1 with
    | some g => m.putMem (64 + 0x100000 * k.2) 0x100000 (recordImage s g k.1)
    | none => m) m
  (m.putWords (64 + 0x100000 * ks.length) logs, len)

/-- After a fatal error firmware writes the state dump and sends an event (R372). -/
def execFatalErrorDump (cause : Nat) (s : State) : Result :=
  let d := dumpImage s cause
  let pa := s.reg regDumpbase
  let s := if region pa = .cap then { s with mem := Sparse.paste s.mem pa d.2 d.1.canon } else physWrite s pa (d.1.rdList 0 d.2)
  .next (devEvent s 7 0 cause 0)

end Sys2Proof.Machine
end

