-- ==== Sys2Proof/Machine/Interval.lean ====
section
/-!
DEFINITION. Intervals (10_numbers R177-R179, 12_interval R215-R225): a lane as a set of reals, the exact sets that the
forward operations and the contractors name, and their outward rounding.
-/

namespace Sys2Proof

/-- A piece of the real line: its ends, and whether a finite end is left out. -/
structure Piece where
  lo : ERl
  loOpen : Bool
  hi : ERl
  hiOpen : Bool
deriving DecidableEq, Repr

namespace Piece

def closed (lo hi : ERl) : Piece := ⟨lo, false, hi, false⟩

def line : Piece := closed .ninf .pinf

def point (x : ERl) : Piece := closed x x

/-- No real lies in the piece. -/
def isEmpty (p : Piece) : Bool :=
  match ERl.cmp p.lo p.hi with
  | .gt => true
  | .eq => p.loOpen || p.hiOpen || p.lo == .pinf || p.hi == .ninf
  | .lt => false

def inter (p q : Piece) : Piece :=
  let lo := match ERl.cmp p.lo q.lo with
    | .lt => (q.lo, q.loOpen)
    | .gt => (p.lo, p.loOpen)
    | .eq => (p.lo, p.loOpen || q.loOpen)
  let hi := match ERl.cmp p.hi q.hi with
    | .lt => (p.hi, p.hiOpen)
    | .gt => (q.hi, q.hiOpen)
    | .eq => (p.hi, p.hiOpen || q.hiOpen)
  ⟨lo.1, lo.2, hi.1, hi.2⟩

def neg (p : Piece) : Piece := ⟨p.hi.neg, p.hiOpen, p.lo.neg, p.loOpen⟩

/-- The positive part. -/
def pos (p : Piece) : Piece := inter p ⟨.zero, true, .pinf, false⟩

/-- The part that is not negative. -/
def nonneg (p : Piece) : Piece := inter p (closed .zero .pinf)

def hasZero (p : Piece) : Bool := !(inter p (point .zero)).isEmpty

end Piece

/-- A set of reals as pieces, and its hull. -/
abbrev Pieces := List Piece

namespace Pieces

def cut (ps : Pieces) (q : Piece) : Pieces := (ps.map (Piece.inter q)).filter fun p => !p.isEmpty

def cutAll (ps qs : Pieces) : Pieces := qs.flatMap (cut ps)

/-- inf and sup, none for the empty set. -/
def hull (ps : Pieces) : Option (ERl × ERl) :=
  match ps.filter fun p => !p.isEmpty with
  | [] => none
  | p :: r => some (r.foldl (fun a q => ERl.min a q.lo) p.lo, r.foldl (fun a q => ERl.max a q.hi) p.hi)

def neg (ps : Pieces) : Pieces := ps.map Piece.neg

end Pieces

/-- x + y of ends, one of which may be infinite. -/
def endAdd (x y : ERl) : ERl :=
  match x, y with
  | .ninf, _ => .ninf
  | .pinf, _ => .pinf
  | _, .ninf => .ninf
  | _, .pinf => .pinf
  | .fin (.quo n1 1 e1), .fin (.quo n2 1 e2) => .ofDy (Dy.add ⟨n1, e1⟩ ⟨n2, e2⟩)
  | .fin r, _ => .fin r

/-- x * y of ends; 0 times an infinity is 0, the product with the points that approach it. -/
def endMul (x y : ERl) : ERl :=
  let s := x.sgn * y.sgn
  if s = 0 then .zero
  else match x, y with
    | .fin (.quo n1 d1 e1), .fin (.quo n2 d2 e2) => .fin (.quo (n1 * n2) (d1 * d2) (e1 + e2))
    | _, _ => if s < 0 then .ninf else .pinf

/-- x / y of ends for y above 0 (its limit where y is 0 or infinite). -/
def endDiv (x y : ERl) : ERl :=
  if x.sgn = 0 then .zero
  else match x, y with
    | .fin (.quo n1 d1 e1), .fin (.quo n2 d2 e2) =>
      if n2 ≤ 0 then (if x.sgn < 0 then .ninf else .pinf)
      else .fin (.quo (n1 * d2) (d1 * n2.toNat) (e1 - e2))
    | .fin _, _ => .zero
    | _, .pinf => if x.sgn < 0 then .ninf else .pinf
    | _, _ => if x.sgn < 0 then .ninf else .pinf

/-- The closed set of sums. -/
def setAdd (p q : Piece) : Piece := .closed (endAdd p.lo q.lo) (endAdd p.hi q.hi)

/-- The closed set of products of two closed pieces. -/
def setMul (p q : Piece) : Piece :=
  let a := endMul p.lo q.lo
  let b := endMul p.lo q.hi
  let c := endMul p.hi q.lo
  let d := endMul p.hi q.hi
  .closed (.min (.min a b) (.min c d)) (.max (.max a b) (.max c d))

/-- The products w * v for w in z and v in y, y within the positive reals. -/
def mulPos (z y : Piece) : Piece :=
  let lo := if 0 ≤ z.lo.sgn then (endMul z.lo y.lo, decide (0 < z.lo.sgn) && y.loOpen) else (endMul z.lo y.hi, false)
  let hi := if z.hi.sgn ≤ 0 then (endMul z.hi y.lo, decide (z.hi.sgn < 0) && y.loOpen) else (endMul z.hi y.hi, false)
  ⟨lo.1, lo.2, hi.1, hi.2⟩

/-- The quotients w / v for w in z and v in y, y within the positive reals. An end that only an infinite v approaches
is left out. -/
def divPos (z y : Piece) : Piece :=
  let lo :=
    if 0 ≤ z.lo.sgn then (endDiv z.lo y.hi, decide (0 < z.lo.sgn) && y.hi == .pinf) else (endDiv z.lo y.lo, false)
  let hi :=
    if z.hi.sgn ≤ 0 then (endDiv z.hi y.hi, decide (z.hi.sgn < 0) && y.hi == .pinf) else (endDiv z.hi y.lo, false)
  ⟨lo.1, lo.2, hi.1, hi.2⟩

/-- The quotients w / v, w in z, v in y, v not 0. -/
def setQuo (z y : Piece) : Pieces :=
  let p := y.pos
  let n := y.neg.pos
  (if p.isEmpty || z.isEmpty then [] else [divPos z p]) ++ (if n.isEmpty || z.isEmpty then [] else [(divPos z n).neg])

/-- The u with u * v in z for some v in y. -/
def setDiv (z y : Piece) : Pieces :=
  if z.hasZero && y.hasZero then [.line] else setQuo z y

/-- The products w * v, w in z, v in y, v not 0. -/
def setMulNz (z y : Piece) : Pieces :=
  let p := y.pos
  let n := y.neg.pos
  (if p.isEmpty || z.isEmpty then [] else [mulPos z p]) ++ (if n.isEmpty || z.isEmpty then [] else [(mulPos z n).neg])

def endSqr (x : ERl) : ERl := endMul x x

/-- The square root of an end that is not negative. -/
def endSqrt (x : ERl) : ERl :=
  match x with
  | .fin (.quo n 1 e) => .fin (.root false n.toNat e)
  | .ninf => .zero
  | x => x

/-- 2 to the power of an end. Beyond 2^20 the bounds of every format are decided, so the exponent stops there. -/
def endExp2 (x : ERl) : ERl :=
  match x with
  | .ninf => .zero
  | .pinf => .pinf
  | .fin (.quo n 1 e) =>
    let a : Dy := ⟨n, e⟩
    .fin (.exp2 (if Dy.lt ⟨1, 20⟩ a then ⟨1, 20⟩ else if Dy.lt a ⟨-1, 20⟩ then ⟨-1, 20⟩ else a))
  | x => x

/-- log2 of an end that is not negative. -/
def endLog2 (x : ERl) : ERl :=
  match x with
  | .fin (.quo n 1 e) => if n ≤ 0 then .ninf else .fin (.log2 n.toNat e)
  | x => x

def setSqr (p : Piece) : Piece :=
  if p.hasZero then .closed .zero (.max (endSqr p.lo) (endSqr p.hi))
  else if p.lo.sgn < 0 then .closed (endSqr p.hi) (endSqr p.lo)
  else .closed (endSqr p.lo) (endSqr p.hi)

def setAbs (p : Piece) : Piece :=
  if p.hasZero then .closed .zero (.max p.lo.neg p.hi)
  else if p.lo.sgn < 0 then p.neg
  else p

/-- The square roots of the points that are not negative. -/
def setSqrt (p : Piece) : Pieces :=
  let q := p.nonneg
  if q.isEmpty then [] else [.closed (endSqrt q.lo) (endSqrt q.hi)]

def setExp2 (p : Piece) : Piece := ⟨endExp2 p.lo, p.lo == .ninf, endExp2 p.hi, false⟩

/-- The u with 2^u in p. -/
def setLog2 (p : Piece) : Pieces :=
  let q := p.pos
  if q.isEmpty then [] else [.closed (endLog2 q.lo) (endLog2 q.hi)]

def setMax (p q : Piece) : Piece := .closed (.max p.lo q.lo) (.max p.hi q.hi)

def setMin (p q : Piece) : Piece := .closed (.min p.lo q.lo) (.min p.hi q.hi)

/-- A lane as R178 classifies it. -/
inductive Lane where
  | nai
  | empty
  | set (lo hi : ERl)
deriving DecidableEq, Repr

namespace Lane

def piece (lo hi : ERl) : Piece := .closed lo hi

/-- The end that a bound's pattern denotes; a -0 reads as 0. -/
def bound (f : Fmt) (b : Nat) : ERl :=
  match f.val b with
  | .nan => .zero
  | .inf s => if s then .ninf else .pinf
  | .fin _ x => .ofDy x

/-- A lane from its two bound patterns (R178). -/
def ofBits (f : Fmt) (lo hi : Nat) : Lane :=
  if f.isNaN lo || f.isNaN hi then .nai
  else
    let l := bound f lo
    let h := bound f hi
    if ERl.lt h l || l == .pinf || h == .ninf then .empty else .set l h

/-- The pattern of a lower bound rounded by rdn, with +0 for a zero (R179). -/
def lowBits (f : Fmt) (x : ERl) : Nat :=
  match x with
  | .ninf => f.withSign true f.inf
  | .pinf => f.inf
  | .fin r => let b := (roundRl f .rdn false r).1; if f.isZero b then 0 else b

/-- The pattern of an upper bound rounded by rup, with +0 for a zero. -/
def highBits (f : Fmt) (x : ERl) : Nat :=
  match x with
  | .ninf => f.withSign true f.inf
  | .pinf => f.inf
  | .fin r => let b := (roundRl f .rup false r).1; if f.isZero b then 0 else b

/-- The two bound patterns of a lane in canonical form (R179). -/
def bits (f : Fmt) : Lane → Nat × Nat
  | .nai => (f.nan, f.nan)
  | .empty => (f.inf, f.withSign true f.inf)
  | .set lo hi => (lowBits f lo, highBits f hi)

def ofHull : Option (ERl × ERl) → Lane
  | none => .empty
  | some (lo, hi) => .set lo hi

end Lane

/-- The forward operations of R215. -/
inductive JOp where
  | add | sub | mul | div | sqr | sqrt | exp2 | max | min | abs | neg | hull | isect
deriving DecidableEq, Repr

/-- The set of R215 for two ordinary lanes. -/
def jSet (op : JOp) (a b : Piece) : Pieces :=
  match op with
  | .add => [setAdd a b]
  | .sub => [setAdd a b.neg]
  | .mul => [setMul a b]
  | .div => setQuo a b
  | .sqr => [setSqr a]
  | .sqrt => setSqrt a
  | .exp2 => [setExp2 a]
  | .max => [setMax a b]
  | .min => [setMin a b]
  | .abs => [setAbs a]
  | .neg => [a.neg]
  | .hull => [a, b]
  | .isect => [a.inter b]

/-- Whether the operation reads two lanes. -/
def JOp.two : JOp → Bool
  | .sqr | .sqrt | .exp2 | .abs | .neg => false
  | _ => true

/-- One lane of a forward operation (R215). -/
def jForward (op : JOp) (a b : Lane) : Lane :=
  match a, b with
  | .nai, _ => .nai
  | _, .nai => if op.two then .nai else
    match a with
    | .set l h => Lane.ofHull (Pieces.hull (jSet op (Lane.piece l h) .line))
    | x => x
  | .empty, .empty => .empty
  | .empty, .set l h => if op = .hull then .set l h else .empty
  | .set l h, .empty =>
    if op = .hull then .set l h
    else if op.two then .empty
    else Lane.ofHull (Pieces.hull (jSet op (Lane.piece l h) .line))
  | .set l h, .set m k => Lane.ofHull (Pieces.hull (jSet op (Lane.piece l h) (Lane.piece m k)))

/-- The projections of the constraint w = f(u, v) over x, y, z (R224): the sets of u, of v and of w. -/
def jProject (op : JOp) (x y z : Piece) : Pieces × Pieces × Pieces :=
  match op with
  | .add => (Pieces.cut [setAdd z y.neg] x, Pieces.cut [setAdd z x.neg] y, Pieces.cut [setAdd x y] z)
  | .sub => (Pieces.cut [setAdd z y] x, Pieces.cut [setAdd x z.neg] y, Pieces.cut [setAdd x y.neg] z)
  | .mul => (Pieces.cut (setDiv z y) x, Pieces.cut (setDiv z x) y, Pieces.cut [setMul x y] z)
  | .div =>
    (Pieces.cut (setMulNz z y) x,
     Pieces.cutAll (Pieces.cut (setDiv x z) y) [⟨.zero, true, .pinf, false⟩, ⟨.ninf, false, .zero, true⟩],
     Pieces.cut (setQuo x y) z)
  | .sqr =>
    let r := setSqrt z
    (Pieces.cut (r ++ Pieces.neg r) x, [y], Pieces.cut [setSqr x] z)
  | .sqrt =>
    let zp := z.nonneg
    (Pieces.cut (if zp.isEmpty then [] else [setSqr zp]) x.nonneg, [y], Pieces.cut (setSqrt x) z)
  | .exp2 => (Pieces.cut (setLog2 z) x, [y], Pieces.cut [setExp2 x] z)
  | .max =>
    let side (x y : Piece) : Pieces :=
      let yz := y.inter z
      [(x.inter z).inter (.closed y.lo .pinf)].filter (fun p => !p.isEmpty)
        ++ (if yz.isEmpty then [] else [x.inter (.closed .ninf yz.hi)])
    (side x y, side y x, Pieces.cut [setMax x y] z)
  | .min =>
    let side (x y : Piece) : Pieces :=
      let yz := y.inter z
      [(x.inter z).inter (.closed .ninf y.hi)].filter (fun p => !p.isEmpty)
        ++ (if yz.isEmpty then [] else [x.inter (.closed yz.lo .pinf)])
    (side x y, side y x, Pieces.cut [setMin x y] z)
  | .abs =>
    let zp := z.nonneg
    (Pieces.cut (if zp.isEmpty then [] else [zp, zp.neg]) x, [y], Pieces.cut [setAbs x] z)
  | .neg => (Pieces.cut [z.neg] x, [y], Pieces.cut [x.neg] z)
  | .hull => ([x], [y], [z])
  | .isect => ([x], [y], [z])

/-- One lane of a contractor (R224): x', y', z' and whether the constraint set was empty. A one-operand contractor
is given the whole line for y. -/
def jContract (op : JOp) (x y z : Lane) : Lane × Lane × Lane × Bool :=
  match x, y, z with
  | .nai, _, _ => (.nai, .nai, .nai, false)
  | _, .nai, _ => (.nai, .nai, .nai, false)
  | _, _, .nai => (.nai, .nai, .nai, false)
  | .set xl xh, .set yl yh, .set zl zh =>
    let p := jProject op (Lane.piece xl xh) (Lane.piece yl yh) (Lane.piece zl zh)
    match Pieces.hull p.1, Pieces.hull p.2.1, Pieces.hull p.2.2 with
    | some u, some v, some w => (Lane.ofHull (some u), Lane.ofHull (some v), Lane.ofHull (some w), false)
    | _, _, _ => (.empty, .empty, .empty, true)
  | _, _, _ => (.empty, .empty, .empty, true)

/-- The width of a lane as R214 takes it: none for infinite. -/
def laneWidth (f : Fmt) (lo hi : Nat) : Option Dy :=
  match f.val lo, f.val hi with
  | .fin _ l, .fin _ h => some (Dy.sub h l)
  | _, _ => none

/-- Narrowing progress from one lane to another (R214), th the threshold of NPTH. -/
def narrowed (f : Fmt) (th : Nat) (old new : Nat × Nat) : Bool :=
  match Lane.ofBits f old.1 old.2, Lane.ofBits f new.1 new.2 with
  | .set _ _, .empty => true
  | .set _ _, .set _ _ =>
    match laneWidth f old.1 old.2, laneWidth f new.1 new.2 with
    | none, some _ => true
    | some w0, some w1 => Dy.lt Dy.zero w0 && Dy.lt (Dy.mul ⟨th, -16⟩ w0) (Dy.sub w0 w1)
    | _, _ => false
  | _, _ => false

/-- An interval of a lane denotes another set, or became NaI where none of the operands of the lane was NaI (R225; log entry 22). -/
def laneChanged (f : Fmt) (nai : Bool) (old new : Nat × Nat) : Bool :=
  match Lane.ofBits f old.1 old.2, Lane.ofBits f new.1 new.2 with
  | .set a b, .set c d => ERl.cmp a c != .eq || ERl.cmp b d != .eq
  | .empty, .empty => false
  | _, .nai => !nai
  | _, _ => true

/-- The lanes of three intervals, or two, before and after: one of them changed (R225). -/
def lanesChanged (f : Fmt) (l : List ((Nat × Nat) × (Nat × Nat))) : Bool :=
  let nai := l.any fun p => Lane.ofBits f p.1.1 p.1.2 == .nai
  l.any fun p => laneChanged f nai p.1 p.2

end Sys2Proof
end

