-- ==== Sys2Proof/Machine/Flags.lean ====
section
/-!
DEFINITION. The element types of V (10_numbers R167, R173, R187) and the status bits that its results bring (11_vector R193):
nv is bit 0, of is bit 1, sc is bit 2; wrapping and clamping of integers, NaN results and flushing of floats.
-/

namespace Sys2Proof.Machine

/-- Bytes of an element of type code ty (R187). -/
def tySize (ty : Nat) : Nat := if ty = 0 ∨ ty = 2 ∨ ty = 3 then 4 else if ty = 1 ∨ ty = 4 ∨ ty = 5 then 2 else 1
/-- Elements of an entry. -/
def tyCount (ty : Nat) : Nat := 1024 / tySize ty
/-- The type is f32 or bf16. -/
def tyFloat (ty : Nat) : Bool := decide (ty < 2)
/-- The floating-point format of a type. -/
def tyFmt (ty : Nat) : Fmt := if ty = 1 then .bf16 else .f32
/-- The integer type is signed. -/
def tySigned (ty : Nat) : Bool := ty % 2 == 0
/-- Bits of an element. -/
def tyBits (ty : Nat) : Nat := 8 * tySize ty
/-- The least and the greatest value of an integer type. -/
def tyRange (ty : Nat) : Int × Int :=
  if tySigned ty then (-(2 ^ (tyBits ty - 1) : Nat), (2 ^ (tyBits ty - 1) : Nat) - 1) else (0, (2 ^ tyBits ty : Nat) - 1)
/-- The value of an integer element. -/
def tyInt (ty v : Nat) : Int := if tySigned ty then sext v (tyBits ty) else (v % 2 ^ tyBits ty : Nat)

def stNv : Nat := 1
def stOf : Nat := 2
def stSc : Nat := 4

/-- An exact integer brought to type ty: its bits and its status (R173, R193): clamped under sat, else wrapped. -/
def intNarrow (ty : Nat) (sat : Bool) (x : Int) : Nat × Nat :=
  let r := tyRange ty
  let out := decide (x < r.1) || decide (r.2 < x)
  if sat then (wrapN (clampInt r.1 r.2 x) (tyBits ty), if out then stSc else 0)
  else (wrapN x (tyBits ty), if out then stOf else 0)

/-- What V's arithmetic depends on besides its operands: rounding mode, flushing, the rules of Fjoell LN6, sat. -/
structure VCtx where
  mode : Mode
  flush : Bool
  ln6 : Bool
  sat : Bool
deriving DecidableEq, Repr

/-- The mode of a rounding code (R170). -/
def modeOf : Nat → Mode
  | 2 => .rtz
  | 3 => .rdn
  | 4 => .rup
  | 5 => .rna
  | _ => .rne

namespace VCtx

/-- An operand of a floating-point operation (R171). -/
def input (c : VCtx) (f : Fmt) (b : Nat) : Nat := if c.flush then f.flush b else b

/-- The quiet form of a NaN in its own format. -/
def quiet (f : Fmt) (b : Nat) : Nat := b ||| 2 ^ (f.fb - 1)

/-- The NaN that a result with these operands is (R168, R182); none of them need be a NaN. -/
def nanOf (c : VCtx) (f : Fmt) (ops : List Nat) : Nat :=
  if c.ln6 then
    match ops.find? f.isNaN with
    | some b => quiet f b
    | none => f.nan
  else f.nan

/-- A floating-point result of operands ops: its bits and its status (R168, R171, R193). -/
def output (c : VCtx) (f : Fmt) (ops : List Nat) (r : FRes) : Nat × Nat :=
  if ops.any f.isNaN then (c.nanOf f ops, 0)
  else if f.isNaN r.b then (f.nan, if r.nv then stNv else 0)
  else (if c.flush then f.flush r.b else r.b, if r.of then stOf else 0)

end VCtx

end Sys2Proof.Machine
end

