-- ==== Sys2Proof/Machine/Vector.lean ====
section
/-!
DEFINITION. The vector engine (11_vector R187-R207, 09_operand_storage R158-R162): reading its queues, issue in exposed and
interlocked blocks, and the instructions. A result is put in flight and lands as Ops.lean says.
-/

namespace Sys2Proof.Machine

/-! ### Issue -/

/-- The queues popped in the order of the reads; a peek leaves its entry (R161). none where one holds too few entries. -/
def readQueues (q : Sparse (List Mem)) : List (Nat × Nat) → Option (List Mem × Sparse (List Mem))
  | [] => some ([], q)
  | (n, peek) :: r =>
    match Sparse.rd [] q n with
    | [] => none
    | e :: rest =>
      match readQueues (if peek = 1 then q else Sparse.wr [] q n rest) r with
      | none => none
      | some (es, q') => some (e :: es, q')

/-- What an instruction of V or of the interval unit touches: the base code of its causes, the queues that it reads with their
peek bits, the registers that it reads or writes beside its destination, the destination. -/
structure VReq where
  base : Nat := 48
  qs : List (Nat × Nat) := []
  reads : List VDst := []
  dst : Option VDst := none
deriving DecidableEq, Repr

/-- A result to that destination is in flight (R191). -/
def inFlight (t : Task) (d : VDst) : Bool := t.v.flights.any fun f => f.dst == d

/-- The side that could feed or drain V's queues is gone (R162): C has taken an end record, waits for a later token of V, or is
stalled at take. -/
def cGone (s : State) (k : Nat) : Bool :=
  let x := s.eng k .c
  let n := (s.eng k .v).count
  x.phase == .idle || (x.wait == .hq && (s.task k).hq.isEmpty) ||
    (x.wait == .tokens && (x.latched.getD []).any fun w =>
      bitOf w.toNat 35 && slice w.toNat 32 3 == 2
        && decide (1 ≤ (w.toNat % 2 ^ 32 + 2 ^ 32 - n) % 2 ^ 32) && decide ((w.toNat % 2 ^ 32 + 2 ^ 32 - n) % 2 ^ 32 < 2 ^ 31))

/-- The destination is an underfile entry outside the share (R158), an outbound queue without room (R162). -/
def badShare (s : State) : Option VDst → Bool
  | some (.entry n) => !inFile s n 1
  | _ => false
def noRoom (t : Task) : Option VDst → Bool
  | some (.outq n) => decide (4 ≤ outqPlaces t n)
  | _ => false

/-- A cause that a wait in an interlocked block turns into (R162). -/
def queueWait (inter : Bool) (code : Nat) (s : State) : State :=
  if inter ∧ !cGone s s.key then waitFor .retry s else trap code s

/-- The underfile entries of an instruction's region (R353). -/
def vRegion (s : State) (r : VReq) : List (Nat × Nat × Nat × Bool) :=
  match r.dst with
  | some (.entry n) => [(ufSpace s.cur.core, n, n, true)]
  | _ => []

/-- Issue of an instruction of V or of the interval unit past its token waits (R160, R162, R190, R191): a cycle passes, then the
checks and interlocks; body has the entries read. -/
def vIssue (r : VReq) (body : List Mem → State → State) (s : State) : State :=
  issue false (fun s =>
    let s := cycleV s s.key
    let t := s.me
    let inter := s.myEng.inter
    if badShare s r.dst then trap (r.base + 8) s
    else if inter ∧ ((r.reads ++ r.dst.toList).any (inFlight t)) then waitFor .retry s
    else
      match readQueues t.opq r.qs with
      | none => queueWait inter (r.base + 3) s
      | some (vals, q) =>
        if noRoom t r.dst then queueWait inter (r.base + 4) s
        else declare (vRegion s r) 0 none false (fun s => body vals (s.modMe fun t => { t with opq := q })) s) s

/-! ### Results -/

/-- Mask element e of register m (R164). -/
def maskEl (t : Task) (m e : Nat) : Nat :=
  if m = 0 then 1
  else
    let v := Sparse.rd 0 t.mask m / 4 ^ e % 4
    if v = 3 then 2 else v

/-- The elements 0 to n - 1 whose mask element is T. -/
def maskT (t : Task) (m n : Nat) : Nat :=
  if m = 0 then 2 ^ n - 1 else packBits 1 ((List.range n).map fun e => b2n (maskEl t m e == 1))

/-- The destination of a VA or VI field d (R189). -/
def vDst (d : Nat) : VDst := if d < 768 then .entry d else .outq (d - 768)
/-- The mask register that an instruction reads as its mask; m0 is never in flight. -/
def maskReads (m : Nat) : List VDst := if m = 0 then [] else [.mask m]

/-- The arithmetic context of the executing instruction (R170, R172, R182). -/
def vCtx (s : State) : VCtx :=
  { mode := modeOf s.cur.ch.rnd, flush := !s.myEng.inter || s.me.csr.compat == 1, ln6 := s.me.csr.compat == 1, sat := s.cur.ch.sat }

/-- A result put in flight; the instruction retires. -/
def fly (lat : Nat) (f : Flight) (s : State) : State :=
  advance (s.modMe fun t => { t with v := { t.v with flights := t.v.flights ++ [{ f with due := t.v.cyc + lat }] } })

/-- The event record of an instruction with ev = 1 (R193, R225, R281): source and count, with the block serial. -/
def vEvent (s : State) (src count : Nat) : Option Nat :=
  if s.cur.ch.ev then some (src * 2 ^ 48 + count % 2 ^ 16 * 2 ^ 32 + s.myEng.serial % 2 ^ 32) else none

/-- The result of an instruction: f gives element e of size esz and its status where els has bit e (R188, R190, R193). -/
def vResult (lat : Nat) (dst : VDst) (esz n els : Nat) (f : Nat → Nat × Nat) (s : State) : State :=
  let rs := (List.range n).map fun e => if bitOf els e then f e else (0, 0)
  let st := rs.foldl (fun a r => a ||| r.2) 0
  fly lat { dst := dst, data := Mem.ofBytes 0 (rs.flatMap fun r => natToBytes esz r.1), els := els, esz := esz, vst := st,
            ev := vEvent s 2 (rs.filter fun r => r.2 != 0).length } s

/-- An instruction of VA or VI with a write mask: op has the context, the type, the entries read and the element. -/
def vMasked (lat d ty : Nat) (qs : List (Nat × Nat)) (op : VCtx → List Mem → Nat → Nat × Nat) (s : State) : State :=
  let m := s.cur.ch.mask
  vIssue { qs := qs, reads := maskReads m, dst := some (vDst d) } (fun vals s =>
    let n := tyCount ty
    vResult lat (vDst d) (tySize ty) n (maskT s.me m n) (op (vCtx s) vals) s) s

/-- Element e of the i-th entry read, of type ty. -/
def elOf (ty : Nat) (vals : List Mem) (i e : Nat) : Nat := Mem.elem (vals.getD i []) (tySize ty) e

/-! ### Arithmetic (R194, R195) -/

/-- One floating-point operand, two, three: the operation on flushed inputs, its result flushed. -/
def fp1 (c : VCtx) (f : Fmt) (op : Fmt → Mode → Nat → FRes) (a : Nat) : Nat × Nat :=
  let a := c.input f a
  c.output f [a] (op f c.mode a)
def fp2 (c : VCtx) (f : Fmt) (op : Fmt → Mode → Nat → Nat → FRes) (a b : Nat) : Nat × Nat :=
  let a := c.input f a
  let b := c.input f b
  c.output f [a, b] (op f c.mode a b)
def fp3 (c : VCtx) (f : Fmt) (op : Fmt → Mode → Nat → Nat → Nat → FRes) (a b z : Nat) : Nat × Nat :=
  let a := c.input f a
  let b := c.input f b
  let z := c.input f z
  c.output f [a, b, z] (op f c.mode a b z)

/-- An instruction with two sources: fop on floats, iop on exact integers. -/
def vBinary (lat d a px b qx ty : Nat) (fop : Fmt → Mode → Nat → Nat → FRes) (iop : Int → Int → Int) (s : State) : State :=
  vMasked lat d ty [(a, px), (b, qx)] (fun c vals e =>
    let x := elOf ty vals 0 e
    let y := elOf ty vals 1 e
    if tyFloat ty then fp2 c (tyFmt ty) fop x y else intNarrow ty c.sat (iop (tyInt ty x) (tyInt ty y))) s

/-- An instruction with one source. -/
def vUnary (lat d a px ty : Nat) (fop : Fmt → Mode → Nat → FRes) (iop : Int → Int) (s : State) : State :=
  vMasked lat d ty [(a, px)] (fun c vals e =>
    let x := elOf ty vals 0 e
    if tyFloat ty then fp1 c (tyFmt ty) fop x else intNarrow ty c.sat (iop (tyInt ty x))) s

/-- An instruction with three floating-point sources. -/
def vTernary (lat d a px b qx cx rl ty : Nat) (fop : Fmt → Mode → Nat → Nat → Nat → FRes) (s : State) : State :=
  vMasked lat d ty [(a, px), (b, qx), (cx, rl)] (fun c vals e =>
    fp3 c (tyFmt ty) fop (elOf ty vals 0 e) (elOf ty vals 1 e) (elOf ty vals 2 e)) s

/-- An instruction on the bits of two sources. -/
def vBits (lat d a px b qx ty : Nat) (op : Nat → Nat → Nat) (s : State) : State :=
  vMasked lat d ty [(a, px), (b, qx)] (fun _ vals e => (op (elOf ty vals 0 e) (elOf ty vals 1 e), 0)) s

/-- a × b - c with one rounding. -/
def fFms (f : Fmt) (m : Mode) (a b c : Nat) : FRes := fFma f m a b (if f.isNaN c then c else f.flip c)
/-- a with its sign cleared, a with its sign inverted. -/
def fAbs (f : Fmt) (_ : Mode) (a : Nat) : FRes := if f.isNaN a then .ofNaN f else .exact (a % f.sign)
def fNeg (f : Fmt) (_ : Mode) (a : Nat) : FRes := if f.isNaN a then .ofNaN f else .exact (f.flip a)

/-- The exact product of an integer and 2^c; past 2^64 it lies outside every type alike. -/
def shiftUp (ty a c : Nat) : Int := tyInt ty a * (2 : Int) ^ Nat.min c 64
/-- Bits of a shifted right by c with zeros in; floor (a / 2^c). -/
def shiftDown (ty a c : Nat) : Nat := if tyBits ty ≤ c then 0 else a / 2 ^ c
def shiftArith (ty a c : Nat) : Nat :=
  if tySigned ty then wrapN (tyInt ty a / (2 : Int) ^ Nat.min c 64) (tyBits ty) else shiftDown ty a c

/-- d ← a + b (R194). -/
def execVadd (d a px b qx ty : Nat) (s : State) : Result :=
  .next (vBinary 3 d a px b qx ty fAdd (fun x y => x + y) s)

/-- d ← a − b (R194). -/
def execVsub (d a px b qx ty : Nat) (s : State) : Result :=
  .next (vBinary 3 d a px b qx ty fSub (fun x y => x - y) s)

/-- d ← a × b (R194). -/
def execVmul (d a px b qx ty : Nat) (s : State) : Result :=
  .next (vBinary 4 d a px b qx ty fMul (fun x y => x * y) s)

/-- d ← a × b + c with one rounding (R194). -/
def execVfma (d a px b qx cx rl ty : Nat) (s : State) : Result :=
  .next (vTernary 4 d a px b qx cx rl ty fFma s)

/-- d ← a × b − c with one rounding (R194). -/
def execVfms (d a px b qx cx rl ty : Nat) (s : State) : Result :=
  .next (vTernary 4 d a px b qx cx rl ty fFms s)

/-- d ← the smaller of a and b, −0 below +0 (R194). -/
def execVmin (d a px b qx ty : Nat) (s : State) : Result :=
  .next (vBinary 3 d a px b qx ty (fun f _ => fMin f) (fun x y => min x y) s)

/-- d ← the larger of a and b (R194). -/
def execVmax (d a px b qx ty : Nat) (s : State) : Result :=
  .next (vBinary 3 d a px b qx ty (fun f _ => fMax f) (fun x y => max x y) s)

/-- d ← |a| (R194). -/
def execVabs (d a px ty : Nat) (s : State) : Result :=
  .next (vUnary 3 d a px ty fAbs (fun x => (x.natAbs : Int)) s)

/-- d ← −a (R194). -/
def execVneg (d a px ty : Nat) (s : State) : Result :=
  .next (vUnary 3 d a px ty fNeg (fun x => -x) s)

/-- d ← a and b on the bits (R194). -/
def execVand (d a px b qx ty : Nat) (s : State) : Result :=
  .next (vBits 3 d a px b qx ty (fun x y => x &&& y) s)

/-- d ← a or b on the bits (R194). -/
def execVor (d a px b qx ty : Nat) (s : State) : Result :=
  .next (vBits 3 d a px b qx ty (fun x y => x ||| y) s)

/-- d ← a xor b on the bits (R194). -/
def execVxor (d a px b qx ty : Nat) (s : State) : Result :=
  .next (vBits 3 d a px b qx ty (fun x y => x ^^^ y) s)

/-- d ← a × 2^c, wrapped or clamped, with c the bits of b (R194). -/
def execVshl (d a px b qx ty : Nat) (s : State) : Result :=
  .next (vMasked 3 d ty [(a, px), (b, qx)] (fun c vals e =>
    intNarrow ty c.sat (shiftUp ty (elOf ty vals 0 e) (elOf ty vals 1 e))) s)

/-- d ← bits of a shifted right by c, zeros in (R194). -/
def execVshr (d a px b qx ty : Nat) (s : State) : Result :=
  .next (vBits 3 d a px b qx ty (shiftDown ty) s)

/-- d ← floor(a / 2^c) of a signed a; an unsigned a as vshr (R194). -/
def execVsra (d a px b qx ty : Nat) (s : State) : Result :=
  .next (vBits 3 d a px b qx ty (shiftArith ty) s)

/-- d ← 1 / a (R194, R195). -/
def execVrcp (d a px ty : Nat) (s : State) : Result :=
  .next (vUnary 10 d a px ty fRcp (fun x => x) s)

/-- d ← 1 / √a (R194, R195). -/
def execVrsq (d a px ty : Nat) (s : State) : Result :=
  .next (vUnary 10 d a px ty fRsq (fun x => x) s)

/-- d ← 2^a (R194, R195). -/
def execVexp2 (d a px ty : Nat) (s : State) : Result :=
  .next (vUnary 10 d a px ty fExp2 (fun x => x) s)

/-- d ← log2 a (R194, R195). -/
def execVlog2 (d a px ty : Nat) (s : State) : Result :=
  .next (vUnary 10 d a px ty fLog2 (fun x => x) s)

/-- d ← √a (R194, R195). -/
def execVsqrt (d a px ty : Nat) (s : State) : Result :=
  .next (vUnary 10 d a px ty fSqrt (fun x => x) s)

/-- d ← a / b (R194, R195). -/
def execVdiv (d a px b qx ty : Nat) (s : State) : Result :=
  .next (vBinary 14 d a px b qx ty fDiv (fun x _ => x) s)

/-! ### Compare, select and mask logic (R196-R198) -/

/-- A condition on two elements (R196): cond as its code; −0 equals +0; a NaN is unordered. -/
def compareEl (c : VCtx) (ty cond x y : Nat) : Bool :=
  let verdict (eq lt : Bool) : Bool :=
    match cond with
    | 0 => eq
    | 1 => !eq
    | 2 => lt && !eq
    | 3 => lt || eq
    | 4 => !lt && !eq
    | 5 => !lt
    | _ => false
  if tyFloat ty then
    let f := tyFmt ty
    let x := c.input f x
    let y := c.input f y
    if f.isNaN x || f.isNaN y then cond == 1 || cond == 6
    else
      let eq := x == y || (f.isZero x && f.isZero y)
      verdict eq (!eq && fBelow f x y)
  else verdict (tyInt ty x == tyInt ty y) (decide (tyInt ty x < tyInt ty y))

/-- The result of an instruction that writes mask register md: value v gives each element, els those written. -/
def maskResult (lat md els : Nat) (v : List Nat) (jst : Nat) (s : State) : State :=
  fly lat { dst := .mask md, data := Mem.wrN [] 0 256 (packBits 2 v), els := els, esz := 1, jst := jst } s

/-- A compare by a condition code. -/
def vCompare (cond md a px b qx ty : Nat) (s : State) : State :=
  let m := s.cur.ch.mask
  vIssue { qs := [(a, px), (b, qx)], reads := maskReads m, dst := some (.mask md) } (fun vals s =>
    let n := tyCount ty
    maskResult 2 md (maskT s.me m n)
      ((List.range n).map fun e => b2n (compareEl (vCtx s) ty cond (elOf ty vals 0 e) (elOf ty vals 1 e))) 0 s) s

/-- Mask elements T where a equals b (R196). -/
def execVcmpEq (md a px b qx ty : Nat) (s : State) : Result :=
  .next (vCompare 0 md a px b qx ty s)

/-- Mask elements T where a differs from b or either is a NaN (R196). -/
def execVcmpNe (md a px b qx ty : Nat) (s : State) : Result :=
  .next (vCompare 1 md a px b qx ty s)

/-- Mask elements T where a is less than b (R196). -/
def execVcmpLt (md a px b qx ty : Nat) (s : State) : Result :=
  .next (vCompare 2 md a px b qx ty s)

/-- Mask elements T where a is at most b (R196). -/
def execVcmpLe (md a px b qx ty : Nat) (s : State) : Result :=
  .next (vCompare 3 md a px b qx ty s)

/-- Mask elements T where a is greater than b (R196). -/
def execVcmpGt (md a px b qx ty : Nat) (s : State) : Result :=
  .next (vCompare 4 md a px b qx ty s)

/-- Mask elements T where a is at least b (R196). -/
def execVcmpGe (md a px b qx ty : Nat) (s : State) : Result :=
  .next (vCompare 5 md a px b qx ty s)

/-- Mask elements T where either operand is a NaN (R196). -/
def execVcmpUo (md a px b qx ty : Nat) (s : State) : Result :=
  .next (vCompare 6 md a px b qx ty s)

/-- d ← a, b or c by the mask element T, F or U (R197). -/
def execVsel (d a px b qx cx rl ty : Nat) (s : State) : Result :=
  let m := s.cur.ch.mask
  .next (vIssue { qs := [(a, px), (b, qx), (cx, rl)], reads := maskReads m, dst := some (vDst d) } (fun vals s =>
    let n := tyCount ty
    vResult 2 (vDst d) (tySize ty) n (2 ^ n - 1) (fun e =>
      let i := match maskEl s.me m e with | 1 => 0 | 0 => 1 | _ => 2
      (elOf ty vals i e, 0)) s) s)

/-- An instruction of the mask group (R198): f has the elements of its sources. -/
def maskOp (md : Nat) (srcs : List Nat) (f : Task → List Nat) (s : State) : State :=
  vIssue { reads := srcs.flatMap maskReads, dst := some (.mask md) } (fun _ s => maskResult 1 md (2 ^ 1024 - 1) (f s.me) 0 s) s

/-- All elements of a mask. -/
def maskAll (t : Task) (m : Nat) : List Nat := (List.range 1024).map (maskEl t m)

/-- md ← ma and mb in three-valued logic (R198). -/
def execMand (d a b : Nat) (s : State) : Result :=
  .next (maskOp d [a, b] (fun t => (maskAll t a).zipWith and3 (maskAll t b)) s)

/-- md ← ma or mb in three-valued logic (R198). -/
def execMor (d a b : Nat) (s : State) : Result :=
  .next (maskOp d [a, b] (fun t => (maskAll t a).zipWith or3 (maskAll t b)) s)

/-- md ← ma xor mb in three-valued logic (R198). -/
def execMxor (d a b : Nat) (s : State) : Result :=
  .next (maskOp d [a, b] (fun t => (maskAll t a).zipWith xor3 (maskAll t b)) s)

/-- md ← ma with T and F exchanged (R198). -/
def execMnot (d a : Nat) (s : State) : Result :=
  .next (maskOp d [a] (fun t => (maskAll t a).map not3) s)

/-- md ← ma with U made F (R198). -/
def execMknow (d a : Nat) (s : State) : Result :=
  .next (maskOp d [a] (fun t => (maskAll t a).map know3) s)

/-- Whether all elements equal want: T, F where one equals bad, else U (R198). -/
def allOf (l : List Nat) (want bad : Nat) : Nat := if l.all fun v => v == want then 1 else if l.contains bad then 0 else 2

/-- Every element ← whether all of ma is T (R198). -/
def execMall (d a : Nat) (s : State) : Result :=
  .next (maskOp d [a] (fun t => List.replicate 1024 (allOf (maskAll t a) 1 0)) s)

/-- Every element ← whether all of ma is F (R198). -/
def execMnone (d a : Nat) (s : State) : Result :=
  .next (maskOp d [a] (fun t => List.replicate 1024 (allOf (maskAll t a) 0 1)) s)

/-! ### Conversion and block integers (R174-R176, R199-R201) -/

/-- A float converted to an integer type (R174): rounded, then clamped; a clamp and a NaN set sc. -/
def toIntEl (c : VCtx) (f : Fmt) (ty b : Nat) : Nat × Nat :=
  let r := tyRange ty
  match f.val (c.input f b) with
  | .nan => (0, stSc)
  | .inf neg => (wrapN (if neg then r.1 else r.2) (tyBits ty), stSc)
  | .fin _ x =>
    let v := roundInt c.mode x
    (wrapN (clampInt r.1 r.2 v) (tyBits ty), if v < r.1 ∨ r.2 < v then stSc else 0)

/-- One element of source type sx converted to type ty (R174, R182). -/
def cvtEl (c : VCtx) (rnd sx ty b : Nat) : Nat × Nat :=
  if tyFloat sx then
    if tyFloat ty then
      let b := c.input (tyFmt sx) b
      if sx = 1 then
        (if Fmt.bf16.isNaN b then (if c.ln6 then VCtx.quiet .f32 (b * 2 ^ 16) else Fmt.f32.nan) else widen b, 0)
      else if Fmt.f32.isNaN b then (if c.ln6 then VCtx.quiet .bf16 (b / 2 ^ 16) else Fmt.bf16.nan, 0)
      else c.output .bf16 [] (narrow (if c.ln6 ∧ rnd = 0 then .rtz else c.mode) b)
    else toIntEl c (tyFmt sx) ty b
  else if tyFloat ty then
    c.output (tyFmt ty) [] (.ofPair (roundDy (tyFmt ty) c.mode false (Dy.ofInt (tyInt sx b))))
  else if tySize sx < tySize ty then (wrapN (tyInt sx b) (tyBits ty), 0)
  else intNarrow ty c.sat (tyInt sx b)

/-- Converts elements between types, one part at a time (R199). -/
def execVcvt (d a px sx xx ty : Nat) (s : State) : Result :=
  let m := s.cur.ch.mask
  .next (vIssue { qs := [(a, px)], reads := maskReads m, dst := some (vDst d) } (fun vals s =>
    let ns := tyCount sx
    let nd := tyCount ty
    let first := if ns < nd then xx * ns else 0
    let count := Nat.min ns nd
    let els := maskT s.me m nd &&& ((2 ^ count - 1) * 2 ^ first)
    let from_ := if nd < ns then xx * nd else 0
    vResult 3 (vDst d) (tySize ty) nd els (fun e =>
      cvtEl (vCtx s) s.cur.ch.rnd sx ty (elOf sx vals 0 (from_ + e - first))) s) s)

/-- The element width of a width code (R200). -/
def biBits : Nat → Nat
  | 0 => 8
  | 1 => 6
  | 2 => 4
  | _ => 2

/-- A block of patterns of format f quantised to w bits (R176): its scale code and element codes. -/
def quantise (f : Fmt) (w : Nat) (xs : List Nat) : Nat × List Nat :=
  if xs.any f.isNaN then (255, xs.map fun _ => 0)
  else
    let m := xs.foldl (fun m x => Nat.max m (x % f.sign)) 0
    let lim : Int := (2 ^ (w - 1) : Nat) - 1
    let sc : Int :=
      if m = 0 then -127
      else if m = f.inf then 127
      else
        let v := f.magVal m
        clampInt (-127) 127 ((Nat.log2 v.m.natAbs : Int) + v.e - (w - 2))
    ((sc + 127).toNat, xs.map fun x =>
      match f.val x with
      | .nan => 0
      | .inf neg => wrapN (if neg then -lim else lim) w
      | .fin _ v => wrapN (clampInt (-lim) lim (roundInt .rne (Dy.scale v (-sc)))) w)

/-- An entry quantised (R200). -/
def quantEntry (f : Fmt) (w : Nat) (xs : List Nat) : Mem :=
  let blocks := (List.range (xs.length / 32)).map fun k => quantise f w ((xs.drop (32 * k)).take 32)
  let stream := packBits w (blocks.flatMap Prod.snd)
  (Mem.ofBytes 0 (natToBytes (xs.length * w / 8) stream)) ++ Mem.ofBytes 1008 (blocks.map fun b => BitVec.ofNat 8 b.1)

/-- Quantises an entry into block-integer blocks with scales (R200). -/
def execVqnt (d a px wx ty : Nat) (s : State) : Result :=
  .next (vIssue { qs := [(a, px)], dst := some (vDst d) } (fun vals s =>
    let c := vCtx s
    let f := tyFmt ty
    let xs := (List.range (tyCount ty)).map fun e => c.input f (elOf ty vals 0 e)
    fly 6 { dst := vDst d, data := quantEntry f (biBits wx) xs, els := 2 ^ 1024 - 1, esz := 1 } s) s)

/-- Dequantises a block-integer entry (R201). -/
def execVdeq (d a px wx ty : Nat) (s : State) : Result :=
  .next (vMasked 3 d ty [(a, px)] (fun c vals e =>
    let m := vals.getD 0 []
    let w := biBits wx
    let sc := (m.get (1008 + e / 32)).toNat
    let bit := e * w
    let q := sext (slice (m.rdN (bit / 8) 2) (bit % 8) w) w
    if sc = 255 then ((tyFmt ty).nan, 0)
    else c.output (tyFmt ty) [] (.ofPair (roundDy (tyFmt ty) c.mode false ⟨q, (sc : Int) - 127⟩))) s)

/-! ### Reductions (R183, R202) -/

/-- The identity of a reduction: kind 0 sum, 1 max, 2 min, as an f32 pattern. -/
def fIdentity (kind : Nat) : Nat :=
  match kind with
  | 0 => Fmt.f32.sign
  | 1 => Fmt.f32.withSign true Fmt.f32.inf
  | _ => Fmt.f32.inf

/-- Addition in a tree of (f32 pattern, status). -/
def addTree (x y : Nat × Nat) : Nat × Nat :=
  let r := fAdd .f32 .rne x.1 y.1
  (r.b, x.2 ||| y.2 ||| (if r.nv then stNv else 0) ||| (if r.of then stOf else 0))

/-- The reduction of floating-point elements; els are those that take part. -/
def reduceF (c : VCtx) (kind ty n els : Nat) (x : Nat → Nat) : Nat × Nat :=
  let f := tyFmt ty
  let part := ((List.range n).filter (bitOf els)).map fun e => c.input f (x e)
  match part.find? f.isNaN with
  | some b => (c.nanOf f [b], 0)
  | none =>
    let leaf (e : Nat) : Nat := if bitOf els e then toF32 f (c.input f (x e)) else fIdentity kind
    if kind = 0 then
      let y := treeSum addTree (fun e => (leaf e, 0)) 10 0 n
      if Fmt.f32.isNaN y.1 then (f.nan, y.2)
      else
        let r := ofF32 f c.mode y.1
        (if c.flush then f.flush r.b else r.b, y.2 ||| (if r.of then stOf else 0))
    else
      let op (p q : Nat) : Nat := if kind = 1 then (fMax .f32 p q).b else (fMin .f32 p q).b
      let y := treeSum op leaf 10 0 n
      ((ofF32 f .rne y).b, 0)

/-- The reduction of integer elements. -/
def reduceI (c : VCtx) (kind ty n els : Nat) (x : Nat → Nat) : Nat × Nat :=
  let r := tyRange ty
  let id : Int := match kind with | 0 => 0 | 1 => r.1 | _ => r.2
  let leaf (e : Nat) : Int := if bitOf els e then tyInt ty (x e) else id
  if kind = 0 then
    let y := treeSum (fun (p q : Int × Nat) =>
      let z := intNarrow ty c.sat (p.1 + q.1)
      (tyInt ty z.1, p.2 ||| q.2 ||| z.2)) (fun e => (leaf e, 0)) 10 0 n
    (wrapN y.1 (tyBits ty), y.2)
  else (wrapN (treeSum (fun p q => if kind = 1 then max p q else min p q) leaf 10 0 n) (tyBits ty), 0)

/-- A reduction to element 0; every other element becomes zero bits. -/
def vReduce (kind d a px ty : Nat) (s : State) : State :=
  let m := s.cur.ch.mask
  vIssue { qs := [(a, px)], reads := maskReads m, dst := some (vDst d) } (fun vals s =>
    let n := tyCount ty
    let els := maskT s.me m n
    let r := (if tyFloat ty then reduceF else reduceI) (vCtx s) kind ty n els (elOf ty vals 0)
    vResult 8 (vDst d) (tySize ty) n (2 ^ n - 1) (fun e => if e = 0 then r else (0, 0)) s) s

/-- Element 0 of d ← the sum of the elements of a (R202). -/
def execVredsum (d a px ty : Nat) (s : State) : Result :=
  .next (vReduce 0 d a px ty s)

/-- Element 0 of d ← the maximum of the elements of a (R202). -/
def execVredmax (d a px ty : Nat) (s : State) : Result :=
  .next (vReduce 1 d a px ty s)

/-- Element 0 of d ← the minimum of the elements of a (R202). -/
def execVredmin (d a px ty : Nat) (s : State) : Result :=
  .next (vReduce 2 d a px ty s)

/-! ### Moves and permutes (R203, R204) -/

/-- Permutes elements by n16 indices: those of qb, past 512 those of qc, which only 8-bit types read (R203). -/
def execVperm (d a px b qx cx rl ty : Nat) (s : State) : Result :=
  .next (vMasked 6 d ty ([(a, px), (b, qx)] ++ if tySize ty = 1 then [(cx, rl)] else []) (fun _ vals e =>
    let i := if e < 512 then elOf 5 vals 1 e else elOf 5 vals 2 (e - 512)
    (elOf ty vals 0 (i % tyCount ty), 0)) s)

/-- Rotates the elements of an entry: d[e] ← a[(e + amt) mod n] (R203, R204). -/
def execVrot (d a px nx ty : Nat) (s : State) : Result :=
  let amt := immValue s.cur.ch nx 8
  .next (vMasked 2 d ty [(a, px)] (fun _ vals e =>
    (elOf ty vals 0 (((e : Int) + amt) % (tyCount ty : Nat)).toNat, 0)) s)

/-- Broadcasts the element that the first n16 of qb names (R203). -/
def execVbcast (d a px b qx ty : Nat) (s : State) : Result :=
  .next (vMasked 2 d ty [(a, px), (b, qx)] (fun _ vals _ => (elOf ty vals 0 (elOf 5 vals 1 0 % tyCount ty), 0)) s)

/-- d[e] ← imm + e (R203). -/
def execViota (d imm ty : Nat) (s : State) : Result :=
  let v := immValue s.cur.ch imm 12
  .next (vMasked 2 d ty [] (fun c _ e =>
    if tyFloat ty then ((roundDy (tyFmt ty) c.mode false (Dy.ofInt (v + e))).1, 0) else intNarrow ty c.sat (v + e)) s)

/-- A bf16 immediate in a floating-point type (R180). -/
def fImmediate (c : VCtx) (ty v : Nat) : Nat :=
  if Fmt.bf16.isNaN v then (tyFmt ty).nan
  else
    let b := c.input .bf16 v
    if ty = 0 then widen b else b

/-- d[e] ← imm (R180, R203). -/
def execVsplat (d imm ty : Nat) (s : State) : Result :=
  let v := immValue s.cur.ch imm 12
  .next (vMasked 2 d ty [] (fun c _ _ =>
    if tyFloat ty then (fImmediate c ty (wrapN v 16), 0) else intNarrow ty c.sat v) s)

/-- d ← a (R203). -/
def execVmov (d a px ty : Nat) (s : State) : Result :=
  .next (vMasked 2 d ty [(a, px)] (fun _ vals e => (elOf ty vals 0 e, 0)) s)

/-- d ← zero bits (R203). -/
def execVclr (d ty : Nat) (s : State) : Result := .next (vMasked 2 d ty [] (fun _ _ _ => (0, 0)) s)

/-! ### Feeding, draining and marking (R205-R207) -/

/-- Reads underfile entry E into qN, where it stands 12 cycles later (R205). -/
def execVpf (ex qx : Nat) (s : State) : Result :=
  .next (issue false (fun s =>
    let s := cycleV s s.key
    let t := s.me
    if !inFile s ex 1 then trap 56 s
    else if s.myEng.inter ∧ inFlight t (.entry ex) then waitFor .retry s
    else if 4 ≤ opqPlaces t qx then trap 52 s
    else declare [(ufSpace s.cur.core, ex, ex, false)] 0 none false
      (fun s => fly 12 { dst := .opq qx, data := Sparse.window s.myCore.uf (1024 * ex) 1024 } s) s) s)

/-- Pops qN and writes its first 64 bits to sD, 4 cycles later (R206). -/
def execVtos (sx qx : Nat) (s : State) : Result :=
  .next (vIssue { qs := [(qx, 0)], dst := some (.sreg sx) } (fun vals s =>
    fly 4 { dst := .sreg sx, data := Sparse.window (vals.getD 0 []) 0 8, serial := s.myEng.serial } s) s)

/-- The cycle in which the last result in flight lands. -/
def lastDue (v : VUnit) : Nat := v.flights.foldl (fun m f => Nat.max m f.due) v.cyc

/-- Writes a token that completes when every earlier result has landed (R207); without tko it only takes its cycle. -/
def execVmark (s : State) : Result :=
  let prod := (s.cur.ch.tko.getD 0) != 0
  .next (issue prod (fun s =>
    let s := cycleV s s.key
    if !prod then advance s
    else
      declare [] (nextSeq s) none true (fun s =>
        let r := newToken s
        if r.2.me.v.flights.isEmpty then advance (completeToken r.2 r.2.key .v r.1)
        else advance (r.2.modMe fun t =>
          { t with v := { t.v with flights := t.v.flights ++ [{ dst := .mark r.1, due := lastDue t.v }] } })) s) s)

/-- Results of V land at their landing cycle (R190). -/
def execVResultLanding (core bank : Nat) (s : State) : Result := .next (landDue s (tkey core bank))

end Sys2Proof.Machine
end

