-- ==== Sys2Proof/Machine/IntervalUnit.lean ====
section
/-!
DEFINITION. The interval unit (12_interval R209-R225): it issues as V does, and its results land as V's do (R212).
-/

namespace Sys2Proof.Machine

/-! ### Lanes -/

/-- The format, the count and the size in bytes of the lanes of type bit ty (R209). -/
def jFmt (ty : Nat) : Fmt := if ty = 1 then .bf16 else .f32
def jCount (ty : Nat) : Nat := if ty = 1 then 512 else 256
def jSize (ty : Nat) : Nat := if ty = 1 then 4 else 8

/-- The bound patterns of lane e of register r. -/
def jBits (s : State) (ty r e : Nat) : Nat × Nat :=
  let h := jSize ty / 2
  let a := 2048 * r + e * jSize ty
  (s.me.jreg.rdN a h, s.me.jreg.rdN (a + h) h)

/-- Lane e of register r as a set (R178). -/
def jLane (s : State) (ty r e : Nat) : Lane := let b := jBits s ty r e; Lane.ofBits (jFmt ty) b.1 b.2

/-- JST bit nai (R213). -/
def jstNai : Nat := 2 ^ 10
/-- JST bit np. -/
def jstNp : Nat := 2 ^ 9
/-- The group bit of lane e. -/
def jstEmp (ty e : Nat) : Nat := 2 ^ (e / (if ty = 1 then 64 else 32))

/-- A result for register jd: f gives the lane where els has its bit (R179, R212, R213). -/
def jFlight (jd ty n els : Nat) (f : Nat → Lane) : Flight :=
  let ls := (List.range n).map fun e => if bitOf els e then some (f e) else none
  let h := jSize ty / 2
  { dst := .jreg jd, els := els, esz := jSize ty
    data := Mem.ofBytes 0 (ls.flatMap fun l =>
      match l with
      | some l => let b := Lane.bits (jFmt ty) l; natToBytes h b.1 ++ natToBytes h b.2
      | none => natToBytes (2 * h) 0)
    jst := if ls.any (fun l => l == some .nai) then jstNai else 0 }

/-- Several results of one instruction put in flight in one cycle; it retires (R212). -/
def flyAll (lat : Nat) (fs : List Flight) (s : State) : State :=
  advance (s.modMe fun t => { t with v := { t.v with flights := t.v.flights ++ fs.map fun f => { f with due := t.v.cyc + lat } } })

/-- What an interval instruction touches: the registers that it reads, its mask, its queues, its destination. -/
def jReq (regs : List Nat) (m : Nat) (qs : List (Nat × Nat)) (dst : Option VDst) : VReq :=
  { base := 72, qs := qs, reads := regs.map VDst.jreg ++ maskReads m, dst := dst }

/-! ### Forward operations (R215) -/

/-- A forward operation on the lanes whose mask element is T. -/
def jForwardOp (op : JOp) (lat jd a b ty : Nat) (s : State) : State :=
  let m := s.cur.ch.mask
  vIssue (jReq (if op.two then [a, b] else [a]) m [] (some (.jreg jd))) (fun _ s =>
    let n := jCount ty
    fly lat (jFlight jd ty n (maskT s.me m n) fun e => jForward op (jLane s ty a e) (jLane s ty b e)) s) s

/-- jd ← u + v (R215). -/
def execJadd (jd a b ty : Nat) (s : State) : Result :=
  .next (jForwardOp .add 4 jd a b ty s)

/-- jd ← u − v (R215). -/
def execJsub (jd a b ty : Nat) (s : State) : Result :=
  .next (jForwardOp .sub 4 jd a b ty s)

/-- jd ← u × v (R215). -/
def execJmul (jd a b ty : Nat) (s : State) : Result :=
  .next (jForwardOp .mul 6 jd a b ty s)

/-- jd ← u / v (R215). -/
def execJdiv (jd a b ty : Nat) (s : State) : Result :=
  .next (jForwardOp .div 16 jd a b ty s)

/-- jd ← max(u, v) (R215). -/
def execJmax (jd a b ty : Nat) (s : State) : Result :=
  .next (jForwardOp .max 2 jd a b ty s)

/-- jd ← min(u, v) (R215). -/
def execJmin (jd a b ty : Nat) (s : State) : Result :=
  .next (jForwardOp .min 2 jd a b ty s)

/-- jd ← the smallest interval that holds both operands (R215). -/
def execJhull (jd a b ty : Nat) (s : State) : Result :=
  .next (jForwardOp .hull 2 jd a b ty s)

/-- jd ← the intersection (R215). -/
def execJisect (jd a b ty : Nat) (s : State) : Result :=
  .next (jForwardOp .isect 2 jd a b ty s)

/-- jd ← u² (R215). -/
def execJsqr (jd a ty : Nat) (s : State) : Result :=
  .next (jForwardOp .sqr 5 jd a a ty s)

/-- jd ← √u (R215). -/
def execJsqrt (jd a ty : Nat) (s : State) : Result :=
  .next (jForwardOp .sqrt 12 jd a a ty s)

/-- jd ← 2^u (R215). -/
def execJexp2 (jd a ty : Nat) (s : State) : Result :=
  .next (jForwardOp .exp2 12 jd a a ty s)

/-- jd ← |u| (R215). -/
def execJabs (jd a ty : Nat) (s : State) : Result :=
  .next (jForwardOp .abs 2 jd a a ty s)

/-- jd ← −u (R215). -/
def execJneg (jd a ty : Nat) (s : State) : Result :=
  .next (jForwardOp .neg 2 jd a a ty s)

/-! ### Building (R216, R217) -/

/-- Builds intervals from two queue entries of bounds (R216). -/
def execJmkPair (jd px a qx b ty : Nat) (s : State) : Result :=
  let m := s.cur.ch.mask
  .next (vIssue (jReq [] m [(a, px), (b, qx)] (some (.jreg jd))) (fun vals s =>
    let n := jCount ty
    fly 2 (jFlight jd ty n (maskT s.me m n) fun e =>
      Lane.ofBits (jFmt ty) (elOf ty vals 0 e) (elOf ty vals 1 e)) s) s)

/-- Builds point intervals from one queue entry (R216). -/
def execJmkPoint (jd px a ty : Nat) (s : State) : Result :=
  let m := s.cur.ch.mask
  .next (vIssue (jReq [] m [(a, px)] (some (.jreg jd))) (fun vals s =>
    let n := jCount ty
    fly 2 (jFlight jd ty n (maskT s.me m n) fun e =>
      Lane.ofBits (jFmt ty) (elOf ty vals 0 e) (elOf ty vals 0 e)) s) s)

/-- Writes the point of a bf16 immediate, in if32, to every masked lane (R217). -/
def execJsplat (jd imm : Nat) (s : State) : Result :=
  let m := s.cur.ch.mask
  .next (vIssue (jReq [] m [] (some (.jreg jd))) (fun _ s =>
    fly 2 (jFlight jd 0 256 (maskT s.me m 256) fun _ => Lane.ofBits .f32 (widen imm) (widen imm)) s) s)

/-! ### Extraction (R218, R219) -/

/-- A pattern with -0 made +0. -/
def plusZero (f : Fmt) (b : Nat) : Nat := if f.isZero b then 0 else b

/-- The exact value of a finite bound. -/
def dyOf (f : Fmt) (b : Nat) : Dy := match f.val b with | .fin _ x => x | _ => Dy.zero

/-- The midpoint of an ordinary lane (R218). -/
def midBits (f : Fmt) (lo hi : Nat) : Nat :=
  match f.isInf lo, f.isInf hi with
  | false, false => plusZero f (roundDy f .rne false (Dy.scale (Dy.add (dyOf f lo) (dyOf f hi)) (-1))).1
  | true, true => 0
  | true, false => f.withSign true f.maxFin
  | false, true => f.maxFin

/-- An exact magnitude rounded up. -/
def upBits (f : Fmt) (x : Dy) : Nat := plusZero f (roundDy f .rup false x).1

/-- The larger of two exact values. -/
def dyMax (x y : Dy) : Dy := if Dy.lt x y then y else x

/-- One element of an extraction (R218): kind 0 lo, 1 hi, 2 mid, 3 rad, 4 wid. -/
def extractEl (f : Fmt) (kind : Nat) (b : Nat × Nat) : Nat :=
  match Lane.ofBits f b.1 b.2 with
  | .nai => f.nan
  | .empty => if kind = 0 then f.inf else if kind = 1 then f.withSign true f.inf else f.nan
  | .set _ _ =>
    let unbounded := f.isInf b.1 || f.isInf b.2
    match kind with
    | 0 => plusZero f b.1
    | 1 => plusZero f b.2
    | 2 => midBits f b.1 b.2
    | 3 =>
      if unbounded then f.inf
      else
        let mid := dyOf f (midBits f b.1 b.2)
        upBits f (dyMax (Dy.sub mid (dyOf f b.1)) (Dy.sub (dyOf f b.2) mid))
    | _ => if unbounded then f.inf else upBits f (Dy.sub (dyOf f b.2) (dyOf f b.1))

/-- An extraction to entry 32 d + ex. -/
def jExtract (kind d a ex ty : Nat) (s : State) : State :=
  let m := s.cur.ch.mask
  let dst := vDst (32 * d + ex)
  vIssue (jReq [a] m [] (some dst)) (fun _ s =>
    let n := jCount ty
    let els := maskT s.me m n
    let h := jSize ty / 2
    fly 3 { dst := dst, els := els, esz := h
            data := Mem.ofBytes 0 ((List.range n).flatMap fun e =>
              natToBytes h (if bitOf els e then extractEl (jFmt ty) kind (jBits s ty a e) else 0)) } s) s

/-- Extracts lower bounds to an entry (R218). -/
def execJlo (d a ex ty : Nat) (s : State) : Result :=
  .next (jExtract 0 d a ex ty s)

/-- Extracts upper bounds to an entry (R218). -/
def execJhi (d a ex ty : Nat) (s : State) : Result :=
  .next (jExtract 1 d a ex ty s)

/-- Extracts midpoints to an entry (R218). -/
def execJmid (d a ex ty : Nat) (s : State) : Result :=
  .next (jExtract 2 d a ex ty s)

/-- Extracts radii to an entry (R218). -/
def execJrad (d a ex ty : Nat) (s : State) : Result :=
  .next (jExtract 3 d a ex ty s)

/-- Extracts widths to an entry (R218). -/
def execJwid (d a ex ty : Nat) (s : State) : Result :=
  .next (jExtract 4 d a ex ty s)

/-- Copies the raw bits of half hx of a register to an entry (R219). -/
def execJst (d a ex hx : Nat) (s : State) : Result :=
  let dst := vDst (32 * d + ex)
  .next (vIssue (jReq [a] 0 [] (some dst)) (fun _ s =>
    fly 2 { dst := dst, data := Sparse.window s.me.jreg (2048 * a + 1024 * hx) 1024, els := 2 ^ 1024 - 1, esz := 1 } s) s)

/-- Converts intervals between if32 and ibf16 (R220); ty names the destination format, px the part. -/
def execJcvt (jd a px ty : Nat) (s : State) : Result :=
  let m := s.cur.ch.mask
  .next (vIssue (jReq [a] m [] (some (.jreg jd))) (fun _ s =>
    let n := jCount ty
    let mask := maskT s.me m n
    let els := if ty = 1 then mask &&& ((2 ^ 256 - 1) * 2 ^ (256 * px)) else mask
    fly 3 (jFlight jd ty n els fun e =>
      jLane s (1 - ty) a (if ty = 1 then e - 256 * px else 256 * px + e)) s) s)

/-- Sums the lanes of a register outward in the fixed tree (R183, R221). -/
def execJredsum (jd a ty : Nat) (s : State) : Result :=
  let m := s.cur.ch.mask
  .next (vIssue (jReq [a] m [] (some (.jreg jd))) (fun _ s =>
    let n := jCount ty
    let f := jFmt ty
    let els := maskT s.me m n
    let part := ((List.range n).filter (bitOf els)).map (jLane s ty a)
    let add (x y : Nat × Nat) : Nat × Nat := Lane.bits f (jForward .add (Lane.ofBits f x.1 x.2) (Lane.ofBits f y.1 y.2))
    let sum : Lane :=
      if part.contains .nai then .nai
      else if part.contains .empty then .empty
      else
        let b := treeSum add (fun e => if bitOf els e then jBits s ty a e else (0, 0)) 10 0 n
        Lane.ofBits f b.1 b.2
    fly 10 (jFlight jd ty n (2 ^ n - 1) fun e => if e = 0 then sum else Lane.set .zero .zero) s) s)

/-! ### Comparisons (R222, R223) -/

/-- The sets of two ordinary lanes have no common point. -/
def disjoint (al ah bl bh : ERl) : Bool := ERl.lt ah bl || ERl.lt bh al

/-- A three-valued verdict: T, F or undecided. -/
def verdict3 (t f : Bool) : Nat := if t then 1 else if f then 0 else 2

/-- One element of a comparison by its fn (R222). -/
def jCompareEl (fn : Nat) (a b : Lane) : Nat :=
  match a, b with
  | .nai, _ => 2
  | _, .nai => 2
  | .empty, .empty => if 4 ≤ fn then 1 else 2
  | .empty, .set _ _ => if 4 ≤ fn then 1 else 2
  | .set _ _, .empty => if fn = 4 then 0 else if fn = 5 then 1 else 2
  | .set al ah, .set bl bh =>
    let point := ERl.cmp al ah == .eq && ERl.cmp bl bh == .eq && ERl.cmp al bl == .eq
    let dis := disjoint al ah bl bh
    match fn with
    | 0 => verdict3 (ERl.lt ah bl) (ERl.le bh al)
    | 1 => verdict3 (ERl.le ah bl) (ERl.lt bh al)
    | 2 => verdict3 point dis
    | 3 => verdict3 dis point
    | 4 => if ERl.le bl al && ERl.le ah bh then 1 else 0
    | _ => if dis then 1 else 0

/-- A comparison of two registers into a mask. -/
def jCompare (fn md a b ty : Nat) (s : State) : State :=
  let m := s.cur.ch.mask
  vIssue (jReq [a, b] m [] (some (.mask md))) (fun _ s =>
    let n := jCount ty
    maskResult 2 md (maskT s.me m n) ((List.range n).map fun e => jCompareEl fn (jLane s ty a e) (jLane s ty b e)) 0 s) s

/-- Three-valued comparison of intervals: less than (R222). -/
def execJcmpLt (md a b ty : Nat) (s : State) : Result :=
  .next (jCompare 0 md a b ty s)

/-- Three-valued comparison of intervals: less or equal (R222). -/
def execJcmpLe (md a b ty : Nat) (s : State) : Result :=
  .next (jCompare 1 md a b ty s)

/-- Three-valued comparison of intervals: equal (R222). -/
def execJcmpEq (md a b ty : Nat) (s : State) : Result :=
  .next (jCompare 2 md a b ty s)

/-- Three-valued comparison of intervals: not equal (R222). -/
def execJcmpNe (md a b ty : Nat) (s : State) : Result :=
  .next (jCompare 3 md a b ty s)

/-- Three-valued comparison of intervals: subset (R222). -/
def execJcmpSub (md a b ty : Nat) (s : State) : Result :=
  .next (jCompare 4 md a b ty s)

/-- Three-valued comparison of intervals: disjoint (R222). -/
def execJcmpDis (md a b ty : Nat) (s : State) : Result :=
  .next (jCompare 5 md a b ty s)

/-- Mask elements T for empty lanes, F for ordinary ones, U for NaI (R223). -/
def execJempty (md a ty : Nat) (s : State) : Result :=
  let m := s.cur.ch.mask
  .next (vIssue (jReq [a] m [] (some (.mask md))) (fun _ s =>
    let n := jCount ty
    maskResult 1 md (maskT s.me m n) ((List.range n).map fun e =>
      match jLane s ty a e with | .empty => 1 | .set _ _ => 0 | .nai => 2) 0 s) s)

/-! ### Contractors (R224, R225) -/

/-- The old bound patterns of z, x, y of a lane and their new lanes, with whether the constraint set was empty. -/
structure BkLane where
  old : List (Nat × Nat)
  new : Lane × Lane × Lane
  empty : Bool
deriving DecidableEq, Repr

/-- The new bound patterns of z, x, y, as many as the contractor has variables. -/
def BkLane.news (f : Fmt) (l : BkLane) : List (Nat × Nat) :=
  ([l.new.2.2, l.new.1, l.new.2.1].take l.old.length).map (Lane.bits f)

/-- One lane of a contractor; two tells whether y is read. -/
def bkLane (s : State) (op : JOp) (two : Bool) (z x y ty e : Nat) : BkLane :=
  let ly := if two then jLane s ty y e else .set .ninf .pinf
  let r := jContract op (jLane s ty x e) ly (jLane s ty z e)
  { old := (if two then [z, x, y] else [z, x]).map fun r => jBits s ty r e
    new := (r.1, r.2.1, r.2.2.1)
    empty := r.2.2.2 }

/-- A contractor: its three results land in one cycle, with its status and its event (R212, R214, R224, R225). -/
def jContractOp (op : JOp) (two : Bool) (lat z x y ty : Nat) (s : State) : State :=
  let m := s.cur.ch.mask
  vIssue (jReq (if two then [z, x, y] else [z, x]) m [] none) (fun _ s =>
    let n := jCount ty
    let f := jFmt ty
    let els := maskT s.me m n
    let ls := (List.range n).map fun e => (e, bkLane s op two z x y ty e)
    let used := ls.filter fun l => bitOf els l.1
    let lane (e : Nat) : Lane × Lane × Lane := ((ls[e]?).map fun l => l.2.new).getD (.empty, .empty, .empty)
    let emp := used.foldl (fun a l => if l.2.empty then a ||| jstEmp ty l.1 else a) 0
    let np := used.any fun l => (l.2.old.zip (l.2.news f)).any fun p => narrowed f s.me.csr.npth p.1 p.2
    let count := (used.filter fun l => lanesChanged f (l.2.old.zip (l.2.news f))).length
    let fz := jFlight z ty n els fun e => (lane e).2.2
    let fx := jFlight x ty n els fun e => (lane e).1
    let fy := jFlight y ty n els fun e => (lane e).2.1
    let fz := { fz with jst := fz.jst ||| emp ||| (if np then jstNp else 0), ev := vEvent s 3 count }
    flyAll lat (if two then [fz, fx, fy] else [fz, fx]) s) s

/-- Contracts w = u + v (R225). -/
def execJaddBk (zz xx yy ty : Nat) (s : State) : Result :=
  .next (jContractOp .add true 8 zz xx yy ty s)

/-- Contracts w = u − v (R225). -/
def execJsubBk (zz xx yy ty : Nat) (s : State) : Result :=
  .next (jContractOp .sub true 8 zz xx yy ty s)

/-- Contracts w = u × v (R225). -/
def execJmulBk (zz xx yy ty : Nat) (s : State) : Result :=
  .next (jContractOp .mul true 12 zz xx yy ty s)

/-- Contracts w = u / v (R225). -/
def execJdivBk (zz xx yy ty : Nat) (s : State) : Result :=
  .next (jContractOp .div true 20 zz xx yy ty s)

/-- Contracts w = max(u, v) (R225). -/
def execJmaxBk (zz xx yy ty : Nat) (s : State) : Result :=
  .next (jContractOp .max true 8 zz xx yy ty s)

/-- Contracts w = min(u, v) (R225). -/
def execJminBk (zz xx yy ty : Nat) (s : State) : Result :=
  .next (jContractOp .min true 8 zz xx yy ty s)

/-- Contracts w = u² (R225). -/
def execJsqrBk (zz xx ty : Nat) (s : State) : Result :=
  .next (jContractOp .sqr false 16 zz xx xx ty s)

/-- Contracts w = √u (R225). -/
def execJsqrtBk (zz xx ty : Nat) (s : State) : Result :=
  .next (jContractOp .sqrt false 16 zz xx xx ty s)

/-- Contracts w = 2^u (R225). -/
def execJexp2Bk (zz xx ty : Nat) (s : State) : Result :=
  .next (jContractOp .exp2 false 16 zz xx xx ty s)

/-- Contracts w = |u| (R225). -/
def execJabsBk (zz xx ty : Nat) (s : State) : Result :=
  .next (jContractOp .abs false 8 zz xx xx ty s)

/-- Contracts w = −u (R225). -/
def execJnegBk (zz xx ty : Nat) (s : State) : Result :=
  .next (jContractOp .neg false 8 zz xx xx ty s)

end Sys2Proof.Machine
end

