-- ==== Sys2Proof/Machine/Matrix.lean ====
section
/-!
DEFINITION. The matrix engine (13_matrix R227-R245): the writes of S to the Easel and the format queue, the nest and its checks,
steps, reduction ends and retirements, and the other instructions of M.
-/

namespace Sys2Proof.Machine

/-! ### The Easel and the format queue -/

/-- M of task k has started every instruction before the block that S runs. -/
def matrixReached (s : State) (k : Nat) : Bool :=
  let n := (s.eng k .s).serial
  let x := s.eng k .m
  x.phase == .idle || x.serial == n || (x.phase == .header && (x.serial + 1) % 2 ^ 32 == n)

/-- A running mtile uses Easel bank b: it has not issued its last step (R231). -/
def easelBusy (t : Task) (b : Nat) : Bool :=
  match t.m.run with
  | some r => r.easel == b && decide (r.step < r.total)
  | none => false

/-- Writes sA into word wx of an Easel bank, once M has passed the marker and no running mtile uses the bank (R231). -/
def execEzw (a b wx : Nat) (s : State) : Result :=
  .next (issue false (fun s =>
    if !matrixReached s s.key ∨ easelBusy s.me b then waitFor .retry s
    else advance (s.modMyCore fun c => { c with easel := Sparse.wr 0 c.easel (16 * b + wx) (sv s a) })) s)

/-- Appends sA to the format queue of eight words (R233). -/
def execFpush (a : Nat) (s : State) : Result :=
  .next (issue false (fun s =>
    if s.myCore.fq.length < 8 then advance (s.modMyCore fun c => { c with fq := c.fq ++ [sv s a] })
    else waitFor .retry s) s)

/-! ### The nest (R229, R230, R232, R236) -/

/-- A level of the nest (R230). -/
structure NestLevel where
  n : Nat
  sa : Int
  sb : Int
  sp : Int
  soc : Int
  sor : Int
deriving DecidableEq, Repr

/-- Level l from the words of an Easel bank. -/
def nestLevel (e : List Nat) (l : Nat) : NestLevel :=
  let u := e.getD (3 + 2 * l) 0
  let v := e.getD (4 + 2 * l) 0
  ⟨slice u 0 16, sext (slice u 32 32) 32, sext (slice u 16 16) 16, sext (slice v 32 16) 16, sext (slice v 16 16) 16,
    sext (slice v 0 16) 16⟩

def nestLevels (e : List Nat) : List NestLevel := (List.range 6).map (nestLevel e)

def nestA (e : List Nat) : Nat := e.getD 0 0 % 2 ^ 32
def nestApitch (e : List Nat) : Nat := slice (e.getD 0 0) 48 16
def nestR (e : List Nat) : Nat := e.getD 1 0 % 2 ^ 32
def nestRpitch (e : List Nat) : Nat := slice (e.getD 1 0) 48 16
def nestP (e : List Nat) : Nat := slice (e.getD 2 0) 32 14
def nestB (e : List Nat) : Nat := slice (e.getD 2 0) 16 12
def nestRed (e : List Nat) : Nat := slice (e.getD 2 0) 8 3
def nestKl (e : List Nat) : Nat := slice (e.getD 2 0) 0 5 + 1

/-- The product of the counts of some levels. -/
def nestCount (l : List NestLevel) : Nat := l.foldl (fun p x => p * x.n) 1

/-- Steps of one reduction: the product over the levels red to 5 (R235). -/
def nestPer (e : List Nat) : Nat := nestCount ((nestLevels e).drop (nestRed e))
/-- Steps of the whole nest. -/
def nestTotal (e : List Nat) : Nat := nestCount (nestLevels e)

/-- The sum of i_l x f(L_l) at step i, over levels given innermost first (R236). -/
def nestSum (f : NestLevel → Int) : List NestLevel → Nat → Int
  | [], _ => 0
  | x :: r, i => (i % x.n : Nat) * f x + nestSum f r (i / x.n)

/-- The sum at step i of the nest of words e. -/
def nestAt (f : NestLevel → Int) (e : List Nat) (i : Nat) : Int := nestSum f (nestLevels e).reverse i

/-! #### Format word -/

def fmtWa (f : Nat) : Nat := slice f 8 3
def fmtWb (f : Nat) : Nat := slice f 11 3
def fmtProf (f : Nat) : Nat := slice f 0 4
def fmtZ (f : Nat) : Bool := bitOf f 14
def fmtRt (f : Nat) : Bool := bitOf f 15
def fmtAb (f : Nat) : Nat := slice f 16 1
def fmtRo (f : Nat) : Bool := bitOf f 17
/-- Bytes of an output element. -/
def fmtEs (f : Nat) : Nat := if fmtRo f then 2 else 4
/-- Bits of a block-integer element (R232). -/
def biWidth : Nat → Nat
  | 1 => 8
  | 2 => 6
  | 3 => 4
  | _ => 2
/-- Bytes of the 32 elements of a row or column (R237). -/
def rowBytes (w : Nat) : Nat := if w = 0 then 64 else 4 * biWidth w

/-! #### The checks of R235 -/

/-- A reserved bit of the format word, or a reserved format. -/
def fmtBad (f : Nat) : Bool :=
  f / 2 ^ 18 != 0 || slice f 4 4 != 0 || decide (4 < fmtWa f) || decide (4 < fmtWb f)

/-- A reserved or zero field of the Easel words. -/
def easelBad (e : List Nat) (f : Nat) : Bool :=
  let lv := nestLevels e
  slice (e.getD 0 0) 32 16 != 0 || slice (e.getD 1 0) 32 16 != 0
    || slice (e.getD 2 0) 46 18 != 0 || slice (e.getD 2 0) 28 4 != 0 || slice (e.getD 2 0) 11 5 != 0
    || slice (e.getD 2 0) 5 3 != 0 || e.getD 15 0 != 0
    || ((List.range 6).any fun l => slice (e.getD (4 + 2 * l) 0) 48 16 != 0)
    || (lv.any fun x => x.n == 0) || decide (5 < nestRed e)
    || ((lv.drop (nestRed e)).any fun x => x.sor != 0 || x.soc != 0)
    || nestApitch e == 0 || decide (nestRpitch e < 128 * fmtEs f)

/-- A misaligned address or stride. -/
def easelMisaligned (e : List Nat) (f : Nat) : Bool :=
  nestA e % 8 != 0 || nestApitch e % 8 != 0 || nestB e % 8 != 0 || nestR e % 32 != 0 || nestRpitch e % 32 != 0
    || (nestLevels e).any fun x => x.sa % 8 != 0 || x.sb % 8 != 0 || x.soc % (if fmtRo f then 16 else 8) != 0

/-- The least and the greatest of the sums that levels with these counts and strides form. -/
def spanOf (l : List (Nat × Int)) : Int × Int :=
  l.foldl (fun m x =>
    let d := ((x.1 - 1 : Nat) : Int) * x.2
    if d < 0 then (m.1 + d, m.2) else (m.1, m.2 + d)) (0, 0)

/-- The bits of m shifted by i x k for each i below n, joined. -/
def smear (k : Nat) : Nat → Nat → Nat
  | 0, _ => 0
  | n + 1, m => (m <<< (n * k)) ||| smear k n m

/-- The bytes, from the least address, that runs of w bytes at the sums of these levels cover: bit i for byte i. -/
def cover (w : Nat) (l : List (Nat × Int)) : Nat :=
  l.foldl (fun m x => if x.2 = 0 then m else smear x.2.natAbs x.1 m) (2 ^ w - 1)

/-- The levels by which A rows, and the retired rows, move. -/
def aMoves (e : List Nat) : List (Nat × Int) := (64, (nestApitch e : Int)) :: (nestLevels e).map fun x => (x.n, x.sa)
def rMoves (e : List Nat) (f : Nat) : List (Nat × Int) :=
  (64, (nestRpitch e : Int)) :: (nestLevels e).map fun x => (x.n, x.sor * nestRpitch e + x.soc * fmtEs f)
def bMoves (e : List Nat) : List (Nat × Int) := (nestLevels e).map fun x => (x.n, x.sb)
def pMoves (e : List Nat) : List (Nat × Int) := (nestLevels e).map fun x => (x.n, x.sp)

/-- The range lo to hi lies in the own share of the scratchpad. -/
def rangeInShare (s : State) (lo hi : Int) : Bool := decide (0 ≤ lo) && inShare s lo.toNat (hi - lo).toNat

/-- First address and covered bytes of the A rows of the nest, and of its retirements. -/
def aCover (e : List Nat) (f : Nat) : Int × Nat := (nestA e + (spanOf (aMoves e)).1, cover (rowBytes (fmtWa f)) (aMoves e))
def rCover (e : List Nat) (f : Nat) : Int × Nat := (nestR e + (spanOf (rMoves e f)).1, cover (128 * fmtEs f) (rMoves e f))

/-- Two covers, from their first addresses, have a byte in common. -/
def coversMeet (x y : Int × Nat) : Bool := (x.2 <<< x.1.toNat) &&& (y.2 <<< y.1.toNat) != 0

/-- An address that the nest forms lies outside its storage, or a retired byte is also read as A (R235). Retirements are
checked whether or not rt is set, since mret can retire (log entry 18). -/
def nestOutside (s : State) (e : List Nat) (f : Nat) : Bool :=
  let a := spanOf (aMoves e)
  let r := spanOf (rMoves e f)
  let b := spanOf (bMoves e)
  let p := spanOf (pMoves e)
  let wa := fmtWa f
  let wb := fmtWb f
  !rangeInShare s (nestA e + a.1) (nestA e + a.2 + rowBytes wa)
    || !rangeInShare s (nestR e + r.1) (nestR e + r.2 + 128 * fmtEs f)
    || decide (nestB e + b.1 < 0) || decide (4096 < nestB e + b.2 + rowBytes wb)
    || (wb != 0 && (decide (nestP e + p.1 < 0) || decide (16384 < nestP e + p.2 + 128)))
    || (wa != 0 && (decide (nestP e + p.1 + 128 < 0) || decide (16384 < nestP e + p.2 + 192)))
    || coversMeet (aCover e f) (rCover e f)

/-- The checks of R235 after the first, in their order: the first that fails gives its cause. -/
def nestCause (s : State) (e : List Nat) (f : Nat) : Option Nat :=
  if fmtBad f then some 97
  else if 4 ≤ fmtProf f then some 114
  else if easelBad e f then some 97
  else if s.me.csr.mdepth < nestPer e then some 115
  else if easelMisaligned e f then some 101
  else if nestOutside s e f then some 104
  else none

/-- The words of Easel bank b. -/
def easelWords (c : Core) (b : Nat) : List Nat := (List.range 16).map fun i => (Sparse.rd 0 c.easel (16 * b + i)).toNat

/-! ### The start of an mtile -/

/-- The 32-byte units of a space that a cover from address a holds. -/
def coverUnits (sp : Nat) (a : Nat) (m : Nat) (w : Bool) : List (Nat × Nat × Nat × Bool) :=
  let x := m <<< (a % 32)
  ((List.range (Nat.log2 x / 32 + 1)).filter fun i => slice x (32 * i) 32 != 0).map fun i => (sp, a / 32 + i, a / 32 + i, w)

/-- The region of an mtile (R353): A rows, the column slices, the scales, the retirements. -/
def tileRegion (core : Nat) (e : List Nat) (f : Nat) : List (Nat × Nat × Nat × Bool) :=
  let a := aCover e f
  let r := rCover e f
  let b : Nat := cover (rowBytes (fmtWb f)) (bMoves e)
  let b0 := (nestB e + (spanOf (bMoves e)).1).toNat
  let p := spanOf (pMoves e)
  coverUnits (spadSpace core) a.1.toNat a.2 false
    ++ ((List.range 128).flatMap fun c => coverUnits (canvasSpace core) (4096 * c + b0) b false)
    ++ (if fmtWb f = 0 then [] else coverUnits (paletteSpace core) (nestP e + p.1).toNat (cover 128 (pMoves e)) false)
    ++ (if fmtWa f = 0 then [] else coverUnits (paletteSpace core) (nestP e + p.1 + 128).toNat (cover 64 (pMoves e)) false)
    ++ (if fmtRt f then coverUnits (spadSpace core) r.1.toNat r.2 true else [])

/-- M of a task changed. -/
def modM (s : State) (k : Nat) (f : MUnit → MUnit) : State := s.modTask k fun t => { t with m := f t.m }

/-- An instruction of M issues once the steps of the mtile before it have run and its last copy is taken (R235, R241). -/
def issueM (body : State → State) (s : State) : State :=
  issueToken (fun s => if s.me.m.run.isSome then waitFor .retry s else body s) s

/-- The format word with which the mtile at M's position runs, the reduction that it starts with and the format queue after it: the
head of the queue, or the word and the reduction of a record (R235, R244, R344). -/
def tileWord (s : State) : Option (Nat × Nat × List Word) :=
  match s.me.m.again, s.myCore.fq with
  | some x, q => some (x.1, x.2, q)
  | none, w :: rest => some (w.toNat, 0, rest)
  | none, [] => none

/-- Pops a format word, checks the nest and starts its steps (R235, R236). -/
def execMtile (b : Nat) (s : State) : Result :=
  .next (issueM (fun s =>
    if s.me.m.preempt then waitFor .retry s
    else
      match tileWord s with
      | none => trap 113 s
      | some (f, n, rest) =>
        let e := easelWords s.myCore b
        match nestCause s e f with
        | some code => trap code s
        | none =>
          declare (tileRegion s.cur.core e f) (nextSeq s) none false (fun s =>
            let r := newToken (s.modMyCore fun c => { c with fq := rest })
            let run : MRun := { easel := b, f := f, nest := e, step := n * nestPer e, per := nestPer e, total := nestTotal e, seq := r.1,
                                at_ := s.myEng }
            let past := decide (nestTotal e ≤ run.step)
            let s := modM r.2 r.2.key fun m => { m with run := if past then none else some run, again := none, kept := none }
            advance (if past then completeToken s s.key .m r.1 else s)) s) s)

/-! ### A step (R184, R185, R237) -/

/-- An exact sum with the sign of its zero (R169). -/
def exactAdd : FVal → FVal → FVal
  | .nan, _ => .nan
  | _, .nan => .nan
  | .inf s, .inf t => if s = t then .inf s else .nan
  | .inf s, .fin _ _ => .inf s
  | .fin _ _, .inf t => .inf t
  | .fin s x, .fin t y =>
    let z := Dy.add x y
    .fin (if z.m = 0 then s && t else decide (z.m < 0)) z

/-- An exact product. -/
def exactMul : FVal → FVal → FVal
  | .nan, _ => .nan
  | _, .nan => .nan
  | .inf s, .inf t => .inf (s != t)
  | .inf s, .fin t y => if y.m = 0 then .nan else .inf (s != t)
  | .fin s x, .inf t => if x.m = 0 then .nan else .inf (s != t)
  | .fin s x, .fin t y => .fin (s != t) (Dy.mul x y)

/-- An exact value rounded to f32 by nearest even. -/
def exactRound : FVal → Nat
  | .nan => Fmt.f32.nan
  | .inf s => Fmt.f32.withSign s Fmt.f32.inf
  | .fin s x => (roundDy .f32 .rne s x).1

/-- Element i of a packed row or column of format w with its block scale (R175). -/
def tileElem (w : Nat) (bytes : Nat) (scale i : Nat) : FVal :=
  if w = 0 then Fmt.bf16.val (slice bytes (16 * i) 16)
  else if scale = 255 then .nan
  else
    let q := sext (slice bytes (biWidth w * i) (biWidth w)) (biWidth w)
    .fin (decide (q < 0)) ⟨q, (scale : Int) - 127⟩

/-- The exponent of the largest finite product, none where all are zero (profile 1). -/
def topExponent (l : List FVal) : Option Int :=
  l.foldl (fun m v =>
    match v with
    | .fin _ x =>
      if x.m = 0 then m
      else
        let e := (Nat.log2 x.m.natAbs : Int) + x.e
        match m with
        | some y => some (if y < e then e else y)
        | none => some e
    | _ => m) none

/-- A value truncated toward zero to the bits of weight 2^lo or more. -/
def truncTo (lo : Int) : FVal → FVal
  | .fin s x =>
    if lo ≤ x.e then .fin s x
    else
      let q : Int := (x.m.natAbs / 2 ^ (lo - x.e).toNat : Nat)
      .fin s ⟨if x.m < 0 then -q else q, lo⟩
  | v => v

/-- The exact sum of a list that is not empty. -/
def exactSum : List FVal → FVal
  | [] => .fin false Dy.zero
  | v :: r => r.foldl exactAdd v

/-- The accumulator element after a chunk of products, by profile (R185). -/
def accumulate (prof acc : Nat) (l : List FVal) : Nat :=
  let add (x : Nat) : Nat := addRne acc x
  match prof with
  | 0 => add (exactRound (exactSum l))
  | 1 =>
    let l := match topExponent l with | some e => l.map (truncTo (e - 47)) | none => l
    add (exactRound (exactSum l))
  | 2 =>
    let x := l.map exactRound
    add (treeSum addRne (fun i => x.getD i 0) 6 0 x.length)
  | _ => exactRound (exactAdd (Fmt.f32.val acc) (exactSum l))

/-- The rows of A of step i of a nest, as M reads them into its step buffer (R237, R238). -/
def aRows (c : Core) (e : List Nat) (f i : Nat) : List Nat :=
  let aAddr := (nestA e + nestAt NestLevel.sa e i).toNat
  (List.range 64).map fun r => c.spad.rdN (aAddr + r * nestApitch e) (rowBytes (fmtWa f))

/-- One step of the nest over the first klen indices of its chunk, with the rows of A in the step buffer (R237): the new elements of
the accumulator bank, in order. -/
def stepAcc (c : Core) (e : List Nat) (f i klen : Nat) (zero : Bool) (buf : List Nat) : List Nat :=
  let bOff := (nestB e + nestAt NestLevel.sb e i).toNat
  let pOff := nestP e + nestAt NestLevel.sp e i
  let wa := fmtWa f
  let wb := fmtWb f
  let rows := buf.zipIdx.map fun r =>
    let sc := if wa = 0 then 0 else (c.palette.get (pOff + 128 + r.2).toNat).toNat
    (List.range klen).map (tileElem wa r.1 sc)
  let cols := (List.range 128).map fun n =>
    let y := c.canvas.rdN (4096 * n + bOff) (rowBytes wb)
    let sc := if wb = 0 then 0 else (c.palette.get (pOff + n).toNat).toNat
    (List.range klen).map (tileElem wb y sc)
  (rows.zipIdx).flatMap fun r => (cols.zipIdx).map fun n =>
    let old := if zero then 0 else c.acc.rdN (32768 * fmtAb f + 512 * r.2 + 4 * n.2) 4
    accumulate (fmtProf f) old (List.zipWith exactMul r.1 n.1)

/-- The key of the task that issues on a core, while its gang is attached and the core is not halted. -/
def liveTask (s : State) (core : Nat) : Option Nat :=
  let k := tkey core (s.issuing core)
  if s.attached k ∧ !(s.core core).halted then some k else none

/-- M of task k runs the next step of its nest (R236, R237), with the rows of A that stand in its step buffer; the first step of a run
reads its own. The rows of the step after it are read in the same act (R238; log entry 26). -/
def runStep (s : State) (k : Nat) (r : MRun) : State :=
  let first := r.step % r.per == 0
  let last := (r.step + 1) % r.per == 0
  let klen := if last then nestKl r.nest else 32
  let c := s.core (k / 2)
  let acc := stepAcc c r.nest r.f r.step klen (first && fmtZ r.f) (r.buf.getD (aRows c r.nest r.f r.step))
  let buf := if r.step + 1 < r.total then some (aRows c r.nest r.f (r.step + 1)) else none
  let s := s.modCore (k / 2) fun c =>
    { c with acc := c.acc.putMem (32768 * fmtAb r.f) 32768 (Mem.ofBytes 0 (acc.flatMap (natToBytes 4))) }
  modM s k fun m => { m with run := some { r with step := r.step + 1, buf := buf, atEnd := last } }

/-- A resumed mtile repeats the checks on its Easel bank as the cut restored it (R244); a failure puts its word back, and M stands
before the mtile. -/
def recheckTile (s : State) (k : Nat) (r : MRun) : State :=
  let e := easelWords (s.core (k / 2)) r.easel
  let s' := { s with cur := { s.cur with core := k / 2, bank := k % 2, eng := Eng.m } }
  match nestCause s' e r.f with
  | some code =>
    let s := (modM s k fun m => { m with run := none }).modCore (k / 2) fun c => { c with fq := BitVec.ofNat 64 r.f :: c.fq }
    raiseCause (s.modEng k .m fun x => { r.at_ with opn := x.opn, stopped := true, wait := .none, latched := none }) k code 0 0
  | none =>
    let step := r.step / r.per * nestPer e
    let r : MRun := { r with nest := e, per := nestPer e, total := nestTotal e, step := step, buf := none, recheck := false }
    if nestTotal e ≤ step then completeToken (modM s k fun m => { m with run := none }) k .m r.seq
    else modM s k fun m => { m with run := some r }

/-- The next thing that the running mtile of a core does, unless it stops at a retirement point: after a reduction end, or where a
resume has put it (R244, R349). -/
def tileStep (s : State) (core : Nat) : State :=
  match liveTask s core with
  | none => s
  | some k =>
    let t := s.task k
    match t.m.run with
    | none => s
    | some r =>
      if r.atEnd ∨ (s.die (dieOf core)).power.window.isSome then s
      else if r.step % r.per = 0 ∧ (r.step ≠ 0 ∨ r.recheck) ∧ (t.stop ∨ t.m.preempt) then modM s k fun m => { m with waiting := true }
      else if r.recheck then recheckTile s k r
      else runStep s k r

/-- M runs one step of the nest (R237). -/
def execMtileStep (core : Nat) (s : State) : Result := .next (tileStep s core)

/-! ### Reduction ends and retirement (R239, R240) -/

/-- The copy that M takes at the end of the reduction whose steps have just run. -/
def takeCopy (c : Core) (r : MRun) : MCopy :=
  let i := r.step - 1
  let off := nestAt NestLevel.sor r.nest i * nestRpitch r.nest + nestAt NestLevel.soc r.nest i * fmtEs r.f
  { ab := fmtAb r.f, data := Sparse.window c.acc (32768 * fmtAb r.f) 32768, base := (nestR r.nest + off).toNat,
    pitch := nestRpitch r.nest, bf := fmtRo r.f, seq := r.seq, final := decide (r.total ≤ r.step) }

/-- M of a core takes its copy at a reduction end, if its drain buffer is free. -/
def reductionEnd (s : State) (core : Nat) : State :=
  match liveTask s core with
  | none => s
  | some k =>
    let m := (s.task k).m
    match m.run with
    | none => s
    | some r =>
      if !r.atEnd ∨ m.drain.isSome then s
      else
        let c := takeCopy (s.core core) r
        let s := modM s k fun m =>
          { m with drain := if fmtRt r.f then some c else none
                   kept := if c.final ∧ !fmtRt r.f then some c else none
                   run := if c.final then none else some { r with atEnd := false }
                   waiting := !c.final && ((s.task k).stop || m.preempt) }
        if c.final ∧ !fmtRt r.f then completeToken s k .m r.seq else s

/-- At a reduction end M takes a copy of the accumulator bank (R239). -/
def execMtileReductionEnd (core : Nat) (s : State) : Result := .next (reductionEnd s core)

/-- Units of 32 bytes of a retired copy. -/
def copyUnits (c : MCopy) : Nat := if c.bf then 512 else 1024

/-- The bytes of unit i of a copy, and where they go: units of a row stand in increasing address (R239). -/
def copyUnit (c : MCopy) (i : Nat) : Nat × List Byte :=
  let per := if c.bf then 8 else 16
  let n := if c.bf then 16 else 8
  let row := i / per
  let col := i % per * n
  (c.base + row * c.pitch + 32 * (i % per),
    (List.range n).flatMap fun j =>
      let v := c.data.rdN (512 * row + 4 * (col + j)) 4
      if c.bf then natToBytes 2 (narrow .rne v).b else natToBytes 4 v)

/-- n units of a copy from unit i written. -/
def writeUnits (m : Mem) (c : MCopy) : Nat → Nat → Mem
  | _, 0 => m
  | i, n + 1 => let u := copyUnit c i; writeUnits (m.wrList u.1 u.2) c (i + 1) n

/-- The drain of a core's M writes some of its units; with the last one its token, and the marks that wait for it, complete. -/
def drainCopy (s : State) (core : Nat) : State :=
  let k := tkey core (s.issuing core)
  match (s.task k).m.drain with
  | none => s
  | some c =>
    let (x, s) := s.choose
    let left := copyUnits c - c.done
    let n := if left = 0 then 0 else 1 + x % left
    let s := s.modCore core fun y => { y with spad := writeUnits y.spad c c.done n }
    if c.done + n < copyUnits c then modM s k fun m => { m with drain := some { c with done := c.done + n } }
    else
      let s := if c.final then completeToken s k .m c.seq else s
      let marks := (s.task k).m.marks
      marks.foldl (fun s q => completeToken s k .m q) (modM s k fun m => { m with drain := none, marks := [] })

/-- The drain of a retired copy writes its units (R239, R240). -/
def execMtileRetirementDone (core : Nat) (s : State) : Result := .next (drainCopy s core)

/-! ### The other instructions (R241) -/

/-- Clears an accumulator bank (R241). -/
def execMzacc (b : Nat) (s : State) : Result :=
  .next (issueM (quick [] fun s =>
    modM (s.modMyCore fun c => { c with acc := c.acc.putMem (32768 * b) 32768 [] }) s.key fun m => { m with kept := none }) s)

/-- Retires the final copy of the mtile just before, if it did not retire (R241). -/
def execMret (s : State) : Result :=
  .next (issueM (fun s =>
    match s.me.m.kept with
    | none => quick [] id s
    | some c =>
      let rgn := (List.range 64).flatMap fun r =>
        unitRange (spadSpace s.cur.core) (c.base + r * c.pitch) (if c.bf then 256 else 512) true
      declare rgn (nextSeq s) none false (fun s =>
        let r := newToken s
        advance (modM r.2 r.2.key fun m => { m with kept := none, drain := some { c with seq := r.1, final := true } })) s) s)

/-- A mark whose token completes with every earlier instruction of M (R241). -/
def execMmark (s : State) : Result :=
  .next (issueM (declare [] (nextSeq s) none true fun s =>
    let open_ := s.myEng.opn.isEmpty
    let r := newToken s
    let s := modM r.2 r.2.key fun m => { m with kept := none, marks := if open_ then m.marks else m.marks ++ [r.1] }
    advance (if open_ then completeToken s s.key .m r.1 else s)) s)

end Sys2Proof.Machine
end

