-- ==== Sys2Proof/Machine/Scatter.lean ====
section
/-!
DEFINITION. The scatter-accumulate engine (14_return_path R247-R257): its instructions, their windows of 64 elements, and the
read-modify-writes that these send.
-/

namespace Sys2Proof.Machine

/-! ### Elements (R248, R251, R252) -/

/-- Bytes of an element of A's type code: f32, bf16, i32, n32, i64, n64. -/
def aSize : Nat → Nat
  | 1 => 2
  | 4 | 5 => 8
  | _ => 4

/-- The type is floating-point; its format. -/
def aFloat (ty : Nat) : Bool := decide (ty < 2)
def aFmt (ty : Nat) : Fmt := if ty = 1 then .bf16 else .f32
/-- The type is signed. -/
def aSigned (ty : Nat) : Bool := ty == 2 || ty == 4

/-- The value that an element's bits stand for in a merge: the integer of an integer type, the pattern of a float. -/
def aValue (ty v : Nat) : Int := if aSigned ty then sext v (8 * aSize ty) else (v : Int)

/-- ASTS bits (R247). -/
def astsSc : Nat := 1
def astsNan : Nat := 2
def astsOf : Nat := 4

/-- w of R194 for an exact integer: its bits and the status that it brings (R173, R251). -/
def aNarrow (ty : Nat) (sat : Bool) (x : Int) : Nat × Nat :=
  let n := 8 * aSize ty
  let lo : Int := if aSigned ty then -(2 ^ (n - 1) : Nat) else 0
  let hi : Int := if aSigned ty then (2 ^ (n - 1) : Nat) - 1 else (2 ^ n : Nat) - 1
  let out := decide (x < lo) || decide (hi < x)
  if sat then (wrapN (clampInt lo hi x) n, if out then astsSc else 0) else (wrapN x n, if out then astsOf else 0)

/-- How two values of one index, or a combined value and the target, merge in exact integers or patterns (R251). -/
def aMerge (op ty rnd : Nat) (x y : Int) : Int :=
  let f := aFmt ty
  let p : Nat := x.toNat
  let q : Nat := y.toNat
  match op with
  | 0 => if aFloat ty then ((fAdd f (modeOf rnd) p q).b : Int) else x + y
  | 2 => if aFloat ty then ((fMin f p q).b : Int) else if y < x then y else x
  | 3 => if aFloat ty then ((fMax f p q).b : Int) else if x < y then y else x
  | 4 => aValue ty (wrapN x (8 * aSize ty) ||| wrapN y (8 * aSize ty))
  | 5 => aValue ty (wrapN x (8 * aSize ty) &&& wrapN y (8 * aSize ty))
  | _ => x + y

/-- The element of the table after value c meets t, and the status bits (R251, R252). -/
def aApply (i : AIns) (t : Nat) (c : Int) : Nat × Nat :=
  if i.op = 1 then aNarrow 4 false (aValue 4 t + c)
  else if i.op = 6 then (wrapN c (8 * aSize i.ty), 0)
  else
    let r := aMerge i.op i.ty i.rnd (aValue i.ty t) c
    if aFloat i.ty then (r.toNat, 0) else aNarrow i.ty i.sat r

/-- q of R252 for a floating-point value and scale, and the status. -/
def aQuant (f : Fmt) (v : Nat) (scale : Int) : Int × Nat :=
  let lo : Int := -(2 ^ 63 : Nat)
  let hi : Int := (2 ^ 63 : Nat) - 1
  match f.val v with
  | .nan => (0, astsNan)
  | .inf s => (if s then lo else hi, astsSc)
  | .fin _ x =>
    let y := roundInt .rne (Dy.scale x (-scale))
    (clampInt lo hi y, if y < lo ∨ hi < y then astsSc else 0)

/-- Bytes of a table element: addq adds into i64. -/
def aTable (i : AIns) : Nat := if i.op = 1 then 8 else aSize i.ty

/-! ### Issue -/

/-- The checks of an index descriptor whose list has elements of al bytes (R249). -/
def indexChecks (s : State) (w al : Nat) : List (Bool × Nat) :=
  let n := slice w 32 17
  [(w / 2 ^ 49 != 0 || n == 0 || decide (65536 < n), 121), (w % al != 0, 125), (!inShare s (w % 2 ^ 32) (al * n), 128)]

/-- The checks of a value address. -/
def valueChecks (s : State) (v n e : Nat) : List (Bool × Nat) :=
  [(v / 2 ^ 32 != 0, 121), (v % e != 0, 125), (!inShare s v (e * n), 128)]

/-- Core and offset of the element of the table of instruction i that index x targets, if it lies in the same share as the base. -/
def aTarget (s : State) (i : AIns) (x : Nat) : Option (Nat × Nat) :=
  let e := aTable i
  match reach s i.base e, reach s (i.base + x * e) e with
  | some p, some q => if q.1 = p.1 ∧ q.2 = p.2 + x * e then some q else none
  | _, _ => none

/-- Index j of the list of instruction i. -/
def aIndex (c : Core) (i : AIns) (j : Nat) : Nat := c.spad.rdN (i.idx + 4 * j) 4

/-- The lists of an update instruction as its region has them (R353): indices and values. -/
def aLists (s : State) (i : AIns) : List (Nat × Nat × Nat × Bool) :=
  let sp := spadSpace s.cur.core
  unitRange sp i.idx (4 * i.n) false ++ if i.op = 7 then [] else unitRange sp i.val (aSize i.ty * i.n) (i.op == 6)

/-- The units of the targets of an update instruction. -/
def aTargets (s : State) (i : AIns) : List (Nat × Nat × Nat × Bool) :=
  (((List.range i.n).filterMap fun j => (aTarget s i (aIndex s.myCore i j)).map fun p => (p.1, p.2 / 32)).eraseDups).map fun u =>
    (spadSpace u.1, u.2, u.2, true)

/-- The kind of an update for R255: pairs of one kind below 1,000 do not race. -/
def aKind (i : AIns) : Nat :=
  let k := 1 + 8 * i.op + i.ty
  if i.sat ∨ i.op = 6 ∨ (i.op = 0 ∧ aFloat i.ty) then 1000 + k else k

/-- An instruction of A issues when the one before it has sent its last window. -/
def issueA (body : State → State) (s : State) : State :=
  issueToken (fun s => if s.me.a.ins.isSome then waitFor .retry s else body s) s

/-- A's unit changed. -/
def modA (s : State) (k : Nat) (f : AUnit → AUnit) : State := s.modTask k fun t => { t with a := f t.a }

/-- An instruction of A begins, with the window that a record gives it or with its first: it stays at the issue stage until its last
window is sent (R256, R344). x gives its region. -/
def beginA (i : AIns) (x : RaceEnt) (s : State) : State :=
  declareAs { x with seq := nextSeq s } [] false (fun s =>
    let r := newToken s
    waitFor .retry (modA r.2 r.2.key fun a =>
      let w := a.from_.getD 0
      { a with ins := some { i with seq := r.1, pc := s.cur.pc, win := w, val := if i.op = 9 then 64 * w else i.val }
               from_ := none })) s

/-- An update instruction: its operands in the order of the short form, then its start (R249, R390). -/
def updateOp (op d a b ty : Nat) (scale : Int) (s : State) : State :=
  issueA (fun s =>
    let w := (av s a).toNat
    let n := slice w 32 17
    let v := (av s b).toNat
    let i : AIns := { op := op, ty := ty, base := (av s d).toNat, idx := w % 2 ^ 32, n := n, val := v, scale := scale,
                      rnd := s.cur.ch.rnd, sat := s.cur.ch.sat }
    let e := aTable i
    let dst := [(i.base % e != 0, 125), ((reach s i.base e).isNone, 128)]
    checked (dst ++ indexChecks s w 4 ++ (if op = 7 then [] else valueChecks s v n (aSize ty)))
      (fun s => beginA i { rgn := aLists s i, tgt := aTargets s i, exempt := aKind i } s) s) s

/-- Scale register sfN. -/
def sfValue (s : State) (n : Nat) : Int := sext (Sparse.rd 0 s.me.sf n) 8

/-- Adds values into a table (R251). -/
def execSaAdd (d a b ty : Nat) (s : State) : Result := .next (updateOp 0 d a b ty 0 s)
/-- Adds scaled floating-point values into a table of i64 (R252). -/
def execSaAddq (d a b sx ty : Nat) (s : State) : Result := .next (updateOp 1 d a b ty (sfValue s sx) s)
/-- The smaller of value and target (R251). -/
def execSaMin (d a b ty : Nat) (s : State) : Result := .next (updateOp 2 d a b ty 0 s)
/-- The larger of value and target (R251). -/
def execSaMax (d a b ty : Nat) (s : State) : Result := .next (updateOp 3 d a b ty 0 s)
/-- Bitwise or into a table (R251). -/
def execSaOr (d a b ty : Nat) (s : State) : Result := .next (updateOp 4 d a b ty 0 s)
/-- Bitwise and into a table (R251). -/
def execSaAnd (d a b ty : Nat) (s : State) : Result := .next (updateOp 5 d a b ty 0 s)
/-- Exchanges values with targets, element by element (R251). -/
def execSaXch (d a b ty : Nat) (s : State) : Result := .next (updateOp 6 d a b ty 0 s)
/-- Counts occurrences of indices (R251). -/
def execSaCnt (d a ty : Nat) (s : State) : Result := .next (updateOp 7 d a 0 ty 0 s)

/-- Writes a scale register (R254). -/
def execSaScl (a sx : Nat) (s : State) : Result :=
  .next (issueA (fun s =>
    let v := av s a
    checked [(v != BitVec.ofInt 64 (sext v.toNat 8), 121)]
      (quick [] fun s => s.modMe fun t => { t with sf := Sparse.wr 0 t.sf sx (v.toNat % 2 ^ 8) }) s) s)

/-- Converts i64 sums to floating point (R253). -/
def execSaRd (d a sx ty : Nat) (s : State) : Result :=
  .next (issueA (fun s =>
    let w := (av s a).toNat
    let n := slice w 32 17
    let m := if n = 0 ∨ 65536 < n then 1 else n
    let out := (av s d).toNat
    let e := aSize ty
    let i : AIns := { op := 9, ty := ty, base := out, idx := w % 2 ^ 32, n := n, scale := sfValue s sx, rnd := s.cur.ch.rnd }
    let sp := spadSpace s.cur.core
    checked ([(out % e != 0, 125), (!inShare s out (e * m), 128)] ++ indexChecks s w 8)
      (fun s => beginA i { rgn := unitRange sp i.idx (8 * n) false ++ unitRange sp out (e * n) true } s) s) s)

/-! ### Windows (R250) -/

/-- One element of a window: target offset, index in the value list, value and status. -/
def aElem (c : Core) (i : AIns) (j off : Nat) : Nat × Nat × Int × Nat :=
  let raw := c.spad.rdN (i.val + aSize i.ty * j) (aSize i.ty)
  if i.op = 1 then let q := aQuant (aFmt i.ty) raw i.scale; (off, j, q.1, q.2)
  else if i.op = 7 then (off, j, 1, 0)
  else (off, j, aValue i.ty raw, 0)

/-- An element merged into the combined values of the indices before it. -/
def mergeElem (i : AIns) (e : Nat × Nat × Int × Nat) : List (Nat × Nat × Int × Nat) → List (Nat × Nat × Int × Nat)
  | [] => [e]
  | x :: r => if x.1 = e.1 then (x.1, x.2.1, aMerge i.op i.ty i.rnd x.2.2.1 e.2.2.1, x.2.2.2 ||| e.2.2.2) :: r
      else x :: mergeElem i e r

/-- The combined values of a window in order of first appearance; an exchange merges nothing. -/
def mergeWindow (i : AIns) (l : List (Nat × Nat × Int × Nat)) : List (Nat × Nat × Int × Nat) :=
  if i.op = 6 then l else l.foldl (fun m e => mergeElem i e m) []

/-- One read-modify-write for each distinct 32-byte unit, in order of first appearance. -/
def rmwsOf (i : AIns) (core : Nat) (l : List (Nat × Nat × Int × Nat)) : List Rmw :=
  ((l.map fun x => x.1 / 32).eraseDups).map fun u => { ins := i, core := core, unit := u, ups := l.filter fun x => x.1 / 32 == u }

/-- The targets of the elements from j on; none where one lies outside the share of the table. -/
def windowTargets (s : State) (i : AIns) (c : Core) : List Nat → Option (List (Nat × Nat × Nat))
  | [] => some []
  | j :: r =>
    match aTarget s i (aIndex c i j), windowTargets s i c r with
    | some p, some l => some ((j, p.1, p.2) :: l)
    | _, _ => none

/-- A of task k reads, merges and sends one window; a window with a target outside its share takes no effect (R249). -/
def sendWindow (s : State) (k : Nat) (i : AIns) : State :=
  let s' := { s with cur := { s.cur with core := k / 2, bank := k % 2, eng := Eng.a } }
  let c := s.core (k / 2)
  let js := (List.range (Nat.min 64 (i.n - 64 * i.win))).map fun j => 64 * i.win + j
  match windowTargets s' i c js with
  | none => raiseCause (s.modEng k .a fun x => { x with stopped := true }) k 128 0 0
  | some l =>
    let es := mergeWindow i (l.map fun x => aElem c i x.1 x.2.2)
    let rs := rmwsOf i ((l.headD (0, 0, 0)).2.1) es
    let last := decide (i.n ≤ 64 * (i.win + 1))
    let s := modA s k fun a =>
      { a with rmws := a.rmws ++ rs, ins := if last then none else some { i with win := i.win + 1 } }
    let s := if last ∧ !(s.task k).a.rmws.any fun y => y.ins.seq == i.seq then completeToken s k .a i.seq else s
    if last then advance (focus s k .a) else s

/-- A of a task sends its next window, unless it has stopped between windows (R256). -/
def windowStep (s : State) (k : Nat) : State :=
  match liveTask s (k / 2), (s.task k).a.ins with
  | some j, some i =>
    if j ≠ k ∨ i.op = 9 ∨ (s.task k).stop ∨ (s.eng k .a).stopped ∨ (s.die (dieOf (k / 2))).power.window.isSome then s
    else sendWindow s k i
  | _, _ => s

/-- A reads, merges and sends the read-modify-writes of one window (R250). -/
def execSaWindow (core bank : Nat) (s : State) : Result := .next (windowStep s (tkey core bank))

/-! ### Read-modify-writes -/

/-- One update of a read-modify-write: the target, the value list of an exchange, the status. -/
def applyUpdate (own core : Nat) (i : AIns) (u : Nat × Nat × Int × Nat) (r : State × Nat) : State × Nat :=
  let s := r.1
  let w := aTable i
  let t := (s.core core).spad.rdN u.1 w
  let x := aApply i t u.2.2.1
  let s := if i.op = 6 then s.modCore own fun c => { c with spad := c.spad.wrN (i.val + w * u.2.1) w t } else s
  (s.modCore core fun c => { c with spad := c.spad.wrN u.1 w x.1 }, r.2 ||| x.2 ||| u.2.2.2)

/-- A read-modify-write that has no earlier one of its window or to its unit before it (R250): the first of them from index n on. -/
def readyRmw (l : List Rmw) (n : Nat) : Option Rmw :=
  let ok := l.zipIdx.filter fun x => !(l.take x.2).any fun y => y.ins == x.1.ins || (y.core == x.1.core && y.unit == x.1.unit)
  (ok.getD (n % Nat.max 1 ok.length) (l.headD {}, 0)).1

/-- A read-modify-write of task k performs (R250); the last one of an instruction completes its token (R255). Those of different
windows to different units perform in any order. -/
def performRmw (s : State) (k : Nat) : State :=
  if (s.task k).a.rmws.isEmpty then s
  else
    let (n, s) := s.choose
    match readyRmw (s.task k).a.rmws n with
    | none => s
    | some r =>
      let x := r.ups.foldl (fun x u => applyUpdate (k / 2) r.core r.ins u x) (s, 0)
      let s := x.1.modTask k fun t =>
        { t with csr := { t.csr with asts := t.csr.asts ||| x.2 }, a := { t.a with rmws := t.a.rmws.erase r } }
      let a := (s.task k).a
      let busy := (a.rmws.any fun y => y.ins.seq == r.ins.seq) || (match a.ins with | some i => i.seq == r.ins.seq | none => false)
      if busy then s else completeToken s k .a r.ins.seq

/-- A read-modify-write of one 32-byte unit performs at its target (R250). -/
def execSaRmwPerform (core bank : Nat) (s : State) : Result := .next (performRmw s (tkey core bank))

/-- The output elements of an sa.rd from element j on, up to element m (R253). -/
def rdBytes (c : Core) (i : AIns) (j m : Nat) : List Byte :=
  (List.range (m - j)).flatMap fun x =>
    natToBytes (aSize i.ty) (roundDy (aFmt i.ty) (modeOf i.rnd) false ⟨sext (c.spad.rdN (i.idx + 8 * (j + x)) 8) 64, i.scale⟩).1

/-- The element at which an sa.rd stands after u more of the 32-byte units that its output touches, from element j on. -/
def rdAfter (i : AIns) (j u : Nat) : Nat :=
  Nat.min i.n ((((i.base + aSize i.ty * j) / 32 + u) * 32 - i.base) / aSize i.ty)

/-- The units that an sa.rd has still to write, from element j on. -/
def rdUnits (i : AIns) (j : Nat) : Nat := (i.base + aSize i.ty * i.n + 31) / 32 - (i.base + aSize i.ty * j) / 32

/-- The sa.rd of a task writes some of its output units, or all of them (R293), and A goes on after the last; once a stop has reached the
task it goes no further than a multiple of 64 elements (R256). -/
def finishRd (s : State) (k : Nat) : State :=
  match liveTask s (k / 2), (s.task k).a.ins with
  | some j, some i =>
    let stop := (s.task k).stop
    if j ≠ k ∨ i.op ≠ 9 ∨ (stop ∧ i.val % 64 = 0) then s
    else
      let (u, s) := s.portion (rdUnits i i.val)
      let m := if stop then Nat.min (rdAfter i i.val u) (64 * (i.val / 64 + 1)) else rdAfter i i.val u
      let s := s.modCore (k / 2) fun c => { c with spad := c.spad.wrList (i.base + aSize i.ty * i.val) (rdBytes c i i.val m) }
      if m < i.n then modA s k fun a => { a with ins := some { i with val := m, win := m / 64 } }
      else advance (focus (completeToken (modA s k fun a => { a with ins := none }) k .a i.seq) k .a)
  | _, _ => s

/-- A's sa.rd has written its output elements (R253, R255). -/
def execSaRdComplete (core bank : Nat) (s : State) : Result := .next (finishRd s (tkey core bank))

end Sys2Proof.Machine
end

