-- ==== Sys2Proof/Machine/Dispatch.lean ====
section
/-!
DEFINITION. The dispatch: one arm for each constructor of Instr, each one call of its meaning.
-/

namespace Sys2Proof.Machine

/-- The meaning of an instruction or event. -/
def exec (i : Instr) (s : State) : Host.Outcome State Fault Refusal :=
  match i with
  | .nop16 => Sys2Proof.Machine.execNop16 s
  | .bw nx => Sys2Proof.Machine.execBw nx s
  | .mov16 d a => Sys2Proof.Machine.execMov16 d a s
  | .addi16 d imm => Sys2Proof.Machine.execAddi16 d imm s
  | .li16 d imm => Sys2Proof.Machine.execLi16 d imm s
  | .blockHeader ty imm lx rl => Sys2Proof.Machine.execBlockHeader ty imm lx rl s
  | .repnPop core bank eng => Sys2Proof.Machine.execRepnPop core bank eng s
  | .pathRecordTake core bank eng => Sys2Proof.Machine.execPathRecordTake core bank eng s
  | .add d a b => Sys2Proof.Machine.execAdd d a b s
  | .sub d a b => Sys2Proof.Machine.execSub d a b s
  | .and d a b => Sys2Proof.Machine.execAnd d a b s
  | .or d a b => Sys2Proof.Machine.execOr d a b s
  | .xor d a b => Sys2Proof.Machine.execXor d a b s
  | .andn d a b => Sys2Proof.Machine.execAndn d a b s
  | .sll d a b => Sys2Proof.Machine.execSll d a b s
  | .srl d a b => Sys2Proof.Machine.execSrl d a b s
  | .sra d a b => Sys2Proof.Machine.execSra d a b s
  | .rotl d a b => Sys2Proof.Machine.execRotl d a b s
  | .min d a b => Sys2Proof.Machine.execMin d a b s
  | .max d a b => Sys2Proof.Machine.execMax d a b s
  | .minn d a b => Sys2Proof.Machine.execMinn d a b s
  | .maxn d a b => Sys2Proof.Machine.execMaxn d a b s
  | .mul d a b => Sys2Proof.Machine.execMul d a b s
  | .mulh d a b => Sys2Proof.Machine.execMulh d a b s
  | .mulhn d a b => Sys2Proof.Machine.execMulhn d a b s
  | .div d a b => Sys2Proof.Machine.execDiv d a b s
  | .divn d a b => Sys2Proof.Machine.execDivn d a b s
  | .rem d a b => Sys2Proof.Machine.execRem d a b s
  | .remn d a b => Sys2Proof.Machine.execRemn d a b s
  | .clz d a => Sys2Proof.Machine.execClz d a s
  | .ctz d a => Sys2Proof.Machine.execCtz d a s
  | .popc d a => Sys2Proof.Machine.execPopc d a s
  | .addi d a imm => Sys2Proof.Machine.execAddi d a imm s
  | .andi d a imm => Sys2Proof.Machine.execAndi d a imm s
  | .ori d a imm => Sys2Proof.Machine.execOri d a imm s
  | .xori d a imm => Sys2Proof.Machine.execXori d a imm s
  | .slli d a sx => Sys2Proof.Machine.execSlli d a sx s
  | .srli d a sx => Sys2Proof.Machine.execSrli d a sx s
  | .srai d a sx => Sys2Proof.Machine.execSrai d a sx s
  | .lih d imm => Sys2Proof.Machine.execLih d imm s
  | .cmpEq px a b => Sys2Proof.Machine.execCmpEq px a b s
  | .cmpNe px a b => Sys2Proof.Machine.execCmpNe px a b s
  | .cmpLt px a b => Sys2Proof.Machine.execCmpLt px a b s
  | .cmpLe px a b => Sys2Proof.Machine.execCmpLe px a b s
  | .cmpLtn px a b => Sys2Proof.Machine.execCmpLtn px a b s
  | .cmpLen px a b => Sys2Proof.Machine.execCmpLen px a b s
  | .cmpiEq px a imm => Sys2Proof.Machine.execCmpiEq px a imm s
  | .cmpiLt px a imm => Sys2Proof.Machine.execCmpiLt px a imm s
  | .cmpiLtn px a imm => Sys2Proof.Machine.execCmpiLtn px a imm s
  | .sel d a b nx => Sys2Proof.Machine.execSel d a b nx s
  | .pand d a b => Sys2Proof.Machine.execPand d a b s
  | .por d a b => Sys2Proof.Machine.execPor d a b s
  | .pxor d a b => Sys2Proof.Machine.execPxor d a b s
  | .pnot d a => Sys2Proof.Machine.execPnot d a s
  | .pknow d a => Sys2Proof.Machine.execPknow d a s
  | .pset d vx => Sys2Proof.Machine.execPset d vx s
  | .popv px a ex => Sys2Proof.Machine.execPopv px a ex s
  | .ldI8 d a imm => Sys2Proof.Machine.execLdI8 d a imm s
  | .ldN8 d a imm => Sys2Proof.Machine.execLdN8 d a imm s
  | .ldI16 d a imm => Sys2Proof.Machine.execLdI16 d a imm s
  | .ldN16 d a imm => Sys2Proof.Machine.execLdN16 d a imm s
  | .ldI32 d a imm => Sys2Proof.Machine.execLdI32 d a imm s
  | .ldN32 d a imm => Sys2Proof.Machine.execLdN32 d a imm s
  | .ldI64 d a imm => Sys2Proof.Machine.execLdI64 d a imm s
  | .st8 d a imm => Sys2Proof.Machine.execSt8 d a imm s
  | .st16 d a imm => Sys2Proof.Machine.execSt16 d a imm s
  | .st32 d a imm => Sys2Proof.Machine.execSt32 d a imm s
  | .st64 d a imm => Sys2Proof.Machine.execSt64 d a imm s
  | .ldAcq d a sx => Sys2Proof.Machine.execLdAcq d a sx s
  | .stRel d a sx => Sys2Proof.Machine.execStRel d a sx s
  | .sLoadReturn core bank => Sys2Proof.Machine.execSLoadReturn core bank s
  | .sStorePerform core bank => Sys2Proof.Machine.execSStorePerform core bank s
  | .bT px off => Sys2Proof.Machine.execBT px off s
  | .bF px off => Sys2Proof.Machine.execBF px off s
  | .bU px off => Sys2Proof.Machine.execBU px off s
  | .b off => Sys2Proof.Machine.execB off s
  | .jal d off => Sys2Proof.Machine.execJal d off s
  | .jr d a => Sys2Proof.Machine.execJr d a s
  | .swpt a => Sys2Proof.Machine.execSwpt a s
  | .pwr px lx => Sys2Proof.Machine.execPwr px lx s
  | .bnow d => Sys2Proof.Machine.execBnow d s
  | .palign a imm => Sys2Proof.Machine.execPalign a imm s
  | .waitt a => Sys2Proof.Machine.execWaitt a s
  | .waittWake core bank => Sys2Proof.Machine.execWaittWake core bank s
  | .tick d => Sys2Proof.Machine.execTick d s
  | .ntime d => Sys2Proof.Machine.execNtime d s
  | .fence sx ex => Sys2Proof.Machine.execFence sx ex s
  | .fenceRetire core bank => Sys2Proof.Machine.execFenceRetire core bank s
  | .tlbi a => Sys2Proof.Machine.execTlbi a s
  | .tlbiAll => Sys2Proof.Machine.execTlbiAll s
  | .isync => Sys2Proof.Machine.execIsync s
  | .smark => Sys2Proof.Machine.execSmark s
  | .ezw a b wx => Sys2Proof.Machine.execEzw a b wx s
  | .fpush a => Sys2Proof.Machine.execFpush a s
  | .repn ex a => Sys2Proof.Machine.execRepn ex a s
  | .handC a => Sys2Proof.Machine.execHandC a s
  | .handA a nx => Sys2Proof.Machine.execHandA a nx s
  | .evpop d => Sys2Proof.Machine.execEvpop d s
  | .evpeek d => Sys2Proof.Machine.execEvpeek d s
  | .gbar sx => Sys2Proof.Machine.execGbar sx s
  | .gbarRelease core bank => Sys2Proof.Machine.execGbarRelease core bank s
  | .exit a => Sys2Proof.Machine.execExit a s
  | .post d a b => Sys2Proof.Machine.execPost d a b s
  | .csrr d cx => Sys2Proof.Machine.execCsrr d cx s
  | .csrw a cx => Sys2Proof.Machine.execCsrw a cx s
  | .csrs a cx => Sys2Proof.Machine.execCsrs a cx s
  | .csrc a cx => Sys2Proof.Machine.execCsrc a cx s
  | .svc imm => Sys2Proof.Machine.execSvc imm s
  | .brk imm => Sys2Proof.Machine.execBrk imm s
  | .dopen rl a gp nx => Sys2Proof.Machine.execDopen rl a gp nx s
  | .dopenw rl a gp nx => Sys2Proof.Machine.execDopenw rl a gp nx s
  | .dhold rl gp nx => Sys2Proof.Machine.execDhold rl gp nx s
  | .drel rl gp nx => Sys2Proof.Machine.execDrel rl gp nx s
  | .drelw rl gp nx => Sys2Proof.Machine.execDrelw rl gp nx s
  | .drd rl a gp nx => Sys2Proof.Machine.execDrd rl a gp nx s
  | .dwr rl a gp nx => Sys2Proof.Machine.execDwr rl a gp nx s
  | .dref a gp nx => Sys2Proof.Machine.execDref a gp nx s
  | .dgap gp nx => Sys2Proof.Machine.execDgap gp nx s
  | .cbeat a => Sys2Proof.Machine.execCbeat a s
  | .iaZero d gp nx sx cx => Sys2Proof.Machine.execIaZero d gp nx sx cx s
  | .iaCopy d a gp nx sx cx => Sys2Proof.Machine.execIaCopy d a gp nx sx cx s
  | .iaAddBf16 d a b gp nx sx cx => Sys2Proof.Machine.execIaAddBf16 d a b gp nx sx cx s
  | .iaAddF32 d a b gp nx sx cx => Sys2Proof.Machine.execIaAddF32 d a b gp nx sx cx s
  | .iaSubBf16 d a b gp nx sx cx => Sys2Proof.Machine.execIaSubBf16 d a b gp nx sx cx s
  | .iaSubF32 d a b gp nx sx cx => Sys2Proof.Machine.execIaSubF32 d a b gp nx sx cx s
  | .iaMulBf16 d a b gp nx sx cx => Sys2Proof.Machine.execIaMulBf16 d a b gp nx sx cx s
  | .iaMulF32 d a b gp nx sx cx => Sys2Proof.Machine.execIaMulF32 d a b gp nx sx cx s
  | .iaFmaBf16 d a b gp nx sx cx => Sys2Proof.Machine.execIaFmaBf16 d a b gp nx sx cx s
  | .iaFmaF32 d a b gp nx sx cx => Sys2Proof.Machine.execIaFmaF32 d a b gp nx sx cx s
  | .iaAxpyBf16 d a b gp nx sx cx => Sys2Proof.Machine.execIaAxpyBf16 d a b gp nx sx cx s
  | .iaAxpyF32 d a b gp nx sx cx => Sys2Proof.Machine.execIaAxpyF32 d a b gp nx sx cx s
  | .iaAccBf16 wx a gp nx sx cx => Sys2Proof.Machine.execIaAccBf16 wx a gp nx sx cx s
  | .iaAccF32 wx a gp nx sx cx => Sys2Proof.Machine.execIaAccF32 wx a gp nx sx cx s
  | .iaWldF32 wx a gp nx sx cx => Sys2Proof.Machine.execIaWldF32 wx a gp nx sx cx s
  | .iaWldBf16 wx a gp nx sx cx => Sys2Proof.Machine.execIaWldBf16 wx a gp nx sx cx s
  | .iaWstF32 d wx gp nx sx cx => Sys2Proof.Machine.execIaWstF32 d wx gp nx sx cx s
  | .iaWstBf16 d wx gp nx sx cx => Sys2Proof.Machine.execIaWstBf16 d wx gp nx sx cx s
  | .iaMaxBf16 d a b gp nx sx cx => Sys2Proof.Machine.execIaMaxBf16 d a b gp nx sx cx s
  | .iaMaxF32 d a b gp nx sx cx => Sys2Proof.Machine.execIaMaxF32 d a b gp nx sx cx s
  | .iaMinBf16 d a b gp nx sx cx => Sys2Proof.Machine.execIaMinBf16 d a b gp nx sx cx s
  | .iaMinF32 d a b gp nx sx cx => Sys2Proof.Machine.execIaMinF32 d a b gp nx sx cx s
  | .iaCvt d a b gp nx sx cx => Sys2Proof.Machine.execIaCvt d a b gp nx sx cx s
  | .iaScale a gp nx sx => Sys2Proof.Machine.execIaScale a gp nx sx s
  | .cld a b cx => Sys2Proof.Machine.execCld a b cx s
  | .cldBs a b cx => Sys2Proof.Machine.execCldBs a b cx s
  | .cst a b cx => Sys2Proof.Machine.execCst a b cx s
  | .cstBs a b cx => Sys2Proof.Machine.execCstBs a b cx s
  | .ccpy a b cx => Sys2Proof.Machine.execCcpy a b cx s
  | .cfq nx a cx px => Sys2Proof.Machine.execCfq nx a cx px s
  | .cdq a nx cx => Sys2Proof.Machine.execCdq a nx cx s
  | .cvf a b cx => Sys2Proof.Machine.execCvf a b cx s
  | .cfv a b cx => Sys2Proof.Machine.execCfv a b cx s
  | .ccv a b cx => Sys2Proof.Machine.execCcv a b cx s
  | .cpl a b cx => Sys2Proof.Machine.execCpl a b cx s
  | .cgat a b cx ex => Sys2Proof.Machine.execCgat a b cx ex s
  | .csct a b cx ex => Sys2Proof.Machine.execCsct a b cx ex s
  | .cpat a px => Sys2Proof.Machine.execCpat a px s
  | .rdc a => Sys2Proof.Machine.execRdc a s
  | .ctx d sx lx gp nx => Sys2Proof.Machine.execCtx d sx lx gp nx s
  | .cadd d a b => Sys2Proof.Machine.execCadd d a b s
  | .caddSub d a b => Sys2Proof.Machine.execCaddSub d a b s
  | .caddShl d a b => Sys2Proof.Machine.execCaddShl d a b s
  | .cmov d a => Sys2Proof.Machine.execCmov d a s
  | .cmovLd d a => Sys2Proof.Machine.execCmovLd d a s
  | .cmovSt d a => Sys2Proof.Machine.execCmovSt d a s
  | .take d => Sys2Proof.Machine.execTake d s
  | .vadd d a px b qx ty => Sys2Proof.Machine.execVadd d a px b qx ty s
  | .vsub d a px b qx ty => Sys2Proof.Machine.execVsub d a px b qx ty s
  | .vmul d a px b qx ty => Sys2Proof.Machine.execVmul d a px b qx ty s
  | .vfma d a px b qx cx rl ty => Sys2Proof.Machine.execVfma d a px b qx cx rl ty s
  | .vfms d a px b qx cx rl ty => Sys2Proof.Machine.execVfms d a px b qx cx rl ty s
  | .vmin d a px b qx ty => Sys2Proof.Machine.execVmin d a px b qx ty s
  | .vmax d a px b qx ty => Sys2Proof.Machine.execVmax d a px b qx ty s
  | .vabs d a px ty => Sys2Proof.Machine.execVabs d a px ty s
  | .vneg d a px ty => Sys2Proof.Machine.execVneg d a px ty s
  | .vand d a px b qx ty => Sys2Proof.Machine.execVand d a px b qx ty s
  | .vor d a px b qx ty => Sys2Proof.Machine.execVor d a px b qx ty s
  | .vxor d a px b qx ty => Sys2Proof.Machine.execVxor d a px b qx ty s
  | .vshl d a px b qx ty => Sys2Proof.Machine.execVshl d a px b qx ty s
  | .vshr d a px b qx ty => Sys2Proof.Machine.execVshr d a px b qx ty s
  | .vsra d a px b qx ty => Sys2Proof.Machine.execVsra d a px b qx ty s
  | .vrcp d a px ty => Sys2Proof.Machine.execVrcp d a px ty s
  | .vrsq d a px ty => Sys2Proof.Machine.execVrsq d a px ty s
  | .vexp2 d a px ty => Sys2Proof.Machine.execVexp2 d a px ty s
  | .vlog2 d a px ty => Sys2Proof.Machine.execVlog2 d a px ty s
  | .vsqrt d a px ty => Sys2Proof.Machine.execVsqrt d a px ty s
  | .vdiv d a px b qx ty => Sys2Proof.Machine.execVdiv d a px b qx ty s
  | .vcmpEq md a px b qx ty => Sys2Proof.Machine.execVcmpEq md a px b qx ty s
  | .vcmpNe md a px b qx ty => Sys2Proof.Machine.execVcmpNe md a px b qx ty s
  | .vcmpLt md a px b qx ty => Sys2Proof.Machine.execVcmpLt md a px b qx ty s
  | .vcmpLe md a px b qx ty => Sys2Proof.Machine.execVcmpLe md a px b qx ty s
  | .vcmpGt md a px b qx ty => Sys2Proof.Machine.execVcmpGt md a px b qx ty s
  | .vcmpGe md a px b qx ty => Sys2Proof.Machine.execVcmpGe md a px b qx ty s
  | .vcmpUo md a px b qx ty => Sys2Proof.Machine.execVcmpUo md a px b qx ty s
  | .vsel d a px b qx cx rl ty => Sys2Proof.Machine.execVsel d a px b qx cx rl ty s
  | .mand d a b => Sys2Proof.Machine.execMand d a b s
  | .mor d a b => Sys2Proof.Machine.execMor d a b s
  | .mxor d a b => Sys2Proof.Machine.execMxor d a b s
  | .mnot d a => Sys2Proof.Machine.execMnot d a s
  | .mknow d a => Sys2Proof.Machine.execMknow d a s
  | .mall d a => Sys2Proof.Machine.execMall d a s
  | .mnone d a => Sys2Proof.Machine.execMnone d a s
  | .vcvt d a px sx xx ty => Sys2Proof.Machine.execVcvt d a px sx xx ty s
  | .vqnt d a px wx ty => Sys2Proof.Machine.execVqnt d a px wx ty s
  | .vdeq d a px wx ty => Sys2Proof.Machine.execVdeq d a px wx ty s
  | .vredsum d a px ty => Sys2Proof.Machine.execVredsum d a px ty s
  | .vredmax d a px ty => Sys2Proof.Machine.execVredmax d a px ty s
  | .vredmin d a px ty => Sys2Proof.Machine.execVredmin d a px ty s
  | .vperm d a px b qx cx rl ty => Sys2Proof.Machine.execVperm d a px b qx cx rl ty s
  | .vrot d a px nx ty => Sys2Proof.Machine.execVrot d a px nx ty s
  | .vbcast d a px b qx ty => Sys2Proof.Machine.execVbcast d a px b qx ty s
  | .viota d imm ty => Sys2Proof.Machine.execViota d imm ty s
  | .vsplat d imm ty => Sys2Proof.Machine.execVsplat d imm ty s
  | .vmov d a px ty => Sys2Proof.Machine.execVmov d a px ty s
  | .vclr d ty => Sys2Proof.Machine.execVclr d ty s
  | .vpf ex qx => Sys2Proof.Machine.execVpf ex qx s
  | .vtos sx qx => Sys2Proof.Machine.execVtos sx qx s
  | .vmark => Sys2Proof.Machine.execVmark s
  | .vResultLanding core bank => Sys2Proof.Machine.execVResultLanding core bank s
  | .jadd jd a b ty => Sys2Proof.Machine.execJadd jd a b ty s
  | .jsub jd a b ty => Sys2Proof.Machine.execJsub jd a b ty s
  | .jmul jd a b ty => Sys2Proof.Machine.execJmul jd a b ty s
  | .jdiv jd a b ty => Sys2Proof.Machine.execJdiv jd a b ty s
  | .jsqr jd a ty => Sys2Proof.Machine.execJsqr jd a ty s
  | .jsqrt jd a ty => Sys2Proof.Machine.execJsqrt jd a ty s
  | .jexp2 jd a ty => Sys2Proof.Machine.execJexp2 jd a ty s
  | .jmax jd a b ty => Sys2Proof.Machine.execJmax jd a b ty s
  | .jmin jd a b ty => Sys2Proof.Machine.execJmin jd a b ty s
  | .jabs jd a ty => Sys2Proof.Machine.execJabs jd a ty s
  | .jneg jd a ty => Sys2Proof.Machine.execJneg jd a ty s
  | .jhull jd a b ty => Sys2Proof.Machine.execJhull jd a b ty s
  | .jisect jd a b ty => Sys2Proof.Machine.execJisect jd a b ty s
  | .jlo d a ex ty => Sys2Proof.Machine.execJlo d a ex ty s
  | .jhi d a ex ty => Sys2Proof.Machine.execJhi d a ex ty s
  | .jmid d a ex ty => Sys2Proof.Machine.execJmid d a ex ty s
  | .jrad d a ex ty => Sys2Proof.Machine.execJrad d a ex ty s
  | .jwid d a ex ty => Sys2Proof.Machine.execJwid d a ex ty s
  | .jmkPair jd px a qx b ty => Sys2Proof.Machine.execJmkPair jd px a qx b ty s
  | .jmkPoint jd px a ty => Sys2Proof.Machine.execJmkPoint jd px a ty s
  | .jredsum jd a ty => Sys2Proof.Machine.execJredsum jd a ty s
  | .jcmpLt md a b ty => Sys2Proof.Machine.execJcmpLt md a b ty s
  | .jcmpLe md a b ty => Sys2Proof.Machine.execJcmpLe md a b ty s
  | .jcmpEq md a b ty => Sys2Proof.Machine.execJcmpEq md a b ty s
  | .jcmpNe md a b ty => Sys2Proof.Machine.execJcmpNe md a b ty s
  | .jcmpSub md a b ty => Sys2Proof.Machine.execJcmpSub md a b ty s
  | .jcmpDis md a b ty => Sys2Proof.Machine.execJcmpDis md a b ty s
  | .jempty md a ty => Sys2Proof.Machine.execJempty md a ty s
  | .jst d a ex hx => Sys2Proof.Machine.execJst d a ex hx s
  | .jcvt jd a px ty => Sys2Proof.Machine.execJcvt jd a px ty s
  | .jaddBk zz xx yy ty => Sys2Proof.Machine.execJaddBk zz xx yy ty s
  | .jsubBk zz xx yy ty => Sys2Proof.Machine.execJsubBk zz xx yy ty s
  | .jmulBk zz xx yy ty => Sys2Proof.Machine.execJmulBk zz xx yy ty s
  | .jdivBk zz xx yy ty => Sys2Proof.Machine.execJdivBk zz xx yy ty s
  | .jsqrBk zz xx ty => Sys2Proof.Machine.execJsqrBk zz xx ty s
  | .jsqrtBk zz xx ty => Sys2Proof.Machine.execJsqrtBk zz xx ty s
  | .jexp2Bk zz xx ty => Sys2Proof.Machine.execJexp2Bk zz xx ty s
  | .jmaxBk zz xx yy ty => Sys2Proof.Machine.execJmaxBk zz xx yy ty s
  | .jminBk zz xx yy ty => Sys2Proof.Machine.execJminBk zz xx yy ty s
  | .jabsBk zz xx ty => Sys2Proof.Machine.execJabsBk zz xx ty s
  | .jnegBk zz xx ty => Sys2Proof.Machine.execJnegBk zz xx ty s
  | .jsplat jd imm => Sys2Proof.Machine.execJsplat jd imm s
  | .mtile b => Sys2Proof.Machine.execMtile b s
  | .mzacc b => Sys2Proof.Machine.execMzacc b s
  | .mret => Sys2Proof.Machine.execMret s
  | .mmark => Sys2Proof.Machine.execMmark s
  | .mtileStep core => Sys2Proof.Machine.execMtileStep core s
  | .mtileReductionEnd core => Sys2Proof.Machine.execMtileReductionEnd core s
  | .mtileRetirementDone core => Sys2Proof.Machine.execMtileRetirementDone core s
  | .saAdd d a b ty => Sys2Proof.Machine.execSaAdd d a b ty s
  | .saAddq d a b sx ty => Sys2Proof.Machine.execSaAddq d a b sx ty s
  | .saMin d a b ty => Sys2Proof.Machine.execSaMin d a b ty s
  | .saMax d a b ty => Sys2Proof.Machine.execSaMax d a b ty s
  | .saOr d a b ty => Sys2Proof.Machine.execSaOr d a b ty s
  | .saAnd d a b ty => Sys2Proof.Machine.execSaAnd d a b ty s
  | .saXch d a b ty => Sys2Proof.Machine.execSaXch d a b ty s
  | .saCnt d a ty => Sys2Proof.Machine.execSaCnt d a ty s
  | .saScl a sx => Sys2Proof.Machine.execSaScl a sx s
  | .saRd d a sx ty => Sys2Proof.Machine.execSaRd d a sx ty s
  | .saWindow core bank => Sys2Proof.Machine.execSaWindow core bank s
  | .saRmwPerform core bank => Sys2Proof.Machine.execSaRmwPerform core bank s
  | .beatBoundary die => Sys2Proof.Machine.execBeatBoundary die s
  | .alignmentPauseEnd die => Sys2Proof.Machine.execAlignmentPauseEnd die s
  | .beatObserved core bank eng => Sys2Proof.Machine.execBeatObserved core bank eng s
  | .beaconSend die => Sys2Proof.Machine.execBeaconSend die s
  | .beaconReceive die src => Sys2Proof.Machine.execBeaconReceive die src s
  | .livenessTimeout die => Sys2Proof.Machine.execLivenessTimeout die s
  | .refreshCheck pc grp => Sys2Proof.Machine.execRefreshCheck pc grp s
  | .freezeBegin die => Sys2Proof.Machine.execFreezeBegin die s
  | .forcedRefreshStart pc => Sys2Proof.Machine.execForcedRefreshStart pc s
  | .freezeEnd die => Sys2Proof.Machine.execFreezeEnd die s
  | .deadlineRefresh pc grp => Sys2Proof.Machine.execDeadlineRefresh pc grp s
  | .seqCommandStart pc => Sys2Proof.Machine.execSeqCommandStart pc s
  | .seqCommandComplete pc => Sys2Proof.Machine.execSeqCommandComplete pc s
  | .transferSend pc => Sys2Proof.Machine.execTransferSend pc s
  | .drdStripLanding pc => Sys2Proof.Machine.execDrdStripLanding pc s
  | .farRequestArrival id => Sys2Proof.Machine.execFarRequestArrival id s
  | .farSlot pc => Sys2Proof.Machine.execFarSlot pc s
  | .rdcBlockAccept core bank => Sys2Proof.Machine.execRdcBlockAccept core bank s
  | .reductionStrip stack => Sys2Proof.Machine.execReductionStrip stack s
  | .reductionFinish stack => Sys2Proof.Machine.execReductionFinish stack s
  | .addressPieceSend core bank n => Sys2Proof.Machine.execAddressPieceSend core bank n s
  | .addressPieceReply id => Sys2Proof.Machine.execAddressPieceReply id s
  | .pageWalk core bank unit => Sys2Proof.Machine.execPageWalk core bank unit s
  | .ctxSend die => Sys2Proof.Machine.execCtxSend die s
  | .ctxLanding die => Sys2Proof.Machine.execCtxLanding die s
  | .nodeFrameArrival port src dst head len wr data => Sys2Proof.Machine.execNodeFrameArrival port src dst head len wr data s
  | .nodeAcknowledgement id ok data => Sys2Proof.Machine.execNodeAcknowledgement id ok data s
  | .nodeDestinationUnreachable dev => Sys2Proof.Machine.execNodeDestinationUnreachable dev s
  | .taskEnd core bank => Sys2Proof.Machine.execTaskEnd core bank s
  | .lqtailWrite vf q val => Sys2Proof.Machine.execLqtailWrite vf q val s
  | .packetRead vf q => Sys2Proof.Machine.execPacketRead vf q s
  | .lqctlOff vf q => Sys2Proof.Machine.execLqctlOff vf q s
  | .lqctlRun vf q => Sys2Proof.Machine.execLqctlRun vf q s
  | .lqctlDrain vf q => Sys2Proof.Machine.execLqctlDrain vf q s
  | .lqctlAbort vf q => Sys2Proof.Machine.execLqctlAbort vf q s
  | .vfuseWrite vf => Sys2Proof.Machine.execVfuseWrite vf s
  | .planactWrite val => Sys2Proof.Machine.execPlanactWrite val s
  | .aelsWrite pc => Sys2Proof.Machine.execAelsWrite pc s
  | .telsWrite pc => Sys2Proof.Machine.execTelsWrite pc s
  | .mclogWrite core w val => Sys2Proof.Machine.execMclogWrite core w val s
  | .asinvWrite vf val => Sys2Proof.Machine.execAsinvWrite vf val s
  | .asinvDone vf => Sys2Proof.Machine.execAsinvDone vf s
  | .cebaseWrite die val => Sys2Proof.Machine.execCebaseWrite die val s
  | .cetailWrite die val => Sys2Proof.Machine.execCetailWrite die val s
  | .ceJobStart die => Sys2Proof.Machine.execCeJobStart die s
  | .ceJobComplete die => Sys2Proof.Machine.execCeJobComplete die s
  | .gangStopRequest core bank => Sys2Proof.Machine.execGangStopRequest core bank s
  | .cutTaken gang => Sys2Proof.Machine.execCutTaken gang s
  | .cutcmdNoEffect vf val => Sys2Proof.Machine.execCutcmdNoEffect vf val s
  | .cutcmdResume vf val => Sys2Proof.Machine.execCutcmdResume vf val s
  | .cutcmdEnd vf val => Sys2Proof.Machine.execCutcmdEnd vf val s
  | .cutcmdPreempt vf val => Sys2Proof.Machine.execCutcmdPreempt vf val s
  | .rowReopen pc => Sys2Proof.Machine.execRowReopen pc s
  | .powerUp => Sys2Proof.Machine.execPowerUp s
  | .bootctlGo len => Sys2Proof.Machine.execBootctlGo len s
  | .bootVerificationDone => Sys2Proof.Machine.execBootVerificationDone s
  | .pcieConventionalReset => Sys2Proof.Machine.execPcieConventionalReset s
  | .bwinWrite val => Sys2Proof.Machine.execBwinWrite val s
  | .hostBarAccess fn bar off size wr val => Sys2Proof.Machine.execHostBarAccess fn bar off size wr val s
  | .hostWindowCompletion id ok data => Sys2Proof.Machine.execHostWindowCompletion id ok data s
  | .attreqWrite val => Sys2Proof.Machine.execAttreqWrite val s
  | .attestationReportDone => Sys2Proof.Machine.execAttestationReportDone s
  | .rlptrWrite val => Sys2Proof.Machine.execRlptrWrite val s
  | .fatalErrorDump cause => Sys2Proof.Machine.execFatalErrorDump cause s
  | .pwrctlWrite die val => Sys2Proof.Machine.execPwrctlWrite die val s
  | .thermalThresholdChange die temp => Sys2Proof.Machine.execThermalThresholdChange die temp s
  | .stackHotChange stack temp => Sys2Proof.Machine.execStackHotChange stack temp s
  | .clockSkipTimeout die => Sys2Proof.Machine.execClockSkipTimeout die s
  | .transitionWindowEnd die => Sys2Proof.Machine.execTransitionWindowEnd die s
  | .registerWrite pa val => Sys2Proof.Machine.execRegisterWrite pa val s
  | .cScratchpadCommandComplete core bank => Sys2Proof.Machine.execCScratchpadCommandComplete core bank s
  | .saRdComplete core bank => Sys2Proof.Machine.execSaRdComplete core bank s
  | .eventMessageTimestamp port dir => Sys2Proof.Machine.execEventMessageTimestamp port dir s

end Sys2Proof.Machine
end

