-- ==== Sys2Proof/Machine/Fetch.lean ====
section
/-!
DEFINITION. What one move of the machine does: an engine fetches and runs the next thing of its walk (02_program_text R24-R33,
R390), or time passes on a die, with every event of it that is due (04_beats R67, R87).
-/

namespace Sys2Proof.Machine

/-! ### Fetching -/

/-- What a fetch of text answers: the halfwords, a walk of the page table to wait for, a cause with its address, or an
uncorrectable strip at a physical address. -/
inductive Fetched where
  | ok (hs : List Nat)
  | walk
  | cause (code va : Nat)
  | bad (pa : Nat)
deriving DecidableEq, Repr

/-- The 32 bytes of text from pa on, whole (R277), for the fetch at va. -/
def textUnit (s : State) (pa va : Nat) : State × Except Fetched (List Byte) :=
  if region pa = .host ∨ region pa = .peer then
    match outsideRead s pa 32 with
    | (s, some bs) => (s, .ok bs)
    | (s, none) => (s, .error (.cause 334 va))
  else
    match tierRead s pa 32 2 with
    | (s, .ok bs) => (s, .ok bs)
    | (s, .error a) => (s, .error (if isLost s (chanOf a) then .cause 303 va else .bad a))

/-- The halfword of the text at va, fetched for engine e of task k (R24, R328), from the 32-byte unit that it read last or from a new
one (R277). -/
def textHalf (s : State) (k : Nat) (e : Eng) (va : Nat) : State × Fetched :=
  let half (bs : List Byte) : Fetched := .ok [bytesToNat ((bs.drop (va % 32)).take 2)]
  if va % 2 ≠ 0 then (s, .cause 149 0)
  else
    match (s.eng k e).text.filter fun x => x.1 == va / 32 with
    | some x => (s, half x.2)
    | none =>
      match translate s k (2 + e.tag) va 2 151 with
      | (s, .walk) => (s, .walk)
      | (s, .cause c) => (s, .cause c va)
      | (s, .leaf l) =>
        match textUnit s (l.phys va / 32 * 32) va with
        | (s, .ok bs) => (s.modEng k e fun x => { x with text := some (va / 32, bs) }, half bs)
        | (s, .error r) => (s, r)

/-- The halfword at va of the running block body, from the loop buffer if it has been copied there, else from the text (R28). -/
def bodyHalf (s : State) (k : Nat) (e : Eng) (va : Nat) : State × Fetched :=
  let x := s.eng k e
  let i := (va - x.body) / 2
  let h := Sparse.rd 0 x.loop i
  if h ≠ 0 ∧ va % 2 = 0 then (s, .ok [h - 1])
  else
    match textHalf s k e va with
    | (s, .ok hs) => (s.modEng k e fun x => { x with loop := Sparse.wr 0 x.loop i (hs.headD 0 + 1) }, .ok hs)
    | r => r

/-- The chain and instruction at va: prefixes, then a word of two halfwords or one short halfword; n halfwords are left in the
body. -/
def gather (s : State) (k : Nat) (e : Eng) (va : Nat) : Nat → State × Fetched
  | 0 => (s, .ok [])
  | n + 1 =>
    match bodyHalf s k e va with
    | (s, .ok [h]) =>
      if 32768 ≤ h then
        if n = 0 then (s, .ok [h])
        else
          match bodyHalf s k e (va + 2) with
          | (s, .ok hs) => (s, .ok (h :: hs))
          | r => r
      else if isPrefix e h then
        match gather s k e (va + 2) n with
        | (s, .ok hs) => (s, .ok (h :: hs))
        | r => r
      else (s, .ok [h])
    | r => r

/-- The executing engine cannot go on with its fetch: it waits for the walk, or stops with the cause. -/
def fetchFailed (s : State) : Fetched → State
  | .cause code va => if code = 149 then trap 149 s else trapAt code va s
  | .bad pa => machineCheck s s.cur.core 2 (s.stripOf pa) (pa / 32 * 32) (syndrome s (s.stripOf pa))
  | _ => s.modMyEng fun x => { x with wait := .retry }

/-! ### An engine moves -/

/-- The engine that moves becomes the executing one, at an instruction of n halfwords with prefix chain ch. -/
def setCur (s : State) (core bank : Nat) (e : Eng) (ch : Chain) (n : Nat) : State :=
  { s with cur := { core := core, bank := bank, eng := e, ch := ch, pc := (s.eng (tkey core bank) e).pc, size := n } }

/-- The word that stands where engine e expects a block header (R24-R28): a field out of its range is an illegal encoding, a bit
that must be 0 a reserved field. -/
noncomputable def runHeader (w : Nat) (s : State) : Result :=
  match decodeHeader w with
  | some (.blockHeader ty imm lx rl) =>
    if 4 < ty ∨ lx = 0 then .next (trap 144 s)
    else if bitOf w 20 then .next (trap 145 s)
    else exec (.blockHeader ty imm lx rl) s
  | _ => .next (trap 144 s)

/-- Engine e reads the header at its program counter from memory (R277): it fetches both halfwords of the word before the checks of R26
(log entry 69). -/
noncomputable def headerMove (s : State) (core bank : Nat) (e : Eng) : Result :=
  let k := tkey core bank
  let s := (setCur s core bank e {} 2).modEng k e fun x => { x with text := none }
  let va := s.cur.pc
  match textHalf s k e va with
  | (s, .ok [h]) =>
    match textHalf s k e (va + 2) with
    | (s, .ok [l]) => runHeader (h * 65536 + l) s
    | (s, r) => .next (fetchFailed s r)
  | (s, r) => .next (fetchFailed s r)

/-- What engine e decoded at its program counter is executed; n is the number of halfwords left in the body (R31). -/
noncomputable def runDecoded (s : State) (core bank : Nat) (e : Eng) (left : Nat) : Decoded → Result
  | .ok ch i n =>
    let s := setCur s core bank e ch n
    if isControl i ∧ n ≠ left then .next (trap 0 s) else exec i s
  | .bad src c => .next (trap (causeOf src c) s)
  | .cut => .next (trap 144 s)

/-- Engine e fetches, decodes and executes the instruction at its program counter. One that a cut stopped behind the last instruction
of its body ends the pass (R28, R289). -/
noncomputable def bodyMove (s : State) (core bank : Nat) (e : Eng) : Result :=
  let k := tkey core bank
  let x := s.eng k e
  let s := setCur s core bank e {} 0
  let left := (x.body + 2 * x.len - x.pc) / 2
  if left = 0 then .next (passEnd s k e)
  else
    match gather s k e x.pc left with
    | (s, .ok hs) => runDecoded s core bank e left (decodeIn e left hs)
    | (s, r) => .next (fetchFailed s r)

/-- Engine e does the next thing of its walk by its phase; the pipelines of V go on after its end record (R30, R190). -/
noncomputable def phaseMove (s : State) (core bank : Nat) (e : Eng) : Result :=
  let k := tkey core bank
  match (s.eng k e).phase with
  | .idle => .next (if e = .v then cycleV s k else s)
  | .header => headerMove s core bank e
  | .count => .next (popCount s k e)
  | .body => bodyMove s core bank e
  | .path =>
    if e = .s then .next (tryEmit s k)
    else .next (takeRecord (if e = .v then cycleV s k else s) k e)

/-- Engine e may move: its task is attached and issues from this bank or ends what it has under way, its core and die run, and no stop has
reached it; M and A end what they have under way (R244, R256, R341, R348, R362). -/
def mayMove (s : State) (core bank : Nat) (e : Eng) : Bool :=
  let k := tkey core bank
  let t := s.task k
  let d := s.die (dieOf core)
  s.attached k && (s.issuing core == bank || t.stop) && !(s.core core).halted && !d.fenced && !d.failed && mayIssue s k
    && !(s.eng k e).stopped
    && (!t.stop || (e == .m && t.m.run.isSome) || (e == .a && t.a.ins.isSome))

/-- The nest of a running mtile takes its next step, or the copy at a reduction end. -/
def nestMove (s : State) (core : Nat) (r : MRun) : State := if r.atEnd then reductionEnd s core else tileStep s core

/-- M, whose mtile runs, walks on and starts what does not wait for it (R231): whether it does so now is open (R391). -/
def matrixWalks (s : State) (k : Nat) : Bool × State :=
  let t := s.task k
  if t.stop ∨ t.m.waiting then (false, s)
  else
    let (c, s) := s.choose
    (decide (c % 2 = 1), s)

/-- The next thing that M does while an mtile runs. -/
noncomputable def matrixMove (s : State) (core bank : Nat) (r : MRun) : Result :=
  match matrixWalks s (tkey core bank) with
  | (true, s) => phaseMove s core bank .m
  | (false, s) => .next (nestMove s core r)

/-- The next thing that engine e of the task in that bank does. -/
noncomputable def runEngine (s : State) (core bank : Nat) (e : Eng) : Result :=
  let k := tkey core bank
  if !mayMove s core bank e then .next s
  else
    match e, (s.task k).m.run, (s.task k).a.ins with
    | .m, some r, _ => matrixMove s core bank r
    | .a, _, some i => .next (if i.op = 9 then finishRd s k else windowStep s k)
    | _, _, _ =>
      match (s.eng k e).wait with
      | .load => .next (returnLoad s k)
      | .fence _ _ => .next (wakeFence s k)
      | .gbar _ _ => .next (wakeBarrier s k)
      | .waitt _ => .next (wakeWaitt s k)
      | .beat _ => .next (wakeBeat s k e)
      | _ => phaseMove s core bank e

/-! ### Time passes on a die -/

/-- The first pseudo-channel of die d at which f finds something due. -/
def firstChan (d : Nat) (f : Nat → Option State) : Option State := (chansOf d).findSome? f

/-- The first of its two stacks. -/
def firstStack (d : Nat) (f : Nat → Option State) : Option State := [2 * d, 2 * d + 1].findSome? f

/-- Landings that are due on die d, those of drd strips first, and collisions (R109, R120, R146, R147). -/
def landWork (s : State) (d : Nat) : Option State :=
  match firstChan d fun p => (landDueOf s p).map fun _ => landStrip s p with
  | some s => some s
  | none =>
    match collisionDue s d with
    | some c => some (collide s c)
    | none =>
      if (s.die d).ctx.any (ctxSpent s) then some (ctxEmpty s d)
      else if (ctxLandDue s d).isSome then some (landCtx s d)
      else none

/-- Completions and sends that are due (R78, R103, R382). -/
def doneWork (s : State) (d : Nat) : Option State :=
  firstChan d fun p =>
    if (doneDue s p).isSome then some (completeNext s p)
    else if (sendDue s p).isSome then some (sendNext s p)
    else if (farDue s p).isSome then some (serveSlot s p)
    else none

/-- What ends or closes now: a freeze, a transition window, a pause, a beat (R87, R143, R362). -/
def endWork (s : State) (d : Nat) : Option State :=
  if freezeOver (s.die d) then some (endFreeze s d)
  else if windowDue s d then some (endWindow s d)
  else if pauseOver s d then some (endPause s d)
  else if closeDue s d then some (closeBeat s d)
  else none

/-- Refreshes and their checks (R80-R83). -/
def refreshWork (s : State) (d : Nat) : Option State :=
  firstChan d fun p =>
    match (dueGroups s p).find? fun g => checkDue s p g with
    | some g => some (checkRefresh s p g)
    | none =>
      if (forcedDue s p).isSome then some (startForced s p)
      else ((dueGroups s p).find? fun g => plainDue s p g).map fun g => refreshNow s p g

/-- The fabric: beacons that arrive or leave, silence, transfers to be sent (R141, R146, R317). -/
def fabricWork (s : State) (d : Nat) : Option State :=
  match (neighbours d).find? fun e => (arrived s d e).isSome with
  | some e => some (takeBeacon s d e)
  | none =>
    if (ctxDue s d).isSome then some (sendCtx s d)
    else if ((neighbours d).find? (silent s)).isSome then ((neighbours d).find? (silent s)).map (fenceDie s)
    else if beaconDue s d ∧ !(s.die d).fenced then some (sendBeacons s d)
    else none

/-- Power and heat: skipped clock edges, thresholds and retention states whose time has come (R79, R358, R361). -/
def powerWork (s : State) (d : Nat) : Option State :=
  if skipDue s d then some (skipClock s d)
  else if feelDue s d then some (feel s d)
  else firstStack d fun k => (stackTurns s k).map fun _ => turnStack s k

/-- The pieces that commands of C send to peers 2 ticks after the piece before (R373). -/
def pieceWork (s : State) (d : Nat) : Option State :=
  firstChan d fun c => [tkey c 0, tkey c 1].findSome? fun k => (peerDue s k).map fun id => sendNextPiece s k id

/-- Command starts, reopens, far slots and the strips of reductions (R75, R78, R96, R348). -/
def startWork (s : State) (d : Nat) : Option State :=
  match firstChan d fun p =>
      if (startDue s p).isSome then some (startNext s p)
      else if (reopenDue s p).isSome then some (reopenNext s p)
      else if (slotNow s p).isSome then some (serveSlot s p)
      else none with
  | some s => some s
  | none =>
    firstStack d fun k =>
      if (stripDue s k).isSome then some (reduceStrip s k)
      else if (endingBlock s k).isSome then some (finishBlock s k)
      else none

/-- A stop request that has been under way for 104 ticks from the detach point, its longest, reaches a task on die d (R340). -/
def stopWork (s : State) (d : Nat) : Option State :=
  s.dist.gangs.findSome? fun g =>
    if g.st ≠ .detaching then none
    else
      let o := dieOf ((g.tasks.getD g.cut.orig 0) / 2)
      if (s.die o).tick2 < g.cut.tick2 + 208 then none
      else (g.live.find? fun k => dieOf (k / 2) == d && !(s.task k).stop).map fun k => requestStop s k

/-- The first event of die d that is due, performed. -/
def dieWork (s : State) (d : Nat) : Option State :=
  (landWork s d).orElse fun _ => (doneWork s d).orElse fun _ => (endWork s d).orElse fun _ => (refreshWork s d).orElse fun _ =>
    if (freezeDue s d).isSome then some (beginFreeze s d)
    else
      (fabricWork s d).orElse fun _ => (powerWork s d).orElse fun _ => (startWork s d).orElse fun _ =>
        (pieceWork s d).orElse fun _ => stopWork s d

/-- The dies that work. -/
def workingDies (s : State) : List Nat := (List.range 8).filter fun e => !(s.die e).fenced && !(s.die e).failed

/-- Firmware sets NTIME on every die to a free value, which it may do while no gang is attached (R150). -/
def stepTime (s : State) : State :=
  let (v, s) := s.choose
  (List.range 8).foldl (fun s d => s.modDie d fun x => { x with ntime := v % 2 ^ 64 }) s

/-- Node time of die d goes on by the amount that its rate gives, which is open, as long as the copies agree within 4 ns (R150). -/
def passTime (s : State) (d : Nat) : State :=
  let (c, s) := s.choose
  let x := s.die d
  let n := (x.ntime + c % 2) % 2 ^ 64
  let agree := (workingDies s).all fun e => decide (n ≤ (s.die e).ntime + 4)
  let s := if agree then s.modDie d fun x => { x with ntime := n } else s
  if 2 ≤ c % 4 ∧ s.dist.gangs.all fun g => g.st != .attached && g.st != .detaching then stepTime s else s

/-- Half ticks after which the clock of a die may have drifted by one against real time, so that two dies drift by 40 ppm (R142). -/
def driftTime : Nat := 50000

/-- The clock of die d drifts by up to half a tick, where enough time has passed since it last did (R142; log entry 54). -/
def drifts (s : State) (d : Nat) : State :=
  let x := s.die d
  if x.tick2 < x.drift2 + driftTime then s
  else
    let (c, s) := s.choose
    s.modDie d fun x => { x with drift := x.drift + ((c + 1) % 3 : Nat) - 1, drift2 := x.tick2 }

/-- Half a tick passes on die d (R66, R67, R151): its clock, its offset while it counts, and node time. -/
def halfTick (s : State) (d : Nat) : State :=
  passTime (drifts (s.modDie d fun x =>
    { x with tick2 := x.tick2 + 1, off2 := if counting x ∧ s.grid.started then x.off2 + 1 else x.off2 }) d) d

/-- Real time as die d has reached it, in half ticks. -/
def reached (s : State) (d : Nat) : Int := (s.die d).tick2 - (s.die d).drift

/-- The die on which time passes next where it is to pass on die d: no working die gets ahead of another (R142; log entry 54). -/
def nextDie (s : State) (d : Nat) : Nat :=
  if (s.die d).fenced then d
  else (workingDies s).foldl (fun m e => if reached s e < reached s m then e else m) d

/-- The next thing that time brings, on die d or on one that is behind it. Nothing happens on a die that has failed. -/
def elapseDie (s : State) (d : Nat) : State :=
  if 8 ≤ d ∨ (s.die d).failed then s
  else
    let d := nextDie s d
    match dieWork s d with
    | some s => s
    | none => halfTick s d

/-- The engines of task k whose wait has become a cause that must not be missed: C at take once S stalls, V at a queue once C stalls at
take (R136, R162). -/
def prompted (s : State) (k : Nat) : List Eng :=
  let take := (s.eng k .c).wait == .hq && (s.task k).hq.isEmpty
  (if take && stalledFor s k .c then [.c] else []) ++ if take && (s.eng k .v).wait == .retry then [.v] else []

/-- Those engines move, then the counts that can no longer come raise their cause (R29). -/
noncomputable def prompt (core bank : Nat) : List Eng → State → Result
  | [], s => .next (starve s (tkey core bank))
  | e :: r, s =>
    match runEngine s core bank e with
    | .next s => prompt core bank r s
    | x => x

/-- What follows at once from a move of an engine of the task in that bank (R29, R136, R162; log entry 60). -/
noncomputable def settle (core bank : Nat) : Result → Result
  | .next s => prompt core bank (prompted s (tkey core bank)) s
  | x => x

/-- The task whose engine goes on by an event. -/
def wakes : Instr → Option (Nat × Nat)
  | .repnPop core bank _ => some (core, bank)
  | .pathRecordTake core bank _ => some (core, bank)
  | .sLoadReturn core bank => some (core, bank)
  | .waittWake core bank => some (core, bank)
  | .fenceRetire core bank => some (core, bank)
  | .gbarRelease core bank => some (core, bank)
  | .beatObserved core bank _ => some (core, bank)
  | _ => none

/-- An event takes place. -/
noncomputable def performEvent (i : Instr) (s : State) : Result :=
  match wakes i with
  | some x => settle x.1 x.2 (exec i s)
  | none => exec i s

/-- One move of the machine. An event is a row of the opcode table that has no encoding. The environment makes a strip bad, or the next send
of a pseudo-channel, or a die fail (R89, R90, R317). -/
noncomputable def performMove (s : State) : Move → Result
  | .run core bank e => if core < 768 ∧ bank < 2 then settle core bank (runEngine s core bank e) else .next s
  | .event i => if (layout i).isNone then performEvent i s else .next s
  | .elapse d => .next (elapseDie s d)
  | .cellFault strip syms syn flips =>
    .next { s with cellFaults := { strip := strip, syms := syms, syn := syn, flips := flips }
                    :: s.cellFaults.filter fun f => f.strip != strip }
  | .busFault p fails => .next (s.modChan p fun c => { c with busFaults := c.busFaults ++ [fails] })
  | .dieFault d => .next (s.modDie d fun x => { x with failed := true })

/-- The move that comes next: the head of the agenda, else the free move of that number (log entry 4). -/
noncomputable def nextMove (s : State) : Result :=
  match s.agenda with
  | m :: r => performMove { s with agenda := r } m
  | [] => performMove { s with moves := s.moves + 1 } (Config.freeMove s.moves)

/-! ### An instruction put where the machine fetches next (log entry 5) -/

/-- The engine that runs a word of the opcode table: the one whose decoder decodeTableWord names. -/
noncomputable def engineFor : List Eng → List Nat → Eng
  | [], _ => .s
  | e :: r, hs =>
    match decode e hs with
    | .ok _ _ _ => e
    | _ => engineFor r hs

/-- The text page of that instruction: its virtual and its physical address, in the capacity tier. -/
def fetchVa : Nat := 0x10000
def fetchPa : Nat := 0x010000000000

/-- The halfwords of an instruction of nbits bits, first to last (R24). -/
def wordHalves (nbits w : Nat) : List Nat := if nbits ≤ 16 then [w % 65536] else [w % 2 ^ 32 / 65536, w % 65536]

/-- Core 1 runs a gang of one task in bank 0, engine e of it stands at the text page with hs before it, in a block body or, where
header is set, before a block header, and moves next. -/
def placeText (s : State) (e : Eng) (header : Bool) (hs : List Nat) : State :=
  let x : EngSt := { phase := if header then .header else .body, pc := fetchVa, body := fetchVa, len := hs.length, passes := 1,
                     first := true, inter := true }
  let leaf : Leaf := { va := fetchVa, pa := fetchPa, r := true, w := true, x := true, node := 8 }
  let s := s.modTask 2 fun t =>
    { t with gang := some s.dist.next, stop := false, engs := Sparse.wr {} t.engs e.tag x
             m := { t.m with run := none }, a := { t.a with ins := none }, tlb := { t.tlb with cond := [leaf] } }
  let s := s.modCore 1 fun c => { c with halted := false }
  let s := s.modDie 0 fun d => { d with fenced := false, failed := false, power := { d.power with window := none } }
  let g : Gang := { id := s.dist.next, tasks := [2], colours := [0], st := .attached }
  { s with mem := s.mem.wrList fetchPa (hs.flatMap (natToBytes 2))
           dist := { s.dist with gangs := g :: s.dist.gangs, next := s.dist.next + 1 }
           agenda := [.run 1 0 e] }

/-- The instruction of nbits bits w put where the machine fetches next. -/
noncomputable def placeWord (s : State) (nbits w : Nat) : State :=
  let hs := wordHalves nbits w
  if nbits ≤ 16 then placeText s .s false hs
  else
    match decodeHeader (w % 2 ^ 32) with
    | some _ => placeText s .s true hs
    | none => placeText s (engineFor [.m, .a, .s, .c, .v] hs) false hs

end Sys2Proof.Machine
end

