-- ==== Sys2Proof/Machine/Step.lean ====
section
/-!
DEFINITION. One step of the machine, and the instruction that the host puts where the next step fetches.
-/

namespace Sys2Proof.Machine

/-- One step: the next move of the machine. -/
noncomputable def step (s : State) : Host.Outcome State Fault Refusal := nextMove s

/-- s with the instruction of nbits bits w stored where step fetches next: a task of a gang attached on core 1 stands at it. -/
noncomputable def State.withFetchWord (s : State) (nbits w : Nat) : State := placeWord s nbits w

end Sys2Proof.Machine
end

