-- ==== Sys2Proof/Safety.lean ====
section
/-!
DEFINITION. What the claims speak of: when an instruction can issue, what of the state is the walk of an engine alone, the bytes
that a reader sees, and the invariant that memory and the row lines keep their canonical form.
-/

namespace Sys2Proof.Machine

/-! ### The walk of an engine -/

/-- An engine without its place in the walk: its phase, program counter, wait, passes and records taken. -/
def EngSt.still (x : EngSt) : EngSt :=
  { x with phase := .idle, pc := 0, wait := .none, latched := none, passes := 0, first := false, size := 0, taken := 0 }

/-- A task without the place of engine e in the walk and without the path records (R32, R33). -/
def Task.still (e : Eng) (t : Task) : Task :=
  { t with engs := Sparse.wr {} t.engs e.tag (Sparse.rd {} t.engs e.tag).still, recs := [], recBase := 0, emit := none }

/-- A gang without what the race checker keeps (R353). -/
def Gang.bare (g : Gang) : Gang := { g with race := [], raceNext := 0, known := [], shown := [], met := [] }

/-- The state without task k and without the race checkers. -/
def State.rest (k : Nat) (s : State) : State :=
  { s with tasks := Sparse.del s.tasks k, dist := { s.dist with gangs := s.dist.gangs.map Gang.bare } }

/-- From s to t only the walk of engine e of task k has moved: every register, flag, queue, token, byte and other task is the same.
The program counter, the path records and the race checker may differ. -/
def Walks (k : Nat) (e : Eng) (s t : State) : Prop :=
  t.rest k = s.rest k ∧ (t.task k).still e = (s.task k).still e

/-! ### Issue -/

/-- The token words that the executing instruction waits for, once it can read them: S reads them when the other engines have
reached the header of its block (R37, R259). -/
def issueValues (s : State) : Option (List Word) :=
  match s.myEng.latched with
  | some vals => some vals
  | none =>
    if s.cur.ch.waits ≠ [] ∧ s.cur.eng = .s ∧ !othersReached s s.key then none
    else some (s.cur.ch.waits.map (tokenView s s.key s.cur.eng))

/-- The executing instruction is past its token waits. -/
def CanIssue (s : State) : Prop := ∃ vals, issueValues s = some vals ∧ vals.all (tokenDone s s.key) = true

/-- The race checker of the executing task's gang is off, or holds no instruction (R353). -/
def CheckerIdle (s : State) : Prop := ∀ g, s.gangOf s.key = some g → g.det = true → g.race = []

/-- The executing instruction is past its token waits, a token is free for it, and C has no command before it that it must wait
for (R165). -/
def CanSend (s : State) : Prop :=
  CanIssue s ∧ s.myEng.opn.length < tokenLimit ∧ cBusy s = false ∧ CheckerIdle s

/-- No result of V in flight lands in the next cycle (R190). -/
def NoLanding (s : State) : Prop := ∀ f ∈ s.me.v.flights, s.me.v.cyc + 1 < f.due

/-- A token is taken for the executing instruction, and stays incomplete. -/
def openToken (s : State) : State := (newToken s).2

/-- A token is taken for the executing instruction, and completes. -/
def doneToken (s : State) : State := completeToken (newToken s).2 s.key s.cur.eng (newToken s).1

/-! ### Memory -/

/-- The byte at a physical address of the device's two tiers, as a reader sees it: from the row line that holds it, or from the array
(R53, R57). -/
def State.byteAt (s : State) (pa : Nat) : Byte :=
  match region pa with
  | .fast => (s.stripData (s.stripOf pa)).getD (pa % 32) 0#8
  | .cap => s.mem.get pa
  | _ => 0#8

/-- The row line that a slot holds, where it holds one, is in canonical form. -/
def slotWf : Option SlotSt → Bool
  | none => true
  | some l => l.data.wf

/-- Memory, and every row line that overlays it, is in canonical form: memories that read alike are equal. -/
def State.MemWf (s : State) : Prop := s.mem.wf = true ∧ ∀ c ∈ s.chans, ∀ l ∈ c.2.slots, slotWf l.2 = true

/-! ### What an instruction does -/

/-- The outcome is a next state. -/
def Goes (r : Result) : Prop := ∃ t, r = .next t

/-- In t the executing engine has retired its instruction: it stands just past it; where that was the last of its block's body, it
starts the body again while passes are left (R28), else it has left the block: S with the record of a fall-through, which is emitted where
fewer than WIN are outstanding (R32-R34), another engine at the next header. -/
def PastIt (s t : State) : Prop :=
  let x := s.myEng
  let stop := x.body + 2 * x.len
  let next := s.cur.pc + 2 * s.cur.size
  (next ≠ stop → t.myEng.pc = next)
  ∧ (next = stop → 2 ≤ x.passes → t.myEng.pc = x.body ∧ t.myEng.passes = x.passes - 1)
  ∧ (next = stop → x.passes < 2 → s.cur.eng ≠ .s → t.myEng.phase = .header ∧ t.myEng.pc = stop)
  ∧ (next = stop → x.passes < 2 → s.cur.eng = .s →
    t.me.recs ++ t.me.emit.toList = s.me.recs ++ [{ kind := 0, target := stop, serial := x.serial }]
    ∧ (s.me.recs.length < t.me.csr.win → t.me.emit = none ∧ t.myEng.phase = .header ∧ t.myEng.pc = stop))

/-- Executing i leads from s to u, up to the walk of the executing engine and the race checkers. -/
def Moves (i : Instr) (s u : State) : Prop := ∃ t, exec i s = .next t ∧ Walks s.key s.cur.eng u t

/-- Executing i leads from s to u, up to the walk of the executing engine and the race checkers, and i has retired. -/
def Does (i : Instr) (s u : State) : Prop := ∃ t, exec i s = .next t ∧ Walks s.key s.cur.eng u t ∧ PastIt s t

/-- Executing i makes S leave its block with a path record of the given kind and target, and leads to u but for the walk of S (R32,
R33): the record is emitted, and S goes on at its target, where fewer than WIN records are outstanding. -/
def Leaves (i : Instr) (s u : State) (kind target : Nat) : Prop :=
  ∃ t, exec i s = .next t ∧ Walks s.key .s u t
    ∧ t.me.recs ++ t.me.emit.toList = s.me.recs ++ [{ kind := kind, target := target, serial := s.myEng.serial }]
    ∧ (s.me.recs.length < s.me.csr.win → t.me.emit = none
        ∧ (kind = 2 → t.myEng.phase = .idle) ∧ (kind ≠ 2 → t.myEng.phase = .header ∧ t.myEng.pc = target))

/-- A hit in the conductor TLB (R328): leaf l maps va and allows the access (0 load, 1 store), and u is s with that leaf at the front
of the cache. -/
def Hits (s : State) (va acc : Nat) (l : Leaf) (u : State) : Prop :=
  ∃ c, lookup s.me.tlb.cond va = some (l, c) ∧ placed s l va = true ∧ l.allows acc = true
    ∧ u = s.modMe fun t => { t with tlb := { t.tlb with cond := c } }

/-- The n bytes from pa lie in the two tiers, in strips without a cell fault of pseudo-channels that are not lost (R53, R89, R93). -/
def State.Sound (s : State) (pa n : Nat) : Prop :=
  (region pa = .cap ∨ region pa = .fast) ∧ region (pa + n - 1) = region pa
    ∧ ∀ i < n, isLost s (chanOf (pa + i)) = false ∧ ∀ f ∈ s.cellFaults, f.strip ≠ s.stripOf (pa + i)

/-! ### Memory accesses of S -/

/-- The byte at a physical address as S of the executing task sees it: its own stores that memory does not hold yet lie over memory,
the newest on top (R294, R295). -/
def SeenByte (s : State) (a : Nat) : Byte :=
  (unperformed s s.key).foldl (fun b st => if st.pa ≤ a ∧ a < st.pa + st.size then BitVec.ofNat 8 (st.val / 256 ^ (a - st.pa)) else b)
    (s.byteAt a)

/-- The state without what an access leaves beside its effect: the translation caches and the data cache of the task, its load and
its pieces under way, the access counters and the count of free values drawn. -/
def State.aside (k : Nat) (s : State) : State :=
  { s.modTask k (fun t => { t with tlb := {}, s := { t.s with load := none, got := none, cache := [] } }) with
    pieces := [], pieceNext := 0, counters := [], free := 0, cur := {} }

/-- From s to t nothing but the walk of S of task k, the race checkers and what an access leaves beside its effect has changed. -/
def Near (k : Nat) (s t : State) : Prop := Walks k .s (s.aside k) (t.aside k)

/-- Executing i in s leads to f u, where the executing engine's walk may go on before f and after it: f is written for any state, and
what it keeps is as in u. -/
def Acts (i : Instr) (s u : State) (f : State → State) : Prop :=
  ∃ t t', Walks s.key s.cur.eng u t ∧ exec i s = .next t' ∧ Walks s.key s.cur.eng (f t) t'

/-- Engine e of the task in that bank goes on with its walk when it moves: it may move, M and A have nothing under way, and it waits for
nothing that another rule ends (R28). -/
def Walking (s : State) (core bank : Nat) (e : Eng) : Prop :=
  let t := s.task (tkey core bank)
  core < 768 ∧ bank < 2 ∧ mayMove s core bank e = true ∧ (e = .m → t.m.run = none) ∧ (e = .a → t.a.ins = none)
    ∧ match (s.eng (tkey core bank) e).wait with
      | .none | .tokens | .hq | .retry => True
      | _ => False

/-- A fetch of the text at va hits in the conductor TLB of task k (R328): leaf l maps va and allows execution, and u is s with that
leaf at the front of the cache. -/
def FetchHits (s : State) (k va : Nat) (l : Leaf) (u : State) : Prop :=
  ∃ c, lookup (s.task k).tlb.cond va = some (l, c) ∧ placed s l va = true ∧ l.allows 2 = true
    ∧ u = s.modTask k fun t => { t with tlb := { t.tlb with cond := c } }

/-! ### Commands of C -/

/-- n bytes from a lie in the own share of the scratchpad (R157). -/
def OwnSpad (s : State) (a n : Nat) : Prop :=
  let split := s.myCore.ssplit * 2 ^ 16
  if s.cur.bank = 0 then a + n ≤ split else split ≤ a ∧ a + n ≤ 2 ^ 21

/-- A command of C is taken by the sequencer: it takes a token, moves C's cursor and anchor, and joins the queue of its core's
pseudo-channel (R73, R74). src is where the bytes of a dwr stand. -/
def queued (src : Nat) (kind : CmdKind) (cursor off : Nat) (plan : Point) (t : State) : State :=
  let u := (openToken t).modMyEng fun x => { x with cursor := cursor }
  let u := u.modMe fun x => { x with c := { x.c with anchor := some off } }
  u.modChan t.cur.core fun c =>
    { c with cmds := c.cmds ++ [{ kind := kind, plan := plan, seq := (t.myEng.count + 1) % 2 ^ 32, bank := t.cur.bank,
                                  pos := engPos t.myEng, src := src }] }

/-! ### V and the interval unit -/

/-- One more cycle of V has passed (R190): what S and cfq write from now on comes after it (R160, R206). -/
def cycled (t : State) : State := t.modMe fun x => { x with v := { x.v with cyc := x.v.cyc + 1, sregs := x.sreg, pushed := [] } }

/-- An instruction of V has read its queues, which leaves q, and has put its results in flight: they land lat cycles later. -/
def launches (lat : Nat) (q : Sparse (List Mem)) (fs : List Flight) (t : State) : State :=
  t.modMe fun x =>
    { x with opq := q
             v := { x.v with cyc := x.v.cyc + 1, sregs := x.sreg, pushed := [], flights := x.v.flights ++ fs.map fun f => { f with due := x.v.cyc + 1 + lat } } }

/-- What an instruction of V that touches r does in a cycle in which nothing lands (R158, R160-R162, R190, R191). A destination
outside the share raises the cause of its source. In an interlocked block it waits for the registers it touches, for entries to
read and for room, while C can still feed or drain V's queues; otherwise an empty queue and a full one raise their causes. Else its
results, of the entries that it reads, are in flight. -/
def Flies (i : Instr) (s : State) (lat : Nat) (r : VReq) (f : List Mem → List Flight) : Prop :=
  CanIssue s → CheckerIdle s → NoLanding s → s.cur.eng = .v →
    let waits := s.myEng.inter = true ∧ cGone s s.key = false
    let busy := s.myEng.inter = true ∧ ∃ d ∈ r.reads ++ r.dst.toList, inFlight s.me d = true
    (badShare s r.dst = true → Moves i s (trap (r.base + 8) (cycled s)))
    ∧ (badShare s r.dst = false → busy → Moves i s (cycled s))
    ∧ (badShare s r.dst = false → ¬ busy → readQueues s.me.opq r.qs = none →
      (waits → Moves i s (cycled s)) ∧ (¬ waits → Moves i s (trap (r.base + 3) (cycled s))))
    ∧ (∀ vals q, badShare s r.dst = false → ¬ busy → readQueues s.me.opq r.qs = some (vals, q) →
      (noRoom s.me r.dst = true →
        (waits → Moves i s (cycled s)) ∧ (¬ waits → Moves i s (trap (r.base + 4) (cycled s))))
      ∧ (noRoom s.me r.dst = false → Does i s (launches lat q (f vals) s)))

/-- The result of an instruction of V (R188, R190, R193): element e, of esz bytes, is the first part of f e where els has bit e; the
second parts join to the status; with ev, a record counts the elements that brought status. -/
def resultOf (s : State) (dst : VDst) (esz n els : Nat) (f : Nat → Nat × Nat) : Flight :=
  let rs := (List.range n).map fun e => if bitOf els e then f e else (0, 0)
  { dst := dst, data := Mem.ofBytes 0 (rs.flatMap fun r => natToBytes esz r.1), els := els, esz := esz
    vst := rs.foldl (fun a r => a ||| r.2) 0, ev := vEvent s 2 (rs.filter fun r => r.2 != 0).length }

/-- The result of a comparison or of mask logic for mask register md: elements v, written where els has their bit (R164). -/
def maskOf (md els : Nat) (v : List Nat) : Flight :=
  { dst := .mask md, data := Mem.wrN [] 0 256 (packBits 2 v), els := els, esz := 1 }

end Sys2Proof.Machine
end

