-- ==== Sys2Proof/Certificates/Slice0/Obligations.lean ====
section
/-!
DEFINITION. The statements for the provers. A statement about an instruction says where it leads: Does i s u says that executing i
in s answers a next state which is u but for the walk of the executing engine (its phase, program counter, wait, passes and path
records) and the race checkers, and that the engine stands past i; Moves i s u says the same without the last part. Since u is
written as an update of s, everything that the update does not name is unchanged: every register, flag, queue, token, special
register, accumulator and byte of memory. CanIssue says that i is past its token waits.
-/

open Sys2Proof Sys2Proof.Machine

/-! ### The registers of S -/

/-- R258, R164: a write of sD or pD shows at that register alone; register 0 keeps 0 and predicate 0 keeps T. -/
def Obligations.RegistersOfS : Prop :=
  ∀ (s : State) (d n : Nat) (v : Word) (p : Nat),
    sv (setS s d v) n = (if n = d ∧ d ≠ 0 then v else sv s n) ∧ pv (setP s d p) n = (if n = d ∧ d ≠ 0 then p else pv s n)
    ∧ sv s 0 = 0 ∧ pv s 0 = 1 ∧ pv (setS s d v) n = pv s n ∧ sv (setP s d p) n = sv s n
    ∧ (setS s d v).rest s.key = s.rest s.key ∧ (setP s d p).rest s.key = s.rest s.key

/-- R261: the ALU group; division, with the values for a divisor of 0; and the counts. The count of leading zeros is the n for which the
value lies below 2^(64 - n) and no lower power, that of trailing zeros the n for which 2^n is the greatest power that divides it, both 64
for 0; the count of set bits is that of the indices whose bit is set. -/
def Obligations.ScalarAlu : Prop :=
  ∀ (s : State) (d a b : Nat), CanIssue s →
    Does (.add d a b) s (setS s d (sv s a + sv s b))
    ∧ Does (.sub d a b) s (setS s d (sv s a - sv s b))
    ∧ Does (.and d a b) s (setS s d (sv s a &&& sv s b))
    ∧ Does (.or d a b) s (setS s d (sv s a ||| sv s b))
    ∧ Does (.xor d a b) s (setS s d (sv s a ^^^ sv s b))
    ∧ Does (.andn d a b) s (setS s d (sv s a &&& ~~~sv s b))
    ∧ Does (.sll d a b) s (setS s d (sv s a <<< ((sv s b).toNat % 64)))
    ∧ Does (.srl d a b) s (setS s d (sv s a >>> ((sv s b).toNat % 64)))
    ∧ Does (.sra d a b) s (setS s d ((sv s a).sshiftRight ((sv s b).toNat % 64)))
    ∧ Does (.rotl d a b) s (setS s d ((sv s a).rotateLeft ((sv s b).toNat % 64)))
    ∧ Does (.min d a b) s (setS s d (BitVec.ofInt 64 (min (sv s a).toInt (sv s b).toInt)))
    ∧ Does (.max d a b) s (setS s d (BitVec.ofInt 64 (max (sv s a).toInt (sv s b).toInt)))
    ∧ Does (.minn d a b) s (setS s d (BitVec.ofNat 64 (min (sv s a).toNat (sv s b).toNat)))
    ∧ Does (.maxn d a b) s (setS s d (BitVec.ofNat 64 (max (sv s a).toNat (sv s b).toNat)))
    ∧ Does (.mul d a b) s (setS s d (BitVec.ofNat 64 ((sv s a).toNat * (sv s b).toNat)))
    ∧ Does (.mulh d a b) s (setS s d (BitVec.ofInt 64 ((sv s a).toInt * (sv s b).toInt / (2 ^ 64 : Nat))))
    ∧ Does (.mulhn d a b) s (setS s d (BitVec.ofNat 64 ((sv s a).toNat * (sv s b).toNat / 2 ^ 64)))
    ∧ Does (.div d a b) s (setS s d
      (if sv s b = 0 then BitVec.ofNat 64 (2 ^ 64 - 1) else BitVec.ofInt 64 ((sv s a).toInt.tdiv (sv s b).toInt)))
    ∧ Does (.divn d a b) s (setS s d
      (if sv s b = 0 then BitVec.ofNat 64 (2 ^ 64 - 1) else BitVec.ofNat 64 ((sv s a).toNat / (sv s b).toNat)))
    ∧ Does (.rem d a b) s (setS s d (if sv s b = 0 then sv s a else BitVec.ofInt 64 ((sv s a).toInt.tmod (sv s b).toInt)))
    ∧ Does (.remn d a b) s (setS s d (if sv s b = 0 then sv s a else BitVec.ofNat 64 ((sv s a).toNat % (sv s b).toNat)))
    ∧ (∃ n ≤ 64, Does (.clz d a) s (setS s d (BitVec.ofNat 64 n))
      ∧ (sv s a).toNat < 2 ^ (64 - n) ∧ (n < 64 → 2 ^ (63 - n) ≤ (sv s a).toNat))
    ∧ (∃ n ≤ 64, Does (.ctz d a) s (setS s d (BitVec.ofNat 64 n))
      ∧ 2 ^ n ∣ (sv s a).toNat ∧ (n < 64 → ¬ 2 ^ (n + 1) ∣ (sv s a).toNat))
    ∧ Does (.popc d a) s (setS s d (BitVec.ofNat 64 ((List.range 64).countP fun i => (sv s a).getLsbD i)))

/-- R262, R37: the immediate group. The immediate is the 15-bit field sign-extended, or 26 bits with the 11 of an imx above it; lih
shifts in the same bits without sign. -/
def Obligations.ScalarImmediates : Prop :=
  ∀ (s : State) (d a imm : Nat), CanIssue s → imm < 2 ^ 15 →
    let v := BitVec.ofInt 64 (match s.cur.ch.imx with | none => sext imm 15 | some x => sext (x * 2 ^ 15 + imm) 26)
    Does (.addi d a imm) s (setS s d (sv s a + v))
    ∧ Does (.andi d a imm) s (setS s d (sv s a &&& v))
    ∧ Does (.ori d a imm) s (setS s d (sv s a ||| v))
    ∧ Does (.xori d a imm) s (setS s d (sv s a ^^^ v))
    ∧ Does (.slli d a imm) s (setS s d (sv s a <<< (imm % 64)))
    ∧ Does (.srli d a imm) s (setS s d (sv s a >>> (imm % 64)))
    ∧ Does (.srai d a imm) s (setS s d ((sv s a).sshiftRight (imm % 64)))
    ∧ (s.cur.ch.imx = none →
      Does (.lih d imm) s (setS s d (BitVec.ofNat 64 ((sv s d).toNat * 2 ^ 15 + imm))))
    ∧ (∀ x, s.cur.ch.imx = some x → x < 2 ^ 11 →
      Does (.lih d imm) s (setS s d (BitVec.ofNat 64 ((sv s d).toNat * 2 ^ 26 + x * 2 ^ 15 + imm))))

/-- R263: compares write T (1) where the relation holds, else F (0). -/
def Obligations.ScalarCompares : Prop :=
  ∀ (s : State) (d a b imm : Nat), CanIssue s → imm < 2 ^ 15 →
    let v := BitVec.ofInt 64 (match s.cur.ch.imx with | none => sext imm 15 | some x => sext (x * 2 ^ 15 + imm) 26)
    Does (.cmpEq d a b) s (setP s d (if sv s a = sv s b then 1 else 0))
    ∧ Does (.cmpNe d a b) s (setP s d (if sv s a ≠ sv s b then 1 else 0))
    ∧ Does (.cmpLt d a b) s (setP s d (if (sv s a).toInt < (sv s b).toInt then 1 else 0))
    ∧ Does (.cmpLe d a b) s (setP s d (if (sv s a).toInt ≤ (sv s b).toInt then 1 else 0))
    ∧ Does (.cmpLtn d a b) s (setP s d (if (sv s a).toNat < (sv s b).toNat then 1 else 0))
    ∧ Does (.cmpLen d a b) s (setP s d (if (sv s a).toNat ≤ (sv s b).toNat then 1 else 0))
    ∧ Does (.cmpiEq d a imm) s (setP s d (if sv s a = v then 1 else 0))
    ∧ Does (.cmpiLt d a imm) s (setP s d (if (sv s a).toInt < v.toInt then 1 else 0))
    ∧ Does (.cmpiLtn d a imm) s (setP s d (if (sv s a).toNat < v.toNat then 1 else 0))

/-- R264, R265, R198, R266, R273: sel, the predicate group in three-valued logic (0 F, 1 T, 2 U), popv and pwr. -/
def Obligations.ScalarPredicates : Prop :=
  ∀ (s : State) (d a b n e : Nat), CanIssue s →
    Does (.sel d a b n) s (setS s d (if pv s n = 1 then sv s a else sv s b))
    ∧ (pv s a < 3 → pv s b < 3 →
      Does (.pand d a b) s (setP s d (if pv s a = 0 ∨ pv s b = 0 then 0 else if pv s a = 2 ∨ pv s b = 2 then 2 else 1))
      ∧ Does (.por d a b) s (setP s d (if pv s a = 1 ∨ pv s b = 1 then 1 else if pv s a = 2 ∨ pv s b = 2 then 2 else 0))
      ∧ Does (.pxor d a b) s (setP s d (if pv s a = 2 ∨ pv s b = 2 then 2 else if pv s a = pv s b then 0 else 1))
      ∧ Does (.pnot d a) s (setP s d (if pv s a = 2 then 2 else 1 - pv s a))
      ∧ Does (.pknow d a) s (setP s d (if pv s a = 2 then 0 else pv s a)))
    ∧ Does (.pset d n) s (setP s d n)
    ∧ Does (.popv d a e) s (setP s d (min 2 ((sv s a).toNat / 2 ^ (2 * e) % 4)))
    ∧ Does (.pwr d n) s (setP s d (if (s.die (s.cur.core / 96)).power.grant = n then 1 else 0))

/-- What csrr n gives (R287): BEAT, TICK, NTIME, TBB, SKEW (R141), the beat unit's registers with the slip of the beat now open (R86, R70),
the registers of S, FSPLIT and SSPLIT (R157), TASK (R288), PWR (R357), VST, JST, NPTH, ASTS, BUFSEL, and the counters of the buffer that
BUFSEL names (R336). -/
def readsCsr (s : State) (n : Nat) : Nat :=
  let x := s.die (s.cur.core / 96)
  let p := x.power
  let c := s.me.csr
  let worst := (List.range 8).foldl (fun m e => max m (Sparse.rd 0 x.est e).natAbs) 0 / 2
  let size := match s.gangOf s.key with | some g => g.tasks.length | none => 0
  let hot := (s.stack (2 * (s.cur.core / 96))).hot || (s.stack (2 * (s.cur.core / 96) + 1)).hot
  let floor := if p.on2 then 2 else if p.on1 then 1 else 0
  if n = 0x000 then x.beat % 2 ^ 48
  else if n = 0x001 then x.tick2 / 2
  else if n = 0x002 then x.ntime
  else if n = 0x003 then c.tbb
  else if n = 0x004 then min worst 255 * 2 ^ 32 + min ((x.tick2 - x.aligned2) / 2) (2 ^ 32 - 1)
  else if n = 0x005 then s.reg regBlim
  else if n = 0x006 then putBits (s.reg regSlip) 0 12 (Sparse.rd 0 s.grid.slip s.grid.opened)
  else if n = 0x007 then s.reg regPlanact
  else if n = 0x008 then s.reg regPlanbase
  else if n = 0x010 then c.win
  else if n = 0x011 then c.compat
  else if n = 0x012 then c.mdepth
  else if n = 0x013 then s.myCore.fsplit
  else if n = 0x014 then s.myCore.ssplit
  else if n = 0x015 then size * 2 ^ 32 + s.me.index * 2 ^ 16 + s.cur.bank * 2 ^ 10 + s.cur.core
  else if n = 0x016 then p.temp * 2 ^ 40 + (if hot then 2 ^ 7 else 0) + (if p.skip then 2 ^ 6 else 0) + floor * 2 ^ 4 + p.run * 2 ^ 2 + p.grant
  else if n = 0x018 then c.vst
  else if n = 0x019 then c.jst
  else if n = 0x01A then c.npth
  else if n = 0x01B then c.asts
  else if n = 0x020 then c.bufsel
  else Sparse.rd 0 s.me.bufcnt (4 * c.bufsel + (n - 0x21))

/-- R41, R37, R274, R151, R282, R286, R287: the short instructions and the reads of a clock, the open beat, the event queue and a control
and status register. An empty event queue reads 0. -/
def Obligations.ScalarReads : Prop :=
  ∀ (s : State) (d a imm n : Nat), CanIssue s →
    let die := s.die (s.cur.core / 96)
    Does (.mov16 d a) s (setS s d (sv s a))
    ∧ Does (.addi16 d imm) s (setS s d (sv s d + BitVec.ofInt 64 (sext imm 6)))
    ∧ Does (.li16 d imm) s (setS s d (BitVec.ofInt 64 (sext imm 6)))
    ∧ Does (.bnow d) s (setS s d (BitVec.ofNat 64 ((die.beat + 2 ^ 48 - s.me.csr.tbb) % 2 ^ 48)))
    ∧ Does (.tick d) s (setS s d (BitVec.ofNat 64 (die.tick2 / 2)))
    ∧ Does (.ntime d) s (setS s d (BitVec.ofNat 64 die.ntime))
    ∧ Does (.csrr d n) s (setS s d (BitVec.ofNat 64 (readsCsr s n)))
    ∧ Does (.evpeek d) s (setS s d (BitVec.ofNat 64 (s.me.evq.headD 0)))
    ∧ Does (.evpop d) s (setS (s.modMe fun t => { t with evq := t.evq.drop 1 }) d (BitVec.ofNat 64 (s.me.evq.headD 0)))

/-! ### Control and status registers -/

/-- R286, R34, R193, R213, R214, R247, R336: what a write of the value x to register n does: a writable register takes it, a value
that the register refuses raises code 1 and changes nothing, any other register raises code 2. -/
def WritesCsr (i : Instr) (s : State) (n x : Nat) : Prop :=
  let put (c : Csrs) : Prop := Does i s (s.modMe fun t => { t with csr := c })
  let c := s.me.csr
  if n = 0x010 then (if 1 ≤ x % 128 ∧ x % 128 ≤ 64 then put { c with win := x % 128 } else Moves i s (trap 1 s))
  else if n = 0x018 then (if x < 8 then put { c with vst := x } else Moves i s (trap 1 s))
  else if n = 0x019 then (if x < 2048 ∧ x / 256 % 2 = 0 then put { c with jst := x } else Moves i s (trap 1 s))
  else if n = 0x01A then put { c with npth := x % 2 ^ 16 }
  else if n = 0x01B then (if x < 8 then put { c with asts := x } else Moves i s (trap 1 s))
  else if n = 0x020 then (if x < 256 then put { c with bufsel := x } else Moves i s (trap 1 s))
  else Moves i s (trap 2 s)

/-- R286: csrw writes sA, csrs the register with the bits of sA set, csrc the register with the bits of sA cleared. A csrr that follows
reads what was written; the other registers read as before, but for the counters that BUFSEL selects (R287, R336). That the reserved bits of
WIN are ignored is the model's choice (log entry 70). -/
def Obligations.ControlRegisterWrites : Prop :=
  ∀ (s : State) (a n x : Nat), CanIssue s →
    let after (c : Csrs) (m : Nat) : Nat := readsCsr (s.modMe fun t => { t with csr := c }) m
    let keeps (c : Csrs) (n : Nat) : Prop := after c n = x ∧ ∀ m, m ≠ n → after c m = readsCsr s m
    let c := s.me.csr
    WritesCsr (.csrw a n) s n (sv s a).toNat
    ∧ WritesCsr (.csrs a n) s n (BitVec.ofNat 64 (readsCsr s n) ||| sv s a).toNat
    ∧ WritesCsr (.csrc a n) s n (BitVec.ofNat 64 (readsCsr s n) &&& ~~~sv s a).toNat
    ∧ keeps { c with win := x } 0x010 ∧ keeps { c with vst := x } 0x018 ∧ keeps { c with jst := x } 0x019
    ∧ keeps { c with npth := x } 0x01A ∧ keeps { c with asts := x } 0x01B
    ∧ after { c with bufsel := x } 0x020 = x ∧ (∀ m < 0x020, after { c with bufsel := x } m = readsCsr s m)
    ∧ (∀ i < 4, after { c with bufsel := x } (0x021 + i) = Sparse.rd 0 s.me.bufcnt (4 * x + i))

/-! ### Control flow -/

/-- R270, R271, R31, R32, R28: branches. The target counts signed halfwords from the branch word's first halfword, past its prefixes; jal
and jr write the address after the body of their block. A branch that is not taken is the last of its block, so S starts the next pass, or
leaves the block with the record of a fall-through (PastIt). -/
def Obligations.Branches : Prop :=
  ∀ (s : State) (p d a off : Nat), CanIssue s → s.cur.eng = .s →
    let target := (((s.cur.pc + 2 * (s.cur.size - 2) : Nat) + 2 * sext off 20) % (2 ^ 56 : Nat)).toNat
    let link := BitVec.ofNat 64 (s.myEng.body + 2 * s.myEng.len)
    (if pv s p = 1 then Leaves (.bT p off) s s 1 target else Does (.bT p off) s s)
    ∧ (if pv s p = 0 then Leaves (.bF p off) s s 1 target else Does (.bF p off) s s)
    ∧ (if pv s p = 2 then Leaves (.bU p off) s s 1 target else Does (.bU p off) s s)
    ∧ Leaves (.b off) s s 1 target
    ∧ Leaves (.jal d off) s (setS s d link) 1 target
    ∧ Leaves (.jr d a) s (setS s d link) 1 ((sv s a).toNat % 2 ^ 56)

/-- What becomes of an access of S at va, a load (acc 0) or a store (acc 1), in the conductor TLB (R267, R327, R328): a miss starts a walk
for which S waits; a leaf that stands on the wrong placement raises code 176, one that forbids the access code 175; else go holds of the
leaf and of the state with that leaf at the front of the cache. -/
def Translates (i : Instr) (s : State) (va acc : Nat) (go : Leaf → State → Prop) : Prop :=
  (lookup s.me.tlb.cond va = none → Moves i s (startWalk s s.key 0 va false 0))
  ∧ ∀ l c, lookup s.me.tlb.cond va = some (l, c) →
    let u := s.modMe fun t => { t with tlb := { t.tlb with cond := c } }
    (placed s l va = false → Moves i s (trapAt 176 va u))
    ∧ (placed s l va = true → l.allows acc = false → Moves i s (trapAt 175 va u))
    ∧ (placed s l va = true → l.allows acc = true → go l u)

/-- S asks for n bytes at physical address pa for its load l, and waits (R125, R152, R268, R365): a piece of its own is on its way, on a
link for the host window and by a port for a peer; a peer that no port reaches raises code 334, and S stops. -/
def Asks (i : Instr) (s u : State) (n pa : Nat) (l : SLoad) : Prop :=
  let id := u.pieceNext + 1
  let t := { u with
    pieceNext := id
    pieces := u.pieces ++ [{ id := id, core := s.cur.core, bank := s.cur.bank, die := s.cur.core / 96, own := .sLoad, pa := pa, len := n }] }
  let waits (v : State) : Prop := Moves i s (v.modMe fun x => { x with s := { x.s with load := some { l with piece := id } } })
  (region pa ≠ .host → region pa ≠ .peer → waits t)
  ∧ (region pa = .host → waits (hostRead t pa n))
  ∧ (region pa = .peer → ∀ v, (sendFrame t pa n false [] = (v, true) → waits v)
    ∧ (sendFrame t pa n false [] = (v, false) →
      Moves i s ((raiseCause { v with pieces := v.pieces.filter fun x => x.id != id } s.key 334 0 0).modMyEng fun x => { x with stopped := true })))

/-- An instruction of S that needs the n bytes at va reads them by a piece, past the data cache, and keeps them until it runs again (log
entry 14): go holds of the bytes and of the state without them. -/
def NeedsBytes (i : Instr) (s : State) (va n : Nat) (go : List Byte → State → Prop) : Prop :=
  (∀ bs, s.me.s.got = some (va, bs) → bs.length = n → go bs (s.modMe fun t => { t with s := { t.s with got := none } }))
  ∧ ((∀ bs, s.me.s.got = some (va, bs) → bs.length ≠ n) →
    (s.me.s.load.isSome = true → Moves i s s)
    ∧ (s.me.s.load = none → Translates i s va 0 fun l u => Asks i s u n (l.phys va) { size := n, va := va, pa := l.phys va, keep := true }))

/-- R272, R359: swpt leaves the block by a taken record to the table entry of the level that is granted as it retires, and the die counts
the task as one that has switched to that level; a table that is not 8-aligned raises code 5. How S reads the entry is the model's choice
(log entry 14). -/
def Obligations.SwitchPoint : Prop :=
  ∀ (s : State) (a : Nat), CanIssue s → s.cur.eng = .s →
    let va := (sv s a).toNat % 2 ^ 56
    let d := s.cur.core / 96
    let grant := (s.die d).power.grant
    (va % 8 ≠ 0 → Moves (.swpt a) s (trap 5 s))
    ∧ (va % 8 = 0 → NeedsBytes (.swpt a) s ((va + 8 * grant) % 2 ^ 56) 8 fun bs u =>
      Leaves (.swpt a) s (switchPoint (u.modDie d fun x =>
          { x with power := { x.power with switched := (x.power.switched.filter fun y => y.1 != s.key) ++ [(s.key, grant)] } }) d) 1
        (bytesToNat bs % 2 ^ 56))

/-- R284, R316, R289: exit with s0 ends the task with an end record and no successor; else S reads the 64-byte successor descriptor, which
must be 64-aligned (code 5) and well formed (code 1). The barriers that the task had arrived at are kept for its gang. svc and brk retire,
then S stops behind them and raises its cause with the immediate. How S reads the descriptor is the model's choice (log entry 14). -/
def Obligations.TaskExit : Prop :=
  ∀ (s : State) (a imm : Nat), CanIssue s → s.cur.eng = .s →
    let va := (sv s a).toNat % 2 ^ 56
    let ends (u : State) (d : Option (List Nat)) : State :=
      let u := u.modMe fun t => { t with s := { t.s with succ := d, ended := true } }
      match s.me.gang with
      | some g => u.modGang g fun g => { g with exits := g.exits ++ [(s.key, s.me.s.arrivals)] }
      | none => u
    let calls (i : Instr) (code : Nat) : Prop := ∃ t, exec i s = .next t
      ∧ Walks s.key .s (raiseCause (s.modMyEng fun x => { x with stopped := true }) s.key code 0 (imm % 2 ^ 15)) t
      ∧ t.myEng.pc = s.cur.pc + 2 * s.cur.size
    (a = 0 → Leaves (.exit a) s (ends s none) 2 0)
    ∧ (a ≠ 0 → va % 64 ≠ 0 → Moves (.exit a) s (trap 5 s))
    ∧ (a ≠ 0 → va % 64 = 0 → NeedsBytes (.exit a) s va 64 fun bs u =>
      let w (i : Nat) : Nat := (bytesToWords 8 bs).getD i 0
      let good := w 0 % 2 = 0 ∧ w 0 < 2 ^ 56 ∧ w 2 < 2 ^ 21 ∧ w 2 % 16 < 2 ∧ ∀ i, 3 ≤ i → w i = 0
      (good → Leaves (.exit a) s (ends u (some (bytesToWords 8 bs))) 2 0) ∧ (¬ good → Moves (.exit a) s (trap 1 u)))
    ∧ calls (.svc imm) 20 ∧ calls (.brk imm) 21

/-! ### What S feeds to the other engines -/

/-- R279, R280, R247: repn, hand C and hand A, with the causes of a value out of range, of a queue that can never drain, and the stall
on a full queue. The number of A's register being below 16 is the model's own condition (log entry 15). -/
def Obligations.FeedsOfS : Prop :=
  ∀ (s : State) (x a n : Nat) (e : Eng), CanIssue s → Eng.ofTag x = some e →
    let v := sv s a
    let q := Sparse.rd [] s.me.repn e.tag
    let stuck (e : Eng) : Prop := (s.eng s.key e).phase = .path ∧ (s.eng s.key e).serial = (s.eng s.key .s).serial
    (2 ^ 16 ≤ v.toNat → Moves (.repn x a) s (trap 1 s))
    ∧ (v.toNat < 2 ^ 16 → q.length < 4 →
      Does (.repn x a) s (s.modMe fun t => { t with repn := Sparse.wr [] t.repn e.tag (q ++ [v.toNat]) }))
    ∧ (v.toNat < 2 ^ 16 → 4 ≤ q.length → s.cur.eng = .s → (e = .s ∨ stuck e) → Moves (.repn x a) s (trap 4 s))
    ∧ (v.toNat < 2 ^ 16 → 4 ≤ q.length → s.cur.eng = .s → e ≠ .s → ¬ stuck e → Moves (.repn x a) s s)
    ∧ (s.me.hq.length < 8 → Does (.handC a) s (s.modMe fun t => { t with hq := t.hq ++ [v] }))
    ∧ (8 ≤ s.me.hq.length → s.cur.eng = .s → stuck .c → Moves (.handC a) s (trap 4 s))
    ∧ (8 ≤ s.me.hq.length → s.cur.eng = .s → ¬ stuck .c → Moves (.handC a) s s)
    ∧ (n < 16 → Does (.handA a n) s (s.modMe fun t =>
        { t with late := t.late ++ [{ eng := .a, serial := s.myEng.serial, what := .areg n v }] }))
    ∧ (16 ≤ n → Moves (.handA a n) s (trap 1 s))

/-! ### The walk of the program text -/

/-- R28: an engine that reads a block header raises its block serial, skips the body of another engine's block (and then takes the
next path record, if the block is S's), runs its own block repeat times, or waits for a count where repeat is 0. One of V's cycles
passes while V reads a header. -/
def Obligations.BlockHeaders : Prop :=
  ∀ (s : State) (tag il len rep : Nat),
    let k := s.key
    let e := s.cur.eng
    let u := if e = .v then cycleV s k else s
    let x := u.eng k e
    let y := { x with serial := (x.serial + 1) % 2 ^ 32, wait := .none, latched := none }
    let own := { y with body := x.pc + 4, len := len, inter := decide (il = 1) || e != Eng.v, loop := [], first := true }
    (tag ≠ e.tag → exec (.blockHeader tag il len rep) s
      = .next (u.setEng k e { y with phase := if tag = 0 then .path else .header, pc := x.pc + 4 + 2 * len }))
    ∧ (tag = e.tag → rep ≠ 0 → exec (.blockHeader tag il len rep) s
      = .next (u.setEng k e { own with phase := .body, pc := x.pc + 4, passes := rep }))
    ∧ (tag = e.tag → rep = 0 → exec (.blockHeader tag il len rep) s = .next (u.setEng k e { own with phase := .count }))

/-- R29: an engine that stands before a block of repeat 0 pops a count from its REPN queue: it runs the body that many times, or
leaves the block where the count is 0. While the queue is empty it waits; code 147 is raised as soon as S stands in a stall that the rule
names, S's own at once (after every move of the task: log entry 60). -/
def Obligations.CountsPopped : Prop :=
  ∀ (s : State) (core bank : Nat) (e : Eng),
    let k := tkey core bank
    let x := s.eng k e
    let q := Sparse.rd [] (s.task k).repn e.tag
    let dry (e : Eng) : Prop := (s.eng k e).phase = .count ∧ (s.eng k e).stopped = false ∧ Sparse.rd [] (s.task k).repn e.tag = []
      ∧ (e = .s ∨ stalledFor s k e = true)
    (x.phase = .count → x.stopped = false →
      (∀ n r, q = n :: r → ∃ t, exec (.repnPop core bank e.tag) s = .next t
        ∧ Walks k e (s.modTask k fun t => { t with repn := Sparse.wr [] t.repn e.tag r }) t
        ∧ (n ≠ 0 → (t.eng k e).phase = .body ∧ (t.eng k e).pc = x.body ∧ (t.eng k e).passes = n)
        ∧ (n = 0 → e ≠ .s → (t.eng k e).phase = .header ∧ (t.eng k e).pc = x.body + 2 * x.len))
      ∧ (q = [] → exec (.repnPop core bank e.tag) s = .next s))
    ∧ (stalledFor s k e = true ↔ match (s.eng k .s).wait with
      | .fence _ mask => bitOf mask e.tag = true
      | .gbar _ _ => True
      | _ => (s.eng k .s).phase = .idle ∨ ((s.eng k .s).phase = .path ∧ (s.task k).emit.isSome = true))
    ∧ (prompted s k = [] → settle core bank (.next s) = .next (starve s k))
    ∧ ((∀ e, ¬ dry e) → starve s k = s)
    ∧ (dry e → (∀ f, f ≠ e → ¬ dry f) → starve s k = raiseCause (s.modEng k e fun x => { x with stopped := true }) k 147 0 0)

/-- R33, R259, R247, R278, R133: C, V, M or A takes the next path record once S has emitted it: the engine goes on at its target, or stops for
an end record, and sees what S did in the block that the record leaves. C takes none while it is in a scratchpad command. The model reads
the rules here as log entry 79 (DEDUCED) says. -/
def Obligations.RecordsTaken : Prop :=
  ∀ (s : State) (core bank : Nat) (e : Eng), e ≠ .s →
    let k := tkey core bank
    let x := s.eng k e
    let busy := e = .c ∧ (s.task k).c.spc.isSome = true
    x.phase = .path → x.stopped = false →
    (∀ r, ¬ busy → (s.task k).recs[pathIndex (s.task k) x]? = some r → ∃ t, exec (.pathRecordTake core bank e.tag) s = .next t
      ∧ Walks k e (s.modTask k fun t => takeLate t e r.serial) t
      ∧ (t.eng k e).taken = (x.taken + 1) % 2 ^ 32 ∧ (r.kind = 2 → (t.eng k e).phase = .idle)
      ∧ (r.kind ≠ 2 → (t.eng k e).phase = .header ∧ (t.eng k e).pc = r.target))
    ∧ (busy ∨ (s.task k).recs[pathIndex (s.task k) x]? = none → exec (.pathRecordTake core bank e.tag) s = .next s)

/-- R2, R37, R68, R73, R88, R362: nop16 takes a cycle; bw moves the beat cursor on by n once the beat that it then names, modulo 2^48 the
nearest one (log entry 80), is open, and C's next command starts an anchor; until then the engine waits for that beat, and observes it when
it has opened and no transition window runs. bw costs V one cycle when it observes (log entry 68). -/
def Obligations.BeatWaits : Prop :=
  ∀ (s : State) (n core bank : Nat) (e : Eng),
    let observed (u : State) (k : Nat) (e : Eng) (cursor : Nat) : State :=
      let u := (if e = .v then cycleV u k else u).modEng k e fun x => { x with cursor := cursor }
      if e = .c then u.modTask k fun t => { t with c := { t.c with anchor := none } } else u
    let open_ := (s.die (s.cur.core / 96)).beat
    let target := beatAt open_ ((s.myEng.cursor + n + s.me.csr.tbb) % 2 ^ 48)
    let k := tkey core bank
    let wakes : Instr := .beatObserved core bank e.tag
    (s.cur.eng ≠ .v → Does .nop16 s s) ∧ (s.cur.eng = .v → Does .nop16 s (cycleV s s.key))
    ∧ (s.me.csr.tbb < 2 ^ 48 → target ≤ open_ → Does (.bw n) s (observed s s.key s.cur.eng ((s.myEng.cursor + n) % 2 ^ 48)))
    ∧ (open_ < target → ∃ t, exec (.bw n) s = .next t ∧ Walks s.key s.cur.eng s t ∧ t.myEng.wait = .beat target)
    ∧ (∀ b, (s.eng k e).wait = .beat b →
      (b ≤ (s.die (k / 2 / 96)).beat → (s.eng k e).stopped = false → (s.die (k / 2 / 96)).power.window = none →
        ∃ t, exec wakes s = .next t ∧ Walks k e { observed s k e ((b + 2 ^ 48 - (s.task k).csr.tbb) % 2 ^ 48) with cur := t.cur } t)
      ∧ ((s.die (k / 2 / 96)).beat < b ∨ (s.eng k e).stopped = true ∨ (s.die (k / 2 / 96)).power.window ≠ none → exec wakes s = .next s))
    ∧ (∀ b r, r < 2 ^ 48 → beatAt b r % 2 ^ 48 = r ∧ beatAt b r ≤ b + 2 ^ 48 ∧ b ≤ beatAt b r + 2 ^ 47)

/-! ### Time, order and barriers -/

/-- R144, R151, R362: palign requests alignment at a boundary, within the limits of distance and number. waitt goes on once NTIME has reached
its operand, at once or when it wakes while no transition window runs. The model reads the rules here as log entry 80 (DEDUCED) says. -/
def Obligations.AlignmentRequests : Prop :=
  ∀ (s : State) (a imm core bank : Nat) (w : Word),
    let now := s.now (s.cur.core / 96)
    let b := beatAt now.beat (((sv s a + immS s imm).toNat + s.me.csr.tbb) % 2 ^ 48)
    let k := tkey core bank
    let reached := w.toNat ≤ (s.die (k / 2 / 96)).ntime ∧ (s.eng k .s).stopped = false ∧ (s.die (k / 2 / 96)).power.window = none
    (CanIssue s →
      ((b ≤ now.beat ∨ s.delta now ⟨b, 0⟩ < 128) → Moves (.palign a imm) s (trap 346 s))
      ∧ (now.beat < b → 128 ≤ s.delta now ⟨b, 0⟩ →
        (b ∈ s.grid.aligns → Does (.palign a imm) s s)
        ∧ (b ∉ s.grid.aligns → 16 ≤ s.grid.aligns.countP (fun x => decide (now.beat < x)) → Moves (.palign a imm) s (trap 359 s))
        ∧ (b ∉ s.grid.aligns → s.grid.aligns.countP (fun x => decide (now.beat < x)) < 16 →
          Does (.palign a imm) s { s with grid := { s.grid with aligns := s.grid.aligns ++ [b] } })))
    ∧ (CanIssue s → (sv s a).toNat ≤ (s.die (s.cur.core / 96)).ntime → Does (.waitt a) s s)
    ∧ (CanIssue s → (s.die (s.cur.core / 96)).ntime < (sv s a).toNat →
      ∃ t, exec (.waitt a) s = .next t ∧ Walks s.key s.cur.eng s t ∧ t.myEng.wait = .waitt (sv s a))
    ∧ ((s.eng k .s).wait = .waitt w → reached →
      ∃ t, exec (.waittWake core bank) s = .next t ∧ Walks k .s { s with cur := t.cur } t ∧ (t.eng k .s).wait = .none)
    ∧ ((s.eng k .s).wait = .waitt w → ¬ reached → exec (.waittWake core bank) s = .next s)

/-- R275, R268: what a fence of a mask waits for: stores of S performed; C, M and A at the header of the block that S runs with every
token complete; V there with every result landed. -/
def FenceFinished (s : State) (k mask : Nat) : Prop :=
  let n := (s.eng k .s).serial
  let reached (e : Eng) : Prop :=
    (s.eng k e).serial = n ∨ (s.eng k e).phase = .header ∧ ((s.eng k e).serial + 1) % 2 ^ 32 = n
  ((bitOf mask 0 = true ∨ mask = 0) → (s.task k).s.stores = [])
  ∧ (bitOf mask 2 = true → reached .v ∧ (s.task k).v.flights = [])
  ∧ ∀ e ∈ [Eng.c, .m, .a], bitOf mask e.tag = true → reached e ∧ (s.eng k e).opn = []

/-- The data cache of S after an acquire at a scope: empty from die scope on (R268). -/
def Acquired (s : State) (k scope : Nat) : State :=
  if 2 ≤ scope then s.modTask k fun t => { t with s := { t.s with cache := [] } } else s

/-- R275: a fence retires once the named engines' earlier work has finished, at issue or later, when no transition window runs (R362); S's
cache is invalidated at scope 2 to 4. -/
def Obligations.Fences : Prop :=
  ∀ (s : State) (scope mask core bank : Nat),
    let k := tkey core bank
    let may := (s.eng k .s).stopped = false ∧ (s.die (k / 2 / 96)).power.window = none ∧ FenceFinished s k mask
    (CanIssue s → s.cur.eng = .s → FenceFinished s s.key mask → Does (.fence scope mask) s (Acquired s s.key scope))
    ∧ (CanIssue s → s.cur.eng = .s → ¬ FenceFinished s s.key mask →
      ∃ t, exec (.fence scope mask) s = .next t ∧ Walks s.key .s s t ∧ t.myEng.wait = .fence scope mask)
    ∧ ((s.eng k .s).wait = .fence scope mask → may →
      ∃ t, exec (.fenceRetire core bank) s = .next t ∧ Walks k .s { Acquired s k scope with cur := t.cur } t
        ∧ (t.eng k .s).wait = .none)
    ∧ ((s.eng k .s).wait = .fence scope mask → ¬ may → exec (.fenceRetire core bank) s = .next s)

/-- The barriers that task k of gang g has arrived at; an exited task keeps its number (R283). -/
def Arrivals (s : State) (g : Gang) (k : Nat) : Nat :=
  match g.exits.find? fun x => x.1 == k with
  | some x => x.2
  | none => (s.task k).s.arrivals

/-- Every task of the gang has arrived at the barrier at which task k stands. -/
def AllArrived (s : State) (k : Nat) : Prop := ∀ g, s.gangOf k = some g → ∀ j ∈ g.tasks, Arrivals s g k ≤ Arrivals s g j

/-- A task of the gang has retired exit before that barrier. -/
def SomeGone (s : State) (k : Nat) : Prop := ∃ g, s.gangOf k = some g ∧ ∃ j ∈ g.exits, j.2 < Arrivals s g k

/-- R283, R362: a gbar arrives once S's earlier stores have performed, and retires when every task of the gang has arrived and no transition
window runs; S's cache is invalidated at scope 2 to 4. A barrier that a task can no longer reach raises code 22. -/
def Obligations.GangBarriers : Prop :=
  ∀ (s : State) (scope core bank : Nat),
    let k := tkey core bank
    let arrived (k : Nat) := s.modTask k fun t => { t with s := { t.s with arrivals := t.s.arrivals + 1 } }
    let may := (s.eng k .s).stopped = false ∧ (s.die (k / 2 / 96)).power.window = none
    let at_ := arrived s.key
    let release := exec (.gbarRelease core bank) s
    (CanIssue s → (∀ n, s.myEng.wait ≠ .gbar n true) →
      (s.me.s.stores = [] → AllArrived at_ s.key → Does (.gbar scope) s (Acquired at_ s.key scope))
      ∧ (s.me.s.stores = [] → ¬ AllArrived at_ s.key → SomeGone at_ s.key → Moves (.gbar scope) s (trap 22 at_))
      ∧ (s.me.s.stores = [] → ¬ AllArrived at_ s.key → ¬ SomeGone at_ s.key →
        ∃ t, exec (.gbar scope) s = .next t ∧ Walks s.key s.cur.eng at_ t ∧ t.myEng.wait = .gbar scope true)
      ∧ (s.me.s.stores ≠ [] →
        ∃ t, exec (.gbar scope) s = .next t ∧ Walks s.key s.cur.eng s t ∧ t.myEng.wait = .gbar scope false))
    ∧ ((s.eng k .s).wait = .gbar scope true → may → AllArrived s k →
      ∃ t, release = .next t ∧ Walks k .s { Acquired s k scope with cur := t.cur } t ∧ (t.eng k .s).wait = .none)
    ∧ ((s.eng k .s).wait = .gbar scope false → may → (s.task k).s.stores = [] → AllArrived (arrived k) k →
      ∃ t, release = .next t ∧ Walks k .s { Acquired (arrived k) k scope with cur := t.cur } t ∧ (t.eng k .s).wait = .none)
    ∧ ((s.eng k .s).wait = .gbar scope false → (s.task k).s.stores ≠ [] → release = .next s)
    ∧ (∀ b, (s.eng k .s).wait = .gbar scope b → ¬ may → release = .next s)

/-- R276, R277, R278, R259: smark with its token, isync, and the invalidation of translations. -/
def Obligations.MarksOfS : Prop :=
  ∀ (s : State) (a : Nat), CanIssue s →
    let seq := (s.myEng.count + 1) % 2 ^ 32
    let n := s.me.s.stores.length
    let counted := s.modMyEng fun x => { x with count := seq, opn := if n = 0 then x.opn else x.opn ++ [seq] }
    let dropped (va : Nat) (all : Bool) : State := s.modMe fun t =>
      { t with tlb := { t.tlb with cond := if all then [] else t.tlb.cond.filter fun l => !l.maps va }
               late := t.late ++ [{ eng := .c, serial := (s.eng s.key .s).serial, what := .tlbi va all }] }
    (s.cur.ch.tko = none → Does .smark s s)
    ∧ (∀ r, s.cur.ch.tko = some r → s.myEng.opn.length < tokenLimit →
      Does .smark s (counted.modMe fun t =>
        let t := writeMark t r s.myEng.serial (tokenWord .s seq)
        if n = 0 then t else { t with s := { t.s with marks := t.s.marks ++ [(seq, n)] } }))
    ∧ (n = 0 → Does .isync s s) ∧ (n ≠ 0 → Moves .isync s s)
    ∧ Does (.tlbi a) s (dropped ((sv s a).toNat % 2 ^ 56) false)
    ∧ Does .tlbiAll s (dropped 0 true)

/-- R231, R233: S writes a word of an Easel bank once M has started every instruction before the block that S runs, which it may have while
an mtile runs, and no running mtile with steps left uses the bank; S appends to the format queue while it holds fewer than eight words. -/
def Obligations.MatrixFeeds : Prop :=
  ∀ (s : State) (a b w : Nat), CanIssue s → s.cur.eng = .s →
    let n := (s.eng s.key .s).serial
    let m := s.eng s.key .m
    let reached := m.phase = .idle ∨ m.serial = n ∨ (m.phase = .header ∧ (m.serial + 1) % 2 ^ 32 = n)
    let used := ∃ r, s.me.m.run = some r ∧ r.easel = b ∧ r.step < r.total
    (reached → ¬ used → Does (.ezw a b w) s (s.modMyCore fun c => { c with easel := Sparse.wr 0 c.easel (16 * b + w) (sv s a) }))
    ∧ ((¬ reached ∨ used) → Moves (.ezw a b w) s s)
    ∧ (s.myCore.fq.length < 8 → Does (.fpush a) s (s.modMyCore fun c => { c with fq := c.fq ++ [sv s a] }))
    ∧ (8 ≤ s.myCore.fq.length → Moves (.fpush a) s s)

/-! ### Memory accesses of S -/

/-- The number that the n bytes from pa spell as S sees them, lowest address first, sign-extended where sgn is set (R4, R267). -/
def seenValue (s : State) (pa n : Nat) (sgn : Bool) : Word :=
  let v := bytesToNat ((List.range n).map fun i => SeenByte s (pa + i))
  if sgn then BitVec.ofInt 64 (sext v (8 * n)) else BitVec.ofNat 64 v

/-- What a load of n bytes at va into sD does; acq is the scope of an acquire. A misaligned address raises code 5. A plain load of the two
tiers asks for the 64-byte line of its bytes where the data cache has none; where it has one, that serves the load or is dropped and asked
for again, which is open (R268). A load of the host window or of a peer, and an acquire, asks for its own bytes alone; an acquire
invalidates the cache first at scope 2 to 4 (R269). The data of a plain load from the capacity tier, its pieces served in one act or two
(R293), is what S then sees there. -/
def LoadsTo (i : Instr) (s : State) (d va n : Nat) (sgn : Bool) (acq : Option Nat) : Prop :=
  (va % n ≠ 0 → Moves i s (trap 5 s))
  ∧ (va % n = 0 → Translates i s va 0 fun leaf u =>
    let pa := leaf.phys va
    let l : SLoad := { d := d, size := n, sgn := sgn, acq := acq, va := va, pa := pa }
    let plain := acq = none ∧ (region pa = .fast ∨ region pa = .cap)
    let line := Sparse.rd none s.me.s.cache (pa / 64)
    let chosen : State := { u with free := u.free + 1 }
    let dropped := chosen.modMe fun t => { t with s := { t.s with cache := Sparse.wr none t.s.cache (pa / 64) none } }
    (∀ sc, acq = some sc → Asks i s (Acquired u s.key sc) n pa l)
    ∧ (acq = none → ¬ plain → Asks i s u n pa l)
    ∧ (plain → line = none → Asks i s u 64 (64 * (pa / 64)) l)
    ∧ (plain → line ≠ none → Config.freeChoice u.free % 2 = 0 →
      Moves i s (chosen.modMe fun t => { t with s := { t.s with load := some l } }))
    ∧ (plain → line ≠ none → Config.freeChoice u.free % 2 ≠ 0 → Asks i s dropped 64 (64 * (pa / 64)) l)
    ∧ (plain → line = none → region pa = .cap → leaf.pa % 2 ^ 16 = 0 → s.reg regMcfg % 2 ^ 16 = 0 →
        (∀ p ∈ s.pieces, p.id ≤ s.pieceNext) →
      ∃ t t1 t2, exec i s = .next t ∧ exec (.sLoadReturn s.cur.core s.cur.bank) t = .next t1
        ∧ (t2 = t1 ∨ exec (.sLoadReturn s.cur.core s.cur.bank) t1 = .next t2)
        ∧ Near s.key (setS s d (seenValue s pa n sgn)) t2 ∧ t2.pieces = s.pieces
        ∧ (t2.task s.key).s.load = none ∧ (t2.eng s.key .s).wait = .none))

/-- R267, R268, R269, R293, R295: the loads, from issue to the return of their data. It comes from the line that the load has hit, or from its
piece once that has been served; the register takes it, a whole line fills the cache, where a line of a full one leaves, which one is
open; bytes that an instruction needs are kept for it (log entry 14). A piece that could not be read has stopped S. A far slot serves the
piece of a load with the bytes that S then sees there. The model reads the rules here as log entry 55 (DESIGN CHOICE) says. -/
def Obligations.Loads : Prop :=
  ∀ (s : State) (d a imm sc core bank : Nat) (l : SLoad) (p : Machine.Piece),
    let va := (sv s a + immS s imm).toNat % 2 ^ 56
    let k := tkey core bank
    let returns := exec (.sLoadReturn core bank) s
    let bytes (base : Nat) (bs : List Byte) : List Byte := (bs.drop (l.pa - base)).take l.size
    let comes (u : State) (base : Nat) (bs : List Byte) : Prop :=
      let v := bytesToNat (bytes base bs)
      let w : Word := if l.sgn then BitVec.ofInt 64 (sext v (8 * l.size)) else BitVec.ofNat 64 v
      ∃ t, returns = .next t ∧ (t.eng k .s).wait = .none
        ∧ Walks k .s { u.modTask k fun x => { x with sreg := if l.d = 0 then x.sreg else Sparse.wr 0 x.sreg l.d w, s := { x.s with load := none } }
                       with cur := t.cur } t
    let gone := dropPiece s l.piece
    let old := (s.task k).s.cache
    let fills (c : Sparse (Option Mem)) (u : State) : State :=
      u.modTask k fun x => { x with s := { x.s with cache := Sparse.wr none c (l.pa / 64) (some (Mem.wrList [] 0 p.data)) } }
    let filled := if old.length < 1024 then fills old gone
      else fills (old.eraseIdx (Config.freeChoice s.free % old.length)) { gone with free := s.free + 1 }
    (CanIssue s → s.cur.eng = .s → s.myEng.stopped = false → s.me.s.load = none →
      LoadsTo (.ldI8 d a imm) s d va 1 true none ∧ LoadsTo (.ldN8 d a imm) s d va 1 false none
      ∧ LoadsTo (.ldI16 d a imm) s d va 2 true none ∧ LoadsTo (.ldN16 d a imm) s d va 2 false none
      ∧ LoadsTo (.ldI32 d a imm) s d va 4 true none ∧ LoadsTo (.ldN32 d a imm) s d va 4 false none
      ∧ LoadsTo (.ldI64 d a imm) s d va 8 false none
      ∧ LoadsTo (.ldAcq d a sc) s d ((sv s a).toNat % 2 ^ 56) 8 false (some sc))
    ∧ ((s.task k).s.load = none → returns = .next s)
    ∧ (bank < 2 → (s.task k).s.load = some l → (s.eng k .s).stopped = false →
      (l.piece = 0 → l.keep = false → comes s (64 * (l.pa / 64)) (((Sparse.rd none old (l.pa / 64)).getD []).rdList 0 64))
      ∧ (l.piece ≠ 0 → findPiece s l.piece = none → returns = .next s)
      ∧ (l.piece ≠ 0 → findPiece s l.piece = some p →
        (p.st = .queued ∨ (p.st = .sent ∧ region p.pa ≠ .cap) → returns = .next s)
        ∧ (p.st = .bad → returns = .next (gone.modEng k .s fun x => { x with stopped := true }))
        ∧ (p.st = .served → l.keep = true → returns =
          .next ((gone.modTask k fun t => { t with s := { t.s with load := none, got := some (l.va, bytes p.pa p.data) } }).modEng k .s fun x =>
            { x with wait := .retry }))
        ∧ (p.st = .served → l.keep = false → comes (if p.len = 64 then filled else gone) p.pa p.data)))
    ∧ (p.own = .sLoad → p.wr = false → p.core = s.cur.core → p.bank = s.cur.bank → s.cur.bank < 2 → p.cc = s.ccFrame p.pa →
        region p.pa = .fast → (p.pa % 64 + p.len ≤ 64) → 0 < p.len → s.Sound p.pa p.len → s.reg regMcfg % 2 ^ 16 = 0 →
      ∃ c, serveFast s p = setPiece { s with counters := c }
        { p with st := .served, data := (List.range p.len).map fun i => SeenByte s (p.pa + i) })

/-- What becomes of the oldest of S's stores under way, in state v: it has been sent, or goes on its way now, one at a time (R125, R258,
R295, R365); a peer that no port reaches raises code 334 (R154). go holds of the state that it leaves. -/
def SendsOldest (v : State) (k : Nat) (go : State → Prop) : Prop :=
  ∀ h r, (v.task k).s.stores = h :: r →
    let id := v.pieceNext + 1
    let t := { v with
      pieceNext := id
      pieces := v.pieces ++ [{ id := id, core := k / 2, bank := k % 2, die := k / 2 / 96, own := .sStore, pa := h.pa, len := h.size, wr := true
                               data := natToBytes h.size h.val }] }
    let sent (u : State) : Prop := go (u.modTask k fun x => { x with s := { x.s with stores := { h with piece := id } :: r } })
    (h.piece ≠ 0 → go v)
    ∧ (h.piece = 0 → region h.pa ≠ .host → region h.pa ≠ .peer → sent t)
    ∧ (h.piece = 0 → region h.pa = .host → sent (hostRead (hostWrite t h.pa (natToBytes h.size h.val)) h.pa 0))
    ∧ (h.piece = 0 → region h.pa = .peer → ∀ w, (sendFrame t h.pa h.size true (natToBytes h.size h.val) = (w, true) → sent w)
      ∧ (sendFrame t h.pa h.size true (natToBytes h.size h.val) = (w, false) →
        go (settleMarks ((raiseCause { w with pieces := w.pieces.filter fun x => x.id != id } (tkey (k / 2) (k % 2)) 334 0 0).modTask k fun x =>
          { x with s := { x.s with stores := r } }) k)))

/-- What a store of the low n bytes of sD at va does: a misaligned address raises code 5; else it retires and waits behind S's earlier
stores, a line of the data cache takes it, and the oldest store is sent. Alone, in the capacity tier, it performs while the access counters
do not notify (R268, R292, R334). -/
def StoresTo (i : Instr) (s : State) (d va n : Nat) : Prop :=
  let v := (sv s d).toNat
  (va % n ≠ 0 → Moves i s (trap 5 s))
  ∧ (va % n = 0 → Translates i s va 1 fun l u =>
    let pa := l.phys va
    (SendsOldest (u.modMe fun t => { t with s := { t.s with
        stores := t.s.stores ++ [{ pa := pa, size := n, val := v % 256 ^ n }]
        cache := match Sparse.rd none t.s.cache (pa / 64) with
          | some m => Sparse.wr none t.s.cache (pa / 64) (some (m.wrN (pa % 64) n (v % 256 ^ n)))
          | none => t.s.cache } }) s.key fun t => Does i s t)
    ∧ (s.me.s.stores = [] → s.me.s.marks = [] → l.pa % 2 ^ 16 = 0 → region pa = .cap → s.reg regMcfg % 2 ^ 16 = 0 →
        (∀ p ∈ s.pieces, p.id ≤ s.pieceNext ∧ p.own ≠ .sStore) →
      ∃ t t', exec i s = .next t ∧ exec (.sStorePerform s.cur.core s.cur.bank) t = .next t'
        ∧ Near s.key { s with mem := s.mem.wrList pa (natToBytes n (v % 256 ^ n)) } t' ∧ t'.pieces = s.pieces
        ∧ (∀ a, t'.byteAt a = if pa ≤ a ∧ a < pa + n then BitVec.ofNat 8 (v / 256 ^ (a - pa)) else s.byteAt a)))

/-- R267, R269, R292, R295, R276: the stores, from issue to the moment they perform. Each performs once its target has it, and the next is
sent then: so a release store performs after every earlier store (R269). With each, the marks that wait for it come one nearer. A far slot
serves the piece of a store by writing its bytes and no others. The model reads the rules here as log entry 64 (DESIGN CHOICE) says. -/
def Obligations.Stores : Prop :=
  ∀ (s : State) (d a imm sc core bank : Nat) (h : SStore) (r : List SStore) (p : Machine.Piece) (q n : Nat),
    let va := (sv s a + immS s imm).toNat % 2 ^ 56
    let k := tkey core bank
    let performs := exec (.sStorePerform core bank) s
    let popped := (dropPiece s p.id).modTask k fun t => { t with s := { t.s with stores := r } }
    (CanIssue s → s.cur.eng = .s → s.cur.bank < 2 →
      StoresTo (.st8 d a imm) s d va 1 ∧ StoresTo (.st16 d a imm) s d va 2
      ∧ StoresTo (.st32 d a imm) s d va 4 ∧ StoresTo (.st64 d a imm) s d va 8
      ∧ StoresTo (.stRel d a sc) s d ((sv s a).toNat % 2 ^ 56) 8)
    ∧ ((s.task k).s.stores = [] → performs = .next s)
    ∧ ((s.task k).s.stores = h :: r → h.piece ≠ 0 →
      (findPiece s h.piece = none → performs = .next s)
      ∧ (findPiece s h.piece = some p →
        (p.st = .queued ∨ (p.st = .sent ∧ region p.pa ≠ .cap) → performs = .next s)
        ∧ (p.st = .served ∨ p.st = .bad →
          (r = [] → performs = .next (settleMarks popped k))
          ∧ (r ≠ [] → SendsOldest (settleMarks popped k) k fun t => performs = .next t))))
    ∧ ((s.task k).s.marks = [] → settleMarks s k = s.modTask k fun t => { t with s := { t.s with marks := [] } })
    ∧ ((s.task k).s.marks = [(q, n + 1)] → n ≠ 0 → settleMarks s k = s.modTask k fun t => { t with s := { t.s with marks := [(q, n)] } })
    ∧ ((s.task k).s.marks = [(q, 1)] → settleMarks s k = completeToken (s.modTask k fun t => { t with s := { t.s with marks := [] } }) k .s q)
    ∧ (p.own = .sStore → p.wr = true → p.data.length = p.len → p.cc = s.ccFrame p.pa → region p.pa = .fast → p.pa % 32 + p.len ≤ 32 → 0 < p.len →
        s.reg regMcfg % 2 ^ 16 = 0 → isLost s (chanOf p.pa) = false →
      ∃ c, let t := s.stripWrite (s.stripOf p.pa) (p.pa % 32) p.data
        serveFast s p = setPiece { t with counters := c } { p with st := .served }
        ∧ ∀ x, t.byteAt x = if p.pa ≤ x ∧ x < p.pa + p.len then p.data.getD (x - p.pa) 0#8 else s.byteAt x)

/-- R285, R309: post appends the packet at sA to a launch queue of the task's virtual function and says how it went; the queue breaks
where its size is out of range or the page of its next entry is not mapped with W. How S reads the packet is the model's choice (log
entry 14). -/
def Obligations.Posts : Prop :=
  ∀ (s : State) (d a b : Nat), CanIssue s → s.cur.eng = .s →
    let va := (sv s a).toNat % 2 ^ 56
    let q := (sv s b).toNat
    let v := ((s.gangOf s.key).map Gang.vf).getD 0
    let tail := s.reg (regQueue v q + 8) % 2 ^ 32
    let head := s.reg (regQueue v q + 0x10) % 2 ^ 32
    let lgn := s.reg (regQueue v q) % 32
    let entry := s.reg (regQueue v q) / 2 ^ 6 % 2 ^ 50 * 64 + 64 * (tail % 2 ^ lgn)
    let down := bitOf (s.reg (regQueue v q + 0x18)) 2 = true ∨ 2 ≤ s.reg (regQueue v q + 0x18) % 4
    (va % 64 ≠ 0 → Moves (.post d a b) s (trap 5 s))
    ∧ (va % 64 = 0 → 16 ≤ q → Moves (.post d a b) s (trap 1 s))
    ∧ (va % 64 = 0 → q < 16 → s.me.s.stores ≠ [] → Moves (.post d a b) s s)
    ∧ (va % 64 = 0 → q < 16 → s.me.s.stores = [] → NeedsBytes (.post d a b) s va 64 fun packet u =>
      (down → Acts (.post d a b) s u fun t => setS t d 2)
      ∧ (¬ down → (lgn = 0 ∨ 16 < lgn) → Acts (.post d a b) s u fun t => setS (breakQueue t v q) d 2)
      ∧ (¬ down → 1 ≤ lgn → lgn ≤ 16 → 2 ^ lgn ≤ (tail + 2 ^ 32 - head) % 2 ^ 32 → Acts (.post d a b) s u fun t => setS t d 0)
      ∧ (¬ down → 1 ≤ lgn → lgn ≤ 16 → (tail + 2 ^ 32 - head) % 2 ^ 32 < 2 ^ lgn → Acts (.post d a b) s u fun t =>
        match vfPhys t v entry 1 with
        | (w, some pa) => setS (moveTail (physWrite w pa packet) v q ((tail + 1) % 2 ^ 32)) d 1
        | (w, none) => setS (breakQueue w v q) d 2))

/-! ### Commands of C -/

/-- R165, R38: a token-producing instruction takes the next number of its engine, its token stays open until its work is done, and
its tko register shows the token to every engine of the task: bit 35, the engine's tag, the number. Register 0 shows nothing. -/
def Obligations.Tokens : Prop :=
  ∀ (s : State) (e : Eng) (n : Nat), n < 32 → s.cur.ch.tko.getD 0 < 32 →
    let seq := (s.myEng.count + 1) % 2 ^ 32
    (openToken s).myEng.count = seq ∧ (openToken s).myEng.opn = s.myEng.opn ++ [seq]
    ∧ (doneToken s).myEng.opn = s.myEng.opn.filter (· ≠ seq)
    ∧ tokenView (openToken s) s.key e n = (if n = s.cur.ch.tko.getD 0 ∧ n ≠ 0
        then BitVec.ofNat 64 (2 ^ 35 + s.cur.eng.tag * 2 ^ 32 + seq) else tokenView s s.key e n)
    ∧ (tokenDone (openToken s) s.key (BitVec.ofNat 64 (2 ^ 35 + s.cur.eng.tag * 2 ^ 32 + seq)) = false)
    ∧ (tokenDone (doneToken s) s.key (BitVec.ofNat 64 (2 ^ 35 + s.cur.eng.tag * 2 ^ 32 + seq)) = true)

/-- R73, R74, R75: where a command of C with that gap and nx field is placed, in the beat that its cursor names modulo 2^48, the nearest one
(log entry 80), and what its sequencer does with it: it takes it, C waits while the queue is full or the beat too far ahead, and a command
that comes less than 8 ticks before its start raises code 250. The bytes of a dwr come from src. -/
def SendsFrom (src : Nat) (i : Instr) (s : State) (kind : CmdKind) (gp nx : Nat) : Prop :=
  let gap := match s.cur.ch.gap with | none => gp | some x => 64 * x + gp
  let cursor := if nx = 1 then (s.myEng.cursor + 1) % 2 ^ 48 else s.myEng.cursor
  let off := if nx = 1 then gap else s.me.c.anchor.getD 0 + gap
  let now := s.now (s.cur.core / 96)
  let plan : Point := ⟨beatAt now.beat ((cursor + s.me.csr.tbb) % 2 ^ 48), off⟩
  let stuck := 64 ≤ (s.chan s.cur.core).cmds.length ∨ now.beat + 2 < plan.beat
  (¬ stuck → 8 ≤ s.delta now plan → Acts i s s (queued src kind cursor off plan))
  ∧ (¬ stuck → s.delta now plan < 8 → Moves i s (trap 250 s))
  ∧ (stuck → Moves i s s)

/-- The same for a command whose bytes do not come from the scratchpad. -/
def Sends (i : Instr) (s : State) (kind : CmdKind) (gp nx : Nat) : Prop := SendsFrom 0 i s kind gp nx

/-- R101: an open names a row of the home pseudo-channel by an address that the pinned window table maps, with R. -/
def OpensRow (i : Instr) (s : State) (a gp nx : Nat) (kind : Nat → Bool → CmdKind) : Prop :=
  let va := (cv s a).toNat
  let win := s.me.tlb.pins.find? fun l => l.maps va
  (va % 2 ^ 14 ≠ 0 → Moves i s (trap 29 s))
  ∧ (va % 2 ^ 14 = 0 → (∀ l, win = some l → ¬ (region (l.phys va) = .fast ∧ l.phys va / 2 ^ 30 = s.cur.core)) →
    Moves i s (trapAt 200 va s))
  ∧ (∀ l, va % 2 ^ 14 = 0 → win = some l → region (l.phys va) = .fast → l.phys va / 2 ^ 30 = s.cur.core →
    (l.r = false → Moves i s (trapAt 199 va s))
    ∧ (l.r = true → Sends i s (kind (l.phys va / 2 ^ 14 % 2 ^ 16) l.w) gp nx))

/-- R107-R110: opens, holds, releases, strip transfers and refreshes. A dwr takes its bytes as it is handed over, and keeps where they stand.
That C must not stand in a scratchpad command (CanSend) is the model's reading (log entry 17). The model reads the rules here as log entry
80 (DEDUCED) says. -/
def Obligations.RowCommands : Prop :=
  ∀ (s : State) (x a gp nx : Nat), CanSend s →
    let v := (cv s a).toNat
    let j := match s.cur.ch.col with | none => 0 | some c => c / 2 ^ 5 % 2 ^ 5
    let n := match s.cur.ch.col with | none => 32 | some c => c % 2 ^ 5 + 1
    OpensRow (.dopen x a gp nx) s a gp nx (fun row w => .opn x row w)
    ∧ OpensRow (.dopenw x a gp nx) s a gp nx (fun row w => .opnw x row w)
    ∧ Sends (.dhold x gp nx) s (.hold x) gp nx
    ∧ Sends (.drel x gp nx) s (.rel x) gp nx
    ∧ Sends (.drelw x gp nx) s (.relw x) gp nx
    ∧ (v % 32 ≠ 0 → Moves (.drd x a gp nx) s (trap 29 s) ∧ Moves (.dwr x a gp nx) s (trap 29 s))
    ∧ (v % 32 = 0 → ¬ OwnSpad s v (32 * n) → Moves (.drd x a gp nx) s (trap 32 s) ∧ Moves (.dwr x a gp nx) s (trap 32 s))
    ∧ (v % 32 = 0 → OwnSpad s v (32 * n) → Sends (.drd x a gp nx) s (.drd x v j n s.cur.ch.buf) gp nx
      ∧ SendsFrom v (.dwr x a gp nx) s (.dwr x j n s.cur.ch.buf (Sparse.window s.myCore.spad v (32 * n))) gp nx)
    ∧ (2 ^ 13 ≤ v → Moves (.dref a gp nx) s (trap 25 s))
    ∧ (v < 2 ^ 13 → Sends (.dref a gp nx) s (.dref v) gp nx)

/-- R112-R114: the infusions, on cx + 1 strip positions from sx. The model reads the rules here as log entry 80 (DEDUCED) says. -/
def Obligations.Infusions : Prop :=
  ∀ (s : State) (d a b gp nx sx cx : Nat), CanSend s →
    let ia (op : IaOp) (bf : Bool) (d a b : Nat) : CmdKind := .ia op bf d a b sx (cx + 1)
    Sends (.iaZero d gp nx sx cx) s (ia .zero false d 0 0) gp nx
    ∧ Sends (.iaCopy d a gp nx sx cx) s (ia .copy false d a 0) gp nx
    ∧ Sends (.iaAddBf16 d a b gp nx sx cx) s (ia .add true d a b) gp nx
    ∧ Sends (.iaAddF32 d a b gp nx sx cx) s (ia .add false d a b) gp nx
    ∧ Sends (.iaSubBf16 d a b gp nx sx cx) s (ia .sub true d a b) gp nx
    ∧ Sends (.iaSubF32 d a b gp nx sx cx) s (ia .sub false d a b) gp nx
    ∧ Sends (.iaMulBf16 d a b gp nx sx cx) s (ia .mul true d a b) gp nx
    ∧ Sends (.iaMulF32 d a b gp nx sx cx) s (ia .mul false d a b) gp nx
    ∧ Sends (.iaFmaBf16 d a b gp nx sx cx) s (ia .fma true d a b) gp nx
    ∧ Sends (.iaFmaF32 d a b gp nx sx cx) s (ia .fma false d a b) gp nx
    ∧ Sends (.iaAxpyBf16 d a b gp nx sx cx) s (ia .axpy true d a b) gp nx
    ∧ Sends (.iaAxpyF32 d a b gp nx sx cx) s (ia .axpy false d a b) gp nx
    ∧ Sends (.iaAccBf16 d a gp nx sx cx) s (ia .acc true d a 0) gp nx
    ∧ Sends (.iaAccF32 d a gp nx sx cx) s (ia .acc false d a 0) gp nx
    ∧ Sends (.iaWldF32 d a gp nx sx cx) s (ia .wld false d a 0) gp nx
    ∧ Sends (.iaWldBf16 d a gp nx sx cx) s (ia .wld true d a 0) gp nx
    ∧ Sends (.iaWstF32 d a gp nx sx cx) s (ia .wst false d a 0) gp nx
    ∧ Sends (.iaWstBf16 d a gp nx sx cx) s (ia .wst true d a 0) gp nx
    ∧ Sends (.iaMaxBf16 d a b gp nx sx cx) s (ia .max true d a b) gp nx
    ∧ Sends (.iaMaxF32 d a b gp nx sx cx) s (ia .max false d a b) gp nx
    ∧ Sends (.iaMinBf16 d a b gp nx sx cx) s (ia .min true d a b) gp nx
    ∧ Sends (.iaMinF32 d a b gp nx sx cx) s (ia .min false d a b) gp nx
    ∧ Sends (.iaCvt d a b gp nx sx cx) s (ia .cvt true d a b) gp nx
    ∧ Sends (.iaScale a gp nx sx) s (.ia .scale false 0 a 0 sx 1) gp nx

/-- R111, R134, R136: the commands of C that finish as they issue, each with a token that completes at once: the beat cursor and the
anchor, the address registers, the pattern registers, and take. -/
def Obligations.QuickCommands : Prop :=
  ∀ (s : State) (d a b gp nx : Nat), CanSend s →
    let done (i : Instr) (f : State → State) : Prop := Acts i s s fun t => doneToken (f t)
    let gap := match s.cur.ch.gap with | none => gp | some x => 64 * x + gp
    let place (cursor : Nat) (off : Option Nat) (t : State) : State :=
      (t.modMyEng fun x => { x with cursor := cursor }).modMe fun x => { x with c := { x.c with anchor := off } }
    let va := (cv s a).toNat
    let vd := (cv s d).toNat
    (nx = 1 → done (.dgap gp nx) (place ((s.myEng.cursor + 1) % 2 ^ 48) (some gap)))
    ∧ (nx ≠ 1 → done (.dgap gp nx) (place s.myEng.cursor (some (s.me.c.anchor.getD 0 + gap))))
    ∧ (2 ^ 48 ≤ va → Moves (.cbeat a) s (trap 25 s)) ∧ (va < 2 ^ 48 → done (.cbeat a) (place va none))
    ∧ done (.cadd d a b) (fun t => setC t d (cv s a + cv s b))
    ∧ done (.caddSub d a b) (fun t => setC t d (cv s a - cv s b))
    ∧ done (.caddShl d a b) (fun t => setC t d (cv s a <<< ((cv s b).toNat % 64)))
    ∧ done (.cmov d a) (fun t => setC t d (cv s a))
    ∧ (va % 8 ≠ 0 → Moves (.cmovLd d a) s (trap 29 s))
    ∧ (va % 8 = 0 → ¬ OwnSpad s va 8 → Moves (.cmovLd d a) s (trap 32 s))
    ∧ (va % 8 = 0 → OwnSpad s va 8 → done (.cmovLd d a) (fun t => setC t d (BitVec.ofNat 64 (s.myCore.spad.rdN va 8))))
    ∧ (vd % 8 ≠ 0 → Moves (.cmovSt d a) s (trap 29 s))
    ∧ (vd % 8 = 0 → ¬ OwnSpad s vd 8 → Moves (.cmovSt d a) s (trap 32 s))
    ∧ (vd % 8 = 0 → OwnSpad s vd 8 →
      done (.cmovSt d a) (fun t => t.modMyCore fun c => { c with spad := c.spad.wrN vd 8 va }))
    ∧ (va % 64 ≠ 0 → Moves (.cpat a d) s (trap 29 s))
    ∧ (va % 64 = 0 → ¬ OwnSpad s va 64 → Moves (.cpat a d) s (trap 32 s))
    ∧ (va % 64 = 0 → OwnSpad s va 64 → patOk (s.myCore.spad.rdN va 64) = false → Moves (.cpat a d) s (trap 25 s))
    ∧ (va % 64 = 0 → OwnSpad s va 64 → patOk (s.myCore.spad.rdN va 64) = true →
      done (.cpat a d) (fun t => t.modMe fun x => { x with pat := Sparse.wr 0 x.pat d (s.myCore.spad.rdN va 64) }))
    ∧ (∀ v r, s.me.hq = v :: r → done (.take d) (fun t => setC (t.modMe fun x => { x with hq := r }) d v))
    ∧ (s.me.hq = [] → s.cur.eng ≠ .s → stalledFor s s.key .c = true → Moves (.take d) s (trap 27 s))
    ∧ (s.me.hq = [] → s.cur.eng ≠ .s → stalledFor s s.key .c = false →
      ∃ t, exec (.take d) s = .next t ∧ Walks s.key s.cur.eng s t ∧ t.myEng.wait = .hq)

/-- The scratchpad command that C begins: it takes a token that stays open, and C stays in the command (R123, R124). -/
def begins (c : SpadCmd) (t : State) : State :=
  (openToken t).modMe fun x =>
    { x with c := { x.c with spc := some { c with seq := (t.myEng.count + 1) % 2 ^ 32, pos := engPos t.myEng } } }

/-- A length in bytes that C admits (R122): 32 to 2,097,152 and a multiple of 32. -/
def GoodLength (n : Nat) : Prop := 32 ≤ n ∧ n ≤ 2097152 ∧ n % 32 = 0

/-- The scratchpad bytes at address x that a command of C of n bytes reaches: its own share, or a gang peer's through the peer window,
where task k of the gang lies at 0x80000000 + k x 2 MiB (R119, R121). -/
def Reaches (s : State) (x n core at_ : Nat) : Prop :=
  (x < 2 ^ 21 ∧ OwnSpad s x n ∧ core = s.cur.core ∧ at_ = x)
  ∨ (0x80000000 ≤ x ∧ ∃ g k, s.gangOf s.key = some g ∧ g.tasks[(x - 0x80000000) / 2 ^ 21]? = some k ∧ core = k / 2
    ∧ at_ = (x - 0x80000000) % 2 ^ 21
    ∧ (let split := (s.core core).ssplit * 2 ^ 16
       if k % 2 = 0 then at_ + n ≤ split else split ≤ at_ ∧ at_ + n ≤ 2 ^ 21))

/-- R123, R130, R132-R135: the scratchpad commands begin where their operands pass the checks of R122. That C must not stand in another
one (CanSend) is the model's reading (log entry 17). -/
def Obligations.ScratchpadCommands : Prop :=
  ∀ (s : State) (a b q cx px : Nat), CanSend s →
    let va := (cv s a).toNat
    let vb := (cv s b).toNat
    let len := if cx = 0 then 32 else (cv s cx).toNat
    let n := if cx = 0 then 1 else (cv s cx).toNat
    let pat := Sparse.rd 0 s.me.pat px
    let file (e : Nat) : Prop := if s.cur.bank = 0 then e + n ≤ s.myCore.fsplit else s.myCore.fsplit ≤ e ∧ e + n ≤ 768
    (∀ dc da sc sa, GoodLength len → va % 32 = 0 → vb % 32 = 0 → Reaches s va len dc da → Reaches s vb len sc sa →
      Acts (.ccpy a b cx) s s (begins { kind := 0, dcore := dc, dst := da, score := sc, src := sa, n := len }))
    ∧ (1 ≤ n → n ≤ 768 → va % 32 = 0 → OwnSpad s va (patBytes pat n) →
      Acts (.cfq q a cx px) s s (begins { kind := 1, src := va, n := n, q := q, pat := pat }))
    ∧ (1 ≤ n → n ≤ 768 → va % 32 = 0 → OwnSpad s va (1024 * n) → Acts (.cdq a q cx) s s (begins { kind := 2, dst := va, n := n, q := q }))
    ∧ (1 ≤ n → n ≤ 768 → vb % 32 = 0 → OwnSpad s vb (1024 * n) → file va →
      Acts (.cvf a b cx) s s (begins { kind := 3, dst := va, src := vb, n := n }))
    ∧ (1 ≤ n → n ≤ 768 → va % 32 = 0 → OwnSpad s va (1024 * n) → file vb →
      Acts (.cfv a b cx) s s (begins { kind := 4, dst := va, src := vb, n := n }))
    ∧ (GoodLength len → va % 32 = 0 → va + len ≤ 524288 → vb % 32 = 0 → OwnSpad s vb len →
      Acts (.ccv a b cx) s s (begins { kind := 5, dst := va, src := vb, n := len }))
    ∧ (GoodLength len → va % 32 = 0 → va + len ≤ 16384 → vb % 32 = 0 → OwnSpad s vb len →
      Acts (.cpl a b cx) s s (begins { kind := 6, dst := va, src := vb, n := len }))

/-- R124, R130, R132, R133, R293: the work of the scratchpad command that C is in. A copy moves 32-byte units in order, some of them in
each act, a free number of at least one; where source and destination overlap it moves all at once, so that it reads all of the source
first. It completes with its last unit. A queue command moves one entry in each act, and completes with the last; while its queue is
full or empty it stays, and it raises code 28 or 27 where V can no longer act for it: V has taken an end record, or waits on a token of a
command of C at or after this one. An entry on its way counts as V acting (log entry 62). -/
def Obligations.ScratchpadWork : Prop :=
  ∀ (s : State) (core bank : Nat) (c : SpadCmd), bank < 2 →
    let k := tkey core bank
    let i : Instr := .cScratchpadCommandComplete core bank
    let ends (u : State) : State := completeToken (u.modTask k fun t => { t with c := { t.c with spc := none } }) k .c c.seq
    let on (n : Nat) (u : State) : State := u.modTask k fun t => { t with c := { t.c with spc := some { c with done := c.done + n } } }
    let places := (Sparse.rd [] (s.task k).opq c.q).length + ((s.task k).v.flights.filter fun f => f.dst == .opq c.q).length
    let size := if c.kind = 3 ∨ c.kind = 4 then 1024 * c.n else c.n
    let units := (size + 31) / 32
    let left := units - c.done
    let whole := (c.kind = 0 ∧ c.dcore = c.score ∧ c.dst < c.src + c.n ∧ c.src < c.dst + c.n) ∨ left ≤ 1
    let f := Config.freeChoice s.free % left
    let n := if whole then units else if f = 0 then left else f
    let u := if whole then s else { s with free := s.free + 1 }
    let o := 32 * c.done
    let m := min (32 * n) (size - o)
    let moved (v : State) : Host.Outcome State Fault Refusal := .next (if units ≤ c.done + n then ends v else on n v)
    let from_ (x : Mem) (at_ : Nat) : Mem := Sparse.window x (at_ + o) m
    let x := s.core core
    let vst := s.eng k .v
    let gone := vst.phase = .idle ∨ (vst.wait = .tokens ∧ ∃ w ∈ vst.latched.getD [], w.toNat / 2 ^ 35 % 2 = 1
      ∧ w.toNat / 2 ^ 32 % 8 = Eng.c.tag ∧ tokenDone s k w = false ∧ (w.toNat % 2 ^ 32 + 2 ^ 32 - c.seq) % 2 ^ 32 < 2 ^ 31)
    let coming := ∃ f ∈ (s.task k).v.flights, f.dst = .outq c.q
    let trapped (code : Nat) : State :=
      raiseCause ((s.modTask k fun t => { t with c := { t.c with spc := some { c with failed := true } } }).modEng k .c fun x =>
        { x with stopped := true }) k code 0 0
    ((s.task k).c.spc = none → exec i s = .next s)
    ∧ ((s.task k).c.spc = some c → c.failed = true → exec i s = .next s)
    ∧ ((s.task k).c.spc = some c → c.failed = false →
      (c.kind = 0 → exec i s = moved (u.modCore c.dcore fun y => { y with spad := y.spad.putMem (c.dst + o) m (from_ (s.core c.score).spad c.src) }))
      ∧ (c.kind = 3 → exec i s = moved (u.modCore core fun y => { y with uf := y.uf.putMem (1024 * c.dst + o) m (from_ x.spad c.src) }))
      ∧ (c.kind = 4 → exec i s = moved (u.modCore core fun y => { y with spad := y.spad.putMem (c.dst + o) m (from_ x.uf (1024 * c.src)) }))
      ∧ (c.kind = 5 → exec i s = moved (u.modCore core fun y => { y with canvas := y.canvas.putMem (c.dst + o) m (from_ x.spad c.src) }))
      ∧ (c.kind = 6 → exec i s = moved (u.modCore core fun y => { y with palette := y.palette.putMem (c.dst + o) m (from_ x.spad c.src) }))
      ∧ (c.kind = 1 → c.n ≤ c.done → exec i s = .next (ends s))
      ∧ (c.kind = 1 → c.done < c.n → places < 4 →
        let u := s.modTask k fun t =>
          { t with opq := Sparse.wr [] t.opq c.q (Sparse.rd [] t.opq c.q ++ [patEntry x.spad c.src c.pat c.done])
                   c := { t.c with spc := some { c with done := c.done + 1 } }
                   v := { t.v with pushed := Sparse.wr 0 t.v.pushed c.q (Sparse.rd 0 t.v.pushed c.q + 1) } }
        exec i s = .next (if c.n ≤ c.done + 1 then ends u else u))
      ∧ (c.kind = 1 → c.done < c.n → 4 ≤ places →
        (gone → (s.task k).stop = false → exec i s = .next (trapped 28))
        ∧ (¬ gone ∨ (s.task k).stop = true → exec i s = .next s))
      ∧ (∀ e r, c.kind = 2 → Sparse.rd [] (s.task k).outq c.q = e :: r →
        let u := (s.modTask k fun t =>
          { t with outq := Sparse.wr [] t.outq c.q r, c := { t.c with spc := some { c with done := c.done + 1 } } }).modCore core fun y =>
          { y with spad := y.spad.putMem (c.dst + 1024 * c.done) 1024 e }
        exec i s = .next (if c.n ≤ c.done + 1 then ends u else u))
      ∧ (c.kind = 2 → Sparse.rd [] (s.task k).outq c.q = [] →
        (gone → (s.task k).stop = false → ¬ coming → exec i s = .next (trapped 27))
        ∧ (¬ gone ∨ (s.task k).stop = true ∨ coming → exec i s = .next s)))

/-- An address command goes on its way: it takes a token that stays open and joins C's commands in flight, and C goes on (R123); the entry of
the record that gave its offset is used (R344). Where its first page lies with a peer, it sends its first piece at once (R373). -/
def flies (c : CCmd) (old : Option (Nat × Nat)) (peer : Bool) (t : State) : State :=
  let id := t.me.c.nextId + 1
  let u := (openToken t).modMe fun x =>
    { x with
      resume := x.resume.filter fun e => some e != old
      c := { x.c with nextId := id, cmds := x.c.cmds ++ [{ c with id := id, seq := (t.myEng.count + 1) % 2 ^ 32, pc := t.cur.pc }] } }
  settleCmd (if peer then sendNextPiece u t.key id else u) t.key id

/-- The state in which the tlbi markers that C has met have taken effect (R307): the stream TLB has dropped their entries, and a fetch ahead
under way brings none. -/
def marked (s : State) : State := s.modMe fun t =>
  if t.c.marks = [] then t
  else
    { t with
      c := { t.c with marks := [] }
      tlb := { t.tlb with strm := t.c.marks.foldl (fun l m => if m.2 then [] else l.filter fun x => !x.maps m.1) t.tlb.strm
                          walks := t.tlb.walks.filter fun w => !(w.unit == 1 && w.ahead) } }

/-- C of task k stalls for a command of buffer buf: the stall count grows by a free number of cycles, at least one (R137; log entry 23). -/
def stalled (s : State) (k buf : Nat) : State := countBuf { s with free := s.free + 1 } k buf 3 (1 + Config.freeChoice s.free)

/-- Where the next piece of a command of C lies, and its length (R125, R131): within 256 aligned bytes, or one element. -/
def nextPiece (c : CCmd) : Nat × Nat :=
  if c.elem then ((c.va + c.idx.getD (c.next / c.esz) 0 * c.esz) % 2 ^ 56, c.esz)
  else ((c.va + c.next) % 2 ^ 56, min (c.len - c.next) (256 - (c.va + c.next) % 2 ^ 56 % 256))

/-- What becomes of an address command c of C whose operands have passed their checks (R123, R126, R307, R344, R373). With eight such
commands in flight C waits, and, before a command that translates by the stream TLB, while commands before a tlbi marker have pieces to
send (log entry 79); then the markers take effect. A command that a record stopped takes up at its offset. A page that the TLB does not
hold is walked for while C stalls; one that is misplaced, or of the placement that the variant does not admit, raises code 200, and one
that forbids the access code 199. -/
def Starts (i : Instr) (s : State) (cc : Option Bool) (c : CCmd) : Prop :=
  let old := s.me.resume.find? fun e => e.1 == s.cur.pc % 2 ^ 56
  let c := { c with next := min c.len ((old.map Prod.snd).getD 0) }
  let va := (nextPiece c).1
  let unsent := ∃ x ∈ s.me.c.cmds, x.pinned = false ∧ x.failed = false ∧ x.next < x.len
  let waits := 8 ≤ s.me.c.cmds.length ∨ (c.pinned = false ∧ s.me.c.marks ≠ [] ∧ unsent)
  let m := if c.pinned then s else marked s
  let goes (l : Leaf) (u : State) : Prop :=
    let misplaced := placed u l va = false ∨ ∃ x, cc = some x ∧ l.cc ≠ x
    (misplaced → Moves i s (trapAt 200 va u))
    ∧ (¬ misplaced → (if c.store then l.w else l.r) = false → Moves i s (trapAt 199 va u))
    ∧ (¬ misplaced → (if c.store then l.w else l.r) = true → Acts i s u (flies c old (region (l.phys va) == .peer)))
  (waits → Moves i s s)
  ∧ (¬ waits → c.pinned = true → ∀ l, (s.me.tlb.pins.find? fun l => l.maps va) = some l → goes l m)
  ∧ (¬ waits → c.pinned = false →
    (lookup m.me.tlb.strm va = none → Moves i s (stalled (startWalk m s.key 1 va false 0) s.key c.buf))
    ∧ ∀ l t, lookup m.me.tlb.strm va = some (l, t) → goes l (m.modMe fun x => { x with tlb := { x.tlb with strm := t } }))

/-- R123, R126, R127, R129, R131: the copies between memory and the scratchpad start where their operands pass the checks of R122: plain
copies through plain frames, gathers and scatters through either, the .bs forms through the pinned window table, which must hold their
whole range (codes 200, 201), with the permission (199), compute-capable and well placed (200). The model reads the rules here as log
entry 23 (DESIGN CHOICE) and log entry 79 (DEDUCED) say. -/
def Obligations.AddressCommands : Prop :=
  ∀ (s : State) (a b cx ex : Nat), CanSend s →
    let va := (cv s a).toNat
    let vb := (cv s b).toNat
    let len := if cx = 0 then 32 else (cv s cx).toNat
    let buf := s.cur.ch.buf
    let e := 32 * 2 ^ ex
    let list := (cv s cx).toNat % 2 ^ 32
    let n := (cv s cx).toNat / 2 ^ 32
    let idx := (List.range n).map fun i => s.myCore.spad.rdN (list + 4 * i) 4
    let base (v : Nat) := v % 2 ^ 56
    let windowed (i : Instr) (c : CCmd) : Prop :=
      ((s.me.tlb.pins.find? fun l => l.maps c.va) = none → Moves i s (trapAt 200 c.va s))
      ∧ ∀ l, (s.me.tlb.pins.find? fun l => l.maps c.va) = some l →
        (l.maps (c.va + len - 1) = false → Moves i s (trapAt 201 c.va s))
        ∧ (l.maps (c.va + len - 1) = true → (if c.store then l.w else l.r) = false → Moves i s (trapAt 199 c.va s))
        ∧ (l.maps (c.va + len - 1) = true → (if c.store then l.w else l.r) = true →
          (l.cc = false ∨ placed s l c.va = false → Moves i s (trapAt 200 c.va s))
          ∧ (l.cc = true → placed s l c.va = true → Starts i s (some true) c))
    (GoodLength len → va % 32 = 0 → vb % 32 = 0 →
      (OwnSpad s va len → Starts (.cld a b cx) s (some false) { va := base vb, len := len, spad := va, buf := buf })
      ∧ (OwnSpad s vb len → Starts (.cst a b cx) s (some false) { store := true, va := base va, len := len, spad := vb, buf := buf })
      ∧ (OwnSpad s va len → windowed (.cldBs a b cx) { pinned := true, va := base vb, len := len, spad := va, buf := buf })
      ∧ (OwnSpad s vb len →
        windowed (.cstBs a b cx) { store := true, pinned := true, va := base va, len := len, spad := vb, buf := buf }))
    ∧ (1 ≤ n → n ≤ 65536 → list % 4 = 0 → OwnSpad s list (4 * n) →
      (va % 32 = 0 → OwnSpad s va (n * e) → vb % e = 0 →
        Starts (.cgat a b cx ex) s none { elem := true, va := base vb, len := n * e, spad := va, esz := e, buf := buf, idx := idx })
      ∧ (va % e = 0 → vb % 32 = 0 → OwnSpad s vb (n * e) → Starts (.csct a b cx ex) s none
        { store := true, elem := true, va := base va, len := n * e, spad := vb, esz := e, buf := buf, idx := idx }))

/-! ### V -/

/-- R161: an instruction of V reads its sources in the order qa, qb, qc. A pop takes the head entry of its queue and removes it, a
peek takes the head entry as it stands then and leaves it; where a queue has no entry, nothing is read. So vfma reads its three
sources; vadd with a peek and a pop of one queue gives both operands the same head entry and pops it once, and with two pops it adds
the first two entries and pops both. -/
def Obligations.QueueReads : Prop :=
  ∀ (s : State) (q : Sparse (List Mem)) (n peek : Nat) (r : List (Nat × Nat)) (d a px b qx cx rl ty : Nat),
    let c := vCtx s
    let el (vals : List Mem) (i e : Nat) : Nat := Mem.elem (vals.getD i []) (tySize ty) e
    let result (op : Nat → Nat × Nat) : Flight := resultOf s (vDst d) (tySize ty) (tyCount ty) (maskT s.me s.cur.ch.mask (tyCount ty)) op
    let sum (x y : Mem) : Flight := result fun e =>
      if tyFloat ty then fp2 c (tyFmt ty) fAdd (el [x, y] 0 e) (el [x, y] 1 e)
      else intNarrow ty c.sat (tyInt ty (el [x, y] 0 e) + tyInt ty (el [x, y] 1 e))
    let head := Sparse.rd [] s.me.opq a
    readQueues q [] = some ([], q)
    ∧ (Sparse.rd [] q n = [] → readQueues q ((n, peek) :: r) = none)
    ∧ (∀ e l, Sparse.rd [] q n = e :: l →
      let rest := if peek = 1 then q else Sparse.wr [] q n l
      (readQueues rest r = none → readQueues q ((n, peek) :: r) = none)
      ∧ (∀ es q', readQueues rest r = some (es, q') → readQueues q ((n, peek) :: r) = some (e :: es, q')))
    ∧ (CanIssue s → CheckerIdle s → NoLanding s → s.cur.eng = .v → s.myEng.inter = false → badShare s (some (vDst d)) = false →
      noRoom s.me (some (vDst d)) = false →
      (∀ x y z q', readQueues s.me.opq [(a, px), (b, qx), (cx, rl)] = some ([x, y, z], q') →
        Does (.vfma d a px b qx cx rl ty) s (launches 4 q' [result fun e =>
          fp3 c (tyFmt ty) fFma (el [x, y, z] 0 e) (el [x, y, z] 1 e) (el [x, y, z] 2 e)] s))
      ∧ (∀ e l, head = e :: l → Does (.vadd d a 1 a 0 ty) s (launches 3 (Sparse.wr [] s.me.opq a l) [sum e e] s))
      ∧ (∀ e f l, head = e :: f :: l → ∃ q', Sparse.rd [] q' a = l ∧ Does (.vadd d a 0 a 0 ty) s (launches 3 q' [sum e f] s)))

/-- R194, R195: the arithmetic of V, on the elements whose mask element is T. On a floating-point type the operation applies to the
elements with the rounding mode and flushing of the instruction; on an integer type to exact integers, wrapped or clamped. -/
def Obligations.VectorArithmetic : Prop :=
  ∀ (s : State) (d a px b qx cx rl ty : Nat),
    let m := s.cur.ch.mask
    let c := vCtx s
    let el (vals : List Mem) (i e : Nat) : Nat := Mem.elem (vals.getD i []) (tySize ty) e
    let gives (i : Instr) (lat : Nat) (qs : List (Nat × Nat)) (op : List Mem → Nat → Nat × Nat) : Prop :=
      Flies i s lat { qs := qs, reads := maskReads m, dst := some (vDst d) } fun vals =>
        [resultOf s (vDst d) (tySize ty) (tyCount ty) (maskT s.me m (tyCount ty)) (op vals)]
    let one (i : Instr) (lat : Nat) (fop : Fmt → Mode → Nat → FRes) (iop : Int → Int) : Prop :=
      gives i lat [(a, px)] fun vals e =>
        if tyFloat ty then fp1 c (tyFmt ty) fop (el vals 0 e) else intNarrow ty c.sat (iop (tyInt ty (el vals 0 e)))
    let two (i : Instr) (lat : Nat) (fop : Fmt → Mode → Nat → Nat → FRes) (iop : Int → Int → Int) : Prop :=
      gives i lat [(a, px), (b, qx)] fun vals e =>
        if tyFloat ty then fp2 c (tyFmt ty) fop (el vals 0 e) (el vals 1 e)
        else intNarrow ty c.sat (iop (tyInt ty (el vals 0 e)) (tyInt ty (el vals 1 e)))
    let three (i : Instr) (fop : Fmt → Mode → Nat → Nat → Nat → FRes) : Prop :=
      gives i 4 [(a, px), (b, qx), (cx, rl)] fun vals e => fp3 c (tyFmt ty) fop (el vals 0 e) (el vals 1 e) (el vals 2 e)
    let bits (i : Instr) (op : Nat → Nat → Nat) : Prop :=
      gives i 3 [(a, px), (b, qx)] fun vals e => (op (el vals 0 e) (el vals 1 e), 0)
    two (.vadd d a px b qx ty) 3 fAdd (fun x y => x + y)
    ∧ two (.vsub d a px b qx ty) 3 fSub (fun x y => x - y)
    ∧ two (.vmul d a px b qx ty) 4 fMul (fun x y => x * y)
    ∧ three (.vfma d a px b qx cx rl ty) fFma
    ∧ three (.vfms d a px b qx cx rl ty) fFms
    ∧ two (.vmin d a px b qx ty) 3 (fun f _ => fMin f) (fun x y => min x y)
    ∧ two (.vmax d a px b qx ty) 3 (fun f _ => fMax f) (fun x y => max x y)
    ∧ one (.vabs d a px ty) 3 fAbs (fun x => (x.natAbs : Int))
    ∧ one (.vneg d a px ty) 3 fNeg (fun x => -x)
    ∧ bits (.vand d a px b qx ty) (fun x y => x &&& y)
    ∧ bits (.vor d a px b qx ty) (fun x y => x ||| y)
    ∧ bits (.vxor d a px b qx ty) (fun x y => x ^^^ y)
    ∧ gives (.vshl d a px b qx ty) 3 [(a, px), (b, qx)] (fun vals e =>
        intNarrow ty c.sat (tyInt ty (el vals 0 e) * 2 ^ min (el vals 1 e) 64))
    ∧ bits (.vshr d a px b qx ty) (fun x y => if tyBits ty ≤ y then 0 else x / 2 ^ y)
    ∧ bits (.vsra d a px b qx ty) (fun x y =>
        if tySigned ty then wrapN (tyInt ty x / 2 ^ min y 64) (tyBits ty) else if tyBits ty ≤ y then 0 else x / 2 ^ y)
    ∧ one (.vrcp d a px ty) 10 fRcp id
    ∧ one (.vrsq d a px ty) 10 fRsq id
    ∧ one (.vexp2 d a px ty) 10 fExp2 id
    ∧ one (.vlog2 d a px ty) 10 fLog2 id
    ∧ one (.vsqrt d a px ty) 10 fSqrt id
    ∧ two (.vdiv d a px b qx ty) 14 fDiv (fun x _ => x)

/-- R168-R171, R174, R194, R195: what the floating-point operations of V give. The place of an exact positive value is the largest pattern
whose value is not above it, with the side of the midpoint to the next pattern on which it lies; the mode picks one of the two, and past the
largest finite magnitude the table of R170 holds. An exact zero sum of opposite signs is -0 in rdn alone. Each operation rounds its exact
value once; the special operands give the results of R195, and an invalid operation the canonical NaN, marked. An input is flushed before,
an output after the operation. A conversion to an integer rounds and clamps, one to a float rounds. -/
def Obligations.Rounding : Prop :=
  ∀ (f : Fmt) (m : Mode), f = .f32 ∨ f = .bf16 →
    let signed (neg : Bool) (b : Nat) : Nat := if neg then f.sign + b else b
    let rdn : Bool := m == .rdn
    let bad : FRes := ⟨f.nan, false, true⟩
    (∀ b, f.magVal b = if b < 2 ^ f.fb then ⟨b, -126 - f.fb⟩ else ⟨2 ^ f.fb + b % 2 ^ f.fb, (b / 2 ^ f.fb : Nat) - 127 - f.fb⟩)
    ∧ (∀ n d e, 0 < n → 0 < d →
      let p := placeQuo f n d e
      let against (v : Dy) : Ordering := cmpQuo n d e v.m 1 v.e
      against (f.magVal p.b) ≠ .lt ∧ against (f.magVal (p.b + 1)) = .lt
      ∧ (p.exact = true ↔ against (f.magVal p.b) = .eq)
      ∧ p.half = against (Dy.scale (Dy.add (f.magVal p.b) (f.magVal (p.b + 1))) (-1)))
    ∧ (∀ against : Dy → Ordering, against (f.magVal 0) ≠ .lt →
      (∀ i j, i ≤ j → against (f.magVal i) = .lt → against (f.magVal j) = .lt) →
      let p := placeCmp f against
      p.b ≤ f.inf ∧ against (f.magVal p.b) ≠ .lt ∧ (∀ i, p.b < i → i ≤ f.inf → against (f.magVal i) = .lt)
      ∧ (p.exact = true ↔ against (f.magVal p.b) = .eq)
      ∧ p.half = against (Dy.scale (Dy.add (f.magVal p.b) (f.magVal (p.b + 1))) (-1)))
    ∧ (∀ p neg,
      let up : Bool := !p.exact && match m with
        | .rne => p.half == .gt || (p.half == .eq && p.b % 2 == 1)
        | .rna => p.half != .lt
        | .rtz => false
        | .rdn => neg
        | .rup => !neg
      let b := p.b + if up then 1 else 0
      let most : Nat := match m, neg with
        | .rtz, _ => f.inf - 1
        | .rdn, false => f.inf - 1
        | .rup, true => f.inf - 1
        | _, _ => f.inf
      (b < f.inf → roundPlace f m neg p = (signed neg b, false)) ∧ (f.inf ≤ b → roundPlace f m neg p = (signed neg most, true)))
    ∧ (∀ z n d e, (n = 0 → roundRl f m z (.quo n d e) = (signed z 0, false))
        ∧ (n ≠ 0 → roundRl f m z (.quo n d e) = roundPlace f m (decide (n < 0)) (placeQuo f n.natAbs d e)))
    ∧ (∀ r, (∀ n d e, r ≠ .quo n d e) → (r.sgn = 0 → roundRl f m false r = (0, false))
        ∧ (0 < r.sgn → roundRl f m false r = roundPlace f m false (placeCmp f r.cmpDy))
        ∧ (r.sgn < 0 → roundRl f m false r = roundPlace f m true (placeCmp f fun v => (r.cmpDy v.neg).swap)))
    ∧ (∀ a b c s t u x y w, f.val a = .fin s x → f.val b = .fin t y → f.val c = .fin u w →
      fAdd f m a b = .ofPair (roundDy f m (if s = t then s else rdn) (Dy.add x y))
      ∧ fSub f m a b = .ofPair (roundDy f m (if s ≠ t then s else rdn) (Dy.add x y.neg))
      ∧ fMul f m a b = .ofPair (roundDy f m (s != t) (Dy.mul x y))
      ∧ fFma f m a b c = .ofPair (roundDy f m (if (s != t) = u then u else rdn) (Dy.add (Dy.mul x y) w))
      ∧ fFms f m a b c = .ofPair (roundDy f m (if (s != t) ≠ u then !u else rdn) (Dy.add (Dy.mul x y) w.neg))
      ∧ (y.m ≠ 0 → fDiv f m a b = .ofPair (roundRl f m (s != t) (.quo (if y.m < 0 then -x.m else x.m) y.m.natAbs (x.e - y.e))))
      ∧ (y.m = 0 → fDiv f m a b = if x.m = 0 then bad else .exact (signed (s != t) f.inf))
      ∧ fRcp f m a = fDiv f m f.one a
      ∧ (x.m = 0 → fSqrt f m a = .exact (signed s 0) ∧ fRsq f m a = .exact (signed s f.inf) ∧ fLog2 f m a = .exact (f.sign + f.inf))
      ∧ (x.m ≠ 0 → s = true → fSqrt f m a = bad ∧ fRsq f m a = bad ∧ fLog2 f m a = bad)
      ∧ (x.m ≠ 0 → s = false → fSqrt f m a = .ofPair (roundRl f m false (.root false x.m.natAbs x.e))
        ∧ fRsq f m a = .ofPair (roundRl f m false (.rroot x.m.natAbs x.e))
        ∧ fLog2 f m a = .ofPair (roundRl f m false (.log2 x.m.natAbs x.e)))
      ∧ (Dy.lt ⟨1, 20⟩ x.abs = false → fExp2 f m a = .ofPair (roundRl f m false (.exp2 x))))
    ∧ (∀ a b s t y, f.val a = .inf s → f.val b = .fin t y →
      fAdd f m a b = .exact (signed s f.inf) ∧ fAdd f m b a = .exact (signed s f.inf)
      ∧ fMul f m a b = (if y.m = 0 then bad else .exact (signed (s != t) f.inf))
      ∧ fMul f m b a = (if y.m = 0 then bad else .exact (signed (t != s) f.inf))
      ∧ fDiv f m a b = .exact (signed (s != t) f.inf) ∧ fDiv f m b a = .exact (signed (t != s) 0)
      ∧ fRcp f m a = .exact (signed s 0)
      ∧ fSqrt f m a = (if s then bad else .exact f.inf) ∧ fRsq f m a = (if s then bad else .exact 0)
      ∧ fExp2 f m a = .exact (if s then 0 else f.inf) ∧ fLog2 f m a = (if s then bad else .exact f.inf))
    ∧ (∀ a b s t, f.val a = .inf s → f.val b = .inf t →
      fAdd f m a b = (if s = t then .exact (signed s f.inf) else bad) ∧ fMul f m a b = .exact (signed (s != t) f.inf) ∧ fDiv f m a b = bad)
    ∧ (∀ a b, f.isNaN a = true ∨ f.isNaN b = true → ∀ op ∈ [fAdd, fSub, fMul, fDiv, fun f _ => fMin f, fun f _ => fMax f],
      op f m a b = ⟨f.nan, false, false⟩)
    ∧ (∀ a b, f.isNaN a = false → f.isNaN b = false →
      let key (v : Nat) : Int := if v / f.sign % 2 = 1 then -1 - (v % f.sign : Nat) else (v % f.sign : Nat)
      fMin f a b = .exact (if key b < key a then b else a) ∧ fMax f a b = .exact (if key a < key b then b else a))
    ∧ (∀ (c : VCtx) ops r b,
      let flushed (v : Nat) : Nat :=
        if c.flush ∧ 0 < v % f.sign ∧ v % f.sign < 2 ^ f.fb then signed (decide (v / f.sign % 2 = 1)) 0 else v
      c.input f b = flushed b
      ∧ (ops.any f.isNaN = false → f.isNaN r.b = true → c.output f ops r = (f.nan, if r.nv then 1 else 0))
      ∧ (ops.any f.isNaN = false → f.isNaN r.b = false → c.output f ops r = (flushed r.b, if r.of then 2 else 0))
      ∧ (ops.any f.isNaN = true → c.ln6 = false → c.output f ops r = (f.nan, 0)))
    ∧ (∀ (c : VCtx) (rnd sx ty b : Nat), (ty = 0 ∨ ty = 1) → 2 ≤ sx →
      let r := roundDy (tyFmt ty) c.mode false ⟨tyInt sx b, 0⟩
      (c.flush = false → cvtEl c rnd sx ty b = (r.1, if r.2 then 2 else 0))
      ∧ (∀ dst, 2 ≤ dst → tyFmt ty = f →
        let lo := (tyRange dst).1
        let hi := (tyRange dst).2
        (∀ s x, f.val (c.input f b) = .fin s x →
          let v := roundInt c.mode x
          cvtEl c rnd ty dst b = (wrapN (if v < lo then lo else if hi < v then hi else v) (tyBits dst), if v < lo ∨ hi < v then 4 else 0))
        ∧ (∀ s, f.val (c.input f b) = .inf s → cvtEl c rnd ty dst b = (wrapN (if s then lo else hi) (tyBits dst), 4))
        ∧ (f.isNaN (c.input f b) = true → cvtEl c rnd ty dst b = (0, 4))))
    ∧ (∀ (c : VCtx) (rnd sx dst b : Nat), 2 ≤ sx → 2 ≤ dst →
      let v := tyInt sx b
      let lo := (tyRange dst).1
      let hi := (tyRange dst).2
      (tySize sx < tySize dst → cvtEl c rnd sx dst b = (wrapN v (tyBits dst), 0))
      ∧ (tySize dst ≤ tySize sx →
        (c.sat = false → cvtEl c rnd sx dst b = (wrapN v (tyBits dst), if v < lo ∨ hi < v then 2 else 0))
        ∧ (c.sat = true → cvtEl c rnd sx dst b =
            (wrapN (if v < lo then lo else if hi < v then hi else v) (tyBits dst), if v < lo ∨ hi < v then 4 else 0))))
    ∧ (∀ (c : VCtx) (rnd b : Nat), c.ln6 = false →
      let x := c.input .bf16 b
      (Fmt.bf16.isNaN x = false → cvtEl c rnd 1 0 b = (x % 2 ^ 16 * 2 ^ 16, 0)) ∧ (Fmt.bf16.isNaN x = true → cvtEl c rnd 1 0 b = (Fmt.f32.nan, 0))
      ∧ (∀ s v, c.flush = false → Fmt.f32.val b = .fin s v →
        let r := roundDy .bf16 c.mode s v
        cvtEl c rnd 0 1 b = (r.1, if r.2 then 2 else 0))
      ∧ (∀ s, Fmt.f32.val b = .inf s → cvtEl c rnd 0 1 b = (if s then 65408 else 32640, 0))
      ∧ (Fmt.f32.isNaN b = true → cvtEl c rnd 0 1 b = (32704, 0)))

/-- R196-R198: comparisons of V into a mask, selection by a mask, and mask logic. 1 is T, 0 is F, 2 is U. A comparison is of the values
of the elements, a floating-point subnormal flushed to zero where the block flushes, -0 equal to +0; with a NaN only ne and uo hold. -/
def Obligations.VectorMasks : Prop :=
  ∀ (s : State) (d a px b qx cx rl ty : Nat),
    let m := s.cur.ch.mask
    let n := tyCount ty
    let f := tyFmt ty
    let el (vals : List Mem) (i e : Nat) : Nat := Mem.elem (vals.getD i []) (tySize ty) e
    let nan (v : Nat) : Bool := tyFloat ty && f.isNaN v
    let value (v : Nat) : Int :=
      if tyFloat ty then
        let v := if (vCtx s).flush then f.flush v else v
        if v / f.sign % 2 = 1 then -((v % f.sign : Nat) : Int) else (v % f.sign : Nat)
      else tyInt ty v
    let compares (i : Instr) (holds : Bool → Int → Int → Bool) : Prop :=
      Flies i s 2 { qs := [(a, px), (b, qx)], reads := maskReads m, dst := some (.mask d) } fun vals =>
        [maskOf d (maskT s.me m n) ((List.range n).map fun e =>
          let x := el vals 0 e
          let y := el vals 1 e
          if holds (nan x || nan y) (value x) (value y) then 1 else 0)]
    let logic (i : Instr) (srcs : List Nat) (f : Nat → Nat) : Prop :=
      Flies i s 1 { reads := srcs.flatMap maskReads, dst := some (.mask d) } fun _ =>
        [maskOf d (2 ^ 1024 - 1) ((List.range 1024).map f)]
    let x (e : Nat) : Nat := maskEl s.me a e
    let y (e : Nat) : Nat := maskEl s.me b e
    compares (.vcmpEq d a px b qx ty) (fun u x y => !u && decide (x = y))
    ∧ compares (.vcmpNe d a px b qx ty) (fun u x y => u || decide (x ≠ y))
    ∧ compares (.vcmpLt d a px b qx ty) (fun u x y => !u && decide (x < y))
    ∧ compares (.vcmpLe d a px b qx ty) (fun u x y => !u && decide (x ≤ y))
    ∧ compares (.vcmpGt d a px b qx ty) (fun u x y => !u && decide (y < x))
    ∧ compares (.vcmpGe d a px b qx ty) (fun u x y => !u && decide (y ≤ x))
    ∧ compares (.vcmpUo d a px b qx ty) (fun u _ _ => u)
    ∧ Flies (.vsel d a px b qx cx rl ty) s 2 { qs := [(a, px), (b, qx), (cx, rl)], reads := maskReads m, dst := some (vDst d) }
        (fun vals => [resultOf s (vDst d) (tySize ty) n (2 ^ n - 1) fun e =>
          (if maskEl s.me m e = 1 then el vals 0 e else if maskEl s.me m e = 0 then el vals 1 e else el vals 2 e, 0)])
    ∧ logic (.mand d a b) [a, b] (fun e => if x e = 0 ∨ y e = 0 then 0 else if x e = 1 ∧ y e = 1 then 1 else 2)
    ∧ logic (.mor d a b) [a, b] (fun e => if x e = 1 ∨ y e = 1 then 1 else if x e = 0 ∧ y e = 0 then 0 else 2)
    ∧ logic (.mxor d a b) [a, b] (fun e => if x e = 2 ∨ y e = 2 then 2 else if x e = y e then 0 else 1)
    ∧ logic (.mnot d a) [a] (fun e => if x e = 0 then 1 else if x e = 1 then 0 else 2)
    ∧ logic (.mknow d a) [a] (fun e => if x e = 2 then 0 else x e)
    ∧ logic (.mall d a) [a] (fun _ => if (List.range 1024).all (x · = 1) then 1 else if (List.range 1024).any (x · = 0) then 0 else 2)
    ∧ logic (.mnone d a) [a] (fun _ => if (List.range 1024).all (x · = 0) then 1 else if (List.range 1024).any (x · = 1) then 0 else 2)

/-- R199-R203: conversions, block integers, reductions and permutes of V. -/
def Obligations.VectorMoves : Prop :=
  ∀ (s : State) (d a px b qx cx rl ty sx xx imm nx : Nat),
    let m := s.cur.ch.mask
    let c := vCtx s
    let n := tyCount ty
    let el (vals : List Mem) (i e : Nat) : Nat := Mem.elem (vals.getD i []) (tySize ty) e
    let gives (i : Instr) (lat : Nat) (qs : List (Nat × Nat)) (els : Nat) (op : List Mem → Nat → Nat × Nat) : Prop :=
      Flies i s lat { qs := qs, reads := maskReads m, dst := some (vDst d) } fun vals =>
        [resultOf s (vDst d) (tySize ty) n els (op vals)]
    let ns := tyCount sx
    let ratio := min ns n
    let reduces (i : Instr) (kind : Nat) : Prop :=
      gives i 8 [(a, px)] (2 ^ n - 1) fun vals e =>
        if e = 0 then (if tyFloat ty then reduceF else reduceI) c kind ty n (maskT s.me m n) (el vals 0) else (0, 0)
    gives (.vcvt d a px sx xx ty) 3 [(a, px)] (maskT s.me m n &&& ((2 ^ ratio - 1) * 2 ^ (if ns < n then xx * ns else 0)))
        (fun vals e => cvtEl c s.cur.ch.rnd sx ty
          (Mem.elem (vals.getD 0 []) (tySize sx) ((if n < ns then xx * n else 0) + e - (if ns < n then xx * ns else 0))))
    ∧ Flies (.vqnt d a px xx ty) s 6 { qs := [(a, px)], dst := some (vDst d) } (fun vals =>
        [{ dst := vDst d, data := quantEntry (tyFmt ty) (biBits xx) ((List.range n).map fun e => c.input (tyFmt ty) (el vals 0 e))
           els := 2 ^ 1024 - 1, esz := 1 }])
    ∧ gives (.vdeq d a px xx ty) 3 [(a, px)] (maskT s.me m n) (fun vals e =>
        let v := vals.getD 0 []
        let q := sext (slice (v.rdN (e * biBits xx / 8) 2) (e * biBits xx % 8) (biBits xx)) (biBits xx)
        let sc := (v.get (1008 + e / 32)).toNat
        if sc = 255 then ((tyFmt ty).nan, 0)
        else c.output (tyFmt ty) [] (.ofPair (roundDy (tyFmt ty) c.mode false ⟨q, (sc : Int) - 127⟩)))
    ∧ reduces (.vredsum d a px ty) 0
    ∧ reduces (.vredmax d a px ty) 1
    ∧ reduces (.vredmin d a px ty) 2
    ∧ gives (.vperm d a px b qx cx rl ty) 6 ([(a, px), (b, qx)] ++ if tySize ty = 1 then [(cx, rl)] else []) (maskT s.me m n)
        (fun vals e => (el vals 0 ((if e < 512 then Mem.elem (vals.getD 1 []) 2 e else Mem.elem (vals.getD 2 []) 2 (e - 512)) % n), 0))
    ∧ gives (.vrot d a px nx ty) 2 [(a, px)] (maskT s.me m n)
        (fun vals e => (el vals 0 (((e : Int) + immValue s.cur.ch nx 8) % (n : Int)).toNat, 0))
    ∧ gives (.vbcast d a px b qx ty) 2 [(a, px), (b, qx)] (maskT s.me m n)
        (fun vals _ => (el vals 0 (Mem.elem (vals.getD 1 []) 2 0 % n), 0))
    ∧ gives (.viota d imm ty) 2 [] (maskT s.me m n) (fun _ e =>
        let v := immValue s.cur.ch imm 12 + e
        if tyFloat ty then ((roundDy (tyFmt ty) c.mode false (Dy.ofInt v)).1, 0) else intNarrow ty c.sat v)
    ∧ gives (.vsplat d imm ty) 2 [] (maskT s.me m n) (fun _ _ =>
        let v := immValue s.cur.ch imm 12
        if tyFloat ty then (fImmediate c ty (wrapN v 16), 0) else intNarrow ty c.sat v)
    ∧ gives (.vmov d a px ty) 2 [(a, px)] (maskT s.me m n) (fun vals e => (el vals 0 e, 0))
    ∧ gives (.vclr d ty) 2 [] (maskT s.me m n) (fun _ _ => (0, 0))

/-- R205-R207: vpf reads an underfile entry into a queue, vtos takes the first word of an entry to S, and vmark marks with a token
that completes when the last result in flight has landed; without tko it only takes its cycle. -/
def Obligations.VectorFeeds : Prop :=
  ∀ (s : State) (x q : Nat),
    let places := (Sparse.rd [] s.me.opq q).length + (s.me.v.flights.filter fun f => f.dst == .opq q).length
    let entry := Sparse.window s.myCore.uf (1024 * x) 1024
    let prod := s.cur.ch.tko.getD 0 ≠ 0
    Flies (.vtos x q) s 4 { qs := [(q, 0)], dst := some (.sreg x) } (fun vals =>
      [{ dst := .sreg x, data := Sparse.window (vals.getD 0 []) 0 8, serial := s.myEng.serial }])
    ∧ (CanIssue s → CheckerIdle s → NoLanding s →
      (inFile s x 1 = false → Moves (.vpf x q) s (trap 56 (cycled s)))
      ∧ (inFile s x 1 = true → s.myEng.inter = true → inFlight s.me (.entry x) = true → Moves (.vpf x q) s (cycled s))
      ∧ (inFile s x 1 = true → (s.myEng.inter = false ∨ inFlight s.me (.entry x) = false) →
        (4 ≤ places → Moves (.vpf x q) s (trap 52 (cycled s)))
        ∧ (places < 4 → Does (.vpf x q) s (launches 12 s.me.opq [{ dst := .opq q, data := entry }] s))))
    ∧ (CanIssue s → NoLanding s → ¬ prod → Does .vmark s (cycled s))
    ∧ (CanIssue s → s.myEng.opn.length < tokenLimit → CheckerIdle s → NoLanding s → s.cur.eng = .v → prod →
      (s.me.v.flights = [] → Acts .vmark s (cycled s) doneToken)
      ∧ (s.me.v.flights ≠ [] → Acts .vmark s (cycled s) fun t => (openToken t).modMe fun y =>
          { y with v := { y.v with flights := y.v.flights ++ [{ dst := .mark ((t.myEng.count + 1) % 2 ^ 32), due := lastDue y.v }] } }))

/-- R160, R188, R190, R193, R206, R207, R213: a result lands at its destination in its landing cycle: the elements that it writes, in an
underfile entry, a mask or an interval register, the others as they were; an entry in an outbound queue at the tail, one in an operand
queue before what cfq has pushed since V's last cycle; a register of S but register 0, where a write of S later in the walk that met it in
that cycle is kept (whether the two met is a free value, R391); a vmark token. With it come its status bits and its event record. Of
several results the one due first lands first, and of one cycle the one issued first. A cycle of V counts, lands what is then due, and
ends what the next cycle's landings look back at. The model reads the rules here as log entries 91 and 92 (DEDUCED) say. -/
def Obligations.VectorLandings : Prop :=
  ∀ (s : State) (core bank n : Nat) (f : Flight) (l : List Flight), bank < 2 →
    let k := tkey core bank
    let t := s.task k
    let without (w : State) (fs : List Flight) : State := w.modTask k fun t => { t with v := { t.v with flights := fs } }
    let lands (u : State) : Prop :=
      landFlight s k f =
        let w := u.modTask k fun t => { t with csr := { t.csr with vst := t.csr.vst ||| f.vst, jst := t.csr.jst ||| f.jst } }
        match f.ev with
        | some x => pushEvent w k (slice x 48 4) 0 (slice x 32 16) (x % 2 ^ 32)
        | none => w
    let laid (esz len : Nat) (old : Mem) : Mem := Sparse.ofFn 0#8 len fun i => if bitOf f.els (i / esz) then f.data.get i else old.get i
    let value := BitVec.ofNat 64 (f.data.rdN 0 8)
    let after := ((s.eng k .s).serial + 2 ^ 32 - f.serial) % 2 ^ 32
    let kept := Sparse.rd 0 t.sreg n ≠ Sparse.rd 0 t.v.sregs n ∧ 0 < after ∧ after < 2 ^ 31
    let writes (w : State) : State := w.modTask k fun t => { t with sreg := Sparse.wr 0 t.sreg n value }
    let due := l.filter fun g => decide (g.due ≤ t.v.cyc)
    let order := landingOrder due
    (t.v.flights = l → exec (.vResultLanding core bank) s =
      .next (order.foldl (fun w g => landFlight w k g) (without s (l.filter fun g => decide (t.v.cyc < g.due)))))
    ∧ order.Perm due
    ∧ order.Pairwise (fun g h => g.due ≤ h.due)
    ∧ (∀ c, order.filter (fun g => g.due == c) = due.filter fun g => g.due == c)
    ∧ (f.dst = .entry n → lands (s.modCore core fun c =>
      { c with uf := c.uf.putMem (1024 * n) 1024 (laid f.esz 1024 (Sparse.window c.uf (1024 * n) 1024)) }))
    ∧ (f.dst = .jreg n → lands (s.modTask k fun t =>
      { t with jreg := t.jreg.putMem (2048 * n) 2048 (laid f.esz 2048 (Sparse.window t.jreg (2048 * n) 2048)) }))
    ∧ (f.dst = .outq n → lands (s.modTask k fun t => { t with outq := Sparse.wr [] t.outq n (Sparse.rd [] t.outq n ++ [f.data]) }))
    ∧ (∀ q p, f.dst = .opq n → Sparse.rd [] t.opq n = q ++ p → p.length = Sparse.rd 0 t.v.pushed n →
      lands (s.modTask k fun t => { t with opq := Sparse.wr [] t.opq n (q ++ [f.data] ++ p) }))
    ∧ (f.dst = .mask n → n ≠ 0 → lands (s.modTask k fun t =>
      let mixed := (List.range 1024).map fun e => if bitOf f.els e then f.data.rdN 0 256 / 4 ^ e % 4 else Sparse.rd 0 t.mask n / 4 ^ e % 4
      { t with mask := Sparse.wr 0 t.mask n (packBits 2 mixed) }))
    ∧ (f.dst = .sreg n → n ≠ 0 →
      (¬ kept → lands (writes s))
      ∧ (kept → lands (if s.choose.1 % 2 = 1 then s.choose.2 else writes s.choose.2)))
    ∧ (f.dst = .mark n → lands (completeToken s k .v n))
    ∧ ((f.dst = .mask 0 ∨ f.dst = .sreg 0) → lands (s.modTask k id))
    ∧ (let u := landDue (s.modTask k fun t => { t with v := { t.v with cyc := t.v.cyc + 1 } }) k
      cycleV s k = u.modTask k fun t => { t with v := { t.v with sregs := t.sreg, pushed := [] } })

/-! ### The interval unit -/

/-- R178: how two bound patterns of a lane read: a NaN bound makes NaI; else lower above upper, a lower of plus infinity or an upper of
minus infinity makes the lane empty; else it is the set between the bounds, where -0 reads as 0. -/
def Obligations.IntervalReading : Prop :=
  ∀ (f : Fmt) (lo hi : Nat), (f = .f32 ∨ f = .bf16) →
    let above : Bool := match f.val lo, f.val hi with
      | .inf false, .fin _ _ => true
      | .inf false, .inf true => true
      | .fin _ _, .inf true => true
      | .fin _ x, .fin _ y => Dy.lt y x
      | _, _ => false
    (f.isNaN lo = true ∨ f.isNaN hi = true → Lane.ofBits f lo hi = .nai)
    ∧ (f.isNaN lo = false → f.isNaN hi = false →
      (above = true ∨ f.val lo = .inf false ∨ f.val hi = .inf true → Lane.ofBits f lo hi = .empty)
      ∧ (above = false → f.val lo ≠ .inf false → f.val hi ≠ .inf true → Lane.ofBits f lo hi = .set (Lane.bound f lo) (Lane.bound f hi)))
    ∧ ERl.cmp (Lane.bound f f.sign) .zero = .eq

/-- R179, R215-R217, R220, R221: the operations of the interval unit that write an interval register, on the lanes whose mask element is
T. A NaI operand gives NaI, an empty one empty (jhull takes the other operand); else the result is the hull of the exact set that R215
names: the infimum rounded by rdn and the supremum by rup, a zero bound as +0. A result that is NaI brings bit 10 of JST. -/
def Obligations.IntervalRegisters : Prop :=
  ∀ (s : State) (jd a b px qx ty imm : Nat),
    let m := s.cur.ch.mask
    let n := jCount ty
    let reads (l : List Nat) : List VDst := l.map VDst.jreg ++ maskReads m
    let lane (r e : Nat) : Lane := jLane s ty r e
    let writes (ty els : Nat) (f : Nat → Lane) : Flight :=
      let h := jSize ty / 2
      { dst := .jreg jd, els := els, esz := jSize ty
        data := Mem.ofBytes 0 ((List.range (jCount ty)).flatMap fun e =>
          if bitOf els e then natToBytes h (Lane.bits (jFmt ty) (f e)).1 ++ natToBytes h (Lane.bits (jFmt ty) (f e)).2
          else natToBytes (2 * h) 0)
        jst := if (List.range (jCount ty)).any fun e => bitOf els e && f e == .nai then 2 ^ 10 else 0 }
    let forward (i : Instr) (lat : Nat) (op : JOp) (regs : List Nat) (y : Nat) : Prop :=
      Flies i s lat { base := 72, reads := reads regs, dst := some (.jreg jd) } fun _ =>
        [writes ty (maskT s.me m n) fun e => jForward op (lane a e) (lane y e)]
    let build (i : Instr) (qs : List (Nat × Nat)) (f : List Mem → Nat → Lane) (ty : Nat) : Prop :=
      Flies i s 2 { base := 72, qs := qs, reads := maskReads m, dst := some (.jreg jd) } fun vals =>
        [writes ty (maskT s.me m (jCount ty)) (f vals)]
    let bound (vals : List Mem) (i e : Nat) : Nat := Mem.elem (vals.getD i []) (tySize ty) e
    let taken := (List.range n).filter (bitOf (maskT s.me m n))
    forward (.jadd jd a b ty) 4 .add [a, b] b
    ∧ forward (.jsub jd a b ty) 4 .sub [a, b] b
    ∧ forward (.jmul jd a b ty) 6 .mul [a, b] b
    ∧ forward (.jdiv jd a b ty) 16 .div [a, b] b
    ∧ forward (.jmax jd a b ty) 2 .max [a, b] b
    ∧ forward (.jmin jd a b ty) 2 .min [a, b] b
    ∧ forward (.jhull jd a b ty) 2 .hull [a, b] b
    ∧ forward (.jisect jd a b ty) 2 .isect [a, b] b
    ∧ forward (.jsqr jd a ty) 5 .sqr [a] a
    ∧ forward (.jsqrt jd a ty) 12 .sqrt [a] a
    ∧ forward (.jexp2 jd a ty) 12 .exp2 [a] a
    ∧ forward (.jabs jd a ty) 2 .abs [a] a
    ∧ forward (.jneg jd a ty) 2 .neg [a] a
    ∧ build (.jmkPair jd px a qx b ty) [(a, px), (b, qx)] (fun vals e => Lane.ofBits (jFmt ty) (bound vals 0 e) (bound vals 1 e)) ty
    ∧ build (.jmkPoint jd px a ty) [(a, px)] (fun vals e => Lane.ofBits (jFmt ty) (bound vals 0 e) (bound vals 0 e)) ty
    ∧ build (.jsplat jd imm) [] (fun _ _ => Lane.ofBits .f32 (widen imm) (widen imm)) 0
    ∧ Flies (.jcvt jd a px ty) s 3 { base := 72, reads := reads [a], dst := some (.jreg jd) } (fun _ =>
        [writes ty (if ty = 1 then maskT s.me m n &&& ((2 ^ 256 - 1) * 2 ^ (256 * px)) else maskT s.me m n)
          fun e => jLane s (1 - ty) a (if ty = 1 then e - 256 * px else 256 * px + e)])
    ∧ Flies (.jredsum jd a ty) s 10 { base := 72, reads := reads [a], dst := some (.jreg jd) } (fun _ =>
        [writes ty (2 ^ n - 1) fun e =>
          if e ≠ 0 then .set .zero .zero
          else if (taken.map (lane a)).contains .nai then .nai
          else if (taken.map (lane a)).contains .empty then .empty
          else
            let sum := treeSum (fun x y => Lane.bits (jFmt ty) (jForward .add (Lane.ofBits (jFmt ty) x.1 x.2) (Lane.ofBits (jFmt ty) y.1 y.2)))
              (fun e => if bitOf (maskT s.me m n) e then jBits s ty a e else (0, 0)) 10 0 n
            Lane.ofBits (jFmt ty) sum.1 sum.2])
    ∧ (∀ op x, jForward op .nai x = .nai ∧ (op.two = true → jForward op x .nai = .nai)
        ∧ (x ≠ .nai → jForward .hull .empty x = x ∧ jForward .hull x .empty = x
          ∧ (op ≠ .hull → jForward op .empty x = .empty ∧ (op.two = true → jForward op x .empty = .empty))))
    ∧ (∀ l h m k : ERl, (Piece.closed l h).isEmpty = false →
      let x := Piece.closed l h
      let y := Piece.closed m k
      let gives (op : JOp) (set : Pieces) : Prop := jForward op (.set l h) (.set m k) = Lane.ofHull (Pieces.hull set)
      let times (p q : ERl) : ERl :=
        if p.sgn * q.sgn = 0 then .zero
        else match p, q with
          | .fin (.quo n d e), .fin (.quo n' d' e') => .fin (.quo (n * n') (d * d') (e + e'))
          | _, _ => if p.sgn * q.sgn < 0 then .ninf else .pinf
      let quots (v : Sys2Proof.Piece) : Sys2Proof.Piece :=
        ⟨if 0 ≤ l.sgn then endDiv l v.hi else endDiv l v.lo, decide (0 < l.sgn) && v.hi == .pinf,
         if h.sgn ≤ 0 then endDiv h v.hi else endDiv h v.lo, decide (h.sgn < 0) && v.hi == .pinf⟩
      let part (v : Sys2Proof.Piece) (f : Sys2Proof.Piece → Sys2Proof.Piece) : Pieces := if v.isEmpty then [] else [f v]
      gives .add [.closed (endAdd l m) (endAdd h k)]
      ∧ gives .sub [.closed (endAdd l k.neg) (endAdd h m.neg)]
      ∧ gives .mul [.closed (.min (.min (times l m) (times l k)) (.min (times h m) (times h k)))
          (.max (.max (times l m) (times l k)) (.max (times h m) (times h k)))]
      ∧ gives .div (part y.pos quots ++ part y.neg.pos fun v => (quots v).neg)
      ∧ gives .sqr [if x.hasZero then .closed .zero (.max (times l l) (times h h)) else if l.sgn < 0 then .closed (times h h) (times l l)
          else .closed (times l l) (times h h)]
      ∧ gives .sqrt (part (x.inter (.closed .zero .pinf)) fun q => .closed (endSqrt q.lo) (endSqrt q.hi))
      ∧ gives .exp2 [⟨endExp2 l, l == .ninf, endExp2 h, false⟩]
      ∧ gives .max [.closed (.max l m) (.max h k)]
      ∧ gives .min [.closed (.min l m) (.min h k)]
      ∧ gives .abs [if x.hasZero then .closed .zero (.max l.neg h) else if l.sgn < 0 then .closed h.neg l.neg else x]
      ∧ gives .neg [.closed h.neg l.neg]
      ∧ gives .hull [x, y]
      ∧ gives .isect [x.inter y])
    ∧ (∀ p q : Dy, endAdd (.ofDy p) (.ofDy q) = .ofDy (Dy.add p q)
        ∧ (0 < q.m → p.m ≠ 0 → endDiv (.ofDy p) (.ofDy q) = .fin (.quo p.m q.m.toNat (p.e - q.e)))
        ∧ (0 ≤ p.m → endSqrt (.ofDy p) = .fin (.root false p.m.toNat p.e))
        ∧ (Dy.lt ⟨1, 20⟩ p.abs = false → endExp2 (.ofDy p) = .fin (.exp2 p)))
    ∧ (∀ (f : Fmt) (lo hi : Rl),
      let plain (x : Nat) : Nat := if f.isZero x then 0 else x
      Lane.bits f .nai = (f.nan, f.nan) ∧ Lane.bits f .empty = (f.inf, f.sign + f.inf)
      ∧ Lane.bits f (.set .ninf .pinf) = (f.sign + f.inf, f.inf)
      ∧ Lane.bits f (.set (.fin lo) (.fin hi)) = (plain (roundRl f .rdn false lo).1, plain (roundRl f .rup false hi).1))

/-- R218, R219, R222, R223: extractions to the underfile or an outbound queue, and comparisons into a mask. An extraction of an ordinary
lane gives its bounds, its midpoint, its radius about that midpoint, its width, -0 as +0. A comparison is T where it holds for every pair
of points, F where it holds for none, else U; subset and disjoint take an empty operand as a set. 1 is T, 0 is F, 2 is U. -/
def Obligations.IntervalReads : Prop :=
  ∀ (s : State) (d a b x hx ty md : Nat),
    let m := s.cur.ch.mask
    let n := jCount ty
    let f := jFmt ty
    let els := maskT s.me m n
    let reads (l : List Nat) : List VDst := l.map VDst.jreg ++ maskReads m
    let dst := vDst (32 * d + x)
    let plain (v : Nat) : Nat := if v % f.sign = 0 then 0 else v
    let val (v : Nat) : Dy := match f.val v with | .fin _ x => x | _ => Dy.zero
    let up (v : Dy) : Nat := plain (roundDy f .rup false v).1
    let mid (lo hi : Nat) : Nat :=
      if f.isInf lo ∧ f.isInf hi then 0
      else if f.isInf lo then f.sign + f.maxFin
      else if f.isInf hi then f.maxFin
      else plain (roundDy f .rne false (Dy.scale (Dy.add (val lo) (val hi)) (-1))).1
    let extract (i : Instr) (empty : Nat) (of : Nat → Nat → Nat) : Prop :=
      Flies i s 3 { base := 72, reads := reads [a], dst := some dst } fun _ =>
        [{ dst := dst, els := els, esz := jSize ty / 2
           data := Mem.ofBytes 0 ((List.range n).flatMap fun e =>
             natToBytes (jSize ty / 2) (if bitOf els e = false then 0 else match jLane s ty a e with
               | .nai => f.nan
               | .empty => empty
               | .set _ _ => of (jBits s ty a e).1 (jBits s ty a e).2)) }]
    let compare (i : Instr) (ofEmpty : Bool → Bool → Nat) (holds never : ERl → ERl → ERl → ERl → Bool) : Prop :=
      Flies i s 2 { base := 72, reads := reads [a, b], dst := some (.mask md) } fun _ =>
        [maskOf md els ((List.range n).map fun e => match jLane s ty a e, jLane s ty b e with
          | .nai, _ => 2
          | _, .nai => 2
          | .set al ah, .set bl bh => if holds al ah bl bh then 1 else if never al ah bl bh then 0 else 2
          | x, y => ofEmpty (x == .empty) (y == .empty))]
    let same (al ah bl bh : ERl) : Bool := ERl.cmp al ah == .eq && ERl.cmp bl bh == .eq && ERl.cmp al bl == .eq
    let apart (al ah bl bh : ERl) : Bool := ERl.lt ah bl || ERl.lt bh al
    extract (.jlo d a x ty) f.inf (fun lo _ => plain lo)
    ∧ extract (.jhi d a x ty) (f.sign + f.inf) (fun _ hi => plain hi)
    ∧ extract (.jmid d a x ty) f.nan mid
    ∧ extract (.jrad d a x ty) f.nan (fun lo hi =>
        if f.isInf lo ∨ f.isInf hi then f.inf
        else
          let c := val (mid lo hi)
          up (if Dy.lt (Dy.sub c (val lo)) (Dy.sub (val hi) c) then Dy.sub (val hi) c else Dy.sub c (val lo)))
    ∧ extract (.jwid d a x ty) f.nan (fun lo hi => if f.isInf lo ∨ f.isInf hi then f.inf else up (Dy.sub (val hi) (val lo)))
    ∧ Flies (.jst d a x hx) s 2 { base := 72, reads := [.jreg a], dst := some dst } (fun _ =>
        [{ dst := dst, data := Sparse.window s.me.jreg (2048 * a + 1024 * hx) 1024, els := 2 ^ 1024 - 1, esz := 1 }])
    ∧ compare (.jcmpLt md a b ty) (fun _ _ => 2) (fun _ ah bl _ => ERl.lt ah bl) (fun al _ _ bh => ERl.le bh al)
    ∧ compare (.jcmpLe md a b ty) (fun _ _ => 2) (fun _ ah bl _ => ERl.le ah bl) (fun al _ _ bh => ERl.lt bh al)
    ∧ compare (.jcmpEq md a b ty) (fun _ _ => 2) same apart
    ∧ compare (.jcmpNe md a b ty) (fun _ _ => 2) apart same
    ∧ compare (.jcmpSub md a b ty) (fun ea _ => if ea then 1 else 0) (fun al ah bl bh => ERl.le bl al && ERl.le ah bh) (fun _ _ _ _ => true)
    ∧ compare (.jcmpDis md a b ty) (fun _ _ => 1) apart (fun _ _ _ _ => true)
    ∧ Flies (.jempty md a ty) s 1 { base := 72, reads := reads [a], dst := some (.mask md) } (fun _ =>
        [maskOf md els ((List.range n).map fun e => if jLane s ty a e = .empty then 1 else if jLane s ty a e = .nai then 2 else 0)])

/-- R213, R214, R224, R225: a contractor narrows the lanes of its registers whose mask element is T; its results land in one cycle. A lane
with a NaI operand becomes NaI. Else each of its intervals becomes the hull of its projection of the exact constraint set, or all three
become empty where that set is empty, as with an empty operand; the projections are spelled with the sets of sums, products, quotients,
roots and logarithms, whose ends R215 names. The result for z brings the group bits of lanes whose constraint set is empty, bit 9 where an
interval that was a set became empty, lost an infinite width, or narrowed by more than th / 65,536 of its width, and the event record with
the number of lanes on which the set of an interval changed; a lane that a NaI operand makes NaI does not count. The model reads the rules
here as log entry 22 (DEDUCED) says. -/
def Obligations.IntervalContractors : Prop :=
  ∀ (s : State) (z x y ty : Nat),
    let m := s.cur.ch.mask
    let n := jCount ty
    let f := jFmt ty
    let els := maskT s.me m n
    let read (b : Nat × Nat) : Lane := Lane.ofBits f b.1 b.2
    let width (b : Nat × Nat) : Option Dy := match f.val b.1, f.val b.2 with
      | .fin _ l, .fin _ h => some (Dy.sub h l)
      | _, _ => none
    let far (old new : Nat × Nat) : Bool := match read old, read new with
      | .set _ _, .empty => true
      | .set _ _, .set _ _ => match width old, width new with
        | none, some _ => true
        | some w, some v => Dy.lt Dy.zero w && Dy.lt (Dy.mul ⟨s.me.csr.npth, -16⟩ w) (Dy.sub w v)
        | _, _ => false
      | _, _ => false
    let moved (old new : Nat × Nat) : Bool := match read old, read new with
      | .set a b, .set c d => ERl.cmp a c != .eq || ERl.cmp b d != .eq
      | .empty, .empty => false
      | _, _ => true
    let contracts (i : Instr) (lat : Nat) (op : JOp) (two : Bool) : Prop :=
      let regs := if two then [z, x, y] else [z, x]
      let new (e : Nat) : Lane × Lane × Lane × Bool :=
        jContract op (jLane s ty x e) (if two then jLane s ty y e else .set .ninf .pinf) (jLane s ty z e)
      let pairs (e : Nat) : List ((Nat × Nat) × (Nat × Nat)) :=
        (regs.map fun r => jBits s ty r e).zip
          (([(new e).2.2.1, (new e).1, (new e).2.1].take regs.length).map (Lane.bits f))
      let used := (List.range n).filter (bitOf els)
      let none_ := used.foldl (fun a e => if (new e).2.2.2 then a ||| 2 ^ (e / (if ty = 1 then 64 else 32)) else a) 0
      let count := (used.filter fun e =>
        !(regs.any fun r => jLane s ty r e == .nai) && (pairs e).any fun p => moved p.1 p.2).length
      let fz := jFlight z ty n els fun e => (new e).2.2.1
      let fx := jFlight x ty n els fun e => (new e).1
      let fy := jFlight y ty n els fun e => (new e).2.1
      Flies i s lat { base := 72, reads := regs.map VDst.jreg ++ maskReads m } fun _ =>
        { fz with jst := fz.jst ||| none_ ||| (if used.any fun e => (pairs e).any fun p => far p.1 p.2 then 2 ^ 9 else 0)
                  ev := vEvent s 3 count } :: (if two then [fx, fy] else [fx])
    contracts (.jaddBk z x y ty) 8 .add true
    ∧ contracts (.jsubBk z x y ty) 8 .sub true
    ∧ contracts (.jmulBk z x y ty) 12 .mul true
    ∧ contracts (.jdivBk z x y ty) 20 .div true
    ∧ contracts (.jmaxBk z x y ty) 8 .max true
    ∧ contracts (.jminBk z x y ty) 8 .min true
    ∧ contracts (.jsqrBk z x ty) 16 .sqr false
    ∧ contracts (.jsqrtBk z x ty) 16 .sqrt false
    ∧ contracts (.jexp2Bk z x ty) 16 .exp2 false
    ∧ contracts (.jabsBk z x ty) 8 .abs false
    ∧ contracts (.jnegBk z x ty) 8 .neg false
    ∧ (∀ op u v w, (u = .nai ∨ v = .nai ∨ w = .nai → jContract op u v w = (.nai, .nai, .nai, false))
        ∧ (u ≠ .nai → v ≠ .nai → w ≠ .nai → u = .empty ∨ v = .empty ∨ w = .empty → jContract op u v w = (.empty, .empty, .empty, true)))
    ∧ (∀ xl xh yl yh zl zh : ERl,
      let u := Piece.closed xl xh
      let v := Piece.closed yl yh
      let w := Piece.closed zl zh
      let narrows (op : JOp) (us vs ws : Pieces) : Prop :=
        jContract op (.set xl xh) (.set yl yh) (.set zl zh) =
          match Pieces.hull us, Pieces.hull vs, Pieces.hull ws with
          | some p, some q, some r => (.set p.1 p.2, .set q.1 q.2, .set r.1 r.2, false)
          | _, _, _ => (.empty, .empty, .empty, true)
      let within (p : Sys2Proof.Piece) (set : Pieces) : Pieces := (set.map fun q => p.inter q).filter fun q => !q.isEmpty
      let some_ (p : Sys2Proof.Piece) (set : Pieces) : Pieces := if p.isEmpty then [] else set
      let factor (r q : Sys2Proof.Piece) : Pieces := if r.hasZero ∧ q.hasZero then [Piece.line] else setQuo r q
      let least (p q : Sys2Proof.Piece) : Pieces :=
        within (p.inter w) [.closed q.lo .pinf] ++ some_ (q.inter w) [p.inter (.closed .ninf (q.inter w).hi)]
      let most (p q : Sys2Proof.Piece) : Pieces :=
        within (p.inter w) [.closed .ninf q.hi] ++ some_ (q.inter w) [p.inter (.closed (q.inter w).lo .pinf)]
      let root := w.inter (.closed .zero .pinf)
      narrows .add (within u [setAdd w v.neg]) (within v [setAdd w u.neg]) (within w [setAdd u v])
      ∧ narrows .sub (within u [setAdd w v]) (within v [setAdd u w.neg]) (within w [setAdd u v.neg])
      ∧ narrows .mul (within u (factor w v)) (within v (factor w u)) (within w [setMul u v])
      ∧ narrows .div (within u (setMulNz w v))
          ([⟨.zero, true, .pinf, false⟩, ⟨.ninf, false, .zero, true⟩].flatMap fun q => within q (within v (factor u w))) (within w (setQuo u v))
      ∧ narrows .max (least u v) (least v u) (within w [setMax u v])
      ∧ narrows .min (most u v) (most v u) (within w [setMin u v])
      ∧ narrows .sqr (within u (setSqrt w ++ (setSqrt w).map Piece.neg)) [v] (within w [setSqr u])
      ∧ narrows .sqrt (within (u.inter (.closed .zero .pinf)) (some_ root [setSqr root])) [v] (within w (setSqrt u))
      ∧ narrows .exp2 (within u (setLog2 w)) [v] (within w [setExp2 u])
      ∧ narrows .abs (within u (some_ root [root, root.neg])) [v] (within w [setAbs u])
      ∧ narrows .neg (within u [w.neg]) [v] (within w [u.neg]))

/-! ### Reductions, timed transfers and far requests -/

/-- The parameter block of words w, whose buffers lie at pas, waits at C for the reduction engine, with its flag address plus 1 or 0; C
takes a token that stays open (R116). -/
def handing (w pas : List Nat) (f : Nat) (t : State) : State :=
  (openToken t).modMe fun y =>
    { y with c :=
        { y.c with rdc := some ([(t.myEng.count + 1) % 2 ^ 32, t.cur.ch.buf, w.getD 2 0, w.getD 3 0, f] ++ pas), rdcAt := engPos t.myEng } }

/-- R90, R95-R99, R116, R117, R377, R380: rdc hands a parameter block that passes its checks to the reduction engine of the stack that holds
its buffers: it takes a token and C stays in it until the engine has room, four blocks at most, and no stop has reached its task. The
first buffer that fails a check of its window is the one a cause names; bits 63:56 of an address are dropped (log entry 78). A flag page
that C must walk for stalls it for a free time (log entry 23), also until the pieces before a tlbi marker are on their way (log entry 79).
In a named beat the oldest block that names it works from offset 64: a strip takes half its transfers in ticks, 16 more for each that
fails, and must end inside the window; the engine then writes the sum of its sources. A block that ends leaves the engine, and keeps the
beat that is open if it names it; without a flag its event is sent and its token completes, else its flag write goes on its way. The model
reads the rules here as log entry 80 (DEDUCED) says. -/
def Obligations.Reductions : Prop :=
  ∀ (s : State) (a core bank stack n : Nat) (l : Leaf) (t : List Leaf),
    let x := (cv s a).toNat
    let w := (List.range 16).map fun i => s.myCore.spad.rdN (x + 8 * i) 8
    let flag := w.getD 1 0
    let bufs := w.getD 0 0 :: (List.range (w.getD 2 0 / 2 ^ 30 % 16)).map fun i => w.getD (4 + i) 0
    let base := bufs.map fun v => v % 2 ^ 56
    let dst := w.getD 0 0 % 2 ^ 56
    let size := 32 * (w.getD 2 0 % 2 ^ 30)
    let win (v : Nat) : Option Leaf := s.me.tlb.pins.find? fun l => l.maps v
    let pa (v : Nat) : Nat := match win v with | some l => l.phys v | none => 0
    let crosses (v : Nat) : Bool := match win v with
      | some l => !l.maps (v + size - 1)
      | none => s.me.tlb.pins.any fun l => decide (v < l.va) && decide (l.va < v + size)
    let away (v : Nat) : Bool := match win v with
      | some l => region (l.phys v) != .fast || stackOf (chanOf (l.phys v)) != stackOf (chanOf (pa dst))
      | none => true
    let unreadable (v : Nat) : Bool := !(win v).any Leaf.r
    let laps (v : Nat) : Bool := pa v != pa dst && decide (pa v < pa dst + size) && decide (pa dst < pa v + size)
    let stops (code va : Nat) : Prop := Moves (.rdc a) s (trapAt code va s)
    let va := flag % 2 ^ 56
    let unsent := ∃ c ∈ s.me.c.cmds, c.pinned = false ∧ c.failed = false ∧ c.next < c.len
    let u := (marked s).modMe fun y => { y with tlb := { y.tlb with strm := t } }
    let k := tkey core bank
    let z := s.die (stack / 2)
    let y := s.stack stack
    let start := if y.busy.1 = z.beat then max 64 y.busy.2 else 64
    let end_ (b : RedBlk) : Nat := start + (b.srcs.length + 2) / 2 + if b.late.1 = z.beat then b.late.2 else 0
    let due (b : RedBlk) : Prop :=
      redUser s stack z.beat = some b ∧ z.freeze = none ∧ z.pause = none ∧ 2 * start ≤ z.off2 ∧ end_ b ≤ s.windowEnd z.beat
        ∧ (∀ p ∈ b.channels stack, s.steep p z.beat = false) ∧ 2 * end_ b ≤ z.off2
    let put (v : State) (b c : RedBlk) : State := v.modStack stack fun y => { y with red := y.red.map fun d => if d = b then c else d }
    let last (b : RedBlk) : Nat := beatAt z.beat ((b.first + (s.task (tkey b.core b.bank)).csr.tbb + (b.nbeats - 1) * b.stride) % 2 ^ 48)
    let leaves (b : RedBlk) : State := s.modStack stack fun y =>
      { y with red := y.red.erase b
               owners := if b.names (s.task (tkey b.core b.bank)).csr.tbb z.beat then y.owners ++ [(b, z.beat)] else y.owners }
    (CanSend s →
      (x % 128 ≠ 0 → Moves (.rdc a) s (trap 29 s))
      ∧ (x % 128 = 0 → ¬ OwnSpad s x 128 → Moves (.rdc a) s (trap 32 s))
      ∧ (x % 128 = 0 → OwnSpad s x 128 →
        (rdcFieldBad w = true → Moves (.rdc a) s (trap 25 s))
        ∧ (rdcFieldBad w = false → (∃ v ∈ bufs, v % 32 ≠ 0) → Moves (.rdc a) s (trap 29 s))
        ∧ (rdcFieldBad w = false → (∀ v ∈ bufs, v % 32 = 0) → flag % 8 ≠ 0 → Moves (.rdc a) s (trap 29 s))
        ∧ (rdcFieldBad w = false → (∀ v ∈ bufs, v % 32 = 0) → flag % 8 = 0 →
          (∀ v, base.find? crosses = some v → stops 201 v)
          ∧ (base.find? crosses = none →
            (∀ v, base.find? away = some v → stops 200 v)
            ∧ (base.find? away = none →
              ((win dst).any Leaf.w = false → stops 199 dst)
              ∧ ((win dst).any Leaf.w = true →
                (∀ v, (base.drop 1).find? unreadable = some v → stops 199 v)
                ∧ ((base.drop 1).find? unreadable = none →
                  ((base.drop 1).any laps = true → stops 32 0)
                  ∧ ((base.drop 1).any laps = false →
                    (flag = 0 → Acts (.rdc a) s s (handing w (base.map pa) 0))
                    ∧ (flag ≠ 0 → s.me.c.marks ≠ [] → unsent → Moves (.rdc a) s s)
                    ∧ (flag ≠ 0 → s.me.c.marks = [] ∨ ¬ unsent →
                      (lookup (marked s).me.tlb.strm va = none →
                        Moves (.rdc a) s (stalled (startWalk (marked s) s.key 1 va false 0) s.key s.cur.ch.buf))
                      ∧ (lookup (marked s).me.tlb.strm va = some (l, t) →
                        (placed u l va = false → Moves (.rdc a) s (trapAt 200 va u))
                        ∧ (placed u l va = true → l.w = false → Moves (.rdc a) s (trapAt 199 va u))
                        ∧ (placed u l va = true → l.w = true →
                          Acts (.rdc a) s u (handing w (base.map pa) (l.phys va + 1)))))))))))))
    ∧ ((s.task k).c.rdc = none → exec (.rdcBlockAccept core bank) s = .next s)
    ∧ (∀ seq buf x y f dst srcs, bank < 2 → (s.task k).c.rdc = some (seq :: buf :: x :: y :: f :: dst :: srcs) →
      let sk := dst / 2 ^ 30 / 48
      let b : RedBlk :=
        { core := core, bank := bank, seq := seq, buf := buf, dst := dst, srcs := srcs, flag := if f = 0 then none else some (f - 1)
          scope := x / 2 ^ 38 % 2 ^ 3, sequential := bitOf x 35, bf := bitOf x 34, nstrips := x % 2 ^ 30
          stride := y / 2 ^ 48 % 2 ^ 16, nbeats := y / 2 ^ 32 % 2 ^ 16, first := y % 2 ^ 32, accepted := (s.die (sk / 2)).beat }
      (4 ≤ (s.stack sk).red.length ∨ (s.task k).stop = true → exec (.rdcBlockAccept core bank) s = .next s)
      ∧ ((s.stack sk).red.length < 4 → (s.task k).stop = false → exec (.rdcBlockAccept core bank) s =
        .next ((s.modStack sk fun z => { z with red := z.red ++ [b] }).modTask k fun t => { t with c := { t.c with rdc := none } })))
    ∧ ((∀ b, ¬ due b) → exec (.reductionStrip stack) s = .next s)
    ∧ (∀ b, due b →
      let sends := (b.dst :: b.srcs).zipIdx.map fun y => (y.2, y.1)
      let sends := if b.late.1 = z.beat ∧ b.late.2 ≠ 0 then sends.filter fun y => b.bad.any fun c => c.1 == y.1 else sends
      let r := sendStrip s stack b sends
      let v := r.1
      (r.2.2 = true → exec (.reductionStrip stack) s =
        .next (raiseCause (put v b { b with stopped := true }) (tkey b.core b.bank) 303 0 0))
      ∧ (r.2.2 = false → r.2.1 ≠ [] → exec (.reductionStrip stack) s =
        .next (put v b { b with late := (z.beat, (if b.late.1 = z.beat then b.late.2 else 0) + 16 * r.2.1.length), bad := r.2.1 }))
      ∧ (r.2.2 = false → r.2.1 = [] → (∀ v' ∈ b.srcs, ∀ f ∈ v.cellFaults, f.strip ≠ v.stripOf (v' + 32 * b.done)) →
        let sum := sumStrips b.bf b.sequential (b.srcs.map fun v' => v.stripData (v.stripOf (v' + 32 * b.done)))
        let v := v.stripWrite (v.stripOf (b.dst + 32 * b.done)) 0 sum
        let used := match b.cur with | some c => if c.1 = z.beat then c.2 else 0 | none => 0
        let c := { b with done := b.done + 1, cur := some (z.beat, used + 1), late := (0, 0), bad := [],
                          stopped := (v.task (tkey b.core b.bank)).stop }
        exec (.reductionStrip stack) s = .next (countBuf
          ((put v b c).modStack stack fun y => { y with busy := (z.beat, end_ b) })
          (tkey b.core b.bank) b.buf 0 (32 * (b.srcs.length + 1))))
      ∧ (b.bad = [] → (∀ y ∈ sends, isLost s (chanOf (y.2 + 32 * b.done)) = false ∧ foldOf s (chanOf (y.2 + 32 * b.done)) = 0
          ∧ (s.chan (chanOf (y.2 + 32 * b.done))).busFaults = [] ∧ (s.chan (chanOf (y.2 + 32 * b.done))).fails = []) →
        r.2 = ([], false)))
    ∧ (endingBlock s stack = y.red.findSome? fun b =>
        if b.nstrips ≤ b.done then some (b, 1) else if b.live s = true ∧ last b < z.beat then some (b, 2) else none)
    ∧ (endingBlock s stack = none → exec (.reductionFinish stack) s = .next s)
    ∧ (∀ b status, endingBlock s stack = some (b, status) → n = min b.done 65535 →
      let v := leaves b
      let k := tkey b.core b.bank
      (b.flag = none → exec (.reductionFinish stack) s = .next (completeToken (pushEvent v k 11 status n b.seq) k .c b.seq))
      ∧ (∀ pa, b.flag = some pa → region pa = .fast ∨ region pa = .cap → exec (.reductionFinish stack) s =
        .next { v with pieceNext := s.pieceNext + 1
                       pieces := s.pieces ++ [{ id := s.pieceNext + 1, core := b.core, bank := b.bank, die := stack / 2
                                                own := .flag b.seq status n, pa := pa, len := 8, wr := true
                                                data := natToBytes 8 status }] }))

/-- R67, R84, R120, R145-R149: ctx reads its source strips, takes its place in the beat as R73 says and a token that stays open, and joins the
transfers of its die; a plan that is less than 8 ticks ahead raises code 322. While no freeze holds its die or is due there, the first
transfer whose planned start has come is sent, and its strips are then all on their way; one whose beat has closed raises code 322 (log
entry 19). Strip i lands 24 ticks for each hop, 2, and i/2 later on its sender's clock: after the drd strips that are due in that core,
and before a strip from a core of higher number; the last one completes the token, unless a collision has dropped strips. The model reads
the rules here as log entries 24, 80 and 82 (DEDUCED) say. -/
def Obligations.TimedTransfers : Prop :=
  ∀ (s : State) (d x lx gp nx dc da die i : Nat) (c : CtxCmd),
    let src := (cv s x).toNat
    let len := if lx = 0 then 32 else (cv s lx).toNat
    let gap := match s.cur.ch.gap with | none => gp | some g => 64 * g + gp
    let cursor := if nx = 1 then (s.myEng.cursor + 1) % 2 ^ 48 else s.myEng.cursor
    let off := if nx = 1 then gap else s.me.c.anchor.getD 0 + gap
    let own := s.cur.core / 96
    let plan : Point := ⟨beatAt (s.die own).beat ((cursor + s.me.csr.tbb) % 2 ^ 48), off⟩
    let sends (t : State) : State :=
      let v := ((openToken t).modMyEng fun y => { y with cursor := cursor }).modMe fun y => { y with c := { y.c with anchor := some off } }
      v.modDie own fun y =>
        { y with ctx := y.ctx ++ [{ core := s.cur.core, bank := s.cur.bank, seq := (t.myEng.count + 1) % 2 ^ 32, pos := engPos t.myEng
                                    plan := plan, src := src, dcore := dc, daddr := da, n := len / 32
                                    data := Sparse.window s.myCore.spad src len }] }
    let z := s.die die
    let counts := z.freeze = none ∧ z.pause = none
      ∧ ∀ f ∈ s.grid.freezes, die ∉ f.begun → z.beat < f.at_.beat ∨ (f.at_.beat = z.beat ∧ z.off2 < 2 * f.at_.off)
    let due (y : CtxCmd) : Prop :=
      y.sent2 = none ∧ (y.plan.beat < z.beat ∨ (y.plan.beat = z.beat ∧ 2 * y.plan.off ≤ z.off2))
    let u := ctxEmpty s die
    let arrives (y : CtxCmd) : Option Nat := match y.sent2 with
      | none => none
      | some t2 => y.strips.find? fun i =>
          decide (t2 + 2 * (24 * hops (y.core / 96) (y.dcore / 96) + 2 + i / 2) ≤ (u.die (y.core / 96)).tick2)
    let rest := c.strips.erase i
    let lands (ctx : List CtxCmd → List CtxCmd) : State :=
      (u.modCore c.dcore fun y => { y with spad := y.spad.putMem (c.daddr + 32 * i) 32 (Sparse.window c.data (32 * i) 32) }).modDie
        (c.core / 96) fun y => { y with ctx := ctx y.ctx }
    (CanSend s → 32 ≤ len → len ≤ 4096 → len % 32 = 0 → (cv s d).toNat % 32 = 0 → 0x80000000 ≤ (cv s d).toNat →
      Reaches s (cv s d).toNat len dc da → dc / 96 ≠ own → src % 32 = 0 → OwnSpad s src len →
      (s.delta (s.now own) plan < 8 → Moves (.ctx d x lx gp nx) s (trap 322 s))
      ∧ (8 ≤ s.delta (s.now own) plan → Acts (.ctx d x lx gp nx) s s sends))
    ∧ (¬ counts ∨ (∀ y ∈ z.ctx, ¬ due y) → exec (.ctxSend die) s = .next s)
    ∧ (∀ pre post, counts → z.ctx = pre ++ c :: post → (∀ y ∈ pre, ¬ due y) → due c → c.core / 96 = die →
      (c.plan.beat < z.beat → exec (.ctxSend die) s =
        .next (raiseCause (s.modDie die fun y => { y with ctx := z.ctx.erase c, ctxAgain := z.ctxAgain ++ [c] }) (tkey c.core c.bank) 322 0 0))
      ∧ (c.plan.beat = z.beat → exec (.ctxSend die) s = .next (s.modDie die fun y =>
        { y with ctx := z.ctx.map fun t => if t = c then { c with sent2 := some z.tick2, strips := List.range c.n } else t })))
    ∧ (u = s.modDie die fun y => { y with ctx := y.ctx.filter fun t =>
        !(t.sent2.isSome && t.cut != [] && t.strips == [] && t.cut.all fun c => decide (crossesAt s t c.2 c.1 ≤ 0)) })
    ∧ (ctxLandDue u die = none → exec (.ctxLanding die) s = .next u)
    ∧ (ctxLandDue u die = none ↔ ∀ y ∈ (u.die die).ctx, arrives y = none)
    ∧ (ctxLandDue u die = some (c, i) →
      arrives c = some i
      ∧ (∀ e < 8, ∀ y ∈ (u.die e).ctx, y.dcore = c.dcore → arrives y ≠ none → c.core ≤ y.core)
      ∧ (landDueOf u c.dcore ≠ none → exec (.ctxLanding die) s = .next (landStrip u c.dcore))
      ∧ (landDueOf u c.dcore = none →
        (rest = [] → c.cut = [] → exec (.ctxLanding die) s =
          .next (completeToken (lands fun l => l.erase c) (tkey c.core c.bank) .c c.seq))
        ∧ (rest ≠ [] ∨ c.cut ≠ [] → exec (.ctxLanding die) s =
          .next (lands fun l => l.map fun t => if t = c then { c with strips := rest } else t))))

/-- R57, R78, R89, R90, R94, R124-R127, R129, R131, R293, R325-R329, R334, R373: an address command of C sends its next piece where the stream
TLB or the pinned window table maps it, by a page of the placement that its variant asks for (code 200) that allows the access (code 199);
C stalls for a page that it must walk for, and while a piece of its own stands before a full far queue (log entry 23, DEDUCED, for the
count of its stalls). A piece goes to the tiers, leaves for the host window, or leaves for a peer; one that cannot be reached stops the
command with code 334. The page after is fetched ahead. A piece of a load lands in the scratchpad when its reply returns, one of the
capacity tier in portions of 32-byte units, after an earlier piece that writes its bytes; after the last one the command completes. A far
request joins the queue of its base die, which holds 64, with the placement that its frame then has. A far slot takes the oldest one;
where in the slot its send ends is free (R391); a send that passes is served, one that fails is sent again 16 ticks later, or put back
past the end of the slot (log entry 29). A walk that ends caches its leaf, 64 for S and the fetch, 16 for C, or raises the cause of its
failure, a machine check for a table that cannot be read. The model reads the rules here as log entry 48 (DEDUCED) and log entry 65
(DESIGN CHOICE) say. -/
def Obligations.AddressPieces : Prop :=
  ∀ (s : State) (core bank n id pc unit : Nat) (c : CCmd) (l : Leaf) (tlb : List Leaf) (p : Machine.Piece) (w : Walk), bank < 2 →
    let k := tkey core bank
    let send : Instr := .addressPieceSend core bank n
    let a := (nextPiece c).1
    let len := (nextPiece c).2
    let full := ∃ q ∈ s.pieces, tkey q.core q.bank = k ∧ (∃ m, q.own = .cCmd m) ∧ q.st = .sent ∧ region q.pa = .fast
      ∧ 64 ≤ (s.chan (chanOf q.pa)).farq.length
    let piece : Machine.Piece :=
      { id := s.pieceNext + 1, core := core, bank := bank, die := core / 96, own := .cCmd n, pa := l.phys a, len := len, wr := c.store
        spad := c.spad + c.next, buf := c.buf, data := if c.store then (s.core core).spad.rdList (c.spad + c.next) len else [] }
    let goes (u : State) : Prop :=
      let v : State := { u with pieceNext := s.pieceNext + 1, pieces := s.pieces ++ [piece] }
      let sent (v : State) : State := fetchAhead (modCmd v k n fun c =>
        { c with next := c.next + len, out := c.out + 1, sent2 := (s.die (core / 96)).tick2 }) k c l
      let fails (code : Nat) : Prop := exec send s = .next (failCommand u k n code a)
      let bad := placed u l a = false ∨ (c.elem = false ∧ l.cc ≠ c.pinned)
      let allowed := (if c.store then l.w else l.r) = true
      let frame := sendFrame v piece.pa len c.store piece.data
      (bad → fails 200) ∧ (¬ bad → ¬ allowed → fails 199)
      ∧ (¬ bad → allowed →
        (region piece.pa = .fast ∨ region piece.pa = .cap → exec send s = .next (sent v))
        ∧ (region piece.pa = .host → c.store = true → exec send s = .next (sent (hostRead (hostWrite v piece.pa piece.data) piece.pa 0)))
        ∧ (region piece.pa = .host → c.store = false → exec send s = .next (sent (hostRead v piece.pa len)))
        ∧ (region piece.pa = .peer → frame.2 = true → exec send s = .next (sent frame.1))
        ∧ (region piece.pa = .peer → frame.2 = false → exec send s =
          .next (modCmd (raiseCause { frame.1 with pieces := frame.1.pieces.filter fun x => x.id != s.pieceNext + 1 } k 334 0 0) k n
            fun c => { c with failed := true })))
    let ch := chanOf p.pa
    let off (u : Nat) : Nat := min p.len (32 * u - p.pa % 32)
    let units := (p.pa % 32 + p.len + 31) / 32
    let behind := p.wr = true ∧ ∃ q ∈ s.pieces, q.wr = true ∧ q.core = p.core ∧ q.bank = p.bank ∧ q.own = p.own ∧ q.st = .sent
      ∧ q.id < p.id ∧ q.pa < p.pa + p.len ∧ p.pa < q.pa + q.len
    let back (u : State) (p : Machine.Piece) : State :=
      let v : State := { u with pieces := u.pieces.filter fun x => x.id != id }
      let good := p.st ≠ .bad
      let v := if p.wr = false ∧ good then v.modCore core fun y => { y with spad := y.spad.wrList p.spad (p.data.take p.len) } else v
      settleCmd (modCmd (if good then countPiece v k p else v) k n fun c => { c with out := c.out - 1 }) k n
    let z := s.die (pc / 96)
    let slot (x : Nat × Nat) (f : Chan → Chan) (u : State) : State := u.modChan pc fun y => f { y with slotDone := some x }
    let walked := s.modTask k fun t => { t with tlb := { t.tlb with walks := t.tlb.walks.erase w } }
    let vf := match s.gangOf k with | some g => g.vf | none => 0
    let fails (u : State) (code : Nat) : State :=
      if unit = 1 then failCommand u k w.cmd code w.va
      else raiseCause (u.modEng k (walkEngine unit) fun x => { x with stopped := true }) k code w.va 0
    (findCmd s k n = none → exec send s = .next s)
    ∧ (findCmd s k n = some c →
      (c.failed = true ∨ c.len ≤ c.next ∨ (s.core core).halted = true → exec send s = .next s)
      ∧ (c.failed = false → c.next < c.len → (s.core core).halted = false →
        (full → exec send s = .next (stalled s k c.buf))
        ∧ (¬ full → c.pinned = false → lookup (s.task k).tlb.strm a = none → exec send s = .next (stalled (startWalk s k 1 a false n) k c.buf))
        ∧ (¬ full → c.pinned = false → lookup (s.task k).tlb.strm a = some (l, tlb) →
          goes (s.modTask k fun x => { x with tlb := { x.tlb with strm := tlb } }))
        ∧ (¬ full → c.pinned = true → ((s.task k).tlb.pins.find? fun l => l.maps a) = some l → goes s)))
    ∧ (findCmd s k n = some c →
      (c.len ≤ c.next ∧ c.out = 0 ∧ c.failed = false → settleCmd s k n =
        completeToken (s.modTask k fun t => { t with c := { t.c with cmds := t.c.cmds.filter fun x => x.id != n } }) k .c c.seq)
      ∧ (c.next < c.len ∨ c.out ≠ 0 ∨ c.failed = true → settleCmd s k n = s))
    ∧ (findPiece s id = none → exec (.addressPieceReply id) s = .next s ∧ exec (.farRequestArrival id) s = .next s)
    ∧ (findPiece s id = some p → p.own = .cCmd n → p.core = core → p.bank = bank →
      (p.st = .queued ∨ (p.st = .sent ∧ (region p.pa ≠ .cap ∨ behind)) → exec (.addressPieceReply id) s = .next s)
      ∧ (p.st = .served ∨ p.st = .bad → exec (.addressPieceReply id) s = .next (back s p))
      ∧ (p.st = .sent → region p.pa = .cap → ¬ behind → p.units < units →
        let f := Config.freeChoice s.free % (units - p.units)
        let m := if units - p.units ≤ 1 ∨ f = 0 then units else p.units + f
        let o := off p.units
        let r := off m - o
        let u : State := if units - p.units ≤ 1 then s else { s with free := s.free + 1 }
        let u := if p.units = 0 then countAccess u p else u
        let u : State := if p.wr then { u with mem := u.mem.wrList (p.pa + o) ((p.data.drop o).take r) } else u
        let q := { p with units := m, st := if m = units then .served else .sent,
                          data := if p.wr then p.data else p.data ++ u.mem.rdList (p.pa + o) r }
        let u : State := { u with pieces := u.pieces.map fun x => if x.id = p.id then q else x }
        exec (.addressPieceReply id) s = .next (if m = units then back u q else u))
      ∧ (p.st = .sent → region p.pa = .fast →
          (∀ q ∈ s.pieces, q.core = core → q.bank = bank → q.own = p.own → chanOf q.pa = ch → q.st = .sent → p.id ≤ q.id) →
        ((s.chan ch).farq.length < 64 → exec (.farRequestArrival id) s =
          .next (setPiece (s.modChan ch fun y => { y with farq := y.farq ++ [id] }) { p with st := .queued, cc := s.ccFrame p.pa }))
        ∧ (64 ≤ (s.chan ch).farq.length → exec (.farRequestArrival id) s = .next (stalled s k p.buf))))
    ∧ ((s.chan pc).serving = none →
      (slotNow s pc = none → exec (.farSlot pc) s = .next s)
      ∧ (∀ x, slotNow s pc = some x → (s.chan pc).farq = [] → exec (.farSlot pc) s = .next (slot x (fun y => y) s))
      ∧ (∀ x r, slotNow s pc = some x → (s.chan pc).farq = id :: r → findPiece s id = some p →
        let d := farTicks s pc p
        let at2 := z.tick2 + 2 * (Config.freeChoice s.free % (41 - d) + d)
        exec (.farSlot pc) s = .next (slot x (fun y => { y with farq := r, serving := some (id, at2) }) { s with free := s.free + 1 })))
    ∧ (∀ at2, (s.chan pc).serving = some (id, at2) → findPiece s id = some p →
      let d := farTicks s pc p
      let r := paritySend s pc d (decide (foldOf s pc ≠ 0))
      let next := at2 + 2 * (max 16 d - d) + 2 * farTicks r.1 pc p
      let again := r.1.modChan pc fun y =>
        { y with debt := y.debt + max 16 d, farBad := (y.farBad.1 + 1, (r.2.getLastD (0, 0)).2) }
      (z.tick2 < at2 → exec (.farSlot pc) s = .next s)
      ∧ (at2 ≤ z.tick2 →
        (isLost s pc = true → exec (.farSlot pc) s = .next (loseFar (logFar s pc p false) p))
        ∧ (isLost s pc = false → r.2 = [] →
          exec (.farSlot pc) s = .next (serveFast (logFar r.1 pc p (decide (foldOf s pc = 0))) p))
        ∧ (isLost s pc = false → r.2 ≠ [] → isLost again pc = true → exec (.farSlot pc) s = .next (loseFar (logFar again pc p false) p))
        ∧ (isLost s pc = false → r.2 ≠ [] → isLost again pc = false →
          (next ≤ slotEnd2 again pc → exec (.farSlot pc) s = .next (again.modChan pc fun y => { y with serving := some (id, next) }))
          ∧ (slotEnd2 again pc < next → exec (.farSlot pc) s =
            .next (again.modChan pc fun y => { y with serving := none, farq := id :: y.farq })))))
    ∧ ((s.task k).tlb.walks.find? (fun w => w.unit == unit) = none → exec (.pageWalk core bank unit) s = .next s)
    ∧ ((s.task k).tlb.walks.find? (fun w => w.unit == unit) = some w →
      (∀ u l, walk walked vf w.va = (u, .leaf l) → exec (.pageWalk core bank unit) s = .next (u.modTask k fun t =>
        if unit = 1 then { t with tlb := { t.tlb with strm := cacheLeaf 16 t.tlb.strm l } }
        else { t with tlb := { t.tlb with cond := cacheLeaf 64 t.tlb.cond l } }))
      ∧ (∀ u e, walk walked vf w.va = (u, e) → (∀ l, e ≠ .leaf l) → w.ahead = true → exec (.pageWalk core bank unit) s = .next u)
      ∧ (∀ u e, walk walked vf w.va = (u, e) → e = .absent ∨ e = .attr ∨ e = .perm → w.ahead = false →
        let codes := if unit = 0 then (174, 176, 175) else if unit = 1 then (198, 200, 199) else (150, 151, 151)
        exec (.pageWalk core bank unit) s =
          .next (fails u (if e = .absent then codes.1 else if e = .attr then codes.2.1 else codes.2.2)))
      ∧ (∀ u pa, walk walked vf w.va = (u, .bad pa) → w.ahead = false →
        (isLost u (chanOf pa) = true → exec (.pageWalk core bank unit) s = .next (fails u 303))
        ∧ (isLost u (chanOf pa) = false → exec (.pageWalk core bank unit) s =
          .next (machineCheck u core 2 (u.stripOf pa) (pa / 32 * 32) (syndrome u (u.stripOf pa))))))

/-! ### The matrix engine and the scatter engine -/

/-- R185, R229-R244, R390: the instructions of M wait while the nest of an mtile runs. mtile pops a format word, or takes the one with
which a record has it go on, and the reduction (R344); where the checks of R235 pass (log entry 18 for the retirements), its nest
starts, and a token stays open. A step multiplies 64 rows by 128 columns and accumulates by profile (log entry 25, DEDUCED: the sign of
an exact sum of zero), with the rows of A that stand in the step buffer; it reads the rows of the step after it in the same act (log
entry 26, DEDUCED: R238 has M read them during the step). It waits at a retirement point where a stop or a pre-emption asks for that:
after a reduction end, or where a resume put it. A resumed mtile first repeats its checks on the bank as the record restored it; a
failing one puts the word back, and M stands before the mtile. At a reduction end M takes its copy, the drain buffer free; the copy
drains in a free number of units at a time (log entry 53), and with its last unit the token and the marks complete. mzacc clears a
bank, mret retires the copy that did not, mmark completes with every earlier instruction of M. -/
def Obligations.MatrixWork : Prop :=
  ∀ (s : State) (b core k f red : Nat) (q : List Word) (c : MCopy) (r : MRun),
    let m := s.me.m
    let easel (z : Core) (b : Nat) : List Nat := (List.range 16).map fun i => (Sparse.rd 0 z.easel (16 * b + i)).toNat
    let cause (u : State) (e : List Nat) (f : Nat) : Option Nat :=
      if fmtBad f then some 97 else if 4 ≤ fmtProf f then some 114 else if easelBad e f then some 97
      else if u.me.csr.mdepth < nestPer e then some 115 else if easelMisaligned e f then some 101
      else if nestOutside u e f then some 104 else none
    let e := easel s.myCore b
    let y := s.core core
    let prof := fmtProf r.f
    let wa := fmtWa r.f
    let wb := fmtWb r.f
    let first := r.step % r.per = 0
    let last := (r.step + 1) % r.per = 0
    let klen := if last then nestKl r.nest else 32
    let at_ (i a : Nat) (g : NestLevel → Int) : Nat := (a + nestAt g r.nest i).toNat
    let scale : Int := nestP r.nest + nestAt NestLevel.sp r.nest r.step
    let rows (i : Nat) : List Nat := (List.range 64).map fun j =>
      y.spad.rdN (at_ i (nestA r.nest) NestLevel.sa + j * nestApitch r.nest) (rowBytes wa)
    let row (x : Nat × Nat) : List FVal := (List.range klen).map
      (tileElem wa x.1 (if wa = 0 then 0 else (y.palette.get (scale + 128 + x.2).toNat).toNat))
    let col (n : Nat) : List FVal := (List.range klen).map
      (tileElem wb (y.canvas.rdN (4096 * n + at_ r.step (nestB r.nest) NestLevel.sb) (rowBytes wb))
        (if wb = 0 then 0 else (y.palette.get (scale + n).toNat).toNat))
    let bank := 32768 * fmtAb r.f
    let acc := ((r.buf.getD (rows r.step)).zipIdx).flatMap fun x => (List.range 128).map fun n =>
      accumulate prof (if first ∧ fmtZ r.f then 0 else y.acc.rdN (bank + 512 * x.2 + 4 * n) 4) (List.zipWith exactMul (row x) (col n))
    let stops := (s.task k).stop = true ∨ (s.task k).m.preempt = true
    let e' := easel y r.easel
    let u := { s with cur := { s.cur with core := core, bank := k % 2, eng := .m } }
    let back := (modM s k fun m => { m with run := none }).modCore core fun z => { z with fq := BitVec.ofNat 64 r.f :: z.fq }
    let from_ := r.step / r.per * nestPer e'
    let copy := takeCopy y r
    let left := copyUnits c - c.done
    let n := if left = 0 then 0 else 1 + Config.freeChoice s.free % left
    let drained := ({ s with free := s.free + 1 } : State).modCore core fun y => { y with spad := writeUnits y.spad c c.done n }
    let now := tkey core (s.issuing core)
    (CanSend s → s.cur.eng = .m →
      (m.run.isSome = true → Moves (.mtile b) s s ∧ Moves (.mzacc b) s s ∧ Moves .mret s s ∧ Moves .mmark s s)
      ∧ (m.run = none →
        (m.preempt = true → Moves (.mtile b) s s)
        ∧ (m.preempt = false → m.again = none → s.myCore.fq = [] → Moves (.mtile b) s (trap 113 s))
        ∧ (m.preempt = false →
          (m.again = none ∧ s.myCore.fq = BitVec.ofNat 64 f :: q ∧ f < 2 ^ 64 ∧ red = 0) ∨ (m.again = some (f, red) ∧ s.myCore.fq = q) →
          (∀ code, cause s e f = some code → Moves (.mtile b) s (trap code s))
          ∧ (cause s e f = none → Acts (.mtile b) s s fun t =>
            let run : MRun := { easel := b, f := f, nest := e, step := red * nestPer e, per := nestPer e, total := nestTotal e
                                seq := (t.myEng.count + 1) % 2 ^ 32, at_ := t.myEng }
            let z := (openToken (t.modMyCore fun y => { y with fq := q })).modMe fun x =>
              { x with m := { x.m with kept := none, again := none, run := if nestTotal e ≤ red * nestPer e then none else some run } }
            if nestTotal e ≤ red * nestPer e then completeToken z t.key .m ((t.myEng.count + 1) % 2 ^ 32) else z))
        ∧ Acts (.mzacc b) s s (fun t => doneToken ((t.modMyCore fun y => { y with acc := y.acc.putMem (32768 * b) 32768 [] }).modMe fun x =>
          { x with m := { x.m with kept := none } }))
        ∧ (m.kept = none → Acts .mret s s fun t => doneToken t)
        ∧ (m.kept = some c → Acts .mret s s fun t => (openToken t).modMe fun x =>
          { x with m := { x.m with kept := none, drain := some { c with seq := (t.myEng.count + 1) % 2 ^ 32, final := true } } })
        ∧ (s.myEng.opn = [] → Acts .mmark s s fun t =>
          completeToken ((openToken t).modMe fun x => { x with m := { x.m with kept := none } }) t.key .m ((t.myEng.count + 1) % 2 ^ 32))
        ∧ (s.myEng.opn ≠ [] → Acts .mmark s s fun t => (openToken t).modMe fun x =>
          { x with m := { x.m with kept := none, marks := x.m.marks ++ [(t.myEng.count + 1) % 2 ^ 32] } })))
    ∧ (liveTask s core = none → exec (.mtileStep core) s = .next s ∧ exec (.mtileReductionEnd core) s = .next s)
    ∧ (liveTask s core = some k → (s.task k).m.run = none →
      exec (.mtileStep core) s = .next s ∧ exec (.mtileReductionEnd core) s = .next s)
    ∧ (liveTask s core = some k → (s.task k).m.run = some r → k / 2 = core →
      (r.atEnd = true ∨ (s.die (core / 96)).power.window.isSome → exec (.mtileStep core) s = .next s)
      ∧ (r.atEnd = false → (s.die (core / 96)).power.window = none →
        (first → r.step ≠ 0 ∨ r.recheck = true → stops →
          exec (.mtileStep core) s = .next (modM s k fun m => { m with waiting := true }))
        ∧ (¬ first ∨ (r.step = 0 ∧ r.recheck = false) ∨ ¬ stops →
          (r.recheck = false → exec (.mtileStep core) s =
            .next (modM (s.modCore core fun y => { y with acc := y.acc.putMem bank 32768 (Mem.ofBytes 0 (acc.flatMap (natToBytes 4))) }) k
              fun m => { m with run := some { r with step := r.step + 1, atEnd := decide last
                                                     buf := if r.step + 1 < r.total then some (rows (r.step + 1)) else none } }))
          ∧ (r.recheck = true →
            (∀ code, cause u e' r.f = some code → exec (.mtileStep core) s = .next (raiseCause
              (back.modEng k .m fun x => { r.at_ with opn := x.opn, stopped := true, wait := .none, latched := none }) k code 0 0))
            ∧ (cause u e' r.f = none → exec (.mtileStep core) s = .next
              (if nestTotal e' ≤ from_ then completeToken (modM s k fun m => { m with run := none }) k .m r.seq
              else modM s k fun m => { m with run := some { r with
                nest := e', per := nestPer e', total := nestTotal e', step := from_, buf := none, recheck := false } })))))
      ∧ (r.atEnd = false ∨ (s.task k).m.drain ≠ none → exec (.mtileReductionEnd core) s = .next s)
      ∧ (r.atEnd = true → (s.task k).m.drain = none →
        (copy.final = false → exec (.mtileReductionEnd core) s = .next (modM s k fun m =>
          { m with drain := if fmtRt r.f then some copy else none, kept := none, run := some { r with atEnd := false }
                   waiting := (s.task k).stop || m.preempt }))
        ∧ (copy.final = true → fmtRt r.f = true → exec (.mtileReductionEnd core) s = .next (modM s k fun m =>
          { m with drain := some copy, kept := none, run := none, waiting := false }))
        ∧ (copy.final = true → fmtRt r.f = false → exec (.mtileReductionEnd core) s = .next (completeToken (modM s k fun m =>
          { m with drain := none, kept := some copy, run := none, waiting := false }) k .m r.seq))))
    ∧ ((s.task now).m.drain = none → exec (.mtileRetirementDone core) s = .next s)
    ∧ ((s.task now).m.drain = some c →
      (c.done + n < copyUnits c →
        exec (.mtileRetirementDone core) s = .next (modM drained now fun m => { m with drain := some { c with done := c.done + n } }))
      ∧ (copyUnits c ≤ c.done + n → exec (.mtileRetirementDone core) s =
        .next ((s.task now).m.marks.foldl (fun t q => completeToken t now .m q)
          (modM (if c.final then completeToken drained now .m c.seq else drained) now fun m => { m with drain := none, marks := [] }))))

/-- R248-R257, R344, R390: an update of A checks its table, its index list and its values in the order in which they stand; where all
pass it begins, at the window that a record gives it or at its first: it takes a token that stays open and stays at the issue stage.
sa.rd does the same for its output and its sums (log entry 13, DESIGN CHOICE: the range of the output where the count is itself out of
range is that of one element), sa.scl writes a scale register. A window of at most 64 elements is read and merged, and sends one
read-modify-write for each 32-byte unit; one with a target outside the table's share takes no effect and raises code 128. An sa.rd
writes some of its output units at a time (R293), and once a stop has reached the task it goes no further than a multiple of 64
elements. Read-modify-writes of one window, and those to one unit, perform in order, the others in any order; the last one of an
instruction completes its token. -/
def Obligations.ScatterWork : Prop :=
  ∀ (s : State) (d a b sx ty core bank : Nat) (x : AIns), bank < 2 →
    let k := tkey core bank
    let base := (av s d).toNat
    let w := (av s a).toNat
    let n := w / 2 ^ 32 % 2 ^ 17
    let idx := w % 2 ^ 32
    let v := (av s b).toNat
    let rnd := s.cur.ch.rnd
    let badList := w / 2 ^ 49 ≠ 0 ∨ n = 0 ∨ 65536 < n
    let begins (x : AIns) (t : State) : State := (openToken t).modMe fun y =>
      let win := y.a.from_.getD 0
      { y with a := { y.a with from_ := none, ins := some { x with
        seq := (t.myEng.count + 1) % 2 ^ 32, pc := t.cur.pc, win := win, val := if x.op = 9 then 64 * win else x.val } } }
    let updates (i : Instr) (op e : Nat) (v : Nat) (scale : Int) : Prop :=
      let ins : AIns := { op := op, ty := ty, base := base, idx := idx, n := n, val := v, scale := scale, rnd := rnd, sat := s.cur.ch.sat }
      let es := aSize ty
      (s.me.a.ins.isSome = true → Moves i s s)
      ∧ (s.me.a.ins = none →
        (base % e ≠ 0 → Moves i s (trap 125 s))
        ∧ (base % e = 0 → reach s base e = none → Moves i s (trap 128 s))
        ∧ (base % e = 0 → reach s base e ≠ none → badList → Moves i s (trap 121 s))
        ∧ (base % e = 0 → reach s base e ≠ none → ¬ badList → w % 4 ≠ 0 → Moves i s (trap 125 s))
        ∧ (base % e = 0 → reach s base e ≠ none → ¬ badList → w % 4 = 0 → ¬ OwnSpad s idx (4 * n) → Moves i s (trap 128 s))
        ∧ (base % e = 0 → reach s base e ≠ none → ¬ badList → w % 4 = 0 → OwnSpad s idx (4 * n) →
          (op ≠ 7 → 2 ^ 32 ≤ v → Moves i s (trap 121 s))
          ∧ (op ≠ 7 → v < 2 ^ 32 → v % es ≠ 0 → Moves i s (trap 125 s))
          ∧ (op ≠ 7 → v < 2 ^ 32 → v % es = 0 → ¬ OwnSpad s v (es * n) → Moves i s (trap 128 s))
          ∧ (op = 7 ∨ (v < 2 ^ 32 ∧ v % es = 0 ∧ OwnSpad s v (es * n)) → Acts i s s (begins ins))))
    let es := aSize ty
    let scale : Int := sext (Sparse.rd 0 s.me.sf sx) 8
    let sums := { op := 9, ty := ty, base := base, idx := idx, n := n, scale := scale, rnd := rnd : AIns }
    let u := { s with cur := { s.cur with core := core, bank := bank, eng := .a } }
    let js := (List.range (min 64 (x.n - 64 * x.win))).map fun j => 64 * x.win + j
    let y := s.core core
    let ok := (s.task k).stop = false ∧ (s.eng k .a).stopped = false ∧ (s.die (core / 96)).power.window = none
    let ins (t : State) (i : Option AIns) : State := t.modTask k fun z => { z with a := { z.a with ins := i } }
    let ex := aSize x.ty
    let left := (x.base + ex * x.n + 31) / 32 - (x.base + ex * x.val) / 32
    let f := Config.freeChoice s.free % left
    let units := if left ≤ 1 then left else if f = 0 then left else f
    let s' := if left ≤ 1 then s else { s with free := s.free + 1 }
    let at_ := min x.n ((((x.base + ex * x.val) / 32 + units) * 32 - x.base) / ex)
    let m := if (s.task k).stop then min at_ (64 * (x.val / 64 + 1)) else at_
    let out := (List.range (m - x.val)).flatMap fun j => natToBytes ex
      (roundDy (aFmt x.ty) (modeOf x.rnd) false ⟨sext (y.spad.rdN (x.idx + 8 * (x.val + j)) 8) 64, x.scale⟩).1
    let written := s'.modCore core fun y => { y with spad := y.spad.wrList (x.base + ex * x.val) out }
    let free (l : List Rmw) (r : Rmw) : Prop := ∀ z ∈ l, z.ins ≠ r.ins ∧ ¬ (z.core = r.core ∧ z.unit = r.unit)
    let after (r : Rmw) : State :=
      let l := (s.task k).a.rmws.erase r
      let z := r.ups.foldl (fun z u => applyUpdate core r.core r.ins u z) ({ s with free := s.free + 1 }, 0)
      let t := z.1.modTask k fun t => { t with csr := { t.csr with asts := t.csr.asts ||| z.2 }, a := { t.a with rmws := l } }
      if (l.any fun y => y.ins.seq == r.ins.seq) || (match (z.1.task k).a.ins with | some i => i.seq == r.ins.seq | none => false) then t
      else completeToken t k .a r.ins.seq
    (CanSend s →
      updates (.saAdd d a b ty) 0 es v 0 ∧ updates (.saAddq d a b sx ty) 1 8 v scale
      ∧ updates (.saMin d a b ty) 2 es v 0 ∧ updates (.saMax d a b ty) 3 es v 0
      ∧ updates (.saOr d a b ty) 4 es v 0 ∧ updates (.saAnd d a b ty) 5 es v 0
      ∧ updates (.saXch d a b ty) 6 es v 0 ∧ updates (.saCnt d a ty) 7 es (av s 0).toNat 0
      ∧ (s.me.a.ins.isSome = true → Moves (.saScl a sx) s s ∧ Moves (.saRd d a sx ty) s s)
      ∧ (s.me.a.ins = none →
        (av s a ≠ BitVec.ofInt 64 (sext w 8) → Moves (.saScl a sx) s (trap 121 s))
        ∧ (av s a = BitVec.ofInt 64 (sext w 8) → Acts (.saScl a sx) s s fun t =>
          doneToken (t.modMe fun y => { y with sf := Sparse.wr 0 y.sf sx (w % 2 ^ 8) }))
        ∧ (base % es ≠ 0 → Moves (.saRd d a sx ty) s (trap 125 s))
        ∧ (base % es = 0 → ¬ OwnSpad s base (es * if n = 0 ∨ 65536 < n then 1 else n) → Moves (.saRd d a sx ty) s (trap 128 s))
        ∧ (base % es = 0 → OwnSpad s base (es * if n = 0 ∨ 65536 < n then 1 else n) →
          (badList → Moves (.saRd d a sx ty) s (trap 121 s))
          ∧ (¬ badList → w % 8 ≠ 0 → Moves (.saRd d a sx ty) s (trap 125 s))
          ∧ (¬ badList → w % 8 = 0 → ¬ OwnSpad s idx (8 * n) → Moves (.saRd d a sx ty) s (trap 128 s))
          ∧ (¬ badList → w % 8 = 0 → OwnSpad s idx (8 * n) → Acts (.saRd d a sx ty) s s (begins sums)))))
    ∧ ((s.task k).a.ins = none → exec (.saWindow core bank) s = .next s ∧ exec (.saRdComplete core bank) s = .next s)
    ∧ (liveTask s core = some k → (s.task k).a.ins = some x → x.op ≠ 9 → ¬ ok → exec (.saWindow core bank) s = .next s)
    ∧ (liveTask s core = some k → (s.task k).a.ins = some x → x.op ≠ 9 → ok → exec (.saRdComplete core bank) s = .next s
      ∧ (windowTargets u x y js = none →
        exec (.saWindow core bank) s = .next (raiseCause (s.modEng k .a fun e => { e with stopped := true }) k 128 0 0))
      ∧ (∀ l, windowTargets u x y js = some l →
        let new := rmwsOf x ((l.headD (0, 0, 0)).2.1) (mergeWindow x (l.map fun p => aElem y x p.1 p.2.2))
        let sent (i : Option AIns) : State := s.modTask k fun t => { t with a := { t.a with rmws := t.a.rmws ++ new, ins := i } }
        (64 * (x.win + 1) < x.n → exec (.saWindow core bank) s = .next (sent (some { x with win := x.win + 1 })))
        ∧ (x.n ≤ 64 * (x.win + 1) → (∃ y ∈ (s.task k).a.rmws ++ new, y.ins.seq = x.seq) →
          exec (.saWindow core bank) s = .next (advance (focus (sent none) k .a)))
        ∧ (x.n ≤ 64 * (x.win + 1) → (∀ y ∈ (s.task k).a.rmws ++ new, y.ins.seq ≠ x.seq) →
          exec (.saWindow core bank) s = .next (advance (focus (completeToken (sent none) k .a x.seq) k .a)))))
    ∧ (liveTask s core = some k → (s.task k).a.ins = some x → x.op = 9 → exec (.saWindow core bank) s = .next s
      ∧ ((s.task k).stop = true → x.val % 64 = 0 → exec (.saRdComplete core bank) s = .next s)
      ∧ ((s.task k).stop = false ∨ x.val % 64 ≠ 0 →
        (m < x.n → exec (.saRdComplete core bank) s = .next (ins written (some { x with val := m, win := m / 64 })))
        ∧ (x.n ≤ m → exec (.saRdComplete core bank) s =
          .next (advance (focus (completeToken (ins written none) k .a x.seq) k .a)))))
    ∧ ((s.task k).a.rmws = [] → exec (.saRmwPerform core bank) s = .next s)
    ∧ ((s.task k).a.rmws ≠ [] →
      (∀ r, (∃ n, readyRmw (s.task k).a.rmws n = some r) ↔ ∃ l l', (s.task k).a.rmws = l ++ r :: l' ∧ free l r)
      ∧ ∃ r, readyRmw (s.task k).a.rmws (Config.freeChoice s.free) = some r ∧ exec (.saRmwPerform core bank) s = .next (after r))

/-! ### Events of the pseudo-channels and of the grid -/

/-- R52, R60, R72-R77, R84, R89-R94, R96, R103-R114, R382-R384: the earliest command of a sequencer starts at its planned start, delayed by
the debt of the beat, where no rule forbids it, else the first failing rule gives its cause (log entry 72, DESIGN CHOICE: the order of
several); a die that does not count offsets, or where a freeze begins first, starts none. Each kind has its effect as it starts: an open
fills a row line from the array, a release writes it back, a refresh counts its group, a transfer holds its strips, an infusion computes.
A command completes its token at its completion point; a send without a parity error lets the strips of a drd land at their fixed times,
and writes those of a dwr in the row that its line held at its start. A failed send lets the strips of its good ticks land, delays the
next send and adds to the debt; a further send that would overrun the beat ends the transfer with code 252, and a lost pseudo-channel with
code 303. A strip that lands stands in the scratchpad. The model reads the rules here as log entries 20, 21 and 31 (DEDUCED) say. -/
def Obligations.SequencerWork : Prop :=
  ∀ (s : State) (pc : Nat) (c : Cmd) (r : RunCmd) (p : Nat × Nat),
    let ch := s.chan pc
    let x := s.die (pc / 96)
    let start := exec (.seqCommandStart pc) s
    let u := s.modChan pc fun y => { y with cmds := y.cmds.erase c }
    let b := c.plan.beat
    let o := c.plan.off
    let fold := foldOf s pc
    let folded := decide (1 ≤ fold)
    let t : Point := ⟨b, o + ch.debt⟩
    let cause := if kindBad u pc b c.kind then some 251 else if isTransfer c.kind && isLost u pc then some 303
      else if orderBad u pc c.kind t || overLimit u pc b o (decide (2 ≤ fold)) c.kind then some 250
      else if overLimit u pc b (o + ch.debt) folded c.kind then some 252
      else if match c.kind with | .ia op _ d a b _ _ => !(iaNames op d a b).all (striped u pc) | _ => false then some 248
      else if writeBad u pc c.kind then some 199 else none
    let use : Point := ⟨b, t.off + useTicks folded c.kind⟩
    let used := (usesOf c.kind).foldl (fun v l => noteUse v pc l use) u
    let run : RunCmd :=
      { cmd := c, start := t, from2 := x.tick2, folded := folded, done2 := some (x.tick2 + 2 * planTicks folded c.kind) }
    let moving (n : Nat) (m : Mem) (good : List Nat) (row : Nat) : RunCmd :=
      { run with done2 := none, strips := m, good := good, row := row, end2 := x.tick2 + 2 * busTicks folded n }
    let begun (run : RunCmd) (n : Nat) (v : State) : Result := .next (v.modChan pc fun y =>
      { y with runs := y.runs ++ [run], hist := noteStart y.hist c.kind t use ⟨b, t.off + planTicks folded c.kind⟩
               debt := if fold = 1 then y.debt + (n - (n + 1) / 2) else y.debt })
    let full (row line : Nat) (w whole : Bool) : SlotSt :=
      { row := row, data := Sparse.window s.mem (32 * stripAt pc row (line / 8) 0) 1024, w := w, opened := t, whole := whole }
    let out := s.modChan pc fun y => { y with runs := y.runs.erase r }
    let done := completeToken out (tkey pc r.cmd.bank) .c r.cmd.seq
    let sends := exec (.transferSend pc) s
    let sent := s.modChan pc fun y => { y with busFaults := [], fails := [] }
    let begins (n : Nat) := r.end2 - 2 * busTicks r.folded n
    let n := (stripsOf r.cmd.kind).1
    let load := (stripsOf r.cmd.kind).2
    let d := busTicks r.folded n
    let ps := paritySend s pc d r.folded
    let landing := if load then ((r.good.filter fun i => !(ps.2.map Prod.fst).contains (if r.folded then i else i / 2)).map fun i =>
      (begins n + landHalf r.folded i, i)) else []
    let failed : RunCmd := { r with lands := r.lands ++ landing, fails := r.fails + 1, grp := (ps.2.getLastD (0, 0)).2 }
    let more := if fold = 0 ∧ foldOf ps.1 pc = 1 ∧ r.folded = false then n - (n + 1) / 2 else 0
    let late := ps.1.modChan pc fun y => { y with debt := y.debt + (max 16 d + more) }
    let next := begins n + 2 * max 16 d
    let again : RunCmd := { failed with end2 := 0, send2 := some next, folded := decide (1 ≤ foldOf ps.1 pc) }
    let rest : RunCmd := { r with lands := r.lands.erase p }
    let ended := rest.lands = [] ∧ r.end2 = 0 ∧ r.send2 = none ∧ r.done2 = none
    (x.freeze ≠ none ∨ x.pause ≠ none ∨ freezeDue s (pc / 96) ≠ none → startDue s pc = none)
    ∧ (x.freeze = none → x.pause = none → freezeDue s (pc / 96) = none → ch.cmds = [c] →
      (b = x.beat ∧ 2 * (o + ch.debt) ≤ x.off2 → startDue s pc = some c) ∧ (b ≠ x.beat ∨ x.off2 < 2 * (o + ch.debt) → startDue s pc = none))
    ∧ (startDue s pc = none → start = .next s)
    ∧ (startDue s pc = some c →
      (∀ code, cause = some code → start = .next (seqRaise u pc c.bank code [c]))
      ∧ (cause = none →
        (∀ line row w, c.kind = .opn line row w → start = begun run 0 (u.modChan pc fun y =>
          { y with slots := Sparse.wr none y.slots line (some (full row line w false)) }))
        ∧ (∀ slot row w, c.kind = .opnw slot row w →
          start = begun run 0 ((wholeSlot slot).foldl (fun v line => openRow v pc line row w true t) u))
        ∧ (∀ line l, c.kind = .hold line → slotAt s pc line = some l → start = begun run 0 (u.modChan pc fun y =>
          { y with slots := Sparse.wr none y.slots line (some { l with held := true }) }))
        ∧ (∀ line, c.kind = .rel line → start = begun run 0 (releaseRow u pc line t))
        ∧ (∀ slot, c.kind = .relw slot → start = begun run 0 ((wholeSlot slot).foldl (fun v line => releaseRow v pc line t) u))
        ∧ (∀ line a j n buf, c.kind = .drd line a j n buf →
          let q := readRow used pc line j n
          start = begun (moving n q.2.1 q.2.2 0) n q.1)
        ∧ (∀ line j n buf data, c.kind = .dwr line j n buf data →
          start = begun (moving n data [] ((slotAt used pc line).map SlotSt.row |>.getD 0)) n used)
        ∧ (∀ g, c.kind = .dref g → start = begun run 0 (u.modChan pc fun y =>
          { y with refresh := Sparse.wr none y.refresh g
                     (some { deadline := x.tick2 / 2 + retention (s.stack (pc / 48)).hot, last := x.tick2 / 2 }) }))
        ∧ (∀ op bf d a e j n, c.kind = .ia op bf d a e j n → start = begun run 0 (infuseAll op bf d a e pc j n used))))
    ∧ (doneDue s pc = none → exec (.seqCommandComplete pc) s = .next s)
    ∧ (doneDue s pc = some r →
      (isTransfer r.cmd.kind = false → exec (.seqCommandComplete pc) s = .next done)
      ∧ (∀ line a j n buf, r.cmd.kind = .drd line a j n buf →
        exec (.seqCommandComplete pc) s = .next (countBuf done (tkey pc r.cmd.bank) buf 0 (32 * n)))
      ∧ (∀ line j n buf data, r.cmd.kind = .dwr line j n buf data →
        exec (.seqCommandComplete pc) s = .next (countBuf done (tkey pc r.cmd.bank) buf 0 (32 * n))))
    ∧ (sendDue s pc = none → sends = .next s)
    ∧ (sendDue s pc = some r → r.send2 = none → r.fails = 0 → ch.busFaults = [] → ch.fails = [] →
      (∀ line a j n buf, r.cmd.kind = .drd line a j n buf → sends = .next (setRun sent pc r
        { r with lands := r.lands ++ r.good.map fun i => (begins n + landHalf r.folded i, i)
                 end2 := 0, done2 := some (begins n + landHalf r.folded (n - 1)) }))
      ∧ (∀ line j n buf data, r.cmd.kind = .dwr line j n buf data → sends =
        .next (setRun (putStrips sent pc (line / 8) r.row j data n) pc r { r with end2 := 0, done2 := some r.end2 })))
    ∧ (sendDue s pc = some r → r.send2 = none → ps.2 ≠ [] →
      (isLost ps.1 pc = true → sends =
        .next (seqRaise (endTransfer (logTransfer ps.1 pc failed false) pc failed) pc r.cmd.bank 303 []))
      ∧ (isLost ps.1 pc = false → sendOver late pc next again = false → sends = .next (setRun late pc r again))
      ∧ (isLost ps.1 pc = false → sendOver late pc next again = true →
        sends = .next (setRun (logTransfer late pc again false) pc r { again with fails := 0 })))
    ∧ (∀ at2, sendDue s pc = some r → r.send2 = some at2 →
      (sendOver s pc at2 r = true →
        sends = .next (seqRaise (endTransfer (logTransfer s pc r false) pc r) pc r.cmd.bank 252 []))
      ∧ (sendOver s pc at2 r = false → sends = .next (setRun s pc r { r with send2 := none, end2 := at2 + 2 * d })))
    ∧ (landDueOf s pc = none → exec (.drdStripLanding pc) s = .next s)
    ∧ (∀ line a j n buf, landDueOf s pc = some (r, p) → r.cmd.kind = .drd line a j n buf →
      let landed := s.modCore pc fun y => { y with spad := y.spad.putMem (a + 32 * p.2) 32 (Sparse.window r.strips (32 * p.2) 32) }
      (¬ ended → exec (.drdStripLanding pc) s = .next (setRun landed pc r rest))
      ∧ (ended → exec (.drdStripLanding pc) s = .next (landed.modChan pc fun y =>
        { y with runs := y.runs.filter fun z => !(z.cmd.seq == r.cmd.seq && z.cmd.bank == r.cmd.bank) })))

/-- R67, R75-R88, R120, R141-R143, R317, R348, R388: a beat closes when the offset of its die reaches its length and what is due to land in
its cores has landed; the die then opens the next beat, at an aligned boundary after its pause, with its estimates of the other dies
turned by the pauses (log entry 54, DESIGN CHOICE: the skew that is left is open within the bound of R142). Beacons leave every 1,024
ticks, and one that arrives corrects the estimates (log entry 28, DEDUCED: it carries the clocks of its sender's latest openings); an
estimate of 8 ticks or more raises code 349 for the gangs that span the two dies and forces an alignment. A die that no neighbour has
heard for 8,192 ticks is fenced off, and a master that follows goes on from the mirror of the scoreboard. At 320 ticks before a deadline
the base die of an attached gang looks for a planned dref, which the debt of the open beat alone delays, joins a freeze that is announced,
announces one, or raises code 348 where BLIM forbids it (log entry 73: a check that becomes possible later is made at once). A freeze
begins at its point, its forced refreshes run in its last 96 ticks, and it ends after its length; one that every die has been through is
forgotten. A pseudo-channel without a gang is refreshed at its deadline (log entry 16: a group's first one). Rows are reopened at their
offsets where nothing holds the die. A stack turns hot above 85 and cool below 83, 800,000 ticks after its last turn. The model reads the
rules here as log entries 31, 42, 43 and 63 (DEDUCED) say. -/
def Obligations.GridWork : Prop :=
  ∀ (s : State) (d e pc g sk temp : Nat) (bn : Beacon) (f : Freeze) (y : Point × Bool × List SavedRow) (at2 : Nat),
    let x := s.die d
    let counts := x.freeze = none ∧ x.pause = none
    let done := counts ∧ 2 * s.lenOf x.beat ≤ x.off2 ∧ landsOn s d = false
    let closed :=
      let v := (chansOf d).foldl (fun v p => closeChan v p x.beat) s
      (v.modStack (2 * d) fun z => { z with owners := [] }).modStack (2 * d + 1) fun z => { z with owners := [] }
    let lag (h : Nat) : Int := Sparse.rd 0 (closed.die d).est h
    let most := (List.range 8).foldl (fun m h => max m (lag h).toNat) 0
    let n := min 8 (most / 2)
    let turned := closed.modDie d fun z => { z with opens := [], est := (List.range 8).foldl (fun m h =>
      if h = d then m else Sparse.wr 0 m h (lag h + 2 * ((min 8 (((most : Int) - lag h).toNat / 2) : Nat) - (n : Int)))) [] }
    let opens (t : State) : State :=
      let u := ({ t with free := t.free + 1 } : State).modDie d fun z =>
        { z with aligned2 := z.tick2, drift := z.drift + ((Config.freeChoice t.free + 1) % 3 : Nat) - 1 }
      openBeat u d ((t.die d).beat + 1)
    let quiet := x.fenced = false ∧ ∃ e < 8, hops d e = 1 ∧ (s.die e).fenced = false ∧ Sparse.rd 0 (s.die e).heard d + 16384 ≤ (s.die e).tick2
    let board := if d = masterDie s then s.dist.mirror else s.dist.scoreboard
    let gone := s.modDie d fun z => { z with fenced := true }
    let took := (s.modDie e fun z => { z with beacons := z.beacons.erase bn }).modDie d fun z =>
      { z with heard := Sparse.wr 0 z.heard e z.tick2 }
    let est (near : Int) := (List.range 8).foldl (fun m h =>
      if h = d then m else if h = e then Sparse.wr 0 m h near
      else if hops d h = 1 + hops e h then Sparse.wr 0 m h (near + Sparse.rd 0 bn.est h) else m) (took.die d).est
    let on (z : Gang) (h : Nat) : Bool := z.live.any fun k => k / 2 / 96 == h
    let limit (v : State) (h : Nat) : State :=
      let w := (v.dist.gangs.filter fun z => z.st == .attached && on z d && on z h).foldl (fun w z => raiseCause w (z.live.headD 0) 349 0 0) v
      { w with grid := { w.grid with forced := joinNats w.grid.forced [w.grid.opened + 1] } }
    let now := (s.die (pc / 96)).tick2 / 2
    let r := refreshOf s pc g
    let checked := setRefresh s pc g { r with checked := true }
    let dist := r.deadline - 64 - now
    let at_ := outOfSlot checked (pointIn checked (pc / 96) dist)
    let w := busyAfter checked pc at_
    let slip := slipOf checked at_.beat + (96 + w)
    let reached (z : Freeze) : Prop := d ∉ z.begun ∧ (z.at_.beat < x.beat ∨ (z.at_.beat = x.beat ∧ 2 * z.at_.off ≤ x.off2))
    let begun := if f.begun = [] then (s.grid.freezeCount + 1) % 2 ^ 20 else s.grid.freezeCount
    let through (v : State) (z : Freeze) : Bool := z.begun.length == 8 && z.refs == [] && (List.range 8).all fun e =>
      match (v.die e).freeze with | some q => q.1 != z.id | none => true
    let hot := s.stack sk
    let tick := (s.die (sk / 2)).tick2 / 2
    let may := ∀ c, hot.since = some c → c + 800000 ≤ tick
    let felt := s.modStack sk fun z => { z with temp := temp }
    (¬ done → exec (.beatBoundary d) s = .next s)
    ∧ (done →
      (aligned closed x.beat = false → exec (.beatBoundary d) s = .next (openBeat closed d (x.beat + 1)))
      ∧ (aligned closed x.beat = true → n = 0 → exec (.beatBoundary d) s = .next (opens turned))
      ∧ (aligned closed x.beat = true → n ≠ 0 → exec (.beatBoundary d) s =
        .next (turned.modDie d fun z => { z with pause := some (z.tick2 + 2 * n) })))
    ∧ (x.pause = none → exec (.alignmentPauseEnd d) s = .next s)
    ∧ (x.pause = some at2 → (x.tick2 < at2 → exec (.alignmentPauseEnd d) s = .next s)
      ∧ (at2 ≤ x.tick2 → exec (.alignmentPauseEnd d) s = .next (opens s)))
    ∧ (x.tick2 < x.beacon2 + 2048 → exec (.beaconSend d) s = .next s)
    ∧ (x.beacon2 + 2048 ≤ x.tick2 → exec (.beaconSend d) s = .next (s.modDie d fun z =>
      { z with beacon2 := z.tick2
               beacons := z.beacons ++ ((List.range 8).filter fun e => hops d e == 1).map fun e =>
                 { dst := e, sent2 := z.tick2, opens := z.opens.map fun o => (o.1, z.tick2 - o.2), est := z.est } }))
    ∧ (arrived s d e = none → exec (.beaconReceive d e) s = .next s)
    ∧ (arrived s d e = some bn →
      (lagOf took d bn = none → exec (.beaconReceive d e) s = .next took)
      ∧ (∀ l, lagOf took d bn = some l → exec (.beaconReceive d e) s =
        .next (((List.range 8).filter fun h => 16 ≤ (Sparse.rd 0 (est l) h).natAbs).foldl limit (took.modDie d fun z => { z with est := est l }))))
    ∧ (¬ quiet → exec (.livenessTimeout d) s = .next s)
    ∧ (quiet → exec (.livenessTimeout d) s = .next (devEvent { gone with dist := { s.dist with scoreboard := board } } 6 d 382 0))
    ∧ (drefComes s pc g r = true ↔ ∃ c ∈ (s.chan pc).cmds, c.kind = .dref g ∧ now + ticksTo s (pc / 96)
        ⟨c.plan.beat, c.plan.off + if c.plan.beat = (s.die (pc / 96)).beat then (s.chan pc).debt else 0⟩ + 64 ≤ r.deadline)
    ∧ (r.checked = true ∨ ownedBy s pc = none ∨ now + 320 < r.deadline → exec (.refreshCheck pc g) s = .next s)
    ∧ (∀ k, r.checked = false → ownedBy s pc = some k → r.deadline ≤ now + 320 →
      (drefComes s pc g r = true → exec (.refreshCheck pc g) s = .next checked)
      ∧ (drefComes s pc g r = false →
        (joinable checked pc dist = some f → exec (.refreshCheck pc g) s = .next { checked with grid := { s.grid with
          freezes := s.grid.freezes.map fun z => if z.id = f.id then { z with refs := z.refs ++ [(pc, g)] } else z } })
        ∧ (joinable checked pc dist = none →
          (s.reg regBlim % 2 ^ 12 < slip →
            exec (.refreshCheck pc g) s = .next (raiseCause (setRefresh checked pc g r) k 348 0 0))
          ∧ (slip ≤ s.reg regBlim % 2 ^ 12 → exec (.refreshCheck pc g) s = .next { checked with grid := { s.grid with
            slip := Sparse.wr 0 s.grid.slip at_.beat slip
            freezeNext := s.grid.freezeNext + 1
            freezes := s.grid.freezes ++
              [{ id := s.grid.freezeNext, at_ := at_, len := 96 + w, w := w, refs := [(pc, g)] }] } }))))
    ∧ (freezeDue s d = none ↔ ¬ counts ∨ ∀ z ∈ s.grid.freezes, ¬ reached z)
    ∧ (freezeDue s d = some f → counts ∧ f ∈ s.grid.freezes ∧ reached f ∧ ∀ z ∈ s.grid.freezes, reached z →
      ¬ (z.at_.beat < f.at_.beat ∨ (z.at_.beat = f.at_.beat ∧ z.at_.off < f.at_.off)))
    ∧ (freezeDue s d = none → exec (.freezeBegin d) s = .next s)
    ∧ (freezeDue s d = some f → exec (.freezeBegin d) s =
      let t := s.modDie d fun z => { z with freeze := some (f.id, z.tick2, z.tick2 + 2 * f.len) }
      .next { t.setReg regSlip (putBits (s.reg regSlip) 12 20 begun) with grid := { s.grid with
        freezeCount := begun
        freezes := s.grid.freezes.map fun z => if z.id = f.id then { z with begun := z.begun ++ [d] } else z } })
    ∧ (forcedDue s pc = none → exec (.forcedRefreshStart pc) s = .next s)
    ∧ (forcedDue s pc = some (f, g) → exec (.forcedRefreshStart pc) s = .next (refreshNow { s with grid := { s.grid with
        freezes := s.grid.freezes.map fun z => if z.id = f.id then { z with refs := z.refs.erase (pc, g) } else z } } pc g))
    ∧ (x.freeze = none → exec (.freezeEnd d) s = .next s)
    ∧ (∀ id from2 to2, x.freeze = some (id, from2, to2) →
      (x.tick2 < to2 → exec (.freezeEnd d) s = .next s)
      ∧ (to2 ≤ x.tick2 → exec (.freezeEnd d) s =
        let t := s.modDie d fun z => { z with freeze := none }
        .next { t with grid := { s.grid with freezes := s.grid.freezes.filter fun z => !through t z } }))
    ∧ (plainDue s pc g = false → exec (.deadlineRefresh pc g) s = .next s)
    ∧ (plainDue s pc g = true → exec (.deadlineRefresh pc g) s = .next (s.modChan pc fun z => { z with
        refresh := Sparse.wr none z.refresh g (some { deadline := now + retention (s.stack (pc / 48)).hot, last := now }) }))
    ∧ ((s.die (pc / 96)).freeze ≠ none ∨ (s.die (pc / 96)).pause ≠ none ∨ freezeDue s (pc / 96) ≠ none → reopenDue s pc = none)
    ∧ (reopenDue s pc = some y → y ∈ (s.chan pc).reopen ∧ (y.1.beat < (s.die (pc / 96)).beat
      ∨ (y.1.beat = (s.die (pc / 96)).beat ∧ 2 * y.1.off ≤ (s.die (pc / 96)).off2)))
    ∧ (reopenDue s pc = none → exec (.rowReopen pc) s = .next s)
    ∧ (reopenDue s pc = some y → exec (.rowReopen pc) s =
      let t := s.now (pc / 96)
      let v := s.modChan pc fun z => { z with
        reopen := z.reopen.erase y
        hist := if y.2.1 then { z.hist with openw := some t } else { z.hist with opens := (t :: z.hist.opens).take 8 } }
      .next (y.2.2.foldl (fun v l => reopenRow v pc y.2.1 t l) v))
    ∧ (may → hot.hot = false → 85 < temp → exec (.stackHotChange sk temp) s =
      .next ((List.range 48).foldl (fun v i => v.modChan (48 * sk + i) fun z => { z with refresh := z.refresh.map fun q =>
        (q.1, q.2.map fun r => { r with deadline := Nat.min r.deadline (r.last + 25600000) }) })
          (felt.modStack sk fun z => { z with hot := true, early := true, since := some tick })))
    ∧ (may → hot.hot = true → temp < 83 → exec (.stackHotChange sk temp) s =
      .next (felt.modStack sk fun z => { z with hot := false, since := some tick }))
    ∧ (¬ may ∨ (hot.hot = false ∧ temp ≤ 85) ∨ (hot.hot = true ∧ 83 ≤ temp) → exec (.stackHotChange sk temp) s = .next felt)

/-- R150, R152-R154, R371: a frame for another device goes on, as it is, by the port that its route byte names, or is dropped and answered
with an error in the name of that device. A request for this device reads its entry of the export table as it arrives; it is performed
once the earlier ones of its source have been (log entry 81, DEDUCED): a refused one is answered with an error, one for memory becomes a
piece, one for a scratchpad moves its bytes at once (log entry 59, DEDUCED) and is recorded. An answer is for the oldest piece under way
to its offset; the piece performs once the earlier writes of its task to that peer have, or its gang raises code 334, as it does where a
destination is declared unreachable. An event message's time stamp is NTIME of the master die (log entry 27, DESIGN CHOICE). The model
reads the rules here as log entry 65 (DESIGN CHOICE) and log entry 89 (DEDUCED) say. -/
def Obligations.NodeWork : Prop :=
  ∀ (s t : State) (port src dst head len id dev dir : Nat) (e : Option Nat) (wr ok : Bool) (data : List Byte) (p : Machine.Piece)
    (l l' : List Machine.Piece),
    let off := head % 2 ^ 32
    let kind := head / 2 ^ 32
    let arrives := exec (.nodeFrameArrival port src dst head len wr data) s
    let f : Frame := { port := port, peer := dst, src := src, off := off, wr := wr, len := len, reply := kind != 0, err := kind == 2, data := data }
    let put (f : Frame) (v : State) : State := { v with dist := { v.dist with sent := v.dist.sent ++ [f] } }
    let answer (err : Bool) (bs : List Byte) (v : State) : State := put
      { port := port, peer := src, src := nodeId v, off := off, wr := wr, len := len, reply := true, err := err, data := bs } v
    let routes := s.reg regRoutebase / 2 ^ 18 % 2 ^ 34 * 2 ^ 18
    let way := tableWord s (routes + dst / 8 * 8)
    let b := way.2 / 2 ^ (8 * (dst % 8)) % 2 ^ 8
    let window := s.reg regExpbase
    let table := window / 2 ^ 19 % 2 ^ 33 * 2 ^ 19
    let entry := tableWord s (table + off / 65536 * 8)
    let x := entry.2
    let clean : Prop := (x / 2 ^ 62 = 1 ∧ x / 2 ^ 52 % 2 ^ 8 = 0 ∧ x % 2 ^ 16 = 0 ∧ inTiers (x / 2 ^ 16 % 2 ^ 36 * 2 ^ 16) = true)
      ∨ (x / 2 ^ 62 = 2 ∧ x / 2 ^ 42 % 2 ^ 18 = 0 ∧ x / 2 ^ 21 % 2 ^ 11 = 0 ∧ x % 2 ^ 16 = 0
        ∧ 0 < x / 2 ^ 32 % 2 ^ 10 ∧ x / 2 ^ 32 % 2 ^ 10 < 768)
    let lets : Prop := if wr then x / 2 ^ 60 % 2 = 1 else x / 2 ^ 61 % 2 = 1
    let busy := ∃ q ∈ t.pieces, ∃ a c, q.own = .frame a src c
    let alone := ∀ w ∈ t.dist.waiting, w.1.src ≠ src
    let under (q : Machine.Piece) := region q.pa = .peer ∧ q.pa / 2 ^ 32 % 2 ^ 18 = src ∧ q.pa % 2 ^ 32 = off ∧ q.wr = wr ∧ q.st = .sent
    let behind := p.wr = true ∧ ∃ q ∈ s.pieces, q.wr = true ∧ q.core = p.core ∧ q.bank = p.bank ∧ q.own.outside = p.own.outside
      ∧ q.st = .sent ∧ region q.pa = .peer ∧ q.pa / 2 ^ 32 % 2 ^ 18 = p.pa / 2 ^ 32 % 2 ^ 18 ∧ q.id < p.id
    let fails (v : State) (q : Machine.Piece) : State :=
      let u := setPiece v { q with st := .bad }
      if q.own.outside then u else raiseCause u (tkey q.core q.bank) 334 0 0
    let performs := setPiece s { p with st := .served, data := if p.wr then p.data else readBy s p p.pa (data.take p.len) }
    let acks := exec (.nodeAcknowledgement id ok data) s
    (inTiers routes = false → routePort s dst = (s, none))
    ∧ (inTiers routes = true → routePort s dst = (way.1,
      if b / 2 ^ 7 = 1 ∧ b / 2 ^ 4 % 2 ^ 3 = 0 ∧ s.dist.config.getD 1 0 / 2 ^ (b % 16) % 2 = 1 then some (b % 16) else none))
    ∧ (window % 2 = 0 ∨ inTiers table = false → exportEntry s off wr = (s, none))
    ∧ (window % 2 = 1 → inTiers table = true →
      (lets ∧ clean → exportEntry s off wr = (entry.1, some x)) ∧ (¬ lets ∨ ¬ clean → exportEntry s off wr = (entry.1, none)))
    ∧ (dst ≠ nodeId s →
      (∀ q, routePort s dst = (t, some q) → arrives = .next (put { f with port := q } t))
      ∧ (routePort s dst = (t, none) → arrives = .next (put { f with peer := src, src := dst, reply := true, err := true, data := [] } t)))
    ∧ (dst = nodeId s → kind = 0 → exportEntry s off wr = (t, e) →
      (busy → arrives = .next { t with dist := { t.dist with waiting := t.dist.waiting ++ [(f, e.getD 0)] } })
      ∧ (¬ busy → alone →
        (e = none → arrives = .next (answer true [] t))
        ∧ (∀ y, e = some y → y / 2 ^ 62 = 1 →
          let pa := y / 2 ^ 16 % 2 ^ 36 * 2 ^ 16 + off % 65536
          region pa = .fast ∨ region pa = .cap → arrives = .next { t with
            pieceNext := t.pieceNext + 1
            pieces := t.pieces ++ [{ id := t.pieceNext + 1, die := port / 2, own := .frame port src off, pa := pa, len := len, wr := wr
                                     data := data }] })
        ∧ (∀ y, e = some y → y / 2 ^ 62 = 2 →
          let c := y / 2 ^ 32 % 2 ^ 10
          let a := y / 2 ^ 16 % 2 ^ 5 * 2 ^ 16 + off % 65536
          let u := if wr then t.modCore c fun z => { z with spad := z.spad.wrList a (data.take len) } else t
          let v := replay u 2 (t.die (c / 96)).beat [port + src * 2 ^ 32, off, len]
          arrives = .next (answer false (if wr then [] else (v.core c).spad.rdList a len) v))))
    ∧ (dst = nodeId s → kind ≠ 0 →
      ((∀ q ∈ s.pieces, ¬ under q) → arrives = .next s)
      ∧ (s.pieces = l ++ p :: l' → under p → (∀ q ∈ l, ¬ under q) →
        (behind → arrives = .next s) ∧ (¬ behind → kind = 2 → arrives = .next (fails s p))
        ∧ (¬ behind → kind ≠ 2 → arrives = .next performs)))
    ∧ (findPiece s id = none → acks = .next s)
    ∧ (findPiece s id = some p →
      (region p.pa ≠ .peer ∨ p.st ≠ .sent ∨ behind → acks = .next s)
      ∧ (region p.pa = .peer → p.st = .sent → ¬ behind → (ok = true → acks = .next performs) ∧ (ok = false → acks = .next (fails s p))))
    ∧ exec (.nodeDestinationUnreachable dev) s = .next ((s.pieces.filter fun q =>
        region q.pa == .peer && q.pa / 2 ^ 32 % 2 ^ 18 == dev && q.st == .sent).foldl fails s)
    ∧ exec (.eventMessageTimestamp port dir) s = .next { s with dist := { s.dist with
        stamps := Sparse.wr 0 s.dist.stamps (2 * port + dir) (s.die (masterDie s)).ntime } }

/-! ### Launches, driver registers, stops -/

/-- R69, R70, R94, R284, R307-R313, R316, R319-R321, R330, R351, R371: the launch queues and the driver's registers. A tail write makes
packets visible, is recorded, and breaks a queue that it overruns; the states of a queue are as its writes say, and one in drain reads no
packet and goes off once nothing that it has begun is left; a packet that can be read becomes a launch, or breaks its queue (log entries
33 and 34, DEDUCED: a packet or a record address that cannot be read or translated), or is rejected with its reason. A task ends once its
work is over, the stores of S among it (log entry 39, DEDUCED), and a successor is issued for the next boundary; its gang ends with its
last task. A plan switch is requested where every entry is valid. The logs clear. An invalidation drops translations at once (log entry
50, DEDUCED) and completes once the commands before it have, or their tasks are gone. The model reads the rules here as log entries 8 and
10 (DESIGN CHOICE) and log entry 36 (DEDUCED) say. -/
def Obligations.LaunchWork : Prop :=
  ∀ (s u : State) (v q t val pc core bank w : Nat) (g : Gang) (ws : List Nat),
    let k := tkey core bank
    let ctl := regQueue v q + 0x18
    let tail := regQueue v q + 8
    let head := regQueue v q + 0x10
    let moved := replay (s.setReg tail (t % 2 ^ 32)) 1 (s.die (masterDie s)).beat [v + q * 2 ^ 16, t % 2 ^ 32, 0]
    let room := moved.reg (regQueue v q) % 32
    let passed := 1 ≤ room ∧ room ≤ 16 ∧ 2 ^ room < (t % 2 ^ 32 + 2 ^ 32 - moved.reg head % 2 ^ 32) % 2 ^ 32
    let breaks (x : State) : State := devEvent (x.setReg ctl (putBits (x.reg ctl) 2 1 1)) 3 v q 0
    let mode (n : Nat) (x : State) : State := x.setReg ctl (putBits (x.reg ctl) 0 2 n)
    let broken := bitOf (s.reg ctl) 2
    let rest := s.dist.launches.filter fun l => l.vf == v && l.q == q
    let idle := ∀ l ∈ rest, l.live = 0 ∧ (l.unissued = false ∨ l.issued = 0)
    let size := s.reg (regQueue v q) % 32
    let place := vfPhys s v (slice (s.reg (regQueue v q)) 6 50 * 64 + 64 * (s.reg head % 2 ^ 32 % 2 ^ size)) 0
    let read := u.setReg head ((u.reg head % 2 ^ 32 + 1) % 2 ^ 32)
    let l : Launch :=
      { id := u.dist.next, vf := v, q := q, words := ws, readBeat := (u.die (masterDie u)).beat, order := u.dist.queueOrder }
    let counted := { read with dist := { u.dist with next := u.dist.next + 1, queueOrder := u.dist.queueOrder + 1 } }
    let record := vfPhys counted v (ws.getD 7 0) 1
    let good := ws.getD 7 0 ≠ 0 ∧ ws.getD 7 0 % 64 = 0
    let shown := { record.1 with dist := { record.1.dist with launches := record.1.dist.launches ++ [l] } }
    let reads := exec (.packetRead v q) s
    let ends := exec (.taskEnd core bank) s
    let left := { g with gone := g.gone ++ [k] }
    let ended (x : State) : State :=
      let y := x.modGang g.id fun _ => left
      if left.live = [] then endGang y left true else switchPoints y
    let next (sw : List Nat) : Gang := { g with
      id := s.dist.next, tasks := [k], colours := [g.colours.getD (s.task k).index 0], start := (s.die (k / 2 / 96)).beat + 1
      st := .issued, preempt := false, resume := none, cut := {}, succ := some sw, pins := [], exits := [], gone := []
      det := bitOf (sw.getD 2 0) 4, race := [], raceNext := 1, known := [], shown := [], met := [] }
    let planOk := val / 2 ^ 4 % 2 ^ 9 ≠ 0 ∧ val / 2 ^ 4 % 2 ^ 9 ≤ 256
      ∧ ∀ i < val / 2 ^ 4 % 2 ^ 9, entryValid (s.reg (regPlan (val % 16) i)) = true
    let plan (x : Nat) : State := s.setReg regPlanact (putBits (putBits (s.reg regPlanact) 0 13 (val % 2 ^ 13)) 32 2 x)
    let cleared (a n ovf : Nat) : State := (List.range 4).foldl (fun u i =>
        u.setReg (a + 8 + 8 * i) (u.reg (a + 8 + 8 * i) % 2 ^ 63)) (s.setReg a (putBits (putBits (s.reg a) 16 n 0) ovf 1 0))
    let inv := regAsinv v
    let va := slice val 16 40 * 2 ^ 16
    let all := bitOf val 56
    let done := ∀ m ∈ Sparse.rd [] s.dist.asinv v, (s.task m.1).gang ≠ m.2.1 ∨ ∀ c ∈ (s.task m.1).c.cmds, m.2.2 < c.id
    (s.gangOf k = none → ends = .next s)
    ∧ (s.gangOf k = some g →
      (g.st ≠ .attached ∨ taskOver s k = false → ends = .next s)
      ∧ (g.st = .attached → taskOver s k = true →
        ((∃ x < 128, slotAt s (k / 2) x ≠ none) → ends = .next (raiseCause s k 250 0 0))
        ∧ ((∀ x < 128, slotAt s (k / 2) x = none) →
          ((s.task k).s.succ = none → ends = .next (ended (s.setTask k {})))
          ∧ (∀ sw, (s.task k).s.succ = some sw → ends =
            let x := { s with dist := { s.dist with next := s.dist.next + 1, gangs := s.dist.gangs ++ [next sw] } }
            .next (ended ((modLaunch x g.launch fun l => { l with live := l.live + 1 }).setTask k
              { tlb := { pins := (s.task k).tlb.pins } }))))))
    ∧ (¬ passed → exec (.lqtailWrite v q t) s = .next moved) ∧ (passed → exec (.lqtailWrite v q t) s = .next (breaks moved))
    ∧ exec (.lqctlOff v q) s = .next (mode 0 s) ∧ exec (.lqctlAbort v q) s = .next (mode 3 s)
    ∧ (broken = false → exec (.lqctlRun v q) s = .next (mode 1 s))
    ∧ (broken = true → exec (.lqctlRun v q) s =
      let u := s.setReg ctl (putBits (s.reg ctl) 2 1 0)
      .next (mode 1 (u.setReg head (s.reg tail % 2 ^ 32))))
    ∧ (idle → exec (.lqctlDrain v q) s = .next (mode 0 (mode 2 s))) ∧ (¬ idle → exec (.lqctlDrain v q) s = .next (mode 2 s))
    ∧ (canRead s v q = true ↔ s.reg regBootctl % 4 = 2 ∧ s.reg ctl % 4 = 1 ∧ broken = false ∧ s.reg head % 2 ^ 32 ≠ s.reg tail % 2 ^ 32
      ∧ ∀ l ∈ rest, l.unissued = false ∨ l.fail ≠ none)
    ∧ (size = 0 ∨ 16 < size → fetchPacket s v q = (s, none))
    ∧ (1 ≤ size → size ≤ 16 → (place.2 = none → fetchPacket s v q = (place.1, none))
      ∧ (∀ pa, place.2 = some pa → (∀ x bs, physRead place.1 pa 64 2 = (x, .ok bs) → fetchPacket s v q = (x, some (bytesToWords 8 bs)))
        ∧ (∀ x e, physRead place.1 pa 64 2 = (x, .error e) → fetchPacket s v q = (x, none))))
    ∧ (canRead s v q = false → reads = .next s)
    ∧ (canRead s v q = true → fetchPacket s v q = (u, none) → reads = .next (breaks u))
    ∧ (canRead s v q = true → fetchPacket s v q = (u, some ws) →
      (¬ good → reads = .next (breaks counted))
      ∧ (good → record.2 = none → reads = .next (breaks record.1))
      ∧ (good → record.2 ≠ none →
        (∀ r, rejectReason l = some r → reads = .next (completeLaunch shown l 3 r))
        ∧ (rejectReason l = none → reads = .next (settleInputs shown.dist.launches.length shown))))
    ∧ exec (.vfuseWrite v) s = .next (s.setReg (regVfuse v) 0)
    ∧ (planOk → exec (.planactWrite val) s = .next (plan 1)) ∧ (¬ planOk → exec (.planactWrite val) s = .next (plan 2))
    ∧ exec (.aelsWrite pc) s = .next (cleared (regAels pc) 32 7) ∧ exec (.telsWrite pc) s = .next (cleared (regTels pc) 16 10)
    ∧ (w = 0 → bitOf val 63 = false →
      exec (.mclogWrite core w val) s = .next (s.setReg (regMclog core) (s.reg (regMclog core) % 2 ^ 63)))
    ∧ (w ≠ 0 ∨ bitOf val 63 = true → exec (.mclogWrite core w val) s = .next s)
    ∧ (bitOf (s.reg inv) 63 = false → exec (.asinvWrite v val) s = .next s)
    ∧ (bitOf (s.reg inv) 63 = true → exec (.asinvWrite v val) s =
      let ks := tasksOf s v
      let u := ks.foldl (fun u k => u.modTask k fun t =>
        { t with c := { t.c with marks := t.c.marks ++ [(va, all)] }, tlb := { t.tlb with cond := dropLeaf t.tlb.cond va all } }) s
      .next { u.setReg inv (slice val 16 41 * 2 ^ 16) with dist := { u.dist with
        asinv := Sparse.wr [] u.dist.asinv v (ks.map fun k => (k, (s.task k).gang, (s.task k).c.nextId)) } })
    ∧ (bitOf (s.reg inv) 63 = true ∨ ¬ done → exec (.asinvDone v) s = .next s)
    ∧ (bitOf (s.reg inv) 63 = false → done → exec (.asinvDone v) s =
      let u := s.setReg inv (2 ^ 63 + s.reg inv % 2 ^ 63)
      .next { u with dist := { u.dist with asinv := Sparse.wr [] u.dist.asinv v [] } })

/-- R166, R309, R312-R318, R322, R331, R347, R348: the scheduling of gangs. A ticket is pending, or has the status that the scoreboard keeps,
else 1 (log entry 32, DEDUCED). Each queue presents its oldest launch that has gangs to issue; one that is eligible and whose gang can be
placed off the cores that others reserve issues it, the first in rank first, until none is left; it starts two beats later. A gang is
placed by the first map of virtual to physical dies, in the order of their digits, that keeps every hop count between the dies used and
finds enough free cores, the lowest-numbered ones; the cores of bank 0 take its shares. At its start the windows are loaded and each task
stands at its entry with its argument and number, every other register as R166 says; a bank-1 gang waits while bank 0 issues (log entry
30, DEDUCED). The opening of a beat does its work in this order. The model reads the rules here as log entries 36, 37, 38 and 42 (DEDUCED)
say. -/
def Obligations.Scheduling : Prop :=
  ∀ (s u : State) (b v q d k t n st : Nat) (x y l : Launch) (p : List (Nat × Nat)) (all : Bool) (no : List Nat) (g : Gang)
    (pins : List Leaf),
    let board := Sparse.rd [] s.dist.scoreboard v
    let pending := (∃ z ∈ s.dist.launches, z.vf = v ∧ z.ticket = t) ∨ (v, t) ∈ s.dist.jobs
      ∨ ∃ z ∈ s.pieces, z.own = .record v t ∧ z.st = .sent
    let holds (k : Nat) := ∃ z ∈ s.dist.gangs, z.st ≠ .ended ∧ k ∈ z.tasks
    let free (c : Nat) := c ≠ 0 ∧ (s.die (c / 96)).fenced = false
      ∧ (if l.bank = 0 then ¬ holds (2 * c) ∧ ¬ holds (2 * c + 1)
        else holds (2 * c) ∧ ¬ holds (2 * c + 1) ∧ 32 * l.fneed ≤ 768 - (s.core c).fsplit ∧ l.sneed ≤ 32 - (s.core c).ssplit)
    let room (d : Nat) : List Nat := ((List.range 96).map fun i => 96 * d + i).filter fun c =>
      !no.contains c && if all then c != 0 && !(s.die d).fenced else coreFree s l c
    let far (d e : Nat) := (d % 4 - e % 4) + (e % 4 - d % 4) + (d / 4 - e / 4) + (e / 4 - d / 4)
    let fits (m : List Nat) : Prop := m.length = 8 ∧ m.Nodup ∧ (∀ e ∈ m, e < 8)
      ∧ (∀ v < 8, 0 < l.count v → l.count v ≤ (room (m.getD v 0)).length)
      ∧ ∀ v < 8, ∀ w < 8, 0 < l.count v → 0 < l.count w → far v w = far (m.getD v 0) (m.getD w 0)
    let taken (m : List Nat) := (List.range 8).flatMap fun v => ((room (m.getD v 0)).take (l.count v)).map fun c => (c, l.colour v)
    let shows (z : Launch) := z ∈ s.dist.launches ∧ z.vf = v ∧ z.q = q ∧ z.unissued = true ∧ z.fail = none
    let act := s.reg regPlanact
    let mode := s.reg (regQueue l.vf l.q + 0x18) % 4
    let level (z : Launch) := min 3 (z.prio + (max 1 (b - z.readBeat) - 1) / 4096)
    let weight (v : Nat) := if s.reg (regVfweight v) % 2 ^ 16 = 0 then 1 else s.reg (regVfweight v) % 2 ^ 16
    let ux := s.reg (regVfuse x.vf) * weight y.vf
    let uy := s.reg (regVfuse y.vf) * weight x.vf
    let held (z : Launch) := z.unissued = true ∧ z.fail = none ∧ ∃ c, z.level3 = some c ∧ c + 16384 ≤ b
    let others (id : Nat) := ((reservations s b).filter fun z => z.1 != id).flatMap Prod.snd
    let ready (z : Launch) (p : List (Nat × Nat)) := z ∈ s.dist.launches ∧ eligible s z = true ∧ placement s z false (others z.id) = some p
    let gang : Gang := { id := s.dist.next, launch := l.id, num := l.nextNum, vf := l.vf, tasks := p.map fun z => 2 * z.1 + l.bank
                         colours := p.map Prod.snd, plan := l.plan, rows := l.rows, nonid := l.nonid, fold := l.fold, det := l.det, start := b + 2 }
    let listed := modLaunch { s with dist := { s.dist with next := s.dist.next + 1, gangs := s.dist.gangs ++ [gang] } } l.id fun z =>
      { z with live := z.live + 1, issued := if l.nextNum = z.issued then z.issued + 1 else z.issued, again := z.again.erase l.nextNum }
    let settled := settleInputs s.dist.launches.length s
    let noted : State := { settled with dist := { settled.dist with launches := settled.dist.launches.map fun z =>
      { z with level3 := if level z = 3 then some (z.level3.getD b) else none } } }
    let started := startTask s g l pins k
    let core := k / 2
    let old := s.core core
    let boots : EngSt := { phase := .header, pc := l.entry }
    let opens := s.modDie d fun z => { z with beat := b, off2 := 0, pause := none, opens := ((b, z.tick2) :: z.opens).take 3 }
    let first := if s.grid.opened < b then firstOpening opens b else opens
    let moves := resumeTasks (openSpans (startTasks (windowAt (passAligns first) d) d b) d b) d b
    let named := checkNamed (checkNamed moves (2 * d)) (2 * d + 1)
    let total := (g.live.map fun k => reopenTime (reopenPlan (s.task k).saved)).foldl max 0
    let need := if total = 0 then 0 else total + 28
    let may := act / 2 ^ 16 % 2 ^ 4 = g.plan ∧ refreshOwed s g = false
      ∧ (∀ z ∈ s.dist.gangs, z.st = .attached → ∀ k ∈ z.live, k % 2 = 1 → k - 1 ∉ g.live)
      ∧ ((∃ k ∈ g.live, k % 2 = 1) → bankZeroRuns s g = false)
    (t = 0 → ticketStatus s v t = some 1)
    ∧ (t ≠ 0 → pending → ticketStatus s v t = none)
    ∧ (t ≠ 0 → ¬ pending → (∀ z ∈ board, z.1 ≠ t) → ticketStatus s v t = some 1)
    ∧ (t ≠ 0 → ¬ pending → ∀ z, (board.find? fun z => z.1 == t) = some z → ticketStatus s v t = some z.2)
    ∧ (t ≠ 0 → putTicket s v t st = { s with dist := { s.dist with
        scoreboard := Sparse.wr [] s.dist.scoreboard v (((t, st) :: board.filter fun z => z.1 != t).take 1024) } })
    ∧ (∀ z, presented s v q = some z → shows z ∧ ∀ w, shows w → z.order ≤ w.order)
    ∧ (presented s v q = none ↔ ∀ z, ¬ shows z)
    ∧ (eligible s l = true ↔ presented s l.vf l.q = some l ∧ (mode = 1 ∨ (mode = 2 ∧ l.issued ≠ 0))
      ∧ (∀ t ∈ l.inputs, ticketStatus s l.vf t = some 1) ∧ l.plan = act / 2 ^ 16 % 2 ^ 4 ∧ act / 2 ^ 32 % 2 ^ 2 ≠ 1)
    ∧ (∀ c, coreFree s l c = true ↔ free c)
    ∧ (l.pinned = true →
      ((∀ v < 8, l.count v ≤ (room v).length) → placement s l all no = some (taken (List.range 8)))
      ∧ ((∃ v < 8, (room v).length < l.count v) → placement s l all no = none))
    ∧ (l.pinned = false →
      (∀ p, placement s l all no = some p → ∃ m, fits m ∧ p = taken m ∧ ∀ w, fits w → ¬ w < m)
      ∧ (placement s l all no = none ↔ ∀ m, ¬ fits m))
    ∧ (ranksBefore s b x y = true ↔ level y < level x ∨ (level y = level x ∧ (ux < uy ∨ (ux = uy
      ∧ (x.q < y.q ∨ (x.q = y.q ∧ x.order < y.order))))))
    ∧ (∃ ls : List Launch, ls.Perm (s.dist.launches.filter fun z => reserves z b) ∧ ls.Pairwise (fun z w => z.order ≤ w.order)
      ∧ reservations s b = ls.foldl (fun a z => match placement s z true (a.flatMap Prod.snd) with
        | some p => a ++ [(z.id, p.map Prod.fst)]
        | none => a) [])
    ∧ (reserves l b = true ↔ held l)
    ∧ (chooseLaunch s b = none ↔ ∀ z p, ¬ ready z p)
    ∧ (∀ z p, chooseLaunch s b = some (z, p) → ready z p ∧ ∀ w p', ready w p' → ranksBefore s b w z = false)
    ∧ (l.bank ≠ 0 → issueGang s b l p = listed)
    ∧ (l.bank = 0 → issueGang s b l p = p.foldl (fun u z => u.modCore z.1 fun c => { c with fsplit := 32 * l.fneed, ssplit := l.sneed }) listed)
    ∧ (chooseLaunch s b = none → placeGangs b n s = s)
    ∧ (∀ z p, chooseLaunch s b = some (z, p) → placeGangs b (n + 1) s = placeGangs b n (issueGang s b z p))
    ∧ (s.reg regBootctl % 4 ≠ 2 → schedule s b = s) ∧ (s.reg regBootctl % 4 = 2 → schedule s b = placeGangs b 1536 noted)
    ∧ (g.st ≠ .issued ∨ g.start ≠ b → attachGang s g b = s)
    ∧ (g.st = .issued → g.start = b →
      (launchOf s g.launch = none → attachGang s g b = endGang s g false)
      ∧ (launchOf s g.launch = some l →
        (l.fail ≠ none → attachGang s g b = endGang s g false)
        ∧ (l.fail = none → g.tasks.headD 0 % 2 = 1 → bankZeroRuns s g = true →
          attachGang s g b = s.modGang g.id fun z => { z with start := b + 1 })
        ∧ (l.fail = none → g.tasks.headD 0 % 2 = 0 ∨ bankZeroRuns s g = false →
          (g.succ ≠ none → attachGang s g b = s.modGang g.id fun z => { z with st := .attached })
          ∧ (g.succ = none → windowsOf s g.vf = (u, some pins) →
            attachGang s g b = u.modGang g.id fun z => { z with st := .attached, pins := pins })
          ∧ (g.succ = none → windowsOf s g.vf = (u, none) →
            attachGang s g b = endGang (modLaunch u g.launch fun z => { z with fail := some (z.fail.getD (3 + 256 * 6)) }) g false))))
    ∧ started.task k = { gang := some g.id, index := g.tasks.idxOf k, stop := g.st != .attached, tlb := { pins := pins }
                         engs := [Eng.s, .c, .v, .m, .a].foldl (fun z e => Sparse.wr {} z e.tag boots) []
                         sreg := Sparse.wr 0 (Sparse.wr 0 [] 1 (BitVec.ofNat 64 l.arg)) 2 (BitVec.ofNat 64 g.num)
                         creg := Sparse.wr 0 (Sparse.wr 0 [] 1 (BitVec.ofNat 64 l.arg)) 2 (BitVec.ofNat 64 g.num)
                         csr := { compat := l.compat, mdepth := l.mdepth, tbb := g.start % 2 ^ 48 } }
    ∧ (started.core core).easel = [] ∧ (started.core core).fq = [] ∧ (started.chan core).wells = [] ∧ (started.chan core).scalars = []
    ∧ (k % 2 = 0 → (started.core core).uf = Sparse.dropTo (1024 * old.fsplit) old.uf
      ∧ (started.core core).spad = Sparse.dropTo (65536 * old.ssplit) old.spad)
    ∧ (k % 2 = 1 → (started.core core).uf = Sparse.takeTo (1024 * old.fsplit) old.uf
      ∧ (started.core core).spad = Sparse.takeTo (65536 * old.ssplit) old.spad)
    ∧ openBeat s d b = sampleTime (chargeBeat (if d = masterDie named then schedule named b else named) d) d b
    ∧ firstOpening s b = (
      let u := switchPlan (turnSlip { s with dist := { s.dist with mirror := s.dist.scoreboard } } b) b
      attachResumed (chooseRebases (abortQueues (fencedStops (preemptAt u b) b) b) b) b)
    ∧ (¬ may → rebaseBeat s g b = none)
    ∧ (may → (∀ c, rebaseBeat s g b = some c → b ≤ c ∧ s.entryIndex c = g.cut.idx ∧ spanStart s 64 c need = b
        ∧ ∀ w, b ≤ w → w < c → ¬ (s.entryIndex w = g.cut.idx ∧ spanStart s 64 w need = b))
      ∧ (rebaseBeat s g b = none ↔ ∀ w < 64, ¬ (s.entryIndex (b + w) = g.cut.idx ∧ spanStart s 64 (b + w) need = b)))
    ∧ (∀ c, spanStart s (n + 1) c 0 = c) ∧ (∀ c m, m ≠ 0 → spanStart s (n + 1) c m = spanStart s n (c - 1) (m - s.lenOf (c - 1)))

/-- R99, R106, R314, R338-R349: the stop request reaches a task once: S, C and V stop, results in flight land, commands that have not started
are discarded, reduction blocks end after their strip, and open row lines are kept and released (here, log entry 61, DEDUCED). The cut of
a gang is taken once its work has ended; the gang then waits for the driver, ends for want of a record (with no event of kind 2, log entry
41, DEDUCED), or ends as the distributor asked. CUTCMD resumes, ends or pre-empts the gang that it names, at once or when the cut is taken
(log entry 40, DEDUCED, for the gang that it names); a resume reads the saved rows and makes bank-1 gangs yield. The copy engine of a die
takes a descriptor, rejects it with status 3 or sends its first read, and at the end of its job writes the completion word and the ticket.
The model reads the rules here as log entry 8 (DESIGN CHOICE) and log entry 52 (DEDUCED) say. -/
def Obligations.StopsAndCopies : Prop :=
  ∀ (s u : State) (core bank gang v val d st p : Nat) (g h : Gang) (j : CeJob) (ws : List Nat),
    let k := tkey core bank
    let stops (k : Nat) (s : State) : State :=
      let u := s.modTask k fun t => { t with
        stop := true, engs := [Eng.s, .c, .v].foldl (fun m e => Sparse.wr {} m e.tag { Sparse.rd {} m e.tag with stopped := true }) t.engs }
      let u := if (s.core (k / 2)).halted = true then u else drainV u k
      let u := u.modChan (k / 2) fun c => { c with
        again := c.again ++ c.cmds.filter fun x => x.bank == k % 2, cmds := c.cmds.filter fun x => x.bank != k % 2 }
      let u := u.modDie (dieOf (k / 2)) fun y => { y with
        ctxAgain := y.ctxAgain ++ y.ctx.filter fun x => tkey x.core x.bank == k && x.sent2.isNone
        ctx := y.ctx.filter fun x => !(tkey x.core x.bank == k && x.sent2.isNone) }
      let stay (u : State) (i : Nat) (x : RedBlk) : RedBlk :=
        if tkey x.core x.bank = k ∧ stripUnderWay u i x = false then { x with stopped := true } else x
      let u := (List.range 16).foldl (fun u i => u.modStack i fun z => { z with red := z.red.map (stay u i) }) u
      let rows := openRows u (k / 2)
      if reopening u k = true ∨ rows = [] then u
      else (List.range 128).foldl (fun u x => writeBack u (k / 2) x) (u.modChan (k / 2) fun c => { c with
        saved := (c.saved.filter fun y => rows.all fun z => z.x != y.x) ++ rows })
    let takes := exec (.cutTaken gang) s
    let here := g.live.filter fun k => !(s.die (dieOf (k / 2))).fenced
    let ended := g.live.foldl (fun u k => dropLoad (if (u.task k).stop then u else stops k u) k) s
    let kept := here.all fun k => (recordAt ended g.vf k).isSome
    let saved := if kept then here.foldl (fun u k =>
      match recordAt u g.vf k with
      | some pa => writeRecord u pa (recordImage u g k)
      | none => u) ended else ended
    let left := g.live.foldl (fun u k => u.modChan (k / 2) fun c =>
      if reopening u k then { c with saved := [] } else { c with hist := {}, reopen := [], saved := [] }) saved
    let cut := (List.range 8).foldl switchPoint (left.modGang g.id fun y => { y with st := .detached, cut := { y.cut with written := kept } })
    let cause := if h.cut.machineCheck then 278 else h.cut.code
    let told := devEvent cut 2 h.vf (h.tasks.getD h.cut.orig 0 / 2 * 2 ^ 16 + cause) 0
    let named (op : Nat) (ok : Gang → Bool) (x : Option Gang) : Prop :=
      val / 2 ^ 62 = op ∧ slice val 10 52 = 0 ∧ x = ((s.dist.gangs.find? fun g => g.vf == v && g.live.contains (tkey (val % 2 ^ 10) 0) && ok g).or
        (s.dist.gangs.find? fun g => g.vf == v && g.live.contains (tkey (val % 2 ^ 10) 1) && ok g))
    let halts (g : Gang) : Bool := g.st == .detaching || g.st == .detached
    let held (op : Nat) : State := s.modGang g.id fun y => { y with cut := { y.cut with answer := some op } }
    let preempts (g : Gang) (u : State) : State := (g.live.foldl (fun u k =>
      u.modTask k fun t => { t with m := { t.m with preempt := true } }) u).modGang g.id fun y => { y with preempt := true }
    let resumes (g : Gang) (u : State) : State :=
      let u := (g.live.foldl (fun u k => readRows u g k) u).modGang g.id fun y => { y with cut := { y.cut with answer := none, answered := true } }
      (u.dist.gangs.filter fun x => x.st == .attached && !x.preempt && x.id != g.id
        && x.live.any fun k => k % 2 == 1 && g.live.contains (k - 1)).foldl (fun u x => preempts x u) u
    let ends (g : Gang) (n : Nat) (u : State) : State := endDetached (modLaunch u g.launch fun l => { l with cause := some (l.cause.getD n) }) g
    let ring := s.reg (regCe d)
    let at_ := s.reg (regCe d + 16)
    let pa := slice ring 12 40 * 2 ^ 12 + 64 * (at_ % 2 ^ (ring % 16))
    let waits := (s.die d).ce = none ∧ 1 ≤ ring % 16 ∧ ring % 16 ≤ 12 ∧ s.reg (regCe d + 8) ≠ at_
    let len := ws.getD 2 0 % 2 ^ 32
    let whole (a : Nat) := region a = region (a + len - 1) ∧ (region a = .fast ∨ region a = .cap ∨ region a = .host)
    let limits : Prop := ws.getD 0 0 % 256 = 0 ∧ ws.getD 1 0 % 256 = 0 ∧ ws.getD 2 0 / 2 ^ 32 = 0 ∧ len % 256 = 0 ∧ len ≠ 0
      ∧ slice (ws.getD 3 0) 9 23 = 0 ∧ ws.getD 3 0 % 512 < 384
      ∧ ws.getD 4 0 % 8 = 0 ∧ (ws.getD 4 0 = 0 ∨ region (ws.getD 4 0) = .fast ∨ region (ws.getD 4 0) = .cap)
      ∧ (∀ x ∈ ws.drop 5, x = 0) ∧ whole (ws.getD 0 0) ∧ whole (ws.getD 1 0)
      ∧ (ws.getD 0 0 + len ≤ ws.getD 1 0 ∨ ws.getD 1 0 + len ≤ ws.getD 0 0)
    let taken (ws : List Nat) (u : State) : State :=
      let x : CeJob := { src := ws.getD 0 0, dst := ws.getD 1 0, len := ws.getD 2 0 % 2 ^ 32, ticket := ws.getD 3 0 / 2 ^ 32
                         vf := ws.getD 3 0 % 512, done := ws.getD 4 0, status := if jobOk ws then 0 else 3 }
      let u := (u.setReg (regCe d + 16) ((at_ + 1) % 2 ^ 32)).modDie d fun y => { y with ce := some x }
      readNextPiece { u with dist := { u.dist with jobs := u.dist.jobs ++ if x.ticket = 0 then [] else [(x.vf, x.ticket)] } } d
    (s.gangOf k = none → exec (.gangStopRequest core bank) s = .next s)
    ∧ (s.gangOf k = some g →
      (g.st ≠ .detaching ∨ (s.task k).stop = true → exec (.gangStopRequest core bank) s = .next s)
      ∧ (g.st = .detaching → (s.task k).stop = false → exec (.gangStopRequest core bank) s = .next (stops k s)))
    ∧ (s.gang gang = none → takes = .next s)
    ∧ (s.gang gang = some g →
      (cutReady s g = false → takes = .next s)
      ∧ (cutReady s g = true → cut.gang g.id = some h →
        (∀ how, h.cut.ends = some how → takes = .next (endByDevice cut h how))
        ∧ (h.cut.ends = none → h.cut.written = false → takes = .next (ends h 383 cut))
        ∧ (h.cut.ends = none → h.cut.written = true → h.cut.answer = none → takes = .next told)
        ∧ (h.cut.ends = none → h.cut.written = true → h.cut.answer = some 2 → takes = .next (ends h cause told))
        ∧ (∀ op, h.cut.ends = none → h.cut.written = true → h.cut.answer = some op → op ≠ 2 →
          takes = .next (if h.cut.answered ∨ h.cut.machineCheck then told else resumes h told))))
    ∧ (st = 0 → endByDevice s g st = endDetached (modLaunch s g.launch fun l => { l with again := joinNats l.again [g.num] }) g)
    ∧ (st ≠ 0 → endByDevice s g st = endDetached (modLaunch s g.launch fun l => { l with fail := some (l.fail.getD 2) }) g)
    ∧ (g.cut.rebase = none → endDetached s g = endGang s g false)
    ∧ (g.cut.rebase ≠ none → endDetached s g = endGang (g.live.foldl (fun u k => (List.range 128).foldl (fun u x => writeBack u (k / 2) x)
        (u.modChan (k / 2) fun c => { c with reopen := [] })) s) g false)
    ∧ exec (.cutcmdNoEffect v val) s = .next s
    ∧ (named 1 halts none → exec (.cutcmdResume v val) s = .next s)
    ∧ (named 1 halts (some g) →
      (g.st = .detached → exec (.cutcmdResume v val) s = .next (if g.cut.answered ∨ g.cut.machineCheck then s else resumes g s))
      ∧ (g.st ≠ .detached → exec (.cutcmdResume v val) s = .next (if g.cut.machineCheck then s else held 1)))
    ∧ (named 2 halts none → exec (.cutcmdEnd v val) s = .next s)
    ∧ (named 2 halts (some g) →
      (g.st = .detached → exec (.cutcmdEnd v val) s = .next (ends g (if g.cut.machineCheck then 278 else g.cut.code) s))
      ∧ (g.st ≠ .detached → exec (.cutcmdEnd v val) s = .next (held 2)))
    ∧ (named 3 (fun g => g.st == .attached) none → exec (.cutcmdPreempt v val) s = .next s)
    ∧ (named 3 (fun g => g.st == .attached) (some g) → exec (.cutcmdPreempt v val) s = .next (preempts g s))
    ∧ (val / 2 ^ 62 ≠ 1 ∨ slice val 10 52 ≠ 0 → exec (.cutcmdResume v val) s = .next s)
    ∧ (val / 2 ^ 62 ≠ 2 ∨ slice val 10 52 ≠ 0 → exec (.cutcmdEnd v val) s = .next s)
    ∧ (val / 2 ^ 62 ≠ 3 ∨ slice val 10 52 ≠ 0 → exec (.cutcmdPreempt v val) s = .next s)
    ∧ (recordAt s g.vf k = none ∨ g.rows = false → readRows s g k = s)
    ∧ (recordAt s g.vf k = some p → g.rows = true → ∀ m, readRecord s p = (u, m) →
      ∃ l : List SavedRow, readRows s g k = u.modTask k (fun t => { t with saved := l })
        ∧ ∀ y, y ∈ l ↔ y.x < 128 ∧ bitOf (m.rdN (0x2400 + 8 * y.x) 8) 63 = true ∧ y.row = m.rdN (0x2400 + 8 * y.x) 8 % 2 ^ 16
          ∧ y.w = bitOf (m.rdN (0x2400 + 8 * y.x) 8) 61 ∧ y.held = bitOf (m.rdN (0x2400 + 8 * y.x) 8) 62)
    ∧ exec (.cebaseWrite d val) s = .next (s.setReg (regCe d) (slice val 12 40 * 2 ^ 12 + val % 16))
    ∧ exec (.cetailWrite d val) s = .next (s.setReg (regCe d + 8) (val % 2 ^ 32))
    ∧ (jobOk ws = true ↔ limits)
    ∧ (¬ waits → exec (.ceJobStart d) s = .next s)
    ∧ (waits → region pa ≠ .fast → region pa ≠ .cap → exec (.ceJobStart d) s = .next (taken [] s))
    ∧ (waits → region pa = .fast ∨ region pa = .cap →
      (∀ bs, physRead s pa 64 2 = (u, .ok bs) → exec (.ceJobStart d) s = .next (taken (bytesToWords 8 bs) u))
      ∧ (∀ e, physRead s pa 64 2 = (u, .error e) → exec (.ceJobStart d) s = .next (taken [] u)))
    ∧ ((s.die d).ce = none → exec (.ceJobComplete d) s = .next s)
    ∧ ((s.die d).ce = some j →
      (j.status = 0 → j.off < j.len → exec (.ceJobComplete d) s = .next s)
      ∧ (st = (if j.status ≠ 0 then j.status else 1) → j.status ≠ 0 ∨ j.len ≤ j.off → exec (.ceJobComplete d) s =
        let u := s.modDie d fun x => { x with ce := none }
        let u := if j.done ≠ 0 ∧ (region j.done = .fast ∨ region j.done = .cap)
          then physWrite u j.done (natToBytes 8 (st * 2 ^ 56 + if st = 3 then 0 else j.off / 256)) else u
        let u := putTicket { u with dist := { u.dist with jobs := u.dist.jobs.erase (j.vf, j.ticket) } } j.vf j.ticket st
        .next (settleInputs u.dist.launches.length u)))

/-- R244, R342-R344, R347, R351: the cut record. It stands in the area that CUTBASE names, if that lies in one tier. Its words and bytes are
those of the layout of R344: the cause, the engines with their positions (log entry 11, DEDUCED; C stands at the first command that had
not started, M inside an mtile at the mtile, log entry 66, DEDUCED; a halted core has none), queues, registers, work that stands part
done, saved rows, windows, shadows and the storage of the core. A record sets each register again, with reserved bits 0 and WIN from 1 to
64; an engine whose words were not changed goes on where it stopped, another at the words; TBB moves by the beats of the rebase. A machine
check halts the core, is logged once, and cuts the gang with code 278. The model reads the rules here as log entries 61 and 83 (DEDUCED)
and log entry 67 (DESIGN CHOICE) say. -/
def Obligations.CutRecords : Prop :=
  ∀ (s u : State) (g : Gang) (k v core src strip pa syn n i j y : Nat) (e : Eng) (m' old : Mem) (z : EngSt) (f : Flight) (before : Mem) (ws ws' : List Nat),
    let m := recordImage s g k
    let w (o : Nat) : Nat := m.rdN o 8
    let t := s.task k
    let c := s.core (k / 2)
    let ch := s.chan (k / 2)
    let base := slice (s.reg (regCutbase v)) 31 21 * 2 ^ 31
    let top := base + 1536 * 2 ^ 20 - 1
    let lies := base ≠ 0 ∧ inTiers base = true ∧ inTiers top = true ∧ region base = region top
    let mine := t.index = g.cut.orig
    let eng := s.eng k e
    let o := 0x100 + 32 * e.tag
    let pos := recordPos s k e
    let given (i : Nat) (l : List Nat) : Nat := if i < l.length then l.getD i 0 else 0
    let gone := discarded s k
    let stopped := (t.c.cmds.filter fun x => x.failed).take 8
    let blocks := (((List.range 16).flatMap fun i => (s.stack i).red).filter fun b => 2 * b.core + b.bank == k).take 4
    let pins := t.tlb.pins.take 512
    let repn := (Sparse.rd [] t.repn e.tag).take 4
    let a := 0x14000 + 6208 * i
    let r := restoreTask t old m'
    let rc := restoreCore s core m'
    let ow (o : Nat) : Nat := m'.rdN o 8
    let counted (o n b : Nat) : List Nat := (m'.getWords (o + 8) (min n (ow o))).map fun x => x % 2 ^ b
    let entry (o i j : Nat) : Mem := Sparse.window m' (o + 4096 * i + 1024 * j) 1024
    let away :=
      let b := restoreEng z ws ws'
      let pc := ws'.getD 0 0 % 2 ^ 56
      b.stopped = false ∧ b.pc = pc ∧ b.serial = ws'.getD 1 0 / 2 ^ 32 ∧ b.taken = ws'.getD 1 0 % 2 ^ 32 ∧ b.count = ws'.getD 2 0 / 2 ^ 32
        ∧ b.passes = slice (ws'.getD 2 0) 16 16 ∧ b.cursor = ws'.getD 3 0 % 2 ^ 48
        ∧ b.phase = if z.body ≤ pc ∧ pc ≤ z.body + 2 * z.len ∧ z.len ≠ 0 then .body else .header
    let mclog := regMclog core
    let slot := tkey core (s.issuing core)
    let logged := if bitOf (s.reg mclog) 63 then s else
      ((s.setReg mclog (2 ^ 63 + src * 2 ^ 60 + stripChan strip * 2 ^ 50 + stripBank strip * 2 ^ 46 + stripRow strip * 2 ^ 30
        + stripPos strip * 2 ^ 25)).setReg (mclog + 8) pa).setReg (mclog + 16) (syn % 2 ^ 32)
    let cut := detach (logged.modCore core fun y => { y with halted := true }) slot 278 0 0
    (¬ lies → recordAt s v k = none) ∧ (lies → recordAt s v k = some (base + k * 0x100000))
    -- the header
    ∧ w 0 = ((if c.halted then 278 else g.cut.code) * 2 ^ 55 + (if mine ∨ g.cut.pre then 0 else 2 ^ 54) + (if g.cut.pre then 2 ^ 53 else 0)
      + g.cut.orig % 2 ^ 10 * 2 ^ 43) % 2 ^ 64
    ∧ w 0x08 = (if mine then g.cut.va else 0) % 2 ^ 64 ∧ w 0x10 = (if mine then g.cut.imm % 2 ^ 15 else 0)
    ∧ w 0x18 = t.csr.tbb % 2 ^ 64 ∧ w 0x20 = g.cut.at_.beat % 2 ^ 48
    ∧ w 0x28 = (g.cut.at_.off * 2 ^ 32 + t.v.shadows.length % 2 ^ 8 * 2 ^ 8 + (if g.rows then 1 else 0)) % 2 ^ 64
    -- the engines
    ∧ (c.halted = true → w o = 0 ∧ w (o + 8) = 0 ∧ w (o + 16) = 0 ∧ w (o + 24) = 0)
    ∧ (c.halted = false → w o = pos.getD 0 0 % 2 ^ 56 ∧ w (o + 8) = pos.getD 1 0 % 2 ^ 32 * 2 ^ 32 + pos.getD 2 0 % 2 ^ 32
      ∧ w (o + 16) = recordCount s k e % 2 ^ 32 * 2 ^ 32 + pos.getD 3 0 % 2 ^ 16 * 2 ^ 16
        + (match eng.wait with | .beat _ => 1 | .tokens => 2 | .waitt _ => 4 | _ => 0)
      ∧ w (o + 24) = pos.getD 4 0 % 2 ^ 48)
    ∧ (e = .s ∨ e = .v ∨ e = .a ∨ (e = .m ∧ t.m.run = none) ∨ (e = .c ∧ gone = []) → pos = engPos eng)
    ∧ (∀ b, t.m.run = some b → recordPos s k .m = engPos b.at_)
    ∧ (gone ≠ [] → ∃ x ∈ gone, (∀ y ∈ gone, x.1 ≤ y.1) ∧ recordPos s k .c = x.2 ∧ recordCount s k .c = (x.1 + 2 ^ 32 - 1) % 2 ^ 32)
    ∧ (e ≠ .c ∨ gone = [] → recordCount s k e = eng.count)
    ∧ (∀ d, d ∈ gone ↔ (∃ b ∈ ch.again, b.bank = k % 2 ∧ d = (b.seq, b.pos))
      ∨ (∃ b ∈ (s.die (k / 2 / 96)).ctxAgain, 2 * b.core + b.bank = k ∧ d = (b.seq, b.pos))
      ∨ (∃ b, t.c.spc = some b ∧ b.failed = true ∧ d = (b.seq, b.pos)) ∨ ∃ b, t.c.rdc = some b ∧ d = (b.headD 0, t.c.rdcAt))
    ∧ engPos z = (match z.phase with
      | .count => [z.pc, (z.serial + 2 ^ 32 - 1) % 2 ^ 32, z.taken, 0, z.cursor]
      | .body => [z.pc, z.serial, z.taken, z.passes, z.cursor]
      | _ => [z.pc, z.serial, z.taken, 0, z.cursor])
    -- queues and registers
    ∧ (i < 64 → w (0x200 + 8 * i) = if i < t.recs.length then
        (2 ^ 63 + (t.recs.getD i {}).kind * 2 ^ 61 + (t.recs.getD i {}).target / 2 % 2 ^ 55) % 2 ^ 64 else 0)
    ∧ w (0x400 + 40 * e.tag) = repn.length ∧ (i < 4 → w (0x408 + 40 * e.tag + 8 * i) = given i repn % 2 ^ 16)
    ∧ w 0x500 = (t.hq.take 8).length ∧ (i < 8 → w (0x508 + 8 * i) = given i ((t.hq.take 8).map BitVec.toNat))
    ∧ w 0x580 = (c.fq.take 8).length ∧ w 0x588 = (match t.m.run with | some b => b.f | none => 0) % 2 ^ 64
    ∧ (i < 8 → w (0x590 + 8 * i) = given i ((c.fq.take 8).map BitVec.toNat))
    ∧ (i < 32 → w (0x600 + 8 * i) = (Sparse.rd 0 t.sreg i).toNat ∧ w (0xC00 + 8 * i) = (Sparse.rd 0 t.kreg i).toNat
      ∧ w (0xF00 + 8 * i) = (Sparse.rd 0 c.easel i).toNat)
    ∧ (i < 8 → w 0x700 / 4 ^ i % 4 = if i = 0 then 1 else Sparse.rd 0 t.pred i % 4)
    ∧ (i < 16 → w (0x800 + 8 * i) = (Sparse.rd 0 t.creg i).toNat ∧ w (0x880 + 8 * i) = (Sparse.rd 0 t.areg i).toNat
      ∧ w (0x900 + 8 * i) = Sparse.rd 0 t.sf i % 2 ^ 64)
    ∧ w 0x980 = t.csr.win % 2 ^ 64 ∧ w 0x988 = t.csr.vst % 2 ^ 64 ∧ w 0x990 = t.csr.jst % 2 ^ 64 ∧ w 0x998 = t.csr.npth % 2 ^ 64
    ∧ w 0x9A0 = t.csr.asts % 2 ^ 64 ∧ w 0x9A8 = t.csr.bufsel % 2 ^ 64
    ∧ w 0xA00 = (t.evq.take 32).length ∧ (i < 32 → w (0xA08 + 8 * i) = given i (t.evq.take 32) % 2 ^ 64)
    ∧ (i < 8 → m.rdN (0xD00 + 64 * i) 64 = Sparse.rd 0 t.pat i % 256 ^ 64)
    -- work that stands part done
    ∧ (i < 8 → w (0x1000 + 16 * i) = (if i < stopped.length then 2 ^ 63 + (stopped.getD i {}).pc % 2 ^ 56 else 0)
      ∧ w (0x1008 + 16 * i) = (if i < stopped.length then (stopped.getD i {}).next % 2 ^ 64 else 0))
    ∧ (i < 4 → w (0x1080 + 16 * i) = (if i < blocks.length then 2 ^ 63 + (blocks.getD i {}).seq % 2 ^ 32 else 0)
      ∧ w (0x1088 + 16 * i) = (if i < blocks.length then (blocks.getD i {}).done % 2 ^ 64 else 0))
    ∧ w 0x10C0 = (match t.m.run with | some b => 2 ^ 33 + b.step / b.per % 2 ^ 32 | none => 0) + (if t.m.kept = none then 0 else 2 ^ 32)
    ∧ w 0x10C8 = (match t.a.ins with | some b => 2 ^ 63 + b.win % 2 ^ 32 | none => 0)
    -- masks, row lines, windows, counts
    ∧ (i < 16 → j < 1024 → m.rdN (0x1400 + 256 * i) 256 / 4 ^ j % 4 = if i = 0 then 1 else Sparse.rd 0 t.mask i / 4 ^ j % 4)
    ∧ (i < 128 → w (0x2400 + 8 * i) = if g.rows = false then 0 else match ch.saved.find? fun l => l.x == i with
      | some l => 2 ^ 63 + (if l.held then 2 ^ 62 else 0) + (if l.w then 2 ^ 61 else 0) + l.row % 2 ^ 16
      | none => 0)
    ∧ (i < 512 → i < pins.length → let l := pins.getD i {}
      w (0x2800 + 16 * i) = l.va / 2 ^ 21 % 2 ^ 35 * 2 ^ 21
      ∧ w (0x2808 + 16 * i) = (l.node * 2 ^ 59 + l.pa / 2 ^ 21 % 2 ^ 31 * 2 ^ 21 + (if l.cc then 4 else 0) + (if l.w then 2 else 0)
        + (if l.r then 1 else 0)) % 2 ^ 64)
    ∧ (i < 512 → pins.length ≤ i → w (0x2800 + 16 * i) = 0 ∧ w (0x2808 + 16 * i) = 0)
    ∧ (i < 8 → w (0x4800 + 8 * i) = (Sparse.rd [] t.opq i).length % 2 ^ 64)
    ∧ (i < 4 → w (0x4840 + 8 * i) = (Sparse.rd [] t.outq i).length % 2 ^ 64)
    -- storage, byte by byte
    ∧ (i < 8 → j < 4 → y < 1024 → m.get (0x8000 + 4096 * i + 1024 * j + y) = ((Sparse.rd [] t.opq i).getD j []).get y)
    ∧ (i < 4 → j < 4 → y < 1024 → m.get (0x10000 + 4096 * i + 1024 * j + y) = ((Sparse.rd [] t.outq i).getD j []).get y)
    ∧ (i < 20 → t.v.shadows[i]? = some (f, before) → ∀ kind n size, shadowDst f.dst = some (kind, n, size) →
      w a = (kind * 2 ^ 62 + n) % 2 ^ 64 ∧ w (a + 8) = f.due % 2 ^ 64 ∧ m.rdN (a + 64) 128 = f.els % 256 ^ 128
      ∧ (y < size → m.get (a + 192 + y) = before.get y))
    ∧ shadowDst (.entry n) = some (0, n, 1024) ∧ shadowDst (.jreg n) = some (1, n, 2048) ∧ shadowDst (.mask n) = some (2, n, 256)
    ∧ (y < 0x10000 → m.get (0x34000 + y) = t.jreg.get y ∧ m.get (0x44000 + y) = c.acc.get y ∧ m.get (0x54000 + y) = ch.wells.get y)
    ∧ (i < 16 → w (0x64000 + 8 * i) = Sparse.rd 0 ch.scalars i % 2 ^ 64)
    ∧ (y < 0x4000 → m.get (0x68000 + y) = c.palette.get y) ∧ (y < 0x80000 → m.get (0x80000 + y) = c.canvas.get y)
    ∧ (0x100000 ≤ y → m.get y = 0)
    -- what a record sets
    ∧ (i < 32 → Sparse.rd 0 r.sreg i = if i = 0 then 0 else BitVec.ofNat 64 (ow (0x600 + 8 * i)))
    ∧ (i < 16 → Sparse.rd 0 r.creg i = BitVec.ofNat 64 (ow (0x800 + 8 * i)) ∧ Sparse.rd 0 r.areg i = BitVec.ofNat 64 (ow (0x880 + 8 * i))
      ∧ Sparse.rd 0 r.sf i = ow (0x900 + 8 * i) % 2 ^ 8)
    ∧ (i < 32 → Sparse.rd 0 r.kreg i = if ow (0xC00 + 8 * i) = old.rdN (0xC00 + 8 * i) 8 then Sparse.rd 0 t.kreg i
        else BitVec.ofNat 64 (ow (0xC00 + 8 * i) % 2 ^ 36))
    ∧ (0 < i → i < 8 → Sparse.rd 0 r.pred i = if slice (ow 0x700) (2 * i) 2 = 3 then 2 else slice (ow 0x700) (2 * i) 2)
    ∧ (0 < i → i < 16 → j < 1024 → Sparse.rd 0 r.mask i / 4 ^ j % 4 =
        if m'.rdN (0x1400 + 256 * i) 256 / 4 ^ j % 4 = 3 then 2 else m'.rdN (0x1400 + 256 * i) 256 / 4 ^ j % 4)
    ∧ (i < 8 → Sparse.rd 0 r.pat i = m'.rdN (0xD00 + 64 * i) 64)
    ∧ r.hq = (counted 0x500 8 64).map (BitVec.ofNat 64) ∧ Sparse.rd [] r.repn e.tag = counted (0x400 + 40 * e.tag) 4 16
    ∧ r.evq = counted 0xA00 32 64 ∧ r.jreg = Sparse.window m' 0x34000 0x10000
    ∧ (i < 8 → Sparse.rd [] r.opq i = (List.range (min 4 (ow (0x4800 + 8 * i) % 8))).map (entry 0x8000 i))
    ∧ (i < 4 → Sparse.rd [] r.outq i = (List.range (min 4 (ow (0x4840 + 8 * i) % 8))).map (entry 0x10000 i))
    ∧ r.csr = { t.csr with
      win := if ow 0x980 % 2 ^ 7 = 0 then 1 else min 64 (ow 0x980 % 2 ^ 7), vst := ow 0x988 % 2 ^ 3, jst := Nat.land (ow 0x990) 0x6FF
      npth := ow 0x998 % 2 ^ 16, asts := ow 0x9A0 % 2 ^ 3, bufsel := ow 0x9A8 % 2 ^ 8 }
    ∧ ((rc.core core).easel = Sparse.ofFn 0 32 fun i => BitVec.ofNat 64 (ow (0xF00 + 8 * i)))
    ∧ (rc.core core).fq = (m'.getWords 0x590 (min 8 (ow 0x580))).map (BitVec.ofNat 64)
    ∧ (rc.core core).acc = Sparse.window m' 0x44000 0x10000 ∧ (rc.core core).palette = Sparse.window m' 0x68000 0x4000
    ∧ (rc.core core).canvas = Sparse.window m' 0x80000 0x80000 ∧ (rc.chan core).wells = Sparse.window m' 0x54000 0x10000
    ∧ (i < 16 → Sparse.rd 0 (rc.chan core).scalars i = ow (0x64000 + 8 * i) % 2 ^ 32)
    ∧ (let kept := restoreEng z ws ws
      kept.stopped = false ∧ kept.pc = z.pc ∧ kept.phase = z.phase ∧ kept.passes = z.passes ∧ kept.cursor = z.cursor ∧ kept.count = z.count)
    ∧ (ws' ≠ ws → away)
    ∧ (recordAt s g.vf k = none → resumeTask s g k n = s)
    ∧ (recordAt s g.vf k = some pa → ∀ l, readRecord s pa = (u, l) → resumeTask s g k n = (
      let head := recordHead s g k
      let v := restoreCore (u.setTask k (restoreTask (u.task k) head l)) (k / 2) l
      let v := v.modTask k fun t => { t with stop := false, csr := { t.csr with tbb := (l.rdN 0x18 8 + n) % 2 ^ 48 } }
      let v := (List.range 16).foldl (fun v i => restoreBlocks v i k n l) v
      placeAgain (refillV v k) k n (!(head.getWords 0x120 4 == l.getWords 0x120 4))))
    -- the machine check
    ∧ (cut.gangOf slot = none → machineCheck s core src strip pa syn = cut)
    ∧ (∀ h, cut.gangOf slot = some h → machineCheck s core src strip pa syn =
      cut.modGang h.id fun y => { y with cut := { y.cut with machineCheck := true } })

/-- R355-R372: power-up gives the reset state (log entries 1 to 3, DESIGN CHOICE, for what the manual does not give). go starts verification
where the state admits it, and elsewhere sets only len; verification ends in a rejection with its reason or in the running firmware and
the configured grid (log entry 54 for the skew with which the dies start); a conventional reset returns to state 0 (log entry 45,
DEDUCED). A BAR reaches the registers, the window of physical addresses that BWIN names, or the space of its virtual function, at once
(log entry 44, DESIGN CHOICE); an address that does not exist is the machine's one fault (log entry 7, DEDUCED). A register without
behaviour of its own keeps the bits that it has. A report is written and signed with the nonce of its start, a dump on a fatal error (log
entry 46, DEDUCED). A threshold engages and releases as the sensor and PWRCTL have it, outside its dwell; the grant follows the larger of
the request and the thermal floor; the clock follows at the switch point, or skips where none came, and a transition window ends at its
level. A PWRCTL request of 3 changes no request (log entry 47, DEDUCED). The model reads the rules here as log entries 51 and 86 (DEDUCED)
and log entries 53 and 57 (DESIGN CHOICE) say. -/
def Obligations.HostWork : Prop :=
  ∀ (s : State) (len val fn bar off size id cause pa d temp t2 lv : Nat) (wr ok rises : Bool) (data : List Byte) (p : Machine.Piece) (n : Nat)
    (va : Nat) (r : List (Nat × Nat)) (ws : List Nat),
    let boot := s.reg regBootctl
    let mode := boot % 4
    let may := mode = 0 ∨ mode = 3 ∨ (mode = 2 ∧ s.dist.bar2Open = true)
    let image := s.reg regBwin
    let long := boot / 2 ^ 32
    let runs := s.setReg regBootctl (long * 2 ^ 32 + 2)
    let goes := s.setReg regBootctl (len % 2 ^ 32 * 2 ^ 32 + 1)
    let asks := s.setReg regAttreq (slice val 9 43 * 2 ^ 9 + 1)
    let moved := s.setReg regBwin (slice val 30 22 * 2 ^ 30)
    let tables := (List.range 8).foldl (fun u d => feel (u.setReg (regPwrctl d) (ws.getD (3 + d) 0)) d) s
    let configured := { tables with dist := { tables.dist with config := ws.take 3 } }
    let begins (u : State) (d : Nat) : State :=
      let f := u.choose
      f.2.modDie d fun x => { x with opens := [(x.beat, x.tick2)], drift := x.drift + (f.1 % 7 : Nat) }
    let begun := (List.range 8).foldl begins configured
    let first := { begun with grid := { begun.grid with started := true, idle := true } }
    let bar0 := 0x0F0000000000 + off
    let bar2 := image + off
    let v := fn - 2
    let access := exec (.hostBarAccess fn bar off size wr val) s
    let bytes := natToBytes size val
    let part := Nat.min size (0x400 - off)
    let own := regQueue v 0 + off
    let att := s.reg regAttreq
    let rep := slice val 9 43 * 2 ^ 9
    let nonceWords (u : State) := (List.range 6).map fun i => u.reg (regAttnonce + 8 * i)
    let head := reportHead s
    let sig := Config.identitySign (Config.sha384 head)
    let at_ := slice att 9 43 * 2 ^ 9
    let report := head ++ bigBytes 48 sig.1 ++ bigBytes 48 sig.2 ++ List.replicate 32 0
    let dump := dumpImage s cause
    let pw := s.reg (regPwrctl d)
    let req := if val % 4 = 3 then pw % 4 else val % 4
    let x := s.die d
    let now := x.tick2 / 2
    let turn (on : Bool) (ch : Option Nat) (t : Nat) : Bool × Option Nat :=
      if (ch.any fun c => decide (now < c + 800000)) = true then (on, ch)
      else if on = false ∧ t ≤ x.power.temp then (true, some now)
      else if on = true ∧ x.power.temp + 2 < t then (false, some now)
      else (on, ch)
    let t1 := turn x.power.on1 x.power.ch1 (slice pw 8 8)
    let t2nd := turn x.power.on2 x.power.ch2 (slice pw 16 8)
    let tc := turn x.power.onc x.power.chc (slice pw 24 8)
    let felt := s.modDie d fun y => { y with power := { x.power with
      on1 := t1.1, ch1 := t1.2, on2 := t2nd.1, ch2 := t2nd.2, onc := tc.1, chc := tc.2 } }
    let level := Nat.max (pw % 4) (if x.power.on2 then 2 else if x.power.on1 then 1 else 0)
    let set (f : Power → Power) : State := s.modDie d fun y => { y with power := f y.power }
    let switched := x.power.cheaper ≠ none ∧ x.power.window = none
      ∧ ∀ i < 96, s.attached (tkey (96 * d + i) (s.issuing (96 * d + i))) = true →
        (tkey (96 * d + i) (s.issuing (96 * d + i)), x.power.grant) ∈ x.power.switched
    let skips := x.power.window = none ∧ x.power.run ≠ x.power.grant ∧ ∃ t, x.power.cheaper = some t ∧ t + 12800 ≤ now
    let closes (f : Power → Power) : Result :=
      .next (switchPoint (regrant (x.power.held.foldl (fun u h => detach u h.1 h.2.1 h.2.2.1 h.2.2.2)
        (set fun y => { f y with window := none, held := [] })) d) d)
    let bad := setPiece s { p with st := .bad }
    exec .powerUp s = .next { State.reset with agenda := s.agenda, moves := s.moves, free := s.free }
    ∧ (may → exec (.bootctlGo len) s = .next { goes with dist := { goes.dist with bar2Open := false } })
    ∧ (¬ may → exec (.bootctlGo len) s = .next (s.setReg regBootctl (putBits boot 32 32 len)))
    ∧ (mode ≠ 1 → exec .bootVerificationDone s = .next s)
    ∧ (mode = 1 → (∀ m, verifyImage s image long = m + 1 →
        exec .bootVerificationDone s = .next (s.setReg regBootctl (long * 2 ^ 32 + (m + 1) * 16 + 3)))
      ∧ (verifyImage s image long = 0 → exec .bootVerificationDone s =
        let u := { runs with dist := { runs.dist with imageHash := Config.sha384 (imageBytes runs image (long - 96)) } }
        .next (applyConfig u (configWords runs image))))
    ∧ (configured.grid.started = true → applyConfig s ws = { configured with grid := { configured.grid with idle := true, prev := none } })
    ∧ (configured.grid.started = false →
      ((first.die 0).beat % 4096 ≠ 0 → applyConfig s ws = first)
      ∧ ((first.die 0).beat % 4096 = 0 → applyConfig s ws =
        replay first 3 (first.die 0).beat [(first.die 0).ntime, (first.die 0).tick2 / 2, 0]))
    ∧ exec .pcieConventionalReset s = .next (s.setReg regBootctl (putBits boot 0 2 0))
    ∧ (moved.reg regBootctl % 4 = 2 → exec (.bwinWrite val) s = .next { moved with dist := { moved.dist with bar2Open := true } })
    ∧ (moved.reg regBootctl % 4 ≠ 2 → exec (.bwinWrite val) s = .next moved)
    ∧ (fn < 2 → bar = 0 → off + size ≤ 2 ^ 32 →
      (wr = true → region bar0 = .mgmt → access = .next (mgmtPut s bar0 bytes))
      ∧ (wr = false → region bar0 = .mgmt → access = .next (hostReply s fn (some (mgmtBytes s bar0 size)))))
    ∧ (fn < 2 → bar = 2 → off + size ≤ 2 ^ 30 →
      (wr = true → ¬ may → access = .next s)
      ∧ (wr = false ∨ may → region bar2 = .hole → access = .fault (.noSuchAddress bar2))
      ∧ (wr = true → may → region bar2 = .mgmt → access = .next (mgmtPut s bar2 bytes))
      ∧ (wr = false → region bar2 = .mgmt → access = .next (hostReply s fn (some (mgmtBytes s bar2 size))))
      ∧ (wr = true → may → region bar2 ≠ .hole → region bar2 ≠ .mgmt → access = .next (physWrite s bar2 bytes))
      ∧ (wr = false → region bar2 ≠ .hole → region bar2 ≠ .mgmt →
        (∀ u bs, physRead s bar2 size 2 = (u, .ok bs) → access = .next (hostReply u fn (some bs)))
        ∧ (∀ u e, physRead s bar2 size 2 = (u, .error e) → access = .next (hostReply u fn none))))
    ∧ (fn < 2 → bar ≠ 0 → bar ≠ 2 → access = .next s)
    ∧ (2 ≤ fn → vfEnabled s v = false → access = .next s)
    ∧ (2 ≤ fn → vfEnabled s v = true → bar = 0 → off + size ≤ 4096 →
      (wr = true → access = .next (mgmtPut s own (bytes.take part)))
      ∧ (wr = false → access = .next (hostReply s fn (some (mgmtBytes s own part ++ natToBytes (size - part) 0)))))
    ∧ (2 ≤ fn → vfEnabled s v = true → bar = 2 → off + size ≤ 2 ^ 40 →
      (wr = true → access = .next (writeVirtual v (pageSpans off size) bytes s))
      ∧ (wr = false → ∀ u b, readVirtual v (pageSpans off size) s = (u, b) → access = .next (hostReply u fn b)))
    ∧ readVirtual v [] s = (s, some []) ∧ writeVirtual v [] data s = s
    ∧ (∀ u, vfPhys s v va 0 = (u, none) → readVirtual v ((va, n) :: r) s = (u, none))
    ∧ (∀ u a, vfPhys s v va 0 = (u, some a) →
      (∀ w e, physRead u a n 2 = (w, .error e) → readVirtual v ((va, n) :: r) s = (w, none))
      ∧ (∀ w bs, physRead u a n 2 = (w, .ok bs) → readVirtual v ((va, n) :: r) s =
        ((readVirtual v r w).1, (readVirtual v r w).2.map fun l => bs ++ l)))
    ∧ (∀ u, vfPhys s v va 1 = (u, none) → writeVirtual v ((va, n) :: r) data s = writeVirtual v r (data.drop n) u)
    ∧ (∀ u a, vfPhys s v va 1 = (u, some a) →
      writeVirtual v ((va, n) :: r) data s = writeVirtual v r (data.drop n) (physWrite u a (data.take n)))
    ∧ (findPiece s id = none → exec (.hostWindowCompletion id ok data) s = .next s)
    ∧ (findPiece s id = some p → region p.pa ≠ .host ∨ p.st ≠ .sent → exec (.hostWindowCompletion id ok data) s = .next s)
    ∧ (findPiece s id = some p → region p.pa = .host → p.st = .sent →
      (ok = true → exec (.hostWindowCompletion id ok data) s =
        .next (setPiece s { p with st := .served, data := if p.wr then p.data else readBy s p p.pa (data.take p.len) }))
      ∧ (ok = false → p.own.outside = true → exec (.hostWindowCompletion id ok data) s = .next bad)
      ∧ (ok = false → p.own.outside = false → exec (.hostWindowCompletion id ok data) s =
        .next (raiseCause bad (tkey p.core p.bank) 334 0 0)))
    ∧ (bitOf att 0 = true → exec (.attreqWrite val) s = .next s)
    ∧ (bitOf att 0 = false → rep = 0 → exec (.attreqWrite val) s = .next (s.setReg regAttreq 0))
    ∧ (bitOf att 0 = false → rep ≠ 0 → exec (.attreqWrite val) s = .next { asks with
        dist := { asks.dist with nonce := wordsToBytes (nonceWords asks) } })
    ∧ (bitOf att 0 = false → exec .attestationReportDone s = .next s)
    ∧ (bitOf att 0 = true → exec .attestationReportDone s =
      .next (devEvent ((physWrite s at_ report).setReg regAttreq at_) 8 0 0 0))
    ∧ exec (.rlptrWrite val) s = .next (s.setReg regRlptr (s.reg regRlptr % 2 ^ 32))
    ∧ (region (s.reg regDumpbase) = .cap → exec (.fatalErrorDump cause) s =
      .next (devEvent { s with mem := Sparse.paste s.mem (s.reg regDumpbase) dump.2 dump.1.canon } 7 0 cause 0))
    ∧ (region (s.reg regDumpbase) ≠ .cap → exec (.fatalErrorDump cause) s =
      .next (devEvent (physWrite s (s.reg regDumpbase) (dump.1.rdList 0 dump.2)) 7 0 cause 0))
    ∧ (pa = regBootctl ∨ pa = regDevqptr → exec (.registerWrite pa val) s =
      .next (s.setReg pa (putBits (s.reg pa) 32 32 (val % 2 ^ 64 / 2 ^ 32))))
    ∧ (pa ≠ regBootctl → pa ≠ regDevqptr →
      (plainMask s pa = none → exec (.registerWrite pa val) s = .next s)
      ∧ (plainMask s pa = some n → exec (.registerWrite pa val) s = .next (s.setReg pa (Nat.land (val % 2 ^ 64) n))))
    ∧ exec (.pwrctlWrite d val) s = .next (feel (s.setReg (regPwrctl d) (slice val 8 24 * 2 ^ 8 + req)) d)
    ∧ exec (.thermalThresholdChange d temp) s =
      .next (feel (s.modDie d fun y => { y with power := { y.power with temp := min temp 255 } }) d)
    ∧ (tc.1 = true → x.power.onc = false → feel s d = regrant (fenceDie felt d) d)
    ∧ (tc.1 = false ∨ x.power.onc = true → feel s d = regrant felt d)
    ∧ (level = x.power.grant → regrant s d = set fun y => { y with faster := none })
    ∧ (x.power.grant < level → regrant s d = switchPoint (set fun y => { y with
        grant := level, faster := none, cheaper := some now, switched := if x.power.cheaper = none then [] else y.switched }) d)
    ∧ (level < x.power.grant →
      (x.power.cheaper ≠ none → level = x.power.run → regrant s d = switchPoint (set fun y => { y with
        grant := level, faster := none, cheaper := if x.power.skip then x.power.cheaper else none }) d)
      ∧ (x.power.cheaper = none ∨ level ≠ x.power.run → regrant s d = set fun y => { y with faster := some level }))
    ∧ (switched → switchPoint s d = openWindow s d x.power.grant false) ∧ (¬ switched → switchPoint s d = s)
    ∧ openWindow s d lv rises = s.choose.2.modDie d (fun y => { y with power := { y.power with
        window := some (y.tick2 / 2 + 1 + s.choose.1 % 3200, lv), rising := rises, cheaper := if rises then y.power.cheaper else none } })
    ∧ (skips → exec (.clockSkipTimeout d) s = .next (set fun y => { y with run := y.grant, skip := true }))
    ∧ (¬ skips → exec (.clockSkipTimeout d) s = .next s)
    ∧ (x.power.window = none → exec (.transitionWindowEnd d) s = .next s)
    ∧ (x.power.window = some (t2, lv) →
      (now < t2 → exec (.transitionWindowEnd d) s = .next s)
      ∧ (t2 ≤ now → x.power.rising = true → x.power.faster = none → exec (.transitionWindowEnd d) s = closes fun y => { y with rising := false })
      ∧ (t2 ≤ now → x.power.rising = true → x.power.faster ≠ none → exec (.transitionWindowEnd d) s = closes fun y => { y with
          rising := false, run := lv, grant := lv, skip := false, faster := none, cheaper := none })
      ∧ (t2 ≤ now → x.power.rising = false → exec (.transitionWindowEnd d) s = closes fun y => { y with run := lv, skip := false }))

/-! ### The race checker -/

/-- In a gang with det = 1 the ranges rgn of the executing instruction meet those of an instruction in the checker that is not ordered
before it, and one of the two writes (R353). A range is a space, its first and last unit, and whether it is written. -/
def Raced (s : State) (rgn : List (Nat × Nat × Nat × Bool)) : Prop :=
  ∃ g, s.gangOf s.key = some g ∧ g.det = true ∧ s.key ∈ g.live
    ∧ ∃ y ∈ g.race, y.id ∉ g.knows s.key s.cur.eng ∧ ∃ p ∈ rgn, ∃ q ∈ y.rgn ++ y.tgt,
      p.1 = q.1 ∧ p.2.1 ≤ q.2.2.1 ∧ q.2.1 ≤ p.2.2.1 ∧ (p.2.2.2 = true ∨ q.2.2.2 = true)

/-- R148, R207, R239, R241, R250, R255, R296-R303, R353: the determinism race checker of a gang with det = 1. Two instructions race where
neither is ordered before the other, their ranges meet and one of them writes, unless R250 or R255 exempts a pair of updates. The later
one raises the code of its engine and takes no effect; past 1,024 instructions in the checker it raises 383; else it enters the checker
with what is ordered before it. Token waits, fences, barriers, path records, observed beats and timed edges tell an engine what is ordered
before it, and an instruction leaves the checker once every engine of the gang has been told. A race is shown for one instruction of each
engine. The model reads the rules here as log entries 18, 82 and 90 (DEDUCED) say. -/
def Obligations.RaceChecker : Prop :=
  ∀ (s : State) (x z : RaceEnt) (at_ : List (Nat × Point)) (all : Bool) (body : State → State) (k k' n b a d cx sx ex qx ty : Nat)
    (e e' : Eng) (g : Gang) (ids : List Nat) (w : Word) (ws : List Word) (l l' : List RaceEnt),
    let meets (a b : List (Nat × Nat × Nat × Bool)) : Prop :=
      ∃ p ∈ a, ∃ q ∈ b, p.1 = q.1 ∧ p.2.1 ≤ q.2.2.1 ∧ q.2.1 ≤ p.2.2.1 ∧ (p.2.2.2 = true ∨ q.2.2.2 = true)
    let excused := x.exempt ≠ 0 ∧ z.exempt ≠ 0 ∧ (x.task = z.task ∨ (x.exempt = z.exempt ∧ x.exempt < 1000))
    let timed (y : RaceEnt) : Prop := ∃ c p need, y.timed = some (c, p, need) ∧ (∃ q ∈ at_, q.1 = c)
      ∧ ∀ q ∈ at_, q.1 = c → need ≤ s.delta p q.2
    let code := match s.cur.eng with | .s => 16 | .c => 40 | .v => 64 | .m => 112 | .a => 136
    let enters (y : RaceEnt) (v : Gang) : Gang := { v with
      race := v.race ++ [{ y with id := v.raceNext, pre := if all then joinNats y.pre (v.engineIds s.key s.cur.eng) else y.pre }]
      raceNext := v.raceNext + 1 }
    let told (k : Nat) (e : Eng) (ids : List Nat) : State := s.modGang g.id fun v => (v.learn k e ids).trim
    let token (y : RaceEnt) : Prop := y.task = k ∧ y.eng.tag = w.toNat / 2 ^ 32 % 2 ^ 3 ∧ y.seq = w.toNat % 2 ^ 32 ∧ y.seq ≠ 0
    let off := s.gangOf k = none ∨ (s.gangOf k = some g ∧ g.det = false)
    let now := s.cur.ch.waits = [] ∧ s.myEng.latched = none ∧ s.myEng.opn.length < tokenLimit ∧ cBusy s = false
    let va := (cv s a).toNat
    let vd := (cv s d).toNat
    let len := (cv s cx).toNat
    let out := (av s d).toNat
    let i := (av s a).toNat
    let m := i / 2 ^ 32 % 2 ^ 17
    let size := aSize ty
    let easel := (List.range 16).map fun j => (Sparse.rd 0 s.myCore.easel (16 * b + j)).toNat
    (races x z = true ↔ x.id ∉ z.pre ∧ (meets x.rgn (z.rgn ++ z.tgt) ∨ meets x.tgt z.rgn ∨ (meets x.tgt z.tgt ∧ ¬ excused)))
    ∧ (s.gangOf s.key = none → declareAs x at_ all body s = body s)
    ∧ (s.gangOf s.key = some g → g.det = false → declareAs x at_ all body s = body s)
    ∧ (s.gangOf s.key = some g → g.det = true →
      ∃ pre, (∀ j, j ∈ pre ↔ j ∈ g.knows s.key s.cur.eng ∨ ∃ y ∈ g.race, timed y ∧ (j = y.id ∨ j ∈ y.pre))
        ∧ (let here := { x with task := s.key, eng := s.cur.eng, pre := pre }
          ((∃ y ∈ g.race, races y here = true) → declareAs x at_ all body s = trap code s)
          ∧ ((∀ y ∈ g.race, races y here = false) → 1024 ≤ g.race.length → declareAs x at_ all body s = trap 383 s)
          ∧ ((∀ y ∈ g.race, races y here = false) → g.race.length < 1024 →
            declareAs x at_ all body s = body (s.modGang g.id (enters here)))))
    ∧ (∀ j, j ∈ g.engineIds k e ↔ ∃ y ∈ g.race, y.task = k ∧ y.eng = e ∧ (j = y.id ∨ j ∈ y.pre))
    ∧ (∀ j, j ∈ (g.learn k e ids).knows k e ↔ j ∈ g.knows k e ∨ j ∈ ids)
    ∧ (k ≠ k' ∨ e ≠ e' → (g.learn k e ids).knows k' e' = g.knows k' e')
    ∧ (∀ y, y ∈ g.trim.race ↔ y ∈ g.race ∧ ∃ t ∈ g.live, ∃ f, y.id ∉ g.knows t f)
    ∧ ((∀ y ∈ g.race, ¬ token y) → g.tokenIds k w = [])
    ∧ (g.race = l ++ z :: l' → token z → (∀ y ∈ l, ¬ token y) → g.tokenIds k w = z.id :: z.pre)
    ∧ (off → learnTokens s k e ws = s ∧ learnBeat s k e b = s ∧ learnFence s k n = s ∧ meetBarrier s k n = s ∧ learnBarrier s k n = s
      ∧ shareRecord s k n = s ∧ learnRecord s k e n = s)
    ∧ (s.gangOf k = some g → g.det = true →
      learnTokens s k e ws = s.modGang g.id (fun v => (v.learn k e (ws.flatMap (v.tokenIds k))).trim)
      ∧ (∃ ids, learnBeat s k e b = told k e ids ∧ ∀ j, j ∈ ids ↔ ∃ y ∈ g.race, ∃ t, y.beat = some (k / 2, t) ∧ t ≤ b ∧ (j = y.id ∨ j ∈ y.pre))
      ∧ (∃ ids, learnFence s k n = told k .s ids ∧ ∀ j, j ∈ ids ↔ ∃ f ∈ [Eng.c, .v, .m, .a], bitOf n f.tag = true ∧ j ∈ g.engineIds k f)
      ∧ meetBarrier s k n = s.modGang g.id (fun v => { v with met := (k, n, v.knows k .s) :: v.met.take 4096 })
      ∧ (∃ ids, learnBarrier s k n = told k .s ids ∧ ∀ j, j ∈ ids ↔ ∃ y ∈ g.met, y.2.1 = n ∧ j ∈ y.2.2)
      ∧ shareRecord s k n = s.modGang g.id (fun v => { v with shown := (k, n, v.knows k .s) :: v.shown.take 4096 })
      ∧ ((∀ y ∈ g.shown, y.1 = k → y.2.1 ≠ n) → learnRecord s k e n = s)
      ∧ (∀ y, (g.shown.find? fun y => y.1 == k && y.2.1 == n) = some y → learnRecord s k e n = told k e y.2.2))
    ∧ (now → s.cur.eng = .c → vd % 32 = 0 → vd + len ≤ 16384 → va % 32 = 0 → OwnSpad s va len → GoodLength len → cx ≠ 0 →
      Raced s [(4 * s.cur.core + 3, vd / 32, (vd + len - 1) / 32, true), (4 * s.cur.core, va / 32, (va + len - 1) / 32, false)] →
      Moves (.cpl d a cx) s (trap 40 s))
    ∧ (now → s.cur.eng = .v → NoLanding s → inFile s ex 1 = true → (s.myEng.inter = true → inFlight s.me (.entry ex) = false) →
      opqPlaces s.me qx < 4 → Raced s [(4 * s.cur.core + 1, ex, ex, false)] → Moves (.vpf ex qx) s (trap 64 (cycled s)))
    ∧ (now → s.cur.eng = .m → s.me.m.run = none → s.me.m.preempt = false → ∀ f t q, tileWord s = some (f, t, q) →
      nestCause s easel f = none → Raced s (tileRegion s.cur.core easel f) → Moves (.mtile b) s (trap 112 s))
    ∧ (now → s.cur.eng = .a → s.me.a.ins = none → out % size = 0 → OwnSpad s out (size * m) → i / 2 ^ 49 = 0 → 1 ≤ m → m ≤ 65536 → i % 8 = 0 →
      OwnSpad s (i % 2 ^ 32) (8 * m) →
      Raced s [(4 * s.cur.core, i % 2 ^ 32 / 32, (i % 2 ^ 32 + 8 * m - 1) / 32, false),
        (4 * s.cur.core, out / 32, (out + size * m - 1) / 32, true)] →
      Moves (.saRd d a sx ty) s (trap 136 s))

/-! ### The step, the encodings, and memory -/

/-- R23, R24, R28, R31, R277, R390: a step takes the move at the head of the agenda (log entry 4). An engine that goes on with its walk
fetches the halfwords at its program counter and executes what they decode to, in a state that differs by the fetch and by who is
executing; a control instruction that does not end its block is an illegal encoding, and a word that is none raises its cause. An engine
at the end of its body ends the pass, as after an svc that stands last in its block (R289). A block header is executed as one; both its
halfwords are fetched before its checks (log entry 69). After a move of an engine its task settles what follows at once (log entry 60). A
core that is halted moves no engine (R351). Text is fetched in whole units of 32 bytes, with the bytes of the moment at which the unit is
fetched (log entry 49, DEDUCED: R277 permits older ones until isync). An event of the opcode table is executed as it stands. Time passes
on the die that is furthest behind, by half a tick where nothing is due there (log entry 54, DESIGN CHOICE). -/
def Obligations.StepRunsDecoded : Prop :=
  ∀ (s : State) (m : Move) (r : List Move), s.agenda = m :: r →
    let u := { s with agenda := r }
    let half (va : Nat) (bs : List Byte) : Fetched := .ok [bytesToNat ((bs.drop (va % 32)).take 2)]
    (∀ i, m = .event i → layout i = none →
      (wakes i = none → step s = exec i u) ∧ (∀ core bank, wakes i = some (core, bank) → step s = settle core bank (exec i u)))
    ∧ (∀ core bank e, m = .run core bank e → core < 768 → bank < 2 → mayMove u core bank e = false → step s = settle core bank (.next u))
    ∧ (∀ core bank e, let k := tkey core bank
      mayMove u core bank e = true ↔ u.attached k = true ∧ (u.issuing core = bank ∨ (u.task k).stop = true) ∧ (u.core core).halted = false
        ∧ (u.die (core / 96)).fenced = false ∧ (u.die (core / 96)).failed = false ∧ mayIssue u k = true ∧ (u.eng k e).stopped = false
        ∧ ((u.task k).stop = true → (e = .m ∧ (u.task k).m.run ≠ none) ∨ (e = .a ∧ (u.task k).a.ins ≠ none)))
    ∧ (∀ core bank e, m = .run core bank e → Walking u core bank e →
      let k := tkey core bank
      let x := u.eng k e
      let left := (x.body + 2 * x.len - x.pc) / 2
      let here := setCur u core bank e {} 0
      let at_ := (setCur u core bank e {} 2).modEng k e fun x => { x with text := none }
      let leads (z : Result) : Prop := step s = settle core bank z
      (x.phase = .body → left = 0 → leads (.next (passEnd here k e)))
      ∧ (x.phase = .body → left ≠ 0 →
        (∀ v hs, gather here k e x.pc left = (v, .ok hs) →
          (∀ ch i n, decodeIn e left hs = .ok ch i n →
            let w := setCur v core bank e ch n
            ((isControl i = true → n = left) → leads (exec i w)) ∧ (isControl i = true → n ≠ left → leads (.next (trap 0 w))))
          ∧ (∀ src c, decodeIn e left hs = .bad src c → leads (.next (trap (24 * src + c) v)))
          ∧ (decodeIn e left hs = .cut → leads (.next (trap 144 v))))
        ∧ (∀ v f, gather here k e x.pc left = (v, f) → (∀ hs, f ≠ .ok hs) → leads (.next (fetchFailed v f))))
      ∧ (x.phase = .header →
        (∀ v f, textHalf at_ k e x.pc = (v, f) → (∀ hs, f ≠ .ok hs) → leads (.next (fetchFailed v f)))
        ∧ (∀ v h w f, textHalf at_ k e x.pc = (v, .ok [h]) → textHalf v k e (x.pc + 2) = (w, f) → (∀ hs, f ≠ .ok hs) →
          leads (.next (fetchFailed w f)))
        ∧ (∀ v w h l, textHalf at_ k e x.pc = (v, .ok [h]) → textHalf v k e (x.pc + 2) = (w, .ok [l]) →
          (decodeHeader (h * 65536 + l) = none → leads (.next (trap 144 w)))
          ∧ (∀ ty imm lx rl, decodeHeader (h * 65536 + l) = some (.blockHeader ty imm lx rl) →
            (4 < ty ∨ lx = 0 → leads (.next (trap 144 w)))
            ∧ (ty ≤ 4 → lx ≠ 0 → bitOf (h * 65536 + l) 20 = true → leads (.next (trap 145 w)))
            ∧ (ty ≤ 4 → lx ≠ 0 → bitOf (h * 65536 + l) 20 = false → leads (exec (.blockHeader ty imm lx rl) w))))))
    ∧ (∀ e left hs, ((∀ src c, decode e hs ≠ .bad src c) ∨ controlWord e hs = false ∨ hs.length = left → decodeIn e left hs = decode e hs)
      ∧ (∀ src c, decode e hs = .bad src c → controlWord e hs = true → hs.length ≠ left → decodeIn e left hs = .bad src 0))
    ∧ (∀ v, fetchFailed v .walk = v.modMyEng (fun x => { x with wait := .retry }) ∧ fetchFailed v (.cause 149 0) = trap 149 v
      ∧ (∀ c va, c ≠ 149 → fetchFailed v (.cause c va) = trapAt c va v)
      ∧ ∀ pa, fetchFailed v (.bad pa) = machineCheck v v.cur.core 2 (v.stripOf pa) (pa / 32 * 32) (syndrome v (v.stripOf pa)))
    ∧ (∀ v k e va, va % 2 = 1 → textHalf v k e va = (v, .cause 149 0))
    ∧ (∀ v k e va bs, va % 2 = 0 → (v.eng k e).text = some (va / 32, bs) → textHalf v k e va = (v, half va bs))
    ∧ (∀ v k e va w, va % 2 = 0 → (∀ bs, (v.eng k e).text ≠ some (va / 32, bs)) →
      (translate v k (2 + e.tag) va 2 151 = (w, .walk) → textHalf v k e va = (w, .walk))
      ∧ (∀ c, translate v k (2 + e.tag) va 2 151 = (w, .cause c) → textHalf v k e va = (w, .cause c va))
      ∧ (∀ l y, translate v k (2 + e.tag) va 2 151 = (w, .leaf l) →
        (∀ f, textUnit w (l.phys va / 32 * 32) va = (y, .error f) → textHalf v k e va = (y, f))
        ∧ (∀ bs, textUnit w (l.phys va / 32 * 32) va = (y, .ok bs) →
          textHalf v k e va = (y.modEng k e fun x => { x with text := some (va / 32, bs) }, half va bs))))
    ∧ (∀ v k e va l w, va % 2 = 0 → FetchHits v k va l w → (∀ bs, (v.eng k e).text ≠ some (va / 32, bs)) →
        v.Sound (l.phys va / 32 * 32) 32 →
        let bs := (List.range 32).map fun i => v.byteAt (l.phys va / 32 * 32 + i)
        textHalf v k e va = (w.modEng k e fun x => { x with text := some (va / 32, bs) }, half va bs))
    ∧ (∀ v w pa va,
      (region pa = .host ∨ region pa = .peer →
        (∀ bs, outsideRead v pa 32 = (w, some bs) → textUnit v pa va = (w, .ok bs))
        ∧ (outsideRead v pa 32 = (w, none) → textUnit v pa va = (w, .error (.cause 334 va))))
      ∧ (region pa ≠ .host → region pa ≠ .peer →
        (∀ bs, tierRead v pa 32 2 = (w, .ok bs) → textUnit v pa va = (w, .ok bs))
        ∧ (∀ a, tierRead v pa 32 2 = (w, .error a) → isLost w (chanOf a) = true → textUnit v pa va = (w, .error (.cause 303 va)))
        ∧ (∀ a, tierRead v pa 32 2 = (w, .error a) → isLost w (chanOf a) = false → textUnit v pa va = (w, .error (.bad a)))))
    ∧ (∀ d, m = .elapse d → 8 ≤ d ∨ (u.die d).failed = true → step s = .next u)
    ∧ (∀ d, m = .elapse d → d < 8 → (u.die d).failed = false →
      let n := nextDie u d
      (∀ w, dieWork u n = some w → step s = .next w)
      ∧ (dieWork u n = none → ∃ t, step s = .next t ∧ (t.die n).tick2 = (u.die n).tick2 + 1
        ∧ t.mem = u.mem ∧ t.tasks = u.tasks ∧ t.cores = u.cores ∧ t.chans = u.chans ∧ t.mgmt = u.mgmt))
    ∧ (∀ d, (u.die d).fenced = true → nextDie u d = d)
    ∧ (∀ d, (u.die d).fenced = false → (nextDie u d = d ∨ nextDie u d ∈ workingDies u)
      ∧ ((u.die (nextDie u d)).tick2 : Int) - (u.die (nextDie u d)).drift ≤ (u.die d).tick2 - (u.die d).drift
      ∧ ∀ e < 8, (u.die e).fenced = false → (u.die e).failed = false →
        ((u.die (nextDie u d)).tick2 : Int) - (u.die (nextDie u d)).drift ≤ (u.die e).tick2 - (u.die e).drift)

/-- Words written out from the encoding tables of R25, R37, R40, R41 and R45 to R48, one or two of each engine, decode to their
instructions: the prefix, major and operand fields stand apart in each. -/
def Obligations.DecodeWords : Prop :=
  -- S: add d a b is major 0 of SR, with d, a, b in 24:20, 19:15, 14:10
  decode .s [0b1000000000110010, 0b0010100000000000] = .ok {} (.add 3 4 10) 2
  -- the same after a tkw that names tokens 5 and 6
  ∧ decode .s [0b0001000010100110, 0b1000000000110010, 0b0010100000000000] = .ok { waits := [5, 6] } (.add 3 4 10) 3
  -- C: dopen is major 0 of CD, with rl, a, gap and nb in 24:18, 17:14, 13:8 and 7
  ∧ decode .c [0b1000000000010100, 0b1100001010000000] = .ok {} (.dopen 5 3 2 1) 2
  -- V: vadd is major 0 of VA, with d, qa, pa, qb, pb and type in 24:15, 14:12, 11, 10:8, 7 and 2:0
  ∧ decode .v [0b1000000000000011, 0b1010101100000000] = .ok {} (.vadd 7 2 1 3 0 0) 2
  -- the interval unit: jadd is major 40 of VJ, with jd, ja, jb and t in 24:20, 19:15, 14:10 and 5
  ∧ decode .v [0b1101000000010001, 0b0000110000100000] = .ok {} (.jadd 1 2 3 1) 2
  -- M: mtile is major 0 of MX, with sel in 24
  ∧ decode .m [0b1000000100000000, 0] = .ok {} (.mtile 1) 2
  -- A: sa.add is major 0 of AX, with a, b, c and type in 24:21, 20:17, 16:13 and 8:6
  ∧ decode .a [0b1000000000100100, 0b0110000001000000] = .ok {} (.saAdd 1 2 3 1) 2
  -- nop16 has short opcode 0, bw short opcode 7 and its count in 10:0
  ∧ decode .m [0b0000000000000000] = .ok {} .nop16 1
  ∧ decode .c [0b0011100000000011] = .ok {} (.bw 3) 1
  -- a block header has bits 30:25 all ones
  ∧ decodeHeader 0b11111110010000000000100000000011 = some (.blockHeader 1 0 2 3)

/-- R23, R43 to R48, R390: the decoder of an instruction's engine gives that instruction back from the halfwords that the encoder makes,
with every operand at every value, exactly where the instruction is well formed: no bit of an encoding is dropped, and an operand
that its field cannot hold, or that its reference calls illegal or reserved, is refused. -/
def Obligations.DecodeEncode : Prop :=
  (∀ (i : Instr) (l : Layout), layout i = some l → (∀ ty imm lx rl, i ≠ .blockHeader ty imm lx rl) →
    (decode (engineOf i) (encodeHalfwords i) = .ok {} i (l.bits / 16) ↔ wellFormed i = true))
  ∧ (∀ ty imm lx rl, wellFormed (.blockHeader ty imm lx rl) = true →
      decodeHeader (encode (.blockHeader ty imm lx rl)) = some (.blockHeader ty imm lx rl)
      ∧ encodeHalfwords (.blockHeader ty imm lx rl) =
        [encode (.blockHeader ty imm lx rl) / 65536, encode (.blockHeader ty imm lx rl) % 65536])

/-- R52, R53: memory and every row line that overlays it keep their canonical form at every step, whatever the instruction or event. -/
def Obligations.MemoryInvariant : Prop := ∀ s t : State, s.MemWf → step s = .next t → t.MemWf

/-- R66, R70, R86, R140, R313, R330, R356, R366, R367: what power-up leaves, where the manual gives it, and memory in canonical form. -/
def Obligations.PowerUpState : Prop :=
  State.reset.MemWf
  ∧ State.reset.reg regBlim = 1024
  ∧ (∀ v < 384, State.reset.reg (regVfweight v) = 1 ∧ State.reset.reg (regAsinv v) = 2 ^ 63)
  ∧ (∀ d < 8, State.reset.reg (regPwrctl d) = 110 * 2 ^ 24 + 100 * 2 ^ 16 + 95 * 2 ^ 8)
  ∧ State.reset.reg regBwin = 0x010000000000 ∧ State.reset.reg regDumpbase = 0x011FC0000000
  ∧ State.reset.reg regBootctl = 0 ∧ State.reset.grid.idle = true ∧ (∀ b, State.reset.entry b % 2 ^ 13 = 1024)
  ∧ (∀ d, (State.reset.die d).tick2 = 0 ∧ (State.reset.die d).beat = 0)
  ∧ (∀ k, State.reset.attached k = false)
end

