-- ==== Sys2Proof/Laws/Sparse.lean ====
section
/-!
SUPPORT. Reading after writing a sparse map, and the canonical form: every operation over storage keeps it.
-/

namespace Sys2Proof

namespace Sparse

variable {α : Type} {d : α}

theorem rd_del_same (m : Sparse α) (k : Nat) : rd d (del m k) k = d := by
  induction m with
  | nil => rfl
  | cons e r ih =>
    obtain ⟨k', v⟩ := e
    simp only [del]
    split
    · exact ih
    · simp [rd, *]

theorem rd_del_ne (m : Sparse α) {k j : Nat} (h : j ≠ k) : rd d (del m k) j = rd d m j := by
  induction m with
  | nil => rfl
  | cons e r ih =>
    obtain ⟨k', v⟩ := e
    simp only [del]
    split
    · subst k'; simp [rd, ih, Ne.symm h]
    · simp [rd, ih]

theorem rd_ins_same (m : Sparse α) (k : Nat) (v : α) (h : ∀ e ∈ m, e.1 ≠ k) : rd d (ins m k v) k = v := by
  induction m with
  | nil => simp [ins, rd]
  | cons e r ih =>
    obtain ⟨k', w⟩ := e
    simp only [ins]
    split
    · simp [rd]
    · have h' : k' ≠ k := h (k', w) (by simp)
      simp [rd, h', ih fun e he => h e (by simp [he])]

theorem rd_ins_ne (m : Sparse α) {k j : Nat} (v : α) (h : j ≠ k) : rd d (ins m k v) j = rd d m j := by
  induction m with
  | nil => simp [ins, rd, Ne.symm h]
  | cons e r ih =>
    obtain ⟨k', w⟩ := e
    simp only [ins]
    split
    · simp [rd, Ne.symm h]
    · simp [rd, ih]

theorem mem_del (m : Sparse α) (k : Nat) : ∀ e ∈ del m k, e.1 ≠ k ∧ e ∈ m := by
  induction m with
  | nil => simp [del]
  | cons e r ih =>
    obtain ⟨k', v⟩ := e
    simp only [del]
    split
    · intro e he; exact ⟨(ih e he).1, by simp [(ih e he).2]⟩
    · intro e he
      rcases List.mem_cons.1 he with rfl | he
      · simpa using ‹_›
      · exact ⟨(ih e he).1, by simp [(ih e he).2]⟩

/-- A map read at a key after that key was set. -/
@[simp] theorem rd_wr_same [DecidableEq α] (m : Sparse α) (k : Nat) (v : α) : rd d (wr d m k v) k = v := by
  unfold wr
  split
  · subst v; exact rd_del_same m k
  · exact rd_ins_same _ _ _ fun e he => (mem_del m k e he).1

/-- A map read at another key. -/
theorem rd_wr_ne [DecidableEq α] (m : Sparse α) {k j : Nat} (v : α) (h : j ≠ k) : rd d (wr d m k v) j = rd d m j := by
  unfold wr
  split
  · exact rd_del_ne m h
  · rw [rd_ins_ne _ _ h, rd_del_ne m h]

theorem rd_wr [DecidableEq α] (m : Sparse α) (k j : Nat) (v : α) :
    rd d (wr d m k v) j = if j = k then v else rd d m j := by
  split
  · subst j; simp
  · exact rd_wr_ne m v ‹_›

/-! ### The canonical form -/

variable [DecidableEq α]

theorem okFrom_mono {n n' : Nat} (h : n' ≤ n) : ∀ m : Sparse α, okFrom d n m = true → okFrom d n' m = true
  | [], _ => rfl
  | (k, v) :: r, hm => by
    simp only [okFrom, Bool.and_eq_true, decide_eq_true_eq] at hm ⊢
    exact ⟨⟨le_trans h hm.1.1, hm.1.2⟩, hm.2⟩

theorem okFrom_del (k : Nat) : ∀ (m : Sparse α) (n : Nat), okFrom d n m = true → okFrom d n (del m k) = true
  | [], _, _ => rfl
  | (k', v) :: r, n, hm => by
    simp only [okFrom, Bool.and_eq_true, decide_eq_true_eq] at hm
    simp only [del]
    split
    · exact okFrom_mono (Nat.le_succ_of_le hm.1.1) _ (okFrom_del k r _ hm.2)
    · simp only [okFrom, Bool.and_eq_true, decide_eq_true_eq]
      exact ⟨hm.1, okFrom_del k r _ hm.2⟩

theorem okFrom_ins (k : Nat) (v : α) (hv : v ≠ d) : ∀ (m : Sparse α) (n : Nat), n ≤ k → (∀ e ∈ m, e.1 ≠ k) →
    okFrom d n m = true → okFrom d n (ins m k v) = true
  | [], n, hn, _, _ => by simp [ins, okFrom, hn, hv]
  | (k', w) :: r, n, hn, hk, hm => by
    have hm' := hm
    simp only [okFrom, Bool.and_eq_true, decide_eq_true_eq] at hm'
    simp only [ins]
    split
    · simp only [okFrom, Bool.and_eq_true, decide_eq_true_eq]
      exact ⟨⟨hn, hv⟩, ⟨by omega, hm'.1.2⟩, hm'.2⟩
    · have hne : k' ≠ k := hk (k', w) (by simp)
      simp only [okFrom, Bool.and_eq_true, decide_eq_true_eq]
      exact ⟨hm'.1, okFrom_ins k v hv r _ (by omega) (fun e he => hk e (by simp [he])) hm'.2⟩

/-- Setting a key keeps the canonical form. -/
theorem wf_wr (m : Sparse α) (k : Nat) (v : α) (h : wf d m = true) : wf d (wr d m k v) = true := by
  unfold wf wr at *
  split
  · exact okFrom_del k m 0 h
  · exact okFrom_ins k v ‹_› _ 0 (Nat.zero_le _) (fun e he => (mem_del m k e he).1) (okFrom_del k m 0 h)

theorem okFrom_ofFnFrom (f : Nat → α) : ∀ (n k : Nat), okFrom d k (ofFnFrom d f k n) = true
  | 0, _ => rfl
  | n + 1, k => by
    simp only [ofFnFrom]
    split
    · exact okFrom_mono (Nat.le_succ k) _ (okFrom_ofFnFrom f n (k + 1))
    · simp only [okFrom, Bool.and_eq_true, decide_eq_true_eq]
      exact ⟨⟨le_rfl, ‹_›⟩, okFrom_ofFnFrom f n (k + 1)⟩

/-- A map made from a function is in canonical form. -/
theorem wf_ofFn (n : Nat) (f : Nat → α) : wf d (ofFn d n f) = true := okFrom_ofFnFrom f n 0

theorem rd_ofFnFrom (f : Nat → α) : ∀ (n k j : Nat), rd d (ofFnFrom d f k n) j = if k ≤ j ∧ j < k + n then f j else d
  | 0, k, j => by simp [ofFnFrom, rd]
  | n + 1, k, j => by
    simp only [ofFnFrom]
    split
    · rw [rd_ofFnFrom f n (k + 1) j]
      rcases eq_or_ne j k with rfl | hj
      · simp [*]
      · have : (k + 1 ≤ j ∧ j < k + 1 + n) ↔ (k ≤ j ∧ j < k + (n + 1)) := by omega
        exact if_congr this rfl rfl
    · rcases eq_or_ne k j with rfl | hj
      · simp [rd]
      · rw [rd, if_neg hj, rd_ofFnFrom f n (k + 1) j]
        have : (k + 1 ≤ j ∧ j < k + 1 + n) ↔ (k ≤ j ∧ j < k + (n + 1)) := by omega
        exact if_congr this rfl rfl

theorem rd_ofFn (n : Nat) (f : Nat → α) (j : Nat) : rd d (ofFn d n f) j = if j < n then f j else d := by
  simp [ofFn, rd_ofFnFrom]

theorem okFrom_dropTo (a : Nat) : ∀ (m : Sparse α) (n : Nat), okFrom d n m = true → okFrom d (max n a) (dropTo a m) = true
  | [], _, _ => rfl
  | (k, v) :: r, n, hm => by
    simp only [okFrom, Bool.and_eq_true, decide_eq_true_eq] at hm
    simp only [dropTo]
    split
    · exact okFrom_mono (by omega) _ (okFrom_dropTo a r _ hm.2)
    · simp only [okFrom, Bool.and_eq_true, decide_eq_true_eq]
      exact ⟨⟨by omega, hm.1.2⟩, hm.2⟩

/-- Every key of the map is below b. -/
def below (b : Nat) (m : Sparse α) : Prop := ∀ e ∈ m, e.1 < b

theorem below_takeTo (b : Nat) (m : Sparse α) : below b (takeTo b m) := by
  induction m with
  | nil => simp [below, takeTo]
  | cons e r ih =>
    obtain ⟨k, v⟩ := e
    simp only [takeTo]
    split
    · have hk : k < b := ‹_›
      intro e he
      rcases List.mem_cons.1 he with rfl | he
      · exact hk
      · exact ih e he
    · simp [below]

theorem okFrom_takeTo (b : Nat) : ∀ (m : Sparse α) (n : Nat), okFrom d n m = true → okFrom d n (takeTo b m) = true
  | [], _, _ => rfl
  | (k, v) :: r, n, hm => by
    simp only [okFrom, Bool.and_eq_true, decide_eq_true_eq] at hm
    simp only [takeTo]
    split
    · simp only [okFrom, Bool.and_eq_true, decide_eq_true_eq]
      exact ⟨hm.1, okFrom_takeTo b r _ hm.2⟩
    · rfl

theorem okFrom_shift (a : Nat) : ∀ (m : Sparse α) (n : Nat), okFrom d n m = true →
    okFrom d (n + a) (m.map fun e => (e.1 + a, e.2)) = true
  | [], _, _ => rfl
  | (k, v) :: r, n, hm => by
    simp only [okFrom, Bool.and_eq_true, decide_eq_true_eq] at hm
    simp only [List.map_cons, okFrom, Bool.and_eq_true, decide_eq_true_eq]
    refine ⟨⟨by omega, hm.1.2⟩, ?_⟩
    have := okFrom_shift a r (k + 1) hm.2
    rwa [show k + 1 + a = k + a + 1 by omega] at this

theorem okFrom_unshift (a : Nat) : ∀ (m : Sparse α) (n : Nat), okFrom d (n + a) m = true →
    okFrom d n (m.map fun e => (e.1 - a, e.2)) = true
  | [], _, _ => rfl
  | (k, v) :: r, n, hm => by
    simp only [okFrom, Bool.and_eq_true, decide_eq_true_eq] at hm
    simp only [List.map_cons, okFrom, Bool.and_eq_true, decide_eq_true_eq]
    refine ⟨⟨by omega, hm.1.2⟩, ?_⟩
    have : k + 1 = (k - a + 1) + a := by omega
    exact okFrom_unshift a r (k - a + 1) (this ▸ hm.2)

theorem okFrom_append (b : Nat) : ∀ (m r : Sparse α) (n : Nat), n ≤ b → okFrom d n m = true → below b m →
    okFrom d b r = true → okFrom d n (m ++ r) = true
  | [], r, n, hn, _, _, hr => okFrom_mono hn _ hr
  | (k, v) :: m, r, n, hn, hm, hb, hr => by
    simp only [okFrom, Bool.and_eq_true, decide_eq_true_eq] at hm
    simp only [List.cons_append, okFrom, Bool.and_eq_true, decide_eq_true_eq]
    have hk : k < b := hb (k, v) (by simp)
    exact ⟨hm.1, okFrom_append b m r (k + 1) hk hm.2 (fun e he => hb e (by simp [he])) hr⟩

/-- A window of a map is in canonical form. -/
theorem wf_window (m : Sparse α) (a n : Nat) (h : wf d m = true) : wf d (window m a n) = true := by
  unfold wf window at *
  have h1 := okFrom_dropTo a m 0 h
  have h2 := okFrom_takeTo (a + n) _ _ h1
  exact okFrom_unshift a _ 0 (by simpa using h2)

/-- A map with the n keys from a replaced is in canonical form. -/
theorem wf_paste (m w : Sparse α) (a n : Nat) (hm : wf d m = true) (hw : wf d w = true) :
    wf d (paste m a n w) = true := by
  unfold wf paste at *
  have h1 := okFrom_takeTo a m 0 hm
  have h2 := okFrom_shift a _ 0 (okFrom_takeTo n w 0 hw)
  have h3 := okFrom_dropTo (a + n) m 0 hm
  simp only [Nat.zero_add, Nat.zero_max] at h2 h3
  have hb1 : below (a + n) (takeTo a m ++ (takeTo n w).map fun e => (e.1 + a, e.2)) := by
    intro e he
    rcases List.mem_append.1 he with he | he
    · have := below_takeTo a m e he; omega
    · obtain ⟨x, hx, rfl⟩ := List.mem_map.1 he
      have := below_takeTo n w x hx
      simp; omega
  exact okFrom_append (a + n) _ _ 0 (by omega) (okFrom_append a _ _ 0 (by omega) h1 (below_takeTo a m) h2) hb1 h3

/-! ### Reading a pasted map -/

theorem rd_append (m r : Sparse α) (k : Nat) (h : ∀ e ∈ m, e.1 ≠ k) : rd d (m ++ r) k = rd d r k := by
  induction m with
  | nil => rfl
  | cons e m ih =>
    obtain ⟨k', v⟩ := e
    have hk : k' ≠ k := h (k', v) (by simp)
    simp [rd, hk, ih fun e he => h e (by simp [he])]

theorem rd_append_left (m r : Sparse α) (k : Nat) (h : ∀ e ∈ r, e.1 ≠ k) : rd d (m ++ r) k = rd d m k := by
  induction m with
  | nil =>
    induction r with
    | nil => rfl
    | cons e r ih =>
      obtain ⟨k', v⟩ := e
      have hk : k' ≠ k := h (k', v) (by simp)
      simpa [rd, hk] using ih fun e he => h e (by simp [he])
  | cons e m ih => obtain ⟨k', v⟩ := e; simp [rd, ih]

theorem above_okFrom {n : Nat} : ∀ {m : Sparse α}, okFrom d n m = true → ∀ e ∈ m, n ≤ e.1
  | [], _ => by simp
  | (k, v) :: r, h => by
    simp only [okFrom, Bool.and_eq_true, decide_eq_true_eq] at h
    intro e he
    rcases List.mem_cons.1 he with rfl | he
    · exact h.1.1
    · have := above_okFrom h.2 e he; omega

theorem rd_below {m : Sparse α} {n k : Nat} (h : okFrom d n m = true) (hk : k < n) : rd d m k = d := by
  have := rd_append_left (d := d) [] m k fun e he => by have := above_okFrom h e he; omega
  simpa [rd] using this

theorem rd_takeTo (b k : Nat) : ∀ (m : Sparse α) (n : Nat), okFrom d n m = true →
    rd d (takeTo b m) k = if k < b then rd d m k else d
  | [], _, _ => by simp [takeTo, rd]
  | (k', v) :: r, n, h => by
    simp only [okFrom, Bool.and_eq_true, decide_eq_true_eq] at h
    simp only [takeTo]
    split
    · simp only [rd]
      split
      · subst k'; simp [*]
      · exact rd_takeTo b k r _ h.2
    · simp only [rd]
      split
      · rw [if_neg (by omega), rd_below h.2 (by omega)]
      · rfl

theorem rd_dropTo (b k : Nat) : ∀ (m : Sparse α) (n : Nat), okFrom d n m = true →
    rd d (dropTo b m) k = if b ≤ k then rd d m k else d
  | [], _, _ => by simp [dropTo, rd]
  | (k', v) :: r, n, h => by
    simp only [okFrom, Bool.and_eq_true, decide_eq_true_eq] at h
    simp only [dropTo]
    split
    · rw [rd_dropTo b k r _ h.2]
      split
      · rw [rd, if_neg (by omega)]
      · rfl
    · split
      · rfl
      · have : okFrom d k' ((k', v) :: r) = true := by
          simp only [okFrom, Bool.and_eq_true, decide_eq_true_eq]; exact ⟨⟨le_rfl, h.1.2⟩, h.2⟩
        exact rd_below this (by omega)

theorem rd_shift (a k : Nat) : ∀ m : Sparse α, rd d (m.map fun e => (e.1 + a, e.2)) (k + a) = rd d m k
  | [] => rfl
  | (k', v) :: r => by
    simp only [List.map_cons, rd, rd_shift a k r, Nat.add_right_cancel_iff]

/-- A map whose n keys from a were replaced, read at any key. -/
theorem rd_paste (m w : Sparse α) (a n k : Nat) (hm : wf d m = true) (hw : wf d w = true) :
    rd d (paste m a n w) k = if a ≤ k ∧ k < a + n then rd d w (k - a) else rd d m k := by
  unfold paste
  have hb1 := below_takeTo a m
  have hb2 := below_takeTo n w
  have ho := above_okFrom (okFrom_dropTo (a + n) m 0 hm)
  by_cases h1 : k < a
  · rw [rd_append_left, rd_append_left, rd_takeTo a k m 0 hm, if_pos h1, if_neg (by omega)]
    · intro e he; obtain ⟨x, _, rfl⟩ := List.mem_map.1 he; simp; omega
    · intro e he; have := ho e he; omega
  · by_cases h2 : k < a + n
    · rw [rd_append_left, rd_append, if_pos ⟨by omega, h2⟩]
      · obtain ⟨j, rfl⟩ : ∃ j, k = j + a := ⟨k - a, by omega⟩
        rw [rd_shift, rd_takeTo n j w 0 hw, if_pos (by omega), Nat.add_sub_cancel]
      · intro e he; have := hb1 e he; omega
      · intro e he; have := ho e he; omega
    · rw [rd_append, rd_dropTo (a + n) k m 0 hm, if_pos (by omega), if_neg (by omega)]
      intro e he
      rcases List.mem_append.1 he with he | he
      · have := hb1 e he; omega
      · obtain ⟨x, hx, rfl⟩ := List.mem_map.1 he
        have := hb2 x hx
        simp; omega

end Sparse

/-! ### Memories -/

namespace Mem

/-- A byte read after it was written. -/
@[simp] theorem get_set_same (m : Mem) (a : Nat) (b : Byte) : (m.set a b).get a = b := Sparse.rd_wr_same m a b
/-- Another byte keeps its value. -/
theorem get_set_ne (m : Mem) {a x : Nat} (b : Byte) (h : x ≠ a) : (m.set a b).get x = m.get x := Sparse.rd_wr_ne m b h

theorem wf_set (m : Mem) (a : Nat) (b : Byte) (h : m.wf = true) : (m.set a b).wf = true := Sparse.wf_wr m a b h

theorem wf_nil : Mem.wf [] = true := rfl

theorem wf_canon : ∀ m : Mem, m.canon.wf = true
  | [] => rfl
  | c :: r => wf_set _ _ _ (wf_canon r)

@[simp] theorem get_canon : ∀ (m : Mem) (a : Nat), m.canon.get a = m.get a
  | [], _ => rfl
  | c :: r, a => by
    show (Mem.set (canon r) c.1 c.2).get a = Sparse.rd 0#8 (c :: r) a
    by_cases h : c.1 = a
    · subst h; rw [get_set_same]; simp [Sparse.rd]
    · rw [get_set_ne _ _ (Ne.symm h), get_canon r a]; simp [Sparse.rd, h, get]

theorem wf_wrN : ∀ (n : Nat) (m : Mem) (a v : Nat), m.wf = true → (m.wrN a n v).wf = true
  | 0, _, _, _, h => h
  | n + 1, m, a, v, h => wf_wrN n _ _ _ (wf_set m a _ h)

theorem wf_wrList : ∀ (bs : List Byte) (m : Mem) (a : Nat), m.wf = true → (m.wrList a bs).wf = true
  | [], _, _, h => h
  | _ :: r, m, a, h => wf_wrList r _ _ (wf_set m a _ h)

theorem wf_copy : ∀ (n : Nat) (m b : Mem) (a sb : Nat), m.wf = true → (m.copy a b sb n).wf = true
  | 0, _, _, _, _, h => h
  | n + 1, m, b, a, sb, h => wf_copy n _ _ _ _ (wf_set m a _ h)

theorem wf_putWords : ∀ (ws : List Nat) (m : Mem) (o : Nat), m.wf = true → (m.putWords o ws).wf = true
  | [], _, _, h => h
  | _ :: r, m, o, h => wf_putWords r _ _ (wf_wrN 8 m o _ h)

theorem okFrom_ofBytes : ∀ (bs : List Byte) (a : Nat), Sparse.okFrom 0#8 a (ofBytes a bs) = true
  | [], _ => rfl
  | b :: r, a => by
    simp only [ofBytes]
    split
    · exact Sparse.okFrom_mono (Nat.le_succ a) _ (okFrom_ofBytes r (a + 1))
    · simp only [Sparse.okFrom, Bool.and_eq_true, decide_eq_true_eq]
      exact ⟨⟨le_rfl, ‹_›⟩, okFrom_ofBytes r (a + 1)⟩

theorem wf_ofBytes (bs : List Byte) (a : Nat) : (ofBytes a bs).wf = true :=
  Sparse.okFrom_mono (Nat.zero_le a) _ (okFrom_ofBytes bs a)

theorem wf_ofElems (w n : Nat) (f : Nat → Nat) : (ofElems w n f).wf = true := Sparse.wf_ofFn _ _

theorem wf_putMem (m b : Mem) (o n : Nat) (hm : m.wf = true) (hb : b.wf = true) : (m.putMem o n b).wf = true :=
  Sparse.wf_paste m b o n hm hb

theorem wf_window (m : Mem) (a n : Nat) (h : m.wf = true) : Mem.wf (Sparse.window m a n) = true := Sparse.wf_window m a n h

theorem get_wrList_out : ∀ (bs : List Byte) (m : Mem) (a x : Nat), x < a ∨ a + bs.length ≤ x →
    (m.wrList a bs).get x = m.get x
  | [], _, _, _, _ => rfl
  | b :: r, m, a, x, h => by
    have hx : x ≠ a := by simp only [List.length_cons] at h; omega
    rw [wrList, get_wrList_out r _ _ _ (by simp only [List.length_cons] at h; omega), get_set_ne m b hx]

theorem get_wrN_out : ∀ (n : Nat) (m : Mem) (a v x : Nat), x < a ∨ a + n ≤ x → (m.wrN a n v).get x = m.get x
  | 0, _, _, _, _, _ => rfl
  | n + 1, m, a, v, x, h => by
    rw [wrN, get_wrN_out n _ _ _ _ (by omega), get_set_ne m _ (by omega)]

theorem get_wrList_in : ∀ (bs : List Byte) (m : Mem) (a i : Nat), i < bs.length →
    (m.wrList a bs).get (a + i) = bs.getD i 0
  | [], _, _, _, h => absurd h (by simp)
  | b :: r, m, a, 0, _ => by
    rw [wrList, get_wrList_out r _ _ _ (by omega)]; exact get_set_same m a b
  | b :: r, m, a, i + 1, h => by
    rw [wrList, show a + (i + 1) = a + 1 + i by omega, get_wrList_in r _ _ _ (by simpa using h)]
    rfl

/-! ### Numbers of several bytes -/

theorem rdN_congr (m m' : Mem) : ∀ (n a : Nat), (∀ x, a ≤ x → x < a + n → m.get x = m'.get x) → m.rdN a n = m'.rdN a n
  | 0, _, _ => rfl
  | n + 1, a, h => by
    rw [rdN, rdN, h a le_rfl (by omega), rdN_congr m m' n (a + 1) fun x h1 h2 => h x (by omega) (by omega)]

/-- A number read where it was written. -/
theorem rdN_wrN_same : ∀ (n : Nat) (m : Mem) (a v : Nat), (m.wrN a n v).rdN a n = v % 256 ^ n
  | 0, _, _, v => by simp [rdN, Nat.mod_one]
  | n + 1, m, a, v => by
    rw [wrN, rdN, rdN_wrN_same n, get_wrN_out n _ _ _ _ (by omega), get_set_same, BitVec.toNat_ofNat,
      show (256 : Nat) ^ (n + 1) = 256 * 256 ^ n from Nat.pow_succ', Nat.mod_mul]

/-- A number read elsewhere. -/
theorem rdN_wrN_out (m : Mem) (a n v x k : Nat) (h : x + k ≤ a ∨ a + n ≤ x) : (m.wrN a n v).rdN x k = m.rdN x k :=
  rdN_congr _ _ k x fun y h1 h2 => get_wrN_out n m a v y (by omega)

/-- A number read outside the words of a list. -/
theorem rdN_putWords_out : ∀ (ws : List Nat) (m : Mem) (o x k : Nat), x + k ≤ o ∨ o + 8 * ws.length ≤ x →
    (m.putWords o ws).rdN x k = m.rdN x k
  | [], _, _, _, _, _ => rfl
  | w :: r, m, o, x, k, h => by
    simp only [List.length_cons] at h
    rw [putWords, rdN_putWords_out r _ _ _ _ (by omega), rdN_wrN_out m o 8 w x k (by omega)]

/-- Word i of a list read where the list was written. -/
theorem rdN_putWords_in : ∀ (ws : List Nat) (m : Mem) (o i : Nat), i < ws.length →
    (m.putWords o ws).rdN (o + 8 * i) 8 = ws.getD i 0 % 2 ^ 64
  | [], _, _, _, h => absurd h (by simp)
  | w :: r, m, o, 0, _ => by
    rw [putWords, rdN_putWords_out r _ _ _ _ (by omega), Nat.mul_zero, Nat.add_zero, rdN_wrN_same]; rfl
  | w :: r, m, o, i + 1, h => by
    rw [putWords, show o + 8 * (i + 1) = o + 8 + 8 * i by omega, rdN_putWords_in r _ _ _ (by simpa using h)]; rfl

/-- Bytes placed in a memory, read at any address. -/
theorem get_bulk (m b : Mem) (o n x : Nat) (h : m.wf = true) :
    (m.bulk o n b).get x = if o ≤ x ∧ x < o + n then b.get (x - o) else m.get x := by
  rw [← get_canon b]
  exact Sparse.rd_paste m b.canon o n x h (wf_canon b)

theorem wf_bulk (m b : Mem) (o n : Nat) (h : m.wf = true) : (m.bulk o n b).wf = true := wf_putMem m b.canon o n h (wf_canon b)

/-- A number read outside the bytes placed. -/
theorem rdN_bulk_out (m b : Mem) (o n x k : Nat) (h : m.wf = true) (hx : x + k ≤ o ∨ o + n ≤ x) : (m.bulk o n b).rdN x k = m.rdN x k :=
  rdN_congr _ _ k x fun y h1 h2 => by rw [get_bulk _ _ _ _ _ h, if_neg (by omega)]

end Mem

end Sys2Proof
end

