-- ==== Sys2Proof/Laws/State.lean ====
section
/-!
SUPPORT. What each update of the state leaves of each field, and each part read after each update, so that no proof unfolds a
record update.
-/

namespace Sys2Proof.Machine.State

/-! ### setCore -/

@[simp] theorem setCore_mem (s : State) (c : Nat) (x : Core) : (s.setCore c x).mem = s.mem := rfl
@[simp] theorem setCore_mgmt (s : State) (c : Nat) (x : Core) : (s.setCore c x).mgmt = s.mgmt := rfl
@[simp] theorem setCore_tasks (s : State) (c : Nat) (x : Core) : (s.setCore c x).tasks = s.tasks := rfl
@[simp] theorem setCore_chans (s : State) (c : Nat) (x : Core) : (s.setCore c x).chans = s.chans := rfl
@[simp] theorem setCore_stackList (s : State) (c : Nat) (x : Core) : (s.setCore c x).stackList = s.stackList := rfl
@[simp] theorem setCore_dies (s : State) (c : Nat) (x : Core) : (s.setCore c x).dies = s.dies := rfl
@[simp] theorem setCore_grid (s : State) (c : Nat) (x : Core) : (s.setCore c x).grid = s.grid := rfl
@[simp] theorem setCore_dist (s : State) (c : Nat) (x : Core) : (s.setCore c x).dist = s.dist := rfl
@[simp] theorem setCore_pieces (s : State) (c : Nat) (x : Core) : (s.setCore c x).pieces = s.pieces := rfl
@[simp] theorem setCore_pieceNext (s : State) (c : Nat) (x : Core) : (s.setCore c x).pieceNext = s.pieceNext := rfl
@[simp] theorem setCore_counters (s : State) (c : Nat) (x : Core) : (s.setCore c x).counters = s.counters := rfl
@[simp] theorem setCore_cellFaults (s : State) (c : Nat) (x : Core) : (s.setCore c x).cellFaults = s.cellFaults := rfl
@[simp] theorem setCore_agenda (s : State) (c : Nat) (x : Core) : (s.setCore c x).agenda = s.agenda := rfl
@[simp] theorem setCore_moves (s : State) (c : Nat) (x : Core) : (s.setCore c x).moves = s.moves := rfl
@[simp] theorem setCore_free (s : State) (c : Nat) (x : Core) : (s.setCore c x).free = s.free := rfl
@[simp] theorem setCore_cur (s : State) (c : Nat) (x : Core) : (s.setCore c x).cur = s.cur := rfl
@[simp] theorem setCore_task (s : State) (c : Nat) (x : Core) (i : Nat) : (s.setCore c x).task i = s.task i := rfl
@[simp] theorem setCore_chan (s : State) (c : Nat) (x : Core) (i : Nat) : (s.setCore c x).chan i = s.chan i := rfl
@[simp] theorem setCore_stack (s : State) (c : Nat) (x : Core) (i : Nat) : (s.setCore c x).stack i = s.stack i := rfl
@[simp] theorem setCore_die (s : State) (c : Nat) (x : Core) (i : Nat) : (s.setCore c x).die i = s.die i := rfl
@[simp] theorem setCore_reg (s : State) (c : Nat) (x : Core) (i : Nat) : (s.setCore c x).reg i = s.reg i := rfl
@[simp] theorem setCore_gang (s : State) (c : Nat) (x : Core) (i : Nat) : (s.setCore c x).gang i = s.gang i := rfl
@[simp] theorem setCore_key (s : State) (c : Nat) (x : Core)  : (s.setCore c x).key  = s.key  := rfl
@[simp] theorem setCore_eng (s : State) (c : Nat) (x : Core) (i : Nat) (j : Eng) : (s.setCore c x).eng i j = s.eng i j := rfl
@[simp] theorem setCore_gangOf (s : State) (c : Nat) (x : Core) (i : Nat) : (s.setCore c x).gangOf i = s.gangOf i := rfl

/-! ### modCore -/

@[simp] theorem modCore_mem (s : State) (c : Nat) (f : Core → Core) : (s.modCore c f).mem = s.mem := rfl
@[simp] theorem modCore_mgmt (s : State) (c : Nat) (f : Core → Core) : (s.modCore c f).mgmt = s.mgmt := rfl
@[simp] theorem modCore_tasks (s : State) (c : Nat) (f : Core → Core) : (s.modCore c f).tasks = s.tasks := rfl
@[simp] theorem modCore_chans (s : State) (c : Nat) (f : Core → Core) : (s.modCore c f).chans = s.chans := rfl
@[simp] theorem modCore_stackList (s : State) (c : Nat) (f : Core → Core) : (s.modCore c f).stackList = s.stackList := rfl
@[simp] theorem modCore_dies (s : State) (c : Nat) (f : Core → Core) : (s.modCore c f).dies = s.dies := rfl
@[simp] theorem modCore_grid (s : State) (c : Nat) (f : Core → Core) : (s.modCore c f).grid = s.grid := rfl
@[simp] theorem modCore_dist (s : State) (c : Nat) (f : Core → Core) : (s.modCore c f).dist = s.dist := rfl
@[simp] theorem modCore_pieces (s : State) (c : Nat) (f : Core → Core) : (s.modCore c f).pieces = s.pieces := rfl
@[simp] theorem modCore_pieceNext (s : State) (c : Nat) (f : Core → Core) : (s.modCore c f).pieceNext = s.pieceNext := rfl
@[simp] theorem modCore_counters (s : State) (c : Nat) (f : Core → Core) : (s.modCore c f).counters = s.counters := rfl
@[simp] theorem modCore_cellFaults (s : State) (c : Nat) (f : Core → Core) : (s.modCore c f).cellFaults = s.cellFaults := rfl
@[simp] theorem modCore_agenda (s : State) (c : Nat) (f : Core → Core) : (s.modCore c f).agenda = s.agenda := rfl
@[simp] theorem modCore_moves (s : State) (c : Nat) (f : Core → Core) : (s.modCore c f).moves = s.moves := rfl
@[simp] theorem modCore_free (s : State) (c : Nat) (f : Core → Core) : (s.modCore c f).free = s.free := rfl
@[simp] theorem modCore_cur (s : State) (c : Nat) (f : Core → Core) : (s.modCore c f).cur = s.cur := rfl
@[simp] theorem modCore_task (s : State) (c : Nat) (f : Core → Core) (i : Nat) : (s.modCore c f).task i = s.task i := rfl
@[simp] theorem modCore_chan (s : State) (c : Nat) (f : Core → Core) (i : Nat) : (s.modCore c f).chan i = s.chan i := rfl
@[simp] theorem modCore_stack (s : State) (c : Nat) (f : Core → Core) (i : Nat) : (s.modCore c f).stack i = s.stack i := rfl
@[simp] theorem modCore_die (s : State) (c : Nat) (f : Core → Core) (i : Nat) : (s.modCore c f).die i = s.die i := rfl
@[simp] theorem modCore_reg (s : State) (c : Nat) (f : Core → Core) (i : Nat) : (s.modCore c f).reg i = s.reg i := rfl
@[simp] theorem modCore_gang (s : State) (c : Nat) (f : Core → Core) (i : Nat) : (s.modCore c f).gang i = s.gang i := rfl
@[simp] theorem modCore_key (s : State) (c : Nat) (f : Core → Core)  : (s.modCore c f).key  = s.key  := rfl
@[simp] theorem modCore_eng (s : State) (c : Nat) (f : Core → Core) (i : Nat) (j : Eng) : (s.modCore c f).eng i j = s.eng i j := rfl
@[simp] theorem modCore_gangOf (s : State) (c : Nat) (f : Core → Core) (i : Nat) : (s.modCore c f).gangOf i = s.gangOf i := rfl

/-! ### setTask -/

@[simp] theorem setTask_mem (s : State) (k : Nat) (x : Task) : (s.setTask k x).mem = s.mem := rfl
@[simp] theorem setTask_mgmt (s : State) (k : Nat) (x : Task) : (s.setTask k x).mgmt = s.mgmt := rfl
@[simp] theorem setTask_cores (s : State) (k : Nat) (x : Task) : (s.setTask k x).cores = s.cores := rfl
@[simp] theorem setTask_chans (s : State) (k : Nat) (x : Task) : (s.setTask k x).chans = s.chans := rfl
@[simp] theorem setTask_stackList (s : State) (k : Nat) (x : Task) : (s.setTask k x).stackList = s.stackList := rfl
@[simp] theorem setTask_dies (s : State) (k : Nat) (x : Task) : (s.setTask k x).dies = s.dies := rfl
@[simp] theorem setTask_grid (s : State) (k : Nat) (x : Task) : (s.setTask k x).grid = s.grid := rfl
@[simp] theorem setTask_dist (s : State) (k : Nat) (x : Task) : (s.setTask k x).dist = s.dist := rfl
@[simp] theorem setTask_pieces (s : State) (k : Nat) (x : Task) : (s.setTask k x).pieces = s.pieces := rfl
@[simp] theorem setTask_pieceNext (s : State) (k : Nat) (x : Task) : (s.setTask k x).pieceNext = s.pieceNext := rfl
@[simp] theorem setTask_counters (s : State) (k : Nat) (x : Task) : (s.setTask k x).counters = s.counters := rfl
@[simp] theorem setTask_cellFaults (s : State) (k : Nat) (x : Task) : (s.setTask k x).cellFaults = s.cellFaults := rfl
@[simp] theorem setTask_agenda (s : State) (k : Nat) (x : Task) : (s.setTask k x).agenda = s.agenda := rfl
@[simp] theorem setTask_moves (s : State) (k : Nat) (x : Task) : (s.setTask k x).moves = s.moves := rfl
@[simp] theorem setTask_free (s : State) (k : Nat) (x : Task) : (s.setTask k x).free = s.free := rfl
@[simp] theorem setTask_cur (s : State) (k : Nat) (x : Task) : (s.setTask k x).cur = s.cur := rfl
@[simp] theorem setTask_core (s : State) (k : Nat) (x : Task) (i : Nat) : (s.setTask k x).core i = s.core i := rfl
@[simp] theorem setTask_chan (s : State) (k : Nat) (x : Task) (i : Nat) : (s.setTask k x).chan i = s.chan i := rfl
@[simp] theorem setTask_stack (s : State) (k : Nat) (x : Task) (i : Nat) : (s.setTask k x).stack i = s.stack i := rfl
@[simp] theorem setTask_die (s : State) (k : Nat) (x : Task) (i : Nat) : (s.setTask k x).die i = s.die i := rfl
@[simp] theorem setTask_reg (s : State) (k : Nat) (x : Task) (i : Nat) : (s.setTask k x).reg i = s.reg i := rfl
@[simp] theorem setTask_gang (s : State) (k : Nat) (x : Task) (i : Nat) : (s.setTask k x).gang i = s.gang i := rfl
@[simp] theorem setTask_key (s : State) (k : Nat) (x : Task)  : (s.setTask k x).key  = s.key  := rfl

/-! ### modTask -/

@[simp] theorem modTask_mem (s : State) (k : Nat) (f : Task → Task) : (s.modTask k f).mem = s.mem := rfl
@[simp] theorem modTask_mgmt (s : State) (k : Nat) (f : Task → Task) : (s.modTask k f).mgmt = s.mgmt := rfl
@[simp] theorem modTask_cores (s : State) (k : Nat) (f : Task → Task) : (s.modTask k f).cores = s.cores := rfl
@[simp] theorem modTask_chans (s : State) (k : Nat) (f : Task → Task) : (s.modTask k f).chans = s.chans := rfl
@[simp] theorem modTask_stackList (s : State) (k : Nat) (f : Task → Task) : (s.modTask k f).stackList = s.stackList := rfl
@[simp] theorem modTask_dies (s : State) (k : Nat) (f : Task → Task) : (s.modTask k f).dies = s.dies := rfl
@[simp] theorem modTask_grid (s : State) (k : Nat) (f : Task → Task) : (s.modTask k f).grid = s.grid := rfl
@[simp] theorem modTask_dist (s : State) (k : Nat) (f : Task → Task) : (s.modTask k f).dist = s.dist := rfl
@[simp] theorem modTask_pieces (s : State) (k : Nat) (f : Task → Task) : (s.modTask k f).pieces = s.pieces := rfl
@[simp] theorem modTask_pieceNext (s : State) (k : Nat) (f : Task → Task) : (s.modTask k f).pieceNext = s.pieceNext := rfl
@[simp] theorem modTask_counters (s : State) (k : Nat) (f : Task → Task) : (s.modTask k f).counters = s.counters := rfl
@[simp] theorem modTask_cellFaults (s : State) (k : Nat) (f : Task → Task) : (s.modTask k f).cellFaults = s.cellFaults := rfl
@[simp] theorem modTask_agenda (s : State) (k : Nat) (f : Task → Task) : (s.modTask k f).agenda = s.agenda := rfl
@[simp] theorem modTask_moves (s : State) (k : Nat) (f : Task → Task) : (s.modTask k f).moves = s.moves := rfl
@[simp] theorem modTask_free (s : State) (k : Nat) (f : Task → Task) : (s.modTask k f).free = s.free := rfl
@[simp] theorem modTask_cur (s : State) (k : Nat) (f : Task → Task) : (s.modTask k f).cur = s.cur := rfl
@[simp] theorem modTask_core (s : State) (k : Nat) (f : Task → Task) (i : Nat) : (s.modTask k f).core i = s.core i := rfl
@[simp] theorem modTask_chan (s : State) (k : Nat) (f : Task → Task) (i : Nat) : (s.modTask k f).chan i = s.chan i := rfl
@[simp] theorem modTask_stack (s : State) (k : Nat) (f : Task → Task) (i : Nat) : (s.modTask k f).stack i = s.stack i := rfl
@[simp] theorem modTask_die (s : State) (k : Nat) (f : Task → Task) (i : Nat) : (s.modTask k f).die i = s.die i := rfl
@[simp] theorem modTask_reg (s : State) (k : Nat) (f : Task → Task) (i : Nat) : (s.modTask k f).reg i = s.reg i := rfl
@[simp] theorem modTask_gang (s : State) (k : Nat) (f : Task → Task) (i : Nat) : (s.modTask k f).gang i = s.gang i := rfl
@[simp] theorem modTask_key (s : State) (k : Nat) (f : Task → Task)  : (s.modTask k f).key  = s.key  := rfl

/-! ### setChan -/

@[simp] theorem setChan_mem (s : State) (p : Nat) (x : Chan) : (s.setChan p x).mem = s.mem := rfl
@[simp] theorem setChan_mgmt (s : State) (p : Nat) (x : Chan) : (s.setChan p x).mgmt = s.mgmt := rfl
@[simp] theorem setChan_cores (s : State) (p : Nat) (x : Chan) : (s.setChan p x).cores = s.cores := rfl
@[simp] theorem setChan_tasks (s : State) (p : Nat) (x : Chan) : (s.setChan p x).tasks = s.tasks := rfl
@[simp] theorem setChan_stackList (s : State) (p : Nat) (x : Chan) : (s.setChan p x).stackList = s.stackList := rfl
@[simp] theorem setChan_dies (s : State) (p : Nat) (x : Chan) : (s.setChan p x).dies = s.dies := rfl
@[simp] theorem setChan_grid (s : State) (p : Nat) (x : Chan) : (s.setChan p x).grid = s.grid := rfl
@[simp] theorem setChan_dist (s : State) (p : Nat) (x : Chan) : (s.setChan p x).dist = s.dist := rfl
@[simp] theorem setChan_pieces (s : State) (p : Nat) (x : Chan) : (s.setChan p x).pieces = s.pieces := rfl
@[simp] theorem setChan_pieceNext (s : State) (p : Nat) (x : Chan) : (s.setChan p x).pieceNext = s.pieceNext := rfl
@[simp] theorem setChan_counters (s : State) (p : Nat) (x : Chan) : (s.setChan p x).counters = s.counters := rfl
@[simp] theorem setChan_cellFaults (s : State) (p : Nat) (x : Chan) : (s.setChan p x).cellFaults = s.cellFaults := rfl
@[simp] theorem setChan_agenda (s : State) (p : Nat) (x : Chan) : (s.setChan p x).agenda = s.agenda := rfl
@[simp] theorem setChan_moves (s : State) (p : Nat) (x : Chan) : (s.setChan p x).moves = s.moves := rfl
@[simp] theorem setChan_free (s : State) (p : Nat) (x : Chan) : (s.setChan p x).free = s.free := rfl
@[simp] theorem setChan_cur (s : State) (p : Nat) (x : Chan) : (s.setChan p x).cur = s.cur := rfl
@[simp] theorem setChan_core (s : State) (p : Nat) (x : Chan) (i : Nat) : (s.setChan p x).core i = s.core i := rfl
@[simp] theorem setChan_task (s : State) (p : Nat) (x : Chan) (i : Nat) : (s.setChan p x).task i = s.task i := rfl
@[simp] theorem setChan_stack (s : State) (p : Nat) (x : Chan) (i : Nat) : (s.setChan p x).stack i = s.stack i := rfl
@[simp] theorem setChan_die (s : State) (p : Nat) (x : Chan) (i : Nat) : (s.setChan p x).die i = s.die i := rfl
@[simp] theorem setChan_reg (s : State) (p : Nat) (x : Chan) (i : Nat) : (s.setChan p x).reg i = s.reg i := rfl
@[simp] theorem setChan_gang (s : State) (p : Nat) (x : Chan) (i : Nat) : (s.setChan p x).gang i = s.gang i := rfl
@[simp] theorem setChan_key (s : State) (p : Nat) (x : Chan)  : (s.setChan p x).key  = s.key  := rfl
@[simp] theorem setChan_eng (s : State) (p : Nat) (x : Chan) (i : Nat) (j : Eng) : (s.setChan p x).eng i j = s.eng i j := rfl
@[simp] theorem setChan_gangOf (s : State) (p : Nat) (x : Chan) (i : Nat) : (s.setChan p x).gangOf i = s.gangOf i := rfl

/-! ### modChan -/

@[simp] theorem modChan_mem (s : State) (p : Nat) (f : Chan → Chan) : (s.modChan p f).mem = s.mem := rfl
@[simp] theorem modChan_mgmt (s : State) (p : Nat) (f : Chan → Chan) : (s.modChan p f).mgmt = s.mgmt := rfl
@[simp] theorem modChan_cores (s : State) (p : Nat) (f : Chan → Chan) : (s.modChan p f).cores = s.cores := rfl
@[simp] theorem modChan_tasks (s : State) (p : Nat) (f : Chan → Chan) : (s.modChan p f).tasks = s.tasks := rfl
@[simp] theorem modChan_stackList (s : State) (p : Nat) (f : Chan → Chan) : (s.modChan p f).stackList = s.stackList := rfl
@[simp] theorem modChan_dies (s : State) (p : Nat) (f : Chan → Chan) : (s.modChan p f).dies = s.dies := rfl
@[simp] theorem modChan_grid (s : State) (p : Nat) (f : Chan → Chan) : (s.modChan p f).grid = s.grid := rfl
@[simp] theorem modChan_dist (s : State) (p : Nat) (f : Chan → Chan) : (s.modChan p f).dist = s.dist := rfl
@[simp] theorem modChan_pieces (s : State) (p : Nat) (f : Chan → Chan) : (s.modChan p f).pieces = s.pieces := rfl
@[simp] theorem modChan_pieceNext (s : State) (p : Nat) (f : Chan → Chan) : (s.modChan p f).pieceNext = s.pieceNext := rfl
@[simp] theorem modChan_counters (s : State) (p : Nat) (f : Chan → Chan) : (s.modChan p f).counters = s.counters := rfl
@[simp] theorem modChan_cellFaults (s : State) (p : Nat) (f : Chan → Chan) : (s.modChan p f).cellFaults = s.cellFaults := rfl
@[simp] theorem modChan_agenda (s : State) (p : Nat) (f : Chan → Chan) : (s.modChan p f).agenda = s.agenda := rfl
@[simp] theorem modChan_moves (s : State) (p : Nat) (f : Chan → Chan) : (s.modChan p f).moves = s.moves := rfl
@[simp] theorem modChan_free (s : State) (p : Nat) (f : Chan → Chan) : (s.modChan p f).free = s.free := rfl
@[simp] theorem modChan_cur (s : State) (p : Nat) (f : Chan → Chan) : (s.modChan p f).cur = s.cur := rfl
@[simp] theorem modChan_core (s : State) (p : Nat) (f : Chan → Chan) (i : Nat) : (s.modChan p f).core i = s.core i := rfl
@[simp] theorem modChan_task (s : State) (p : Nat) (f : Chan → Chan) (i : Nat) : (s.modChan p f).task i = s.task i := rfl
@[simp] theorem modChan_stack (s : State) (p : Nat) (f : Chan → Chan) (i : Nat) : (s.modChan p f).stack i = s.stack i := rfl
@[simp] theorem modChan_die (s : State) (p : Nat) (f : Chan → Chan) (i : Nat) : (s.modChan p f).die i = s.die i := rfl
@[simp] theorem modChan_reg (s : State) (p : Nat) (f : Chan → Chan) (i : Nat) : (s.modChan p f).reg i = s.reg i := rfl
@[simp] theorem modChan_gang (s : State) (p : Nat) (f : Chan → Chan) (i : Nat) : (s.modChan p f).gang i = s.gang i := rfl
@[simp] theorem modChan_key (s : State) (p : Nat) (f : Chan → Chan)  : (s.modChan p f).key  = s.key  := rfl
@[simp] theorem modChan_eng (s : State) (p : Nat) (f : Chan → Chan) (i : Nat) (j : Eng) : (s.modChan p f).eng i j = s.eng i j := rfl
@[simp] theorem modChan_gangOf (s : State) (p : Nat) (f : Chan → Chan) (i : Nat) : (s.modChan p f).gangOf i = s.gangOf i := rfl

/-! ### setStack -/

@[simp] theorem setStack_mem (s : State) (n : Nat) (x : Stack) : (s.setStack n x).mem = s.mem := rfl
@[simp] theorem setStack_mgmt (s : State) (n : Nat) (x : Stack) : (s.setStack n x).mgmt = s.mgmt := rfl
@[simp] theorem setStack_cores (s : State) (n : Nat) (x : Stack) : (s.setStack n x).cores = s.cores := rfl
@[simp] theorem setStack_tasks (s : State) (n : Nat) (x : Stack) : (s.setStack n x).tasks = s.tasks := rfl
@[simp] theorem setStack_chans (s : State) (n : Nat) (x : Stack) : (s.setStack n x).chans = s.chans := rfl
@[simp] theorem setStack_dies (s : State) (n : Nat) (x : Stack) : (s.setStack n x).dies = s.dies := rfl
@[simp] theorem setStack_grid (s : State) (n : Nat) (x : Stack) : (s.setStack n x).grid = s.grid := rfl
@[simp] theorem setStack_dist (s : State) (n : Nat) (x : Stack) : (s.setStack n x).dist = s.dist := rfl
@[simp] theorem setStack_pieces (s : State) (n : Nat) (x : Stack) : (s.setStack n x).pieces = s.pieces := rfl
@[simp] theorem setStack_pieceNext (s : State) (n : Nat) (x : Stack) : (s.setStack n x).pieceNext = s.pieceNext := rfl
@[simp] theorem setStack_counters (s : State) (n : Nat) (x : Stack) : (s.setStack n x).counters = s.counters := rfl
@[simp] theorem setStack_cellFaults (s : State) (n : Nat) (x : Stack) : (s.setStack n x).cellFaults = s.cellFaults := rfl
@[simp] theorem setStack_agenda (s : State) (n : Nat) (x : Stack) : (s.setStack n x).agenda = s.agenda := rfl
@[simp] theorem setStack_moves (s : State) (n : Nat) (x : Stack) : (s.setStack n x).moves = s.moves := rfl
@[simp] theorem setStack_free (s : State) (n : Nat) (x : Stack) : (s.setStack n x).free = s.free := rfl
@[simp] theorem setStack_cur (s : State) (n : Nat) (x : Stack) : (s.setStack n x).cur = s.cur := rfl
@[simp] theorem setStack_core (s : State) (n : Nat) (x : Stack) (i : Nat) : (s.setStack n x).core i = s.core i := rfl
@[simp] theorem setStack_task (s : State) (n : Nat) (x : Stack) (i : Nat) : (s.setStack n x).task i = s.task i := rfl
@[simp] theorem setStack_chan (s : State) (n : Nat) (x : Stack) (i : Nat) : (s.setStack n x).chan i = s.chan i := rfl
@[simp] theorem setStack_die (s : State) (n : Nat) (x : Stack) (i : Nat) : (s.setStack n x).die i = s.die i := rfl
@[simp] theorem setStack_reg (s : State) (n : Nat) (x : Stack) (i : Nat) : (s.setStack n x).reg i = s.reg i := rfl
@[simp] theorem setStack_gang (s : State) (n : Nat) (x : Stack) (i : Nat) : (s.setStack n x).gang i = s.gang i := rfl
@[simp] theorem setStack_key (s : State) (n : Nat) (x : Stack)  : (s.setStack n x).key  = s.key  := rfl
@[simp] theorem setStack_eng (s : State) (n : Nat) (x : Stack) (i : Nat) (j : Eng) : (s.setStack n x).eng i j = s.eng i j := rfl
@[simp] theorem setStack_gangOf (s : State) (n : Nat) (x : Stack) (i : Nat) : (s.setStack n x).gangOf i = s.gangOf i := rfl

/-! ### modStack -/

@[simp] theorem modStack_mem (s : State) (n : Nat) (f : Stack → Stack) : (s.modStack n f).mem = s.mem := rfl
@[simp] theorem modStack_mgmt (s : State) (n : Nat) (f : Stack → Stack) : (s.modStack n f).mgmt = s.mgmt := rfl
@[simp] theorem modStack_cores (s : State) (n : Nat) (f : Stack → Stack) : (s.modStack n f).cores = s.cores := rfl
@[simp] theorem modStack_tasks (s : State) (n : Nat) (f : Stack → Stack) : (s.modStack n f).tasks = s.tasks := rfl
@[simp] theorem modStack_chans (s : State) (n : Nat) (f : Stack → Stack) : (s.modStack n f).chans = s.chans := rfl
@[simp] theorem modStack_dies (s : State) (n : Nat) (f : Stack → Stack) : (s.modStack n f).dies = s.dies := rfl
@[simp] theorem modStack_grid (s : State) (n : Nat) (f : Stack → Stack) : (s.modStack n f).grid = s.grid := rfl
@[simp] theorem modStack_dist (s : State) (n : Nat) (f : Stack → Stack) : (s.modStack n f).dist = s.dist := rfl
@[simp] theorem modStack_pieces (s : State) (n : Nat) (f : Stack → Stack) : (s.modStack n f).pieces = s.pieces := rfl
@[simp] theorem modStack_pieceNext (s : State) (n : Nat) (f : Stack → Stack) : (s.modStack n f).pieceNext = s.pieceNext := rfl
@[simp] theorem modStack_counters (s : State) (n : Nat) (f : Stack → Stack) : (s.modStack n f).counters = s.counters := rfl
@[simp] theorem modStack_cellFaults (s : State) (n : Nat) (f : Stack → Stack) : (s.modStack n f).cellFaults = s.cellFaults := rfl
@[simp] theorem modStack_agenda (s : State) (n : Nat) (f : Stack → Stack) : (s.modStack n f).agenda = s.agenda := rfl
@[simp] theorem modStack_moves (s : State) (n : Nat) (f : Stack → Stack) : (s.modStack n f).moves = s.moves := rfl
@[simp] theorem modStack_free (s : State) (n : Nat) (f : Stack → Stack) : (s.modStack n f).free = s.free := rfl
@[simp] theorem modStack_cur (s : State) (n : Nat) (f : Stack → Stack) : (s.modStack n f).cur = s.cur := rfl
@[simp] theorem modStack_core (s : State) (n : Nat) (f : Stack → Stack) (i : Nat) : (s.modStack n f).core i = s.core i := rfl
@[simp] theorem modStack_task (s : State) (n : Nat) (f : Stack → Stack) (i : Nat) : (s.modStack n f).task i = s.task i := rfl
@[simp] theorem modStack_chan (s : State) (n : Nat) (f : Stack → Stack) (i : Nat) : (s.modStack n f).chan i = s.chan i := rfl
@[simp] theorem modStack_die (s : State) (n : Nat) (f : Stack → Stack) (i : Nat) : (s.modStack n f).die i = s.die i := rfl
@[simp] theorem modStack_reg (s : State) (n : Nat) (f : Stack → Stack) (i : Nat) : (s.modStack n f).reg i = s.reg i := rfl
@[simp] theorem modStack_gang (s : State) (n : Nat) (f : Stack → Stack) (i : Nat) : (s.modStack n f).gang i = s.gang i := rfl
@[simp] theorem modStack_key (s : State) (n : Nat) (f : Stack → Stack)  : (s.modStack n f).key  = s.key  := rfl
@[simp] theorem modStack_eng (s : State) (n : Nat) (f : Stack → Stack) (i : Nat) (j : Eng) : (s.modStack n f).eng i j = s.eng i j := rfl
@[simp] theorem modStack_gangOf (s : State) (n : Nat) (f : Stack → Stack) (i : Nat) : (s.modStack n f).gangOf i = s.gangOf i := rfl

/-! ### setDie -/

@[simp] theorem setDie_mem (s : State) (d : Nat) (x : Die) : (s.setDie d x).mem = s.mem := rfl
@[simp] theorem setDie_mgmt (s : State) (d : Nat) (x : Die) : (s.setDie d x).mgmt = s.mgmt := rfl
@[simp] theorem setDie_cores (s : State) (d : Nat) (x : Die) : (s.setDie d x).cores = s.cores := rfl
@[simp] theorem setDie_tasks (s : State) (d : Nat) (x : Die) : (s.setDie d x).tasks = s.tasks := rfl
@[simp] theorem setDie_chans (s : State) (d : Nat) (x : Die) : (s.setDie d x).chans = s.chans := rfl
@[simp] theorem setDie_stackList (s : State) (d : Nat) (x : Die) : (s.setDie d x).stackList = s.stackList := rfl
@[simp] theorem setDie_grid (s : State) (d : Nat) (x : Die) : (s.setDie d x).grid = s.grid := rfl
@[simp] theorem setDie_dist (s : State) (d : Nat) (x : Die) : (s.setDie d x).dist = s.dist := rfl
@[simp] theorem setDie_pieces (s : State) (d : Nat) (x : Die) : (s.setDie d x).pieces = s.pieces := rfl
@[simp] theorem setDie_pieceNext (s : State) (d : Nat) (x : Die) : (s.setDie d x).pieceNext = s.pieceNext := rfl
@[simp] theorem setDie_counters (s : State) (d : Nat) (x : Die) : (s.setDie d x).counters = s.counters := rfl
@[simp] theorem setDie_cellFaults (s : State) (d : Nat) (x : Die) : (s.setDie d x).cellFaults = s.cellFaults := rfl
@[simp] theorem setDie_agenda (s : State) (d : Nat) (x : Die) : (s.setDie d x).agenda = s.agenda := rfl
@[simp] theorem setDie_moves (s : State) (d : Nat) (x : Die) : (s.setDie d x).moves = s.moves := rfl
@[simp] theorem setDie_free (s : State) (d : Nat) (x : Die) : (s.setDie d x).free = s.free := rfl
@[simp] theorem setDie_cur (s : State) (d : Nat) (x : Die) : (s.setDie d x).cur = s.cur := rfl
@[simp] theorem setDie_core (s : State) (d : Nat) (x : Die) (i : Nat) : (s.setDie d x).core i = s.core i := rfl
@[simp] theorem setDie_task (s : State) (d : Nat) (x : Die) (i : Nat) : (s.setDie d x).task i = s.task i := rfl
@[simp] theorem setDie_chan (s : State) (d : Nat) (x : Die) (i : Nat) : (s.setDie d x).chan i = s.chan i := rfl
@[simp] theorem setDie_stack (s : State) (d : Nat) (x : Die) (i : Nat) : (s.setDie d x).stack i = s.stack i := rfl
@[simp] theorem setDie_reg (s : State) (d : Nat) (x : Die) (i : Nat) : (s.setDie d x).reg i = s.reg i := rfl
@[simp] theorem setDie_gang (s : State) (d : Nat) (x : Die) (i : Nat) : (s.setDie d x).gang i = s.gang i := rfl
@[simp] theorem setDie_key (s : State) (d : Nat) (x : Die)  : (s.setDie d x).key  = s.key  := rfl
@[simp] theorem setDie_eng (s : State) (d : Nat) (x : Die) (i : Nat) (j : Eng) : (s.setDie d x).eng i j = s.eng i j := rfl
@[simp] theorem setDie_gangOf (s : State) (d : Nat) (x : Die) (i : Nat) : (s.setDie d x).gangOf i = s.gangOf i := rfl

/-! ### modDie -/

@[simp] theorem modDie_mem (s : State) (d : Nat) (f : Die → Die) : (s.modDie d f).mem = s.mem := rfl
@[simp] theorem modDie_mgmt (s : State) (d : Nat) (f : Die → Die) : (s.modDie d f).mgmt = s.mgmt := rfl
@[simp] theorem modDie_cores (s : State) (d : Nat) (f : Die → Die) : (s.modDie d f).cores = s.cores := rfl
@[simp] theorem modDie_tasks (s : State) (d : Nat) (f : Die → Die) : (s.modDie d f).tasks = s.tasks := rfl
@[simp] theorem modDie_chans (s : State) (d : Nat) (f : Die → Die) : (s.modDie d f).chans = s.chans := rfl
@[simp] theorem modDie_stackList (s : State) (d : Nat) (f : Die → Die) : (s.modDie d f).stackList = s.stackList := rfl
@[simp] theorem modDie_grid (s : State) (d : Nat) (f : Die → Die) : (s.modDie d f).grid = s.grid := rfl
@[simp] theorem modDie_dist (s : State) (d : Nat) (f : Die → Die) : (s.modDie d f).dist = s.dist := rfl
@[simp] theorem modDie_pieces (s : State) (d : Nat) (f : Die → Die) : (s.modDie d f).pieces = s.pieces := rfl
@[simp] theorem modDie_pieceNext (s : State) (d : Nat) (f : Die → Die) : (s.modDie d f).pieceNext = s.pieceNext := rfl
@[simp] theorem modDie_counters (s : State) (d : Nat) (f : Die → Die) : (s.modDie d f).counters = s.counters := rfl
@[simp] theorem modDie_cellFaults (s : State) (d : Nat) (f : Die → Die) : (s.modDie d f).cellFaults = s.cellFaults := rfl
@[simp] theorem modDie_agenda (s : State) (d : Nat) (f : Die → Die) : (s.modDie d f).agenda = s.agenda := rfl
@[simp] theorem modDie_moves (s : State) (d : Nat) (f : Die → Die) : (s.modDie d f).moves = s.moves := rfl
@[simp] theorem modDie_free (s : State) (d : Nat) (f : Die → Die) : (s.modDie d f).free = s.free := rfl
@[simp] theorem modDie_cur (s : State) (d : Nat) (f : Die → Die) : (s.modDie d f).cur = s.cur := rfl
@[simp] theorem modDie_core (s : State) (d : Nat) (f : Die → Die) (i : Nat) : (s.modDie d f).core i = s.core i := rfl
@[simp] theorem modDie_task (s : State) (d : Nat) (f : Die → Die) (i : Nat) : (s.modDie d f).task i = s.task i := rfl
@[simp] theorem modDie_chan (s : State) (d : Nat) (f : Die → Die) (i : Nat) : (s.modDie d f).chan i = s.chan i := rfl
@[simp] theorem modDie_stack (s : State) (d : Nat) (f : Die → Die) (i : Nat) : (s.modDie d f).stack i = s.stack i := rfl
@[simp] theorem modDie_reg (s : State) (d : Nat) (f : Die → Die) (i : Nat) : (s.modDie d f).reg i = s.reg i := rfl
@[simp] theorem modDie_gang (s : State) (d : Nat) (f : Die → Die) (i : Nat) : (s.modDie d f).gang i = s.gang i := rfl
@[simp] theorem modDie_key (s : State) (d : Nat) (f : Die → Die)  : (s.modDie d f).key  = s.key  := rfl
@[simp] theorem modDie_eng (s : State) (d : Nat) (f : Die → Die) (i : Nat) (j : Eng) : (s.modDie d f).eng i j = s.eng i j := rfl
@[simp] theorem modDie_gangOf (s : State) (d : Nat) (f : Die → Die) (i : Nat) : (s.modDie d f).gangOf i = s.gangOf i := rfl

/-! ### setReg -/

@[simp] theorem setReg_mem (s : State) (a v : Nat) : (s.setReg a v).mem = s.mem := rfl
@[simp] theorem setReg_cores (s : State) (a v : Nat) : (s.setReg a v).cores = s.cores := rfl
@[simp] theorem setReg_tasks (s : State) (a v : Nat) : (s.setReg a v).tasks = s.tasks := rfl
@[simp] theorem setReg_chans (s : State) (a v : Nat) : (s.setReg a v).chans = s.chans := rfl
@[simp] theorem setReg_stackList (s : State) (a v : Nat) : (s.setReg a v).stackList = s.stackList := rfl
@[simp] theorem setReg_dies (s : State) (a v : Nat) : (s.setReg a v).dies = s.dies := rfl
@[simp] theorem setReg_grid (s : State) (a v : Nat) : (s.setReg a v).grid = s.grid := rfl
@[simp] theorem setReg_dist (s : State) (a v : Nat) : (s.setReg a v).dist = s.dist := rfl
@[simp] theorem setReg_pieces (s : State) (a v : Nat) : (s.setReg a v).pieces = s.pieces := rfl
@[simp] theorem setReg_pieceNext (s : State) (a v : Nat) : (s.setReg a v).pieceNext = s.pieceNext := rfl
@[simp] theorem setReg_counters (s : State) (a v : Nat) : (s.setReg a v).counters = s.counters := rfl
@[simp] theorem setReg_cellFaults (s : State) (a v : Nat) : (s.setReg a v).cellFaults = s.cellFaults := rfl
@[simp] theorem setReg_agenda (s : State) (a v : Nat) : (s.setReg a v).agenda = s.agenda := rfl
@[simp] theorem setReg_moves (s : State) (a v : Nat) : (s.setReg a v).moves = s.moves := rfl
@[simp] theorem setReg_free (s : State) (a v : Nat) : (s.setReg a v).free = s.free := rfl
@[simp] theorem setReg_cur (s : State) (a v : Nat) : (s.setReg a v).cur = s.cur := rfl
@[simp] theorem setReg_core (s : State) (a v : Nat) (i : Nat) : (s.setReg a v).core i = s.core i := rfl
@[simp] theorem setReg_task (s : State) (a v : Nat) (i : Nat) : (s.setReg a v).task i = s.task i := rfl
@[simp] theorem setReg_chan (s : State) (a v : Nat) (i : Nat) : (s.setReg a v).chan i = s.chan i := rfl
@[simp] theorem setReg_stack (s : State) (a v : Nat) (i : Nat) : (s.setReg a v).stack i = s.stack i := rfl
@[simp] theorem setReg_die (s : State) (a v : Nat) (i : Nat) : (s.setReg a v).die i = s.die i := rfl
@[simp] theorem setReg_gang (s : State) (a v : Nat) (i : Nat) : (s.setReg a v).gang i = s.gang i := rfl
@[simp] theorem setReg_key (s : State) (a v : Nat)  : (s.setReg a v).key  = s.key  := rfl
@[simp] theorem setReg_eng (s : State) (a v : Nat) (i : Nat) (j : Eng) : (s.setReg a v).eng i j = s.eng i j := rfl
@[simp] theorem setReg_gangOf (s : State) (a v : Nat) (i : Nat) : (s.setReg a v).gangOf i = s.gangOf i := rfl

/-! ### modGang -/

@[simp] theorem modGang_mem (s : State) (g : Nat) (f : Gang → Gang) : (s.modGang g f).mem = s.mem := rfl
@[simp] theorem modGang_mgmt (s : State) (g : Nat) (f : Gang → Gang) : (s.modGang g f).mgmt = s.mgmt := rfl
@[simp] theorem modGang_cores (s : State) (g : Nat) (f : Gang → Gang) : (s.modGang g f).cores = s.cores := rfl
@[simp] theorem modGang_tasks (s : State) (g : Nat) (f : Gang → Gang) : (s.modGang g f).tasks = s.tasks := rfl
@[simp] theorem modGang_chans (s : State) (g : Nat) (f : Gang → Gang) : (s.modGang g f).chans = s.chans := rfl
@[simp] theorem modGang_stackList (s : State) (g : Nat) (f : Gang → Gang) : (s.modGang g f).stackList = s.stackList := rfl
@[simp] theorem modGang_dies (s : State) (g : Nat) (f : Gang → Gang) : (s.modGang g f).dies = s.dies := rfl
@[simp] theorem modGang_grid (s : State) (g : Nat) (f : Gang → Gang) : (s.modGang g f).grid = s.grid := rfl
@[simp] theorem modGang_pieces (s : State) (g : Nat) (f : Gang → Gang) : (s.modGang g f).pieces = s.pieces := rfl
@[simp] theorem modGang_pieceNext (s : State) (g : Nat) (f : Gang → Gang) : (s.modGang g f).pieceNext = s.pieceNext := rfl
@[simp] theorem modGang_counters (s : State) (g : Nat) (f : Gang → Gang) : (s.modGang g f).counters = s.counters := rfl
@[simp] theorem modGang_cellFaults (s : State) (g : Nat) (f : Gang → Gang) : (s.modGang g f).cellFaults = s.cellFaults := rfl
@[simp] theorem modGang_agenda (s : State) (g : Nat) (f : Gang → Gang) : (s.modGang g f).agenda = s.agenda := rfl
@[simp] theorem modGang_moves (s : State) (g : Nat) (f : Gang → Gang) : (s.modGang g f).moves = s.moves := rfl
@[simp] theorem modGang_free (s : State) (g : Nat) (f : Gang → Gang) : (s.modGang g f).free = s.free := rfl
@[simp] theorem modGang_cur (s : State) (g : Nat) (f : Gang → Gang) : (s.modGang g f).cur = s.cur := rfl
@[simp] theorem modGang_core (s : State) (g : Nat) (f : Gang → Gang) (i : Nat) : (s.modGang g f).core i = s.core i := rfl
@[simp] theorem modGang_task (s : State) (g : Nat) (f : Gang → Gang) (i : Nat) : (s.modGang g f).task i = s.task i := rfl
@[simp] theorem modGang_chan (s : State) (g : Nat) (f : Gang → Gang) (i : Nat) : (s.modGang g f).chan i = s.chan i := rfl
@[simp] theorem modGang_stack (s : State) (g : Nat) (f : Gang → Gang) (i : Nat) : (s.modGang g f).stack i = s.stack i := rfl
@[simp] theorem modGang_die (s : State) (g : Nat) (f : Gang → Gang) (i : Nat) : (s.modGang g f).die i = s.die i := rfl
@[simp] theorem modGang_reg (s : State) (g : Nat) (f : Gang → Gang) (i : Nat) : (s.modGang g f).reg i = s.reg i := rfl
@[simp] theorem modGang_key (s : State) (g : Nat) (f : Gang → Gang)  : (s.modGang g f).key  = s.key  := rfl
@[simp] theorem modGang_eng (s : State) (g : Nat) (f : Gang → Gang) (i : Nat) (j : Eng) : (s.modGang g f).eng i j = s.eng i j := rfl

/-! ### setEng -/

@[simp] theorem setEng_mem (s : State) (k : Nat) (e : Eng) (x : EngSt) : (s.setEng k e x).mem = s.mem := rfl
@[simp] theorem setEng_mgmt (s : State) (k : Nat) (e : Eng) (x : EngSt) : (s.setEng k e x).mgmt = s.mgmt := rfl
@[simp] theorem setEng_cores (s : State) (k : Nat) (e : Eng) (x : EngSt) : (s.setEng k e x).cores = s.cores := rfl
@[simp] theorem setEng_chans (s : State) (k : Nat) (e : Eng) (x : EngSt) : (s.setEng k e x).chans = s.chans := rfl
@[simp] theorem setEng_stackList (s : State) (k : Nat) (e : Eng) (x : EngSt) : (s.setEng k e x).stackList = s.stackList := rfl
@[simp] theorem setEng_dies (s : State) (k : Nat) (e : Eng) (x : EngSt) : (s.setEng k e x).dies = s.dies := rfl
@[simp] theorem setEng_grid (s : State) (k : Nat) (e : Eng) (x : EngSt) : (s.setEng k e x).grid = s.grid := rfl
@[simp] theorem setEng_dist (s : State) (k : Nat) (e : Eng) (x : EngSt) : (s.setEng k e x).dist = s.dist := rfl
@[simp] theorem setEng_pieces (s : State) (k : Nat) (e : Eng) (x : EngSt) : (s.setEng k e x).pieces = s.pieces := rfl
@[simp] theorem setEng_pieceNext (s : State) (k : Nat) (e : Eng) (x : EngSt) : (s.setEng k e x).pieceNext = s.pieceNext := rfl
@[simp] theorem setEng_counters (s : State) (k : Nat) (e : Eng) (x : EngSt) : (s.setEng k e x).counters = s.counters := rfl
@[simp] theorem setEng_cellFaults (s : State) (k : Nat) (e : Eng) (x : EngSt) : (s.setEng k e x).cellFaults = s.cellFaults := rfl
@[simp] theorem setEng_agenda (s : State) (k : Nat) (e : Eng) (x : EngSt) : (s.setEng k e x).agenda = s.agenda := rfl
@[simp] theorem setEng_moves (s : State) (k : Nat) (e : Eng) (x : EngSt) : (s.setEng k e x).moves = s.moves := rfl
@[simp] theorem setEng_free (s : State) (k : Nat) (e : Eng) (x : EngSt) : (s.setEng k e x).free = s.free := rfl
@[simp] theorem setEng_cur (s : State) (k : Nat) (e : Eng) (x : EngSt) : (s.setEng k e x).cur = s.cur := rfl
@[simp] theorem setEng_core (s : State) (k : Nat) (e : Eng) (x : EngSt) (i : Nat) : (s.setEng k e x).core i = s.core i := rfl
@[simp] theorem setEng_chan (s : State) (k : Nat) (e : Eng) (x : EngSt) (i : Nat) : (s.setEng k e x).chan i = s.chan i := rfl
@[simp] theorem setEng_stack (s : State) (k : Nat) (e : Eng) (x : EngSt) (i : Nat) : (s.setEng k e x).stack i = s.stack i := rfl
@[simp] theorem setEng_die (s : State) (k : Nat) (e : Eng) (x : EngSt) (i : Nat) : (s.setEng k e x).die i = s.die i := rfl
@[simp] theorem setEng_reg (s : State) (k : Nat) (e : Eng) (x : EngSt) (i : Nat) : (s.setEng k e x).reg i = s.reg i := rfl
@[simp] theorem setEng_gang (s : State) (k : Nat) (e : Eng) (x : EngSt) (i : Nat) : (s.setEng k e x).gang i = s.gang i := rfl
@[simp] theorem setEng_key (s : State) (k : Nat) (e : Eng) (x : EngSt)  : (s.setEng k e x).key  = s.key  := rfl

/-! ### modEng -/

@[simp] theorem modEng_mem (s : State) (k : Nat) (e : Eng) (f : EngSt → EngSt) : (s.modEng k e f).mem = s.mem := rfl
@[simp] theorem modEng_mgmt (s : State) (k : Nat) (e : Eng) (f : EngSt → EngSt) : (s.modEng k e f).mgmt = s.mgmt := rfl
@[simp] theorem modEng_cores (s : State) (k : Nat) (e : Eng) (f : EngSt → EngSt) : (s.modEng k e f).cores = s.cores := rfl
@[simp] theorem modEng_chans (s : State) (k : Nat) (e : Eng) (f : EngSt → EngSt) : (s.modEng k e f).chans = s.chans := rfl
@[simp] theorem modEng_stackList (s : State) (k : Nat) (e : Eng) (f : EngSt → EngSt) : (s.modEng k e f).stackList = s.stackList := rfl
@[simp] theorem modEng_dies (s : State) (k : Nat) (e : Eng) (f : EngSt → EngSt) : (s.modEng k e f).dies = s.dies := rfl
@[simp] theorem modEng_grid (s : State) (k : Nat) (e : Eng) (f : EngSt → EngSt) : (s.modEng k e f).grid = s.grid := rfl
@[simp] theorem modEng_dist (s : State) (k : Nat) (e : Eng) (f : EngSt → EngSt) : (s.modEng k e f).dist = s.dist := rfl
@[simp] theorem modEng_pieces (s : State) (k : Nat) (e : Eng) (f : EngSt → EngSt) : (s.modEng k e f).pieces = s.pieces := rfl
@[simp] theorem modEng_pieceNext (s : State) (k : Nat) (e : Eng) (f : EngSt → EngSt) : (s.modEng k e f).pieceNext = s.pieceNext := rfl
@[simp] theorem modEng_counters (s : State) (k : Nat) (e : Eng) (f : EngSt → EngSt) : (s.modEng k e f).counters = s.counters := rfl
@[simp] theorem modEng_cellFaults (s : State) (k : Nat) (e : Eng) (f : EngSt → EngSt) : (s.modEng k e f).cellFaults = s.cellFaults := rfl
@[simp] theorem modEng_agenda (s : State) (k : Nat) (e : Eng) (f : EngSt → EngSt) : (s.modEng k e f).agenda = s.agenda := rfl
@[simp] theorem modEng_moves (s : State) (k : Nat) (e : Eng) (f : EngSt → EngSt) : (s.modEng k e f).moves = s.moves := rfl
@[simp] theorem modEng_free (s : State) (k : Nat) (e : Eng) (f : EngSt → EngSt) : (s.modEng k e f).free = s.free := rfl
@[simp] theorem modEng_cur (s : State) (k : Nat) (e : Eng) (f : EngSt → EngSt) : (s.modEng k e f).cur = s.cur := rfl
@[simp] theorem modEng_core (s : State) (k : Nat) (e : Eng) (f : EngSt → EngSt) (i : Nat) : (s.modEng k e f).core i = s.core i := rfl
@[simp] theorem modEng_chan (s : State) (k : Nat) (e : Eng) (f : EngSt → EngSt) (i : Nat) : (s.modEng k e f).chan i = s.chan i := rfl
@[simp] theorem modEng_stack (s : State) (k : Nat) (e : Eng) (f : EngSt → EngSt) (i : Nat) : (s.modEng k e f).stack i = s.stack i := rfl
@[simp] theorem modEng_die (s : State) (k : Nat) (e : Eng) (f : EngSt → EngSt) (i : Nat) : (s.modEng k e f).die i = s.die i := rfl
@[simp] theorem modEng_reg (s : State) (k : Nat) (e : Eng) (f : EngSt → EngSt) (i : Nat) : (s.modEng k e f).reg i = s.reg i := rfl
@[simp] theorem modEng_gang (s : State) (k : Nat) (e : Eng) (f : EngSt → EngSt) (i : Nat) : (s.modEng k e f).gang i = s.gang i := rfl
@[simp] theorem modEng_key (s : State) (k : Nat) (e : Eng) (f : EngSt → EngSt)  : (s.modEng k e f).key  = s.key  := rfl

/-! ### modMe -/

@[simp] theorem modMe_mem (s : State) (f : Task → Task) : (s.modMe f).mem = s.mem := rfl
@[simp] theorem modMe_mgmt (s : State) (f : Task → Task) : (s.modMe f).mgmt = s.mgmt := rfl
@[simp] theorem modMe_cores (s : State) (f : Task → Task) : (s.modMe f).cores = s.cores := rfl
@[simp] theorem modMe_chans (s : State) (f : Task → Task) : (s.modMe f).chans = s.chans := rfl
@[simp] theorem modMe_stackList (s : State) (f : Task → Task) : (s.modMe f).stackList = s.stackList := rfl
@[simp] theorem modMe_dies (s : State) (f : Task → Task) : (s.modMe f).dies = s.dies := rfl
@[simp] theorem modMe_grid (s : State) (f : Task → Task) : (s.modMe f).grid = s.grid := rfl
@[simp] theorem modMe_dist (s : State) (f : Task → Task) : (s.modMe f).dist = s.dist := rfl
@[simp] theorem modMe_pieces (s : State) (f : Task → Task) : (s.modMe f).pieces = s.pieces := rfl
@[simp] theorem modMe_pieceNext (s : State) (f : Task → Task) : (s.modMe f).pieceNext = s.pieceNext := rfl
@[simp] theorem modMe_counters (s : State) (f : Task → Task) : (s.modMe f).counters = s.counters := rfl
@[simp] theorem modMe_cellFaults (s : State) (f : Task → Task) : (s.modMe f).cellFaults = s.cellFaults := rfl
@[simp] theorem modMe_agenda (s : State) (f : Task → Task) : (s.modMe f).agenda = s.agenda := rfl
@[simp] theorem modMe_moves (s : State) (f : Task → Task) : (s.modMe f).moves = s.moves := rfl
@[simp] theorem modMe_free (s : State) (f : Task → Task) : (s.modMe f).free = s.free := rfl
@[simp] theorem modMe_cur (s : State) (f : Task → Task) : (s.modMe f).cur = s.cur := rfl
@[simp] theorem modMe_core (s : State) (f : Task → Task) (i : Nat) : (s.modMe f).core i = s.core i := rfl
@[simp] theorem modMe_chan (s : State) (f : Task → Task) (i : Nat) : (s.modMe f).chan i = s.chan i := rfl
@[simp] theorem modMe_stack (s : State) (f : Task → Task) (i : Nat) : (s.modMe f).stack i = s.stack i := rfl
@[simp] theorem modMe_die (s : State) (f : Task → Task) (i : Nat) : (s.modMe f).die i = s.die i := rfl
@[simp] theorem modMe_reg (s : State) (f : Task → Task) (i : Nat) : (s.modMe f).reg i = s.reg i := rfl
@[simp] theorem modMe_gang (s : State) (f : Task → Task) (i : Nat) : (s.modMe f).gang i = s.gang i := rfl
@[simp] theorem modMe_key (s : State) (f : Task → Task)  : (s.modMe f).key  = s.key  := rfl

/-! ### modMyEng -/

@[simp] theorem modMyEng_mem (s : State) (f : EngSt → EngSt) : (s.modMyEng f).mem = s.mem := rfl
@[simp] theorem modMyEng_mgmt (s : State) (f : EngSt → EngSt) : (s.modMyEng f).mgmt = s.mgmt := rfl
@[simp] theorem modMyEng_cores (s : State) (f : EngSt → EngSt) : (s.modMyEng f).cores = s.cores := rfl
@[simp] theorem modMyEng_chans (s : State) (f : EngSt → EngSt) : (s.modMyEng f).chans = s.chans := rfl
@[simp] theorem modMyEng_stackList (s : State) (f : EngSt → EngSt) : (s.modMyEng f).stackList = s.stackList := rfl
@[simp] theorem modMyEng_dies (s : State) (f : EngSt → EngSt) : (s.modMyEng f).dies = s.dies := rfl
@[simp] theorem modMyEng_grid (s : State) (f : EngSt → EngSt) : (s.modMyEng f).grid = s.grid := rfl
@[simp] theorem modMyEng_dist (s : State) (f : EngSt → EngSt) : (s.modMyEng f).dist = s.dist := rfl
@[simp] theorem modMyEng_pieces (s : State) (f : EngSt → EngSt) : (s.modMyEng f).pieces = s.pieces := rfl
@[simp] theorem modMyEng_pieceNext (s : State) (f : EngSt → EngSt) : (s.modMyEng f).pieceNext = s.pieceNext := rfl
@[simp] theorem modMyEng_counters (s : State) (f : EngSt → EngSt) : (s.modMyEng f).counters = s.counters := rfl
@[simp] theorem modMyEng_cellFaults (s : State) (f : EngSt → EngSt) : (s.modMyEng f).cellFaults = s.cellFaults := rfl
@[simp] theorem modMyEng_agenda (s : State) (f : EngSt → EngSt) : (s.modMyEng f).agenda = s.agenda := rfl
@[simp] theorem modMyEng_moves (s : State) (f : EngSt → EngSt) : (s.modMyEng f).moves = s.moves := rfl
@[simp] theorem modMyEng_free (s : State) (f : EngSt → EngSt) : (s.modMyEng f).free = s.free := rfl
@[simp] theorem modMyEng_cur (s : State) (f : EngSt → EngSt) : (s.modMyEng f).cur = s.cur := rfl
@[simp] theorem modMyEng_core (s : State) (f : EngSt → EngSt) (i : Nat) : (s.modMyEng f).core i = s.core i := rfl
@[simp] theorem modMyEng_chan (s : State) (f : EngSt → EngSt) (i : Nat) : (s.modMyEng f).chan i = s.chan i := rfl
@[simp] theorem modMyEng_stack (s : State) (f : EngSt → EngSt) (i : Nat) : (s.modMyEng f).stack i = s.stack i := rfl
@[simp] theorem modMyEng_die (s : State) (f : EngSt → EngSt) (i : Nat) : (s.modMyEng f).die i = s.die i := rfl
@[simp] theorem modMyEng_reg (s : State) (f : EngSt → EngSt) (i : Nat) : (s.modMyEng f).reg i = s.reg i := rfl
@[simp] theorem modMyEng_gang (s : State) (f : EngSt → EngSt) (i : Nat) : (s.modMyEng f).gang i = s.gang i := rfl
@[simp] theorem modMyEng_key (s : State) (f : EngSt → EngSt)  : (s.modMyEng f).key  = s.key  := rfl

/-! ### modMyCore -/

@[simp] theorem modMyCore_mem (s : State) (f : Core → Core) : (s.modMyCore f).mem = s.mem := rfl
@[simp] theorem modMyCore_mgmt (s : State) (f : Core → Core) : (s.modMyCore f).mgmt = s.mgmt := rfl
@[simp] theorem modMyCore_tasks (s : State) (f : Core → Core) : (s.modMyCore f).tasks = s.tasks := rfl
@[simp] theorem modMyCore_chans (s : State) (f : Core → Core) : (s.modMyCore f).chans = s.chans := rfl
@[simp] theorem modMyCore_stackList (s : State) (f : Core → Core) : (s.modMyCore f).stackList = s.stackList := rfl
@[simp] theorem modMyCore_dies (s : State) (f : Core → Core) : (s.modMyCore f).dies = s.dies := rfl
@[simp] theorem modMyCore_grid (s : State) (f : Core → Core) : (s.modMyCore f).grid = s.grid := rfl
@[simp] theorem modMyCore_dist (s : State) (f : Core → Core) : (s.modMyCore f).dist = s.dist := rfl
@[simp] theorem modMyCore_pieces (s : State) (f : Core → Core) : (s.modMyCore f).pieces = s.pieces := rfl
@[simp] theorem modMyCore_pieceNext (s : State) (f : Core → Core) : (s.modMyCore f).pieceNext = s.pieceNext := rfl
@[simp] theorem modMyCore_counters (s : State) (f : Core → Core) : (s.modMyCore f).counters = s.counters := rfl
@[simp] theorem modMyCore_cellFaults (s : State) (f : Core → Core) : (s.modMyCore f).cellFaults = s.cellFaults := rfl
@[simp] theorem modMyCore_agenda (s : State) (f : Core → Core) : (s.modMyCore f).agenda = s.agenda := rfl
@[simp] theorem modMyCore_moves (s : State) (f : Core → Core) : (s.modMyCore f).moves = s.moves := rfl
@[simp] theorem modMyCore_free (s : State) (f : Core → Core) : (s.modMyCore f).free = s.free := rfl
@[simp] theorem modMyCore_cur (s : State) (f : Core → Core) : (s.modMyCore f).cur = s.cur := rfl
@[simp] theorem modMyCore_task (s : State) (f : Core → Core) (i : Nat) : (s.modMyCore f).task i = s.task i := rfl
@[simp] theorem modMyCore_chan (s : State) (f : Core → Core) (i : Nat) : (s.modMyCore f).chan i = s.chan i := rfl
@[simp] theorem modMyCore_stack (s : State) (f : Core → Core) (i : Nat) : (s.modMyCore f).stack i = s.stack i := rfl
@[simp] theorem modMyCore_die (s : State) (f : Core → Core) (i : Nat) : (s.modMyCore f).die i = s.die i := rfl
@[simp] theorem modMyCore_reg (s : State) (f : Core → Core) (i : Nat) : (s.modMyCore f).reg i = s.reg i := rfl
@[simp] theorem modMyCore_gang (s : State) (f : Core → Core) (i : Nat) : (s.modMyCore f).gang i = s.gang i := rfl
@[simp] theorem modMyCore_key (s : State) (f : Core → Core)  : (s.modMyCore f).key  = s.key  := rfl
@[simp] theorem modMyCore_eng (s : State) (f : Core → Core) (i : Nat) (j : Eng) : (s.modMyCore f).eng i j = s.eng i j := rfl
@[simp] theorem modMyCore_gangOf (s : State) (f : Core → Core) (i : Nat) : (s.modMyCore f).gangOf i = s.gangOf i := rfl

/-! ### A part read after it was set -/

theorem core_setCore (s : State) (c i : Nat) (x : Core) : (s.setCore c x).core i = if i = c then x else s.core i :=
  Sparse.rd_wr _ _ _ _
theorem task_setTask (s : State) (k i : Nat) (x : Task) : (s.setTask k x).task i = if i = k then x else s.task i :=
  Sparse.rd_wr _ _ _ _
theorem chan_setChan (s : State) (p i : Nat) (x : Chan) : (s.setChan p x).chan i = if i = p then x else s.chan i :=
  Sparse.rd_wr _ _ _ _
theorem stack_setStack (s : State) (n i : Nat) (x : Stack) : (s.setStack n x).stack i = if i = n then x else s.stack i :=
  Sparse.rd_wr _ _ _ _
theorem die_setDie (s : State) (d i : Nat) (x : Die) : (s.setDie d x).die i = if i = d then x else s.die i :=
  Sparse.rd_wr _ _ _ _

@[simp] theorem core_setCore_same (s : State) (i : Nat) (x : Core) : (s.setCore i x).core i = x := by simp [core_setCore]
theorem core_setCore_ne (s : State) {i j : Nat} (x : Core) (h : j ≠ i) : (s.setCore i x).core j = s.core j := by simp [core_setCore, h]
@[simp] theorem core_modCore_same (s : State) (i : Nat) (f : Core → Core) : (s.modCore i f).core i = f (s.core i) := core_setCore_same _ _ _
theorem core_modCore_ne (s : State) {i j : Nat} (f : Core → Core) (h : j ≠ i) : (s.modCore i f).core j = s.core j := core_setCore_ne s _ h
@[simp] theorem task_setTask_same (s : State) (i : Nat) (x : Task) : (s.setTask i x).task i = x := by simp [task_setTask]
theorem task_setTask_ne (s : State) {i j : Nat} (x : Task) (h : j ≠ i) : (s.setTask i x).task j = s.task j := by simp [task_setTask, h]
@[simp] theorem task_modTask_same (s : State) (i : Nat) (f : Task → Task) : (s.modTask i f).task i = f (s.task i) := task_setTask_same _ _ _
theorem task_modTask_ne (s : State) {i j : Nat} (f : Task → Task) (h : j ≠ i) : (s.modTask i f).task j = s.task j := task_setTask_ne s _ h
@[simp] theorem chan_setChan_same (s : State) (i : Nat) (x : Chan) : (s.setChan i x).chan i = x := by simp [chan_setChan]
theorem chan_setChan_ne (s : State) {i j : Nat} (x : Chan) (h : j ≠ i) : (s.setChan i x).chan j = s.chan j := by simp [chan_setChan, h]
@[simp] theorem chan_modChan_same (s : State) (i : Nat) (f : Chan → Chan) : (s.modChan i f).chan i = f (s.chan i) := chan_setChan_same _ _ _
theorem chan_modChan_ne (s : State) {i j : Nat} (f : Chan → Chan) (h : j ≠ i) : (s.modChan i f).chan j = s.chan j := chan_setChan_ne s _ h
@[simp] theorem stack_setStack_same (s : State) (i : Nat) (x : Stack) : (s.setStack i x).stack i = x := by simp [stack_setStack]
theorem stack_setStack_ne (s : State) {i j : Nat} (x : Stack) (h : j ≠ i) : (s.setStack i x).stack j = s.stack j := by simp [stack_setStack, h]
@[simp] theorem stack_modStack_same (s : State) (i : Nat) (f : Stack → Stack) : (s.modStack i f).stack i = f (s.stack i) := stack_setStack_same _ _ _
theorem stack_modStack_ne (s : State) {i j : Nat} (f : Stack → Stack) (h : j ≠ i) : (s.modStack i f).stack j = s.stack j := stack_setStack_ne s _ h
@[simp] theorem die_setDie_same (s : State) (i : Nat) (x : Die) : (s.setDie i x).die i = x := by simp [die_setDie]
theorem die_setDie_ne (s : State) {i j : Nat} (x : Die) (h : j ≠ i) : (s.setDie i x).die j = s.die j := by simp [die_setDie, h]
@[simp] theorem die_modDie_same (s : State) (i : Nat) (f : Die → Die) : (s.modDie i f).die i = f (s.die i) := die_setDie_same _ _ _
theorem die_modDie_ne (s : State) {i j : Nat} (f : Die → Die) (h : j ≠ i) : (s.modDie i f).die j = s.die j := die_setDie_ne s _ h

/-- An engine of a task read after one was set. -/
theorem eng_setEng (s : State) (k i : Nat) (e j : Eng) (x : EngSt) :
    (s.setEng k e x).eng i j = if i = k ∧ j = e then x else s.eng i j := by
  unfold setEng eng
  rcases eq_or_ne i k with rfl | h
  · rw [task_modTask_same]
    simp only [Sparse.rd_wr, true_and]
    have : j.tag = e.tag ↔ j = e := by cases j <;> cases e <;> simp [Eng.tag]
    simp [this]
  · rw [task_modTask_ne _ _ h]; simp [h]

@[simp] theorem eng_setEng_same (s : State) (k : Nat) (e : Eng) (x : EngSt) : (s.setEng k e x).eng k e = x := by
  simp [eng_setEng]
@[simp] theorem eng_modEng_same (s : State) (k : Nat) (e : Eng) (f : EngSt → EngSt) : (s.modEng k e f).eng k e = f (s.eng k e) :=
  eng_setEng_same _ _ _ _

/-- Setting an engine changes nothing else of its task. -/
theorem task_setEng (s : State) (k : Nat) (e : Eng) (x : EngSt) :
    (s.setEng k e x).task k = { s.task k with engs := Sparse.wr {} (s.task k).engs e.tag x } := task_modTask_same _ _ _

theorem task_setEng_ne (s : State) {k i : Nat} (e : Eng) (x : EngSt) (h : i ≠ k) : (s.setEng k e x).task i = s.task i :=
  task_modTask_ne _ _ h

/-- A management register read after one was set: 64 bits of the value. -/
theorem reg_setReg (s : State) (a i v : Nat) : (s.setReg a v).reg i = if i = a then v % 2 ^ 64 else s.reg i := by
  unfold reg setReg
  simp only [Sparse.rd_wr]
  split
  · subst i; simp
  · rfl

/-- Every gang keeps its number where one is changed. -/
theorem modGang_ids (s : State) (g : Nat) (f : Gang → Gang) (h : ∀ x, (f x).id = x.id) :
    (s.modGang g f).dist.gangs.map Gang.id = s.dist.gangs.map Gang.id := by
  simp only [modGang, List.map_map]
  apply List.map_congr_left
  intro x _
  simp only [Function.comp]
  split <;> simp [h]

end Sys2Proof.Machine.State
end

