-- ==== Sys2Proof/Laws/Walks.lean ====
section
/-!
SUPPORT. The relation Walks: what it keeps, and that the operations of the meanings keep it. Issue and retirement change nothing
else of the state (02 R37, R38; 15 R258).
-/

namespace Sys2Proof

namespace Sparse

variable {α : Type} {d : α}

theorem del_del (m : Sparse α) (k : Nat) : del (del m k) k = del m k := by
  induction m with
  | nil => rfl
  | cons e r ih =>
    obtain ⟨k', v⟩ := e
    simp only [del]
    split
    · exact ih
    · simp [del, *]

theorem del_of_ne (m : Sparse α) (k : Nat) (h : ∀ e ∈ m, e.1 ≠ k) : del m k = m := by
  induction m with
  | nil => rfl
  | cons e r ih =>
    obtain ⟨k', v⟩ := e
    have : k' ≠ k := h (k', v) (by simp)
    simp [del, this, ih fun e he => h e (by simp [he])]

theorem del_ins (m : Sparse α) (k : Nat) (v : α) (h : ∀ e ∈ m, e.1 ≠ k) : del (ins m k v) k = m := by
  induction m with
  | nil => simp [ins, del]
  | cons e r ih =>
    obtain ⟨k', w⟩ := e
    have h' : k' ≠ k := h (k', w) (by simp)
    have hr : ∀ e ∈ r, e.1 ≠ k := fun e he => h e (by simp [he])
    simp only [ins]
    split
    · simp [del, h', del_of_ne r k hr]
    · simp [del, h', ih hr]

/-- What an update leaves at the other keys. -/
@[simp] theorem del_wr [DecidableEq α] (m : Sparse α) (k : Nat) (v : α) : del (wr d m k v) k = del m k := by
  unfold wr
  split
  · exact del_del m k
  · exact del_ins _ k v fun e he => (mem_del m k e he).1

/-- The last of two updates of one key holds. -/
@[simp] theorem wr_wr [DecidableEq α] (m : Sparse α) (k : Nat) (v w : α) : wr d (wr d m k v) k w = wr d m k w := by
  conv_lhs => rw [wr]
  conv_rhs => rw [wr]
  simp [del_wr]

end Sparse

namespace Machine

/-! ### What the relation keeps -/

theorem Task.still_still (e : Eng) (t : Task) : (t.still e).still e = t.still e := by
  simp [Task.still, EngSt.still]

namespace Walks

variable {k : Nat} {e : Eng} {s t u : State}

theorem refl (k : Nat) (e : Eng) (s : State) : Walks k e s s := ⟨rfl, rfl⟩
theorem symm (h : Walks k e s t) : Walks k e t s := ⟨h.1.symm, h.2.symm⟩
theorem trans (h : Walks k e s t) (h' : Walks k e t u) : Walks k e s u := ⟨h'.1.trans h.1, h'.2.trans h.2⟩

theorem mem (h : Walks k e s t) : t.mem = s.mem := (congrArg State.mem h.1 :)
theorem mgmt (h : Walks k e s t) : t.mgmt = s.mgmt := (congrArg State.mgmt h.1 :)
theorem cores (h : Walks k e s t) : t.cores = s.cores := (congrArg State.cores h.1 :)
theorem chans (h : Walks k e s t) : t.chans = s.chans := (congrArg State.chans h.1 :)
theorem stackList (h : Walks k e s t) : t.stackList = s.stackList := (congrArg State.stackList h.1 :)
theorem dies (h : Walks k e s t) : t.dies = s.dies := (congrArg State.dies h.1 :)
theorem grid (h : Walks k e s t) : t.grid = s.grid := (congrArg State.grid h.1 :)
theorem pieces (h : Walks k e s t) : t.pieces = s.pieces := (congrArg State.pieces h.1 :)
theorem pieceNext (h : Walks k e s t) : t.pieceNext = s.pieceNext := (congrArg State.pieceNext h.1 :)
theorem counters (h : Walks k e s t) : t.counters = s.counters := (congrArg State.counters h.1 :)
theorem cellFaults (h : Walks k e s t) : t.cellFaults = s.cellFaults := (congrArg State.cellFaults h.1 :)
theorem agenda (h : Walks k e s t) : t.agenda = s.agenda := (congrArg State.agenda h.1 :)
theorem moves (h : Walks k e s t) : t.moves = s.moves := (congrArg State.moves h.1 :)
theorem free (h : Walks k e s t) : t.free = s.free := (congrArg State.free h.1 :)
theorem cur (h : Walks k e s t) : t.cur = s.cur := (congrArg State.cur h.1 :)

theorem key (h : Walks k e s t) : t.key = s.key := by simp [State.key, h.cur]

theorem core (h : Walks k e s t) (c : Nat) : t.core c = s.core c := by simp [State.core, h.cores]
theorem myCore (h : Walks k e s t) : t.myCore = s.myCore := by simp [State.myCore, h.core, h.cur]
theorem chan (h : Walks k e s t) (p : Nat) : t.chan p = s.chan p := by simp [State.chan, h.chans]
theorem die (h : Walks k e s t) (d : Nat) : t.die d = s.die d := by simp [State.die, h.dies]
theorem stack (h : Walks k e s t) (n : Nat) : t.stack n = s.stack n := by simp [State.stack, h.stackList]
theorem reg (h : Walks k e s t) (a : Nat) : t.reg a = s.reg a := by simp [State.reg, h.mgmt]
theorem now (h : Walks k e s t) (d : Nat) : t.now d = s.now d := by simp [State.now, h.die]

theorem task_ne (h : Walks k e s t) {j : Nat} (hj : j ≠ k) : t.task j = s.task j := by
  have h1 : Sparse.del t.tasks k = Sparse.del s.tasks k := congrArg State.tasks h.1
  have := congrArg (fun m => Sparse.rd ({} : Task) m j) h1
  simpa [State.task, Sparse.rd_del_ne _ hj] using this

/-- A field of the task that the walk does not hold. -/
theorem field {α : Type} (h : Walks k e s t) (f : Task → α) (hf : ∀ x, f (x.still e) = f x) :
    f (t.task k) = f (s.task k) := by
  rw [← hf (t.task k), ← hf (s.task k), h.2]

/-- A field of the engine that its walk does not hold. -/
theorem engField {α : Type} (h : Walks k e s t) (f : EngSt → α) (hf : ∀ x : EngSt, f x.still = f x) :
    f (t.eng k e) = f (s.eng k e) := by
  have := congrArg (fun m => Sparse.rd ({} : EngSt) (Task.engs m) e.tag) h.2
  simp only [Task.still, Sparse.rd_wr_same] at this
  unfold State.eng
  rw [← hf, ← hf (Sparse.rd {} (s.task k).engs e.tag), this]

theorem eng_ne (h : Walks k e s t) {j : Eng} (hj : j ≠ e) : t.eng k j = s.eng k j := by
  have := congrArg (fun m => Sparse.rd ({} : EngSt) (Task.engs m) j.tag) h.2
  have hne : j.tag ≠ e.tag := by cases j <;> cases e <;> simp_all [Eng.tag]
  simpa [Task.still, Sparse.rd_wr_ne _ _ hne, State.eng] using this

/-- The path records and the walking engine put aside, one task's change is the other's. -/
theorem modTask (h : Walks k e s t) (f g : Task → Task)
    (hf : (f (t.task k)).still e = (g (s.task k)).still e) : Walks k e (s.modTask k g) (t.modTask k f) := by
  refine ⟨?_, by simpa using hf⟩
  have h1 := h.1
  simp only [State.rest, State.modTask, State.setTask, Sparse.del_wr] at h1 ⊢
  simpa using h1

/-- A change of the walk of one engine is no other change. -/
theorem ofEng (s : State) (k : Nat) (e : Eng) (x : EngSt) (hx : x.still = (s.eng k e).still) :
    Walks k e s (s.setEng k e x) := by
  refine ⟨?_, ?_⟩
  · simp [State.rest, State.setEng, State.modTask, State.setTask]
  · simp only [State.task_setEng, Task.still, Sparse.rd_wr_same, Sparse.wr_wr, hx]
    rfl

theorem ofModEng (s : State) (k : Nat) (e : Eng) (f : EngSt → EngSt) (hf : ∀ x, (f x).still = x.still) :
    Walks k e s (s.modEng k e f) := ofEng s k e _ (hf _)

/-- A change of the path records and the walk of one engine. -/
theorem ofTask (s : State) (k : Nat) (e : Eng) (x : Task) (hx : x.still e = (s.task k).still e) :
    Walks k e s (s.setTask k x) := by
  refine ⟨?_, by simpa using hx⟩
  simp [State.rest, State.setTask]

/-- A change of the race checkers alone. -/
theorem ofGang (s : State) (k : Nat) (e : Eng) (g : Nat) (f : Gang → Gang) (hf : ∀ x, (f x).bare = x.bare) :
    Walks k e s (s.modGang g f) := by
  refine ⟨?_, by simp⟩
  simp only [State.rest, State.modGang, List.map_map]
  have : (Gang.bare ∘ fun x => if x.id = g then f x else x) = Gang.bare := by
    funext x
    simp only [Function.comp]
    split
    · exact hf x
    · rfl
  rw [this]

/-! ### The same change on both sides -/

theorem modCore (h : Walks k e s t) (c : Nat) (f : Core → Core) : Walks k e (s.modCore c f) (t.modCore c f) := by
  refine ⟨?_, by simpa using h.2⟩
  have h1 := h.1
  have hc := h.cores
  simp only [State.rest, State.modCore, State.setCore, State.core] at h1 ⊢
  rw [State.mk.injEq] at h1 ⊢
  simp_all

theorem modChan (h : Walks k e s t) (p : Nat) (f : Chan → Chan) : Walks k e (s.modChan p f) (t.modChan p f) := by
  refine ⟨?_, by simpa using h.2⟩
  have h1 := h.1
  have hc := h.chans
  simp only [State.rest, State.modChan, State.setChan, State.chan] at h1 ⊢
  rw [State.mk.injEq] at h1 ⊢
  simp_all

theorem modDie (h : Walks k e s t) (d : Nat) (f : Die → Die) : Walks k e (s.modDie d f) (t.modDie d f) := by
  refine ⟨?_, by simpa using h.2⟩
  have h1 := h.1
  have hc := h.dies
  simp only [State.rest, State.modDie, State.setDie, State.die] at h1 ⊢
  rw [State.mk.injEq] at h1 ⊢
  simp_all

theorem setReg (h : Walks k e s t) (a v : Nat) : Walks k e (s.setReg a v) (t.setReg a v) := by
  refine ⟨?_, by simpa using h.2⟩
  have h1 := h.1
  have hc := h.mgmt
  simp only [State.rest, State.setReg] at h1 ⊢
  rw [State.mk.injEq] at h1 ⊢
  simp_all

end Walks

end Machine

end Sys2Proof
end

