-- ==== Sys2Proof/Laws/Issue.lean ====
section
/-!
SUPPORT. Issue and retirement: what waiting for tokens, moving past an instruction and leaving a block change, said once (02 R28,
R32, R37; 15 R258).
-/

namespace Sys2Proof.Machine

/-! ### The race checker -/

@[simp] theorem Gang.learn_bare (g : Gang) (k : Nat) (e : Eng) (ids : List Nat) : (g.learn k e ids).bare = g.bare := rfl
@[simp] theorem Gang.trim_bare (g : Gang) : g.trim.bare = g.bare := rfl
@[simp] theorem enterRace_bare (g : Gang) (x : RaceEnt) (all : Bool) : (enterRace g x all).bare = g.bare := rfl

theorem learnTokens_walks (s : State) (k : Nat) (e : Eng) (vs : List Word) (j : Nat) (i : Eng) :
    Walks j i s (learnTokens s k e vs) := by
  unfold learnTokens
  split
  · split
    · exact Walks.ofGang _ _ _ _ _ fun _ => rfl
    · exact Walks.refl _ _ _
  · exact Walks.refl _ _ _

theorem learnRecord_walks (s : State) (k : Nat) (e : Eng) (n : Nat) (j : Nat) (i : Eng) :
    Walks j i s (learnRecord s k e n) := by
  unfold learnRecord
  split
  · split
    · split
      · exact Walks.ofGang _ _ _ _ _ fun _ => rfl
      · exact Walks.refl _ _ _
    · exact Walks.refl _ _ _
  · exact Walks.refl _ _ _

theorem learnBeat_walks (s : State) (k : Nat) (e : Eng) (b : Nat) (j : Nat) (i : Eng) :
    Walks j i s (learnBeat s k e b) := by
  unfold learnBeat
  split
  · split
    · exact Walks.ofGang _ _ _ _ _ fun _ => rfl
    · exact Walks.refl _ _ _
  · exact Walks.refl _ _ _

theorem learnFence_walks (s : State) (k m : Nat) (j : Nat) (i : Eng) : Walks j i s (learnFence s k m) := by
  unfold learnFence
  split
  · split
    · exact Walks.ofGang _ _ _ _ _ fun _ => rfl
    · exact Walks.refl _ _ _
  · exact Walks.refl _ _ _

theorem meetBarrier_walks (s : State) (k n : Nat) (j : Nat) (i : Eng) : Walks j i s (meetBarrier s k n) := by
  unfold meetBarrier
  split
  · split
    · exact Walks.ofGang _ _ _ _ _ fun _ => rfl
    · exact Walks.refl _ _ _
  · exact Walks.refl _ _ _

theorem learnBarrier_walks (s : State) (k n : Nat) (j : Nat) (i : Eng) : Walks j i s (learnBarrier s k n) := by
  unfold learnBarrier
  split
  · split
    · exact Walks.ofGang _ _ _ _ _ fun _ => rfl
    · exact Walks.refl _ _ _
  · exact Walks.refl _ _ _

theorem shareRecord_walks (s : State) (k n : Nat) (j : Nat) (i : Eng) : Walks j i s (shareRecord s k n) := by
  unfold shareRecord
  split
  · split
    · exact Walks.ofGang _ _ _ _ _ fun _ => rfl
    · exact Walks.refl _ _ _
  · exact Walks.refl _ _ _

/-! ### Leaving a block -/

theorem Task.still_recs (e : Eng) (t : Task) (l : List PathRec) (r : Option PathRec) :
    Task.still e { t with recs := l, emit := r } = Task.still e t := by simp only [Task.still]
theorem Task.still_emit (e : Eng) (t : Task) (r : Option PathRec) : Task.still e { t with emit := r } = Task.still e t := by
  simp only [Task.still]

theorem tryEmit_walks (s : State) (k : Nat) : Walks k .s s (tryEmit s k) := by
  unfold tryEmit
  dsimp only
  cases (s.task k).emit with
  | none => exact Walks.refl _ _ _
  | some r =>
    dsimp only
    by_cases hw : (s.task k).recs.length < (s.task k).csr.win
    · rw [if_pos hw]
      have h1 : Walks k .s s (s.setTask k { s.task k with recs := (s.task k).recs ++ [r], emit := none }) :=
        Walks.ofTask s k .s _ (Task.still_recs _ _ _ _)
      refine h1.trans (Walks.trans ?_ (shareRecord_walks _ _ _ _ _))
      exact Walks.ofModEng _ _ _ _ fun _ => by simp only [EngSt.still]
    · rw [if_neg hw]
      exact Walks.refl _ _ _

theorem leaveBlockS_walks (s : State) (k kind target : Nat) : Walks k .s s (leaveBlockS s k kind target) := by
  unfold leaveBlockS
  dsimp only
  have h1 := Walks.ofEng s k .s { s.eng k .s with phase := .path, passes := 0, wait := .none, latched := none } (by simp only [EngSt.still])
  refine h1.trans (Walks.trans ?_ (tryEmit_walks _ _))
  exact Walks.ofTask _ _ _ _ (Task.still_emit _ _ _)

theorem leaveBlock_walks (s : State) (k : Nat) (e : Eng) : Walks k e s (leaveBlock s k e) := by
  unfold leaveBlock
  dsimp only
  by_cases he : e = .s
  · rw [if_pos he]
    subst he
    exact (Walks.ofEng s k .s _ (by simp only [EngSt.still])).trans (leaveBlockS_walks _ _ _ _)
  · rw [if_neg he]
    exact Walks.ofEng s k e _ (by simp only [EngSt.still])

theorem passEnd_walks (s : State) (k : Nat) (e : Eng) : Walks k e s (passEnd s k e) := by
  unfold passEnd
  dsimp only
  by_cases hp : 2 ≤ (s.eng k e).passes
  · rw [if_pos hp]; exact Walks.ofEng s k e _ (by simp only [EngSt.still])
  · rw [if_neg hp]; exact leaveBlock_walks s k e

/-! ### Where an engine stands after its block -/

theorem shareRecord_task (s : State) (k n j : Nat) : (shareRecord s k n).task j = s.task j := by
  unfold shareRecord
  split
  · split <;> simp
  · rfl

theorem tryEmit_task (s : State) (k : Nat) (r : PathRec) (h : (s.task k).emit = some r) :
    ((tryEmit s k).task k).recs ++ ((tryEmit s k).task k).emit.toList = (s.task k).recs ++ [r]
    ∧ ((s.task k).recs.length < (s.task k).csr.win → ((tryEmit s k).task k).emit = none
      ∧ (r.kind = 2 → ((tryEmit s k).eng k .s).phase = .idle)
      ∧ (r.kind ≠ 2 → ((tryEmit s k).eng k .s).phase = .header ∧ ((tryEmit s k).eng k .s).pc = r.target)) := by
  unfold tryEmit
  dsimp only
  rw [h]
  dsimp only
  by_cases hw : (s.task k).recs.length < (s.task k).csr.win
  · rw [if_pos hw]
    have he : ∀ u : State, ∀ n, (shareRecord u k n).eng k .s = u.eng k .s := by
      intro u n; unfold State.eng; rw [shareRecord_task]
    simp only [he, shareRecord_task]
    exact ⟨by simp [State.modEng, State.task_setEng], fun _ => ⟨by simp [State.modEng, State.task_setEng], fun h2 => by simp [State.modEng, h2],
      fun h2 => by simp [State.modEng, h2]⟩⟩
  · rw [if_neg hw]
    exact ⟨by rw [h]; rfl, fun h2 => absurd h2 hw⟩

/-- S leaves its block. -/
theorem leaveBlockS_task (s : State) (k kind target : Nat) :
    ((leaveBlockS s k kind target).task k).recs ++ ((leaveBlockS s k kind target).task k).emit.toList
      = (s.task k).recs ++ [{ kind := kind, target := target, serial := (s.eng k .s).serial }]
    ∧ ((s.task k).recs.length < (s.task k).csr.win → ((leaveBlockS s k kind target).task k).emit = none
      ∧ (kind = 2 → ((leaveBlockS s k kind target).eng k .s).phase = .idle)
      ∧ (kind ≠ 2 → ((leaveBlockS s k kind target).eng k .s).phase = .header
        ∧ ((leaveBlockS s k kind target).eng k .s).pc = target)) := by
  unfold leaveBlockS
  dsimp only
  have h := tryEmit_task ((s.setEng k .s { s.eng k .s with phase := .path, passes := 0, wait := .none, latched := none }).modTask k
    fun t => { t with emit := some { kind := kind, target := target, serial := (s.eng k .s).serial } }) k
    { kind := kind, target := target, serial := (s.eng k .s).serial }
  simpa only [State.task_modTask_same, State.task_setEng, forall_const] using h (by simp only [State.task_modTask_same])

/-- What the end of a pass leaves of the engine: the body again, or the block's end. -/
theorem passEnd_place (s : State) (k : Nat) (e : Eng) :
    let x := s.eng k e
    let t := passEnd s k e
    let stop := x.body + 2 * x.len
    (2 ≤ x.passes → (t.eng k e).pc = x.body ∧ (t.eng k e).passes = x.passes - 1)
    ∧ (x.passes < 2 → e ≠ .s → (t.eng k e).phase = .header ∧ (t.eng k e).pc = stop)
    ∧ (x.passes < 2 → e = .s →
      (t.task k).recs ++ (t.task k).emit.toList = (s.task k).recs ++ [{ kind := 0, target := stop, serial := x.serial }]
      ∧ ((s.task k).recs.length < (s.task k).csr.win → (t.task k).emit = none ∧ (t.eng k .s).phase = .header ∧ (t.eng k .s).pc = stop)) := by
  unfold passEnd
  refine ⟨fun h => ?_, fun h he => ?_, fun h he => ?_⟩
  · rw [if_pos h]; simp
  · rw [if_neg (by omega), leaveBlock]; simp only [if_neg he]; simp
  · subst he
    rw [if_neg (by omega), leaveBlock]
    simp only [if_true]
    have ht := leaveBlockS_task (s.setEng k .s { s.eng k .s with pc := (s.eng k .s).body + 2 * (s.eng k .s).len }) k 0
      ((s.eng k .s).body + 2 * (s.eng k .s).len)
    simpa [State.task_setEng] using ht

/-! ### Waiting and retirement -/

theorem modMyEng_walks (s : State) (f : EngSt → EngSt) (hf : ∀ x, (f x).still = x.still) :
    Walks s.key s.cur.eng s (s.modMyEng f) := Walks.ofModEng s s.key s.cur.eng f hf

theorem waitFor_walks (w : Wait) (s : State) : Walks s.key s.cur.eng s (waitFor w s) := modMyEng_walks s _ fun _ => rfl

theorem stepOver_walks (s : State) : Walks s.key s.cur.eng s (stepOver s) := modMyEng_walks s _ fun _ => rfl

/-- Retirement moves the walk of the executing engine and nothing else. -/
theorem advance_walks (s : State) : Walks s.key s.cur.eng s (advance s) := by
  unfold advance
  dsimp only
  by_cases h : (stepOver s).myEng.pc = (stepOver s).myEng.body + 2 * (stepOver s).myEng.len
  · rw [if_pos h]; exact (stepOver_walks s).trans (passEnd_walks _ _ _)
  · rw [if_neg h]; exact stepOver_walks s

/-! ### Issue -/

theorem tokenDone_latch (s : State) (vals : List Word) (w : Word) :
    tokenDone (s.modMyEng fun x => { x with latched := some vals }) s.key w = tokenDone s s.key w := by
  unfold tokenDone
  split
  · rfl
  · split
    · rename_i e _
      have : (State.eng (s.modMyEng fun x => { x with latched := some vals }) s.key e).opn = (s.eng s.key e).opn := by
        rw [State.modMyEng, State.modEng, State.eng_setEng]
        split
        · rename_i h; rw [h.2]
        · rfl
      rw [this]
    · rfl

theorem afterTokens_ready (prod : Bool) (vals : List Word) (body : State → State) (s : State)
    (hv : vals.all (tokenDone s s.key) = true) (hp : prod = true → s.myEng.opn.length < tokenLimit) :
    ∃ t, afterTokens prod vals body s = body t ∧ Walks s.key s.cur.eng s t
      ∧ (CheckerIdle s → CheckerIdle t) ∧ (t.me.recs = s.me.recs ∧ t.me.emit = s.me.emit)
      ∧ ∃ l, t.myEng = { s.myEng with latched := l } := by
  unfold afterTokens
  simp only
  have h1 : vals.all (tokenDone (s.modMyEng fun x => { x with latched := some vals })
      (s.modMyEng fun x => { x with latched := some vals }).key) = true := by
    simpa [tokenDone_latch] using hv
  rw [if_pos h1]
  have h2 : ¬ (prod = true ∧ tokenLimit ≤ (s.modMyEng fun x => { x with latched := some vals }).myEng.opn.length) := by
    rintro ⟨hp1, hp2⟩
    have := hp hp1
    have h3 : (s.modMyEng fun x => { x with latched := some vals }).myEng.opn = s.myEng.opn := by
      simp [State.myEng, State.modMyEng]
    rw [h3] at hp2
    omega
  rw [if_neg h2]
  refine ⟨_, rfl, (modMyEng_walks s (fun x => { x with latched := some vals }) fun _ => rfl).trans (learnTokens_walks _ _ _ _ _ _), ?_, ?_⟩
  swap
  · have h3 : ∀ (u : State) k e vs j, (learnTokens u k e vs).task j = u.task j := by
      intro u k e vs j
      unfold learnTokens
      split
      · split <;> simp
      · rfl
    have h4 : ∀ (u : State) k e vs, (learnTokens u k e vs).key = u.key := fun u k e vs =>
      (learnTokens_walks u k e vs 0 .s).key
    refine ⟨⟨by simp [State.me, h3, h4, State.modMyEng, State.modEng, State.task_setEng],
      by simp [State.me, h3, h4, State.modMyEng, State.modEng, State.task_setEng]⟩, some vals, ?_⟩
    have h5 : ∀ (u : State) k e vs, (learnTokens u k e vs).cur = u.cur := fun u k e vs =>
      (learnTokens_walks u k e vs 0 .s).cur
    unfold State.myEng State.eng
    rw [h3, h4, h5]
    simp [State.modMyEng, State.modEng, State.task_setEng, State.eng]
  intro hc g hg hd
  have hk : ∀ s : State, ∀ f, (State.modMyEng s f).gangOf s.key = s.gangOf s.key := by
    intro s f
    simp [State.gangOf, State.gang, State.modMyEng, State.modEng, State.task_setEng]
  have key : ∀ u : State, (∀ g, u.gangOf u.key = some g → g.det = true → g.race = []) →
      ∀ g, (learnTokens u u.key u.cur.eng vals).gangOf u.key = some g → g.det = true → g.race = [] := by
    intro u hu g hg hd
    unfold learnTokens at hg
    split at hg
    · rename_i g0 h0
      split at hg
      · rename_i hdet
        have hr0 := hu g0 h0 hdet
        unfold State.gangOf at hg h0
        simp only [State.modGang_task] at hg
        split at hg
        · exact absurd hg (by simp)
        · rename_i n hn
          rw [hn] at h0
          simp only [State.gang, State.modGang] at hg h0
          rw [List.find?_map] at hg
          have hcomp : ((fun x : Gang => x.id == n) ∘ fun x : Gang =>
              if x.id = g0.id then (x.learn u.key u.cur.eng (vals.flatMap (x.tokenIds u.key))).trim else x)
              = fun x : Gang => x.id == n := by
            funext x
            simp only [Function.comp]
            split <;> rfl
          rw [hcomp, h0] at hg
          simp only [Option.map_some, Option.some.injEq, if_true] at hg
          subst hg
          simp [Gang.trim, Gang.learn, hr0]
      · exact hu g hg hd
    · exact hu g hg hd
  refine key (s.modMyEng fun x => { x with latched := some vals }) ?_ g
    (by rw [(learnTokens_walks _ _ _ _ 0 .s).key] at hg; exact hg) hd
  intro g hg hd
  exact hc g (by simpa [hk] using hg) hd

/-- An instruction past its token waits does what its body does, in a state that differs in its latched tokens and the race checker
alone: the path queue, the record that S has to emit and the rest of the engine are the same, and no instruction has entered the race checker. -/
theorem issue_ready (prod : Bool) (body : State → State) (s : State) (h : CanIssue s)
    (hp : prod = true → s.myEng.opn.length < tokenLimit) :
    ∃ t, issue prod body s = body t ∧ Walks s.key s.cur.eng s t ∧ (CheckerIdle s → CheckerIdle t) ∧ (t.me.recs = s.me.recs ∧ t.me.emit = s.me.emit)
      ∧ ∃ l, t.myEng = { s.myEng with latched := l } := by
  obtain ⟨vals, hv, hd⟩ := h
  unfold issueValues at hv
  unfold issue
  cases hl : s.myEng.latched with
  | some v =>
    simp only [hl, Option.some.injEq] at hv
    subst hv
    exact afterTokens_ready prod _ body s hd hp
  | none =>
    simp only [hl] at hv
    split at hv
    · exact absurd hv (by simp)
    · rename_i hw
      cases hv
      simp only [hw, if_false]
      exact afterTokens_ready prod _ body s hd hp

end Sys2Proof.Machine
end

