-- ==== Sys2Proof/Laws/Registers.lean ====
section
/-!
SUPPORT. The registers of S, C and A read and written (15 R258, 07 R121, 14 R247).
-/

namespace Sys2Proof.Machine

/-! ### Reading after writing -/

@[simp] theorem setS_key (s : State) (n : Nat) (v : Word) : (setS s n v).key = s.key := by
  unfold setS; split <;> simp
@[simp] theorem setS_cur (s : State) (n : Nat) (v : Word) : (setS s n v).cur = s.cur := by
  unfold setS; split <;> simp
@[simp] theorem setP_key (s : State) (n v : Nat) : (setP s n v).key = s.key := by
  unfold setP; split <;> simp
@[simp] theorem setP_cur (s : State) (n v : Nat) : (setP s n v).cur = s.cur := by
  unfold setP; split <;> simp
@[simp] theorem setC_key (s : State) (n : Nat) (v : Word) : (setC s n v).key = s.key := by simp [setC]
@[simp] theorem setC_cur (s : State) (n : Nat) (v : Word) : (setC s n v).cur = s.cur := by simp [setC]

theorem me_modMe (s : State) (f : Task → Task) : (s.modMe f).me = f s.me := by
  simp [State.me, State.modMe]

/-- A register of S read after a write: register 0 keeps 0 (R258). -/
theorem sv_setS (s : State) (d n : Nat) (v : Word) : sv (setS s d v) n = if n = d ∧ d ≠ 0 then v else sv s n := by
  unfold setS sv
  by_cases hd : d = 0
  · simp [hd]
  · simp only [hd, if_false, me_modMe, Sparse.rd_wr]
    by_cases hn : n = d
    · subst hn; simp [hd]
    · simp only [hn, if_false, false_and]

/-- A predicate read after a write: predicate 0 keeps T (R258). -/
theorem pv_setP (s : State) (d n : Nat) (v : Nat) : pv (setP s d v) n = if n = d ∧ d ≠ 0 then v else pv s n := by
  unfold setP pv
  by_cases hd : d = 0
  · simp [hd]
  · simp only [hd, if_false, me_modMe, Sparse.rd_wr]
    by_cases hn : n = d
    · subst hn; simp [hd]
    · simp only [hn, if_false, false_and]

/-- An address register of C read after a write. -/
theorem cv_setC (s : State) (d n : Nat) (v : Word) : cv (setC s d v) n = if n = d then v else cv s n := by
  unfold setC cv
  simp only [me_modMe, Sparse.rd_wr]

/-! ### Reading in a state that only an engine has walked from -/

namespace Walks

variable {e : Eng} {s t : State}

theorem me_field {α : Type} (h : Walks s.key e s t) (f : Task → α) (hf : ∀ x : Task, f (x.still e) = f x) : f t.me = f s.me := by
  unfold State.me
  rw [h.key]
  exact h.field f hf

theorem sv (h : Walks s.key e s t) (n : Nat) : Machine.sv t n = Machine.sv s n := by
  unfold Machine.sv
  rw [h.me_field (fun x => Sparse.rd 0 x.sreg n) fun _ => rfl]
theorem pv (h : Walks s.key e s t) (n : Nat) : Machine.pv t n = Machine.pv s n := by
  unfold Machine.pv
  rw [h.me_field (fun x => Sparse.rd 0 x.pred n) fun _ => rfl]
theorem cv (h : Walks s.key e s t) (n : Nat) : Machine.cv t n = Machine.cv s n :=
  h.me_field (fun x => Sparse.rd 0 x.creg n) fun _ => rfl
theorem av (h : Walks s.key e s t) (n : Nat) : Machine.av t n = Machine.av s n :=
  h.me_field (fun x => Sparse.rd 0 x.areg n) fun _ => rfl
theorem immS (h : Walks s.key e s t) (imm : Nat) : Machine.immS t imm = Machine.immS s imm := by
  unfold Machine.immS; rw [h.cur]
theorem tbb (h : Walks s.key e s t) : t.me.csr.tbb = s.me.csr.tbb := h.me_field (fun x => x.csr.tbb) fun _ => rfl

/-- The executing task changed in the same way on both sides, where the change does not touch the walk. -/
theorem modMe (h : Walks s.key e s t) (f : Task → Task) (hf : ∀ a b : Task, a.still e = b.still e → (f a).still e = (f b).still e) :
    Walks s.key e (s.modMe f) (t.modMe f) := by
  unfold State.modMe
  rw [h.key]
  exact h.modTask f f (hf _ _ h.2)

theorem setS (h : Walks s.key e s t) (n : Nat) (v : Word) : Walks s.key e (Machine.setS s n v) (Machine.setS t n v) := by
  unfold Machine.setS
  split
  · exact h
  · refine h.modMe _ fun a b hab => ?_
    have h1 : a.sreg = b.sreg := (congrArg Task.sreg hab :)
    simp only [Task.still, Task.mk.injEq] at hab ⊢
    simp_all

theorem setP (h : Walks s.key e s t) (n v : Nat) : Walks s.key e (Machine.setP s n v) (Machine.setP t n v) := by
  unfold Machine.setP
  split
  · exact h
  · refine h.modMe _ fun a b hab => ?_
    have h1 : a.pred = b.pred := (congrArg Task.pred hab :)
    simp only [Task.still, Task.mk.injEq] at hab ⊢
    simp_all

theorem setC (h : Walks s.key e s t) (n : Nat) (v : Word) : Walks s.key e (Machine.setC s n v) (Machine.setC t n v) := by
  unfold Machine.setC
  refine h.modMe _ fun a b hab => ?_
  have h1 : a.creg = b.creg := (congrArg Task.creg hab :)
  simp only [Task.still, Task.mk.injEq] at hab ⊢
  simp_all

end Walks

end Sys2Proof.Machine
end

