-- ==== Sys2Proof/Laws/Does.lean ====
section
/-!
SUPPORT. The relation Walks kept by the operations that the meanings share, and the form in which every statement about an
instruction comes out: what issue and retirement leave to prove (02 R37, R38; 15 R258; 19 R340).
-/

namespace Sys2Proof.Machine

namespace Walks

variable {k : Nat} {e : Eng} {s t u : State}

theorem eng_still (h : Walks k e s t) : (t.eng k e).still = (s.eng k e).still := by
  have := congrArg (fun m => Sparse.rd ({} : EngSt) (Task.engs m) e.tag) h.2
  simpa only [Task.still, Sparse.rd_wr_same, State.eng] using this

/-- A field of the executing engine that its walk does not hold. -/
theorem my {α : Type} (h : Walks s.key s.cur.eng s t) (f : EngSt → α) (hf : ∀ x : EngSt, f x.still = f x) :
    f t.myEng = f s.myEng := by
  unfold State.myEng
  rw [h.key, h.cur]
  exact h.engField f hf

/-- One engine changed in the same way on both sides. -/
theorem modEng (h : Walks k e s t) (f : EngSt → EngSt) (hf : ∀ a b : EngSt, a.still = b.still → (f a).still = (f b).still) :
    Walks k e (s.modEng k e f) (t.modEng k e f) := by
  unfold State.modEng State.setEng
  refine h.modTask _ _ ?_
  have h1 := hf _ _ h.eng_still
  have h2 := h.2
  simp only [Task.still, Sparse.rd_wr_same, Sparse.wr_wr, Task.mk.injEq] at h2 ⊢
  have h3 : Sparse.del (t.task k).engs e.tag = Sparse.del (s.task k).engs e.tag := by
    have := congrArg (fun m => Sparse.del m e.tag) h2.2.2.1
    simpa using this
  have h4 : ∀ v : EngSt, Sparse.wr {} (t.task k).engs e.tag v = Sparse.wr {} (s.task k).engs e.tag v := by
    intro v
    unfold Sparse.wr
    rw [h3]
  refine ⟨h2.1, h2.2.1, ?_, h2.2.2.2⟩
  rw [h4, h1]

theorem modMyEng (h : Walks s.key s.cur.eng s t) (f : EngSt → EngSt)
    (hf : ∀ a b : EngSt, a.still = b.still → (f a).still = (f b).still) :
    Walks s.key s.cur.eng (s.modMyEng f) (t.modMyEng f) := by
  unfold State.modMyEng
  rw [h.key, h.cur]
  exact h.modEng f hf

/-! ### Gangs -/

/-- A gang is the same up to the race checker. -/
theorem gang_bare (h : Walks k e s t) (n : Nat) : (t.gang n).map Gang.bare = (s.gang n).map Gang.bare := by
  have h1 : t.dist.gangs.map Gang.bare = s.dist.gangs.map Gang.bare := (congrArg (fun s => s.dist.gangs) h.1 :)
  have key : ∀ l : List Gang, (l.find? fun x => x.id == n).map Gang.bare = (l.map Gang.bare).find? fun x => x.id == n := by
    intro l
    rw [List.find?_map]
    rfl
  unfold State.gang
  rw [key, key, h1]

theorem gangOf_bare (h : Walks k e s t) (j : Nat) : (t.gangOf j).map Gang.bare = (s.gangOf j).map Gang.bare := by
  unfold State.gangOf
  have hg : (t.task j).gang = (s.task j).gang := by
    by_cases hj : j = k
    · subst hj; exact h.field (fun x => x.gang) fun _ => rfl
    · rw [h.task_ne hj]
  rw [hg]
  cases (s.task j).gang with
  | none => rfl
  | some n => exact h.gang_bare n

/-- A field of the gang that the race checker does not hold. -/
theorem gang_field {α : Type} (h : Walks k e s t) (j : Nat) (f : Gang → α) (hf : ∀ g : Gang, f g.bare = f g) :
    (t.gangOf j).map f = (s.gangOf j).map f := by
  have h1 := congrArg (Option.map f) (h.gangOf_bare j)
  simpa only [Option.map_map, Function.comp_def, hf] using h1

/-- One gang changed in the same way on both sides. -/
theorem modGang (h : Walks k e s t) (n : Nat) (f : Gang → Gang) (hf : ∀ a b : Gang, a.bare = b.bare → (f a).bare = (f b).bare) :
    Walks k e (s.modGang n f) (t.modGang n f) := by
  refine ⟨?_, by simpa using h.2⟩
  have h1 := h.1
  simp only [State.rest, State.modGang, List.map_map] at h1 ⊢
  rw [State.mk.injEq] at h1 ⊢
  have key : ∀ a b : Gang, a.bare = b.bare →
      (if a.id = n then f a else a).bare = (if b.id = n then f b else b).bare := by
    intro a b hab
    have hid : a.id = b.id := (congrArg Gang.id hab :)
    rw [hid]
    split
    · exact hf a b hab
    · exact hab
  have hm : ∀ l l' : List Gang, l.map Gang.bare = l'.map Gang.bare →
      l.map (Gang.bare ∘ fun x => if x.id = n then f x else x) = l'.map (Gang.bare ∘ fun x => if x.id = n then f x else x) := by
    intro l
    induction l with
    | nil => intro l' h; cases l' with
      | nil => rfl
      | cons _ _ => simp at h
    | cons a r ih =>
      intro l' h
      cases l' with
      | nil => simp at h
      | cons b r' =>
        simp only [List.map_cons, List.cons.injEq] at h ⊢
        exact ⟨key a b h.1, ih r' h.2⟩
  obtain ⟨a1, a2, a3, a4, a5, a6, a7, a8, a9, a10⟩ := h1
  refine ⟨a1, a2, a3, a4, a5, a6, a7, a8, ?_, a10⟩
  rw [Dist.mk.injEq] at a9 ⊢
  obtain ⟨b1, b2, b3⟩ := a9
  exact ⟨b1, hm _ _ b2, b3⟩

/-! ### Row lines -/

/-- The same fold on both sides. -/
theorem foldl {α : Type} (f : State → α → State) (hf : ∀ (s t : State) (x : α), Walks k e s t → Walks k e (f s x) (f t x)) :
    ∀ (l : List α) (s t : State), Walks k e s t → Walks k e (l.foldl f s) (l.foldl f t)
  | [], _, _, h => h
  | x :: r, _, _, h => by
    rw [List.foldl_cons, List.foldl_cons]
    exact foldl f hf r _ _ (hf _ _ x h)

theorem modMem (h : Walks k e s t) (f : Mem → Mem) : Walks k e { s with mem := f s.mem } { t with mem := f t.mem } := by
  refine ⟨?_, h.2⟩
  have h1 := h.1
  have h2 := h.mem
  simp only [State.rest, State.mk.injEq] at h1 ⊢
  simp_all

theorem writeBack (h : Walks k e s t) (p x : Nat) : Walks k e (Machine.writeBack s p x) (Machine.writeBack t p x) := by
  unfold Machine.writeBack
  rw [h.chan]
  cases Sparse.rd none (s.chan p).slots x with
  | none => exact h
  | some l => exact (h.modMem fun m => Sparse.paste m (32 * stripAt p l.row (x / 8) 0) 1024 l.data).modChan p _

theorem releaseRows (h : Walks k e s t) (j : Nat) : Walks k e (Machine.releaseRows s j) (Machine.releaseRows t j) := by
  unfold Machine.releaseRows Machine.openRows
  rw [h.chan]
  split
  · exact h
  · exact foldl _ (fun _ _ x h => h.writeBack _ x) _ _ _ (h.modChan _ _)

theorem releaseGang (h : Walks k e s t) {g g' : Gang} (hg : g'.live = g.live) :
    Walks k e (Machine.releaseGang s g) (Machine.releaseGang t g') := by
  unfold Machine.releaseGang
  simp only [h.die, hg]
  exact foldl _ (fun _ _ j h => h.releaseRows j) _ _ _ h

/-! ### Causes -/

theorem detach (h : Walks k e s t) (j code va imm : Nat) : Walks k e (Machine.detach s j code va imm) (Machine.detach t j code va imm) := by
  have hg := h.gangOf_bare j
  have hi : (t.task j).index = (s.task j).index := by
    by_cases hj : j = k
    · subst hj; exact h.field (fun x => x.index) fun _ => rfl
    · rw [h.task_ne hj]
  unfold Machine.detach
  cases h1 : s.gangOf j with
  | none =>
    rw [h1] at hg
    cases h2 : t.gangOf j with
    | none => exact h
    | some g => rw [h2] at hg; simp at hg
  | some g =>
    rw [h1] at hg
    cases h2 : t.gangOf j with
    | none => rw [h2] at hg; simp at hg
    | some g' =>
      rw [h2] at hg
      simp only [Option.map_some, Option.some.injEq] at hg
      have hst : g'.st = g.st := (congrArg Gang.st hg :)
      have hid : g'.id = g.id := (congrArg Gang.id hg :)
      have he : t.entryIndex (t.die (dieOf (j / 2))).beat = s.entryIndex (s.die (dieOf (j / 2))).beat := by
        unfold State.entryIndex
        simp only [h.die, h.reg, h.grid]
      dsimp only
      by_cases hc : g.st = .attached
      · rw [if_pos hc, if_pos (hst.trans hc)]
        rw [hid, hi, h.now, he, h.die]
        have hl : g'.live = g.live := (congrArg Gang.live hg :)
        refine (h.releaseGang hl).modGang _ _ fun a b hab => ?_
        simp only [Gang.bare, Gang.mk.injEq] at hab ⊢
        simp_all
      · rw [if_neg hc, if_neg (fun x => hc (hst.symm.trans x))]
        exact h

theorem raiseCause (h : Walks k e s t) (j code va imm : Nat) :
    Walks k e (Machine.raiseCause s j code va imm) (Machine.raiseCause t j code va imm) := by
  unfold Machine.raiseCause
  dsimp only
  rw [h.die]
  cases (s.die (dieOf (j / 2))).power.window with
  | none => exact h.detach j code va imm
  | some _ => exact h.modDie _ _

theorem trapAt (h : Walks s.key s.cur.eng s t) (code va : Nat) :
    Walks s.key s.cur.eng (Machine.trapAt code va s) (Machine.trapAt code va t) := by
  unfold Machine.trapAt
  rw [h.key]
  refine Walks.raiseCause ?_ _ _ _ _
  refine h.modMyEng _ fun a b hab => ?_
  simp only [EngSt.still, EngSt.mk.injEq] at hab ⊢
  simp_all

theorem trap (h : Walks s.key s.cur.eng s t) (code : Nat) :
    Walks s.key s.cur.eng (Machine.trap code s) (Machine.trap code t) := h.trapAt code 0

end Walks

/-! A cause changes gangs and dies, and the row lines of the gang's own pseudo-channels, which are written back, alone. -/

/-- s with other row lines, gangs and dies. -/
def State.caused (s : State) (c : Sparse Chan) (m : Mem) (d : Dist) (l : Sparse Die) : State :=
  { s with chans := c, mem := m, dist := d, dies := l }

theorem writeBack_eq (s : State) (p x : Nat) : ∃ c m, writeBack s p x = s.caused c m s.dist s.dies := by
  unfold writeBack
  split
  · exact ⟨s.chans, s.mem, rfl⟩
  · exact ⟨_, _, rfl⟩

theorem foldl_caused {α : Type} (f : State → α → State) (hf : ∀ s x, ∃ c m, f s x = State.caused s c m s.dist s.dies) :
    ∀ (l : List α) (s : State), ∃ c m, l.foldl f s = s.caused c m s.dist s.dies
  | [], s => ⟨s.chans, s.mem, rfl⟩
  | x :: r, s => by
    obtain ⟨c, m, h⟩ := hf s x
    obtain ⟨c', m', h'⟩ := foldl_caused f hf r (f s x)
    exact ⟨c', m', by rw [List.foldl_cons, h', h]; rfl⟩

theorem releaseRows_eq (s : State) (k : Nat) : ∃ c m, releaseRows s k = s.caused c m s.dist s.dies := by
  unfold releaseRows
  split
  · exact ⟨s.chans, s.mem, rfl⟩
  · obtain ⟨c, m, h⟩ := foldl_caused _ (fun s x => writeBack_eq s (k / 2) x) (List.range 128)
      (s.modChan (k / 2) fun c => { c with saved := (c.saved.filter fun y => (openRows s (k / 2)).all fun z => z.x != y.x) ++ openRows s (k / 2) })
    exact ⟨c, m, h⟩

theorem releaseGang_eq (s : State) (g : Gang) : ∃ c m, releaseGang s g = s.caused c m s.dist s.dies :=
  foldl_caused _ releaseRows_eq _ s

theorem detach_eq (s : State) (k code va imm : Nat) :
    ∃ c m d, Machine.detach s k code va imm = s.caused c m d s.dies := by
  unfold Machine.detach
  split
  · exact ⟨s.chans, s.mem, s.dist, rfl⟩
  · split
    · rename_i g _ _
      obtain ⟨c, m, h⟩ := releaseGang_eq s g
      exact ⟨c, m, _, by rw [h]; rfl⟩
    · exact ⟨s.chans, s.mem, s.dist, rfl⟩

theorem raiseCause_eq (s : State) (k code va imm : Nat) :
    ∃ c m d l, Machine.raiseCause s k code va imm = s.caused c m d l := by
  unfold Machine.raiseCause
  dsimp only
  split
  · exact ⟨s.chans, s.mem, s.dist, _, rfl⟩
  · obtain ⟨c, m, d, h⟩ := detach_eq s k code va imm
    exact ⟨c, m, d, s.dies, h⟩

@[simp] theorem raiseCause_cur (s : State) (k code va imm : Nat) : (raiseCause s k code va imm).cur = s.cur := by
  obtain ⟨c, m, d, l, h⟩ := raiseCause_eq s k code va imm; rw [h]; rfl
@[simp] theorem raiseCause_key (s : State) (k code va imm : Nat) : (raiseCause s k code va imm).key = s.key := by
  obtain ⟨c, m, d, l, h⟩ := raiseCause_eq s k code va imm; rw [h]; rfl
@[simp] theorem raiseCause_task (s : State) (k code va imm j : Nat) : (raiseCause s k code va imm).task j = s.task j := by
  obtain ⟨c, m, d, l, h⟩ := raiseCause_eq s k code va imm; rw [h]; rfl
@[simp] theorem raiseCause_eng (s : State) (k code va imm j : Nat) (e : Eng) :
    (raiseCause s k code va imm).eng j e = s.eng j e := by simp [State.eng]
@[simp] theorem raiseCause_core (s : State) (k code va imm c : Nat) : (raiseCause s k code va imm).core c = s.core c := by
  obtain ⟨c', m, d, l, h⟩ := raiseCause_eq s k code va imm; rw [h]; rfl

/-! ### Issue and retirement -/

/-- In t the executing engine is at the same place of its walk as in s: the same pass of its block, the same path records. -/
def AtIt (s t : State) : Prop := t.myEng.passes = s.myEng.passes ∧ t.me.recs = s.me.recs

theorem AtIt.refl (s : State) : AtIt s s := ⟨rfl, rfl⟩

/-- A change of a task that keeps its engines. -/
theorem eng_modTask {s : State} {k : Nat} {f : Task → Task} (hf : ∀ t, (f t).engs = t.engs) (j : Nat) (i : Eng) :
    (s.modTask k f).eng j i = s.eng j i := by
  unfold State.eng State.modTask
  rw [State.task_setTask]
  split
  · rename_i h; rw [hf, h]
  · rfl

/-- A change of the executing task that keeps its engines and its path records. -/
theorem AtIt.modMe {s t : State} (h : AtIt s t) (f : Task → Task) (he : ∀ x, (f x).engs = x.engs) (hr : ∀ x, (f x).recs = x.recs) :
    AtIt s (t.modMe f) :=
  ⟨(congrArg EngSt.passes (eng_modTask he _ _)).trans h.1,
    ((congrArg Task.recs (State.task_modTask_same _ _ _)).trans (hr _)).trans h.2⟩

/-- What issue leaves to prove of an instruction: its body, in a state that only the executing engine has walked to. -/
theorem issue_does {prod : Bool} {body : State → State} {s u : State} (h : CanIssue s)
    (hp : prod = true → s.myEng.opn.length < tokenLimit)
    (hb : ∀ t, Walks s.key s.cur.eng s t → (CheckerIdle s → CheckerIdle t) → AtIt s t →
      Walks s.key s.cur.eng u (body t) ∧ PastIt s (body t)) :
    Walks s.key s.cur.eng u (issue prod body s) ∧ PastIt s (issue prod body s) := by
  obtain ⟨t, ht, hw, hc, hr, l, hl⟩ := issue_ready prod body s h hp
  rw [ht]
  exact hb t hw hc ⟨by rw [hl], hr.1⟩

theorem issue_moves {prod : Bool} {body : State → State} {s u : State} (h : CanIssue s)
    (hp : prod = true → s.myEng.opn.length < tokenLimit)
    (hb : ∀ t, Walks s.key s.cur.eng s t → (CheckerIdle s → CheckerIdle t) → Walks s.key s.cur.eng u (body t)) :
    Walks s.key s.cur.eng u (issue prod body s) := by
  obtain ⟨t, ht, hw, hc, -⟩ := issue_ready prod body s h hp
  rw [ht]
  exact hb t hw hc

/-- Retirement leaves the executing engine past its instruction. -/
theorem advance_past {s x : State} (hc : x.cur = s.cur) (hb : x.myEng.body = s.myEng.body) (hl : x.myEng.len = s.myEng.len)
    (hs : x.myEng.serial = s.myEng.serial) (ha : AtIt s x) : PastIt s (advance x) := by
  have hk : x.key = s.key := by simp [State.key, hc]
  have h1 : (stepOver x).myEng.pc = s.cur.pc + 2 * s.cur.size := by simp [stepOver, State.myEng, State.modMyEng, hc]
  have h2 : ∀ {α : Type} (f : EngSt → α), (∀ y p w l, f { y with pc := p, wait := w, latched := l } = f y) → f (stepOver x).myEng = f x.myEng := by
    intro α f hf; simp [stepOver, State.myEng, State.modMyEng, hf]
  have hb2 : (stepOver x).myEng.body = s.myEng.body := (h2 (fun y => y.body) fun _ _ _ _ => rfl).trans hb
  have hl2 : (stepOver x).myEng.len = s.myEng.len := (h2 (fun y => y.len) fun _ _ _ _ => rfl).trans hl
  have hs2 : (stepOver x).myEng.serial = s.myEng.serial := (h2 (fun y => y.serial) fun _ _ _ _ => rfl).trans hs
  have hp2 : (stepOver x).myEng.passes = s.myEng.passes := (h2 (fun y => y.passes) fun _ _ _ _ => rfl).trans ha.1
  have hk2 : (stepOver x).key = s.key := by rw [← hk]; simp [stepOver, State.modMyEng]
  have hc2 : (stepOver x).cur = s.cur := by rw [← hc]; simp [stepOver, State.modMyEng]
  have ht2 : (stepOver x).me.recs = s.me.recs := by
    rw [← ha.2]
    simp [stepOver, State.me, State.modMyEng, State.modEng, State.task_setEng]
  have hadv : advance x = if s.cur.pc + 2 * s.cur.size = s.myEng.body + 2 * s.myEng.len then passEnd (stepOver x) s.key s.cur.eng
      else stepOver x := by
    rw [← h1, ← hb2, ← hl2, ← hk2, ← hc2]; rfl
  have hca : (advance x).cur = s.cur := by rw [(advance_walks x).cur, hc]
  have hp := passEnd_place (stepOver x) s.key s.cur.eng
  have he : (stepOver x).eng s.key s.cur.eng = (stepOver x).myEng := by rw [State.myEng, hk2, hc2]
  have hm : (stepOver x).task s.key = (stepOver x).me := by rw [State.me, hk2]
  dsimp only at hp
  rw [he, hm, hb2, hl2, hs2, hp2, ht2] at hp
  obtain ⟨p1, p2, p3⟩ := hp
  have hme : ∀ t : State, t.cur = s.cur → t.myEng = t.eng s.key s.cur.eng ∧ t.me = t.task s.key := by
    intro t h; simp [State.myEng, State.me, State.key, h]
  refine ⟨fun h => by rw [hadv, if_neg h]; exact h1, fun h hq => ?_, fun h hq hn => ?_, fun h hq hn => ?_⟩
  · rw [(hme _ hca).1, hadv, if_pos h]; exact p1 hq
  · rw [(hme _ hca).1, hadv, if_pos h]; exact p2 hq hn
  · have hcsr : ((passEnd (stepOver x) s.key s.cur.eng).task s.key).csr.win = (stepOver x).me.csr.win := by
      have hw := passEnd_walks (stepOver x) s.key s.cur.eng
      rw [hw.field (fun y => y.csr.win) fun _ => rfl, hm]
    rw [(hme _ hca).1, (hme _ hca).2, hadv, if_pos h, hcsr, show s.myEng = s.myEng from rfl]
    have := p3 hq hn
    rw [hn] at this ⊢
    exact this

/-- Retirement of an instruction that has led from s to u. -/
theorem advance_does {s u x : State} (hx : Walks s.key s.cur.eng u x) (hc : u.cur = s.cur)
    (hb : u.myEng.body = s.myEng.body) (hl : u.myEng.len = s.myEng.len) (hs : u.myEng.serial = s.myEng.serial) (ha : AtIt s x) :
    Walks s.key s.cur.eng u (advance x) ∧ PastIt s (advance x) := by
  have hk : u.key = s.key := by simp [State.key, hc]
  have hx' : Walks u.key u.cur.eng u x := by rw [hk, hc]; exact hx
  refine ⟨?_, advance_past (hx.cur.trans hc) ?_ ?_ ?_ ha⟩
  · have h1 := advance_walks x
    rw [hx.key, hk, hx.cur, hc] at h1
    exact hx.trans h1
  · rw [← hb]; exact hx'.my (fun x => x.body) fun _ => rfl
  · rw [← hl]; exact hx'.my (fun x => x.len) fun _ => rfl
  · rw [← hs]; exact hx'.my (fun x => x.serial) fun _ => rfl

/-- An instruction of S that writes one register. -/
theorem scalarOp_does (d : Nat) (f : State → Word) (s : State) (h : CanIssue s)
    (hf : ∀ t, Walks s.key s.cur.eng s t → f t = f s) :
    Walks s.key s.cur.eng (setS s d (f s)) (scalarOp d f s) ∧ PastIt s (scalarOp d f s) := by
  refine issue_does h (by simp) fun t hw _ ha => ?_
  rw [hf t hw]
  have he : ∀ s : State, (setS s d (f s)).myEng = s.myEng ∧ (setS s d (f s)).me.recs = s.me.recs := by
    intro s; unfold setS; split <;> simp [State.myEng, State.me, State.modMe, State.eng]
  have he2 : ∀ (s : State) v, (setS s d v).myEng = s.myEng ∧ (setS s d v).me.recs = s.me.recs := by
    intro s v; unfold setS; split <;> simp [State.myEng, State.me, State.modMe, State.eng]
  exact advance_does (hw.setS d (f s)) (by simp) (by rw [(he s).1]) (by rw [(he s).1]) (by rw [(he s).1])
    ⟨by rw [(he2 t _).1, ha.1], by rw [(he2 t _).2, ha.2]⟩

/-- An instruction of S that writes one predicate. -/
theorem predOp_does (d : Nat) (f : State → Nat) (s : State) (h : CanIssue s)
    (hf : ∀ t, Walks s.key s.cur.eng s t → f t = f s) :
    Walks s.key s.cur.eng (setP s d (f s)) (predOp d f s) ∧ PastIt s (predOp d f s) := by
  refine issue_does h (by simp) fun t hw _ ha => ?_
  rw [hf t hw]
  have he2 : ∀ (s : State) v, (setP s d v).myEng = s.myEng ∧ (setP s d v).me.recs = s.me.recs := by
    intro s v; unfold setP; split <;> simp [State.myEng, State.me, State.modMe, State.eng]
  exact advance_does (hw.setP d (f s)) (by simp) (by rw [(he2 s _).1]) (by rw [(he2 s _).1]) (by rw [(he2 s _).1])
    ⟨by rw [(he2 t _).1, ha.1], by rw [(he2 t _).2, ha.2]⟩

end Sys2Proof.Machine
end

