-- ==== Sys2Proof/Laws/Reading.lean ====
section
/-!
SUPPORT. A read by physical address of sound strips gives the bytes that a reader sees, and changes nothing (03_memory R53, R89).
-/

namespace Sys2Proof.Machine

theorem rdList_length (m : Mem) : ∀ (n a : Nat), (m.rdList a n).length = n
  | 0, _ => rfl
  | n + 1, a => by simp [Mem.rdList, rdList_length m n (a + 1)]

theorem rdList_getD (m : Mem) : ∀ (n a i : Nat), i < n → (m.rdList a n).getD i 0#8 = m.get (a + i)
  | n + 1, a, 0, _ => by simp [Mem.rdList]
  | n + 1, a, i + 1, h => by
    have := rdList_getD m n (a + 1) i (by omega)
    simpa [Mem.rdList, Nat.add_assoc, Nat.add_comm 1 i] using this

/-- Bytes read one by one. -/
theorem rdList_eq (m : Mem) (a n : Nat) : m.rdList a n = (List.range n).map fun i => m.get (a + i) := by
  apply List.ext_getElem
  · simp [rdList_length]
  · intro i h1 h2
    rw [rdList_length] at h1
    have := rdList_getD m n a i h1
    rw [List.getD_eq_getElem _ _ (by rw [rdList_length]; exact h1)] at this
    simp [this]

theorem stripData_length (s : State) (x : Nat) : (s.stripData x).length = 32 := by
  unfold State.stripData
  split <;> exact rdList_length _ _ _

/-- Addresses of one aligned 32-byte unit lie in one strip. -/
theorem stripOf_congr (s : State) {a b : Nat} (h : a / 32 = b / 32) : s.stripOf a = s.stripOf b := by
  have h1 : a / 2 ^ 21 = b / 2 ^ 21 := by
    rw [show (2 : Nat) ^ 21 = 32 * 65536 from rfl, ← Nat.div_div_eq_div_mul, ← Nat.div_div_eq_div_mul, h]
  have h2 : chanOf a = chanOf b := by
    unfold chanOf
    rw [show (2 : Nat) ^ 30 = 32 * 33554432 from rfl, ← Nat.div_div_eq_div_mul, ← Nat.div_div_eq_div_mul, h]
  have h3 : a % 2 ^ 21 / 32 = b % 2 ^ 21 / 32 := by omega
  unfold State.stripOf State.stripIn State.ccFrame
  simp only [h1, h2, h3, h]

theorem eccRead_sound (s : State) (x src : Nat) (h : ∀ f ∈ s.cellFaults, f.strip ≠ x) :
    eccRead s x src = (s, some (s.stripData x)) := by
  unfold eccRead
  have : s.cellFaults.find? (fun f => f.strip == x) = none := by
    rw [List.find?_eq_none]
    intro f hf
    simpa using h f hf
  rw [this]

theorem part_eq (l : List Byte) (o m : Nat) (h : o + m ≤ l.length) :
    (l.drop o).take m = (List.range m).map fun i => l.getD (o + i) 0#8 := by
  apply List.ext_getElem
  · simp; omega
  · intro i h1 h2
    simp only [List.length_map, List.length_range] at h2
    simp [List.getElem?_eq_getElem (show o + i < l.length by omega)]

theorem fastRead_sound (s : State) (src : Nat) : ∀ (k pa n : Nat), n = 0 ∨ (pa % 32 + n + 31) / 32 ≤ k →
    (∀ i < n, isLost s (chanOf (pa + i)) = false ∧ ∀ f ∈ s.cellFaults, f.strip ≠ s.stripOf (pa + i)) →
    fastRead s s.stripOf src (spans 32 k pa n) =
      (s, .ok ((List.range n).map fun i => (s.stripData (s.stripOf (pa + i))).getD ((pa + i) % 32) 0#8))
  | 0, pa, n, hk, _ => by
    obtain rfl : n = 0 := by omega
    rfl
  | k + 1, pa, n, hk, hs => by
    unfold spans
    by_cases hn : n = 0
    · subst hn; simp [fastRead]
    · simp only [if_neg hn]
      unfold fastRead
      rw [if_neg (by simpa using (hs 0 (by omega)).1), eccRead_sound s _ src (by simpa using (hs 0 (by omega)).2)]
      have hm0 : Nat.min n (32 - pa % 32) ≤ n := Nat.min_le_left _ _
      have hm1 : Nat.min n (32 - pa % 32) ≤ 32 - pa % 32 := Nat.min_le_right _ _
      have hm2 : Nat.min n (32 - pa % 32) = n ∨ Nat.min n (32 - pa % 32) = 32 - pa % 32 := by
        rcases Nat.le_total n (32 - pa % 32) with h | h
        · exact .inl (Nat.min_eq_left h)
        · exact .inr (Nat.min_eq_right h)
      generalize Nat.min n (32 - pa % 32) = m at hm0 hm1 hm2
      have ih := fastRead_sound s src k (pa + m) (n - m) (by
          rcases hm2 with h | h
          · exact .inl (by omega)
          · exact .inr (by omega))
        (fun i hi => by simpa [Nat.add_assoc] using hs (m + i) (by omega))
      dsimp only
      rw [ih]
      dsimp only
      refine Prod.ext rfl ?_
      dsimp only
      congr 1
      rw [part_eq _ _ _ (by rw [stripData_length]; omega)]
      have hr : List.range n = List.range (m + (n - m)) := by rw [show m + (n - m) = n by omega]
      rw [hr, List.range_add, List.map_append, List.map_map]
      refine congrArg₂ _ ?_ ?_
      · apply List.map_congr_left
        intro i hi
        have hi : i < m := by simpa using hi
        rw [stripOf_congr s (show (pa + i) / 32 = pa / 32 by omega), show (pa + i) % 32 = pa % 32 + i by omega]
      · apply List.map_congr_left
        intro i _
        simp only [Function.comp, Nat.add_assoc]

theorem region_cap (pa : Nat) : region pa = .cap ↔ 0x010000000000 ≤ pa ∧ pa < 0x030000000000 := by
  unfold region
  constructor
  · intro h
    split_ifs at h; omega
  · intro h
    rw [if_neg (by omega), if_pos h]

theorem region_fast (pa : Nat) : region pa = .fast ↔ pa < 0x00C000000000 := by
  unfold region
  constructor
  · intro h
    split_ifs at h; omega
  · intro h
    rw [if_pos h]

theorem region_between {pa n i : Nat} (hr : region (pa + n - 1) = region pa) (hc : region pa = .cap ∨ region pa = .fast)
    (hi : i < n) : region (pa + i) = region pa := by
  rcases hc with hc | hc
  · rw [hc] at hr ⊢
    rw [region_cap] at *
    omega
  · rw [hc] at hr ⊢
    rw [region_fast] at *
    omega

/-- A read of sound strips. -/
theorem tierRead_sound (s : State) (pa n src : Nat) (h : s.Sound pa n) :
    tierRead s pa n src = (s, .ok ((List.range n).map fun i => s.byteAt (pa + i))) := by
  obtain ⟨hr, hend, hs⟩ := h
  unfold tierRead
  rcases hr with hr | hr
  · rw [if_neg (by rw [hr]; decide)]
    simp only [rdList_eq]
    refine Prod.ext rfl ?_
    dsimp only
    congr 1
    apply List.map_congr_left
    intro i hi
    unfold State.byteAt
    rw [region_between hend (.inl hr) (by simpa using hi), hr]
  · rw [if_pos hr]
    unfold stripSpans
    rw [fastRead_sound s src _ pa n (.inr (by omega)) hs]
    refine Prod.ext rfl ?_
    dsimp only
    congr 1
    apply List.map_congr_left
    intro i hi
    unfold State.byteAt
    rw [region_between hend (.inr hr) (by simpa using hi), hr]

namespace Walks

variable {k : Nat} {e : Eng} {s t u : State}

theorem ccFrame (h : Walks k e s t) (pa : Nat) : t.ccFrame pa = s.ccFrame pa := by unfold State.ccFrame; simp only [h.reg]
theorem stripOf (h : Walks k e s t) (pa : Nat) : t.stripOf pa = s.stripOf pa := by unfold State.stripOf; rw [h.ccFrame]
theorem isLost (h : Walks k e s t) (p : Nat) : Machine.isLost t p = Machine.isLost s p := by unfold Machine.isLost; rw [h.reg]
theorem stripData (h : Walks k e s t) (x : Nat) : t.stripData x = s.stripData x := by
  unfold State.stripData State.openSlot
  simp only [h.chan, h.mem]
theorem byteAt (h : Walks k e s t) (pa : Nat) : t.byteAt pa = s.byteAt pa := by
  unfold State.byteAt
  simp only [h.stripData, h.stripOf, h.mem]
theorem sound (h : Walks k e s t) {pa n : Nat} (hs : s.Sound pa n) : t.Sound pa n := by
  refine ⟨hs.1, hs.2.1, fun i hi => ⟨by rw [h.isLost]; exact (hs.2.2 i hi).1, fun f hf => ?_⟩⟩
  rw [h.stripOf]
  exact (hs.2.2 i hi).2 f (by rw [← h.cellFaults]; exact hf)
theorem placed (h : Walks k e s t) (l : Leaf) (va : Nat) : Machine.placed t l va = Machine.placed s l va := by
  unfold Machine.placed; rw [h.ccFrame]

/-- A hit of the TLB is one on both sides. -/
theorem hits {t s u : State} {e : Eng} (h : Walks s.key e s t) {va acc : Nat} {l : Leaf} (hh : Hits s va acc l u) :
    ∃ u', Hits t va acc l u' ∧ Walks s.key e u u' := by
  obtain ⟨c, h1, h2, h3, rfl⟩ := hh
  refine ⟨_, ⟨c, ?_, ?_, h3, rfl⟩, ?_⟩
  · rw [h.me_field (fun x => x.tlb) fun _ => rfl]; exact h1
  · rw [h.placed]; exact h2
  · refine h.modMe _ fun a b hab => ?_
    have ht : a.tlb = b.tlb := (congrArg Task.tlb hab :)
    simp only [Task.still, Task.mk.injEq] at hab ⊢
    simp_all

end Walks

theorem Hits.key {s u : State} {va acc : Nat} {l : Leaf} (h : Hits s va acc l u) : u.key = s.key := by
  obtain ⟨c, _, _, _, rfl⟩ := h; simp
theorem Hits.cur {s u : State} {va acc : Nat} {l : Leaf} (h : Hits s va acc l u) : u.cur = s.cur := by
  obtain ⟨c, _, _, _, rfl⟩ := h; simp
theorem Hits.myEng {s u : State} {va acc : Nat} {l : Leaf} (h : Hits s va acc l u) : u.myEng = s.myEng := by
  obtain ⟨c, _, _, _, rfl⟩ := h; simp [State.myEng, State.modMe, State.eng]

/-- A hit gives the address to what needs it. -/
theorem withPhys_hit {s u : State} {va acc : Nat} {l : Leaf} (h : Hits s va acc l u) (body : Nat → State → State) :
    withPhys va acc body s = body (l.phys va) u := by
  obtain ⟨c, h1, h2, h3, rfl⟩ := h
  unfold withPhys translate
  rw [show s.task s.key = s.me from rfl, h1]
  have h4 : Machine.placed (s.modTask s.key fun t => { t with tlb := { t.tlb with cond := c } }) l va = true := by
    rw [← h2]; rfl
  simp only [h4, h3]
  rfl

end Sys2Proof.Machine
end

