-- ==== Sys2Proof/Laws/Leaving.lean ====
section
/-!
SUPPORT. What S leaves when it leaves its block: the path record and where S goes on (02_program_text R32, R33).
-/

namespace Sys2Proof.Machine

/-! An engine that retires waits for nothing. -/

theorem tryEmit_wait (s : State) (k : Nat) (h : (s.eng k .s).wait = .none) : ((tryEmit s k).eng k .s).wait = .none := by
  unfold tryEmit
  dsimp only
  cases (s.task k).emit with
  | none => exact h
  | some r =>
    dsimp only
    by_cases hw : (s.task k).recs.length < (s.task k).csr.win
    · rw [if_pos hw]
      have he : ∀ u : State, ∀ n, (shareRecord u k n).eng k .s = u.eng k .s := by
        intro u n; unfold State.eng; rw [shareRecord_task]
      rw [he]
      simp
    · rw [if_neg hw]
      exact h

theorem leaveBlockS_wait (s : State) (k kind target : Nat) : ((leaveBlockS s k kind target).eng k .s).wait = .none := by
  unfold leaveBlockS
  dsimp only
  refine tryEmit_wait _ _ ?_
  unfold State.eng
  simp [State.task_setEng]

theorem leaveBlock_wait (s : State) (k : Nat) (e : Eng) : ((leaveBlock s k e).eng k e).wait = .none := by
  unfold leaveBlock
  dsimp only
  by_cases he : e = .s
  · rw [if_pos he]
    subst he
    exact leaveBlockS_wait _ _ _ _
  · rw [if_neg he]
    simp

theorem advance_wait (s : State) : ((advance s).eng s.key s.cur.eng).wait = .none := by
  have hk : (stepOver s).key = s.key := by simp [stepOver, State.modMyEng]
  have hc : (stepOver s).cur = s.cur := by simp [stepOver, State.modMyEng]
  have h0 : ((stepOver s).eng s.key s.cur.eng).wait = .none := by simp [stepOver, State.modMyEng]
  unfold advance
  dsimp only
  by_cases h : (stepOver s).myEng.pc = (stepOver s).myEng.body + 2 * (stepOver s).myEng.len
  · rw [if_pos h, hk, hc]
    unfold passEnd
    dsimp only
    by_cases hp : 2 ≤ ((stepOver s).eng s.key s.cur.eng).passes
    · rw [if_pos hp]
      simpa using h0
    · rw [if_neg hp]
      exact leaveBlock_wait _ _ _
  · rw [if_neg h]
    exact h0

/-- An instruction that makes S leave its block, from a state x that only the walk of S separates from u. -/
theorem leaves_of {i : Instr} {s u x : State} {kind target : Nat} (he : exec i s = .next (leaveBlockS x s.key kind target))
    (hcs : s.cur.eng = .s) (hu : Walks s.key .s u x) (hc : u.cur = s.cur)
    (hr : x.me.recs = s.me.recs) (hw : u.me.csr.win = s.me.csr.win) (hs : u.myEng.serial = s.myEng.serial) :
    Leaves i s u kind target := by
  have hk : u.key = s.key := by simp [State.key, hc]
  have hkx : x.key = s.key := by rw [hu.key, hk]
  have hl := leaveBlockS_walks x s.key kind target
  have ht := leaveBlockS_task x s.key kind target
  refine ⟨_, he, hu.trans hl, ?_⟩
  have hkt : (leaveBlockS x s.key kind target).key = s.key := by rw [hl.key, hkx]
  have hct : (leaveBlockS x s.key kind target).cur.eng = .s := by rw [hl.cur, hu.cur, hc, hcs]
  have h1 : (x.eng s.key .s).serial = s.myEng.serial := by
    rw [← hs]
    unfold State.myEng
    rw [hk, hc, hcs]
    exact hu.engField (fun x => x.serial) fun _ => rfl
  have h2 : (x.task s.key).csr.win = s.me.csr.win := by
    rw [← hw]
    unfold State.me
    rw [hk]
    exact hu.field (fun x => x.csr.win) fun _ => rfl
  have h3 : (x.task s.key).recs = s.me.recs := by rw [← hr, State.me, hkx]
  rw [h1, h2, h3] at ht
  unfold State.myEng at ht ⊢
  unfold State.me at ht ⊢
  rw [hkt, hct]
  exact ht

end Sys2Proof.Machine
end

