-- ==== Sys2Proof/Laws/Shared.lean ====
section
/-!
SUPPORT. The relation Walks kept by the operations that several families share: power, the caches of S, tokens, the test of the race
checker, placement and the sending of commands.
-/

namespace Sys2Proof.Machine

namespace Walks

variable {k : Nat} {e : Eng} {s t : State}

/-! ### Tasks and gangs -/

theorem attached (h : Walks k e s t) (j : Nat) : t.attached j = s.attached j := by
  have hg := h.gang_field j (fun g => g.st) fun _ => rfl
  unfold State.attached
  cases h1 : s.gangOf j <;> cases h2 : t.gangOf j <;> simp_all

theorem issuing (h : Walks k e s t) (c : Nat) : t.issuing c = s.issuing c := by
  unfold State.issuing; rw [h.attached]

/-! ### Power -/

theorem issuers (h : Walks k e s t) (d : Nat) : Machine.issuers t d = Machine.issuers s d := by
  unfold Machine.issuers
  have h1 : t.attached = s.attached := funext h.attached
  simp only [h.issuing, h1]

theorem setFree (h : Walks k e s t) (n : Nat) : Walks k e { s with free := n } { t with free := n } := by
  refine ⟨?_, h.2⟩
  have h1 := h.1
  simp only [State.rest, State.mk.injEq] at h1 ⊢
  simp_all

theorem openWindow (h : Walks k e s t) (d l : Nat) (r : Bool) : Walks k e (Machine.openWindow s d l r) (Machine.openWindow t d l r) := by
  unfold Machine.openWindow State.choose
  dsimp only
  rw [h.free]
  exact (h.setFree _).modDie _ _

theorem switchPoint (h : Walks k e s t) (d : Nat) : Walks k e (Machine.switchPoint s d) (Machine.switchPoint t d) := by
  unfold Machine.switchPoint
  dsimp only
  rw [h.die, h.issuers]
  split
  · exact h.openWindow _ _ _
  · exact h

/-! ### The data cache of S -/

theorem acquireAt (h : Walks k e s t) (j sc : Nat) (hj : j = k) : Walks k e (Machine.acquireAt s j sc) (Machine.acquireAt t j sc) := by
  subst hj
  unfold Machine.acquireAt
  split
  · refine h.modTask _ _ ?_
    have h2 := h.2
    have h3 : (t.task j).s = (s.task j).s := h.field (fun x => x.s) fun _ => rfl
    simp only [Task.still, Task.mk.injEq] at h2 ⊢
    simp_all
  · exact h

theorem fillLine (h : Walks k e s t) (line : Nat) (m : Mem) : Walks k e (Machine.fillLine s k line m) (Machine.fillLine t k line m) := by
  have h3 : (t.task k).s = (s.task k).s := h.field (fun x => x.s) fun _ => rfl
  unfold Machine.fillLine
  dsimp only
  rw [h3]
  split
  · unfold State.choose
    dsimp only
    rw [h.free]
    refine (h.setFree _).modTask _ _ ?_
    have h2 := h.2
    simp only [Task.still, Task.mk.injEq] at h2 ⊢
    simp_all [State.task]
  · refine h.modTask _ _ ?_
    have h2 := h.2
    simp only [Task.still, Task.mk.injEq] at h2 ⊢
    simp_all

end Walks

end Sys2Proof.Machine
end

