-- ==== Sys2Proof/Laws/Accesses.lean ====
section
/-!
SUPPORT. Accesses of S (15_conductor R267-R269): what a load leaves beside its effect, a piece of the capacity tier that is ready, and
the retirement of a load.
-/

namespace Sys2Proof.Machine

theorem focus_key (s : State) (k : Nat) (e : Eng) : (focus s k e).key = k := by simp [State.key, focus, tkey]; omega

theorem modTask_modTask (s : State) (k : Nat) (f g : Task → Task) :
    (s.modTask k f).modTask k g = s.modTask k fun t => g (f t) := by
  simp only [State.modTask, State.setTask, State.task, Sparse.rd_wr_same, Sparse.wr_wr]

theorem modTask_congr {s : State} {k : Nat} {f g : Task → Task} (h : f (s.task k) = g (s.task k)) :
    s.modTask k f = s.modTask k g := by unfold State.modTask; rw [h]

/-- A task without its translation caches, its load and what it has kept of one, and the data cache of S. -/
def Task.aside (t : Task) : Task := { t with tlb := {}, s := { t.s with load := none, got := none, cache := [] } }

theorem aside_eq (k : Nat) (s : State) : s.aside k = { s.modTask k Task.aside with pieces := [], pieceNext := 0, counters := [], free := 0, cur := {} } := rfl

theorem near_refl (k : Nat) (s : State) : Near k s s := Walks.refl _ _ _
theorem near_trans {k : Nat} {s t u : State} (h : Near k s t) (h' : Near k t u) : Near k s u := Walks.trans h h'
theorem near_symm {k : Nat} {s t : State} (h : Near k s t) : Near k t s := Walks.symm h

theorem near_of_walks {k : Nat} {s t : State} (h : Walks k .s s t) : Near k s t := by
  have h1 : Walks k .s (s.modTask k Task.aside) (t.modTask k Task.aside) := by
    refine h.modTask _ _ ?_
    have h2 := h.2
    simp only [Task.still, Task.aside, Task.mk.injEq] at h2 ⊢
    simp_all
  refine ⟨?_, h1.2⟩
  have h2 := h1.1
  unfold State.aside
  simp only [State.rest, State.mk.injEq] at h2 ⊢
  unfold Task.aside at h2
  simp_all

/-- States that are equal but for what aside erases. -/
theorem near_of_eq {k : Nat} {s t : State} (h : s.aside k = t.aside k) : Near k s t := by
  unfold Near; rw [h]; exact Walks.refl _ _ _

theorem near_mod {k : Nat} {s : State} {f : Task → Task} (hf : ∀ x, Task.aside (f x) = Task.aside x) : Near k s (s.modTask k f) := by
  apply near_of_eq
  simp only [aside_eq, State.modTask, State.setTask, State.task, Sparse.rd_wr_same, Sparse.wr_wr, hf]

theorem near_modTask {k : Nat} {s t : State} (h : Near k s t) {f : Task → Task}
    (hc : ∀ x, Task.aside (f x) = f (Task.aside x))
    (hf : ∀ a b : Task, a.still .s = b.still .s → (f a).still .s = (f b).still .s) : Near k (s.modTask k f) (t.modTask k f) := by
  have hs : ∀ u : State, (u.modTask k f).aside k = (u.aside k).modTask k f := by
    intro u
    simp only [aside_eq, State.modTask, State.setTask, State.task, Sparse.rd_wr_same, Sparse.wr_wr, hc]
  unfold Near
  rw [hs, hs]
  refine Walks.modTask h _ _ (hf _ _ h.2)

theorem near_setS {k : Nat} {s t : State} (h : Near k s t) (hs : s.key = k) (ht : t.key = k) (d : Nat) (v : Word) :
    Near k (setS s d v) (setS t d v) := by
  unfold setS
  split
  · exact h
  · unfold State.modMe; rw [hs, ht]
    refine near_modTask h (fun x => rfl) ?_
    intro a b hab; simp only [Task.still, Task.mk.injEq] at hab ⊢; simp_all

/-- A piece in a list whose other numbers differ from its own is found, and is the one that setPiece replaces. -/
theorem find_last {t : State} {old : List Piece} {p : Piece} (hp : t.pieces = old ++ [p]) (hid : ∀ q ∈ old, q.id < p.id) :
    findPiece t p.id = some p := by
  have hnf : ∀ q ∈ old, ¬ (q.id == p.id) = true := by intro q hq; simpa using (hid q hq).ne
  unfold findPiece
  rw [hp, List.find?_append, List.find?_eq_none.2 hnf]
  simp

theorem set_last {t : State} {old : List Piece} {p q : Piece} (hp : t.pieces = old ++ [p]) (hid : ∀ q ∈ old, q.id < p.id)
    (hq : q.id = p.id) : setPiece t q = { t with pieces := old ++ [q] } := by
  unfold setPiece
  rw [hp, List.map_append]
  have : old.map (fun x => if x.id = q.id then q else x) = old := by
    conv_rhs => rw [← List.map_id old]
    apply List.map_congr_left
    intro x hx
    rw [hq, if_neg (hid x hx).ne]; rfl
  rw [this]
  simp [hq]

/-- The access counters do not notify: a counted access changes them alone (R334). -/
theorem countAccess_quiet {t : State} (hm : t.reg regMcfg % 2 ^ 16 = 0) (p : Piece) :
    ∃ c, countAccess t p = { t with counters := c } := by
  unfold countAccess
  split
  · exact ⟨t.counters, rfl⟩
  · dsimp only
    rw [hm]
    exact ⟨_, if_neg (by simp)⟩

theorem noteFrame_own {s : State} {p : Piece} (ho : p.own = .sLoad ∨ p.own = .sStore) : noteFrame s p = s := by
  unfold noteFrame
  rcases ho with h | h <;> rw [h]

/-- The next n units of the piece of a load of S in the capacity tier: the bytes as S sees them now join those read before (R293). -/
theorem serveCap_load {t : State} {old : List Piece} {p : Piece} (hp : t.pieces = old ++ [p]) (hid : ∀ q ∈ old, q.id < p.id)
    (hm : t.reg regMcfg % 2 ^ 16 = 0) (ho : p.own = .sLoad) (hw : p.wr = false) (n : Nat) :
    let o := unitOff p p.units
    let bs := seenByS t (tkey p.core p.bank) (p.pa + o) (t.mem.rdList (p.pa + o) (unitOff p (p.units + n) - o))
    let q : Piece := { p with units := p.units + n, data := p.data ++ bs, st := if unitsIn p ≤ p.units + n then .served else .sent }
    ∃ c, serveCap t p n = { t with counters := c, pieces := old ++ [q] } := by
  intro o bs q
  obtain ⟨c, hc⟩ : ∃ c, (if p.units = 0 then countAccess t p else t) = { t with counters := c } := by
    split
    · exact countAccess_quiet hm p
    · exact ⟨t.counters, rfl⟩
  refine ⟨c, ?_⟩
  unfold serveCap
  rw [hc]
  dsimp only
  rw [if_neg (show ¬ p.wr = true by simp [hw])]
  have hr : ∀ u : State, readBy u p (p.pa + o) = seenByS u (tkey p.core p.bank) (p.pa + o) := fun u => by
    funext l; unfold readBy; rw [if_pos ho]
  rw [hr]
  have hset := set_last (t := { t with counters := c }) (q := q) hp hid rfl
  rw [noteFrame_own (.inl ho), ite_self]
  exact hset

/-- A store of S in the capacity tier that lies in one unit is written whole (R292). -/
theorem serveCap_store {t : State} {old : List Piece} {p : Piece} (hp : t.pieces = old ++ [p]) (hid : ∀ q ∈ old, q.id < p.id)
    (hm : t.reg regMcfg % 2 ^ 16 = 0) (ho : p.own = .sStore) (hw : p.wr = true) (hu : p.units = 0) (h1 : unitsIn p = 1)
    (hl : p.data.length = p.len) :
    ∃ c, serveCap t p 1 = { t with counters := c, mem := t.mem.wrList p.pa p.data, pieces := old ++ [{ p with units := 1, st := .served }] } := by
  obtain ⟨c, hc⟩ := countAccess_quiet hm p
  refine ⟨c, ?_⟩
  have h32 : unitOff p 1 = p.len := by
    unfold unitsIn at h1
    unfold unitOff
    exact Nat.min_eq_left (by omega)
  unfold serveCap
  rw [hc]
  have h0 : unitOff p 0 = 0 := by unfold unitOff; simp
  simp only [hu, hw, if_true, Nat.zero_add, h0, h1, h32, Nat.le_refl, Nat.sub_zero, List.drop_zero, Nat.add_zero]
  have htake : List.take p.len p.data = p.data := List.take_of_length_le (by omega)
  rw [htake, noteFrame_own (.inr ho)]
  exact set_last (t := { t with counters := c, mem := t.mem.wrList p.pa p.data }) hp hid rfl

theorem ready_sent {t : State} {old : List Piece} {p : Piece} (hp : t.pieces = old ++ [p]) (hid : ∀ q ∈ old, q.id < p.id)
    (hst : p.st = .sent) (hr : region p.pa = .cap) (hb : behindWrite t p = false) :
    readyPiece t p.id =
      let n := (t.portion (unitsIn p - p.units)).1
      let u := serveCap (t.portion (unitsIn p - p.units)).2 p n
      (u, (findPiece u p.id).filter fun q => q.st == .served) := by
  unfold readyPiece
  rw [find_last hp hid]
  dsimp only
  rw [hst]
  dsimp only
  rw [if_pos ⟨hr, by simp [hb]⟩]

theorem drop_last {t : State} {old : List Piece} {p : Piece} (hp : t.pieces = old ++ [p]) (hid : ∀ q ∈ old, q.id < p.id) :
    dropPiece t p.id = { t with pieces := old } := by
  unfold dropPiece
  rw [hp, List.filter_append, List.filter_eq_self.2 (by intro q hq; simpa using (hid q hq).ne)]
  simp

theorem seenByS_eq (s : State) (k base n : Nat) (f : Nat → Byte) :
    seenByS s k base ((List.range n).map fun i => f (base + i)) = (List.range n).map fun i =>
      (unperformed s k).foldl (fun b st => if st.pa ≤ base + i ∧ base + i < st.pa + st.size then BitVec.ofNat 8 (st.val / 256 ^ (base + i - st.pa)) else b) (f (base + i)) := by
  unfold seenByS
  generalize unperformed s k = l
  induction l generalizing f with
  | nil => rfl
  | cons st r ih =>
    rw [List.foldl_cons]
    have : layStore base ((List.range n).map fun i => f (base + i)) st = (List.range n).map fun i =>
        (fun a => if st.pa ≤ a ∧ a < st.pa + st.size then BitVec.ofNat 8 (st.val / 256 ^ (a - st.pa)) else f a) (base + i) := by
      unfold layStore
      apply List.ext_getElem
      · simp
      · intro i h1 h2
        simp
    rw [this, ih (fun a => if st.pa ≤ a ∧ a < st.pa + st.size then BitVec.ofNat 8 (st.val / 256 ^ (a - st.pa)) else f a)]
    rfl

theorem retire_near {s : State} {k : Nat} (hk : s.key = k) {l : SLoad} {base : Nat} {bs : List Byte} {v : Word} (hkeep : l.keep = false)
    (hv : loadValue l.size l.sgn ((bs.drop (l.pa - base)).take l.size) = v) :
    Near k (setS s l.d v) (retireLoad s k l base bs) ∧ (retireLoad s k l base bs).pieces = s.pieces
    ∧ ((retireLoad s k l base bs).task k).s.load = none ∧ ((retireLoad s k l base bs).eng k .s).wait = .none := by
  unfold retireLoad
  dsimp only
  rw [if_neg (by simp [hkeep]), hv]
  generalize hx : focus (s.modTask k fun t => { t with s := { t.s with load := none } }) k .s = x
  have hxk : x.key = k := by rw [← hx]; exact focus_key _ _ _
  have hxe : x.cur.eng = .s := by rw [← hx]; rfl
  have h1 : Near k s x := by
    have : Near k s (s.modTask k fun t => { t with s := { t.s with load := none } }) := near_mod fun x => rfl
    refine near_trans this ?_
    rw [← hx]
    exact near_of_eq rfl
  have hx2 : (x.task k).s.load = none := by
    rw [← hx]
    show ((s.modTask k fun t => { t with s := { t.s with load := none } }).task k).s.load = none
    simp
  have hyk : (setS x l.d v).key = k := by rw [setS_key, hxk]
  have hye : (setS x l.d v).cur.eng = .s := by rw [setS_cur, hxe]
  have hw := advance_walks (setS x l.d v)
  rw [hyk, hye] at hw
  refine ⟨near_trans (near_setS h1 hk hxk _ _) (near_of_walks hw), ?_, ?_, ?_⟩
  · rw [hw.pieces]; unfold setS; split <;> (rw [← hx]; rfl)
  · rw [hw.field (fun x => x.s.load) fun _ => rfl]
    unfold setS
    split
    · exact hx2
    · rw [State.modMe, hxk]; simpa using hx2
  · have := advance_wait (setS x l.d v)
    rwa [hyk, hye] at this

end Sys2Proof.Machine
end

