-- ==== Sys2Proof/Laws/Commands.lean ====
section
/-!
SUPPORT. What is left to prove of an instruction past its token waits, its test against the race checker and its token: for commands
of C, instructions of V, M and A (02 R37, 09 R165, 19 R353).
-/

namespace Sys2Proof.Machine

/-- An instruction past its token waits does what its body does. -/
theorem exec_issue {i : Instr} {s : State} {prod : Bool} {body : State → State} (he : exec i s = .next (issue prod body s))
    (h : CanIssue s) (hp : prod = true → s.myEng.opn.length < tokenLimit) :
    ∃ t, exec i s = .next (body t) ∧ Walks s.key s.cur.eng s t ∧ (CheckerIdle s → CheckerIdle t) ∧ (t.me.recs = s.me.recs ∧ t.me.emit = s.me.emit)
      ∧ ∃ l, t.myEng = { s.myEng with latched := l } := by
  obtain ⟨t, ht, hr⟩ := issue_ready prod body s h hp
  exact ⟨t, by rw [he, ht], hr⟩

theorem does_of {i : Instr} {s u : State} {prod : Bool} {body : State → State} (he : exec i s = .next (issue prod body s))
    (h : CanIssue s) (hp : prod = true → s.myEng.opn.length < tokenLimit)
    (hb : ∀ t, Walks s.key s.cur.eng s t → (CheckerIdle s → CheckerIdle t) → AtIt s t →
      Walks s.key s.cur.eng u (body t) ∧ PastIt s (body t)) : Does i s u := by
  obtain ⟨h1, h2⟩ := issue_does h hp hb
  exact ⟨_, he, h1, h2⟩

theorem moves_of {i : Instr} {s u : State} {prod : Bool} {body : State → State} (he : exec i s = .next (issue prod body s))
    (h : CanIssue s) (hp : prod = true → s.myEng.opn.length < tokenLimit)
    (hb : ∀ t, Walks s.key s.cur.eng s t → (CheckerIdle s → CheckerIdle t) → Walks s.key s.cur.eng u (body t)) : Moves i s u :=
  ⟨_, he, issue_moves h hp hb⟩

/-- The executing engine stays at its instruction. -/
theorem waits_walks {s t : State} (h : Walks s.key s.cur.eng s t) (w : Wait) : Walks s.key s.cur.eng s (waitFor w t) := by
  have := waitFor_walks w t
  rw [h.key, h.cur] at this
  exact h.trans this

/-- An instruction whose body ends in the retirement of f applied to a state walked to from u. -/
theorem acts_of {i : Instr} {s u t : State} {f : State → State} (he : exec i s = .next (advance (f t)))
    (hw : Walks s.key s.cur.eng u t) (hc : (f t).cur = s.cur) : Acts i s u f := by
  have h1 := advance_walks (f t)
  rw [show (f t).key = s.key by simp [State.key, hc], hc] at h1
  exact ⟨t, _, hw, he, h1⟩

/-- With the race checker off or empty, an instruction passes its test. -/
theorem declareAs_ready (x : RaceEnt) (at_ : List (Nat × Point)) (all : Bool) (body : State → State) (s : State) (h : CheckerIdle s)
    (k : Nat) (e : Eng) : ∃ t, declareAs x at_ all body s = body t ∧ Walks k e s t ∧ t.tasks = s.tasks := by
  unfold declareAs
  cases hg : s.gangOf s.key with
  | none => exact ⟨s, rfl, Walks.refl _ _ _, rfl⟩
  | some g =>
    dsimp only
    by_cases hd : g.det = true
    · have hr := h g hg hd
      rw [hd, hr]
      exact ⟨_, rfl, Walks.ofGang _ _ _ _ _ fun x => rfl, rfl⟩
    · simp only [hd, Bool.not_false, if_true]
      exact ⟨s, rfl, Walks.refl _ _ _, rfl⟩

theorem declare_ready (rgn : List (Nat × Nat × Nat × Bool)) (seq : Nat) (beat : Option (Nat × Nat)) (all : Bool)
    (body : State → State) (s : State) (h : CheckerIdle s) (k : Nat) (e : Eng) :
    ∃ t, declare rgn seq beat all body s = body t ∧ Walks k e s t ∧ t.tasks = s.tasks := declareAs_ready _ _ all body s h k e

theorem Walks.cBusy {s t : State} (h : Walks s.key s.cur.eng s t) : Machine.cBusy t = Machine.cBusy s := by
  unfold Machine.cBusy
  rw [h.cur, h.me_field (fun x => x.c) fun _ => rfl]

/-- A command of C, M or A past its waits does what its body does. -/
theorem exec_token' {i : Instr} {s : State} {body : State → State} (he : exec i s = .next (issueToken body s)) (h : CanSend s) :
    ∃ t, exec i s = .next (body t) ∧ Walks s.key s.cur.eng s t ∧ CheckerIdle t ∧ (∃ l, t.myEng = { s.myEng with latched := l })
      ∧ t.me.emit = s.me.emit := by
  obtain ⟨h1, h2, h3, h4⟩ := h
  obtain ⟨t, hex, hw, hc, hr, hl⟩ := exec_issue he h1 fun _ => h2
  refine ⟨t, ?_, hw, hc h4, hl, hr.2⟩
  rw [hex, hw.cBusy, h3]
  rfl

theorem exec_token {i : Instr} {s : State} {body : State → State} (he : exec i s = .next (issueToken body s)) (h : CanSend s) :
    ∃ t, exec i s = .next (body t) ∧ Walks s.key s.cur.eng s t ∧ CheckerIdle t ∧ ∃ l, t.myEng = { s.myEng with latched := l } := by
  obtain ⟨t, h1, h2, h3, h4, -⟩ := exec_token' he h
  exact ⟨t, h1, h2, h3, h4⟩

namespace Walks

variable {k : Nat} {e : Eng} {s t : State}

theorem lensFrom (h : Walks k e s t) : ∀ n b, t.lensFrom b n = s.lensFrom b n
  | 0, _ => rfl
  | n + 1, b => by simp only [State.lensFrom, lensFrom h n, State.lenOf, State.entry, h.reg, h.grid]

theorem delta (h : Walks k e s t) (x y : Point) : t.delta x y = s.delta x y := by
  unfold State.delta; rw [h.lensFrom]

end Walks

theorem newToken_cur (s : State) : (newToken s).2.cur = s.cur := rfl
theorem openToken_cur (s : State) : (openToken s).cur = s.cur := rfl
theorem newToken_fst (s : State) : (newToken s).1 = (s.myEng.count + 1) % 2 ^ 32 := rfl
theorem openToken_key (s : State) : (openToken s).key = s.key := rfl

/-- The same, of an instruction that has come to its test. -/
theorem exec_declareAs {r : Result} {x : RaceEnt} {at_ : List (Nat × Point)} {all : Bool} {body : State → State} {s : State}
    (he : r = .next (declareAs x at_ all body s)) (h : CheckerIdle s) (k : Nat) (e : Eng) :
    ∃ t, r = .next (body t) ∧ Walks k e s t ∧ t.tasks = s.tasks := by
  obtain ⟨t, ht, hr⟩ := declareAs_ready x at_ all body s h k e
  exact ⟨t, by rw [he, ht], hr⟩

theorem exec_declare {r : Result} {rgn : List (Nat × Nat × Nat × Bool)} {seq : Nat} {beat : Option (Nat × Nat)} {all : Bool}
    {body : State → State} {s : State} (he : r = .next (declare rgn seq beat all body s)) (h : CheckerIdle s) (k : Nat) (e : Eng) :
    ∃ t, r = .next (body t) ∧ Walks k e s t ∧ t.tasks = s.tasks := exec_declareAs he h k e

/-! ### Operand checks -/

theorem checked_pass {l : List (Bool × Nat)} (h : firstCause l = none) (body : State → State) (s : State) :
    checked l body s = body s := by
  unfold checked; rw [h]

theorem checked_cause {l : List (Bool × Nat)} {c : Nat} (h : firstCause l = some c) (body : State → State) (s : State) :
    checked l body s = trap c s := by
  unfold checked; rw [h]

theorem firstCause_append (l m : List (Bool × Nat)) : firstCause (l ++ m) = (firstCause l).or (firstCause m) := by
  induction l with
  | nil => rfl
  | cons x r ih =>
    obtain ⟨b, c⟩ := x
    cases b
    · exact ih
    · rfl

theorem inShare_iff (s : State) (a n : Nat) : inShare s a n = true ↔ OwnSpad s a n := by
  unfold inShare spadShare OwnSpad
  dsimp only
  split <;> simp

theorem Walks.inShare {k : Nat} {e : Eng} {s t : State} (h : Walks k e s t) (a n : Nat) : Machine.inShare t a n = Machine.inShare s a n := by
  unfold Machine.inShare; rw [h.myCore, h.cur]

/-! ### The executing engine under what the device tells the outside -/

theorem hostWrite_cur (s : State) (pa : Nat) (bs : List Byte) : (hostWrite s pa bs).cur = s.cur := rfl

/-- A projection out of a choice of states; the proofs below keep the choice opaque. -/
theorem ite_cur (p : Prop) [Decidable p] (x y : State) (c : Cur) (hx : x.cur = c) (hy : y.cur = c) :
    (if p then x else y).cur = c := by
  split <;> assumption

theorem setReg_dist_cur (s : State) (r v : Nat) (d : Dist) : ({ s.setReg r v with dist := d } : State).cur = s.cur := rfl

theorem devEvent_cur (s : State) (a b c d : Nat) : (devEvent s a b c d).cur = s.cur := by
  unfold devEvent
  dsimp only
  refine ite_cur _ _ _ _ rfl ?_
  generalize hx : (ite (region _ = Region.host) _ _ : State) = x
  have h : x.cur = s.cur := by rw [← hx]; exact ite_cur _ _ _ _ rfl rfl
  exact (setReg_dist_cur x _ _ _).trans h

theorem stripWrite_cur (s : State) (x o : Nat) (bs : List Byte) : (s.stripWrite x o bs).cur = s.cur := by
  unfold State.stripWrite
  dsimp only
  split <;> rfl

theorem fastWrite_cur (f : Nat → Nat) : ∀ (l : List (Nat × Nat)) (s : State) (bs : List Byte), (fastWrite s f l bs).cur = s.cur
  | [], _, _ => rfl
  | (a, n) :: r, s, bs => by unfold fastWrite; rw [fastWrite_cur f r]; exact ite_cur _ _ _ _ rfl (stripWrite_cur _ _ _ _)

/-! What reads of the tables by the device leave: the error logs and the count of free values alone. -/

theorem logEntry_cur (s : State) (a h o e : Nat) : (logEntry s a h o e).cur = s.cur := by
  unfold logEntry
  rw [State.setReg_cur, State.setReg_cur]

theorem logArray_cur (s : State) (x src syn : Nat) (ue : Bool) : (logArray s x src syn ue).cur = s.cur := by
  unfold logArray
  exact logEntry_cur _ _ _ _ _

theorem eccRead_cur (s : State) (x src : Nat) : (eccRead s x src).1.cur = s.cur := by
  unfold eccRead
  cases s.cellFaults.find? (fun f => f.strip == x) with
  | none => rfl
  | some f =>
    dsimp only
    split
    · rfl
    · exact logArray_cur _ _ _ _ _
    · exact logArray_cur _ _ _ _ _
    · unfold State.choose
      dsimp only
      split
      · exact logArray_cur _ _ _ _ _
      · exact logArray_cur _ _ _ _ _
      · rfl

theorem fastRead_cur (f : Nat → Nat) (src : Nat) : ∀ (l : List (Nat × Nat)) (s : State), (fastRead s f src l).1.cur = s.cur
  | [], _ => rfl
  | (a, n) :: r, s => by
    unfold fastRead
    split
    · rfl
    · have he := eccRead_cur s (f a) src
      revert he
      generalize eccRead s (f a) src = y
      obtain ⟨u, o⟩ := y
      intro he
      cases o with
      | none => exact he
      | some bs =>
        have hr := fastRead_cur f src r u
        dsimp only
        revert hr
        generalize fastRead u f src r = z
        obtain ⟨v, x⟩ := z
        intro hr
        cases x <;> exact hr.trans he

theorem tierRead_cur (s : State) (pa n src : Nat) : (tierRead s pa n src).1.cur = s.cur := by
  unfold tierRead
  split
  · exact fastRead_cur _ _ _ _
  · rfl

theorem tableWord_cur (s : State) (pa : Nat) : (tableWord s pa).1.cur = s.cur := by
  have h := tierRead_cur s pa 8 2
  unfold tableWord
  revert h
  generalize tierRead s pa 8 2 = y
  obtain ⟨u, x⟩ := y
  intro h
  cases x <;> exact h

theorem routePort_cur (s : State) (id : Nat) : (routePort s id).1.cur = s.cur := by
  unfold routePort
  dsimp only
  split
  · rfl
  · exact tableWord_cur _ _

theorem sendFrame_cur (s : State) (pa len : Nat) (wr : Bool) (data : List Byte) : (sendFrame s pa len wr data).1.cur = s.cur := by
  have h := routePort_cur s (slice pa 32 18)
  unfold sendFrame
  dsimp only
  revert h
  generalize routePort s (slice pa 32 18) = y
  obtain ⟨u, o⟩ := y
  intro h
  cases o <;> exact h

theorem sendFrames_cur (wr : Bool) : ∀ (l : List (Nat × Nat)) (s : State) (bs : List Byte), (sendFrames s wr l bs).cur = s.cur
  | [], _, _ => rfl
  | (a, n) :: r, s, bs => by unfold sendFrames; rw [sendFrames_cur wr r, sendFrame_cur]

theorem physWrite_cur (s : State) (pa : Nat) (bs : List Byte) : (physWrite s pa bs).cur = s.cur := by
  unfold physWrite
  split
  · exact fastWrite_cur _ _ _ _
  · rfl
  · rfl
  · exact sendFrames_cur _ _ _ _
  · rfl

theorem replay_cur (s : State) (a b : Nat) (ws : List Nat) : (replay s a b ws).cur = s.cur := by
  unfold replay
  dsimp only
  refine ite_cur _ _ _ _ rfl ?_
  rw [State.setReg_cur]
  generalize hx : (ite (inTiers _ = true) _ _ : State) = x
  have h : x.cur = s.cur := by rw [← hx]; exact ite_cur _ _ _ _ (physWrite_cur _ _ _) rfl
  exact ite_cur _ _ _ _ h h

theorem moveTail_cur (s : State) (v q t : Nat) : (moveTail s v q t).cur = s.cur := by unfold moveTail; rw [replay_cur, State.setReg_cur]

theorem breakQueue_cur (s : State) (v q : Nat) : (breakQueue s v q).cur = s.cur := by unfold breakQueue; rw [devEvent_cur, State.setReg_cur]

end Sys2Proof.Machine
end

