-- ==== Sys2Proof/Laws/Encoding.lean ====
section
/-!
SUPPORT. The rows of the encoding tables (02_program_text R43-R48): a filled row selects itself, has its reserved bits 0 and gives its
operands back; two rows that demand different values of one bit never select the same word.
-/

namespace Sys2Proof

namespace Seg

/-- The operands fit the fields, one for each. -/
def fits : List Seg → List Nat → Bool
  | [], as => as.isEmpty
  | .op _ _ :: r, as => fits r as
  | .z _ :: r, as => fits r as
  | .f _ :: _, [] => false
  | .f k :: r, a :: as => decide (a < 2 ^ k) && fits r as

/-- The selecting values fit their parts. -/
def opsOk : List Seg → Bool
  | [] => true
  | .op k v :: r => decide (v < 2 ^ k) && opsOk r
  | .z _ :: r => opsOk r
  | .f _ :: r => opsOk r

/-- The value that a row demands of bit p. -/
def need : List Seg → Nat → Nat → Option Bool
  | [], _, _ => none
  | .op k v :: r, n, p => if n - k ≤ p ∧ p < n then some (v.testBit (p - (n - k))) else need r (n - k) p
  | .z k :: r, n, p => need r (n - k) p
  | .f k :: r, n, p => need r (n - k) p

theorem fill_lt : ∀ (segs : List Seg) (as : List Nat), opsOk segs = true → fill segs as < 2 ^ bits segs
  | [], _, _ => by simp [fill, bits]
  | .op k v :: r, as, h => by
    simp only [opsOk, Bool.and_eq_true, decide_eq_true_eq] at h
    have ih := fill_lt r as h.2
    simp only [fill, bits, width, pow_add]
    have : (v + 1) * 2 ^ bits r ≤ 2 ^ k * 2 ^ bits r := Nat.mul_le_mul_right _ h.1
    rw [add_mul] at this; omega
  | .z k :: r, as, h => by
    have ih := fill_lt r as h
    simp only [fill, bits, width, pow_add]
    have : 1 * 2 ^ bits r ≤ 2 ^ k * 2 ^ bits r := Nat.mul_le_mul_right _ (Nat.one_le_two_pow)
    omega
  | .f k :: r, [], h => by
    have ih := fill_lt r [] h
    simp only [fill, bits, width, pow_add]
    have : 1 * 2 ^ bits r ≤ 2 ^ k * 2 ^ bits r := Nat.mul_le_mul_right _ (Nat.one_le_two_pow)
    omega
  | .f k :: r, a :: as, h => by
    have ih := fill_lt r as h
    simp only [fill, bits, width, pow_add]
    have h1 : a % 2 ^ k < 2 ^ k := Nat.mod_lt _ (Nat.two_pow_pos k)
    have : (a % 2 ^ k + 1) * 2 ^ bits r ≤ 2 ^ k * 2 ^ bits r := Nat.mul_le_mul_right _ h1
    rw [add_mul] at this; omega

/-- The high part of a word that is a part and a rest. -/
theorem slice_part (hi v b k t : Nat) (hv : v < 2 ^ k) (ht : t < 2 ^ b) : slice (hi * 2 ^ (k + b) + (v * 2 ^ b + t)) b k = v := by
  have h : hi * 2 ^ (k + b) + (v * 2 ^ b + t) = (hi * 2 ^ k + v) * 2 ^ b + t := by rw [pow_add]; ring
  unfold slice
  rw [h, Nat.mul_comm, Nat.mul_add_div (Nat.two_pow_pos b), Nat.div_eq_of_lt ht, Nat.add_zero, Nat.mul_comm, Nat.mul_add_mod,
    Nat.mod_eq_of_lt hv]

/-- A filled row selects itself, keeps its reserved bits 0 and gives its operands back, whatever stands above it. -/
theorem fill_row : ∀ (segs : List Seg) (as : List Nat) (hi : Nat), opsOk segs = true → fits segs as = true →
    selects segs (bits segs) (hi * 2 ^ bits segs + fill segs as) = true
    ∧ zerosOk segs (bits segs) (hi * 2 ^ bits segs + fill segs as) = true
    ∧ fields segs (bits segs) (hi * 2 ^ bits segs + fill segs as) = as
  | [], as, hi, _, h => by cases as <;> simp_all [selects, zerosOk, fields, fits]
  | .op k v :: r, as, hi, ho, hf => by
    simp only [opsOk, Bool.and_eq_true, decide_eq_true_eq] at ho
    have ih := fill_row r as (hi * 2 ^ k + v) ho.2 hf
    have e : hi * 2 ^ (k + bits r) + (v * 2 ^ bits r + fill r as) = (hi * 2 ^ k + v) * 2 ^ bits r + fill r as := by rw [pow_add]; ring
    have hs := slice_part hi v (bits r) k _ ho.1 (fill_lt r as ho.2)
    simp only [selects, zerosOk, fields, fill, bits, width, Nat.add_sub_cancel_left, hs, beq_self_eq_true, Bool.true_and]
    rw [e]; exact ih
  | .z k :: r, as, hi, ho, hf => by
    have ih := fill_row r as (hi * 2 ^ k) ho hf
    have e : hi * 2 ^ (k + bits r) + fill r as = hi * 2 ^ k * 2 ^ bits r + fill r as := by rw [pow_add]; ring
    have hs := slice_part hi 0 (bits r) k _ (Nat.two_pow_pos k) (fill_lt r as ho)
    rw [Nat.zero_mul, Nat.zero_add] at hs
    simp only [selects, zerosOk, fields, fill, bits, width, Nat.add_sub_cancel_left, hs, beq_self_eq_true, Bool.true_and]
    rw [e]; exact ih
  | .f k :: r, a :: as, hi, ho, hf => by
    simp only [fits, Bool.and_eq_true, decide_eq_true_eq] at hf
    have ih := fill_row r as (hi * 2 ^ k + a) ho hf.2
    have e : hi * 2 ^ (k + bits r) + (a * 2 ^ bits r + fill r as) = (hi * 2 ^ k + a) * 2 ^ bits r + fill r as := by rw [pow_add]; ring
    have hs := slice_part hi a (bits r) k _ hf.1 (fill_lt r as ho)
    simp only [selects, zerosOk, fields, fill, bits, width, Nat.add_sub_cancel_left, Nat.mod_eq_of_lt hf.1, hs]
    rw [e]; exact ⟨ih.1, ih.2.1, by rw [ih.2.2]⟩
  | .f _ :: _, [], _, _, hf => by simp [fits] at hf

/-- A filled row without the fit: it still selects itself and keeps its reserved bits 0. -/
theorem fill_selects : ∀ (segs : List Seg) (as : List Nat) (hi : Nat), opsOk segs = true →
    selects segs (bits segs) (hi * 2 ^ bits segs + fill segs as) = true
    ∧ zerosOk segs (bits segs) (hi * 2 ^ bits segs + fill segs as) = true
  | [], _, _, _ => ⟨rfl, rfl⟩
  | .op k v :: r, as, hi, ho => by
    simp only [opsOk, Bool.and_eq_true, decide_eq_true_eq] at ho
    have ih := fill_selects r as (hi * 2 ^ k + v) ho.2
    have e : hi * 2 ^ (k + bits r) + (v * 2 ^ bits r + fill r as) = (hi * 2 ^ k + v) * 2 ^ bits r + fill r as := by rw [pow_add]; ring
    have hs := slice_part hi v (bits r) k _ ho.1 (fill_lt r as ho.2)
    simp only [selects, zerosOk, fill, bits, width, Nat.add_sub_cancel_left, hs, beq_self_eq_true, Bool.true_and]
    rw [e]; exact ih
  | .z k :: r, as, hi, ho => by
    have ih := fill_selects r as (hi * 2 ^ k) ho
    have e : hi * 2 ^ (k + bits r) + fill r as = hi * 2 ^ k * 2 ^ bits r + fill r as := by rw [pow_add]; ring
    have hs := slice_part hi 0 (bits r) k _ (Nat.two_pow_pos k) (fill_lt r as ho)
    rw [Nat.zero_mul, Nat.zero_add] at hs
    simp only [selects, zerosOk, fill, bits, width, Nat.add_sub_cancel_left, hs, beq_self_eq_true, Bool.true_and]
    rw [e]; exact ih
  | .f k :: r, a :: as, hi, ho => by
    have ih := fill_selects r as (hi * 2 ^ k + a % 2 ^ k) ho
    have e : hi * 2 ^ (k + bits r) + (a % 2 ^ k * 2 ^ bits r + fill r as) = (hi * 2 ^ k + a % 2 ^ k) * 2 ^ bits r + fill r as := by
      rw [pow_add]; ring
    simp only [selects, zerosOk, fill, bits, width, Nat.add_sub_cancel_left]
    rw [e]; exact ih
  | .f k :: r, [], hi, ho => by
    have ih := fill_selects r [] (hi * 2 ^ k) ho
    have e : hi * 2 ^ (k + bits r) + fill r [] = hi * 2 ^ k * 2 ^ bits r + fill r [] := by rw [pow_add]; ring
    simp only [selects, zerosOk, fill, bits, width, Nat.add_sub_cancel_left]
    rw [e]; exact ih

/-- The fields of a word fit their row. -/
theorem fits_fields : ∀ (segs : List Seg) (n w : Nat), fits segs (fields segs n w) = true
  | [], _, _ => rfl
  | .op k _ :: r, n, w => fits_fields r (n - k) w
  | .z k :: r, n, w => fits_fields r (n - k) w
  | .f k :: r, n, w => by
    simp only [fits, fields, fits_fields r (n - k) w, Bool.and_true, decide_eq_true_eq]
    exact Nat.mod_lt _ (Nat.two_pow_pos k)

/-- A row selects only words that have the bits it demands. -/
theorem need_selects : ∀ (segs : List Seg) (n w p : Nat) (b : Bool), bits segs ≤ n → selects segs n w = true →
    need segs n p = some b → w.testBit p = b
  | [], _, _, _, _, _, _, h => by simp [need] at h
  | .op k v :: r, n, w, p, b, hn, hs, h => by
    simp only [selects, Bool.and_eq_true, beq_iff_eq] at hs
    simp only [need] at h
    simp only [bits, width] at hn
    split at h
    · rename_i hp
      cases h
      have h1 := congrArg (Nat.testBit · (p - (n - k))) hs.1
      simp only [slice, Nat.testBit_mod_two_pow, Nat.testBit_div_two_pow] at h1
      rw [show p - (n - k) + (n - k) = p by omega, decide_eq_true (by omega : p - (n - k) < k), Bool.true_and] at h1
      exact h1
    · exact need_selects r (n - k) w p b (by omega) hs.2 h
  | .z k :: r, n, w, p, b, hn, hs, h => by
    simp only [bits, width] at hn
    exact need_selects r (n - k) w p b (by omega) hs h
  | .f k :: r, n, w, p, b, hn, hs, h => by
    simp only [bits, width] at hn
    exact need_selects r (n - k) w p b (by omega) hs h

end Seg

namespace Layout

/-- Some bit is demanded to be 0 by one row and 1 by the other. -/
def apart (a b : Layout) : Bool :=
  (List.range 32).any fun p =>
    match Seg.need a.segs a.bits p, Seg.need b.segs b.bits p with
    | some x, some y => x != y
    | _, _ => false

/-- The parts of a row make up its word, and its selecting values fit. -/
def sound (l : Layout) : Bool := Seg.bits l.segs == l.bits && Seg.opsOk l.segs

theorem not_both {a b : Layout} (h : a.apart b = true) (ha : Seg.bits a.segs ≤ a.bits) (hb : Seg.bits b.segs ≤ b.bits) (w : Nat)
    (hs : Seg.selects b.segs b.bits w = true) : Seg.selects a.segs a.bits w = false := by
  rw [Bool.eq_false_iff]
  intro hs'
  simp only [apart, List.any_eq_true, List.mem_range] at h
  obtain ⟨p, _, h⟩ := h
  split at h
  · rename_i x y hx hy
    have h1 := Seg.need_selects _ _ w p x ha hs' hx
    have h2 := Seg.need_selects _ _ w p y hb hs hy
    simp [← h1, ← h2] at h
  · cases h

end Layout

/-- The rows are sound and two by two apart. -/
def rowsApart : List (List Nat → Instr) → Bool
  | [] => true
  | f :: r =>
    match layout (f []) with
    | none => false
    | some l => l.sound && r.all (fun g => match layout (g []) with | none => false | some m => l.apart m) && rowsApart r

theorem rowsApart_get : ∀ (R : List (List Nat → Instr)) (f : List Nat → Instr), rowsApart R = true → f ∈ R →
    ∃ l, layout (f []) = some l ∧ l.sound = true
  | g :: r, f, h, hf => by
    unfold rowsApart at h
    split at h
    · cases h
    · rename_i l hl
      simp only [Bool.and_eq_true] at h
      rcases List.mem_cons.1 hf with rfl | hf
      · exact ⟨l, hl, h.1.1⟩
      · exact rowsApart_get r f h.2 hf

/-- A word that one of the rows selects is read by that row. -/
theorem findRow_eq : ∀ (R : List (List Nat → Instr)) (f : List Nat → Instr) (l : Layout) (w : Nat), rowsApart R = true → f ∈ R →
    layout (f []) = some l → Seg.selects l.segs l.bits w = true → Seg.zerosOk l.segs l.bits w = true →
    findRow R w = .ok (f (Seg.fields l.segs l.bits w))
  | g :: r, f, l, w, h, hf, hl, hs, hz => by
    unfold rowsApart at h
    split at h
    · cases h
    · rename_i m hm
      simp only [Bool.and_eq_true, List.all_eq_true] at h
      by_cases hg : f ∈ r
      · obtain ⟨l', hl', hs'⟩ := rowsApart_get r f h.2 hg
        cases hl.symm.trans hl'
        have h1 := h.1.2 f hg
        rw [hl] at h1
        have b1 : Seg.bits m.segs = m.bits := by have := h.1.1; simp only [Layout.sound, Bool.and_eq_true, beq_iff_eq] at this; exact this.1
        have b2 : Seg.bits l.segs = l.bits := by simp only [Layout.sound, Bool.and_eq_true, beq_iff_eq] at hs'; exact hs'.1
        have h2 := Layout.not_both h1 b1.le b2.le w hs
        unfold findRow
        rw [hm]
        simp only [h2, Bool.false_eq_true, if_false]
        exact findRow_eq r f l w h.2 hg hl hs hz
      · rcases List.mem_cons.1 hf with rfl | hf
        · unfold findRow
          rw [hl]
          simp only [hs, hz, if_true]
        · exact absurd hf hg

theorem apartS : rowsApart rowsS = true := by decide +kernel
theorem apartC : rowsApart rowsC = true := by decide +kernel
theorem apartV : rowsApart rowsV = true := by decide +kernel
theorem apartM : rowsApart rowsM = true := by decide +kernel
theorem apartA : rowsApart rowsA = true := by decide +kernel
theorem apartShort (e : Eng) : rowsApart (rows16Of e) = true := by cases e <;> decide +kernel

theorem apartOf : ∀ e, rowsApart (rowsOf e) = true
  | .s => apartS
  | .c => apartC
  | .v => apartV
  | .m => apartM
  | .a => apartA

/-- A row has as many fields in every word. -/
theorem Seg.fields_length : ∀ (segs : List Seg) (n m w v : Nat), (fields segs n w).length = (fields segs m v).length
  | [], _, _, _, _ => rfl
  | .op k _ :: r, n, m, w, v => fields_length r (n - k) (m - k) w v
  | .z k :: r, n, m, w, v => fields_length r (n - k) (m - k) w v
  | .f k :: r, n, m, w, v => by simp only [fields, List.length_cons, fields_length r (n - k) (m - k) w v]

/-- A list is its elements by number. -/
theorem range_getD (xs : List Nat) (n : Nat) (h : xs.length = n) : (List.range n).map (fun j => xs.getD j 0) = xs := by
  subst h
  apply List.ext_getElem
  · simp
  · intro j h1 h2; simp [List.getD_eq_getElem?_getD, h2]

/-- What the decoder makes of a 32-bit word without prefixes, once its row is known (R390). -/
theorem decode_word {e : Eng} {w m : Nat} {i : Instr} (hm : w / 2 ^ 25 = 64 + m) (hm' : m < 64) (hw : decodeWord e w = .ok i) :
    decode e [w / 65536, w % 65536] =
      if illegalValue i = true then .bad (sourceOf e w) 0 else if reservedValue e m i = true then .bad (sourceOf e w) 1 else .ok {} i 2 := by
  have h1 : 32768 ≤ w / 65536 := by
    omega
  have h2 : w / 65536 * 65536 + w % 65536 = w := by omega
  unfold decode decodeFrom
  rw [if_pos h1]
  dsimp only
  rw [h2]
  unfold decodeFull
  dsimp only
  rw [hw, hm, show (64 + m) % 64 = m by omega]
  dsimp only
  have c1 : ∀ a, unusable a {} = false := by intro a; simp [unusable]
  have c2 : ∀ a, unaccepted a {} = false := by intro a; simp [unaccepted]
  have c3 : chainRefused e m i {} = false := by
    unfold chainRefused
    cases e
    · simp
    · simp [slice, WellFormed.lt]
    · simp
    · rfl
    · rfl
  simp only [c1, c2, c3, Bool.or_false, Bool.false_or, Bool.false_eq_true, if_false, Option.isSome]
  simp

/-- An instruction of 32 bits whose row and major are known decodes from its encoding exactly where it is well formed. -/
theorem word_case (i : Instr) (e : Eng) (f : List Nat → Instr) (segs : List Seg) (m : Nat) (h1 : layout i = some ⟨.eng e, 32, segs⟩)
    (h0 : layout (f []) = layout i) (hf : f ∈ rowsOf e) (hi : f (operands i) = i)
    (ho : ∀ xs, operands (f xs) = (List.range (operands i).length).map fun j => xs.getD j 0)
    (hl : (Seg.fields segs 32 0).length = (operands i).length)
    (hm : ∀ w, w < 2 ^ 32 → Seg.selects segs 32 w = true → w / 2 ^ 25 = 64 + m) (hm' : m < 64)
    (hw : wellFormed i = (Seg.fits segs (operands i) && !illegalValue i && !reservedValue e m i)) :
    decode (engineOf i) (encodeHalfwords i) = .ok {} i 2 ↔ wellFormed i = true := by
  have hL := h0.trans h1
  obtain ⟨l, hl1, hso⟩ := rowsApart_get _ _ (apartOf e) hf
  cases hL.symm.trans hl1
  simp only [Layout.sound, Bool.and_eq_true, beq_iff_eq] at hso
  have he : engineOf i = e := by unfold engineOf; rw [h1]
  have henc : encode i = Seg.fill segs (operands i) := by unfold encode; rw [h1]
  have hhw : encodeHalfwords i = [encode i / 65536, encode i % 65536] := by unfold encodeHalfwords; rw [h1]; simp
  have hlt := Seg.fill_lt segs (operands i) hso.2
  rw [hso.1] at hlt
  have hsel := Seg.fill_selects segs (operands i) 0 hso.2
  rw [hso.1, Nat.zero_mul, Nat.zero_add, ← henc] at hsel
  have hrow := findRow_eq (rowsOf e) f _ (encode i) (apartOf e) hf hL hsel.1 hsel.2
  have hdw : decodeWord e (encode i) = .ok (f (Seg.fields segs 32 (encode i))) := by unfold decodeWord; rw [hrow]
  have hmaj := hm (encode i) (henc ▸ hlt) hsel.1
  rw [he, hhw, decode_word hmaj hm' hdw, hw]
  by_cases hfit : Seg.fits segs (operands i) = true
  · have hr := (Seg.fill_row segs (operands i) 0 hso.2 hfit).2.2
    rw [hso.1, Nat.zero_mul, Nat.zero_add, ← henc] at hr
    rw [hr, hi]
    cases illegalValue i <;> cases reservedValue e m i <;> simp [hfit]
  · rw [Bool.not_eq_true] at hfit
    simp only [hfit, Bool.false_and, Bool.false_eq_true, iff_false]
    intro h
    split at h
    · cases h
    · split at h
      · cases h
      · have h2 : f (Seg.fields segs 32 (encode i)) = i := by injection h
        have h3 := ho (Seg.fields segs 32 (encode i))
        rw [h2, range_getD _ _ ((Seg.fields_length segs 32 32 _ 0).trans hl)] at h3
        rw [h3, Seg.fits_fields] at hfit
        cases hfit

/-- The major opcode of a word whose row gives bits 31:25. -/
theorem major7 {m : Nat} {r : List Seg} : ∀ w, w < 2 ^ 32 → Seg.selects (.op 7 (64 + m) :: r) 32 w = true → w / 2 ^ 25 = 64 + m := by
  intro w h hs
  simp only [Seg.selects, Bool.and_eq_true, beq_iff_eq, slice] at hs
  omega

/-- The major opcode of a word whose row gives bits 31:20. -/
theorem major12 {v m : Nat} {r : List Seg} (h' : v / 32 = 64 + m) : ∀ w, w < 2 ^ 32 → Seg.selects (.op 12 v :: r) 32 w = true → w / 2 ^ 25 = 64 + m := by
  intro w h hs
  simp only [Seg.selects, Bool.and_eq_true, beq_iff_eq, slice] at hs
  omega

/-- The same of a short instruction. -/
theorem short_case (i : Instr) (f : List Nat → Instr) (who : Owner) (v : Nat) (r : List Seg) (h1 : layout i = some ⟨who, 16, .op 5 v :: r⟩)
    (hwho : engineOf i = .s) (hv : v = 0 ∨ v = 7 ∨ v = 8 ∨ v = 9 ∨ v = 10)
    (h0 : layout (f []) = layout i) (hf : f ∈ rows16Of .s) (hi : f (operands i) = i)
    (ho : ∀ xs, operands (f xs) = (List.range (operands i).length).map fun j => xs.getD j 0)
    (hl : (Seg.fields (.op 5 v :: r) 16 0).length = (operands i).length)
    (hw : wellFormed i = Seg.fits (.op 5 v :: r) (operands i)) :
    decode (engineOf i) (encodeHalfwords i) = .ok {} i 1 ↔ wellFormed i = true := by
  have hL := h0.trans h1
  obtain ⟨l, hl1, hso⟩ := rowsApart_get _ _ (apartShort .s) hf
  cases hL.symm.trans hl1
  simp only [Layout.sound, Bool.and_eq_true, beq_iff_eq] at hso
  generalize hs : (Seg.op 5 v :: r) = segs at *
  have henc : encode i = Seg.fill segs (operands i) := by unfold encode; rw [h1]
  have hhw : encodeHalfwords i = [encode i] := by unfold encodeHalfwords; rw [h1]; simp
  have hlt := Seg.fill_lt segs (operands i) hso.2
  rw [hso.1] at hlt
  have hsel := Seg.fill_selects segs (operands i) 0 hso.2
  rw [hso.1, Nat.zero_mul, Nat.zero_add, ← henc] at hsel
  have hrow := findRow_eq (rows16Of .s) f _ (encode i) (apartShort .s) hf hL hsel.1 hsel.2
  have hmaj : encode i / 2048 = v := by
    have h := hsel.1
    rw [← hs] at h
    simp only [Seg.selects, Bool.and_eq_true, beq_iff_eq, slice] at h
    rw [henc] at *
    omega
  have hd : decode .s [encode i] = .ok {} (f (Seg.fields segs 16 (encode i))) 1 := by
    unfold decode decodeFrom
    rw [if_neg (by rw [henc]; omega)]
    have : isPrefix .s (encode i) = false := by
      unfold isPrefix; rw [hmaj]
      rcases hv with rfl | rfl | rfl | rfl | rfl <;> rfl
    simp only [this, Bool.false_eq_true, if_false, decodeShort, hrow]
    simp
  rw [hwho, hhw, hd, hw]
  by_cases hfit : Seg.fits segs (operands i) = true
  · have hr := (Seg.fill_row segs (operands i) 0 hso.2 hfit).2.2
    rw [hso.1, Nat.zero_mul, Nat.zero_add, ← henc] at hr
    rw [hr, hi]; simp [hfit]
  · rw [Bool.not_eq_true] at hfit
    simp only [hfit, Bool.false_eq_true, iff_false]
    intro h
    have h2 : f (Seg.fields segs 16 (encode i)) = i := by injection h
    have h3 := ho (Seg.fields segs 16 (encode i))
    rw [h2, range_getD _ _ ((Seg.fields_length segs 16 16 _ 0).trans hl)] at h3
    rw [h3, Seg.fits_fields] at hfit
    cases hfit

end Sys2Proof
end

