-- ==== Sys2Proof/Laws/Landing.lean ====
section
/-!
SUPPORT. Results of V that land (11_vector R190): what a landing leaves alone, and the cycle in which none lands.
-/

namespace Sys2Proof.Machine

theorem completeToken_cur (s : State) (k : Nat) (e : Eng) (n : Nat) : (completeToken s k e n).cur = s.cur := by
  simp [completeToken, State.modEng, State.setEng]
theorem pushEvent_cur (s : State) (k a b c d : Nat) : (pushEvent s k a b c d).cur = s.cur := by
  simp [pushEvent]

theorem landSreg_cur (s : State) (k n m : Nat) (v : Word) : (landSreg s k n m v).cur = s.cur := by
  unfold landSreg
  cases wroteLater s k n m <;> simp only [Bool.false_eq_true, if_false, if_true] <;> (repeat' split) <;> rfl

theorem landFlight_cur (s : State) (k : Nat) (f : Flight) : (landFlight s k f).cur = s.cur := by
  unfold landFlight
  dsimp only
  split
  · rw [pushEvent_cur]
    simp only [State.modTask_cur]
    split <;> simp [completeToken_cur, landSreg_cur]
  · simp only [State.modTask_cur]
    split <;> simp [completeToken_cur, landSreg_cur]

theorem foldl_landFlight_cur (k : Nat) : ∀ (l : List Flight) (s : State), (l.foldl (fun s f => landFlight s k f) s).cur = s.cur
  | [], _ => rfl
  | f :: r, s => by rw [List.foldl_cons, foldl_landFlight_cur k r, landFlight_cur]

theorem landDue_cur (s : State) (k : Nat) : (landDue s k).cur = s.cur := by
  unfold landDue
  dsimp only
  rw [foldl_landFlight_cur]
  simp

theorem cycleV_cur (s : State) (k : Nat) : (cycleV s k).cur = s.cur := by
  unfold cycleV; dsimp only; rw [State.modTask_cur, landDue_cur]; simp
theorem cycleV_key (s : State) (k : Nat) : (cycleV s k).key = s.key := by
  unfold State.key; rw [cycleV_cur]

/-! Of an engine, a landing changes the open tokens alone. -/

theorem completeToken_eng {α : Type} (g : EngSt → α) (hg : ∀ x l, g { x with opn := l } = g x) (s : State) (k j : Nat) (e i : Eng)
    (n : Nat) : g ((completeToken s k e n).eng j i) = g (s.eng j i) := by
  unfold completeToken State.modEng
  rw [State.eng_setEng]
  split
  · rename_i h; obtain ⟨rfl, rfl⟩ := h; exact hg _ _
  · rfl

theorem landSreg_eng (s : State) (k n m : Nat) (v : Word) (j : Nat) (i : Eng) : (landSreg s k n m v).eng j i = s.eng j i := by
  unfold landSreg
  cases wroteLater s k n m <;> simp only [Bool.false_eq_true, if_false, if_true] <;> (repeat' split) <;>
    first | rfl | exact eng_modTask (fun t => by rfl) j i

theorem landFlight_eng {α : Type} (g : EngSt → α) (hg : ∀ x l, g { x with opn := l } = g x) (s : State) (k j : Nat) (i : Eng)
    (f : Flight) : g ((landFlight s k f).eng j i) = g (s.eng j i) := by
  have push : ∀ (u : State) (a b c d : Nat), (pushEvent u k a b c d).eng j i = u.eng j i := fun u a b c d =>
    eng_modTask (fun t => by split <;> rfl) j i
  have land : g ((match f.dst with
      | .entry n => s.modCore (k / 2) fun c =>
          { c with uf := c.uf.putMem (1024 * n) 1024 (overlay (Sparse.window c.uf (1024 * n) 1024) f.data f.els f.esz 1024) }
      | .outq n => s.modTask k fun t => { t with outq := Sparse.wr [] t.outq n (Sparse.rd [] t.outq n ++ [f.data]) }
      | .opq n => s.modTask k fun t => landOpq t n f.data
      | .jreg n => s.modTask k fun t =>
          let x := overlay (Sparse.window t.jreg (2048 * n) 2048) f.data f.els f.esz 2048
          { t with jreg := t.jreg.putMem (2048 * n) 2048 x }
      | .mask n => s.modTask k fun t =>
          if n = 0 then t
          else { t with mask := Sparse.wr 0 t.mask n (overlayMask (Sparse.rd 0 t.mask n) (f.data.rdN 0 256) f.els) }
      | .sreg n => landSreg s k n f.serial (BitVec.ofNat 64 (f.data.rdN 0 8))
      | .mark seq => completeToken s k .v seq : State).eng j i) = g (s.eng j i) := by
    cases f.dst with
    | entry n => simp
    | mark n => exact completeToken_eng g hg _ _ _ _ _ _
    | sreg n => exact congrArg g (landSreg_eng _ _ _ _ _ _ _)
    | outq n | opq n | jreg n => dsimp only; rw [eng_modTask fun t => by rfl]
    | mask n => dsimp only; rw [eng_modTask fun t => by split <;> rfl]
  unfold landFlight
  dsimp only
  split
  · rw [push, eng_modTask fun t => by rfl]
    exact land
  · rw [eng_modTask fun t => by rfl]
    exact land

theorem cycleV_eng {α : Type} (g : EngSt → α) (hg : ∀ x l, g { x with opn := l } = g x) (s : State) (k j : Nat) (i : Eng) :
    g ((cycleV s k).eng j i) = g (s.eng j i) := by
  have key : ∀ (l : List Flight) (u : State), g ((l.foldl (fun s f => landFlight s k f) u).eng j i) = g (u.eng j i) := by
    intro l
    induction l with
    | nil => intro u; rfl
    | cons f r ih => intro u; rw [List.foldl_cons, ih, landFlight_eng g hg]
  unfold cycleV landDue
  dsimp only
  rw [eng_modTask (fun t => by rfl), key, eng_modTask fun t => by rfl, eng_modTask fun t => by rfl]

/-- Where no result is due, a cycle of V passes and nothing else happens. -/
theorem cycleV_noLanding (s : State) (k : Nat) (h : ∀ f ∈ (s.task k).v.flights, (s.task k).v.cyc + 1 < f.due) :
    cycleV s k = s.modTask k fun t => { t with v := { t.v with cyc := t.v.cyc + 1, sregs := t.sreg, pushed := [] } } := by
  unfold cycleV landDue
  dsimp only
  simp only [State.task_modTask_same]
  have h1 : (s.task k).v.flights.filter (fun f => decide (f.due ≤ (s.task k).v.cyc + 1)) = [] := by
    rw [List.filter_eq_nil_iff]
    intro f hf
    have := h f hf
    simpa using this
  have h2 : (s.task k).v.flights.filter (fun f => decide ((s.task k).v.cyc + 1 < f.due)) = (s.task k).v.flights := by
    rw [List.filter_eq_self]
    intro f hf
    simpa using h f hf
  rw [h1, h2]
  simp only [landingOrder, List.foldl_nil]
  unfold State.modTask
  simp only [State.setTask, State.task, Sparse.wr_wr, Sparse.rd_wr_same]

end Sys2Proof.Machine
end

