-- ==== Sys2Proof/Laws/Memory.lean ====
section
/-!
SUPPORT. Every operation over memory and over the row lines that overlay it keeps the canonical form (03_memory R52, R53; 06_vertical
R107, R108; 19_faults R343, R348).
-/

namespace Sys2Proof

namespace Sparse

variable {α : Type} {d : α}

theorem mem_ins (m : Sparse α) (k : Nat) (v : α) : ∀ e ∈ ins m k v, e = (k, v) ∨ e ∈ m := by
  induction m with
  | nil => intro e he; exact .inl (by simpa [ins] using he)
  | cons c r ih =>
    intro e he
    unfold ins at he
    split at he
    · simpa using he
    · rcases List.mem_cons.1 he with h | h
      · exact .inr (h ▸ List.mem_cons_self)
      · exact (ih e h).imp id (List.mem_cons_of_mem _)

theorem mem_wr [DecidableEq α] (m : Sparse α) (k : Nat) (v : α) : ∀ e ∈ wr d m k v, e = (k, v) ∨ e ∈ m := by
  intro e he
  unfold wr at he
  split at he
  · exact .inr (mem_del m k e he).2
  · exact (mem_ins _ k v e he).imp id fun h => (mem_del m k e h).2

/-- What is read is unlisted, or an entry. -/
theorem rd_mem (m : Sparse α) (k : Nat) : rd d m k = d ∨ ∃ e ∈ m, e.2 = rd d m k := by
  induction m with
  | nil => exact .inl rfl
  | cons c r ih =>
    unfold rd
    split
    · exact .inr ⟨_, List.mem_cons_self, rfl⟩
    · exact ih.imp id fun ⟨e, he, h⟩ => ⟨e, List.mem_cons_of_mem _ he, h⟩

end Sparse

namespace Machine

variable {s : State}

/-- Every slot holds a canonical row line. -/
def slotsWf (m : Sparse (Option SlotSt)) : Prop := ∀ l ∈ m, slotWf l.2 = true

theorem slotsWf_rd {m : Sparse (Option SlotSt)} (h : slotsWf m) (x : Nat) : slotWf (Sparse.rd none m x) = true := by
  rcases Sparse.rd_mem (d := none) m x with h1 | ⟨e, he, h1⟩
  · rw [h1]; rfl
  · rw [← h1]; exact h e he

theorem slotsWf_wr {m : Sparse (Option SlotSt)} (h : slotsWf m) (x : Nat) {v : Option SlotSt} (hv : slotWf v = true) :
    slotsWf (Sparse.wr none m x v) := by
  intro l hl
  rcases Sparse.mem_wr _ _ _ l hl with rfl | hl
  · exact hv
  · exact h l hl

theorem State.MemWf.chan (h : s.MemWf) (p : Nat) : slotsWf (s.chan p).slots := by
  rcases Sparse.rd_mem (d := ({} : Chan)) s.chans p with h1 | ⟨e, he, h1⟩
  · intro l hl; unfold State.chan at hl; rw [h1] at hl; cases hl
  · unfold State.chan; rw [← h1]; exact h.2 e he

theorem State.MemWf.setMem (h : s.MemWf) {m : Mem} (hm : m.wf = true) : State.MemWf { s with mem := m } := ⟨hm, h.2⟩

theorem State.MemWf.modChan (h : s.MemWf) (p : Nat) (f : Chan → Chan) (hf : slotsWf (f (s.chan p)).slots) : (s.modChan p f).MemWf := by
  refine ⟨h.1, fun c hc l hl => ?_⟩
  rcases Sparse.mem_wr _ _ _ c hc with rfl | hc
  · exact hf l hl
  · exact h.2 c hc l hl

theorem openSlot_wf (h : s.MemWf) {p bank row i : Nat} {l : SlotSt} (hl : s.openSlot p bank row = some (i, l)) : l.data.wf = true := by
  unfold State.openSlot at hl
  obtain ⟨j, _, hj⟩ := List.exists_of_findSome?_eq_some hl
  have h1 := slotsWf_rd (h.chan p) (8 * bank + j)
  generalize Sparse.rd none (s.chan p).slots (8 * bank + j) = v at hj h1
  cases v with
  | none => cases hj
  | some x =>
    dsimp only at hj
    split at hj
    · cases hj; exact h1
    · cases hj

@[simp] theorem memWf_modTask (k : Nat) (f : Task → Task) : (s.modTask k f).MemWf ↔ s.MemWf := Iff.rfl
@[simp] theorem memWf_modEng (k : Nat) (e : Eng) (f : EngSt → EngSt) : (s.modEng k e f).MemWf ↔ s.MemWf := Iff.rfl
@[simp] theorem memWf_modCore (c : Nat) (f : Core → Core) : (s.modCore c f).MemWf ↔ s.MemWf := Iff.rfl
@[simp] theorem memWf_modStack (k : Nat) (f : Stack → Stack) : (s.modStack k f).MemWf ↔ s.MemWf := Iff.rfl
@[simp] theorem memWf_modDie (d : Nat) (f : Die → Die) : (s.modDie d f).MemWf ↔ s.MemWf := Iff.rfl
@[simp] theorem memWf_modGang (g : Nat) (f : Gang → Gang) : (s.modGang g f).MemWf ↔ s.MemWf := Iff.rfl
@[simp] theorem memWf_setReg (a v : Nat) : (s.setReg a v).MemWf ↔ s.MemWf := Iff.rfl
@[simp] theorem memWf_choose : s.choose.2.MemWf ↔ s.MemWf := Iff.rfl

theorem memWf_stripWrite (h : s.MemWf) (x o : Nat) (bs : List Byte) : (s.stripWrite x o bs).MemWf := by
  unfold State.stripWrite
  have h0 : State.MemWf { s with cellFaults := s.cellFaults.filter fun f => f.strip != x } := h
  dsimp only
  split
  · rename_i i l hl
    refine h0.modChan _ _ ?_
    dsimp only
    exact slotsWf_wr (h0.chan (stripChan x)) i (Mem.wf_wrList _ _ _ (openSlot_wf h0 hl))
  · exact h0.setMem (Mem.wf_wrList _ _ _ h0.1)

theorem memWf_fastWrite (f : Nat → Nat) : ∀ (l : List (Nat × Nat)) (bs : List Byte) {s : State}, s.MemWf → (fastWrite s f l bs).MemWf
  | [], _, _, h => h
  | (a, n) :: r, bs, s, h => memWf_fastWrite f r (bs.drop n) (by
      split
      · exact h
      · exact memWf_stripWrite h _ _ _)

/-! A read of a table by the device leaves memory as it was, a frame that it sends too. -/

theorem memWf_logArray (h : s.MemWf) (x src syn : Nat) (ue : Bool) : (logArray s x src syn ue).MemWf := by
  unfold logArray logEntry
  simpa only [memWf_setReg] using h

theorem memWf_eccRead (h : s.MemWf) (x src : Nat) : (eccRead s x src).1.MemWf := by
  unfold eccRead
  cases s.cellFaults.find? (fun f => f.strip == x) with
  | none => exact h
  | some f =>
    dsimp only
    split
    · exact h
    · exact memWf_logArray h _ _ _ _
    · exact memWf_logArray h _ _ _ _
    · unfold State.choose
      dsimp only
      split
      · exact memWf_logArray (s := { s with free := s.free + 1 }) h _ _ _ _
      · exact memWf_logArray (s := { s with free := s.free + 1 + 32 }) h _ _ _ _
      · exact h

theorem memWf_fastRead (f : Nat → Nat) (src : Nat) : ∀ (l : List (Nat × Nat)) {s : State}, s.MemWf → (fastRead s f src l).1.MemWf
  | [], _, h => h
  | (a, n) :: r, s, h => by
    unfold fastRead
    split
    · exact h
    · have he := memWf_eccRead h (f a) src
      revert he
      generalize eccRead s (f a) src = y
      obtain ⟨u, o⟩ := y
      intro he
      cases o with
      | none => exact he
      | some bs =>
        have hr := memWf_fastRead f src r he
        dsimp only
        revert hr
        generalize fastRead u f src r = z
        obtain ⟨v, x⟩ := z
        intro hr
        cases x <;> exact hr

theorem memWf_tierRead (h : s.MemWf) (pa n src : Nat) : (tierRead s pa n src).1.MemWf := by
  unfold tierRead
  split
  · exact memWf_fastRead _ _ _ h
  · exact h

theorem memWf_sendFrame (h : s.MemWf) (pa len : Nat) (wr : Bool) (data : List Byte) : (sendFrame s pa len wr data).1.MemWf := by
  have hr : (routePort s (slice pa 32 18)).1.MemWf := by
    unfold routePort tableWord
    dsimp only
    split
    · exact h
    · have ht := memWf_tierRead h (slice (s.reg regRoutebase) 18 34 * 2 ^ 18 + slice pa 32 18 / 8 * 8) 8 2
      revert ht
      generalize tierRead s (slice (s.reg regRoutebase) 18 34 * 2 ^ 18 + slice pa 32 18 / 8 * 8) 8 2 = y
      obtain ⟨u, x⟩ := y
      intro ht
      cases x <;> exact ht
  unfold sendFrame
  dsimp only
  revert hr
  generalize routePort s (slice pa 32 18) = y
  obtain ⟨u, o⟩ := y
  intro hr
  cases o <;> exact hr

theorem memWf_sendFrames (wr : Bool) : ∀ (l : List (Nat × Nat)) (bs : List Byte) {s : State}, s.MemWf → (sendFrames s wr l bs).MemWf
  | [], _, _, h => h
  | _ :: r, _, _, h => memWf_sendFrames wr r _ (memWf_sendFrame h _ _ _ _)

theorem memWf_physWrite (h : s.MemWf) (pa : Nat) (bs : List Byte) : (physWrite s pa bs).MemWf := by
  unfold physWrite
  split
  · exact memWf_fastWrite _ _ _ h
  · exact h.setMem (Mem.wf_wrList _ _ _ h.1)
  · exact h
  · exact memWf_sendFrames _ _ _ h
  · exact h

theorem memWf_writeRecord (h : s.MemWf) (pa : Nat) (m : Mem) : (writeRecord s pa m).MemWf := by
  unfold writeRecord
  split
  · exact h.setMem (Sparse.wf_paste _ _ _ _ h.1 (Mem.wf_canon m))
  · exact memWf_physWrite h _ _

theorem memWf_writeBack (h : s.MemWf) (p x : Nat) : (writeBack s p x).MemWf := by
  unfold writeBack
  have h1 := slotsWf_rd (h.chan p) x
  generalize Sparse.rd none (s.chan p).slots x = v at h1
  cases v with
  | none => exact h
  | some l =>
    have h2 : State.MemWf { s with mem := Sparse.paste s.mem (32 * stripAt p l.row (x / 8) 0) 1024 l.data } :=
      h.setMem (Sparse.wf_paste _ _ _ _ h.1 h1)
    refine h2.modChan _ _ ?_
    dsimp only
    exact slotsWf_wr (h2.chan p) x rfl

theorem memWf_foldl {α : Type} (f : State → α → State) (hf : ∀ s x, s.MemWf → (f s x).MemWf) :
    ∀ (l : List α) {s : State}, s.MemWf → (l.foldl f s).MemWf
  | [], _, h => h
  | x :: r, _, h => memWf_foldl f hf r (hf _ x h)

theorem memWf_writeBackAll (h : s.MemWf) (p : Nat) : (writeBackAll s p).MemWf :=
  memWf_foldl _ (fun _ x h => memWf_writeBack h p x) _ h

theorem memWf_releaseRows (h : s.MemWf) (k : Nat) : (releaseRows s k).MemWf := by
  unfold releaseRows
  split
  · exact h
  · exact memWf_writeBackAll (h.modChan _ _ (h.chan _)) _

theorem memWf_detach (h : s.MemWf) (k code va imm : Nat) : (detach s k code va imm).MemWf := by
  unfold detach
  split
  · exact h
  · split
    · exact (memWf_modGang _ _).2 (memWf_foldl _ (fun _ k h => memWf_releaseRows h k) _ h)
    · exact h

theorem memWf_raiseCause (h : s.MemWf) (k code va imm : Nat) : (raiseCause s k code va imm).MemWf := by
  unfold raiseCause
  dsimp only
  split
  · exact h
  · exact memWf_detach h _ _ _ _

theorem memWf_openRow (h : s.MemWf) (p x row : Nat) (w whole : Bool) (t : Point) : (openRow s p x row w whole t).MemWf := by
  refine h.modChan _ _ ?_
  dsimp only
  exact slotsWf_wr (h.chan p) x (Mem.wf_window _ _ _ h.1)

theorem memWf_noteUse (h : s.MemWf) (p x : Nat) (e : Point) : (noteUse s p x e).MemWf := by
  refine h.modChan _ _ ?_
  dsimp only
  have h1 := slotsWf_rd (h.chan p) x
  generalize Sparse.rd none (s.chan p).slots x = v at h1
  cases v with
  | none => exact h.chan p
  | some l => exact slotsWf_wr (h.chan p) x h1

theorem memWf_releaseRow (h : s.MemWf) (p x : Nat) (t : Point) : (releaseRow s p x t).MemWf := by
  unfold releaseRow
  split
  · exact h
  · exact (memWf_writeBack h p x).modChan _ _ ((memWf_writeBack h p x).chan p)

theorem memWf_reopenRow (h : s.MemWf) (p : Nat) (whole : Bool) (t : Point) (y : SavedRow) : (reopenRow s p whole t y).MemWf := by
  have h1 := memWf_openRow h p y.x y.row y.w whole t
  refine h1.modChan _ _ ?_
  dsimp only
  refine slotsWf_wr (h1.chan p) y.x ?_
  have h2 := slotsWf_rd (h1.chan p) y.x
  generalize Sparse.rd none ((openRow s p y.x y.row y.w whole t).chan p).slots y.x = v at h2
  cases v with
  | none => rfl
  | some l => exact h2

theorem memWf_reset : State.reset.MemWf := ⟨rfl, fun _ h => by cases h⟩

end Machine

end Sys2Proof
end

