-- ==== Sys2Proof/Laws/PerInstr.lean ====
section
/-!
SUPPORT. One fact for each instruction: the parts of its encoding row fill its word, and the row has a field for each of its
operands (02_program_text R43, R45-R48).
-/

namespace Sys2Proof.Laws.EncodingFits

/-- The parts of the row of i, if it has one, make up a halfword or a word, with a field for each operand of i. -/
def Statement (i : Instr) : Prop :=
  ∀ l, layout i = some l → Seg.bits l.segs = l.bits ∧ (l.bits = 16 ∨ l.bits = 32)
    ∧ (Seg.fields l.segs l.bits 0).length = (operands i).length

theorem ofRow {i : Instr} {l : Layout} (h : layout i = some l) (hb : Seg.bits l.segs = l.bits) (hw : l.bits = 16 ∨ l.bits = 32)
    (hf : (Seg.fields l.segs l.bits 0).length = (operands i).length) : Statement i := by
  intro l' h'
  cases h.symm.trans h'
  exact ⟨hb, hw, hf⟩

theorem ofEvent {i : Instr} (h : layout i = none) : Statement i := by
  intro l h'
  rw [h] at h'
  cases h'

theorem nop16 : Statement .nop16 := ofRow rfl rfl (.inl rfl) rfl
theorem bw (nx : Nat) : Statement (.bw nx) := ofRow rfl rfl (.inl rfl) rfl
theorem mov16 (d a : Nat) : Statement (.mov16 d a) := ofRow rfl rfl (.inl rfl) rfl
theorem addi16 (d imm : Nat) : Statement (.addi16 d imm) := ofRow rfl rfl (.inl rfl) rfl
theorem li16 (d imm : Nat) : Statement (.li16 d imm) := ofRow rfl rfl (.inl rfl) rfl
theorem blockHeader (ty imm lx rl : Nat) : Statement (.blockHeader ty imm lx rl) := ofRow rfl rfl (.inr rfl) rfl
theorem repnPop (core bank eng : Nat) : Statement (.repnPop core bank eng) := ofEvent rfl
theorem pathRecordTake (core bank eng : Nat) : Statement (.pathRecordTake core bank eng) := ofEvent rfl
theorem add (d a b : Nat) : Statement (.add d a b) := ofRow rfl rfl (.inr rfl) rfl
theorem sub (d a b : Nat) : Statement (.sub d a b) := ofRow rfl rfl (.inr rfl) rfl
theorem and (d a b : Nat) : Statement (.and d a b) := ofRow rfl rfl (.inr rfl) rfl
theorem or (d a b : Nat) : Statement (.or d a b) := ofRow rfl rfl (.inr rfl) rfl
theorem xor (d a b : Nat) : Statement (.xor d a b) := ofRow rfl rfl (.inr rfl) rfl
theorem andn (d a b : Nat) : Statement (.andn d a b) := ofRow rfl rfl (.inr rfl) rfl
theorem sll (d a b : Nat) : Statement (.sll d a b) := ofRow rfl rfl (.inr rfl) rfl
theorem srl (d a b : Nat) : Statement (.srl d a b) := ofRow rfl rfl (.inr rfl) rfl
theorem sra (d a b : Nat) : Statement (.sra d a b) := ofRow rfl rfl (.inr rfl) rfl
theorem rotl (d a b : Nat) : Statement (.rotl d a b) := ofRow rfl rfl (.inr rfl) rfl
theorem min (d a b : Nat) : Statement (.min d a b) := ofRow rfl rfl (.inr rfl) rfl
theorem max (d a b : Nat) : Statement (.max d a b) := ofRow rfl rfl (.inr rfl) rfl
theorem minn (d a b : Nat) : Statement (.minn d a b) := ofRow rfl rfl (.inr rfl) rfl
theorem maxn (d a b : Nat) : Statement (.maxn d a b) := ofRow rfl rfl (.inr rfl) rfl
theorem mul (d a b : Nat) : Statement (.mul d a b) := ofRow rfl rfl (.inr rfl) rfl
theorem mulh (d a b : Nat) : Statement (.mulh d a b) := ofRow rfl rfl (.inr rfl) rfl
theorem mulhn (d a b : Nat) : Statement (.mulhn d a b) := ofRow rfl rfl (.inr rfl) rfl
theorem div (d a b : Nat) : Statement (.div d a b) := ofRow rfl rfl (.inr rfl) rfl
theorem divn (d a b : Nat) : Statement (.divn d a b) := ofRow rfl rfl (.inr rfl) rfl
theorem rem (d a b : Nat) : Statement (.rem d a b) := ofRow rfl rfl (.inr rfl) rfl
theorem remn (d a b : Nat) : Statement (.remn d a b) := ofRow rfl rfl (.inr rfl) rfl
theorem clz (d a : Nat) : Statement (.clz d a) := ofRow rfl rfl (.inr rfl) rfl
theorem ctz (d a : Nat) : Statement (.ctz d a) := ofRow rfl rfl (.inr rfl) rfl
theorem popc (d a : Nat) : Statement (.popc d a) := ofRow rfl rfl (.inr rfl) rfl
theorem addi (d a imm : Nat) : Statement (.addi d a imm) := ofRow rfl rfl (.inr rfl) rfl
theorem andi (d a imm : Nat) : Statement (.andi d a imm) := ofRow rfl rfl (.inr rfl) rfl
theorem ori (d a imm : Nat) : Statement (.ori d a imm) := ofRow rfl rfl (.inr rfl) rfl
theorem xori (d a imm : Nat) : Statement (.xori d a imm) := ofRow rfl rfl (.inr rfl) rfl
theorem slli (d a sx : Nat) : Statement (.slli d a sx) := ofRow rfl rfl (.inr rfl) rfl
theorem srli (d a sx : Nat) : Statement (.srli d a sx) := ofRow rfl rfl (.inr rfl) rfl
theorem srai (d a sx : Nat) : Statement (.srai d a sx) := ofRow rfl rfl (.inr rfl) rfl
theorem lih (d imm : Nat) : Statement (.lih d imm) := ofRow rfl rfl (.inr rfl) rfl
theorem cmpEq (px a b : Nat) : Statement (.cmpEq px a b) := ofRow rfl rfl (.inr rfl) rfl
theorem cmpNe (px a b : Nat) : Statement (.cmpNe px a b) := ofRow rfl rfl (.inr rfl) rfl
theorem cmpLt (px a b : Nat) : Statement (.cmpLt px a b) := ofRow rfl rfl (.inr rfl) rfl
theorem cmpLe (px a b : Nat) : Statement (.cmpLe px a b) := ofRow rfl rfl (.inr rfl) rfl
theorem cmpLtn (px a b : Nat) : Statement (.cmpLtn px a b) := ofRow rfl rfl (.inr rfl) rfl
theorem cmpLen (px a b : Nat) : Statement (.cmpLen px a b) := ofRow rfl rfl (.inr rfl) rfl
theorem cmpiEq (px a imm : Nat) : Statement (.cmpiEq px a imm) := ofRow rfl rfl (.inr rfl) rfl
theorem cmpiLt (px a imm : Nat) : Statement (.cmpiLt px a imm) := ofRow rfl rfl (.inr rfl) rfl
theorem cmpiLtn (px a imm : Nat) : Statement (.cmpiLtn px a imm) := ofRow rfl rfl (.inr rfl) rfl
theorem sel (d a b nx : Nat) : Statement (.sel d a b nx) := ofRow rfl rfl (.inr rfl) rfl
theorem pand (d a b : Nat) : Statement (.pand d a b) := ofRow rfl rfl (.inr rfl) rfl
theorem por (d a b : Nat) : Statement (.por d a b) := ofRow rfl rfl (.inr rfl) rfl
theorem pxor (d a b : Nat) : Statement (.pxor d a b) := ofRow rfl rfl (.inr rfl) rfl
theorem pnot (d a : Nat) : Statement (.pnot d a) := ofRow rfl rfl (.inr rfl) rfl
theorem pknow (d a : Nat) : Statement (.pknow d a) := ofRow rfl rfl (.inr rfl) rfl
theorem pset (d vx : Nat) : Statement (.pset d vx) := ofRow rfl rfl (.inr rfl) rfl
theorem popv (px a ex : Nat) : Statement (.popv px a ex) := ofRow rfl rfl (.inr rfl) rfl
theorem ldI8 (d a imm : Nat) : Statement (.ldI8 d a imm) := ofRow rfl rfl (.inr rfl) rfl
theorem ldN8 (d a imm : Nat) : Statement (.ldN8 d a imm) := ofRow rfl rfl (.inr rfl) rfl
theorem ldI16 (d a imm : Nat) : Statement (.ldI16 d a imm) := ofRow rfl rfl (.inr rfl) rfl
theorem ldN16 (d a imm : Nat) : Statement (.ldN16 d a imm) := ofRow rfl rfl (.inr rfl) rfl
theorem ldI32 (d a imm : Nat) : Statement (.ldI32 d a imm) := ofRow rfl rfl (.inr rfl) rfl
theorem ldN32 (d a imm : Nat) : Statement (.ldN32 d a imm) := ofRow rfl rfl (.inr rfl) rfl
theorem ldI64 (d a imm : Nat) : Statement (.ldI64 d a imm) := ofRow rfl rfl (.inr rfl) rfl
theorem st8 (d a imm : Nat) : Statement (.st8 d a imm) := ofRow rfl rfl (.inr rfl) rfl
theorem st16 (d a imm : Nat) : Statement (.st16 d a imm) := ofRow rfl rfl (.inr rfl) rfl
theorem st32 (d a imm : Nat) : Statement (.st32 d a imm) := ofRow rfl rfl (.inr rfl) rfl
theorem st64 (d a imm : Nat) : Statement (.st64 d a imm) := ofRow rfl rfl (.inr rfl) rfl
theorem ldAcq (d a sx : Nat) : Statement (.ldAcq d a sx) := ofRow rfl rfl (.inr rfl) rfl
theorem stRel (d a sx : Nat) : Statement (.stRel d a sx) := ofRow rfl rfl (.inr rfl) rfl
theorem sLoadReturn (core bank : Nat) : Statement (.sLoadReturn core bank) := ofEvent rfl
theorem sStorePerform (core bank : Nat) : Statement (.sStorePerform core bank) := ofEvent rfl
theorem bT (px off : Nat) : Statement (.bT px off) := ofRow rfl rfl (.inr rfl) rfl
theorem bF (px off : Nat) : Statement (.bF px off) := ofRow rfl rfl (.inr rfl) rfl
theorem bU (px off : Nat) : Statement (.bU px off) := ofRow rfl rfl (.inr rfl) rfl
theorem b (off : Nat) : Statement (.b off) := ofRow rfl rfl (.inr rfl) rfl
theorem jal (d off : Nat) : Statement (.jal d off) := ofRow rfl rfl (.inr rfl) rfl
theorem jr (d a : Nat) : Statement (.jr d a) := ofRow rfl rfl (.inr rfl) rfl
theorem swpt (a : Nat) : Statement (.swpt a) := ofRow rfl rfl (.inr rfl) rfl
theorem pwr (px lx : Nat) : Statement (.pwr px lx) := ofRow rfl rfl (.inr rfl) rfl
theorem bnow (d : Nat) : Statement (.bnow d) := ofRow rfl rfl (.inr rfl) rfl
theorem palign (a imm : Nat) : Statement (.palign a imm) := ofRow rfl rfl (.inr rfl) rfl
theorem waitt (a : Nat) : Statement (.waitt a) := ofRow rfl rfl (.inr rfl) rfl
theorem waittWake (core bank : Nat) : Statement (.waittWake core bank) := ofEvent rfl
theorem tick (d : Nat) : Statement (.tick d) := ofRow rfl rfl (.inr rfl) rfl
theorem ntime (d : Nat) : Statement (.ntime d) := ofRow rfl rfl (.inr rfl) rfl
theorem fence (sx ex : Nat) : Statement (.fence sx ex) := ofRow rfl rfl (.inr rfl) rfl
theorem fenceRetire (core bank : Nat) : Statement (.fenceRetire core bank) := ofEvent rfl
theorem tlbi (a : Nat) : Statement (.tlbi a) := ofRow rfl rfl (.inr rfl) rfl
theorem tlbiAll : Statement .tlbiAll := ofRow rfl rfl (.inr rfl) rfl
theorem isync : Statement .isync := ofRow rfl rfl (.inr rfl) rfl
theorem smark : Statement .smark := ofRow rfl rfl (.inr rfl) rfl
theorem ezw (a b wx : Nat) : Statement (.ezw a b wx) := ofRow rfl rfl (.inr rfl) rfl
theorem fpush (a : Nat) : Statement (.fpush a) := ofRow rfl rfl (.inr rfl) rfl
theorem repn (ex a : Nat) : Statement (.repn ex a) := ofRow rfl rfl (.inr rfl) rfl
theorem handC (a : Nat) : Statement (.handC a) := ofRow rfl rfl (.inr rfl) rfl
theorem handA (a nx : Nat) : Statement (.handA a nx) := ofRow rfl rfl (.inr rfl) rfl
theorem evpop (d : Nat) : Statement (.evpop d) := ofRow rfl rfl (.inr rfl) rfl
theorem evpeek (d : Nat) : Statement (.evpeek d) := ofRow rfl rfl (.inr rfl) rfl
theorem gbar (sx : Nat) : Statement (.gbar sx) := ofRow rfl rfl (.inr rfl) rfl
theorem gbarRelease (core bank : Nat) : Statement (.gbarRelease core bank) := ofEvent rfl
theorem exit (a : Nat) : Statement (.exit a) := ofRow rfl rfl (.inr rfl) rfl
theorem post (d a b : Nat) : Statement (.post d a b) := ofRow rfl rfl (.inr rfl) rfl
theorem csrr (d cx : Nat) : Statement (.csrr d cx) := ofRow rfl rfl (.inr rfl) rfl
theorem csrw (a cx : Nat) : Statement (.csrw a cx) := ofRow rfl rfl (.inr rfl) rfl
theorem csrs (a cx : Nat) : Statement (.csrs a cx) := ofRow rfl rfl (.inr rfl) rfl
theorem csrc (a cx : Nat) : Statement (.csrc a cx) := ofRow rfl rfl (.inr rfl) rfl
theorem svc (imm : Nat) : Statement (.svc imm) := ofRow rfl rfl (.inr rfl) rfl
theorem brk (imm : Nat) : Statement (.brk imm) := ofRow rfl rfl (.inr rfl) rfl
theorem dopen (rl a gp nx : Nat) : Statement (.dopen rl a gp nx) := ofRow rfl rfl (.inr rfl) rfl
theorem dopenw (rl a gp nx : Nat) : Statement (.dopenw rl a gp nx) := ofRow rfl rfl (.inr rfl) rfl
theorem dhold (rl gp nx : Nat) : Statement (.dhold rl gp nx) := ofRow rfl rfl (.inr rfl) rfl
theorem drel (rl gp nx : Nat) : Statement (.drel rl gp nx) := ofRow rfl rfl (.inr rfl) rfl
theorem drelw (rl gp nx : Nat) : Statement (.drelw rl gp nx) := ofRow rfl rfl (.inr rfl) rfl
theorem drd (rl a gp nx : Nat) : Statement (.drd rl a gp nx) := ofRow rfl rfl (.inr rfl) rfl
theorem dwr (rl a gp nx : Nat) : Statement (.dwr rl a gp nx) := ofRow rfl rfl (.inr rfl) rfl
theorem dref (a gp nx : Nat) : Statement (.dref a gp nx) := ofRow rfl rfl (.inr rfl) rfl
theorem dgap (gp nx : Nat) : Statement (.dgap gp nx) := ofRow rfl rfl (.inr rfl) rfl
theorem cbeat (a : Nat) : Statement (.cbeat a) := ofRow rfl rfl (.inr rfl) rfl
theorem iaZero (d gp nx sx cx : Nat) : Statement (.iaZero d gp nx sx cx) := ofRow rfl rfl (.inr rfl) rfl
theorem iaCopy (d a gp nx sx cx : Nat) : Statement (.iaCopy d a gp nx sx cx) := ofRow rfl rfl (.inr rfl) rfl
theorem iaAddBf16 (d a b gp nx sx cx : Nat) : Statement (.iaAddBf16 d a b gp nx sx cx) := ofRow rfl rfl (.inr rfl) rfl
theorem iaAddF32 (d a b gp nx sx cx : Nat) : Statement (.iaAddF32 d a b gp nx sx cx) := ofRow rfl rfl (.inr rfl) rfl
theorem iaSubBf16 (d a b gp nx sx cx : Nat) : Statement (.iaSubBf16 d a b gp nx sx cx) := ofRow rfl rfl (.inr rfl) rfl
theorem iaSubF32 (d a b gp nx sx cx : Nat) : Statement (.iaSubF32 d a b gp nx sx cx) := ofRow rfl rfl (.inr rfl) rfl
theorem iaMulBf16 (d a b gp nx sx cx : Nat) : Statement (.iaMulBf16 d a b gp nx sx cx) := ofRow rfl rfl (.inr rfl) rfl
theorem iaMulF32 (d a b gp nx sx cx : Nat) : Statement (.iaMulF32 d a b gp nx sx cx) := ofRow rfl rfl (.inr rfl) rfl
theorem iaFmaBf16 (d a b gp nx sx cx : Nat) : Statement (.iaFmaBf16 d a b gp nx sx cx) := ofRow rfl rfl (.inr rfl) rfl
theorem iaFmaF32 (d a b gp nx sx cx : Nat) : Statement (.iaFmaF32 d a b gp nx sx cx) := ofRow rfl rfl (.inr rfl) rfl
theorem iaAxpyBf16 (d a b gp nx sx cx : Nat) : Statement (.iaAxpyBf16 d a b gp nx sx cx) := ofRow rfl rfl (.inr rfl) rfl
theorem iaAxpyF32 (d a b gp nx sx cx : Nat) : Statement (.iaAxpyF32 d a b gp nx sx cx) := ofRow rfl rfl (.inr rfl) rfl
theorem iaAccBf16 (wx a gp nx sx cx : Nat) : Statement (.iaAccBf16 wx a gp nx sx cx) := ofRow rfl rfl (.inr rfl) rfl
theorem iaAccF32 (wx a gp nx sx cx : Nat) : Statement (.iaAccF32 wx a gp nx sx cx) := ofRow rfl rfl (.inr rfl) rfl
theorem iaWldF32 (wx a gp nx sx cx : Nat) : Statement (.iaWldF32 wx a gp nx sx cx) := ofRow rfl rfl (.inr rfl) rfl
theorem iaWldBf16 (wx a gp nx sx cx : Nat) : Statement (.iaWldBf16 wx a gp nx sx cx) := ofRow rfl rfl (.inr rfl) rfl
theorem iaWstF32 (d wx gp nx sx cx : Nat) : Statement (.iaWstF32 d wx gp nx sx cx) := ofRow rfl rfl (.inr rfl) rfl
theorem iaWstBf16 (d wx gp nx sx cx : Nat) : Statement (.iaWstBf16 d wx gp nx sx cx) := ofRow rfl rfl (.inr rfl) rfl
theorem iaMaxBf16 (d a b gp nx sx cx : Nat) : Statement (.iaMaxBf16 d a b gp nx sx cx) := ofRow rfl rfl (.inr rfl) rfl
theorem iaMaxF32 (d a b gp nx sx cx : Nat) : Statement (.iaMaxF32 d a b gp nx sx cx) := ofRow rfl rfl (.inr rfl) rfl
theorem iaMinBf16 (d a b gp nx sx cx : Nat) : Statement (.iaMinBf16 d a b gp nx sx cx) := ofRow rfl rfl (.inr rfl) rfl
theorem iaMinF32 (d a b gp nx sx cx : Nat) : Statement (.iaMinF32 d a b gp nx sx cx) := ofRow rfl rfl (.inr rfl) rfl
theorem iaCvt (d a b gp nx sx cx : Nat) : Statement (.iaCvt d a b gp nx sx cx) := ofRow rfl rfl (.inr rfl) rfl
theorem iaScale (a gp nx sx : Nat) : Statement (.iaScale a gp nx sx) := ofRow rfl rfl (.inr rfl) rfl
theorem cld (a b cx : Nat) : Statement (.cld a b cx) := ofRow rfl rfl (.inr rfl) rfl
theorem cldBs (a b cx : Nat) : Statement (.cldBs a b cx) := ofRow rfl rfl (.inr rfl) rfl
theorem cst (a b cx : Nat) : Statement (.cst a b cx) := ofRow rfl rfl (.inr rfl) rfl
theorem cstBs (a b cx : Nat) : Statement (.cstBs a b cx) := ofRow rfl rfl (.inr rfl) rfl
theorem ccpy (a b cx : Nat) : Statement (.ccpy a b cx) := ofRow rfl rfl (.inr rfl) rfl
theorem cfq (nx a cx px : Nat) : Statement (.cfq nx a cx px) := ofRow rfl rfl (.inr rfl) rfl
theorem cdq (a nx cx : Nat) : Statement (.cdq a nx cx) := ofRow rfl rfl (.inr rfl) rfl
theorem cvf (a b cx : Nat) : Statement (.cvf a b cx) := ofRow rfl rfl (.inr rfl) rfl
theorem cfv (a b cx : Nat) : Statement (.cfv a b cx) := ofRow rfl rfl (.inr rfl) rfl
theorem ccv (a b cx : Nat) : Statement (.ccv a b cx) := ofRow rfl rfl (.inr rfl) rfl
theorem cpl (a b cx : Nat) : Statement (.cpl a b cx) := ofRow rfl rfl (.inr rfl) rfl
theorem cgat (a b cx ex : Nat) : Statement (.cgat a b cx ex) := ofRow rfl rfl (.inr rfl) rfl
theorem csct (a b cx ex : Nat) : Statement (.csct a b cx ex) := ofRow rfl rfl (.inr rfl) rfl
theorem cpat (a px : Nat) : Statement (.cpat a px) := ofRow rfl rfl (.inr rfl) rfl
theorem rdc (a : Nat) : Statement (.rdc a) := ofRow rfl rfl (.inr rfl) rfl
theorem ctx (d sx lx gp nx : Nat) : Statement (.ctx d sx lx gp nx) := ofRow rfl rfl (.inr rfl) rfl
theorem cadd (d a b : Nat) : Statement (.cadd d a b) := ofRow rfl rfl (.inr rfl) rfl
theorem caddSub (d a b : Nat) : Statement (.caddSub d a b) := ofRow rfl rfl (.inr rfl) rfl
theorem caddShl (d a b : Nat) : Statement (.caddShl d a b) := ofRow rfl rfl (.inr rfl) rfl
theorem cmov (d a : Nat) : Statement (.cmov d a) := ofRow rfl rfl (.inr rfl) rfl
theorem cmovLd (d a : Nat) : Statement (.cmovLd d a) := ofRow rfl rfl (.inr rfl) rfl
theorem cmovSt (d a : Nat) : Statement (.cmovSt d a) := ofRow rfl rfl (.inr rfl) rfl
theorem take (d : Nat) : Statement (.take d) := ofRow rfl rfl (.inr rfl) rfl
theorem vadd (d a px b qx ty : Nat) : Statement (.vadd d a px b qx ty) := ofRow rfl rfl (.inr rfl) rfl
theorem vsub (d a px b qx ty : Nat) : Statement (.vsub d a px b qx ty) := ofRow rfl rfl (.inr rfl) rfl
theorem vmul (d a px b qx ty : Nat) : Statement (.vmul d a px b qx ty) := ofRow rfl rfl (.inr rfl) rfl
theorem vfma (d a px b qx cx rl ty : Nat) : Statement (.vfma d a px b qx cx rl ty) := ofRow rfl rfl (.inr rfl) rfl
theorem vfms (d a px b qx cx rl ty : Nat) : Statement (.vfms d a px b qx cx rl ty) := ofRow rfl rfl (.inr rfl) rfl
theorem vmin (d a px b qx ty : Nat) : Statement (.vmin d a px b qx ty) := ofRow rfl rfl (.inr rfl) rfl
theorem vmax (d a px b qx ty : Nat) : Statement (.vmax d a px b qx ty) := ofRow rfl rfl (.inr rfl) rfl
theorem vabs (d a px ty : Nat) : Statement (.vabs d a px ty) := ofRow rfl rfl (.inr rfl) rfl
theorem vneg (d a px ty : Nat) : Statement (.vneg d a px ty) := ofRow rfl rfl (.inr rfl) rfl
theorem vand (d a px b qx ty : Nat) : Statement (.vand d a px b qx ty) := ofRow rfl rfl (.inr rfl) rfl
theorem vor (d a px b qx ty : Nat) : Statement (.vor d a px b qx ty) := ofRow rfl rfl (.inr rfl) rfl
theorem vxor (d a px b qx ty : Nat) : Statement (.vxor d a px b qx ty) := ofRow rfl rfl (.inr rfl) rfl
theorem vshl (d a px b qx ty : Nat) : Statement (.vshl d a px b qx ty) := ofRow rfl rfl (.inr rfl) rfl
theorem vshr (d a px b qx ty : Nat) : Statement (.vshr d a px b qx ty) := ofRow rfl rfl (.inr rfl) rfl
theorem vsra (d a px b qx ty : Nat) : Statement (.vsra d a px b qx ty) := ofRow rfl rfl (.inr rfl) rfl
theorem vrcp (d a px ty : Nat) : Statement (.vrcp d a px ty) := ofRow rfl rfl (.inr rfl) rfl
theorem vrsq (d a px ty : Nat) : Statement (.vrsq d a px ty) := ofRow rfl rfl (.inr rfl) rfl
theorem vexp2 (d a px ty : Nat) : Statement (.vexp2 d a px ty) := ofRow rfl rfl (.inr rfl) rfl
theorem vlog2 (d a px ty : Nat) : Statement (.vlog2 d a px ty) := ofRow rfl rfl (.inr rfl) rfl
theorem vsqrt (d a px ty : Nat) : Statement (.vsqrt d a px ty) := ofRow rfl rfl (.inr rfl) rfl
theorem vdiv (d a px b qx ty : Nat) : Statement (.vdiv d a px b qx ty) := ofRow rfl rfl (.inr rfl) rfl
theorem vcmpEq (md a px b qx ty : Nat) : Statement (.vcmpEq md a px b qx ty) := ofRow rfl rfl (.inr rfl) rfl
theorem vcmpNe (md a px b qx ty : Nat) : Statement (.vcmpNe md a px b qx ty) := ofRow rfl rfl (.inr rfl) rfl
theorem vcmpLt (md a px b qx ty : Nat) : Statement (.vcmpLt md a px b qx ty) := ofRow rfl rfl (.inr rfl) rfl
theorem vcmpLe (md a px b qx ty : Nat) : Statement (.vcmpLe md a px b qx ty) := ofRow rfl rfl (.inr rfl) rfl
theorem vcmpGt (md a px b qx ty : Nat) : Statement (.vcmpGt md a px b qx ty) := ofRow rfl rfl (.inr rfl) rfl
theorem vcmpGe (md a px b qx ty : Nat) : Statement (.vcmpGe md a px b qx ty) := ofRow rfl rfl (.inr rfl) rfl
theorem vcmpUo (md a px b qx ty : Nat) : Statement (.vcmpUo md a px b qx ty) := ofRow rfl rfl (.inr rfl) rfl
theorem vsel (d a px b qx cx rl ty : Nat) : Statement (.vsel d a px b qx cx rl ty) := ofRow rfl rfl (.inr rfl) rfl
theorem mand (d a b : Nat) : Statement (.mand d a b) := ofRow rfl rfl (.inr rfl) rfl
theorem mor (d a b : Nat) : Statement (.mor d a b) := ofRow rfl rfl (.inr rfl) rfl
theorem mxor (d a b : Nat) : Statement (.mxor d a b) := ofRow rfl rfl (.inr rfl) rfl
theorem mnot (d a : Nat) : Statement (.mnot d a) := ofRow rfl rfl (.inr rfl) rfl
theorem mknow (d a : Nat) : Statement (.mknow d a) := ofRow rfl rfl (.inr rfl) rfl
theorem mall (d a : Nat) : Statement (.mall d a) := ofRow rfl rfl (.inr rfl) rfl
theorem mnone (d a : Nat) : Statement (.mnone d a) := ofRow rfl rfl (.inr rfl) rfl
theorem vcvt (d a px sx xx ty : Nat) : Statement (.vcvt d a px sx xx ty) := ofRow rfl rfl (.inr rfl) rfl
theorem vqnt (d a px wx ty : Nat) : Statement (.vqnt d a px wx ty) := ofRow rfl rfl (.inr rfl) rfl
theorem vdeq (d a px wx ty : Nat) : Statement (.vdeq d a px wx ty) := ofRow rfl rfl (.inr rfl) rfl
theorem vredsum (d a px ty : Nat) : Statement (.vredsum d a px ty) := ofRow rfl rfl (.inr rfl) rfl
theorem vredmax (d a px ty : Nat) : Statement (.vredmax d a px ty) := ofRow rfl rfl (.inr rfl) rfl
theorem vredmin (d a px ty : Nat) : Statement (.vredmin d a px ty) := ofRow rfl rfl (.inr rfl) rfl
theorem vperm (d a px b qx cx rl ty : Nat) : Statement (.vperm d a px b qx cx rl ty) := ofRow rfl rfl (.inr rfl) rfl
theorem vrot (d a px nx ty : Nat) : Statement (.vrot d a px nx ty) := ofRow rfl rfl (.inr rfl) rfl
theorem vbcast (d a px b qx ty : Nat) : Statement (.vbcast d a px b qx ty) := ofRow rfl rfl (.inr rfl) rfl
theorem viota (d imm ty : Nat) : Statement (.viota d imm ty) := ofRow rfl rfl (.inr rfl) rfl
theorem vsplat (d imm ty : Nat) : Statement (.vsplat d imm ty) := ofRow rfl rfl (.inr rfl) rfl
theorem vmov (d a px ty : Nat) : Statement (.vmov d a px ty) := ofRow rfl rfl (.inr rfl) rfl
theorem vclr (d ty : Nat) : Statement (.vclr d ty) := ofRow rfl rfl (.inr rfl) rfl
theorem vpf (ex qx : Nat) : Statement (.vpf ex qx) := ofRow rfl rfl (.inr rfl) rfl
theorem vtos (sx qx : Nat) : Statement (.vtos sx qx) := ofRow rfl rfl (.inr rfl) rfl
theorem vmark : Statement .vmark := ofRow rfl rfl (.inr rfl) rfl
theorem vResultLanding (core bank : Nat) : Statement (.vResultLanding core bank) := ofEvent rfl
theorem jadd (jd a b ty : Nat) : Statement (.jadd jd a b ty) := ofRow rfl rfl (.inr rfl) rfl
theorem jsub (jd a b ty : Nat) : Statement (.jsub jd a b ty) := ofRow rfl rfl (.inr rfl) rfl
theorem jmul (jd a b ty : Nat) : Statement (.jmul jd a b ty) := ofRow rfl rfl (.inr rfl) rfl
theorem jdiv (jd a b ty : Nat) : Statement (.jdiv jd a b ty) := ofRow rfl rfl (.inr rfl) rfl
theorem jsqr (jd a ty : Nat) : Statement (.jsqr jd a ty) := ofRow rfl rfl (.inr rfl) rfl
theorem jsqrt (jd a ty : Nat) : Statement (.jsqrt jd a ty) := ofRow rfl rfl (.inr rfl) rfl
theorem jexp2 (jd a ty : Nat) : Statement (.jexp2 jd a ty) := ofRow rfl rfl (.inr rfl) rfl
theorem jmax (jd a b ty : Nat) : Statement (.jmax jd a b ty) := ofRow rfl rfl (.inr rfl) rfl
theorem jmin (jd a b ty : Nat) : Statement (.jmin jd a b ty) := ofRow rfl rfl (.inr rfl) rfl
theorem jabs (jd a ty : Nat) : Statement (.jabs jd a ty) := ofRow rfl rfl (.inr rfl) rfl
theorem jneg (jd a ty : Nat) : Statement (.jneg jd a ty) := ofRow rfl rfl (.inr rfl) rfl
theorem jhull (jd a b ty : Nat) : Statement (.jhull jd a b ty) := ofRow rfl rfl (.inr rfl) rfl
theorem jisect (jd a b ty : Nat) : Statement (.jisect jd a b ty) := ofRow rfl rfl (.inr rfl) rfl
theorem jlo (d a ex ty : Nat) : Statement (.jlo d a ex ty) := ofRow rfl rfl (.inr rfl) rfl
theorem jhi (d a ex ty : Nat) : Statement (.jhi d a ex ty) := ofRow rfl rfl (.inr rfl) rfl
theorem jmid (d a ex ty : Nat) : Statement (.jmid d a ex ty) := ofRow rfl rfl (.inr rfl) rfl
theorem jrad (d a ex ty : Nat) : Statement (.jrad d a ex ty) := ofRow rfl rfl (.inr rfl) rfl
theorem jwid (d a ex ty : Nat) : Statement (.jwid d a ex ty) := ofRow rfl rfl (.inr rfl) rfl
theorem jmkPair (jd px a qx b ty : Nat) : Statement (.jmkPair jd px a qx b ty) := ofRow rfl rfl (.inr rfl) rfl
theorem jmkPoint (jd px a ty : Nat) : Statement (.jmkPoint jd px a ty) := ofRow rfl rfl (.inr rfl) rfl
theorem jredsum (jd a ty : Nat) : Statement (.jredsum jd a ty) := ofRow rfl rfl (.inr rfl) rfl
theorem jcmpLt (md a b ty : Nat) : Statement (.jcmpLt md a b ty) := ofRow rfl rfl (.inr rfl) rfl
theorem jcmpLe (md a b ty : Nat) : Statement (.jcmpLe md a b ty) := ofRow rfl rfl (.inr rfl) rfl
theorem jcmpEq (md a b ty : Nat) : Statement (.jcmpEq md a b ty) := ofRow rfl rfl (.inr rfl) rfl
theorem jcmpNe (md a b ty : Nat) : Statement (.jcmpNe md a b ty) := ofRow rfl rfl (.inr rfl) rfl
theorem jcmpSub (md a b ty : Nat) : Statement (.jcmpSub md a b ty) := ofRow rfl rfl (.inr rfl) rfl
theorem jcmpDis (md a b ty : Nat) : Statement (.jcmpDis md a b ty) := ofRow rfl rfl (.inr rfl) rfl
theorem jempty (md a ty : Nat) : Statement (.jempty md a ty) := ofRow rfl rfl (.inr rfl) rfl
theorem jst (d a ex hx : Nat) : Statement (.jst d a ex hx) := ofRow rfl rfl (.inr rfl) rfl
theorem jcvt (jd a px ty : Nat) : Statement (.jcvt jd a px ty) := ofRow rfl rfl (.inr rfl) rfl
theorem jaddBk (zz xx yy ty : Nat) : Statement (.jaddBk zz xx yy ty) := ofRow rfl rfl (.inr rfl) rfl
theorem jsubBk (zz xx yy ty : Nat) : Statement (.jsubBk zz xx yy ty) := ofRow rfl rfl (.inr rfl) rfl
theorem jmulBk (zz xx yy ty : Nat) : Statement (.jmulBk zz xx yy ty) := ofRow rfl rfl (.inr rfl) rfl
theorem jdivBk (zz xx yy ty : Nat) : Statement (.jdivBk zz xx yy ty) := ofRow rfl rfl (.inr rfl) rfl
theorem jsqrBk (zz xx ty : Nat) : Statement (.jsqrBk zz xx ty) := ofRow rfl rfl (.inr rfl) rfl
theorem jsqrtBk (zz xx ty : Nat) : Statement (.jsqrtBk zz xx ty) := ofRow rfl rfl (.inr rfl) rfl
theorem jexp2Bk (zz xx ty : Nat) : Statement (.jexp2Bk zz xx ty) := ofRow rfl rfl (.inr rfl) rfl
theorem jmaxBk (zz xx yy ty : Nat) : Statement (.jmaxBk zz xx yy ty) := ofRow rfl rfl (.inr rfl) rfl
theorem jminBk (zz xx yy ty : Nat) : Statement (.jminBk zz xx yy ty) := ofRow rfl rfl (.inr rfl) rfl
theorem jabsBk (zz xx ty : Nat) : Statement (.jabsBk zz xx ty) := ofRow rfl rfl (.inr rfl) rfl
theorem jnegBk (zz xx ty : Nat) : Statement (.jnegBk zz xx ty) := ofRow rfl rfl (.inr rfl) rfl
theorem jsplat (jd imm : Nat) : Statement (.jsplat jd imm) := ofRow rfl rfl (.inr rfl) rfl
theorem mtile (b : Nat) : Statement (.mtile b) := ofRow rfl rfl (.inr rfl) rfl
theorem mzacc (b : Nat) : Statement (.mzacc b) := ofRow rfl rfl (.inr rfl) rfl
theorem mret : Statement .mret := ofRow rfl rfl (.inr rfl) rfl
theorem mmark : Statement .mmark := ofRow rfl rfl (.inr rfl) rfl
theorem mtileStep (core : Nat) : Statement (.mtileStep core) := ofEvent rfl
theorem mtileReductionEnd (core : Nat) : Statement (.mtileReductionEnd core) := ofEvent rfl
theorem mtileRetirementDone (core : Nat) : Statement (.mtileRetirementDone core) := ofEvent rfl
theorem saAdd (d a b ty : Nat) : Statement (.saAdd d a b ty) := ofRow rfl rfl (.inr rfl) rfl
theorem saAddq (d a b sx ty : Nat) : Statement (.saAddq d a b sx ty) := ofRow rfl rfl (.inr rfl) rfl
theorem saMin (d a b ty : Nat) : Statement (.saMin d a b ty) := ofRow rfl rfl (.inr rfl) rfl
theorem saMax (d a b ty : Nat) : Statement (.saMax d a b ty) := ofRow rfl rfl (.inr rfl) rfl
theorem saOr (d a b ty : Nat) : Statement (.saOr d a b ty) := ofRow rfl rfl (.inr rfl) rfl
theorem saAnd (d a b ty : Nat) : Statement (.saAnd d a b ty) := ofRow rfl rfl (.inr rfl) rfl
theorem saXch (d a b ty : Nat) : Statement (.saXch d a b ty) := ofRow rfl rfl (.inr rfl) rfl
theorem saCnt (d a ty : Nat) : Statement (.saCnt d a ty) := ofRow rfl rfl (.inr rfl) rfl
theorem saScl (a sx : Nat) : Statement (.saScl a sx) := ofRow rfl rfl (.inr rfl) rfl
theorem saRd (d a sx ty : Nat) : Statement (.saRd d a sx ty) := ofRow rfl rfl (.inr rfl) rfl
theorem saWindow (core bank : Nat) : Statement (.saWindow core bank) := ofEvent rfl
theorem saRmwPerform (core bank : Nat) : Statement (.saRmwPerform core bank) := ofEvent rfl
theorem beatBoundary (die : Nat) : Statement (.beatBoundary die) := ofEvent rfl
theorem alignmentPauseEnd (die : Nat) : Statement (.alignmentPauseEnd die) := ofEvent rfl
theorem beatObserved (core bank eng : Nat) : Statement (.beatObserved core bank eng) := ofEvent rfl
theorem beaconSend (die : Nat) : Statement (.beaconSend die) := ofEvent rfl
theorem beaconReceive (die src : Nat) : Statement (.beaconReceive die src) := ofEvent rfl
theorem livenessTimeout (die : Nat) : Statement (.livenessTimeout die) := ofEvent rfl
theorem refreshCheck (pc grp : Nat) : Statement (.refreshCheck pc grp) := ofEvent rfl
theorem freezeBegin (die : Nat) : Statement (.freezeBegin die) := ofEvent rfl
theorem forcedRefreshStart (pc : Nat) : Statement (.forcedRefreshStart pc) := ofEvent rfl
theorem freezeEnd (die : Nat) : Statement (.freezeEnd die) := ofEvent rfl
theorem deadlineRefresh (pc grp : Nat) : Statement (.deadlineRefresh pc grp) := ofEvent rfl
theorem seqCommandStart (pc : Nat) : Statement (.seqCommandStart pc) := ofEvent rfl
theorem seqCommandComplete (pc : Nat) : Statement (.seqCommandComplete pc) := ofEvent rfl
theorem transferSend (pc : Nat) : Statement (.transferSend pc) := ofEvent rfl
theorem drdStripLanding (pc : Nat) : Statement (.drdStripLanding pc) := ofEvent rfl
theorem farRequestArrival (id : Nat) : Statement (.farRequestArrival id) := ofEvent rfl
theorem farSlot (pc : Nat) : Statement (.farSlot pc) := ofEvent rfl
theorem rdcBlockAccept (core bank : Nat) : Statement (.rdcBlockAccept core bank) := ofEvent rfl
theorem reductionStrip (stack : Nat) : Statement (.reductionStrip stack) := ofEvent rfl
theorem reductionFinish (stack : Nat) : Statement (.reductionFinish stack) := ofEvent rfl
theorem addressPieceSend (core bank n : Nat) : Statement (.addressPieceSend core bank n) := ofEvent rfl
theorem addressPieceReply (id : Nat) : Statement (.addressPieceReply id) := ofEvent rfl
theorem pageWalk (core bank unit : Nat) : Statement (.pageWalk core bank unit) := ofEvent rfl
theorem ctxSend (die : Nat) : Statement (.ctxSend die) := ofEvent rfl
theorem ctxLanding (die : Nat) : Statement (.ctxLanding die) := ofEvent rfl
theorem nodeFrameArrival (port src dst head len : Nat) (wr : Bool) (data : List Byte) : Statement (.nodeFrameArrival port src dst head len wr data) := ofEvent rfl
theorem nodeAcknowledgement (id : Nat) (ok : Bool) (data : List Byte) : Statement (.nodeAcknowledgement id ok data) := ofEvent rfl
theorem nodeDestinationUnreachable (dev : Nat) : Statement (.nodeDestinationUnreachable dev) := ofEvent rfl
theorem taskEnd (core bank : Nat) : Statement (.taskEnd core bank) := ofEvent rfl
theorem lqtailWrite (vf q val : Nat) : Statement (.lqtailWrite vf q val) := ofEvent rfl
theorem packetRead (vf q : Nat) : Statement (.packetRead vf q) := ofEvent rfl
theorem lqctlOff (vf q : Nat) : Statement (.lqctlOff vf q) := ofEvent rfl
theorem lqctlRun (vf q : Nat) : Statement (.lqctlRun vf q) := ofEvent rfl
theorem lqctlDrain (vf q : Nat) : Statement (.lqctlDrain vf q) := ofEvent rfl
theorem lqctlAbort (vf q : Nat) : Statement (.lqctlAbort vf q) := ofEvent rfl
theorem vfuseWrite (vf : Nat) : Statement (.vfuseWrite vf) := ofEvent rfl
theorem planactWrite (val : Nat) : Statement (.planactWrite val) := ofEvent rfl
theorem aelsWrite (pc : Nat) : Statement (.aelsWrite pc) := ofEvent rfl
theorem telsWrite (pc : Nat) : Statement (.telsWrite pc) := ofEvent rfl
theorem mclogWrite (core w val : Nat) : Statement (.mclogWrite core w val) := ofEvent rfl
theorem asinvWrite (vf val : Nat) : Statement (.asinvWrite vf val) := ofEvent rfl
theorem asinvDone (vf : Nat) : Statement (.asinvDone vf) := ofEvent rfl
theorem cebaseWrite (die val : Nat) : Statement (.cebaseWrite die val) := ofEvent rfl
theorem cetailWrite (die val : Nat) : Statement (.cetailWrite die val) := ofEvent rfl
theorem ceJobStart (die : Nat) : Statement (.ceJobStart die) := ofEvent rfl
theorem ceJobComplete (die : Nat) : Statement (.ceJobComplete die) := ofEvent rfl
theorem gangStopRequest (core bank : Nat) : Statement (.gangStopRequest core bank) := ofEvent rfl
theorem cutTaken (gang : Nat) : Statement (.cutTaken gang) := ofEvent rfl
theorem cutcmdNoEffect (vf val : Nat) : Statement (.cutcmdNoEffect vf val) := ofEvent rfl
theorem cutcmdResume (vf val : Nat) : Statement (.cutcmdResume vf val) := ofEvent rfl
theorem cutcmdEnd (vf val : Nat) : Statement (.cutcmdEnd vf val) := ofEvent rfl
theorem cutcmdPreempt (vf val : Nat) : Statement (.cutcmdPreempt vf val) := ofEvent rfl
theorem rowReopen (pc : Nat) : Statement (.rowReopen pc) := ofEvent rfl
theorem powerUp : Statement .powerUp := ofEvent rfl
theorem bootctlGo (len : Nat) : Statement (.bootctlGo len) := ofEvent rfl
theorem bootVerificationDone : Statement .bootVerificationDone := ofEvent rfl
theorem pcieConventionalReset : Statement .pcieConventionalReset := ofEvent rfl
theorem bwinWrite (val : Nat) : Statement (.bwinWrite val) := ofEvent rfl
theorem hostBarAccess (fn bar off size : Nat) (wr : Bool) (val : Nat) : Statement (.hostBarAccess fn bar off size wr val) := ofEvent rfl
theorem hostWindowCompletion (id : Nat) (ok : Bool) (data : List Byte) : Statement (.hostWindowCompletion id ok data) := ofEvent rfl
theorem attreqWrite (val : Nat) : Statement (.attreqWrite val) := ofEvent rfl
theorem attestationReportDone : Statement .attestationReportDone := ofEvent rfl
theorem rlptrWrite (val : Nat) : Statement (.rlptrWrite val) := ofEvent rfl
theorem fatalErrorDump (cause : Nat) : Statement (.fatalErrorDump cause) := ofEvent rfl
theorem pwrctlWrite (die val : Nat) : Statement (.pwrctlWrite die val) := ofEvent rfl
theorem thermalThresholdChange (die temp : Nat) : Statement (.thermalThresholdChange die temp) := ofEvent rfl
theorem stackHotChange (stack temp : Nat) : Statement (.stackHotChange stack temp) := ofEvent rfl
theorem clockSkipTimeout (die : Nat) : Statement (.clockSkipTimeout die) := ofEvent rfl
theorem transitionWindowEnd (die : Nat) : Statement (.transitionWindowEnd die) := ofEvent rfl
theorem registerWrite (pa val : Nat) : Statement (.registerWrite pa val) := ofEvent rfl
theorem cScratchpadCommandComplete (core bank : Nat) : Statement (.cScratchpadCommandComplete core bank) := ofEvent rfl
theorem saRdComplete (core bank : Nat) : Statement (.saRdComplete core bank) := ofEvent rfl
theorem eventMessageTimestamp (port dir : Nat) : Statement (.eventMessageTimestamp port dir) := ofEvent rfl


end Sys2Proof.Laws.EncodingFits
end

