-- ==== Sys2Proof/Laws/Vectors.lean ====
section
/-!
SUPPORT. Instructions of V and the interval unit (11_vector R188-R191): a cycle in which nothing lands, and what an instruction that
issues does for every combination of its waits, its queues and its destination.
-/

namespace Sys2Proof.Machine

/-- A cycle in which nothing lands, in a walked state. -/
theorem cycled_walks {s t : State} (hw : Walks s.key s.cur.eng s t) (hn : NoLanding s) :
    cycleV t t.key = cycled t ∧ Walks s.key s.cur.eng (cycled s) (cycled t) := by
  have hv : t.me.v = s.me.v := hw.me_field (fun x => x.v) fun _ => rfl
  refine ⟨cycleV_noLanding t t.key fun f hf => ?_, hw.modMe _ (by intro a b hab; simp only [Task.still, Task.mk.injEq] at hab ⊢; simp_all)⟩
  have h1 : (t.task t.key).v = s.me.v := hv
  rw [h1] at hf ⊢
  exact hn f hf

theorem modMe_modMe (s : State) (f g : Task → Task) : (s.modMe f).modMe g = s.modMe fun t => g (f t) := modTask_modTask s s.key f g

theorem cycled_cur (s : State) : (cycled s).cur = s.cur := rfl
theorem cycled_key (s : State) : (cycled s).key = s.key := rfl
theorem cycled_eng (s : State) (k : Nat) (e : Eng) : (cycled s).eng k e = s.eng k e := by
  unfold cycled State.modMe; exact eng_modTask (fun t => by rfl) k e
theorem cycled_myEng (s : State) : (cycled s).myEng = s.myEng := cycled_eng _ _ _

theorem Walks.cGone {s t : State} (hw : Walks s.key s.cur.eng s t) (he : s.cur.eng = .v) : Machine.cGone t t.key = Machine.cGone s s.key := by
  unfold Machine.cGone
  rw [hw.key, hw.eng_ne (j := .c) (by rw [he]; decide)]
  have : (t.eng s.key .v).count = (s.eng s.key .v).count := by
    rw [← he]; exact hw.engField (fun x => x.count) fun _ => rfl
  rw [this, hw.field (fun x => x.hq) fun _ => rfl]

theorem cGone_cycled (s : State) : Machine.cGone (cycled s) (cycled s).key = Machine.cGone s s.key := by
  unfold Machine.cGone
  rw [cycled_key, cycled_eng, cycled_eng, show ((cycled s).task s.key).hq = (s.task s.key).hq by simp [cycled, State.modMe]]

theorem inFlight_cycled (s : State) (d : VDst) : inFlight (cycled s).me d = inFlight s.me d := by
  unfold inFlight; simp [cycled, State.me, State.modMe, State.key]

theorem Walks.inFlight {s t : State} {e : Eng} (hw : Walks s.key e s t) (d : VDst) : Machine.inFlight t.me d = Machine.inFlight s.me d := by
  unfold Machine.inFlight; rw [hw.me_field (fun x => x.v) fun _ => rfl]

/-- What an instruction of V does, given what its body puts in flight. -/
theorem flies_of {i : Instr} {s : State} {r : VReq} {lat : Nat} {body : List Mem → State → State} {f : List Mem → List Flight}
    (he : exec i s = .next (vIssue r body s))
    (hb : ∀ vals q t, Walks s.key s.cur.eng ((cycled s).modMe fun x => { x with opq := q }) t →
      body vals t = flyAll lat (f vals) t) : Flies i s lat r f := by
  intro hi hc hn hv waits busy
  obtain ⟨t, hex, hw, hck, hr, l, hl⟩ := exec_issue he hi (by simp)
  obtain ⟨hcy, hwc⟩ := cycled_walks hw hn
  have hcur : (cycled t).cur = s.cur := hw.cur
  have hkey : (cycled t).key = s.key := hw.key
  have hin : (cycled t).myEng.inter = s.myEng.inter := by rw [cycled_myEng, hl]
  have hbs : badShare (cycled t) r.dst = badShare s r.dst := by
    unfold badShare inFile fileShare
    rw [hcur]
    have : (cycled t).myCore = s.myCore := hw.myCore
    rw [this]
  have hfl : ∀ d, inFlight (cycled t).me d = inFlight s.me d := fun d => by rw [inFlight_cycled, hw.inFlight]
  have hoq : (cycled t).me.opq = s.me.opq := by
    have : (cycled t).me.opq = t.me.opq := by simp [cycled, State.me, State.modMe, State.key]
    rw [this]; exact hw.me_field (fun x => x.opq) fun _ => rfl
  have hnr : noRoom (cycled t).me r.dst = noRoom s.me r.dst := by
    unfold noRoom outqPlaces
    have h1 : (cycled t).me.outq = s.me.outq := by
      have : (cycled t).me.outq = t.me.outq := by simp [cycled, State.me, State.modMe, State.key]
      rw [this]; exact hw.me_field (fun x => x.outq) fun _ => rfl
    have h2 : (cycled t).me.v.flights = s.me.v.flights := by
      have : (cycled t).me.v.flights = t.me.v.flights := by simp [cycled, State.me, State.modMe, State.key]
      rw [this]; rw [hw.me_field (fun x => x.v) fun _ => rfl]
    rw [h1, h2]
  have hg : cGone (cycled t) s.key = cGone s s.key := by rw [← hw.cGone hv, ← cGone_cycled t, hkey]
  have hbusy : ((cycled t).myEng.inter = true ∧ ((r.reads ++ r.dst.toList).any (inFlight (cycled t).me)) = true) ↔ busy := by
    rw [hin]; simp only [busy, List.any_eq_true, hfl]
  have hwt : ∀ code, ∀ x : Result, x = .next (queueWait (cycled t).myEng.inter code (cycled t)) → exec i s = x →
      (waits → Moves i s (cycled s)) ∧ (¬ waits → Moves i s (trap code (cycled s))) := by
    intro code x hx hxx
    rw [hx] at hxx
    unfold queueWait at hxx
    rw [hin, hkey, hg] at hxx
    refine ⟨fun h => ?_, fun h => ?_⟩
    · rw [if_pos (by simpa [waits] using h)] at hxx
      refine ⟨_, hxx, hwc.trans ?_⟩
      have := waitFor_walks .retry (cycled t)
      rwa [hkey, hcur] at this
    · rw [if_neg (by simpa [waits] using h)] at hxx
      exact ⟨_, hxx, Walks.trap (s := cycled s) hwc code⟩
  dsimp only at hex
  rw [hcy] at hex
  refine ⟨fun h1 => ?_, fun h1 h2 => ?_, fun h1 h2 h3 => ?_, fun vals q h1 h2 h3 => ⟨fun h4 => ?_, fun h4 => ?_⟩⟩
  · rw [hbs, if_pos h1] at hex
    exact ⟨_, hex, Walks.trap (s := cycled s) hwc _⟩
  · rw [hbs, h1, if_neg (by simp), if_pos (hbusy.2 h2)] at hex
    refine ⟨_, hex, hwc.trans ?_⟩
    have := waitFor_walks .retry (cycled t)
    rwa [hkey, hcur] at this
  · rw [hbs, h1, if_neg (by simp), if_neg (fun hh => h2 (hbusy.1 hh)), hoq, h3] at hex
    exact hwt _ _ rfl hex
  · rw [hbs, h1, if_neg (by simp), if_neg (fun hh => h2 (hbusy.1 hh)), hoq, h3] at hex
    dsimp only at hex
    rw [hnr, if_pos h4] at hex
    exact hwt _ _ rfl hex
  · rw [hbs, h1, if_neg (by simp), if_neg (fun hh => h2 (hbusy.1 hh)), hoq, h3] at hex
    dsimp only at hex
    rw [hnr, h4, if_neg (by simp)] at hex
    have hcx : CheckerIdle (cycled t) := by
      intro g hg hd
      refine hck hc g ?_ hd
      rw [← hg]; unfold State.gangOf; simp [cycled, State.modMe, State.key]
    obtain ⟨t2, hex, hw2, ht2⟩ := exec_declare hex hcx s.key s.cur.eng
    have hw3 : Walks s.key s.cur.eng ((cycled s).modMe fun x => { x with opq := q }) (t2.modMe fun x => { x with opq := q }) := by
      have := (hwc.trans hw2)
      exact this.modMe (s := cycled s) _ (by intro a b hab; simp only [Task.still, Task.mk.injEq] at hab ⊢; simp_all)
    rw [hb vals q _ hw3] at hex
    have hw4 : Walks s.key s.cur.eng (launches lat q (f vals) s) ((t2.modMe fun x => { x with opq := q }).modMe fun x =>
        { x with v := { x.v with flights := x.v.flights ++ (f vals).map fun g => { g with due := x.v.cyc + lat } } }) := by
      have h5 := hw3.modMe (s := (cycled s).modMe fun x => { x with opq := q }) (fun x =>
        { x with v := { x.v with flights := x.v.flights ++ (f vals).map fun g => { g with due := x.v.cyc + lat } } }) (by intro a b hab; simp only [Task.still, Task.mk.injEq] at hab ⊢; simp_all)
      have h6 : ((cycled s).modMe fun x => { x with opq := q }).modMe (fun x =>
        { x with v := { x.v with flights := x.v.flights ++ (f vals).map fun g => { g with due := x.v.cyc + lat } } }) = launches lat q (f vals) s := by
        unfold launches cycled
        rw [modMe_modMe, modMe_modMe]
      rw [← h6]; exact h5
    have h7 : (launches lat q (f vals) s).myEng = s.myEng := by
      unfold launches State.myEng State.modMe; exact eng_modTask (fun t => by rfl) _ _
    have ha : AtIt s t2 := by
      have hk2 : t2.key = s.key := hw2.key.trans hkey
      have hc2 : t2.cur = s.cur := hw2.cur.trans hcur
      have h8 : t2.me.recs = s.me.recs := by
        have : t2.me = (cycled t).me := by rw [State.me, State.me, hk2, hkey, State.task, State.task, ht2]
        rw [this, ← hr.1]; simp [cycled, State.me, State.modMe, State.key]
      have h9 : t2.myEng.passes = s.myEng.passes := by
        have : t2.myEng = (cycled t).myEng := by rw [State.myEng, State.myEng, hk2, hkey, hc2, hcur, State.eng, State.eng, State.task, State.task, ht2]
        rw [this, cycled_myEng, hl]
      exact ⟨h9, h8⟩
    obtain ⟨a1, a2⟩ := advance_does hw4 rfl (by rw [h7]) (by rw [h7]) (by rw [h7])
      (by refine AtIt.modMe (AtIt.modMe ha _ ?_ ?_) _ ?_ ?_ <;> exact fun _ => rfl)
    exact ⟨_, hex, a1, a2⟩

/-- A field of the task that neither the cycle nor the queues change. -/
theorem popped_me {s t : State} {q} (hw : Walks s.key s.cur.eng ((cycled s).modMe fun x => { x with opq := q }) t) {α : Type} (f : Task → α)
    (hf : ∀ x, f (x.still s.cur.eng) = f x) (hq : ∀ x : Task, ∀ v q, f { x with v := v, opq := q } = f x) : f t.me = f s.me := by
  rw [hw.me_field (s := (cycled s).modMe fun x => { x with opq := q }) f hf]
  have : ((cycled s).modMe fun x => { x with opq := q }).me = { s.me with v := { s.me.v with cyc := s.me.v.cyc + 1, sregs := s.me.sreg, pushed := [] }, opq := q } := by
    unfold cycled
    rw [modMe_modMe]
    exact State.task_modTask_same _ _ _
  rw [this]
  exact hq _ _ _

theorem popped_maskT {s t : State} {q} (hw : Walks s.key s.cur.eng ((cycled s).modMe fun x => { x with opq := q }) t) (m n : Nat) :
    maskT t.me m n = maskT s.me m n := by
  unfold maskT maskEl; rw [popped_me hw (fun x => x.mask) (fun _ => rfl) fun _ _ _ => rfl]

theorem popped_maskEl {s t : State} {q} (hw : Walks s.key s.cur.eng ((cycled s).modMe fun x => { x with opq := q }) t) (m n : Nat) :
    maskEl t.me m n = maskEl s.me m n := by
  unfold maskEl; rw [popped_me hw (fun x => x.mask) (fun _ => rfl) fun _ _ _ => rfl]

theorem popped_eng {s : State} {q} : ((cycled s).modMe fun x => { x with opq := q }).myEng = s.myEng := by
  have : ((cycled s).modMe fun x => { x with opq := q }).myEng = (cycled s).myEng := eng_modTask (fun t => by rfl) _ _
  rw [this, cycled_myEng]

theorem popped_my {s t : State} {q} (hw : Walks s.key s.cur.eng ((cycled s).modMe fun x => { x with opq := q }) t) {α : Type} (f : EngSt → α)
    (hf : ∀ x : EngSt, f x.still = f x) : f t.myEng = f s.myEng := by
  rw [Walks.my (s := (cycled s).modMe fun x => { x with opq := q }) hw f hf, popped_eng]

theorem popped_cur {s t : State} {q} (hw : Walks s.key s.cur.eng ((cycled s).modMe fun x => { x with opq := q }) t) : t.cur = s.cur := hw.cur

theorem popped_ctx {s t : State} {q} (hw : Walks s.key s.cur.eng ((cycled s).modMe fun x => { x with opq := q }) t) : vCtx t = vCtx s := by
  unfold vCtx
  rw [popped_cur hw, popped_my hw (fun x => x.inter) fun _ => rfl, popped_me hw (fun x => x.csr.compat) (fun _ => rfl) fun _ _ _ => rfl]

theorem popped_event {s t : State} {q} (hw : Walks s.key s.cur.eng ((cycled s).modMe fun x => { x with opq := q }) t) (a b : Nat) :
    vEvent t a b = vEvent s a b := by
  unfold vEvent
  rw [popped_cur hw, popped_my hw (fun x => x.serial) fun _ => rfl]

/-- The result of an instruction of V in a walked state. -/
theorem vResult_eq {s t : State} {q} (hw : Walks s.key s.cur.eng ((cycled s).modMe fun x => { x with opq := q }) t) (lat : Nat) (dst esz n els f) :
    vResult lat dst esz n els f t = flyAll lat [resultOf s dst esz n els f] t := by
  unfold vResult resultOf
  dsimp only
  rw [popped_event hw]
  rfl

/-- A masked instruction of V. -/
theorem vMasked_flies {i : Instr} {s : State} {lat d ty : Nat} {qs} {op : VCtx → List Mem → Nat → Nat × Nat} (he : exec i s = .next (vMasked lat d ty qs op s)) :
    Flies i s lat { qs := qs, reads := maskReads s.cur.ch.mask, dst := some (vDst d) } fun vals =>
        [resultOf s (vDst d) (tySize ty) (tyCount ty) (maskT s.me s.cur.ch.mask (tyCount ty)) (op (vCtx s) vals)] := by
  unfold vMasked at he
  refine flies_of he fun vals q t hw => ?_
  rw [vResult_eq hw, popped_maskT hw, popped_ctx hw]


theorem maskResult_eq (lat md els : Nat) (v : List Nat) (t : State) : maskResult lat md els v 0 t = flyAll lat [maskOf md els v] t := rfl

theorem b2n_eq (b : Bool) : b2n b = if b then 1 else 0 := by cases b <;> rfl

theorem maskEl_le (t : Task) (m e : Nat) : maskEl t m e < 3 := by
  unfold maskEl; dsimp only
  split
  · omega
  · have : Sparse.rd 0 t.mask m / 4 ^ e % 4 < 4 := Nat.mod_lt _ (by omega)
    split <;> omega


end Sys2Proof.Machine
end

