-- ==== Sys2Proof/Laws/Works.lean ====
section
/-!
SUPPORT. Issue of M and A and of C's quick commands, and the small facts about dies, frames, failures and queues that the events use
(05_vertical_bus R91, 07_scratchpad R123, 13_matrix R240, 14_scatter R250, 17_node R312).
-/

namespace Sys2Proof.Machine

/-- A quick command of C (R123). -/
theorem quick_case {i : Instr} {s t : State} {rgn} {f : State → State} (he : exec i s = .next (quick rgn f t))
    (hw : Walks s.key s.cur.eng s t) (hck : CheckerIdle t) (hf : ∀ u : State, (f u).cur = u.cur) : Acts i s s fun t => doneToken (f t) := by
  unfold quick at he
  obtain ⟨t', he, hw', -⟩ := exec_declare he hck s.key s.cur.eng
  refine acts_of (f := fun t => doneToken (f t)) (t := t') ?_ (hw.trans hw') ?_
  · rw [he]; rfl
  · show (f t').cur = _
    rw [hf, hw'.cur, hw.cur]

/-- A quick command whose effect is written for any walked state. -/
theorem quick_case' {i : Instr} {s t : State} {rgn} {f g : State → State} (he : exec i s = .next (quick rgn f t))
    (hw : Walks s.key s.cur.eng s t) (hck : CheckerIdle t) (hg : ∀ u : State, (g u).cur = u.cur)
    (hf : ∀ u, Walks s.key s.cur.eng s u → u.myEng.cursor = t.myEng.cursor → f u = g u) : Acts i s s fun t => doneToken (g t) := by
  unfold quick at he
  obtain ⟨t', he, hw', htt⟩ := exec_declare he hck s.key s.cur.eng
  have : f t' = g t' := hf t' (hw.trans hw') (by unfold State.myEng State.eng State.task State.key; rw [htt, hw'.cur])
  refine acts_of (f := fun t => doneToken (g t)) (t := t') ?_ (hw.trans hw') ?_
  · rw [he, this]; rfl
  · show (g t').cur = _
    rw [hg, hw'.cur, hw.cur]

theorem countFails_nil (g : List Nat) (n : Nat) : countFails [] g [] n = [] := by
  unfold countFails
  induction g with
  | nil => rfl
  | cons a r ih => simpa [Sparse.wr, Sparse.del] using ih

theorem tkey_core {c b : Nat} (h : b < 2) : tkey c b / 2 = c := by unfold tkey; omega
theorem tkey_bank {c b : Nat} (h : b < 2) : tkey c b % 2 = b := by unfold tkey; omega

theorem zipIdx_map_range {α β : Type} (f : Nat → α) (g : α × Nat → β) (n : Nat) :
    (((List.range n).map f).zipIdx).map g = (List.range n).map fun i => g (f i, i) := by
  apply List.ext_getElem
  · simp
  · intro i h1 h2; simp

/-- Issue of M: one instruction at a time (R240). -/
theorem exec_m {i : Instr} {s : State} {body : State → State} (he : exec i s = .next (issueM body s)) (h : CanSend s) :
    (s.me.m.run.isSome = true → Moves i s s)
    ∧ (s.me.m.run = none → ∃ t, exec i s = .next (body t) ∧ Walks s.key s.cur.eng s t ∧ CheckerIdle t ∧ ∃ l, t.myEng = { s.myEng with latched := l }) := by
  obtain ⟨t, hex, hw, hck, hl⟩ := exec_token he h
  have hm : t.me.m = s.me.m := hw.me_field (fun x => x.m) fun _ => rfl
  refine ⟨fun hr => ?_, fun hr => ?_⟩
  · rw [if_pos (by rw [hm, hr])] at hex
    exact ⟨_, hex, waits_walks hw _⟩
  · rw [if_neg (by rw [hm, hr]; simp)] at hex
    exact ⟨t, hex, hw, hck, hl⟩

theorem Walks.reach {s t : State} (hw : Walks s.key s.cur.eng s t) (a n : Nat) : Machine.reach t a n = Machine.reach s a n := by
  have hb := hw.gangOf_bare s.key
  unfold Machine.reach
  simp only [hw.inShare, hw.cur, hw.key, hw.core]
  cases hs : s.gangOf s.key with
  | none => rw [hs] at hb; cases ht : t.gangOf s.key with
    | none => rfl
    | some g => rw [ht] at hb; simp at hb
  | some g => rw [hs] at hb; cases ht : t.gangOf s.key with
    | none => rw [ht] at hb; simp at hb
    | some g' =>
      rw [ht] at hb
      simp only [Option.map_some, Option.some.injEq] at hb
      dsimp only
      rw [show g'.tasks = g.tasks from (congrArg Gang.tasks hb :)]

/-- Issue of A: one instruction at a time (R250). -/
theorem exec_a {i : Instr} {s : State} {body : State → State} (he : exec i s = .next (issueA body s)) (h : CanSend s) :
    (s.me.a.ins.isSome = true → Moves i s s)
    ∧ (s.me.a.ins = none → ∃ t, exec i s = .next (body t) ∧ Walks s.key s.cur.eng s t ∧ CheckerIdle t) := by
  obtain ⟨t, hex, hw, hck, hl⟩ := exec_token he h
  have hm : t.me.a = s.me.a := hw.me_field (fun x => x.a) fun _ => rfl
  refine ⟨fun hr => ?_, fun hr => ?_⟩
  · rw [if_pos (by rw [hm, hr])] at hex
    exact ⟨_, hex, waits_walks hw _⟩
  · rw [if_neg (by rw [hm, hr]; simp)] at hex
    exact ⟨t, hex, hw, hck⟩

/-- A takes an instruction, with the window that a record has given it or with its first. -/
theorem begin_acts {i : Instr} {s t : State} {x : AIns} {r : RaceEnt} (he : exec i s = .next (beginA x r t)) (hw : Walks s.key s.cur.eng s t)
    (hck : CheckerIdle t) : Acts i s s fun t => (openToken t).modMe fun y =>
      let w := y.a.from_.getD 0
      { y with a := { y.a with ins := some { x with seq := (t.myEng.count + 1) % 2 ^ 32, pc := t.cur.pc, win := w
                                                    val := if x.op = 9 then 64 * w else x.val }
                               from_ := none } } := by
  unfold beginA at he
  obtain ⟨t2, he, hw2, -⟩ := exec_declareAs he hck s.key s.cur.eng
  have hw3 := hw.trans hw2
  refine ⟨t2, _, hw3, he, ?_⟩
  have hf : ∀ v : State, v.cur = s.cur → Walks s.key s.cur.eng v (waitFor .retry v) := by
    intro v hv
    have := waitFor_walks .retry v
    rwa [show v.key = s.key by simp [State.key, hv], hv] at this
  exact hf _ hw3.cur

/-- The read-modify-write that goes next is the first of its window, and of its core and unit. -/
theorem ready_split (l : List Rmw) (n : Nat) (h : l ≠ []) : ∃ a r b, l = a ++ r :: b ∧ (∀ y ∈ a, y.ins ≠ r.ins ∧ ¬ (y.core = r.core ∧ y.unit = r.unit)) ∧ readyRmw l n = some r := by
  unfold readyRmw
  set ok := l.zipIdx.filter fun x => !(l.take x.2).any fun y => y.ins == x.1.ins || (y.core == x.1.core && y.unit == x.1.unit) with hok
  have hne : ok ≠ [] := by
    obtain ⟨x, r, rfl⟩ := List.exists_cons_of_ne_nil h
    have : (x, 0) ∈ ok := by
      rw [hok, List.mem_filter]
      simp
    exact List.ne_nil_of_mem this
  have hlen : 0 < ok.length := List.length_pos_iff.2 hne
  have hlt : n % Nat.max 1 ok.length < ok.length := by
    have : Nat.max 1 ok.length = ok.length := Nat.max_eq_right hlen
    rw [this]; exact Nat.mod_lt _ hlen
  dsimp only
  rw [List.getD_eq_getElem _ _ hlt]
  have hm := List.getElem_mem hlt
  generalize ok[n % Nat.max 1 ok.length] = z at hm ⊢
  rw [hok, List.mem_filter] at hm
  obtain ⟨hm, hz⟩ := hm
  obtain ⟨i, hi, hzi⟩ := List.mem_iff_getElem.1 hm
  rw [List.getElem_zipIdx] at hzi
  subst hzi
  simp only [Nat.zero_add] at hz ⊢
  have hi' : i < l.length := by simpa using hi
  refine ⟨l.take i, l[i], l.drop (i + 1), ?_, ?_, rfl⟩
  · rw [← List.drop_eq_getElem_cons, List.take_append_drop]
  · intro y hy
    simp only [Bool.not_eq_true', List.any_eq_false, Bool.or_eq_true, Bool.and_eq_true, beq_iff_eq] at hz
    exact not_or.1 (hz y hy)

/-- A send without a bus fault (R90, R91). -/
theorem parity_clean {s : State} {pc : Nat} (h5 : (s.chan pc).busFaults = []) (h6 : (s.chan pc).fails = []) (d : Nat) (fo : Bool) :
    paritySend s pc d fo = (s.modChan pc fun c => { c with busFaults := [], fails := [] }, []) := by
  unfold paritySend
  dsimp only
  have hb : failing fo (halfOf s pc) d ((s.chan pc).busFaults.headD []) = [] := by rw [h5]; rfl
  rw [hb]
  have hm : ∀ g n, (s.modChan pc fun c => { c with busFaults := c.busFaults.drop 1, fails := countFails c.fails g [] n })
      = s.modChan pc fun c => { c with busFaults := [], fails := [] } := by
    intro g n
    unfold State.modChan
    dsimp only
    rw [h5, h6, countFails_nil]
    rfl
  simp only [List.map_nil]
  rw [hm]
  refine Prod.ext ?_ rfl
  unfold foldOrLose
  dsimp only
  rw [State.chan_modChan_same]
  rw [if_pos (by rfl)]

theorem counting_iff (x : Die) : counting x = true ↔ x.freeze = none ∧ x.pause = none := by
  unfold counting; simp [Option.isNone_iff_eq_none]

theorem modDie_modDie (s : State) (d : Nat) (f g : Die → Die) : (s.modDie d f).modDie d g = s.modDie d fun x => g (f x) := by
  unfold State.modDie State.setDie State.die
  simp [Sparse.wr_wr]

theorem modDie_congr {s : State} {d : Nat} {f g : Die → Die} (h : f (s.die d) = g (s.die d)) : s.modDie d f = s.modDie d g := by
  unfold State.modDie; rw [h]

theorem ctxDue_one {s : State} {d : Nat} {c : CtxCmd} (hct : mayStart s d = true) (hz : (s.die d).ctx = [c]) (hs : c.sent2 = none) :
    ctxDue s d = if c.plan.beat < (s.die d).beat ∨ (c.plan.beat = (s.die d).beat ∧ 2 * c.plan.off ≤ (s.die d).off2) then some c else none := by
  unfold ctxDue
  dsimp only
  rw [hct, hz]
  simp only [Bool.not_true, Bool.false_eq_true, if_false, List.find?_cons, List.find?_nil, hs, Option.isNone_none, Bool.true_and]
  by_cases h : c.plan.beat < (s.die d).beat ∨ (c.plan.beat = (s.die d).beat ∧ 2 * c.plan.off ≤ (s.die d).off2)
  · rw [if_pos h, show (decide (c.plan.beat < (s.die d).beat) || c.plan.beat == (s.die d).beat && decide (2 * c.plan.off ≤ (s.die d).off2)) = true by simpa using h]
  · rw [if_neg h, show (decide (c.plan.beat < (s.die d).beat) || c.plan.beat == (s.die d).beat && decide (2 * c.plan.off ≤ (s.die d).off2)) = false by
      rw [Bool.eq_false_iff]; intro hh; exact h (by simpa using hh)]

theorem inTiers_false {pa : Nat} (h1 : region pa ≠ .fast) (h2 : region pa ≠ .cap) : inTiers pa = false := by unfold inTiers; simp [h1, h2]
theorem inTiers_true {pa : Nat} (h : region pa = .fast ∨ region pa = .cap) : inTiers pa = true := by unfold inTiers; rcases h with h | h <;> simp [h]

theorem replay_off {s : State} (h : bitOf (s.reg regRlbase) 0 = false) (a b : Nat) (l : List Nat) : replay s a b l = s := by
  unfold replay
  dsimp only
  rw [h]; rfl

/-- No launch has failed inputs (R318). -/
theorem settleInputs_none {s : State} (h : ∀ x ∈ s.dist.launches, inputFailed s x = false) (n : Nat) : settleInputs n s = s := by
  cases n with
  | zero => rfl
  | succ n =>
    unfold settleInputs
    rw [List.find?_eq_none.2]
    intro x hx; rw [h x hx]; simp

theorem range16 (f : Nat → Nat) (n o : Nat) (m : Mem) (h : ∀ i, f i = m.rdN (o + 8 * i) 8) : Mem.getWords m o n = (List.range n).map f := by
  induction n generalizing o f with
  | zero => rfl
  | succ n ih =>
    rw [List.range_succ_eq_map, Mem.getWords, ih (fun i => f (i + 1)) (o + 8) (fun i => by rw [h]; congr 1; ring)]
    simp [h]

theorem Walks.rdcPlaces {s t : State} (hw : Walks s.key s.cur.eng s t) (w : List Nat) : Machine.rdcPlaces t w = Machine.rdcPlaces s w := by
  have h1 : t.me.tlb = s.me.tlb := hw.me_field (fun x => x.tlb) fun _ => rfl
  have h2 : windowOf t = windowOf s := by funext v; unfold windowOf; rw [h1]
  unfold Machine.rdcPlaces
  simp only [h1, h2]


end Sys2Proof.Machine
end

