-- ==== Sys2Proof/Tests/Slice0.lean ====
section
/-!
SUPPORT. Tests of the model: words of the encoding tables, ill-formed instructions, single steps with values worked out from the rules of
spec/, and for each statement states and operands that meet its hypotheses.
-/

namespace Sys2Proof.Tests

set_option Elab.async false

open Sys2Proof Sys2Proof.Machine

/-! ### Small states -/

/-- A task of a gang runs on core 1, with both shares whole, and engine e of it executes a word at the text page. -/
def base (e : Eng) (f : Task → Task) : State :=
  let s := placeText State.reset e false [0, 0]
  let s : State := { s with cur := { core := 1, eng := e, pc := fetchVa, size := 2 } }
  (s.modCore 1 fun c => { c with fsplit := 768, ssplit := 32 }).modTask 2 f

/-- S executes, with these general registers. -/
def sregs (l : List (Nat × Word)) : State := base .s fun t => { t with sreg := l }

/-- C executes, with these address registers. -/
def cregs (l : List (Nat × Word)) : State := base .c fun t => { t with creg := l }

/-- What f shows of the state that executing i leaves. -/
noncomputable def after {α : Type} (i : Instr) (s : State) (f : State → α) : Option α :=
  match exec i s with
  | .next t => some (f t)
  | _ => none

/-- The cause that stops the gang. -/
def causes (s : State) : List Nat := (s.dist.gangs.filter fun g => g.st != .attached).map fun g => g.cut.code

/-- The executing chain with a prefix field set. -/
def chain (f : Chain → Chain) (s : State) : State := { s with cur := { s.cur with ch := f s.cur.ch } }

/-- Engine e of the task is as f makes it. -/
def eng (e : Eng) (f : EngSt → EngSt) (s : State) : State := s.modEng 2 e f

/-! ### Words of the encoding tables (R43-R48) -/


-- SR: fn 1 of major 0
theorem test_decode_sub : decode .s [0b1000000111110000, 0b0100000000000001] = .ok {} (.sub 31 0 16) 2 := by decide +kernel
-- SR: fn 21 of major 0 (clz)
theorem test_decode_clz : decode .s [0b1000000001110100, 0b1000000000010101] = .ok {} (.clz 7 9) 2 := by decide +kernel
-- SI: major 1, an immediate with its sign bit set
theorem test_decode_addi : decode .s [0b1000001000100001, 0b1100000000000001] = .ok {} (.addi 2 3 0x4001) 2 := by decide +kernel
-- SI: major 8 (lih) uses d and imm
theorem test_decode_lih : decode .s [0b1001000001010000, 0b0111111111111111] = .ok {} (.lih 5 0x7FFF) 2 := by decide +kernel
-- SR: cmp fn 4 (ltn), its predicate in the low bits of d
theorem test_decode_cmpLtn : decode .s [0b1001001001100000, 0b1000100000000100] = .ok {} (.cmpLtn 6 1 2) 2 := by decide +kernel
-- SI: ld.n16 is major 18
theorem test_decode_ldN16 : decode .s [0b1010010001000000, 0b1000000000000110] = .ok {} (.ldN16 4 1 6) 2 := by decide +kernel
-- SI: st.64 is major 25
theorem test_decode_st64 : decode .s [0b1011001001000000, 0b1000000000001000] = .ok {} (.st64 4 1 8) 2 := by decide +kernel
-- SB: cond 2 is b.U
theorem test_decode_bU : decode .s [0b1011100011101111, 0b1111111111111110] = .ok {} (.bU 3 0xFFFFE) 2 := by decide +kernel
-- SB: cond 3 is b
theorem test_decode_b : decode .s [0b1011100000110000, 0b0000000000000101] = .ok {} (.b 5) 2 := by decide +kernel
-- SJ: jal
theorem test_decode_jal : decode .s [0b1011101000010000, 0b0000000000000100] = .ok {} (.jal 1 4) 2 := by decide +kernel
-- SR: jr
theorem test_decode_jr : decode .s [0b1011110000010001, 0b0000000000000000] = .ok {} (.jr 1 2) 2 := by decide +kernel
-- SR: post
theorem test_decode_post : decode .s [0b1110010010010100, 0b0001110000000000] = .ok {} (.post 9 8 7) 2 := by decide +kernel
-- SI: svc is major 55
theorem test_decode_svc : decode .s [0b1110111000000000, 0b0000000001001101] = .ok {} (.svc 77) 2 := by decide +kernel
-- CD: drd is major 5
theorem test_decode_drd : decode .c [0b1000101000100100, 0b1011111100000000] = .ok {} (.drd 9 2 63 0) 2 := by decide +kernel
-- CD: dref is major 7
theorem test_decode_dref : decode .c [0b1000111000000000, 0b1000000110000000] = .ok {} (.dref 2 1 1) 2 := by decide +kernel
-- CI: ia.add.f32 is major 13
theorem test_decode_iaAddF32 : decode .c [0b1001101001010011, 0b1111110010011011] = .ok {} (.iaAddF32 1 2 3 31 1 4 27) 2 := by decide +kernel
-- CX: cld is major 32
theorem test_decode_cld : decode .c [0b1100000000100100, 0b0110000000000000] = .ok {} (.cld 1 2 3) 2 := by decide +kernel
-- CX: fn 1 of cst is cst.bs
theorem test_decode_cstBs : decode .c [0b1100001000100100, 0b0110000000001000] = .ok {} (.cstBs 1 2 3) 2 := by decide +kernel
-- CX: ctx is major 45
theorem test_decode_ctx : decode .c [0b1101101000100100, 0b0110010011000000] = .ok {} (.ctx 1 2 3 9 1) 2 := by decide +kernel
-- CX: take is major 48
theorem test_decode_take : decode .c [0b1110000010100000, 0b0000000000000000] = .ok {} (.take 5) 2 := by decide +kernel
-- VA: vfma is major 3
theorem test_decode_vfma : decode .v [0b1000011110000001, 0b1001001010111000] = .ok {} (.vfma 771 1 0 2 1 3 1 0) 2 := by decide +kernel
-- VC: cond 2 is vcmp.lt
theorem test_decode_vcmpLt : decode .v [0b1010101000000010, 0b1001001010100100] = .ok {} (.vcmpLt 5 1 0 2 1 4) 2 := by decide +kernel
-- VM: fn 1 is mor
theorem test_decode_mor : decode .v [0b1010111000100100, 0b0110010000000000] = .ok {} (.mor 1 2 3) 2 := by decide +kernel
-- VI: viota is major 33
theorem test_decode_viota : decode .v [0b1100001000000011, 0b1100000000001010] = .ok {} (.viota 7 0x801 2) 2 := by decide +kernel
-- VP: vpf is major 36
theorem test_decode_vpf : decode .v [0b1100100101111111, 0b1111000000000000] = .ok {} (.vpf 767 7) 2 := by decide +kernel
-- VP: vtos is major 37, S register in 19:15
theorem test_decode_vtos : decode .v [0b1100101000000001, 0b1010000000000000] = .ok {} (.vtos 3 2) 2 := by decide +kernel
-- VJ: fn 2 of major 52 is jmid
theorem test_decode_jmid : decode .v [0b1110100000010001, 0b0000110010100000] = .ok {} (.jmid 1 2 3 1) 2 := by decide +kernel
-- VJ: fn 5 of major 55 is jcmp.dis, its mask in 23:20
theorem test_decode_jcmpDis : decode .v [0b1110111001000001, 0b0000110101000000] = .ok {} (.jcmpDis 4 2 3 0) 2 := by decide +kernel
-- VJ: fn 3 of major 59 is jdiv.bk
theorem test_decode_jdivBk : decode .v [0b1111011000010001, 0b0000110011000000] = .ok {} (.jdivBk 1 2 3 0) 2 := by decide +kernel
-- VJI: jsplat is major 60
theorem test_decode_jsplat : decode .v [0b1111100010010011, 0b1111100000000000] = .ok {} (.jsplat 9 0x3F80) 2 := by decide +kernel
-- MX: mzacc is major 1
theorem test_decode_mzacc : decode .m [0b1000001100000000, 0b0000000000000000] = .ok {} (.mzacc 1) 2 := by decide +kernel
-- MX: mret is major 2
theorem test_decode_mret : decode .m [0b1000010000000000, 0b0000000000000000] = .ok {} (.mret) 2 := by decide +kernel
-- AX: sa.addq is major 1
theorem test_decode_saAddq : decode .a [0b1000001000100100, 0b0110100001000000] = .ok {} (.saAddq 1 2 3 4 1) 2 := by decide +kernel
-- AX: sa.rd is major 9
theorem test_decode_saRd : decode .a [0b1001001000100100, 0b0000100000000000] = .ok {} (.saRd 1 2 4 0) 2 := by decide +kernel


-- R37: nop16 with an operand bit set; R44: fn 24 of the ALU group; R24: a word that the body cuts; R35: four prefixes and a fifth
theorem test_refuse_reserved : decode .s [0b0000000000000001] = .bad 0 1 := by decide +kernel
theorem test_refuse_unknown : decode .s [0b1000000000000000, 0b0000000000011000] = .bad 0 0 := by decide +kernel
theorem test_refuse_cut : decode .s [0b1000000000000000] = .cut := by decide +kernel
theorem test_refuse_chain : decode .c [0x2800, 0x2800, 0x8000, 0] = .bad 1 0 := by decide +kernel
-- R42, R102: an imx does not belong to dopen, a gap does
theorem test_refuse_prefix : decode .c [0x2001, 0x8000, 0] = .bad 1 0 := by decide +kernel
theorem test_prefix_gap : decode .c [0x2803, 0x8000, 0x0100] = .ok { gap := some 3 } (.dopen 0 0 1 0) 3 := by decide +kernel

/-! ### Ill-formed instructions -/

theorem test_illformed_fields :
    ([.bw 2048, .mov16 32 0, .addi16 0 64, .add 32 0 0, .add 0 32 0, .add 0 0 32, .addi 0 0 32768, .slli 0 0 64, .cmpEq 8 0 0,
      .sel 0 0 0 8, .pand 0 8 0, .popv 0 0 32, .bT 0 1048576, .fence 0 32, .ezw 0 2 0, .ezw 0 0 16, .csrr 0 4096, .dopen 128 0 0 0,
      .dopen 0 16 0 0, .dopen 0 0 64 0, .dopen 0 0 0 2, .iaAddF32 8 0 0 0 0 0 0, .cld 16 0 0, .cpat 0 8, .vadd 0 8 0 0 0 0,
      .vadd 0 0 2 0 0 0, .vadd 0 0 0 0 0 8, .mand 16 0 0, .vrot 0 0 0 256 0, .viota 0 4096 0, .jadd 32 0 0 0, .jadd 0 0 0 2,
      .jsplat 0 65536, .mtile 2, .saAdd 16 0 0 0, .saScl 0 16] : List Instr).all (fun i => !wellFormed i) = true := by decide +kernel

theorem test_illformed_values :
    ([.pwr 0 3, .csrr 0 9, .pset 0 3, .ldAcq 0 0 5, .stRel 0 0 5, .fence 5 0, .gbar 0, .gbar 5, .repn 5 0, .cgat 0 0 0 4, .csct 0 0 0 4,
      .cfq 8 0 0 0, .cdq 0 4 0, .iaZero 0 0 0 31 1, .iaWldF32 2 0 0 0 0 0, .iaWstF32 0 2 0 0 0 0, .vadd 772 0 0 0 0 0,
      .vfma 0 0 0 0 0 0 0 2, .vshl 0 0 0 0 0 1, .vrcp 0 0 0 2, .vdiv 0 0 0 0 0 2, .vcvt 0 0 0 1 0 1, .vcvt 0 0 0 0 2 1,
      .vqnt 0 0 0 4 0, .vdeq 0 0 0 0 2, .vperm 0 0 0 0 0 1 0 0, .vpf 768 0, .jlo 24 0 4 0, .jst 24 0 4 0, .jaddBk 1 1 2 0,
      .jaddBk 1 2 2 0, .jsqrBk 1 1 0, .saAdd 0 0 0 6, .saAddq 0 0 0 0 2, .saOr 0 0 0 1, .saCnt 0 0 1, .saRd 0 0 0 2,
      .blockHeader 5 0 1 1, .blockHeader 0 0 0 1] : List Instr).all (fun i => !wellFormed i) = true := by decide +kernel

theorem test_illformed_places :
    ([.repnPop 768 0 0, .repnPop 0 2 0, .repnPop 0 0 5, .sLoadReturn 768 0, .waittWake 0 2] : List Instr).all (fun i => !wellFormed i) = true := by
  decide +kernel


/-! ### Single steps, with values from the rules -/

-- R261: the ALU wraps; mulh is the high half of the signed product; division truncates and has values for a divisor of 0
theorem test_add_wraps : after (.add 3 1 2) (sregs [(1, 0xFFFFFFFFFFFFFFFF#64), (2, 1)]) (sv · 3) = some 0 := by decide +kernel
theorem test_sub_same : after (.sub 1 1 1) (sregs [(1, 5)]) (sv · 1) = some 0 := by decide +kernel
theorem test_add_zero_register : after (.add 0 1 1) (sregs [(1, 5)]) (sv · 0) = some 0 := by decide +kernel
theorem test_mulh : after (.mulh 3 1 1) (sregs [(1, 0xFFFFFFFFFFFFFFFF#64)]) (sv · 3) = some 0 := by decide +kernel
theorem test_mulhn : after (.mulhn 3 1 1) (sregs [(1, 0xFFFFFFFFFFFFFFFF#64)]) (sv · 3) = some 0xFFFFFFFFFFFFFFFE#64 := by decide +kernel
theorem test_div_trunc : after (.div 3 1 2) (sregs [(1, -7), (2, 2)]) (sv · 3) = some (-3) := by decide +kernel
theorem test_div_zero : after (.div 3 1 2) (sregs [(1, 7)]) (sv · 3) = some (-1) := by decide +kernel
theorem test_rem_sign : after (.rem 3 1 2) (sregs [(1, -7), (2, 2)]) (sv · 3) = some (-1) := by decide +kernel
theorem test_remn_zero : after (.remn 3 1 2) (sregs [(1, 7)]) (sv · 3) = some 7 := by decide +kernel
theorem test_sll_mod : after (.sll 3 1 2) (sregs [(1, 1), (2, 65)]) (sv · 3) = some 2 := by decide +kernel
theorem test_sra : after (.sra 3 1 2) (sregs [(1, -8), (2, 1)]) (sv · 3) = some (-4) := by decide +kernel
theorem test_rotl : after (.rotl 3 1 2) (sregs [(1, 0x8000000000000001#64), (2, 1)]) (sv · 3) = some 3 := by decide +kernel
theorem test_min_signed : after (.min 3 1 2) (sregs [(1, -1), (2, 1)]) (sv · 3) = some (-1) := by decide +kernel
theorem test_minn : after (.minn 3 1 2) (sregs [(1, -1), (2, 1)]) (sv · 3) = some 1 := by decide +kernel
theorem test_clz : after (.clz 3 1) (sregs []) (sv · 3) = some 64 := by decide +kernel
theorem test_ctz : after (.ctz 3 1) (sregs [(1, 8)]) (sv · 3) = some 3 := by decide +kernel
theorem test_popc : after (.popc 3 1) (sregs [(1, 0xF00F)]) (sv · 3) = some 8 := by decide +kernel
-- R262, R37: the immediate is sign-extended from its top bit, an imx above it; lih shifts in 15 or 26 bits
theorem test_addi_sign : after (.addi 3 1 0x7FFF) (sregs [(1, 1)]) (sv · 3) = some 0 := by decide +kernel
theorem test_ori_imx : after (.ori 3 1 1) (chain (fun c => { c with imx := some 1 }) (sregs [])) (sv · 3) = some 0x8001 := by decide +kernel
theorem test_lih : after (.lih 3 0x7FFF) (sregs [(3, 1)]) (sv · 3) = some 0xFFFF := by decide +kernel
-- R263-R266: predicates hold 0 F, 1 T, 2 U
theorem test_cmp_signed : after (.cmpLt 1 1 2) (sregs [(1, -1), (2, 1)]) (pv · 1) = some 1 := by decide +kernel
theorem test_cmp_unsigned : after (.cmpLtn 1 1 2) (sregs [(1, -1), (2, 1)]) (pv · 1) = some 0 := by decide +kernel
theorem test_pand_unknown : after (.pand 3 1 2) (base .s fun t => { t with pred := [(1, 2), (2, 1)] }) (pv · 3) = some 2 := by decide +kernel
theorem test_pand_false : after (.pand 3 1 2) (base .s fun t => { t with pred := [(1, 2)] }) (pv · 3) = some 0 := by decide +kernel
theorem test_por_unknown : after (.por 3 1 2) (base .s fun t => { t with pred := [(1, 2), (2, 1)] }) (pv · 3) = some 1 := by decide +kernel
theorem test_pknow : after (.pknow 3 1) (base .s fun t => { t with pred := [(1, 2)] }) (pv · 3) = some 0 := by decide +kernel
theorem test_popv : after (.popv 3 1 1) (sregs [(1, 0xC)]) (pv · 3) = some 2 := by decide +kernel
-- R286, R34: a WIN of 0 is refused; R287: an unwritable register
theorem test_csrw_win : after (.csrw 1 0x010) (sregs [(1, 64)]) (fun t => t.me.csr.win) = some 64 := by decide +kernel
theorem test_csrw_win_zero : after (.csrw 1 0x010) (sregs []) causes = some [1] := by decide +kernel
theorem test_csrw_readonly : after (.csrw 1 0x000) (sregs []) causes = some [2] := by decide +kernel
-- R270, R271: a taken branch leaves with a record of kind 1 and the target counts halfwords from the word
theorem test_branch_taken : after (.bT 0 3) (sregs []) (fun t => t.me.recs.map fun r => (r.kind, r.target)) = some [(1, 0x10006)] := by
  decide +kernel
theorem test_branch_back : after (.b 0xFFFFF) (sregs []) (fun t => t.me.recs.map fun r => r.target) = some [0xFFFE] := by decide +kernel
theorem test_branch_not_taken : after (.bU 0 3) (eng .s (fun x => { x with len := 4 }) (sregs [])) (fun t => (t.me.recs, t.myEng.pc)) = some ([], 0x10004) := by
  decide +kernel
theorem test_jal_link : after (.jal 1 5) (sregs []) (sv · 1) = some 0x10004 := by decide +kernel
-- R289, R340: a system call stops its gang with code 20
theorem test_svc : after (.svc 9) (sregs []) causes = some [20] := by decide +kernel
theorem test_brk : after (.brk 9) (sregs []) (fun t => t.dist.gangs.map fun g => (g.cut.code, g.cut.imm)) = some [(21, 9)] := by decide +kernel
-- R267: an address that is not naturally aligned raises code 5
theorem test_ld_misaligned : after (.ldI64 2 1 4) (sregs [(1, 0x10000)]) causes = some [5] := by decide +kernel
theorem test_st_misaligned : after (.st16 2 1 1) (sregs [(1, 0x10000)]) causes = some [5] := by decide +kernel
-- R280: hand C appends to the hand queue; R279: a count above 16 bits is refused
theorem test_hand : after (.handC 1) (sregs [(1, 7)]) (fun t => t.me.hq) = some [7] := by decide +kernel
theorem test_repn : after (.repn 1 1) (sregs [(1, 0x10000)]) causes = some [1] := by decide +kernel
-- R111: caddShl takes its shift modulo 64; R122: an address that is not 32-aligned raises code 29
theorem test_cadd_shl : after (.caddShl 3 1 2) (cregs [(1, 1), (2, 66)]) (cv · 3) = some 4 := by decide +kernel
theorem test_cld_misaligned : after (.cld 1 2 0) (cregs [(1, 16)]) causes = some [29] := by decide +kernel
theorem test_dopen_misaligned : after (.dopen 0 1 0 0) (cregs [(1, 32)]) causes = some [29] := by decide +kernel
theorem test_dref_range : after (.dref 1 0 0) (cregs [(1, 8192)]) causes = some [25] := by decide +kernel
-- R194: 1.0 + 2.0 lands 3 cycles after it issues; R195: i8 addition wraps, and clamps with sat
def one (e : Eng) (m : Nat) (f : Task → Task) : State := chain (fun c => { c with mask := m }) (base e fun t => f { t with mask := [(1, 1)] })
theorem test_vadd : after (.vadd 3 0 0 1 0 0) (one .v 1 fun t => { t with opq := [(0, [Mem.ofElems 4 1 fun _ => 0x3F800000]), (1, [Mem.ofElems 4 1 fun _ => 0x40000000])] })
    (fun t => t.me.v.flights.map fun f => (f.due, f.data.rdN 0 4)) = some [(4, 0x40400000)] := by decide +kernel
theorem test_vadd_wrap : after (.vadd 3 0 0 1 0 6) (one .v 1 fun t => { t with opq := [(0, [Mem.ofElems 1 1 fun _ => 127]), (1, [Mem.ofElems 1 1 fun _ => 1])] })
    (fun t => t.me.v.flights.map fun f => f.data.rdN 0 1) = some [128] := by decide +kernel
theorem test_vadd_sat : after (.vadd 3 0 0 1 0 6) (chain (fun c => { c with sat := true }) (one .v 1 fun t => { t with opq := [(0, [Mem.ofElems 1 1 fun _ => 127]), (1, [Mem.ofElems 1 1 fun _ => 1])] }))
    (fun t => t.me.v.flights.map fun f => f.data.rdN 0 1) = some [127] := by decide +kernel
-- R160: reading an empty queue raises code 51 outside interlock, and waits inside it
theorem test_queue_empty : after (.vmov 3 0 0 0) (eng .c (fun x => { x with phase := .header }) (one .v 1 id)) causes = some [] := by decide +kernel
theorem test_queue_exposed : after (.vmov 3 0 0 0) (eng .v (fun x => { x with inter := false }) (one .v 1 id)) causes = some [51] := by decide +kernel
-- R216: [1, 2] + [3, 4] = [4, 6] in bf16 lanes
theorem test_jadd : after (.jadd 1 2 3 1) (one .v 1 fun t => { t with jreg := (((Mem.wrN [] 4096 2 0x3F80).wrN 4098 2 0x4000).wrN 6144 2 0x4040).wrN 6146 2 0x4080 })
    (fun t => t.me.v.flights.map fun f => f.data.rdN 0 4) = some [0x40C04080] := by decide +kernel
-- R243: mzacc clears a bank; R235: an mtile without a format word raises code 113
theorem test_mzacc : after (.mzacc 1) (State.modCore (base .m id) 1 fun c => { c with acc := [(0, 2#8), (32768, 1#8)] }) (fun t => t.myCore.acc) = some [(0, 2#8)] := by
  decide +kernel
theorem test_mtile_empty : after (.mtile 0) (base .m id) causes = some [113] := by decide +kernel
-- R254: sa.scl takes a value that 8 signed bits hold; R249: a list of 0 elements raises code 121
theorem test_sa_scl : after (.saScl 1 2) (base .a fun t => { t with areg := [(1, -3)] }) (fun t => Sparse.rd 0 t.me.sf 2) = some 253 := by decide +kernel
theorem test_sa_add_empty : after (.saAdd 1 2 3 0) (base .a id) causes = some [121] := by decide +kernel
-- R25, R28: a header of another engine's block is skipped with its body
theorem test_header_skip : after (.blockHeader 1 0 5 1) (eng .s (fun x => { x with phase := .header }) (sregs []))
    (fun t => (t.myEng.pc, t.myEng.serial)) = some (0x1000E, 1) := by decide +kernel
-- R70: a plan switch request with a bad entry count is rejected
theorem test_planact_bad : after (.planactWrite 0) State.reset (fun t => slice (t.reg regPlanact) 32 2) = some 2 := by decide +kernel
-- R364: a hole of the address map behind BAR2 is no address
theorem test_bar_hole : (match exec (.hostBarAccess 0 2 0 8 false 0) (State.reset.setReg regBwin 0x030000000000) with
    | .fault f => f == .noSuchAddress 0x030000000000
    | _ => false) = true := by decide +kernel
-- a step fetches the word that stands at the program counter, and runs it: addi 3 0 5
theorem test_step : (match step (State.reset.withFetchWord 32 0b10000010001100000000000000000101) with
    | .next t => some (sv { t with cur := { t.cur with core := 1, bank := 0 } } 3)
    | _ => none) = some 5 := by decide +kernel


/-! ### States and operands that meet the hypotheses of each statement -/

theorem canIssue_of {s : State} (h1 : s.myEng.latched = none) (h2 : s.cur.ch.waits = []) : CanIssue s := by
  refine ⟨[], ?_, rfl⟩
  unfold issueValues
  rw [h1, h2]
  simp

/-- The cap-tier leaf of the text page. -/
def leaf : Leaf := { va := fetchVa, pa := fetchPa, r := true, w := true, x := true, node := 8 }

theorem sound_of {s : State} {pa n : Nat} (h : s.cellFaults = []) (h1 : (region pa == .cap || region pa == .fast) = true)
    (h2 : region (pa + n - 1) = region pa) (h3 : ∀ i < n, isLost s (chanOf (pa + i)) = false) : s.Sound pa n :=
  ⟨by simpa using h1, h2, fun i hi => ⟨h3 i hi, fun f hf => by rw [h] at hf; cases hf⟩⟩

theorem checker_of {s : State} (h : ∀ g ∈ s.dist.gangs, g.det = false) : CheckerIdle s := by
  intro g hg hd
  unfold State.gangOf at hg
  split at hg
  · cases hg
  · rw [h g (List.mem_of_find?_eq_some hg)] at hd; cases hd

theorem canSend_of {s : State} (h1 : s.myEng.latched = none) (h2 : s.cur.ch.waits = []) (h3 : s.myEng.opn.length < tokenLimit) (h4 : cBusy s = false)
    (h5 : ∀ g ∈ s.dist.gangs, g.det = false) : CanSend s := ⟨canIssue_of h1 h2, h3, h4, checker_of h5⟩

-- ScalarAlu, ScalarReads, ControlRegisterWrites, the calls of TaskExit: an instruction that waits for nothing
theorem witness_issue : CanIssue (sregs []) := canIssue_of rfl rfl
-- and one that waits for a token that has completed
theorem witness_issue_token : CanIssue (chain (fun c => { c with waits := [3] }) (eng .s (fun x => { x with latched := some [BitVec.ofNat 64 (2 ^ 35 + 2 ^ 32 + 1)] }) (sregs []))) :=
  ⟨_, rfl, by decide +kernel⟩
-- ScalarImmediates, ScalarCompares: the largest immediate, without imx and with the largest
theorem witness_immediates : CanIssue (sregs []) ∧ 2 ^ 15 - 1 < 2 ^ 15 ∧ (sregs []).cur.ch.imx = none := ⟨canIssue_of rfl rfl, by omega, rfl⟩
theorem witness_immediates_imx : CanIssue (chain (fun c => { c with imx := some 2047 }) (sregs [])) ∧ 2047 < 2 ^ 11 := ⟨canIssue_of rfl rfl, by omega⟩
-- ScalarPredicates: one operand T, the other U
theorem witness_predicates : let s := base .s fun t => { t with pred := [(1, 2)] }
    CanIssue s ∧ pv s 0 = 1 ∧ pv s 1 = 2 ∧ pv s 0 < 3 ∧ pv s 1 < 3 := ⟨canIssue_of rfl rfl, by decide +kernel⟩
-- Branches: each condition met and not met, with room for the record
theorem witness_branches : let s := base .s fun t => { t with pred := [(1, 2)] }
    CanIssue s ∧ s.cur.eng = .s ∧ pv s 0 = 1 ∧ pv s 1 = 2 ∧ pv s 2 = 0 ∧ s.me.recs.length < s.me.csr.win := ⟨canIssue_of rfl rfl, rfl, by decide +kernel⟩
-- and one that is the last of its block, in a pass that is not the last and in the last
theorem witness_branches_last : ∀ n ∈ [1, 2], let s := eng .s (fun x => { x with body := 0x10000, len := 2, passes := n }) (sregs [])
    s.cur.pc + 2 * s.cur.size = s.myEng.body + 2 * s.myEng.len ∧ s.myEng.passes = n ∧ s.me.recs.length < s.me.csr.win := by decide +kernel
-- Translates: a page that the TLB has not, one that is misplaced, one that allows neither access, one that allows both
def mapped (l : Leaf) : State := base .s fun t => { t with sreg := [(1, 0x10000)], tlb := { t.tlb with cond := [l] } }
theorem witness_translates : lookup (mapped leaf).me.tlb.cond 0x20000 = none ∧ lookup (mapped leaf).me.tlb.cond 0x10000 = some (leaf, [leaf])
    ∧ placed (mapped { leaf with pa := 0, cc := true }) { leaf with pa := 0, cc := true } 0x10000 = false ∧ placed (mapped leaf) leaf 0x10000 = true
    ∧ (∀ acc < 3, ({ leaf with r := false, w := false, x := false } : Leaf).allows acc = false ∧ leaf.allows acc = true) := by decide +kernel
-- NeedsBytes: the bytes are there, are of another length, are not there; with a load under way and with none
def needing (f : SUnit → SUnit) : State := base .s fun t => { t with sreg := [(1, 0x10000)], s := f t.s }
theorem witness_needs : (∀ n ∈ [8, 64], (needing fun u => { u with got := some (0x10000, List.replicate n 0) }).me.s.got = some (0x10000, List.replicate n 0)
      ∧ (List.replicate n (0 : Byte)).length = n)
    ∧ (needing id).me.s.got = none ∧ (needing id).me.s.load = none ∧ (needing fun u => { u with load := some {} }).me.s.load.isSome = true := by decide +kernel
/-- Node device 1 is reached by port 1, and device 2 by none; core 1 executes on S. -/
def routed : State := { (base .s id) with dist := { (base .s id).dist with config := [0, 2, 0] } }
  |>.setReg regRoutebase 0x010000000000 |> fun s => { s with mem := s.mem.wrN 0x010000000000 8 0x8100 }
def peerPa (id : Nat) : Nat := 2 ^ 51 + id * 2 ^ 32 + 0x40
-- Asks: a piece of the tiers, of the host window, of a peer that is reached, of one that is not
theorem witness_asks : region fetchPa ≠ .host ∧ region fetchPa ≠ .peer ∧ region 0x100000000040 = .host ∧ region (peerPa 1) = .peer ∧ region (peerPa 2) = .peer
    ∧ (sendFrame routed (peerPa 1) 8 false []).2 = true ∧ (sendFrame routed (peerPa 2) 8 false []).2 = false := by decide +kernel
-- SwitchPoint: a table that is not 8-aligned, and one that the text page holds
theorem witness_switch_misaligned : CanIssue (sregs [(1, 1)]) ∧ (sv (sregs [(1, 1)]) 1).toNat % 2 ^ 56 % 8 ≠ 0 := ⟨canIssue_of rfl rfl, by decide +kernel⟩
theorem witness_switch : ∃ u, let s := sregs [(1, 0x10000)]
    CanIssue s ∧ s.cur.eng = .s ∧ (sv s 1).toNat % 2 ^ 56 % 8 = 0 ∧ s.me.s.stores = [] ∧ Hits s 0x10000 0 leaf u ∧ s.Sound (leaf.phys 0x10000) 8 :=
  ⟨_, canIssue_of rfl rfl, rfl, by decide +kernel, rfl, ⟨_, rfl, by decide +kernel, rfl, rfl⟩, sound_of rfl (by decide +kernel) (by decide +kernel) (by decide +kernel)⟩
-- TaskExit: s0; a descriptor that is not 64-aligned; one that is, of zeros, which is not well formed; and a well-formed one
theorem witness_exit_misaligned : (1 : Nat) ≠ 0 ∧ (sv (sregs [(1, 32)]) 1).toNat % 2 ^ 56 % 64 ≠ 0 := by decide +kernel
theorem witness_exit : ∃ u, let s := sregs [(1, 0x10000)]
    CanIssue s ∧ (1 : Nat) ≠ 0 ∧ (sv s 1).toNat % 2 ^ 56 % 64 = 0 ∧ s.me.s.stores = [] ∧ Hits s 0x10000 0 leaf u ∧ s.Sound (leaf.phys 0x10000) 64 :=
  ⟨_, canIssue_of rfl rfl, by omega, by decide +kernel, rfl, ⟨_, rfl, by decide +kernel, rfl, rfl⟩, sound_of rfl (by decide +kernel) (by decide +kernel) (by decide +kernel)⟩
-- a well-formed descriptor, and one that names s0 as no task does
theorem witness_exit_descriptor : let w (bs : List Byte) (i : Nat) : Nat := (bytesToWords 8 bs).getD i 0
    let ws (a b : Nat) := (([a, 0, b, 0, 0, 0, 0, 0] : List Nat).flatMap (natToBytes 8))
    (∀ b ∈ [0, 17, 2 ^ 20], w (ws 0x10001 b) 0 % 2 = 1 ∧ w (ws 0x10000 b) 0 % 2 = 0 ∧ w (ws 0x10000 b) 0 < 2 ^ 56 ∧ w (ws 0x10000 b) 2 < 2 ^ 21 ∧ w (ws 0x10000 b) 2 % 16 < 2)
    ∧ (∀ i < 8, 3 ≤ i → w (ws 0x10000 17) i = 0) := by decide +kernel
-- FeedsOfS: a value of 2^16 and one below, a queue of three counts and of four, C before its record, the registers 15 and 16 of A
theorem witness_feeds : CanIssue (sregs [(1, 0x10000), (2, 0xFFFF)]) ∧ Eng.ofTag 1 = some .c ∧ 2 ^ 16 ≤ (sv (sregs [(1, 0x10000), (2, 0xFFFF)]) 1).toNat
    ∧ (sv (sregs [(1, 0x10000), (2, 0xFFFF)]) 2).toNat < 2 ^ 16 ∧ (sregs []).me.hq.length < 8 := ⟨canIssue_of rfl rfl, by decide +kernel⟩
def fed (p : Phase) : State := eng .c (fun x => { x with phase := p }) (base .s fun t => { t with sreg := [(2, 0xFFFF)], repn := [(1, [1, 2, 3, 4])], hq := [1, 2, 3, 4, 5, 6, 7, 8] })
theorem witness_feeds_full : (sv (fed .path) 2).toNat < 2 ^ 16 ∧ 4 ≤ (Sparse.rd [] (fed .path).me.repn 1).length ∧ (fed .path).cur.eng = .s
    ∧ ((fed .path).eng 2 .c).phase = .path ∧ ((fed .path).eng 2 .c).serial = ((fed .path).eng 2 .s).serial ∧ 8 ≤ (fed .path).me.hq.length
    ∧ ((fed .body).eng 2 .c).phase ≠ .path ∧ 4 ≤ (Sparse.rd [] (fed .body).me.repn 1).length ∧ 8 ≤ (fed .body).me.hq.length := by decide +kernel
-- BlockHeaders: another engine's block, its own with a count, its own without
theorem witness_headers : (sregs []).cur.eng = .s ∧ 1 ≠ Eng.s.tag ∧ 0 = Eng.s.tag ∧ 1 ≠ 0 := by decide +kernel
-- CountsPopped: a count, a count of 0, an empty queue that S can and can not fill
theorem witness_counts : let s := eng .c (fun x => { x with phase := .count }) (base .c fun t => { t with repn := [(1, [0, 5])] })
    let z := eng .s (fun x => { x with phase := .header }) (eng .c (fun x => { x with phase := .count }) (base .c id))
    (s.eng 2 .c).phase = .count ∧ (s.eng 2 .c).stopped = false ∧ Sparse.rd [] (s.task 2).repn 1 = [0, 5] ∧ Eng.c ≠ Eng.s
    ∧ Sparse.rd [] (z.task 2).repn 1 = [] ∧ stalledFor z 2 .c = false := by decide +kernel
theorem witness_counts_stuck : let z := eng .s (fun x => { x with phase := .idle }) (eng .c (fun x => { x with phase := .count, serial := 0 }) (base .c id))
    (z.eng 2 .c).phase = .count ∧ Sparse.rd [] (z.task 2).repn 1 = [] ∧ stalledFor z 2 .c = true := by decide +kernel
-- nothing prompts another move; an engine that starves, alone; S in each stall that ends a wait for counts, and in none
theorem witness_starved : let z := eng .s (fun x => { x with phase := .idle }) (eng .c (fun x => { x with phase := .count, serial := 0 }) (base .c id))
    let w (x : Wait) := eng .s (fun y => { y with phase := .body, wait := x }) z
    prompted z 2 = [] ∧ starved z 2 .c = true ∧ (∀ e ∈ [Eng.s, .v, .m, .a], starved z 2 e = false)
    ∧ (∀ e ∈ [Eng.s, .c, .v, .m, .a], starved (base .s id) 2 e = false)
    ∧ stalledFor (w (.fence 2 2)) 2 .c = true ∧ stalledFor (w (.fence 2 4)) 2 .c = false ∧ stalledFor (w (.gbar 2 true)) 2 .c = true
    ∧ stalledFor (w .load) 2 .c = false := by
  decide +kernel
-- RecordsTaken: an end record, a taken record, no record
theorem witness_records : let s := fun (l : List PathRec) => eng .c (fun x => { x with phase := .path }) (base .c fun t => { t with recs := l })
    ((s []).eng 2 .c).phase = .path ∧ ((s []).eng 2 .c).stopped = false ∧ Eng.c ≠ Eng.s
    ∧ (s [{ kind := 2 }]).me.recs[pathIndex (s [{ kind := 2 }]).me ((s [{ kind := 2 }]).eng 2 .c)]? = some { kind := 2 }
    ∧ (s [{ kind := 1 }]).me.recs[pathIndex (s [{ kind := 1 }]).me ((s [{ kind := 1 }]).eng 2 .c)]? = some { kind := 1 }
    ∧ (s []).me.recs[pathIndex (s []).me ((s []).eng 2 .c)]? = none := by decide +kernel
-- C in a scratchpad command takes none
theorem witness_records_busy : let s := eng .c (fun x => { x with phase := .path }) (base .c fun t => { t with c := { t.c with spc := some {} } })
    (s.eng 2 .c).phase = .path ∧ (s.eng 2 .c).stopped = false ∧ (s.task 2).c.spc.isSome = true := by decide +kernel
-- BeatWaits: the beat that is open, and the next
theorem witness_beats : let s := sregs []
    s.me.csr.tbb < 2 ^ 48 ∧ s.cur.eng ≠ .v ∧ (s.myEng.cursor + 0 + s.me.csr.tbb) % 2 ^ 48 ≤ (s.die 0).beat
    ∧ (s.die 0).beat < (s.myEng.cursor + 1 + s.me.csr.tbb) % 2 ^ 48
    ∧ ((eng .c (fun x => { x with wait := .beat 0 }) s).eng 2 .c).wait = .beat 0 ∧ ((eng .c (fun x => { x with wait := .beat 0 }) s).eng 2 .c).stopped = false
    ∧ 0 ≤ (s.die (2 / 2 / 96)).beat := by decide +kernel
-- V and C observe, at a boundary outside a window; inside one, before the beat, and stopped, neither does
def windowed (s : State) : State := s.modDie 0 fun d => { d with power := { d.power with window := some (7, 2) } }
theorem witness_beats_wake : ∀ e ∈ [Eng.s, .c, .v], let s (b : Nat) (stop : Bool) := eng e (fun x => { x with wait := .beat b, stopped := stop }) (base e id)
    (((s 0 false).eng 2 e).wait = .beat 0 ∧ 0 ≤ ((s 0 false).die 0).beat ∧ ((s 0 false).eng 2 e).stopped = false ∧ ((s 0 false).die 0).power.window = none)
    ∧ ((s 1 false).die 0).beat < 1 ∧ ((s 0 true).eng 2 e).stopped = true ∧ ((windowed (s 0 false)).die 0).power.window ≠ none := by decide +kernel
-- the beat nearest the open one, at both ends of the 48 bits
theorem witness_beats_near : beatAt 0 (2 ^ 48 - 1) = 2 ^ 48 - 1 ∧ beatAt (2 ^ 48) (2 ^ 48 - 1) = 2 ^ 48 - 1 ∧ beatAt (2 ^ 48 - 1) 1 = 2 ^ 48 + 1
    ∧ 2 ^ 48 - 1 < 2 ^ 48 := by
  decide +kernel
-- AlignmentRequests: beat 1 from offset 0, 127 ticks before its boundary, and with 15 and 16 requests pending
def aligns (n : Nat) : State := { sregs [(1, 1), (2, 20)] with grid := { aligns := (List.range n).map (· + 1) } }
theorem witness_align : CanIssue (aligns 1) ∧ ((sv (aligns 1) 1 + immS (aligns 1) 0).toNat + 0) % 2 ^ 48 = 1 ∧ ((aligns 1).now 0).beat < 1
    ∧ 128 ≤ (aligns 1).delta ((aligns 1).now 0) ⟨1, 0⟩ ∧ 1 ∈ (aligns 1).grid.aligns ∧ 20 ∉ (aligns 15).grid.aligns
    ∧ (aligns 15).grid.aligns.countP (fun x => decide (0 < x)) < 16 ∧ 20 ∉ (aligns 16).grid.aligns ∧ 16 ≤ (aligns 16).grid.aligns.countP (fun x => decide (0 < x)) :=
  ⟨canIssue_of rfl rfl, by decide +kernel⟩
theorem witness_align_late : let s := (sregs [(1, 1)]).modDie 0 fun d => { d with off2 := 2 * (1024 - 127) }
    CanIssue s ∧ s.delta (s.now 0) ⟨1, 0⟩ < 128 := ⟨canIssue_of rfl rfl, by decide +kernel⟩
-- and the waits: node time at the operand and one before it; a wait for the present node time
theorem witness_time : let s := (sregs [(1, 5), (2, 6)]).modDie 0 fun d => { d with ntime := 5 }
    CanIssue s ∧ (sv s 1).toNat ≤ (s.die 0).ntime ∧ (s.die 0).ntime < (sv s 2).toNat
    ∧ ((eng .s (fun x => { x with wait := .waitt 5 }) s).eng 2 .s).wait = .waitt 5
    ∧ (5 : Word).toNat ≤ (s.die (2 / 2 / 96)).ntime := ⟨canIssue_of rfl rfl, by decide +kernel⟩
-- Fences: nothing under way, and a store under way
theorem witness_fence : CanIssue (sregs []) ∧ FenceFinished (sregs []) 2 1 ∧ ¬ FenceFinished (base .s fun t => { t with s := { t.s with stores := [{}] } }) 2 1
    ∧ ((eng .s (fun x => { x with wait := .fence 2 1 }) (sregs [])).eng 2 .s).wait = .fence 2 1 := by
  refine ⟨canIssue_of rfl rfl, ⟨fun _ => rfl, fun h => ?_, fun e he h => ?_⟩, fun h => ?_, rfl⟩
  · exact absurd h (by decide +kernel)
  · simp only [List.mem_cons, List.not_mem_nil, or_false] at he
    rcases he with rfl | rfl | rfl <;> exact absurd h (by decide +kernel)
  · exact absurd (h.1 (.inl (by decide +kernel))) (by decide +kernel)
-- GangBarriers: the barrier of a gang of one task opens at once; of a gang of two it waits, and breaks when the other task has left
def pair (gone : List Nat) (exits : List (Nat × Nat)) (n : Nat) : State :=
  (base .s fun t => { t with s := { t.s with arrivals := n } }).modGang 1 fun g => { g with tasks := [2, 4], gone := gone, exits := exits }
theorem witness_barrier : let up := fun s : State => s.modMe fun t => { t with s := { t.s with arrivals := t.s.arrivals + 1 } }
    CanIssue (sregs []) ∧ (∀ n, (sregs []).myEng.wait ≠ .gbar n true) ∧ (sregs []).me.s.stores = [] ∧ barrierOpen (up (sregs [])) 2 = true
    ∧ barrierOpen (up (pair [] [] 0)) 2 = false ∧ barrierBroken (up (pair [] [] 0)) 2 = false
    ∧ barrierOpen (up (pair [4] [(4, 0)] 0)) 2 = false ∧ barrierBroken (up (pair [4] [(4, 0)] 0)) 2 = true
    ∧ (base .s fun t => { t with s := { t.s with stores := [{}] } }).me.s.stores ≠ []
    ∧ ((eng .s (fun x => { x with wait := .gbar 2 true }) (base .s fun t => { t with s := { t.s with arrivals := 1 } })).eng 2 .s).wait = .gbar 2 true
    ∧ barrierOpen (eng .s (fun x => { x with wait := .gbar 2 true }) (base .s fun t => { t with s := { t.s with arrivals := 1 } })) 2 = true :=
  ⟨canIssue_of rfl rfl, fun n h => (by rw [show (sregs []).myEng.wait = .none by decide +kernel] at h; cases h), by decide +kernel⟩
-- waits that a transition window holds up: waitt, fence, gbar; and a stop
theorem witness_waits_held : ∀ w ∈ [Wait.waitt 0, .fence 2 1, .gbar 2 true, .gbar 2 false], let s (stop : Bool) := eng .s (fun x => { x with wait := w, stopped := stop }) (sregs [])
    ((s false).eng 2 .s).wait = w ∧ ((s false).eng 2 .s).stopped = false ∧ ((s false).die 0).power.window = none
    ∧ ((windowed (s false)).die 0).power.window ≠ none ∧ ((s true).eng 2 .s).stopped = true ∧ (0 : Word).toNat ≤ ((s false).die 0).ntime := by decide +kernel
-- MarksOfS: with and without a token register, with and without a store under way
theorem witness_marks : CanIssue (sregs []) ∧ (sregs []).cur.ch.tko = none ∧ (chain (fun c => { c with tko := some 31 }) (sregs [])).cur.ch.tko = some 31
    ∧ (sregs []).myEng.opn.length < tokenLimit ∧ (sregs []).me.s.stores.length = 0
    ∧ (base .s fun t => { t with s := { t.s with stores := [{}] } }).me.s.stores.length ≠ 0 := ⟨canIssue_of rfl rfl, by decide +kernel⟩
-- MatrixFeeds: M past the block before and not, a running mtile on the bank, seven and eight format words
theorem witness_matrix_feeds : let s := eng .m (fun x => { x with phase := .header }) (sregs [])
    CanIssue s ∧ s.cur.eng = .s ∧ matrixReached (eng .m (fun x => { x with serial := (s.eng 2 .s).serial }) s) 2 = true ∧ easelBusy s.me 0 = false
    ∧ easelBusy (base .s fun t => { t with m := { t.m with run := some { total := 1 } } }).me 0 = true
    ∧ matrixReached (eng .m (fun x => { x with phase := .body, serial := 5 }) s) 2 = false
    ∧ (s.modMyCore fun c => { c with fq := [1, 2, 3, 4, 5, 6, 7] }).myCore.fq.length < 8
    ∧ 8 ≤ (s.modMyCore fun c => { c with fq := [1, 2, 3, 4, 5, 6, 7, 8] }).myCore.fq.length := ⟨canIssue_of rfl rfl, by decide +kernel⟩
-- S writes the Easel while an mtile runs and M waits behind it, and not a bank that an mtile with steps left reads
theorem witness_matrix_feeds_runs : let s (b : Nat) := eng .m (fun x => { x with phase := .header }) (base .s fun t => { t with m := { t.m with run := some { easel := b, total := 2 } } })
    ((s 1).eng 2 .m).serial = ((s 1).eng 2 .s).serial ∧ ((s 1).me.m.run = some { easel := 1, total := 2 }) ∧ ({ total := 2 } : MRun).step < 2 := by decide +kernel
-- Loads, Stores: a misaligned address; the text page, which the TLB has and the data cache has not; a store behind another
theorem witness_loads : ∃ u, let s := sregs [(1, 0x10008)]
    CanIssue s ∧ s.cur.eng = .s ∧ s.myEng.stopped = false ∧ s.me.s.load = none ∧ (sv s 1 + immS s 0).toNat % 2 ^ 56 % 8 = 0
    ∧ (sv s 1 + immS s 1).toNat % 2 ^ 56 % 2 ≠ 0 ∧ Hits s 0x10008 0 leaf u ∧ leaf.pa % 2 ^ 16 = 0 ∧ region (leaf.phys 0x10008) = .cap
    ∧ s.reg regMcfg % 2 ^ 16 = 0 ∧ (∀ p ∈ s.pieces, p.id ≤ s.pieceNext) ∧ Sparse.rd none s.me.s.cache (leaf.phys 0x10008 / 64) = none :=
  ⟨_, canIssue_of rfl rfl, rfl, by decide +kernel, rfl, by decide +kernel, by decide +kernel, ⟨_, rfl, by decide +kernel, rfl, rfl⟩, by decide +kernel,
    by decide +kernel, by decide +kernel, by decide +kernel, by decide +kernel⟩
-- an address of either tier, whose line the data cache holds; the one half of the free choice or the other
def cached (pa : Nat) (f : SUnit → SUnit) : State :=
  base .s fun t => { t with sreg := [(1, 0x10008)], s := f { t.s with cache := [(pa / 64, some [(8, 7#8)])] }, tlb := { t.tlb with cond := [{ leaf with pa := pa / 2 ^ 16 * 2 ^ 16 }] } }
theorem witness_loads_cached : (∀ pa ∈ [fetchPa + 8, 2 ^ 30 + 8], Sparse.rd none (cached pa id).me.s.cache (pa / 64) ≠ none ∧ (region pa = .fast ∨ region pa = .cap)
      ∧ (lookup (cached pa id).me.tlb.cond 0x10008).isSome = true) ∧ (Config.freeChoice 0 % 2 = 0 ∨ Config.freeChoice 0 % 2 ≠ 0) := by
  exact ⟨by decide +kernel, by omega⟩
-- data that comes from the line, or from a piece in each of its places; bytes that are kept; a full cache
def loading (l : SLoad) (st : PieceSt) (pa n : Nat) : State :=
  { cached pa (fun u => { u with load := some l }) with pieces := [{ id := 1, core := 1, pa := pa, len := n, data := List.replicate n 7, st := st }] }
theorem witness_loads_return : let l : SLoad := { d := 2, size := 8, pa := fetchPa + 8 }
    ((loading l .served 0 8).task 2).s.load = some l ∧ l.piece = 0 ∧ l.keep = false ∧ ((loading l .served 0 8).eng 2 .s).stopped = false
    ∧ ((base .s id).task 2).s.load = none
    ∧ (∀ st ∈ [PieceSt.sent, .queued, .served, .bad], ((findPiece (loading { l with piece := 1 } st (2 ^ 30) 64) 1).map fun p => (p.st, region p.pa)) = some (st, .fast))
    ∧ findPiece (loading { l with piece := 2 } .served 0 64) 2 = none ∧ ({ l with piece := 1, keep := true } : SLoad).keep = true
    ∧ ((base .s id).task 2).s.cache.length < 1024 := by decide +kernel
theorem witness_loads_full : ¬ (List.replicate 1024 ((0 : Nat), (none : Option Mem))).length < 1024 := by decide +kernel
-- a piece of the fast tier, of the line or of its own bytes, and the end of a strip
def fastPiece (own : PieceOf) (wr : Bool) (off n : Nat) : Machine.Piece :=
  { id := 1, core := 1, own := own, pa := 2 ^ 30 + off, len := n, wr := wr, data := if wr then List.replicate n 7 else [] }
theorem witness_loads_fast : ∀ x ∈ [(0, 64), (56, 8), (63, 1)], let p := fastPiece .sLoad false x.1 x.2
    let s := { base .s id with pieces := [p] }
    p.own = .sLoad ∧ p.wr = false ∧ p.core = s.cur.core ∧ p.bank = s.cur.bank ∧ p.cc = s.ccFrame p.pa ∧ region p.pa = .fast ∧ p.pa % 64 + p.len ≤ 64 ∧ 0 < p.len
    ∧ s.reg regMcfg % 2 ^ 16 = 0 := by decide +kernel
theorem witness_loads_sound : (base .s id).Sound (2 ^ 30) 64 := sound_of rfl (by decide +kernel) (by decide +kernel) (by decide +kernel)
theorem witness_stores : ∃ u, let s := sregs [(1, 0x10008)]
    CanIssue s ∧ s.cur.eng = .s ∧ Hits s 0x10008 1 leaf u ∧ s.me.s.stores = [] ∧ s.me.s.marks = [] ∧ region (leaf.phys 0x10008) = .cap
    ∧ s.reg regMcfg % 2 ^ 16 = 0 ∧ (∀ p ∈ s.pieces, p.id ≤ s.pieceNext) :=
  ⟨_, canIssue_of rfl rfl, rfl, ⟨_, rfl, by decide +kernel, rfl, rfl⟩, rfl, rfl, by decide +kernel, by decide +kernel, by decide +kernel⟩
theorem witness_stores_behind : ∃ u, let s := base .s fun t => { t with sreg := [(1, 0x10008)], s := { t.s with stores := [{ piece := 1 }] } }
    CanIssue s ∧ Hits s 0x10008 1 leaf u ∧ s.me.s.stores = { piece := 1 } :: [] ∧ (1 : Nat) ≠ 0 :=
  ⟨_, canIssue_of rfl rfl, ⟨_, rfl, by decide +kernel, rfl, rfl⟩, rfl, by omega⟩
-- the oldest store: sent, and to each kind of target; its piece in each of its places; marks that wait for one store and for two
def storing (h : SStore) (r : List SStore) (marks : List (Nat × Nat)) (st : PieceSt) (pa : Nat) : State :=
  { (base .s fun t => { t with s := { t.s with stores := h :: r, marks := marks } }) with pieces := [{ id := 1, core := 1, own := .sStore, pa := pa, len := 8, wr := true, st := st }] }
theorem witness_stores_sent : let s := storing { piece := 1 } [{}] [(3, 2)]
    (∀ st ∈ [PieceSt.sent, .queued, .served, .bad], ((s st (2 ^ 30)).task 2).s.stores = { piece := 1 } :: [{}]
      ∧ ((findPiece (s st (2 ^ 30)) 1).map fun p => (p.st, region p.pa)) = some (st, .fast))
    ∧ (∀ pa ∈ [fetchPa, 2 ^ 30, 0x100000000040, peerPa 1], ({ pa := pa } : SStore).piece = 0) ∧ ((s .sent 0).task 2).s.marks = [(3, 1 + 1)] ∧ (1 : Nat) ≠ 0
    ∧ ((storing {} [] [(3, 1)] .sent 0).task 2).s.marks = [(3, 1)] ∧ findPiece (s .sent 0) 2 = none ∧ ((base .s id).task 2).s.stores = [] := by decide +kernel
theorem witness_stores_fast : ∀ x ∈ [(0, 8), (24, 8), (31, 1)], let p := fastPiece .sStore true x.1 x.2
    let s := { base .s id with pieces := [p] }
    p.own = .sStore ∧ p.wr = true ∧ p.data.length = p.len ∧ p.cc = s.ccFrame p.pa ∧ region p.pa = .fast ∧ p.pa % 32 + p.len ≤ 32 ∧ 0 < p.len
    ∧ s.reg regMcfg % 2 ^ 16 = 0 ∧ isLost s (chanOf p.pa) = false := by decide +kernel
-- Posts: queue 15 and queue 16; a queue that is off, of size 0, full, and with room
def posting (lgn tail : Nat) : State := (((sregs [(1, 0x10000), (2, 15), (3, 16)]).setReg (regQueue 0 15) lgn).setReg (regQueue 0 15 + 8) tail).setReg (regQueue 0 15 + 0x18) 1
theorem witness_posts : ∃ u, let s := posting 1 1
    CanIssue s ∧ (sv s 2).toNat < 16 ∧ 16 ≤ (sv s 3).toNat ∧ s.me.s.stores = [] ∧ Hits s 0x10000 0 leaf u ∧ s.Sound (leaf.phys 0x10000) 64 :=
  ⟨_, canIssue_of rfl rfl, by decide +kernel, by decide +kernel, rfl, ⟨_, rfl, by decide +kernel, rfl, rfl⟩, sound_of rfl (by decide +kernel) (by decide +kernel) (by decide +kernel)⟩
theorem witness_posts_queue : bitOf ((posting 1 1).reg (regQueue 0 15 + 0x18)) 2 = false ∧ (posting 1 1).reg (regQueue 0 15 + 0x18) % 4 < 2
    ∧ (posting 0 1).reg (regQueue 0 15) % 32 = 0 ∧ (posting 1 1).reg (regQueue 0 15) % 32 = 1 ∧ (posting 1 1).reg (regQueue 0 15 + 8) % 2 ^ 32 < 2 ^ 1
    ∧ 2 ^ 1 ≤ (posting 1 2).reg (regQueue 0 15 + 8) % 2 ^ 32 := by decide +kernel
-- Tokens: register 31, and none
theorem witness_tokens : (31 : Nat) < 32 ∧ (chain (fun c => { c with tko := some 31 }) (cregs [])).cur.ch.tko.getD 0 < 32 := by decide +kernel
-- StepRunsDecoded: an engine before a body and before a header, an event, a die where nothing is due
theorem witness_step : Walking { State.reset.withFetchWord 32 0x82300005 with agenda := [] } 1 0 .s := by
  refine ⟨by omega, by omega, by decide +kernel, fun h => (by cases h), fun h => (by cases h), ?_⟩
  rw [show (({ State.reset.withFetchWord 32 0x82300005 with agenda := [] } : State).eng (tkey 1 0) .s).wait = .none by decide +kernel]
  trivial
theorem witness_step_body : (({ State.reset.withFetchWord 32 0x82300005 with agenda := [] } : State).eng 2 .s).phase = .body
    ∧ decode .s [0x8230, 5] = .ok {} (.addi 3 0 5) 2 ∧ isControl (.addi 3 0 5) = false := by decide +kernel
theorem witness_step_gather : (gather (setCur { State.reset.withFetchWord 32 0x82300005 with agenda := [] } 1 0 .s {} 0) 2 .s 0x10000 2).2 = .ok [0x8230, 5] := by
  decide +kernel
theorem witness_step_end : Walking (eng .s (fun x => { x with phase := .body, body := 4, len := 2, pc := 8 }) { State.reset.withFetchWord 32 0x82300005 with agenda := [] }) 1 0 .s := by
  refine ⟨by omega, by omega, by decide +kernel, fun h => (by cases h), fun h => (by cases h), ?_⟩
  rw [show ((eng .s (fun x => { x with phase := .body, body := 4, len := 2, pc := 8 }) { State.reset.withFetchWord 32 0x82300005 with agenda := [] }).eng (tkey 1 0) .s).wait = .none by decide +kernel]
  trivial
theorem witness_step_header : (({ State.reset.withFetchWord 32 0xFE000401 with agenda := [] } : State).eng 2 .s).phase = .header
    ∧ decodeHeader 0xFE000401 = some (.blockHeader 0 0 1 1) ∧ bitOf 0xFE000401 20 = false := by decide +kernel
theorem witness_step_illegal : decode .s [0x8230] = .cut ∧ decodeHeader 0x82300005 = none
    ∧ decodeHeader 0xFF400401 = some (.blockHeader 5 0 1 1) ∧ decodeHeader 0xFE000001 = some (.blockHeader 0 0 0 1)
    ∧ decodeHeader 0xFE100401 = some (.blockHeader 0 0 1 1)
    ∧ bitOf 0xFE100401 20 = true ∧ decode .s [0xFE00, 0x0401] = .bad 0 0 := by decide +kernel
theorem witness_step_event : layout .powerUp = none ∧ layout (.beatBoundary 0) = none := ⟨rfl, rfl⟩
theorem witness_step_time : (dieWork State.reset 7).isNone = true := by decide +kernel
theorem witness_fetch : ∃ u, FetchHits (base .s id) 2 0x10000 leaf u ∧ (base .s id).Sound (leaf.phys 0x10000) 2 ∧ 0x10000 % 2 = 0 :=
  ⟨_, ⟨_, rfl, by decide +kernel, rfl, rfl⟩, sound_of rfl (by decide +kernel) (by decide +kernel) (by decide +kernel), by omega⟩
-- DecodeEncode: a well-formed instruction of each width, a header with the largest fields
theorem witness_encode : wellFormed (.add 31 31 31) = true ∧ wellFormed (.bw 2047) = true ∧ wellFormed (.blockHeader 4 1 1023 1023) = true
    ∧ layout (.bw 2047) = some ⟨.any, 16, [.op 5 7, .f 11]⟩ := ⟨by decide +kernel, by decide +kernel, by decide +kernel, rfl⟩
-- MemoryInvariant: the state after power-up, and one that holds bytes and a row line
theorem witness_memory : State.reset.MemWf ∧ State.MemWf { (State.reset.modChan 3 fun c => { c with slots := [(0, some { row := 5, data := [(0, 1#8)] })] }) with mem := [(4, 7#8)] } :=
  ⟨⟨rfl, fun _ h => by cases h⟩, by decide +kernel, by decide +kernel⟩
theorem send_of {s : State} (h : s.myEng.latched = none ∧ s.cur.ch.waits = [] ∧ s.myEng.opn.length < tokenLimit ∧ cBusy s = false
    ∧ s.dist.gangs.all (fun g => !g.det) = true) : CanSend s :=
  canSend_of h.1 h.2.1 h.2.2.1 h.2.2.2.1 fun g hg => by simpa using List.all_eq_true.1 h.2.2.2.2 g hg

/-- Core 1 executes on C with these address registers and this pinned window over its own rows. -/
def pinned (l : List (Nat × Word)) (r w : Bool) : State :=
  (cregs l).modMe fun t => { t with tlb := { t.tlb with pins := [{ va := 0, big := true, pa := 2 ^ 30, r := r, w := w, cc := true }] } }
theorem own_of {s : State} {a n : Nat} (h : inShare s a n = true) : OwnSpad s a n := (inShare_iff s a n).1 h
-- RowCommands: a row address off its boundary, without a window, without R, with R and W; the ends of the own share; group 2^13 and below
theorem witness_rows : let s := pinned [(1, 0x4000), (2, 0x4001), (3, 0x200000), (4, 0x2000), (5, 0x1FFF), (6, 0x1FFC00)] true true
    CanSend s ∧ OwnSpad s (cv s 6).toNat (32 * 32) ∧ ¬ OwnSpad s (cv s 3).toNat (32 * 1) ∧ (cv s 2).toNat % 2 ^ 14 ≠ 0
    ∧ (cv s 1).toNat % 2 ^ 14 = 0 ∧ (cv s 3).toNat % 2 ^ 14 = 0
    ∧ (s.me.tlb.pins.find? fun l => l.maps (cv s 3).toNat) = none
    ∧ (s.me.tlb.pins.find? fun l => l.maps (cv s 1).toNat).any (fun l => l.r && region (l.phys 0x4000) == .fast && l.phys 0x4000 / 2 ^ 30 == s.cur.core) = true
    ∧ ((pinned [] false true).me.tlb.pins.find? fun l => l.maps 0x4000).any (fun l => !l.r) = true
    ∧ 2 ^ 13 ≤ (cv s 4).toNat ∧ (cv s 5).toNat < 2 ^ 13 :=
  ⟨send_of (by decide +kernel), own_of (by decide +kernel), fun h => absurd ((inShare_iff _ _ _).2 h) (by decide +kernel), by decide +kernel⟩
-- Sends: a command 8 ticks and 7 before its start, one for a beat two ahead and three, a queue of 63 commands and of 64
theorem witness_sends : let s := cregs []
    let p (b o : Nat) : Point := ⟨b, o⟩
    let many (n : Nat) := (s.modChan 1 fun c => { c with cmds := List.replicate n { kind := .dref 0 } })
    8 ≤ s.delta (s.now 0) (p 0 8) ∧ s.delta (s.now 0) (p 0 7) < 8 ∧ (s.now 0).beat + 2 < (p 3 0).beat ∧ ¬ (s.now 0).beat + 2 < (p 2 0).beat
    ∧ 64 ≤ ((many 64).chan 1).cmds.length ∧ ¬ 64 ≤ ((many 63).chan 1).cmds.length := by decide +kernel
-- Infusions: no more than the issue
theorem witness_infusions : CanSend (cregs []) := send_of (by decide +kernel)
-- QuickCommands: the beat 2^48 and below, addresses off 8 and 64, at the end of the share and past it, a block of zeros, which is a
-- pattern, and one that is none, a count that waits in the queue, and none, with S able to send one and not
def patterned (v : Nat) : State := (cregs [(1, 0x1FFFC0), (2, 0x1FFFF8), (3, 0x200000), (4, 4), (5, 0x1000000000000), (6, 0xFFFFFFFFFFFF)]).modMyCore fun c =>
  { c with spad := c.spad.wrN 0x1FFFC0 64 v }
theorem witness_quick : let s := patterned 0
    CanSend s ∧ 2 ^ 48 ≤ (cv s 5).toNat ∧ (cv s 6).toNat < 2 ^ 48 ∧ (cv s 4).toNat % 8 ≠ 0 ∧ (cv s 3).toNat % 64 = 0 ∧ ¬ OwnSpad s (cv s 3).toNat 8
    ∧ OwnSpad s (cv s 2).toNat 8 ∧ (cv s 2).toNat % 8 = 0 ∧ OwnSpad s (cv s 1).toNat 64 ∧ (cv s 1).toNat % 64 = 0 ∧ ¬ OwnSpad s (cv s 3).toNat 64 := by
  refine ⟨send_of (by decide +kernel), by decide +kernel, by decide +kernel, by decide +kernel, by decide +kernel, fun h => ?_, own_of (by decide +kernel),
    by decide +kernel, own_of (by decide +kernel), by decide +kernel, fun h => ?_⟩
  · exact absurd ((inShare_iff _ _ _).2 h) (by decide +kernel)
  · exact absurd ((inShare_iff _ _ _).2 h) (by decide +kernel)
theorem witness_quick_patterns : patOk ((patterned 0x10001).myCore.spad.rdN 0x1FFFC0 64) ≠ patOk ((patterned 0).myCore.spad.rdN 0x1FFFC0 64) := by decide +kernel
theorem witness_quick_take : (base .c fun t => { t with hq := [7, 8] }).me.hq = 7 :: [8] ∧ (cregs []).me.hq = [] ∧ (cregs []).cur.eng ≠ .s
    ∧ stalledFor (eng .s (fun x => { x with phase := .header }) (cregs [])) (cregs []).key .c = false
    ∧ stalledFor (eng .s (fun x => { x with phase := .idle }) (cregs [])) (cregs []).key .c = true := by decide +kernel
/-- C of core 1 executes with a 2 MiB copy length in c5, 768 in c6, and addresses at both ends of the shares. -/
def spadState : State := cregs [(1, 0), (2, 0x1FFFE0), (3, 32), (4, 0x80000000), (5, 0x200000), (6, 768), (7, 1), (8, 0x80000), (9, 0x4000), (10, 767)]
-- ScratchpadCommands: lengths 32 and 2 MiB, the whole own share and its last strip, a peer's window, 1 and 768 entries, ccv and cpl
-- to the last byte of the canvas and of the palette
theorem witness_scratchpad_copy : CanSend spadState ∧ GoodLength (cv spadState 5).toNat ∧ GoodLength 32 ∧ (cv spadState 2).toNat % 32 = 0
    ∧ Reaches spadState (cv spadState 1).toNat (cv spadState 5).toNat 1 0 ∧ Reaches spadState (cv spadState 2).toNat 32 1 0x1FFFE0
    ∧ ∃ g k, spadState.gangOf spadState.key = some g ∧ g.tasks[0]? = some k ∧ Reaches spadState (cv spadState 4).toNat 32 (k / 2) 0 := by
  refine ⟨send_of (by decide +kernel), by unfold GoodLength; decide +kernel, by unfold GoodLength; decide +kernel, by decide +kernel,
    .inl ⟨by decide +kernel, own_of (by decide +kernel), rfl, by decide +kernel⟩, .inl ⟨by decide +kernel, own_of (by decide +kernel), rfl, by decide +kernel⟩, ?_⟩
  exact ⟨_, _, rfl, rfl, .inr ⟨by decide +kernel, _, _, rfl, by rw [show ((cv spadState 4).toNat - 0x80000000) / 2 ^ 21 = 0 by decide +kernel]; rfl, by decide +kernel, by decide +kernel, by decide +kernel⟩⟩
theorem witness_scratchpad_queues : 1 ≤ (cv spadState 6).toNat ∧ (cv spadState 6).toNat ≤ 768 ∧ (cv spadState 7).toNat = 1
    ∧ OwnSpad spadState (cv spadState 1).toNat (patBytes (Sparse.rd 0 spadState.me.pat 3) 768) ∧ OwnSpad spadState (cv spadState 1).toNat (1024 * 768)
    ∧ (cv spadState 1).toNat + 768 ≤ spadState.myCore.fsplit ∧ (cv spadState 10).toNat + 1 ≤ spadState.myCore.fsplit ∧ spadState.cur.bank = 0
    ∧ GoodLength (cv spadState 8).toNat ∧ (cv spadState 1).toNat + (cv spadState 8).toNat ≤ 524288 ∧ OwnSpad spadState 0 524288
    ∧ GoodLength (cv spadState 9).toNat ∧ (cv spadState 1).toNat + (cv spadState 9).toNat ≤ 16384 ∧ OwnSpad spadState 0 16384 := by
  refine ⟨by decide +kernel, by decide +kernel, by decide +kernel, own_of (by decide +kernel), own_of (by decide +kernel), by decide +kernel, by decide +kernel,
    by decide +kernel, by unfold GoodLength; decide +kernel, by decide +kernel, own_of (by decide +kernel), by unfold GoodLength; decide +kernel, by decide +kernel,
    own_of (by decide +kernel)⟩
-- ScratchpadWork: each kind; a queue of three entries and of four; an outbound queue with an entry and an empty one, the last entry and the last but one
def inSpad (c : SpadCmd) (n : Nat) : State := base .c fun t =>
  { t with c := { t.c with spc := some c }, opq := [(1, List.replicate n [])], outq := if n = 0 then [] else [(1, [[(0, 1#8)]])] }
theorem witness_spad_work : (∀ kind < 7, ((inSpad { kind := kind } 0).task (tkey 1 0)).c.spc = some { kind := kind } ∧ ({ kind := kind : SpadCmd }).failed = false)
    ∧ ¬ 4 ≤ (Sparse.rd [] ((inSpad {} 3).task 2).opq 1).length + (((inSpad {} 3).task 2).v.flights.filter fun f => f.dst == .opq 1).length
    ∧ 4 ≤ (Sparse.rd [] ((inSpad {} 4).task 2).opq 1).length ∧ Sparse.rd [] ((inSpad {} 0).task 2).outq 1 = []
    ∧ Sparse.rd [] ((inSpad {} 1).task 2).outq 1 = [(0, 1#8)] :: [] ∧ (0 : Nat) < 1 ∧ 0 + 1 = 1 ∧ 0 + 1 ≠ 2 := by decide +kernel
theorem witness_spad_gone : vGone (eng .v (fun x => { x with phase := .idle }) (inSpad {} 4)) 2 0 = true
    ∧ vGone (eng .v (fun x => { x with phase := .body }) (inSpad {} 4)) 2 0 = false := by decide +kernel
-- a copy that moves all at once, of one unit and of ranges that meet, and one that does not; an entry of V on its way to the queue
theorem witness_spad_units : let whole (c : SpadCmd) : Prop := (c.kind = 0 ∧ c.dcore = c.score ∧ c.dst < c.src + c.n ∧ c.src < c.dst + c.n) ∨ (c.n + 31) / 32 - c.done ≤ 1
    whole { src := 32, n := 64 } ∧ whole { src := 64, n := 32 } ∧ ¬ whole { src := 64, n := 64 } ∧ ¬ whole { kind := 6, src := 32, n := 64 } := by decide +kernel
theorem witness_spad_coming : let s := base .c fun t => { t with c := { t.c with spc := some { kind := 2, q := 1 } }, v := { t.v with flights := [{ due := 9, dst := .outq 1 }] } }
    (∃ f ∈ (s.task (tkey 1 0)).v.flights, f.dst = .outq 1) ∧ Sparse.rd [] (s.task 2).outq 1 = [] ∧ (s.task 2).stop = false
    ∧ ({ kind := 2, failed := true } : SpadCmd).failed = true
    ∧ ((s.modTask 2 fun t => { t with stop := true }).task 2).stop = true := by decide +kernel
-- V waits on a token of the command itself, and on one of a later command
def waitsOn (w : Word) : State := eng .v (fun x => { x with phase := .body, wait := .tokens, latched := some [w] })
  (eng .c (fun x => { x with opn := [5, 6] }) (base .c fun t => { t with c := { t.c with spc := some { kind := 1, seq := 5 } } }))
theorem witness_spad_token : ∀ n ∈ [0x900000005, 0x900000006], let w := BitVec.ofNat 64 n
    ((waitsOn w).eng 2 .v).wait = .tokens ∧ ((waitsOn w).eng 2 .v).latched = some [w] ∧ w.toNat / 2 ^ 35 % 2 = 1 ∧ w.toNat / 2 ^ 32 % 8 = Eng.c.tag
    ∧ tokenDone (waitsOn w) 2 w = false ∧ (w.toNat % 2 ^ 32 + 2 ^ 32 - 5) % 2 ^ 32 < 2 ^ 31 := by decide +kernel

/-- C executes with this many commands in flight, the text page in its stream TLB and in its pinned table as a window, an index list at 64
of one entry (c5), and addresses at the text page and in the scratchpad. -/
def addresses (n : Nat) : State :=
  let s := cregs [(1, 0x10000), (2, 0x1FFFE0), (3, 0x200000), (4, 32), (5, 0x100000040), (6, 0x1000000000000)]
  s.modMe fun t => { t with tlb := { t.tlb with strm := [leaf], pins := [{ leaf with cc := true }] }, c := { t.c with cmds := List.replicate n {} } }
-- AddressCommands: seven commands in flight and eight, a copy of 32 bytes to the last strip of the share, a window, a gather of one element
theorem witness_addresses : let s := addresses 7
    CanSend s ∧ GoodLength (cv s 4).toNat ∧ GoodLength 32 ∧ (cv s 1).toNat % 32 = 0 ∧ (cv s 2).toNat % 32 = 0 ∧ OwnSpad s (cv s 2).toNat 32
    ∧ s.me.c.cmds.length < 8 ∧ ¬ (addresses 8).me.c.cmds.length < 8 ∧ lookup s.me.tlb.strm ((cv s 1).toNat % 2 ^ 56) = some (leaf, [leaf])
    ∧ leaf.cc = false ∧ leaf.r = true ∧ leaf.w = true := by
  refine ⟨send_of (by decide +kernel), by unfold GoodLength; decide +kernel, by unfold GoodLength; decide +kernel, by decide +kernel, by decide +kernel,
    own_of (by decide +kernel), by decide +kernel⟩
theorem witness_addresses_window : let s := addresses 0
    (s.me.tlb.pins.find? fun l => l.maps ((cv s 1).toNat % 2 ^ 56)) = some { leaf with cc := true } ∧ placed s { leaf with cc := true } 0x10000 = true
    ∧ ({ leaf with cc := true } : Leaf).maps ((cv s 1).toNat % 2 ^ 56 + 32 - 1) = true := by decide +kernel
theorem witness_addresses_lists : let s := addresses 7
    (cv s 5).toNat / 2 ^ 32 = 1 ∧ (cv s 5).toNat % 2 ^ 32 % 4 = 0 ∧ OwnSpad s ((cv s 5).toNat % 2 ^ 32) (4 * 1) ∧ (cv s 6).toNat / 2 ^ 32 = 65536
    ∧ OwnSpad s ((cv s 6).toNat % 2 ^ 32) (4 * 65536) ∧ (cv s 1).toNat % (32 * 2 ^ 5) = 0 ∧ OwnSpad s ((cv s 2).toNat - 992) (1 * (32 * 2 ^ 5))
    ∧ s.myCore.spad.rdN (0x40 + 4 * 0) 4 = 0 := by
  refine ⟨by decide +kernel, by decide +kernel, own_of (by decide +kernel), by decide +kernel, own_of (by decide +kernel), by decide +kernel,
    own_of (by decide +kernel), by decide +kernel⟩
-- a tlbi marker that waits for an earlier command's pieces and none; a record's offset for the command; a page that C must walk for; frames of each placement
theorem witness_addresses_waits : let s (m : List (Nat × Bool)) (n : Nat) := (addresses 0).modMe fun t =>
      { t with c := { t.c with marks := m, cmds := [{ len := 64, next := n }] }, resume := [(fetchVa, 32)] }
    (s [(0, true)] 0).me.c.marks ≠ [] ∧ (∃ x ∈ (s [(0, true)] 0).me.c.cmds, x.pinned = false ∧ x.failed = false ∧ x.next < x.len)
    ∧ ¬ (∃ x ∈ (s [(0, true)] 64).me.c.cmds, x.pinned = false ∧ x.failed = false ∧ x.next < x.len) ∧ (s [] 0).me.c.marks = []
    ∧ (s [] 0).me.resume.find? (fun e => e.1 == (s [] 0).cur.pc % 2 ^ 56) = some (fetchVa, 32) ∧ lookup (s [] 0).me.tlb.strm 0x20000 = none
    ∧ placed (s [] 0) { leaf with pa := 0, cc := true } fetchVa = false ∧ placed (s [] 0) leaf fetchVa = true ∧ leaf.cc ≠ true
    ∧ ({ leaf with r := false } : Leaf).r = false := by decide +kernel

/-- V executes in an interlocked block or not, with two entries in queue 1, n entries in outbound queue 0 and these results in flight. -/
def vstate (inter : Bool) (n : Nat) (fs : List Flight) : State :=
  (eng .v (fun x => { x with phase := .body, inter := inter }) (base .v fun t =>
    { t with opq := [(1, [[(0, 7#8)], [(0, 9#8)]])], outq := if n = 0 then [] else [(0, List.replicate n [])], v := { t.v with flights := fs } }))
-- QueueReads: an empty queue, one with one entry, one with two
theorem witness_queues : Sparse.rd [] (vstate true 0 []).me.opq 0 = [] ∧ Sparse.rd [] (vstate true 0 []).me.opq 1 = [(0, 7#8)] :: [(0, 9#8)] :: []
    ∧ readQueues (vstate true 0 []).me.opq [(1, 0), (1, 0)] = some ([[(0, 7#8)], [(0, 9#8)]], []) ∧ readQueues (vstate true 0 []).me.opq [(0, 0)] = none := by
  decide +kernel
theorem witness_queues_run : NoLanding (vstate false 3 []) ∧ (vstate false 3 []).myEng.inter = false
    ∧ badShare (vstate false 3 []) (some (vDst 5)) = false ∧ noRoom (vstate false 3 []).me (some (vDst 5)) = false
    ∧ readQueues (vstate false 3 []).me.opq [(1, 1), (1, 0), (1, 0)] = some ([[(0, 7#8)], [(0, 7#8)], [(0, 9#8)]], []) :=
  ⟨fun _ hf => (by cases hf), by decide +kernel, by decide +kernel, by decide +kernel, rfl⟩
-- Flies: entry 767 and 768 of the own share, a register in flight and none, an empty queue and one to read, room for one more result and none,
-- in an interlocked block whose C goes on, and in one that is not interlocked
theorem witness_flies (inter : Bool) : CanIssue (vstate inter 3 []) ∧ CheckerIdle (vstate inter 3 []) ∧ NoLanding (vstate inter 3 [])
    ∧ (vstate inter 3 []).cur.eng = .v :=
  ⟨canIssue_of rfl rfl, checker_of (by cases inter <;> decide +kernel), fun f hf => (by cases inter <;> cases hf), rfl⟩
theorem witness_flies_cases : badShare (vstate true 3 []) (some (.entry 768)) = true ∧ badShare (vstate true 3 []) (some (.entry 767)) = false
    ∧ inFlight (vstate true 3 [{ due := 9, dst := .entry 5 }]).me (.entry 5) = true ∧ inFlight (vstate true 3 []).me (.entry 5) = false
    ∧ readQueues (vstate true 3 []).me.opq [(0, 0)] = none ∧ (readQueues (vstate true 3 []).me.opq [(1, 0), (1, 1)]).isSome = true
    ∧ noRoom (vstate true 4 []).me (some (.outq 0)) = true ∧ noRoom (vstate true 3 []).me (some (.outq 0)) = false
    ∧ (vstate true 3 []).myEng.inter = true ∧ (vstate false 3 []).myEng.inter = false
    ∧ cGone (eng .c (fun x => { x with phase := .body }) (vstate true 3 [])) 2 = false ∧ cGone (vstate true 3 []) 2 = true := by decide +kernel
theorem witness_flies_busy : NoLanding (vstate true 3 [{ due := 9, dst := .entry 5 }]) := by
  intro f hf
  rw [show (vstate true 3 [{ due := 9, dst := .entry 5 }]).me.v.flights = [{ due := 9, dst := .entry 5 }] by decide +kernel] at hf
  simp only [List.mem_singleton] at hf
  subst hf
  decide +kernel
-- VectorFeeds: entry 767 and past the share, three places taken and four, a mark with a token register and without, with and without results in flight
theorem witness_vfeeds : inFile (vstate true 0 []) 768 1 = false ∧ inFile (vstate true 0 []) 767 1 = true
    ∧ (Sparse.rd [] (base .v fun t => { t with opq := [(2, [[], [], []])] }).me.opq 2).length < 4
    ∧ 4 ≤ (Sparse.rd [] (base .v fun t => { t with opq := [(2, [[], [], [], []])] }).me.opq 2).length
    ∧ (vstate true 0 []).cur.ch.tko.getD 0 = 0 ∧ (chain (fun c => { c with tko := some 31 }) (vstate true 0 [])).cur.ch.tko.getD 0 ≠ 0
    ∧ (vstate true 0 []).me.v.flights = [] ∧ (vstate true 0 [{ due := 9, dst := .entry 5 }]).me.v.flights ≠ []
    ∧ (vstate true 0 []).myEng.opn.length < tokenLimit := by decide +kernel
-- VectorLandings: a result before its cycle and in it, at each destination, mask 0 and mask 1, register 0 and register 1
def landing (f : Flight) : State := base .v fun t => { t with v := { t.v with cyc := 5, flights := [f] } }
theorem witness_landings : (∀ d ∈ [VDst.entry 3, .jreg 3, .outq 1, .opq 1, .mask 0, .mask 1, .sreg 0, .sreg 1, .mark 1],
      ((landing { due := 5, dst := d }).task (tkey 1 0)).v.flights = [{ due := 5, dst := d }])
    ∧ 5 ≤ ((landing { due := 5 }).task 2).v.cyc ∧ ((landing { due := 6 }).task 2).v.cyc < 6 := by decide +kernel
-- several results of one cycle, in the order in which they were issued, and of an earlier one; a write of S that vtos meets, later and earlier in the walk
theorem witness_landings_order : landingOrder [{ due := 5, dst := .entry 1 }, { due := 4, dst := .entry 2 }, { due := 5, dst := .entry 3 }]
    = [{ due := 4, dst := .entry 2 }, { due := 5, dst := .entry 1 }, { due := 5, dst := .entry 3 }] := by decide +kernel
theorem witness_landings_kept : let s (new : Word) := eng .s (fun x => { x with serial := 4 }) (base .v fun t => { t with sreg := [(1, new)], v := { t.v with sregs := [(1, 7)], pushed := [(2, 1)] }, opq := [(2, [[], [(0, 1#8)]])] })
    Sparse.rd 0 ((s 8).task 2).sreg 1 ≠ Sparse.rd 0 ((s 8).task 2).v.sregs 1 ∧ Sparse.rd 0 ((s 7).task 2).sreg 1 = Sparse.rd 0 ((s 7).task 2).v.sregs 1
    ∧ 0 < (((s 8).eng 2 .s).serial + 2 ^ 32 - 3) % 2 ^ 32 ∧ (((s 8).eng 2 .s).serial + 2 ^ 32 - 3) % 2 ^ 32 < 2 ^ 31
    ∧ ¬ 0 < (((s 8).eng 2 .s).serial + 2 ^ 32 - 4) % 2 ^ 32
    ∧ Sparse.rd [] ((s 8).task 2).opq 2 = [[]] ++ [[(0, 1#8)]] ∧ ([[(0, 1#8)]] : List Mem).length = Sparse.rd 0 ((s 8).task 2).v.pushed 2 := by decide +kernel
-- IntervalReading: a NaN bound, a lower above an upper, an infinity on the wrong side, -0 against 0, a set
theorem witness_reading : Fmt.f32.isNaN 0x7FC00000 = true ∧ Fmt.f32.isNaN 0x3F800000 = false ∧ Fmt.f32.val 0x7F800000 = .inf false
    ∧ Fmt.f32.val 0xFF800000 = .inf true ∧ Lane.ofBits .f32 0x40000000 0x3F800000 = .empty ∧ Lane.ofBits .f32 0x7F800000 0x7F800000 = .empty
    ∧ Lane.ofBits .f32 0 0x80000000 = .set (Lane.bound .f32 0) (Lane.bound .f32 0x80000000) ∧ Lane.ofBits .bf16 0xBF80 0x3F80 ≠ .empty := by decide +kernel

/-- The parameter block in spad at 0x1FFF80 and what of it C names: one strip, two sources at 32 and 64, the flag at the text page or none. -/
def reducing (words : List Nat) (r : Bool) : State :=
  let s := cregs [(1, 0x1FFF80), (2, 0x1FFF81), (3, 0x200000)]
  let s := s.modMyCore fun c => { c with spad := c.spad.wrN 0x1FFF80 128 (words.zipIdx.foldl (fun a w => a + w.1 * 2 ^ (64 * w.2)) 0) }
  s.modMe fun t => { t with tlb := { t.tlb with strm := [leaf], pins := [{ va := 0, big := true, pa := 2 ^ 30, r := r, w := true, cc := true }] } }
def block : List Nat := [0, 0, 2 * 2 ^ 30 + 1, 2 ^ 48 + 2 ^ 32, 32, 64]
def readBlock (s : State) : List Nat := (List.range 16).map fun i => s.myCore.spad.rdN (0x1FFF80 + 8 * i) 8
-- Reductions: the address off 128, past the share and at its end, a reserved bit set, a buffer off 32, a flag off 8, a window without R, no flag and one
theorem witness_reductions : let s := reducing block true
    CanSend s ∧ (cv s 2).toNat % 128 ≠ 0 ∧ (cv s 3).toNat % 128 = 0 ∧ ¬ OwnSpad s (cv s 3).toNat 128 ∧ OwnSpad s (cv s 1).toNat 128 := by
  refine ⟨send_of (by decide +kernel), by decide +kernel, by decide +kernel, fun h => ?_, own_of (by decide +kernel)⟩
  exact absurd ((inShare_iff _ _ _).2 h) (by decide +kernel)
def isOk (x : Except (Nat × Nat) (List Nat)) (l : List Nat) : Bool := match x with | .ok m => m == l | .error _ => false
def isError (x : Except (Nat × Nat) (List Nat)) (n : Nat) : Bool := match x with | .ok _ => false | .error m => m.1 == n
theorem witness_reductions_block : let w := readBlock (reducing block true)
    rdcFieldBad w = false ∧ (∀ v ∈ [0, 32, 64], v % 32 = 0) ∧ w.getD 1 0 = 0 ∧ isOk (rdcPlaces (reducing block true) w) [2 ^ 30, 2 ^ 30 + 32, 2 ^ 30 + 64] = true
    ∧ isError (rdcPlaces (reducing block false) w) 199 = true ∧ rdcFieldBad (readBlock (reducing (block.set 3 (2 ^ 48)) true)) = true
    ∧ (readBlock (reducing (block.set 1 0x10000) true)).getD 1 0 = 0x10000 ∧ (readBlock (reducing (block.set 1 4) true)).getD 1 0 % 8 ≠ 0
    ∧ (readBlock (reducing (block.set 4 33) true)).getD 4 0 % 32 ≠ 0 := by decide +kernel
theorem witness_reductions_flag : let s := reducing (block.set 1 0x10000) true
    s.me.c.marks = [] ∧ lookup (marked s).me.tlb.strm (0x10000 % 2 ^ 56) = some (leaf, [leaf]) := by decide +kernel
-- and of the engine: no block waits and one does, with three and four blocks in the engine, a strip whose time has come, a block that ends with and without a flag
def engine (b : RedBlk) (n off2 : Nat) : State :=
  let s := (base .c fun t => { t with c := { t.c with rdc := some [1, 0, 2 ^ 31 + 1, 2 ^ 48 + 2 ^ 32, 0, 2 ^ 30, 2 ^ 30 + 32, 2 ^ 30 + 64] } })
  (s.modStack 0 fun z => { z with red := List.replicate n b }).modDie 0 fun d => { d with beat := 1, off2 := off2 }
def ablock : RedBlk := { core := 1, seq := 1, dst := 2 ^ 30, srcs := [2 ^ 30 + 32, 2 ^ 30 + 64], nstrips := 1, stride := 1, nbeats := 1, first := 1 }
theorem witness_engine : (base .c id).me.c.rdc = none ∧ ((engine ablock 3 0).task (tkey 1 0)).c.rdc = some (1 :: 0 :: (2 ^ 31 + 1) :: (2 ^ 48 + 2 ^ 32) :: 0 :: 2 ^ 30 :: [2 ^ 30 + 32, 2 ^ 30 + 64])
    ∧ ((engine ablock 3 0).stack (2 ^ 30 / 2 ^ 30 / 48)).red.length < 4 ∧ 4 ≤ ((engine ablock 4 0).stack 0).red.length
    ∧ stripDue (engine ablock 1 131) 0 = none ∧ stripDue (engine ablock 1 132) 0 = some ablock ∧ (engine ablock 1 132).cellFaults = []
    ∧ endingBlock (engine ablock 1 0) 0 = none ∧ endingBlock (engine { ablock with done := 1 } 1 0) 0 = some ({ ablock with done := 1 }, 1)
    ∧ endingBlock (engine { ablock with done := 1, flag := some fetchPa } 1 0) 0 = some ({ ablock with done := 1, flag := some fetchPa }, 1)
    ∧ region fetchPa = .cap := by decide +kernel
-- a buffer past the end of its window, one outside every window, one of another stack, one that may not be read or written, two that overlap
def window2 (pa2 : Nat) (r w : Bool) (words : List Nat) : State :=
  (reducing words r).modMe fun t => { t with tlb := { t.tlb with pins := [{ va := 0, big := true, pa := 2 ^ 30, r := true, w := w, cc := true }, { va := 2 ^ 22, big := true, pa := pa2, r := r, cc := true }] } }
def rdcOf (s : State) (src : Nat) (n : Nat) : Except (Nat × Nat) (List Nat) := rdcPlaces s ((readBlock s).set 2 (2 * 2 ^ 30 + n) |>.set 4 src)
theorem witness_reductions_places : let s := window2 (2 ^ 30 + 2 ^ 21) true true block
    isError (rdcOf s (2 ^ 21 - 32) 2) 201 = true ∧ isError (rdcOf s (2 ^ 21) 1) 200 = true
    ∧ isError (rdcOf (window2 (48 * 2 ^ 30) true true block) (2 ^ 22) 1) 200 = true
    ∧ isError (rdcOf (window2 (2 ^ 30) true false block) (2 ^ 22) 1) 199 = true ∧ isError (rdcOf (window2 (2 ^ 30 + 2 ^ 21) false true block) (2 ^ 22) 1) 199 = true
    ∧ isError (rdcOf s 32 2) 32 = true ∧ isOk (rdcOf s (2 ^ 22) 1) [2 ^ 30, 2 ^ 30 + 2 ^ 21, 2 ^ 30 + 64] = true := by decide +kernel
-- a flag behind a tlbi marker, with a page still to ask for and with none; its page not in the TLB, misplaced, not writable
theorem witness_reductions_marks : let s (next : Nat) := (reducing (block.set 1 0x10000) true).modMe fun t => { t with c := { t.c with marks := [(0x20000, false)], cmds := [{ len := 64, next := next }] } }
    (s 0).me.c.marks ≠ [] ∧ (∃ c ∈ (s 0).me.c.cmds, c.pinned = false ∧ c.failed = false ∧ c.next < c.len)
    ∧ ¬ (∃ c ∈ (s 64).me.c.cmds, c.pinned = false ∧ c.failed = false ∧ c.next < c.len) ∧ lookup (marked (s 64)).me.tlb.strm 0x10000 = some (leaf, [leaf])
    ∧ lookup (marked (s 64)).me.tlb.strm 0x20000 = none ∧ placed (s 64) leaf 0x10000 = true ∧ placed (s 64) { leaf with pa := 0, cc := true } 0x10000 = false
    ∧ ({ leaf with w := false } : Leaf).w = false := by decide +kernel
-- a block that a stop keeps out; a strip of a lost pseudo-channel, one whose transfer fails, one that fails again, one that passes
theorem witness_engine_stop : (((engine ablock 3 0).modTask 2 fun t => { t with stop := true }).task 2).stop = true
    ∧ ((engine ablock 3 0).task 2).stop = false := by decide +kernel
def sendsOf (s : State) : State × List (Nat × Nat × Nat) × Bool := sendStrip s 0 ablock ((ablock.dst :: ablock.srcs).zipIdx.map fun y => (y.2, y.1))
theorem witness_engine_sends : let s := engine ablock 1 132
    (sendsOf s).2 = ([], false) ∧ (sendsOf (s.setReg (regTels 1) (2 ^ 11))).2.2 = true
    ∧ (sendsOf (s.modChan 1 fun c => { c with busFaults := [[(0, 3)]] })).2 = ([(0, 1, 3)], false)
    ∧ redUser s 0 1 = some ablock ∧ (∀ p ∈ ablock.channels 0, s.steep p 1 = false) ∧ isLost s 1 = false ∧ foldOf s 1 = 0 ∧ (s.chan 1).busFaults = []
    ∧ (s.chan 1).fails = [] := by
  decide +kernel
-- a block whose last named beat has passed, and one whose beat is open; one that still names the open beat as it ends
theorem witness_engine_ends : let s (b : Nat) := (engine ablock 1 0).modDie 0 fun d => { d with beat := b }
    endingBlock (s 2) 0 = some (ablock, 2) ∧ endingBlock (s 1) 0 = none ∧ ablock.live (s 2) = true ∧ ablock.names 0 1 = true
    ∧ ablock.names 0 2 = false := by decide +kernel

-- TimedTransfers: from core 1 to core 96, on another die, with 32 bytes and 4,096; the start 8 ticks ahead and 7; a transfer that is early, late, and on time
def transfers : State :=
  (cregs [(1, 0x80200000), (2, 0x1FFFE0), (3, 32), (4, 4096), (5, 0x1FF000)]).modGang 1 (fun g => { g with tasks := [2, 192] })
    |>.modCore 96 fun c => { c with ssplit := 32 }
theorem witness_ctx : let s := transfers
    CanSend s ∧ (cv s 3).toNat = 32 ∧ (cv s 4).toNat = 4096 ∧ (cv s 1).toNat % 32 = 0 ∧ 0x80000000 ≤ (cv s 1).toNat ∧ Reaches s (cv s 1).toNat 4096 96 0
    ∧ 96 / 96 ≠ s.cur.core / 96 ∧ (cv s 2).toNat % 32 = 0 ∧ OwnSpad s (cv s 2).toNat 32 ∧ OwnSpad s (cv s 5).toNat 4096
    ∧ s.delta (s.now 0) ⟨0, 7⟩ < 8 ∧ 8 ≤ s.delta (s.now 0) ⟨0, 8⟩ := by
  refine ⟨send_of (by decide +kernel), by decide +kernel, by decide +kernel, by decide +kernel, by decide +kernel, .inr ⟨by decide +kernel, ?_⟩, by decide +kernel,
    by decide +kernel, own_of (by decide +kernel), own_of (by decide +kernel), by decide +kernel, by decide +kernel⟩
  have h : ∃ g, transfers.gangOf transfers.key = some g ∧ g.tasks = [2, 192] := by
    cases e : transfers.gangOf transfers.key with
    | none => exact absurd e (by decide +kernel)
    | some g => exact ⟨g, rfl, by have : (transfers.gangOf transfers.key).map Gang.tasks = some [2, 192] := by decide +kernel
                                  rw [e] at this; simpa using this⟩
  obtain ⟨g, hg, ht⟩ := h
  exact ⟨g, 192, hg, by rw [ht, show ((cv transfers 1).toNat - 0x80000000) / 2 ^ 21 = 1 by decide +kernel]; rfl, by decide +kernel, by decide +kernel, by decide +kernel⟩
def sending (c : CtxCmd) (beat off2 tick2 : Nat) : State := (base .c id).modDie 0 fun d => { d with ctx := [c], beat := beat, off2 := off2, tick2 := tick2 }
theorem witness_ctx_sends : let c : CtxCmd := { core := 1, plan := ⟨1, 8⟩, dcore := 96, n := 1 }
    let d (b o : Nat) := (sending c b o 0).die 0
    (d 1 16).freeze = none ∧ (d 1 16).pause = none ∧ (d 1 16).ctx = [c] ∧ c.sent2 = none ∧ c.core / 96 = 0
    ∧ (d 0 16).beat < c.plan.beat ∧ (d 1 15).off2 < 2 * c.plan.off ∧ c.plan.beat < (d 2 0).beat ∧ 2 * c.plan.off ≤ (d 1 16).off2
    ∧ (∀ e < 8, e ≠ 0 → ((sending c 1 16 0).die e).ctx = []) ∧ ((((base .c id).modDie 0 fun x => { x with freeze := some (1, 0, 9) }).die 0).freeze).isSome := by decide +kernel
theorem witness_ctx_lands : let c : CtxCmd := { core := 1, dcore := 96, n := 1, sent2 := some 0, strips := [0] }
    let t := 2 * (24 * hops 0 (96 / 96) + 2)
    ((sending c 1 0 t).die 0).ctx = [c] ∧ 0 + 2 * (24 * hops 0 (c.dcore / 96) + 2 + 0 / 2) ≤ ((sending c 1 0 t).die 0).tick2 := by decide +kernel
-- a freeze that begins first; a drd strip that lands first in the core of the transfer; the last strip, one before it, and the last of a transfer that lost strips
theorem witness_ctx_held : let s : State := { (base .c id) with grid := { freezes := [{ id := 1, at_ := ⟨0, 0⟩, len := 96 }] } }
    (∀ f ∈ s.grid.freezes, 0 ∉ f.begun) ∧ ¬ (∀ f ∈ s.grid.freezes, 0 ∉ f.begun → ((s.die 0).beat < f.at_.beat ∨ (f.at_.beat = (s.die 0).beat ∧ (s.die 0).off2 < 2 * f.at_.off))) ∧ ([0] : List Nat).erase 0 = [] ∧ ([0, 1] : List Nat).erase 0 ≠ [] ∧ ({ cut := [(1, 0)] } : CtxCmd).cut ≠ [] := by
  decide +kernel
theorem witness_ctx_order : let c : CtxCmd := { core := 1, dcore := 96, n := 1, sent2 := some 0, strips := [0] }
    let s := (sending c 1 0 100).modChan 96 fun x => { x with runs := [{ cmd := { kind := .drd 0 0 0 1 0 }, lands := [(0, 0)] }] }
    ctxLandDue (ctxEmpty s 0) 0 = some (c, 0) ∧ landDueOf (ctxEmpty s 0) 96 ≠ none ∧ ctxLandDue (ctxEmpty (sending c 1 0 100) 0) 0 = some (c, 0)
    ∧ landDueOf (ctxEmpty (sending c 1 0 100) 0) 96 = none := by decide +kernel

/-- Command 1 of C is under way, or not; its pieces; the queue of channel 0 holds n requests. -/
def piecesAt (c : CCmd) (tlb : List Leaf) (p : List Machine.Piece) (n : Nat) : State :=
  let s := (base .c fun t => { t with c := { t.c with cmds := [c] }, tlb := { t.tlb with strm := tlb } }).modChan 0 fun x => { x with farq := List.replicate n 1 }
  { s with pieces := p }
def cmd1 (store : Bool) : CCmd := { id := 1, va := fetchVa, len := 32, store := store }
-- AddressPieces: no command and one; a page that is not in the TLB, one that is a window, one that is not writable, one that is
theorem witness_pieces : findCmd (piecesAt (cmd1 true) [] [] 0) (tkey 1 0) 2 = none ∧ findCmd (piecesAt (cmd1 true) [] [] 0) (tkey 1 0) 1 = some (cmd1 true)
    ∧ (cmd1 true).next < (cmd1 true).len ∧ ((piecesAt (cmd1 true) [] [] 0).core 1).halted = false
    ∧ lookup ((piecesAt (cmd1 true) [] [] 0).task 2).tlb.strm fetchVa = none
    ∧ lookup ((piecesAt (cmd1 true) [leaf] [] 0).task 2).tlb.strm fetchVa = some (leaf, [leaf]) ∧ leaf.cc = false
    ∧ placed (piecesAt (cmd1 true) [leaf] [] 0) leaf fetchVa = true
    ∧ leaf.w = true ∧ region (leaf.phys fetchVa) = .cap
    ∧ lookup ((piecesAt (cmd1 true) [{ leaf with w := false }] [] 0).task 2).tlb.strm fetchVa = some ({ leaf with w := false }, [{ leaf with w := false }])
    ∧ lookup ((piecesAt (cmd1 true) [{ leaf with cc := true }] [] 0).task 2).tlb.strm fetchVa = some ({ leaf with cc := true }, [{ leaf with cc := true }]) := by decide +kernel
-- no piece and one, in each of its places; a far queue of 63 and of 64; a far slot with nothing and with a request
def piece1 (pa : Nat) (st : PieceSt) : Machine.Piece := { id := 1, core := 1, own := .cCmd 1, pa := pa, len := 32, st := st }
theorem witness_replies : let s (p : Machine.Piece) (n : Nat) := piecesAt (cmd1 false) [leaf] [p] n
    findPiece (s (piece1 0 .sent) 0) 2 = none ∧ (∀ st ∈ [PieceSt.sent, .queued, .served], findPiece (s (piece1 0 st) 0) 1 = some (piece1 0 st))
    ∧ region (piece1 0 .sent).pa = .fast ∧ region (piece1 0 .sent).pa ≠ .cap ∧ ((s (piece1 0 .sent) 63).chan (chanOf 0)).farq.length < 64
    ∧ 64 ≤ ((s (piece1 0 .sent) 64).chan (chanOf 0)).farq.length ∧ (∀ q ∈ (s (piece1 0 .sent) 63).pieces, 1 ≤ q.id) := by decide +kernel
theorem witness_slots : let s (n off2 : Nat) := (piecesAt (cmd1 false) [leaf] [piece1 0 .queued] n).modDie 0 fun d => { d with off2 := off2 }
    slotNow (s 0 0) 0 = none ∧ (slotNow (s 0 (2 * (s 0 0).windowEnd 0)) 0).isSome = true ∧ ((s 0 0).chan 0).farq = [] ∧ ((s 1 0).chan 0).farq = 1 :: []
    ∧ isLost (s 1 0) 0 = false ∧ foldOf (s 1 0) 0 = 0 ∧ ((s 1 0).chan 0).busFaults = [] ∧ ((s 1 0).chan 0).fails = [] := by decide +kernel
-- no walk and one for each unit, which ends without an entry
theorem witness_walks : ((base .c id).task 2).tlb.walks.find? (fun w => w.unit == 1) = none
    ∧ (∀ u ∈ [0, 1, 2], ((base .c fun t => { t with tlb := { t.tlb with walks := [{ unit := u, va := fetchVa }] } }).task 2).tlb.walks.find? (fun w => w.unit == u)
        = some { unit := u, va := fetchVa }) ∧ (walk State.reset 0 fetchVa).2 = .absent := by decide +kernel
/-- Tables that map the text page at fetchVa, to the text frame with R, W and X. -/
def tables : State :=
  let a := 0x010000100000
  let at_ (i : Nat) (e : Nat) (m : Mem) : Mem := m.wrN i 8 e
  { State.reset.setReg (regAsroot 0) a with
    mem := at_ a (a + 0x10000 + 1) (at_ (a + 0x10000) (a + 0x20000 + 1) (at_ (a + 0x20000) (a + 0x30000 + 1) (at_ (a + 0x30000 + 8) (fetchPa + 31 + 8 * 2 ^ 59) []))) }
theorem witness_tables : (walk tables 0 fetchVa).2 = .leaf leaf := by decide +kernel
-- a full far queue before a piece of the command; a piece for each kind of target
theorem witness_pieces_full : let s := (piecesAt (cmd1 false) [leaf] [piece1 (2 ^ 30) .sent] 0).modChan 1 fun c => { c with farq := List.replicate 64 9 }
    (∃ q ∈ s.pieces, tkey q.core q.bank = 2 ∧ q.own = .cCmd 1 ∧ q.st = .sent ∧ region q.pa = .fast ∧ 64 ≤ (s.chan (chanOf q.pa)).farq.length) := by decide +kernel
theorem witness_pieces_targets : (∀ x ∈ [(2 ^ 30, Region.fast), (0x100000000000, .host), (peerPa 1 / 2 ^ 16 * 2 ^ 16, .peer)],
      region (({ leaf with pa := x.1 } : Leaf).phys fetchVa) = x.2 ∧ placed State.reset { leaf with pa := x.1 } fetchVa = true) := by decide +kernel
-- a piece of the capacity tier in two portions; an earlier piece that writes its bytes; the portion that is the last
theorem witness_replies_units : let p : Machine.Piece := { piece1 (fetchPa + 16) .sent with len := 256 }
    (p.pa % 32 + p.len + 31) / 32 - p.units = 9 ∧ ((p.pa % 32 + p.len + 31) / 32 - ({ p with units := 8 } : Machine.Piece).units ≤ 1)
    ∧ region p.pa = .cap ∧ p.st = .sent ∧ p.units < 9
    ∧ (let q : Machine.Piece := { p with wr := true, id := 2 }
       ∃ w ∈ [({ p with wr := true } : Machine.Piece)], w.wr = true ∧ w.core = q.core ∧ w.bank = q.bank ∧ w.own = q.own ∧ w.st = .sent ∧ w.id < q.id
        ∧ w.pa < q.pa + q.len ∧ q.pa < w.pa + w.len) := by decide +kernel
-- a far request whose send ends now and half a tick later; one that fails, within the slot and past its end; a lost pseudo-channel, lost before the send and by it
def serving (off2 at2 : Nat) (bad : List (List (Nat × Nat))) (lost : Nat) : State :=
  let s := piecesAt (cmd1 false) [leaf] [piece1 (2 ^ 30) .queued] 0
  let s := s.modChan 1 fun c => { c with serving := some (1, at2), slotDone := some (0, 0), busFaults := bad }
  (s.modDie 0 fun d => { d with tick2 := off2, off2 := off2 }).setReg (regTels 1) (lost * 2 ^ 11)
theorem witness_far_sends : let w := 2 * State.reset.windowEnd 0
    ((serving w (w + 1) [] 0).die 0).tick2 < w + 1 ∧ ((serving w w [] 0).chan 1).serving = some (1, w) ∧ (findPiece (serving w w [] 0) 1).isSome = true
    ∧ (paritySend (serving w w [] 0) 1 1 false).2 = [] ∧ (paritySend (serving w w [[(0, 3)]] 0) 1 1 false).2 = [(0, 3)] ∧ isLost (serving w w [] 1) 1 = true
    ∧ isLost (serving w w [[(0, 3)]] 0) 1 = false ∧ isLost (paritySend (serving w w [[(0, 3)]] 0) 1 1 false).1 1 = false
    ∧ slotEnd2 (serving w w [] 0) 1 = w + 80 ∧ w + 32 ≤ w + 80 ∧ w + 80 < w + 56 + 32 ∧ ((serving w w [] 0).chan 0).serving = none := by decide +kernel
-- walks that end in each way: a leaf, no entry, an attribute, a permission, a table that cannot be read, a table of a lost pseudo-channel
def tableOf (e : Nat) : State := { tables with mem := tables.mem.wrN (0x010000130000 + 8) 8 e }
def fastTable (tels : Nat) : State := { State.reset.setReg (regAsroot 0) 0x40000000 |>.setReg (regTels 1) tels with cellFaults := [{ strip := State.reset.stripOf 0x40000000, syms := 2 }] }
theorem witness_walk_ends : (walk (tableOf 0) 0 fetchVa).2 = .absent ∧ (walk (tableOf (fetchPa + 31 + 9 * 2 ^ 59)) 0 fetchVa).2 = .attr
    ∧ (walk (tableOf (0x0F0000000000 + 31)) 0 fetchVa).2 = .perm ∧ (walk (fastTable 0) 0 fetchVa).2 = .bad 0x40000000 ∧ isLost (fastTable 0) 1 = false
    ∧ (walk (fastTable (2 ^ 11)) 0 fetchVa).2 = .bad 0x40000000 ∧ isLost (fastTable (2 ^ 11)) 1 = true ∧ ({ ahead := true } : Walk).ahead = true := by decide +kernel
/-- M executes: the format queue, the depth limit, the words of Easel bank 0, what M has under way, and its tokens. -/
def mstate (fq : List Nat) (depth : Nat) (e : List Nat) (f : MUnit → MUnit) : State :=
  (base .m fun t => { t with csr := { t.csr with mdepth := depth }, m := f t.m }).modMyCore fun c =>
    { c with fq := fq.map (BitVec.ofNat 64), easel := e.zipIdx.foldl (fun m x => Sparse.wr 0 m x.2 (BitVec.ofNat 64 x.1)) [] }
/-- A nest of one step: A at 0 with a pitch of 64, its retirement at 65,536 with a pitch of 512, every count 1. -/
def nest1 : List Nat := [64 * 2 ^ 48, 512 * 2 ^ 48 + 0x10000, 31, 1, 0, 1, 0, 1, 0, 1, 0, 1, 0, 1, 0, 0]
def causeOf (s : State) (f : Nat) : Option Nat := nestCause s (easelWords s.myCore 0) f
-- MatrixWork: M with a nest and without, asked to stop and not, with an empty format queue and a word; each check of the nest at its edge
theorem witness_matrix : let s := mstate [0] 1 nest1 id
    CanSend s ∧ s.cur.eng = .m ∧ s.me.m.run = none ∧ s.me.m.preempt = false ∧ s.myCore.fq = 0 :: [] ∧ (mstate [] 1 [] id).myCore.fq = []
    ∧ (mstate [] 1 [] fun m => { m with run := some {} }).me.m.run.isSome = true ∧ (mstate [] 1 [] fun m => { m with preempt := true }).me.m.preempt = true
    ∧ (mstate [] 1 [] fun m => { m with kept := some {} }).me.m.kept = some {} ∧ s.me.m.kept = none ∧ s.myEng.opn = []
    ∧ (eng .m (fun x => { x with opn := [1] }) s).myEng.opn ≠ [] := by
  refine ⟨send_of (by decide +kernel), by decide +kernel⟩
theorem witness_nest : causeOf (mstate [0] 1 nest1 id) 0 = none ∧ causeOf (mstate [0] 0 nest1 id) 0 = some 115 ∧ causeOf (mstate [0] 1 nest1 id) (2 ^ 18) = some 97
    ∧ causeOf (mstate [0] 1 nest1 id) 4 = some 114 ∧ causeOf (mstate [0] 1 (nest1.set 15 1) id) 0 = some 97
    ∧ causeOf (mstate [0] 1 (nest1.set 0 (64 * 2 ^ 48 + 4)) id) 0 = some 101 ∧ causeOf (mstate [0] 1 (nest1.set 0 (64 * 2 ^ 48 + 0x1FF008)) id) 0 = some 104
    ∧ causeOf (mstate [0] 1 (nest1.set 0 (64 * 2 ^ 48 + 0x1FF000)) id) 0 = none
    ∧ causeOf (mstate [0] 1 (nest1.set 1 (512 * 2 ^ 48)) id) 0 = some 104 := by decide +kernel
def running (r : MRun) (stop : Bool) (drain : Option MCopy) : State := base .m fun t => { t with stop := stop, m := { t.m with run := some r, drain := drain } }
def run1 : MRun := { nest := nest1, per := 1, total := 1, seq := 1 }
theorem witness_nest_runs : liveTask (running run1 false none) 1 = some 2 ∧ liveTask (running run1 false none) 0 = none
    ∧ ((running run1 false none).task 2).m.run = some run1
    ∧ 2 / 2 = 1 ∧ (base .m id |>.task 2).m.run = none ∧ run1.atEnd = false ∧ ((running run1 false none).die (1 / 96)).power.window = none ∧ run1.step % run1.per = 0
    ∧ ((running run1 true none).task 2).stop = true ∧ ((running run1 false none).task 2).m.preempt = false ∧ run1.recheck = false
    ∧ ({ run1 with atEnd := true } : MRun).atEnd = true ∧ (takeCopy {} { run1 with atEnd := true, step := 1 }).final = true ∧ fmtRt (2 ^ 15) = true
    ∧ (takeCopy {} { run1 with total := 2, step := 1 }).final = false ∧ fmtRt 0 = false := by decide +kernel
theorem witness_drain : let s (c : Option MCopy) (marks : List Nat) := base .m fun t => { t with m := { t.m with drain := c, marks := marks } }
    tkey 1 ((s none []).issuing 1) = 2 ∧ ((s none []).task 2).m.drain = none ∧ ((s (some {}) []).task 2).m.drain = some {} ∧ ((s (some {}) []).task 2).m.marks = []
    ∧ copyUnits {} - 1022 = 2 ∧ copyUnits { bf := true } - 511 = 1 := by decide +kernel
theorem witness_drain_last : let c : MCopy := { done := 1023 }
    let n := 1 + Config.freeChoice 0 % (copyUnits c - c.done)
    copyUnits c ≤ c.done + n ∧ ({} : MCopy).done + n < copyUnits {} := by
  refine ⟨?_, ?_⟩
  · show 1024 ≤ 1023 + (1 + Config.freeChoice 0 % (1024 - 1023)); omega
  · show 0 + (1 + Config.freeChoice 0 % (1024 - 1023)) < 1024; omega
-- a reduction with which a record has the mtile go on, the last and past it; a retirement point that a resume has reached; checks that fail and pass on the bank as restored
theorem witness_matrix_again : let s := mstate [] 1 nest1 fun m => { m with again := some (0, 1) }
    s.me.m.again = some (0, 1) ∧ s.me.m.preempt = false ∧ nestTotal nest1 ≤ 1 * nestPer nest1 ∧ ¬ nestTotal nest1 ≤ 0 * nestPer nest1
    ∧ (mstate [0] 1 nest1 id).me.m.again = none
    ∧ (mstate [0] 1 nest1 id).myCore.fq = BitVec.ofNat 64 0 :: [] := by decide +kernel
theorem witness_recheck : let s (d : Nat) : State := (mstate [] d nest1 fun m => { m with run := some { run1 with recheck := true } })
    (let u : State := { s 1 with cur := { (s 1).cur with core := 1, bank := 0, eng := .m } }; nestCause u nest1 0 = none)
    ∧ (let u : State := { s 0 with cur := { (s 0).cur with core := 1, bank := 0, eng := .m } }; nestCause u nest1 0 = some 115)
    ∧ ({ run1 with recheck := true } : MRun).recheck = true ∧ run1.step / run1.per * nestPer nest1 < nestTotal nest1
    ∧ nestTotal nest1 ≤ ({ run1 with step := 1 } : MRun).step / run1.per * nestPer nest1
    ∧ ((mstate [] 1 nest1 fun m => { m with run := some { run1 with per := 2, step := 1 } }).me.m.run.map fun r => r.step % r.per) = some 1 := by decide +kernel

/-- A executes: its registers and the instruction under way. a1 is a table, a2 a list of one index at 64, a3 values at 128; the last ones are ill. -/
def astate (f : AUnit → AUnit) : State := base .a fun t =>
  { t with areg := [(1, 0x1FFFF8), (2, 0x100000040), (3, 128), (4, 4), (5, 0x200000), (6, 64), (7, 0x100000042), (8, 0x1000001FFFFE), (9, 0x100000000), (10, 127), (11, 128), (12, 0x100000044)], a := f t.a }
-- ScatterWork: no instruction under way and one; a table off its element, past its share, at its end; a list without a count, off 4, past the share;
-- values past 2^32, off their size, past the share; a scale of 127 and 128
theorem witness_scatter : let s := astate id
    let w (r : Nat) := (av s r).toNat
    CanSend s ∧ OwnSpad s (w 2 % 2 ^ 32) (4 * 1) ∧ OwnSpad s (w 3) (4 * 1) ∧ OwnSpad s (w 2 % 2 ^ 32) (8 * 1) ∧ s.me.a.ins = none
    ∧ (astate fun a => { a with ins := some {} }).me.a.ins.isSome = true ∧ w 4 % 8 ≠ 0 ∧ w 1 % 8 = 0 ∧ reach s (w 5) 8 = none ∧ reach s (w 1) 8 ≠ none
    ∧ w 6 / 2 ^ 32 % 2 ^ 17 = 0 ∧ ¬ 65536 < w 2 / 2 ^ 32 % 2 ^ 17 ∧ w 2 / 2 ^ 49 = 0 ∧ w 2 / 2 ^ 32 % 2 ^ 17 = 1 ∧ w 7 % 4 ≠ 0 ∧ w 2 % 4 = 0 ∧ 2 ^ 32 ≤ w 9
    ∧ w 3 < 2 ^ 32 ∧ w 3 % 4 = 0 ∧ av s 10 = BitVec.ofInt 64 (sext (w 10) 8) ∧ av s 11 ≠ BitVec.ofInt 64 (sext (w 11) 8) ∧ w 2 % 8 = 0 ∧ w 12 % 8 ≠ 0 :=
  ⟨send_of (by decide +kernel), own_of (by decide +kernel), own_of (by decide +kernel), own_of (by decide +kernel), by decide +kernel⟩
theorem witness_scatter_bad : ¬ OwnSpad (astate id) 0x1FFFFE 4 ∧ ¬ OwnSpad (astate id) 0x1FFFFC 8 := by
  constructor <;> intro h <;> exact absurd ((inShare_iff _ _ _).2 h) (by decide +kernel)
-- a window of 64 elements of 65, the last of 64, with targets in the share and past it; an sa.rd; read-modify-writes that wait and none
def awin (n base : Nat) (op : Nat) : State := astate fun a => { a with ins := some { op := op, ty := 0, base := base, idx := 0x40, n := n } }
theorem witness_windows : liveTask (awin 65 0 0) 1 = some (tkey 1 0)
    ∧ ((awin 65 0 0).task (tkey 1 0)).a.ins = some { op := 0, ty := 0, base := 0, idx := 0x40, n := 65 }
    ∧ (0 : Nat) ≠ 9 ∧ ((awin 65 0 0).task 2).stop = false ∧ ((awin 65 0 0).eng 2 .a).stopped = false ∧ ((awin 65 0 0).die 0).power.window = none
    ∧ (let s := awin 65 0 0
       (windowTargets { s with cur := { s.cur with core := 1, bank := 0, eng := .a } } { op := 0, ty := 0, base := 0, idx := 0x40, n := 65 } (s.core 1) [0, 1]).isSome) = true
    ∧ (let s := awin 65 0x200000 0
       windowTargets { s with cur := { s.cur with core := 1, bank := 0, eng := .a } } { op := 0, ty := 0, base := 0x200000, idx := 0x40, n := 65 } (s.core 1) [0]) = none
    ∧ 64 * (0 + 1) < 65 ∧ 64 ≤ 64 * (0 + 1) ∧ ((awin 1 0 9).task 2).a.ins = some { op := 9, ty := 0, base := 0, idx := 0x40, n := 1 }
    ∧ ((astate id).task 2).a.rmws = [] ∧ ((astate fun a => { a with rmws := [{}] }).task 2).a.rmws ≠ [] := by decide +kernel
-- a window of a record; an sa.rd part done, asked to stop and not; two read-modify-writes, of one unit and of two
theorem witness_scatter_from : (astate fun a => { a with from_ := some 3 }).me.a.from_ = some 3 ∧ (astate id).me.a.from_ = none := by decide +kernel
def reading (val n : Nat) (stop : Bool) : State := (awin n 0 9).modTask 2 fun t => { t with stop := stop, a := { t.a with ins := some { op := 9, ty := 0, base := 0, idx := 0x40, n := n, val := val } } }
theorem witness_scatter_reads : liveTask (reading 64 100 true) 1 = some 2 ∧ ((reading 64 100 true).task 2).stop = true ∧ 64 % 64 = 0 ∧ 60 % 64 ≠ 0
    ∧ ((reading 60 100 false).task 2).stop = false
    ∧ min 100 ((((0 + 4 * 60) / 32 + 1) * 32 - 0) / 4) < 100 ∧ 100 ≤ min 100 ((((0 + 4 * 96) / 32 + 1) * 32 - 0) / 4) := by decide +kernel
theorem witness_scatter_stopped : ((reading 0 65 true).task 2).stop = true
    ∧ ((((awin 65 0 0).modEng 2 .a fun x => { x with stopped := true }).eng 2 .a).stopped) = true
    ∧ ((windowed (awin 65 0 0)).die 0).power.window ≠ none := by decide +kernel

/-- Channel 1: its commands, commands that run, slots, at this offset of beat 0. -/
def chan1 (cmds : List Cmd) (runs : List RunCmd) (slots : Sparse (Option SlotSt)) (off2 tick2 : Nat) : State :=
  ((base .c id).modChan 1 fun c => { c with cmds := cmds, runs := runs, slots := slots }).modDie 0 fun d => { d with off2 := off2, tick2 := tick2 }
def cmdAt (k : CmdKind) (o : Nat) : Cmd := { kind := k, plan := ⟨0, o⟩, seq := 1 }
def rowSlot (w : Bool) : SlotSt := { row := 5, w := w, opened := ⟨0, 0⟩ }
-- SequencerWork: a command half a tick early and on time, one for another beat, a die that does not count; a start that each rule stops and that none does
theorem witness_seq_due : let c := cmdAt (.dref 3) 64
    startDue (chan1 [c] [] [] 127 0) 1 = none ∧ startDue (chan1 [c] [] [] 128 0) 1 = some c ∧ startDue (chan1 [{ c with plan := ⟨1, 0⟩ }] [] [] 128 0) 1 = none
    ∧ startDue ((chan1 [c] [] [] 128 0).modDie 0 fun d => { d with pause := some 9 }) 1 = none := by decide +kernel
def causeAt (k : CmdKind) (o : Nat) (slots : Sparse (Option SlotSt)) (f : State → State) : Option Nat := startCause (f (chan1 [] [] slots (2 * o) 0)) 1 (cmdAt k o)
theorem witness_seq_causes : causeAt (.ia .zero false 0 0 0 0 1) 300 [] id = some 251 ∧ causeAt (.rel 0) 64 [] id = some 250
    ∧ causeAt (.drd 0 0 0 1 0) 64 [(0, some (rowSlot true))] (fun s => s.setReg (regTels 1) (2 ^ 11)) = some 303
    ∧ causeAt (.drd 0 0 0 1 0) 27 [(0, some (rowSlot true))] id = some 250 ∧ causeAt (.drd 0 0 0 1 0) 28 [(0, some (rowSlot true))] id = none
    ∧ causeAt (.dwr 0 0 1 0 []) 64 [(0, some (rowSlot false))] id = some 199 ∧ causeAt (.dwr 0 0 1 0 []) 64 [(0, some (rowSlot true))] id = none
    ∧ causeAt (.rel 0) 51 [(0, some (rowSlot true))] id = some 250 ∧ causeAt (.rel 0) 52 [(0, some (rowSlot true))] id = none
    ∧ causeAt (.opn 0 5 true) 64 [] id = none ∧ causeAt (.opnw 0 5 true) 64 [] id = none ∧ causeAt (.hold 0) 64 [(0, some (rowSlot true))] id = none
    ∧ causeAt (.relw 0) 64 [(0, some (rowSlot true))] id = none ∧ causeAt (.dref 3) 64 [] id = none := by decide +kernel
-- a debt that passes the window's end; in a steep beat, a slot that is not striped, one whose frame is not compute-capable, an infusion that starts
def steepBeats (s : State) : State :=
  { (s.setReg regPlanact (2 ^ 20)).setReg (regPlan 0 0) (2 ^ 16 + 1024) with grid := { s.grid with idle := false } }
def striped16 : Sparse (Option SlotSt) := (List.range 16).map fun b => (8 * b, some (rowSlot true))
theorem witness_seq_late : let s := (chan1 [] [] [(0, some (rowSlot true))] 0 0).modChan 1 fun c => { c with debt := 2000 }
    startCause s 1 (cmdAt (.drd 0 0 0 1 0) 64) = some 252 := by decide +kernel
theorem witness_seq_steep : causeAt (.ia .zero false 0 0 0 0 1) 300 [(0, some (rowSlot true))] steepBeats = some 250
    ∧ causeAt (.ia .zero false 0 0 0 0 1) 300 striped16 steepBeats = some 248
    ∧ causeAt (.ia .zero false 0 0 0 0 1) 28 striped16 (fun s => (steepBeats s).setReg (regPlace 1 0) 1) = none
    ∧ causeAt (.drd 0 0 0 1 0) 300 striped16 steepBeats = some 251 := by decide +kernel
-- a command that completes half a tick later and now, a send, a strip that lands
theorem witness_seq_ends : let r (k : CmdKind) : RunCmd := { cmd := cmdAt k 0, done2 := some 56 }
    let t (k : CmdKind) : RunCmd := { cmd := cmdAt k 0, end2 := 2, good := [0] }
    let l : RunCmd := { cmd := cmdAt (.drd 0 0 0 1 0) 0, done2 := some 122, lands := [(122, 0)] }
    doneDue (chan1 [] [r (.opn 0 5 true)] [] 0 55) 1 = none ∧ (∀ k ∈ [CmdKind.opn 0 5 true, .drd 0 0 0 1 0, .dwr 0 0 1 0 []], doneDue (chan1 [] [r k] [] 0 56) 1 = some (r k))
    ∧ sendDue (chan1 [] [t (.drd 0 0 0 1 0)] [] 0 1) 1 = none ∧ (∀ k ∈ [CmdKind.drd 0 0 0 1 0, .dwr 0 0 1 0 []], sendDue (chan1 [] [t k] [] 0 2) 1 = some (t k))
    ∧ (t (.drd 0 0 0 1 0)).send2 = none ∧ (t (.drd 0 0 0 1 0)).fails = 0 ∧ ((chan1 [] [] [] 0 0).chan 1).busFaults = [] ∧ ((chan1 [] [] [] 0 0).chan 1).fails = []
    ∧ landDueOf (chan1 [] [l] [] 0 121) 1 = none ∧ landDueOf (chan1 [] [l] [] 0 122) 1 = some (l, (122, 0)) := by decide +kernel
-- a freeze that is due; a transfer on a folded bus; sends that fail, that fold the pseudo-channel, that lose it; a further send in the beat and past its window
theorem witness_seq_freeze : let s := chan1 [cmdAt (.dref 3) 64] [] [] 128 0
    let f : State := { s with grid := { s.grid with freezes := [{ id := 1, at_ := ⟨0, 64⟩, len := 96 }] } }
    freezeDue s 0 = none ∧ (freezeDue f 0).isSome = true ∧ startDue f 1 = none := by decide +kernel
def sender (o n : Nat) (tels : Nat) (faults : List (List (Nat × Nat))) (old : Sparse (Nat × Nat)) (send2 : Option Nat) : State :=
  let r : RunCmd := { cmd := cmdAt (.drd 0 0 0 n 0) o, end2 := 2 * o, good := [0], send2 := send2 }
  ((chan1 [] [r] [] (2 * o) (2 * o)).modChan 1 fun c => { c with busFaults := faults, fails := old }).setReg (regTels 1) tels
theorem witness_seq_fails : let s := sender 64 1 0 [[(0, 3)]] [] none
    (sendDue s 1).isSome = true ∧ (paritySend s 1 1 false).2 = [(0, 3)] ∧ isLost (paritySend s 1 1 false).1 1 = false
    ∧ foldOf (paritySend (sender 64 1 0 [[(0, 3)]] [(3, 2, 0)] none) 1 1 false).1 1 = 1
    ∧ isLost (paritySend (sender 64 1 0 [[(0, 3), (0, 5)]] [(3, 2, 0), (5, 2, 0)] none) 1 1 false).1 1 = true ∧ foldOf (sender 64 1 256 [] [] none) 1 = 1
    ∧ (sendDue (sender 64 1 0 [] [] (some 128)) 1).isSome = true := by decide +kernel
theorem witness_seq_over : let r (o : Nat) : RunCmd := { cmd := cmdAt (.drd 0 0 0 1 0) o, start := ⟨0, o⟩ }
    sendOver (sender 64 1 0 [] [] none) 1 (2 * 80) (r 64) = false ∧ sendOver (sender 64 1 0 [] [] none) 1 (2 * 1024) (r 64) = true := by decide +kernel
/-- Die 0 after power-up with a field set. -/
def die0 (f : Die → Die) : State := State.reset.modDie 0 f
-- GridWork: a beat half a tick before its end and at it, in a pause, aligned with a pause of 0 and of 8 ticks
theorem witness_beat : ((die0 fun d => { d with off2 := 2047 }).die 0).off2 < 2 * State.reset.lenOf 0
    ∧ 2 * State.reset.lenOf 0 ≤ ((die0 fun d => { d with off2 := 2048 }).die 0).off2 ∧ ((die0 id).die 0).freeze = none ∧ ((die0 id).die 0).pause = none
    ∧ aligned State.reset 0 = false ∧ aligned { State.reset with grid := { aligns := [1] } } 0 = true ∧ pauseOf State.reset 0 = 0
    ∧ pauseOf (die0 fun d => { d with est := [(1, 17)] }) 0 = 8 ∧ pauseOf (die0 fun d => { d with est := [(1, 1)] }) 0 = 0
    ∧ ((die0 fun d => { d with pause := some 9 }).die 0).pause = some 9
    ∧ ((die0 fun d => { d with tick2 := 8 }).die 0).tick2 < 9 ∧ 9 ≤ ((die0 fun d => { d with tick2 := 9 }).die 0).tick2 := by decide +kernel
-- a beacon 1,023 and a half ticks after the last and 1,024; one 23 and a half ticks old and 24; a common opening and none; a neighbour silent for 8,192 ticks
def beacon1 (opens : List (Nat × Nat)) : Beacon := { dst := 0, sent2 := 0, opens := opens }
def heardFrom (b : Beacon) (t : Nat) : State := (State.reset.modDie 1 fun d => { d with beacons := [b], tick2 := t }).modDie 0 fun d => { d with opens := [(0, 0)], tick2 := 48 }
theorem witness_beacon : ((die0 fun d => { d with tick2 := 2047 }).die 0).tick2 < 0 + 2048 ∧ 0 + 2048 ≤ ((die0 fun d => { d with tick2 := 2048 }).die 0).tick2
    ∧ arrived (heardFrom (beacon1 []) 47) 0 1 = none ∧ arrived (heardFrom (beacon1 []) 48) 0 1 = some (beacon1 [])
    ∧ lagOf (heardFrom (beacon1 []) 48) 0 (beacon1 []) = none
    ∧ lagOf (heardFrom (beacon1 [(0, 14)]) 48) 0 (beacon1 [(0, 14)]) = some (-14) ∧ (-14 / 2 : Int).natAbs < 8 := by decide +kernel
def silent (t : Nat) : State := State.reset.modDie 1 fun d => { d with tick2 := t }
theorem witness_liveness : (∃ e < 8, hops 0 e = 1 ∧ ((silent 16384).die e).fenced = false ∧ Sparse.rd 0 ((silent 16384).die e).heard 0 + 16384 ≤ ((silent 16384).die e).tick2)
    ∧ ((silent 16384).die 0).fenced = false
    ∧ ¬ ∃ e < 8, hops 0 e = 1 ∧ ((silent 16383).die e).fenced = false
    ∧ Sparse.rd 0 ((silent 16383).die e).heard 0 + 16384 ≤ ((silent 16383).die e).tick2 := by decide +kernel
-- a refresh group 321 ticks before its deadline and 320, checked and not, with a dref to come, a freeze to join, a slip at BLIM and past it
def refreshing (ticks : Nat) (checked : Bool) (f : Chan → Chan) (g : Grid → Grid) : State :=
  let s := (base .c id).modChan 1 fun c => f { c with refresh := [(3, some { deadline := 400, last := 0, checked := checked })] }
  { s.modDie 0 fun d => { d with tick2 := 2 * ticks, off2 := 2 * ticks } with grid := g s.grid }
theorem witness_refresh : ownedBy (refreshing 80 false id id) 1 = some 2 ∧ ownedBy State.reset 1 = none ∧ (refreshOf (refreshing 80 true id id) 1 3).checked = true
    ∧ (refreshOf (refreshing 80 false id id) 1 3).checked = false
    ∧ ((refreshing 79 false id id).die (1 / 96)).tick2 / 2 + 320 < (refreshOf (refreshing 79 false id id) 1 3).deadline
    ∧ (refreshOf (refreshing 80 false id id) 1 3).deadline ≤ ((refreshing 80 false id id).die (1 / 96)).tick2 / 2 + 320
    ∧ drefComes (refreshing 80 false id id) 1 3 (refreshOf (refreshing 80 false id id) 1 3) = false
    ∧ drefComes (refreshing 80 false (fun c => { c with cmds := [{ kind := .dref 3, plan := ⟨0, 336⟩ }] }) id) 1 3 { deadline := 400 } = true
    ∧ drefComes (refreshing 80 false (fun c => { c with cmds := [{ kind := .dref 3, plan := ⟨0, 337⟩ }] }) id) 1 3 { deadline := 400 } = false
    ∧ joinable (refreshing 80 false id id) 1 (400 - 64 - 80) = none
    ∧ joinable (refreshing 80 false id fun g => { g with freezes := [{ id := 1, at_ := ⟨0, 300⟩, len := 96 }] }) 1 (400 - 64 - 80) = some { id := 1, at_ := ⟨0, 300⟩, len := 96 } := by
  decide +kernel
theorem witness_blim : State.reset.reg regBlim % 2 ^ 12 = 1024 ∧ slipOf { State.reset with grid := { slip := [(0, 928)] } } 0 + (96 + 0) ≤ 1024
    ∧ 1024 < slipOf { State.reset with grid := { slip := [(0, 929)] } } 0 + (96 + 0) := by decide +kernel
-- a freeze that is due and none, a forced refresh 96 ticks and a half before the end and 96, the end of a freeze, a deadline reached and one tick before
def frozen (z : Option (Nat × Nat × Nat)) (refs : List (Nat × Nat)) (off2 tick2 : Nat) : State :=
  let s := die0 fun d => { d with off2 := off2, tick2 := tick2, freeze := z }
  { s with grid := { freezes := [{ id := 1, at_ := ⟨0, 300⟩, len := 96, refs := refs, begun := if z.isSome then [0] else [] }] } }
theorem witness_freeze : freezeDue (frozen none [] 599 0) 0 = none ∧ (freezeDue (frozen none [] 600 0) 0).isSome = true
    ∧ forcedDue (frozen (some (1, 0, 192)) [(1, 3)] 600 0) 1 = some ({ id := 1, at_ := ⟨0, 300⟩, len := 96, refs := [(1, 3)], begun := [0] }, 3)
    ∧ forcedDue (frozen (some (1, 0, 193)) [(1, 3)] 600 0) 1 = none ∧ ((frozen (some (1, 0, 192)) [(1, 3)] 600 191).die 0).freeze = some (1, 0, 192)
    ∧ ((frozen (some (1, 0, 192)) [(1, 3)] 600 191).die 0).tick2 < 192 ∧ 192 ≤ ((frozen (some (1, 0, 192)) [(1, 3)] 600 192).die 0).tick2
    ∧ ((frozen none [] 0 0).die 0).freeze = none := by decide +kernel
def plain (ticks : Nat) : State := (State.reset.modChan 1 fun c => { c with refresh := [(3, some { deadline := 400 })] }).modDie 0 fun d => { d with tick2 := 2 * ticks }
theorem witness_plain : plainDue (plain 399) 1 3 = false ∧ plainDue (plain 400) 1 3 = true := by decide +kernel
-- a row to open again, now and half a tick later; a stack at 85 and 86 degrees, at 83 and 82 when hot, 800,000 ticks after its last change and before
theorem witness_reopen : let y : SavedRow := { x := 3, row := 5 }
    let s (t : Nat) := (State.reset.modChan 1 fun c => { c with reopen := [(⟨0, 32⟩, false, [y])] }).modDie 0 fun d => { d with off2 := t }
    reopenDue (s 63) 1 = none ∧ reopenDue (s 64) 1 = some (⟨0, 32⟩, false, [y])
    ∧ reopenDue ((s 64).modDie 0 fun d => { d with pause := some 9 }) 1 = none := by decide +kernel
def warm (hot : Bool) (since : Option Nat) (tick : Nat) : State := (State.reset.modStack 0 fun z => { z with hot := hot, since := since }).modDie 0 fun d => { d with tick2 := 2 * tick }
theorem witness_hot : ((warm false none 0).stack 0).since = none ∧ ((warm true (some 5) 0).stack 0).since = some 5 ∧ ((warm false none 0).stack 0).hot = false
    ∧ ((warm true none 0).stack 0).hot = true ∧ 5 + 800000 ≤ ((warm true (some 5) 800005).die (0 / 2)).tick2 / 2
    ∧ ¬ 5 + 800000 ≤ ((warm true (some 5) 800004).die (0 / 2)).tick2 / 2
    ∧ 85 < 86 ∧ ¬ 85 < 85 ∧ 82 < 83 ∧ ¬ 83 < 83 := by decide +kernel
-- a strip that must land before the beat closes; estimates that turn by no pause and by one of 8 ticks; a die whose master is another and the next
theorem witness_beat_lands : let s (l : List (Nat × Nat)) := (die0 fun d => { d with off2 := 2048, tick2 := 2048 }).modChan 1 fun c => { c with runs := [{ cmd := { kind := .drd 0 0 0 1 0 }, lands := l }] }
    landsOn (s [(2048, 0)]) 0 = true ∧ landsOn (s []) 0 = false ∧ landsOn (s [(2049, 0)]) 0 = false := by decide +kernel
theorem witness_master : masterDie State.reset = 0 ∧ masterDie (die0 fun d => { d with fenced := true }) = 1
    ∧ (hops 0 1 = 1 ∧ hops 0 5 = 1 + hops 1 5) := by decide +kernel
-- a dref of the open beat, which its debt delays, and of the next, which it does not
theorem witness_dref_debt : let c (b o : Nat) (debt : Nat) := drefComes (refreshing 80 false (fun c => { c with debt := debt, cmds := [{ kind := .dref 3, plan := ⟨b, o⟩ }] }) id) 1 3 { deadline := 400 }
    c 0 330 6 = true ∧ c 0 330 7 = false ∧ c 0 336 0 = true := by decide +kernel
-- a freeze whose refreshes are done, that every die has been through
theorem witness_freeze_through : let f : Freeze := { id := 1, begun := List.range 8 }
    f.refs = [] ∧ f.begun.length = 8 ∧ ((List.range 8).all fun e => match (State.reset.die e).freeze with | some q => q.1 != f.id | none => true) = true := by decide +kernel

/-- Tables of the node at the start of the capacity tier: node ID 1 is reached by port 1, entry 0 of the exported window is e. -/
def noded (e : Nat) : State :=
  let s := (State.reset.setReg regRoutebase 0x010000000000).setReg regExpbase (0x010000080000 + 1)
  { s with mem := Mem.wrN (Mem.wrN [] 0x010000000000 8 0x8100) 0x010000080000 8 e, dist := { s.dist with config := [0, 2, 0] } }
def frameEntry : Nat := 2 ^ 62 + 3 * 2 ^ 60 + fetchPa
def spadEntry : Nat := 2 ^ 63 + 3 * 2 ^ 60 + 5 * 2 ^ 32 + 3 * 2 ^ 16
-- NodeWork: another device with and without a route, an entry that admits nothing, one for each tier, one for a scratchpad, one for a hole
theorem witness_node : nodeId (noded 0) = 0 ∧ (routePort (noded 0) 1).2 = some 1 ∧ (routePort (noded 0) 2).2 = none ∧ (1 : Nat) ≠ nodeId (noded 0)
    ∧ (exportEntry (noded 0) 0x40 true).2 = none ∧ (exportEntry (noded frameEntry) 0x40 true).2 = some frameEntry ∧ frameEntry / 2 ^ 62 = 1
    ∧ region (slice frameEntry 16 36 * 2 ^ 16 + 0x40 % 65536) = .cap
    ∧ (exportEntry (noded (frameEntry - fetchPa + 2 ^ 36)) 0x40 true).2 = some (frameEntry - fetchPa + 2 ^ 36)
    ∧ (exportEntry (noded spadEntry) 0x40 false).2 = some spadEntry ∧ spadEntry / 2 ^ 62 ≠ 1 ∧ slice spadEntry 32 10 = 5
    ∧ bitOf ((noded spadEntry).reg regRlbase) 0 = false := by decide +kernel
theorem witness_node_hole : (exportEntry (noded (frameEntry - fetchPa + 0x00D000000000)) 0x40 true).2 = none := by decide +kernel
-- no piece, a piece elsewhere, a piece for node device 1 of a task and of a frame
def peerPiece (own : PieceOf) (pa : Nat) : Machine.Piece := { id := 1, own := own, pa := pa, len := 8 }
theorem witness_node_pieces : let s (p : Machine.Piece) : State := { State.reset with pieces := [p] }
    findPiece State.reset 1 = none ∧ findPiece (s (peerPiece .sLoad 0)) 1 = some (peerPiece .sLoad 0) ∧ region 0 ≠ .peer
    ∧ region (2 ^ 51 + 2 ^ 32) = .peer ∧ slice (2 ^ 51 + 2 ^ 32) 32 18 = 1 ∧ PieceOf.outside .sLoad = false ∧ PieceOf.outside (.frame 0 0 0) = true
    ∧ (∀ q ∈ (s (peerPiece .sLoad 0)).pieces, ¬ (region q.pa = .peer ∧ slice q.pa 32 18 = 1 ∧ q.st = .sent)) := by decide +kernel
-- a route table outside the tiers; frames that wait for an earlier one of their source; an answer for the oldest of two pieces, one behind a write, one that is none's
theorem witness_node_order : inTiers (0x0F0000000000 : Nat) = false ∧ inTiers (0x010000000000 : Nat) = true
    ∧ (∃ q ∈ ({ State.reset with pieces := [peerPiece (.frame 1 5 0) fetchPa] } : State).pieces, ∃ a c, q.own = .frame a 5 c)
    ∧ (∀ w ∈ State.reset.dist.waiting, w.1.src ≠ 5) ∧ ¬ (∀ w ∈ [(({ src := 5 } : Frame), 0)], w.1.src ≠ 5) :=
  ⟨by decide +kernel, by decide +kernel, ⟨_, List.mem_singleton.2 rfl, 1, 0, rfl⟩, fun _ h => (by cases h), fun h => h _ (List.mem_singleton.2 rfl) rfl⟩
theorem witness_node_answers : let p (id : Nat) (wr : Bool) : Machine.Piece := { peerPiece .sStore (peerPa 1) with id := id, wr := wr }
    (∀ id ∈ [1, 2], region (p id true).pa = .peer ∧ (p id true).pa / 2 ^ 32 % 2 ^ 18 = 1 ∧ (p id true).pa % 2 ^ 32 = 0x40 ∧ (p id true).st = .sent)
    ∧ (∃ q ∈ [p 1 true], q.wr = true ∧ q.core = (p 2 true).core ∧ q.bank = (p 2 true).bank ∧ q.own.outside = (p 2 true).own.outside ∧ q.st = .sent ∧ q.id < (p 2 true).id)
    ∧ ¬ (p 2 false).wr = true ∧ (2 : Nat) ≠ 0 ∧ (0 : Nat) ≠ 2 := by decide +kernel

/-- The task of the gang has retired exit; a row line is open or not, and another task is left or not. -/
def leaving (did open_ two : Bool) : State :=
  let s := (base .s fun t => { t with s := { t.s with ended := did }, engs := [] })
  let s := if two then s.modGang 1 fun g => { g with tasks := [2, 4] } else s
  if open_ then s.modChan 1 fun c => { c with slots := [(0, some {})] } else s
theorem witness_task_end : State.reset.gangOf (tkey 1 0) = none ∧ ((leaving true false false).gangOf (tkey 1 0)).any (fun g => g.st == .attached) = true
    ∧ taskOver (leaving false false false) 2 = false ∧ taskOver (leaving true false false) 2 = true ∧ slotAt (leaving true true false) 1 0 ≠ none
    ∧ (∀ x < 128, slotAt (leaving true false false) 1 x = none) ∧ ((leaving true false false).task 2).s.succ = none
    ∧ ((leaving true false false).gangOf 2).any (fun g => ({ g with gone := [2] } : Gang).live == []) = true
    ∧ ((leaving true false true).gangOf 2).any (fun g => ({ g with gone := [2] } : Gang).live != []) = true := by decide +kernel
-- LaunchWork: a queue of 2 packets whose tail stands 2 and 3 ahead of its head, of the sizes 0, 16 and 17
def queue (size head tail ctl : Nat) : State :=
  (((State.reset.setReg (regQueue 0 3) size).setReg (regQueue 0 3 + 0x10) head).setReg (regQueue 0 3 + 8) tail).setReg (regQueue 0 3 + 0x18) ctl
def passedTail (size head t : Nat) : Bool :=
  let m := (queue size head 0 0).setReg (regQueue 0 3 + 8) (t % 2 ^ 32)
  decide (1 ≤ size ∧ size ≤ 16 ∧ 2 ^ size < (t % 2 ^ 32 + 2 ^ 32 - m.reg (regQueue 0 3 + 0x10) % 2 ^ 32) % 2 ^ 32)
    && !bitOf (m.reg regRlbase) 0 && m.reg (regQueue 0 3) % 32 == size
theorem witness_tails : passedTail 1 0 2 = false ∧ passedTail 1 0 3 = true ∧ passedTail 16 (2 ^ 32 - 1) 65536 = true ∧ passedTail 16 (2 ^ 32 - 1) 65535 = false
    ∧ passedTail 17 0 (2 ^ 20) = false
    ∧ bitOf ((queue 1 0 0 4).reg (regQueue 0 3 + 0x18)) 2 = true ∧ bitOf ((queue 1 0 0 3).reg (regQueue 0 3 + 0x18)) 2 = false := by decide +kernel
-- a queue that is empty and one with a packet: without a table, with one; whose record is misaligned, whose count of gangs is 0, which serves
def packet (record ngangs : Nat) : State :=
  let ws := [fetchVa, 0, ngangs, 1, 0, 0, 0, record]
  let s := (((tables.setReg (regQueue 0 3) (fetchVa + 1)).setReg (regQueue 0 3 + 8) 1).setReg (regQueue 0 3 + 0x18) 1).setReg regBootctl 2
  { s with mem := s.mem.wrList fetchPa (ws.flatMap (natToBytes 8)) }
def packetLaunch (s : State) : Launch := { id := s.dist.next, vf := 0, q := 3, words := (fetchPacket s 0 3).2.getD [], readBeat := 0, order := 0 }
theorem witness_packets : let s := packet (fetchVa + 64) 1
    canRead (queue 1 0 0 1) 0 3 = false ∧ canRead s 0 3 = true ∧ (fetchPacket s 0 3).2 = some [fetchVa, 0, 1, 1, 0, 0, 0, fetchVa + 64]
    ∧ (recordOk s 0 (packetLaunch s)).2 = true ∧ rejectReason (packetLaunch s) = none
    ∧ (recordOk (packet (fetchVa + 65) 1) 0 (packetLaunch (packet (fetchVa + 65) 1))).2 = false ∧ rejectReason (packetLaunch (packet (fetchVa + 64) 0)) = some 5
    ∧ inputFailed s (packetLaunch s) = false ∧ canRead (s.setReg (regAsroot 0) 0) 0 3 = true
    ∧ (fetchPacket (s.setReg (regAsroot 0) 0) 0 3).2 = none := by decide +kernel
-- a packet that cannot be read, by its page or by its strip; a record whose page is not mapped; a drain that is over and not
theorem witness_packets_read : let s := packet (fetchVa + 64) 1
    (recordOk (packet 0x7000000 1) 0 (packetLaunch (packet 0x7000000 1))).2 = false ∧ (vfPhys s 0 (fetchVa + 64) 1).2 = some (fetchPa + 64)
    ∧ (vfPhys s 0 0x7000000 1).2 = none
    ∧ (match (physRead { State.reset with cellFaults := [{ strip := State.reset.stripOf 0x40000000, syms := 2 }] } 0x40000000 64 2).2 with | .error a => a == 0x40000000 | .ok _ => false) = true
    ∧ (fetchPacket (queue 0 0 0 1) 0 3).2 = none ∧ (fetchPacket (queue 17 0 0 1) 0 3).2 = none := by decide +kernel
theorem witness_successor : (((leaving true false false).modTask 2 fun t => { t with s := { t.s with succ := some [fetchVa, 0, 16] } }).task 2).s.succ = some [fetchVa, 0, 16] := by
  decide +kernel
-- a plan of one entry of 31 ticks and of 32, of no entry, of 257; a machine-check log; an invalidation that is done, has begun, and waits for a command
theorem witness_plans : entryValid 31 = false ∧ entryValid 32 = true ∧ entryValid 8191 = true ∧ entryValid 8192 = false ∧ entryValid (32 + 2 ^ 24) = false
    ∧ entryValid (72 + 2 ^ 24) = true ∧ (0x10 : Nat) / 2 ^ 4 % 2 ^ 9 = 1 ∧ (0 : Nat) / 2 ^ 4 % 2 ^ 9 = 0 ∧ ¬ 257 * 2 ^ 4 / 2 ^ 4 % 2 ^ 9 ≤ 256
    ∧ bitOf (State.reset.reg (regAsinv 3)) 63 = true ∧ bitOf ((State.reset.setReg (regAsinv 3) 0).reg (regAsinv 3)) 63 = false := by decide +kernel
def invalidating (id : Nat) : State :=
  let s := (base .c fun t => { t with c := { t.c with cmds := [{ id := id }] } }).setReg (regAsinv 0) 0
  { s with dist := { s.dist with asinv := [(0, [(2, some 1, 4)])] } }
def invalidated (s : State) : Prop :=
  ∀ m ∈ Sparse.rd [] s.dist.asinv 0, (s.task m.1).gang ≠ m.2.1 ∨ ∀ c ∈ (s.task m.1).c.cmds, m.2.2 < c.id
theorem witness_asinv : invalidated (invalidating 5) ∧ ¬ invalidated (invalidating 4)
    ∧ invalidated ((invalidating 4).modTask 2 fun t => { t with gang := some 7 }) := by
  unfold invalidated; decide +kernel
/-- Queue 3 runs with one launch read: a gang of n tasks on virtual die 0, with these bits in word 4 and these shares. -/
def launched (n w4 w5 ctl : Nat) (f : Launch → Launch) : Launch × State :=
  let l := f { id := 1, q := 3, words := [fetchVa, 0, 1, n, w4, w5, 0, fetchVa + 64] }
  let s := (State.reset.setReg regBootctl 2).setReg (regQueue 0 3 + 0x18) ctl
  (l, { s with dist := { s.dist with launches := [l], next := 2 } })
-- Scheduling: a ticket that is none, pending in each way, kept, and unknown
theorem witness_tickets : let s := { State.reset with dist := { State.reset.dist with launches := [{ words := [0, 0, 5 * 2 ^ 32] }], jobs := [(0, 6)], scoreboard := [(0, [(7, 2)])] }, pieces := [{ own := .record 0 8 }] }
    (∃ z ∈ s.dist.launches, z.vf = 0 ∧ z.ticket = 5) ∧ (0, 6) ∈ s.dist.jobs ∧ (∃ z ∈ s.pieces, z.own = .record 0 8 ∧ z.st = .sent)
    ∧ (Sparse.rd [] s.dist.scoreboard 0).find? (fun z => z.1 == 7) = some (7, 2) ∧ ticketStatus s 0 9 = some 1
    ∧ (∀ z ∈ Sparse.rd [] s.dist.scoreboard 0, z.1 ≠ 9) := by decide +kernel
-- a queue that presents a launch and one that presents none; running, in drain and off; an input that is pending; another plan slot
theorem witness_eligible : let s (ctl : Nat) (f : Launch → Launch) := launched 1 0 0 ctl f
    presented (s 1 id).2 0 3 = some (s 1 id).1 ∧ presented (s 1 id).2 0 4 = none ∧ eligible (s 1 id).2 (s 1 id).1 = true ∧ eligible (s 0 id).2 (s 0 id).1 = false
    ∧ eligible (s 2 id).2 (s 2 id).1 = false ∧ eligible (s 2 fun l => { l with issued := 1, again := [0] }).2 (s 2 fun l => { l with issued := 1, again := [0] }).1 = true
    ∧ eligible (launched 1 (2 ^ 12) 0 1 id).2 (launched 1 (2 ^ 12) 0 1 id).1 = false
    ∧ presented (s 1 fun l => { l with fail := some 3 }).2 0 3 = none := by decide +kernel
-- placements: 95 tasks on die 0 with the core of the management firmware out, 96 on another, pinned; bank 1 over a bank-0 gang, and its shares too large
theorem witness_placement : let s (n w4 : Nat) := launched n w4 0 1 id
    (placement (s 95 0).2 (s 95 0).1 false []).isSome = true ∧ (placement (s 95 256).2 (s 95 256).1 false []).isSome = true
    ∧ placement (s 96 256).2 (s 96 256).1 false [] = none
    ∧ ((placement (s 96 0).2 (s 96 0).1 false []).map fun p => p.head?) = some (some (96, 0)) ∧ (s 95 256).1.pinned = true ∧ (s 95 0).1.pinned = false
    ∧ coreFree (s 1 0).2 (s 1 0).1 0 = false ∧ coreFree (s 1 0).2 (s 1 0).1 1 = true := by decide +kernel
theorem witness_placement_bank : let l (f : Nat) : Launch := { words := [0, 0, 0, 1, 512, f * 256] }
    coreFree (base .s id) (l 0) 1 = true ∧ coreFree (base .s id) (l 1) 1 = false ∧ coreFree (base .s id) (l 0) 2 = false ∧ (l 0).bank ≠ 0
    ∧ coreFree (base .s id) { words := [0, 0, 0, 1] } 1 = false
    ∧ coreFree (base .s id) { words := [0, 0, 0, 1] } 2 = true ∧ placement (base .s id) (l 1) false [] = none := by decide +kernel
-- ranks: a level, a use, a queue and an order that decide; a launch that reserves, from 16,384 beats at level 3 on
theorem witness_ranks : let x : Launch := {}
    ranksBefore State.reset 5000 { x with readBeat := 0 } { x with readBeat := 4999 } = true
    ∧ ranksBefore (State.reset.setReg (regVfuse 1) 5) 1 x { x with vf := 1 } = true
    ∧ ranksBefore State.reset 1 x { x with q := 1 } = true ∧ ranksBefore State.reset 1 x { x with order := 1 } = true
    ∧ reserves { (launched 1 0 0 1 id).1 with level3 := some 0 } 16384 = true ∧ reserves { (launched 1 0 0 1 id).1 with level3 := some 0 } 16383 = false
    ∧ (reservations { (launched 1 0 0 1 id).2 with dist := { launches := [{ (launched 1 0 0 1 id).1 with level3 := some 0 }] } } 16384) = [(1, [1])] := by decide +kernel
theorem witness_choose : let s := launched 1 0 0 1 id
    chooseLaunch s.2 5 = some (s.1, [(1, 0)]) ∧ chooseLaunch State.reset 5 = none ∧ s.2.reg regBootctl % 4 = 2
    ∧ State.reset.reg regBootctl % 4 ≠ 2 := by decide +kernel
-- a gang at its start: before it, its launch gone, failed, a successor's, with windows and with a list that is too long; bank 1 over a bank 0 that issues
def issuedGang (f : Gang → Gang) (r : Nat) (l : Launch → Launch) : Gang × State :=
  let g := f { id := 9, launch := 1, tasks := [2], start := 7 }
  let s := (launched 1 0 0 1 l).2.setReg (regPwlist 0) r
  (g, { s with dist := { s.dist with gangs := [g] } })
theorem witness_attach : let s := issuedGang id 0 id
    s.1.st = .issued ∧ s.1.start = 7 ∧ (launchOf s.2 1).isSome = true ∧ launchOf State.reset 1 = none ∧ (windowsOf s.2 0).2 = some []
    ∧ (windowsOf (issuedGang id 513 id).2 0).2 = none
    ∧ (issuedGang (fun g => { g with succ := some [] }) 0 id).1.succ ≠ none ∧ bankZeroRuns s.2 s.1 = false ∧ bankZeroRuns (base .s id) { tasks := [3] } = true
    ∧ ((3 : Nat) % 2 = 1)
    ∧ ((launchOf (issuedGang id 0 fun l => { l with fail := some 2 }).2 1).any fun l => l.fail != none) = true := by decide +kernel
-- a resume that may begin its span here, at once or with rows to open again, and one that a bank-1 gang holds up
def resuming (rows : List SavedRow) (bank1 : Bool) : Gang × State :=
  let s := (base .s fun t => { t with saved := rows, stop := true }).modGang 1 fun g => { g with st := .detached, cut := { g.cut with answered := true } }
  let s : State := if bank1 then { s with dist := { s.dist with gangs := s.dist.gangs ++ [{ id := 5, tasks := [3], st := .attached }] } } else s
  ((s.gang 1).getD {}, s)
theorem witness_rebase : rebaseBeat (resuming [] false).2 (resuming [] false).1 4 = some 4 ∧ rebaseBeat (resuming [] true).2 (resuming [] true).1 4 = none
    ∧ rebaseBeat (resuming [{ x := 3, row := 5 }] false).2 (resuming [{ x := 3, row := 5 }] false).1 4 = some 5 ∧ spanStart State.reset 64 5 29 = 4
    ∧ refreshOwed (resuming [] false).2 (resuming [] false).1 = false := by
  decide +kernel

/-- A gang with one task in this place, with this cut, its task stopped or not. -/
def cutting (st : GangSt) (stop : Bool) (cut : CutInfo) : State :=
  (base .s fun t => { t with stop := stop }).modGang 1 fun g => { g with st := st, cut := cut }
-- StopsAndCopies: a gang that is attached, one that detaches whose task has been reached and not; a cut that is ready and not, with and without a record area
theorem witness_stops : ((cutting .attached false {}).gangOf 2).any (fun g => g.st != .detaching) = true
    ∧ ((cutting .detaching false {}).gangOf 2).any (fun g => g.st == .detaching) = true
    ∧ ((cutting .detaching true {}).task 2).stop = true ∧ ((cutting .detaching false {}).task 2).stop = false ∧ State.reset.gang 1 = none
    ∧ (((cutting .detaching false {}).gang 1).any fun g => !cutReady (cutting .detaching false {}) g) = true
    ∧ (((cutting .detaching true {}).gang 1).any fun g => cutReady (cutting .detaching true {}) g) = true := by decide +kernel
def cutOf (s : State) : Option Gang := match s.gang 1 with
  | some g => (takeCut s g).gang 1
  | none => none
theorem witness_cuts : ((cutOf (cutting .detaching true {})).any fun h => h.cut.ends == none && !h.cut.written) = true
    ∧ ((cutOf (cutting .detaching true { ends := some 2 })).any fun h => h.cut.ends == some 2) = true := by decide +kernel
theorem witness_cuts_written : let s := (cutting .detaching true {}).setReg (regCutbase 0) (0x010080000000)
    (s.gang 1).any (fun g => recordAt s g.vf 2 == some (0x010080000000 + 2 * 0x100000) && g.live == [2] && !(s.die (2 / 2 / 96)).fenced) = true := by decide +kernel
-- CUTCMD: each operation on a gang that halts, on one that is attached, on none
def pick (s : State) (ok : Gang → Bool) : Option Gang := (s.dist.gangs.find? fun g => g.vf == 0 && g.live.contains (tkey (1 % 2 ^ 10) 0) && ok g).or
  (s.dist.gangs.find? fun g => g.vf == 0 && g.live.contains (tkey (1 % 2 ^ 10) 1) && ok g)
def halts (g : Gang) : Bool := g.st == .detaching || g.st == .detached
theorem witness_cutcmd :
    (2 ^ 62 + 1 : Nat) / 2 ^ 62 = 1 ∧ slice (2 ^ 62 + 1) 10 52 = 0 ∧ (3 * 2 ^ 62 + 1 : Nat) / 2 ^ 62 = 3 ∧ pick (cutting .attached false {}) halts = none
    ∧ (pick (cutting .detached true {}) halts).any (fun g => g.st == .detached) = true
    ∧ (pick (cutting .detaching true {}) halts).any (fun g => g.st != .detached) = true
    ∧ (pick (cutting .attached false {}) fun g => g.st == .attached).isSome = true
    ∧ pick (cutting .detached true {}) (fun g => g.st == .attached) = none := by decide +kernel
-- a copy engine with a descriptor and without, of size 0, 12 and 13; a job half done, done, and rejected, whose completion word lies in the capacity tier
def copying (size tail : Nat) (j : Option CeJob) : State :=
  ((State.reset.setReg (regCe 0) (0x010000000000 + size)).setReg (regCe 0 + 8) tail).modDie 0 fun d => { d with ce := j }
def waits (size tail : Nat) (j : Option CeJob) : Bool :=
  let s := copying size tail j
  let ring := s.reg (regCe 0)
  decide ((s.die 0).ce = none ∧ 1 ≤ ring % 16 ∧ ring % 16 ≤ 12 ∧ s.reg (regCe 0 + 8) ≠ s.reg (regCe 0 + 16))
theorem witness_copies : waits 12 1 none = true ∧ waits 13 1 none = false ∧ waits 0 1 none = false ∧ waits 12 0 none = false ∧ waits 12 1 (some {}) = false
    ∧ region (slice (0x010000000000 + 12) 12 40 * 2 ^ 12) = .cap
    ∧ ((copying 12 1 (some { len := 256, done := fetchPa })).die 0).ce = some { len := 256, done := fetchPa }
    ∧ ({ len := 256, off := 255 } : CeJob).off < 256 ∧ ({ len := 256, off := 256 } : CeJob).len ≤ 256 ∧ ({ status := 3 } : CeJob).status ≠ 0
    ∧ region fetchPa = .cap := by decide +kernel
-- a cut whose answer the driver has given, for each operation, and which the distributor ends in each way; a record in an area of the capacity tier, with rows and without
theorem witness_cut_answers : (∀ op ∈ [1, 2, 3], ((cutOf ((cutting .detaching true { answer := some op }).setReg (regCutbase 0) 0x010080000000)).any fun h => h.cut.written && h.cut.answer == some op && h.cut.ends == none) = true)
    ∧ ((cutOf ((cutting .detaching true {}).setReg (regCutbase 0) 0x010080000000)).any fun h => h.cut.written && h.cut.answer == none) = true := by decide +kernel
theorem witness_rows_kept : let s := (cutting .detached true {}).setReg (regCutbase 0) 0x010080000000
    recordAt s 0 2 = some (0x010080000000 + 2 * 0x100000) ∧ recordAt State.reset 0 2 = none ∧ ({ rows := true } : Gang).rows = true
    ∧ ({ rows := false } : Gang).rows = false
    ∧ reopening s 2 = false ∧ openRows (s.modChan 1 fun c => { c with slots := [(0, some {})] }) 1 ≠ [] ∧ openRows s 1 = [] := by decide +kernel
-- CUTCMD on a gang whose resume has been answered, and on one that a machine check cuts; a copy whose descriptor is good, and each limit of it at its edge
theorem witness_cutcmd_again : (pick (cutting .detached true { answered := true }) halts).any (fun g => g.cut.answered) = true
    ∧ (pick (cutting .detaching true { machineCheck := true }) halts).any (fun g => g.cut.machineCheck) = true
    ∧ ({ rebase := some 5 } : CutInfo).rebase ≠ none := by decide +kernel
theorem witness_jobs : let ws := [0x010000000000, 0x010000000100, 256, 7 * 2 ^ 32 + 383, 0]
    jobOk ws = true ∧ jobOk (ws.set 0 0x010000000080) = false ∧ jobOk (ws.set 2 0) = false ∧ jobOk (ws.set 2 512) = false ∧ jobOk (ws.set 3 384) = false
    ∧ jobOk (ws.set 4 4) = false
    ∧ jobOk (ws.set 1 0x0F0000000000) = false ∧ jobOk (ws ++ [1]) = false := by decide +kernel
-- CutRecords: an area in one tier, none, one that leaves its tier
theorem witness_record_area : let s (b : Nat) := State.reset.setReg (regCutbase 0) b
    recordAt (s 0x010080000000) 0 2 = some (0x010080000000 + 0x200000) ∧ recordAt (s 0) 0 2 = none ∧ recordAt (s 0x0F0000000000) 0 2 = none
    ∧ recordAt (s (0x030000000000 - 2 ^ 31)) 0 2 = some (0x030000000000 - 2 ^ 31 + 0x200000) := by decide +kernel
-- C with commands that have not started, of a sequencer, a transfer, a queue command and a reduction, and with none; M in an mtile and not; a core that is halted and not
theorem witness_record_gone : let s := ((base .c fun t => { t with c := { t.c with spc := some { failed := true, seq := 3 }, rdc := some [4, 0] } }).modChan 1 fun c => { c with again := [{ seq := 1 }] }).modDie 0 fun d =>
      { d with ctxAgain := [{ core := 1, seq := 2 }] }
    (discarded s 2).map Prod.fst = [1, 2, 3, 4] ∧ discarded (base .c id) 2 = [] ∧ ((running run1 true none).task 2).m.run = some run1
    ∧ (base .m id |>.task 2).m.run = none
    ∧ ((s.modCore 1 fun c => { c with halted := true }).core 1).halted = true ∧ (s.core 1).halted = false := by decide +kernel
-- shadows, one of each kind; stopped commands and blocks; words of an engine that the driver changed and left
theorem witness_record_work : shadowDst (.entry 767) = some (0, 767, 1024) ∧ shadowDst (.jreg 31) = some (1, 31, 2048) ∧ shadowDst (.mask 15) = some (2, 15, 256)
    ∧ ((base .v fun t => { t with v := { t.v with shadows := [({ dst := .mask 1 }, [])] } }).task 2).v.shadows[0]? = some ({ dst := .mask 1 }, [])
    ∧ (((base .c fun t => { t with c := { t.c with cmds := [{ id := 1, failed := true }, { id := 2 }] } }).task 2).c.cmds.filter fun x => x.failed) = [{ id := 1, failed := true }]
    ∧ [1, 0, 0, 0] ≠ [0, 0, 0, 0] ∧ (base .s id).gangOf 2 ≠ none ∧ State.reset.gangOf 2 = none := by decide +kernel

/-- BOOTCTL holds this state, and BAR2 is open or not. -/
def booting (mode : Nat) (open_ : Bool) : State := let s := State.reset.setReg regBootctl mode; { s with dist := { s.dist with bar2Open := open_ } }
-- HostWork: each state of BOOTCTL; an image that is none (that verification ends with 0 rests on functions of Config that nothing evaluates)
theorem witness_boot : (∀ m < 4, (booting m true).reg regBootctl % 4 = m) ∧ (booting 2 false).dist.bar2Open = false
    ∧ verifyImage (booting 1 true) ((booting 1 true).reg regBwin) ((booting 1 true).reg regBootctl / 2 ^ 32) = 0 + 1 := by decide +kernel
-- accesses to the ends of BAR0 and BAR2, to a hole, to both tiers; a virtual function that is enabled and one that is not
theorem witness_bars : 2 ^ 32 - 8 + 8 ≤ 2 ^ 32 ∧ 2 ^ 30 - 8 + 8 ≤ 2 ^ 30 ∧ region (State.reset.reg regBwin + (2 ^ 30 - 8)) = .cap
    ∧ region (0x00C000000000) = .hole ∧ region (0x00BFFFFFFFFF) = .fast ∧ vfEnabled State.reset 0 = false
    ∧ vfEnabled { State.reset with dist := { config := [1] } } 0 = true ∧ vfEnabled { State.reset with dist := { config := [1] } } 1 = false
    ∧ ((State.reset.setReg regBwin 0x00C000000000).reg regBwin = 0x00C000000000)
    ∧ (readVirtual 0 (pageSpans fetchVa 8) tables).2 = some (List.replicate 8 0) := by decide +kernel
-- no piece and one for the host; a report under way and none; registers with a mask and without; a fatal dump's area
theorem witness_registers : region 0x100000000000 = .host ∧ findPiece { State.reset with pieces := [peerPiece .sLoad 0x100000000000] } 1 = some (peerPiece .sLoad 0x100000000000)
    ∧ bitOf (State.reset.reg regAttreq) 0 = false ∧ bitOf ((State.reset.setReg regAttreq 1).reg regAttreq) 0 = true ∧ slice 512 9 43 * 2 ^ 9 ≠ 0
    ∧ slice 511 9 43 * 2 ^ 9 = 0
    ∧ region (State.reset.reg regDumpbase) = .cap ∧ plainMask State.reset regBlim = some 4095 ∧ plainMask State.reset (regBlim + 1) = none := by decide +kernel
-- the thermal thresholds a degree below and at; a clock to skip 12,799 ticks after and 12,800; a window one tick before its end and at it
def powered (f : Power → Power) (tick : Nat) : State := die0 fun d => { d with tick2 := 2 * tick, power := f d.power }
theorem witness_power : (threshold false none 110 109 0).1 = false ∧ (threshold false none 110 110 0).1 = true
    ∧ ((powered (fun p => { p with cheaper := some 5 }) 12804).die 0).tick2 / 2 < 5 + 12800
    ∧ 5 + 12800 ≤ ((powered (fun p => { p with cheaper := some 5 }) 12805).die 0).tick2 / 2
    ∧ ((powered (fun p => { p with cheaper := some 5 }) 0).die 0).power.cheaper = some 5 ∧ ((powered id 0).die 0).power.skip = false
    ∧ ((powered id 0).die 0).power.cheaper = none
    ∧ ((powered id 0).die 0).power.window = none ∧ ((powered (fun p => { p with window := some (7, 2) }) 6).die 0).power.window = some (7, 2)
    ∧ ((powered (fun p => { p with window := some (7, 2) }) 6).die 0).tick2 / 2 < 7
    ∧ 7 ≤ ((powered (fun p => { p with window := some (7, 2) }) 7).die 0).tick2 / 2 := by decide +kernel
-- thresholds inside their dwell and after it, on and off; a critical one; a level that rises, falls to the clock's, and falls to another
theorem witness_feel : threshold false (some 5) 95 96 (5 + 799999) = (false, some 5) ∧ threshold false (some 5) 95 95 (5 + 800000) = (true, some 800005)
    ∧ threshold true none 95 92 0 = (false, some 0) ∧ threshold true none 95 93 0 = (true, none)
    ∧ (thresholds (die0 fun d => { d with power := { d.power with temp := 110 } }) 0).onc = true
    ∧ (State.reset.die 0).power.onc = false := by decide +kernel
theorem witness_regrant : let s (req : Nat) (f : Power → Power) := (powered f 0).setReg (regPwrctl 0) req
    targetOf (s 0 id) 0 = ((s 0 id).die 0).power.grant ∧ ((s 2 id).die 0).power.grant < targetOf (s 2 id) 0
    ∧ (targetOf (s 0 fun p => { p with grant := 2, cheaper := some 0 }) 0 < 2 ∧ targetOf (s 0 fun p => { p with grant := 2, cheaper := some 0 }) 0 = 0)
    ∧ targetOf (s 1 fun p => { p with grant := 2, cheaper := some 0, skip := true }) 0 = 1 := by decide +kernel
-- a switch point that has come and none; a window that brings a faster level, still wanted and not
theorem witness_switches : let s (f : Power → Power) := (base .s id).modDie 0 fun d => { d with power := f d.power }
    (∀ i < 96, (s id).attached (tkey i ((s id).issuing i)) = true → i = 1)
    ∧ (2, 1) ∈ ((s fun p => { p with cheaper := some 0, grant := 1, switched := [(2, 1)] }).die 0).power.switched
    ∧ ((s fun p => { p with cheaper := some 0 }).die 0).power.switched = [] := by decide +kernel
theorem witness_windows_end : let w (r : Bool) (l : Option Nat) := ((powered (fun p => { p with window := some (7, 0), rising := r, faster := l }) 7).die 0).power
    (w true none).rising = true ∧ (w true none).faster = none ∧ (w true (some 0)).faster ≠ none ∧ (w false none).rising = false
    ∧ (w true none).window = some (7, 0) := by decide +kernel
-- accesses through the BAR0 of a function across its last register; a page that it has and has not; a read of it that cannot be served
theorem witness_bar0_edge : 0x3F8 + 16 ≤ 4096 ∧ Nat.min 16 (0x400 - 0x3F8) = 8 ∧ Nat.min 8 (0x400 - 0x400) = 0 ∧ (vfPhys tables 0 fetchVa 0).2 = some fetchPa
    ∧ (vfPhys tables 0 0x7000000 0).2 = none
    ∧ (vfPhys tables 0 fetchVa 1).2 = some fetchPa := by decide +kernel
-- the registers whose low half alone is fixed; a grid that runs when another image starts, and beat 0
theorem witness_registers_more : (regBootctl = regBootctl ∨ regBootctl = regDevqptr) ∧ regBlim ≠ regBootctl ∧ regBlim ≠ regDevqptr
    ∧ ({ started := true } : Grid).started = true ∧ State.reset.grid.started = false
    ∧ (State.reset.die 0).beat % 4096 = 0 ∧ ((die0 fun d => { d with beat := 1 }).die 0).beat % 4096 ≠ 0 ∧ PieceOf.outside .sLoad = false
    ∧ PieceOf.outside (.copy 0) = true := by decide +kernel

-- Rounding: exact quotients and others, below, at and above a midpoint, at the largest finite pattern; operands of each kind
theorem witness_rounding : placeQuo .f32 1 1 0 = ⟨0x3F800000, true, .lt⟩ ∧ (placeQuo .f32 1 3 0).exact = false ∧ (placeQuo .f32 1 3 0).half = .gt
    ∧ (placeQuo .bf16 257 1 0).half = .eq ∧ (placeQuo .bf16 1 1 128).b = Fmt.bf16.inf := by decide +kernel
theorem witness_rounding_kinds : (∀ f ∈ [Fmt.f32, .bf16], f.val 0 = .fin false ⟨0, 0⟩ ∨ (∃ x, f.val 0 = .fin false x) ∧ f.val f.inf = .inf false ∧ f.isNaN f.nan = true)
    ∧ Fmt.bf16.val 0xFF80 = .inf true ∧ Fmt.f32.val 0xC0000000 = .fin true ⟨-(2 ^ 23), -22⟩ := by
  refine ⟨fun f hf => ?_, by decide +kernel, by decide +kernel⟩
  simp only [List.mem_cons, List.not_mem_nil, or_false] at hf
  rcases hf with rfl | rfl <;> exact .inr ⟨⟨_, rfl⟩, by decide +kernel, by decide +kernel⟩

/-- The gang checks for races, and an instruction of S whose range is y stands in its checker, known to no other engine. -/
def checking (y : RaceEnt) (s : State) : State := s.modGang 1 fun g => { g with det := true, race := [{ y with id := 1, task := 2 }], raceNext := 2 }
theorem raced_of {s : State} {rgn : List (Nat × Nat × Nat × Bool)} (g : Gang) (h : s.gangOf s.key = some g) (h1 : g.det = true ∧ s.key ∈ g.live)
    (h2 : ∃ y ∈ g.race, y.id ∉ g.knows s.key s.cur.eng ∧ ∃ p ∈ rgn, ∃ q ∈ y.rgn ++ y.tgt,
      p.1 = q.1 ∧ p.2.1 ≤ q.2.2.1 ∧ q.2.1 ≤ p.2.2.1 ∧ (p.2.2.2 = true ∨ q.2.2.2 = true)) : Raced s rgn := ⟨g, h, h1.1, h1.2, h2⟩
-- C fills the palette from spad that S has written
theorem witness_race_c : let s := checking { rgn := [(4, 0, 0, true)] } (cregs [(1, 0), (2, 0), (3, 32)])
    Raced s [(4 * 1 + 3, 0, 0, true), (4 * 1, 0, 0, false)] ∧ s.cur.ch.waits = [] ∧ s.myEng.latched = none ∧ s.myEng.opn.length < tokenLimit ∧ cBusy s = false
    ∧ s.cur.eng = .c ∧ (cv s 2).toNat % 32 = 0 ∧ (cv s 2).toNat + (cv s 3).toNat ≤ 16384 ∧ OwnSpad s (cv s 1).toNat (cv s 3).toNat ∧ GoodLength (cv s 3).toNat := by
  refine ⟨raced_of _ rfl (by decide +kernel) (by decide +kernel), by decide +kernel, by decide +kernel, by decide +kernel, by decide +kernel, rfl, by decide +kernel,
    by decide +kernel, own_of (by decide +kernel), by unfold GoodLength; decide +kernel⟩
-- V reads an entry that C has written
theorem witness_race_v : let s := checking { rgn := [(5, 3, 3, true)] } (vstate true 0 [])
    Raced s [(4 * 1 + 1, 3, 3, false)] ∧ s.cur.eng = .v ∧ NoLanding s ∧ inFile s 3 1 = true ∧ inFlight s.me (.entry 3) = false ∧ opqPlaces s.me 0 < 4 := by
  refine ⟨raced_of _ rfl (by decide +kernel) (by decide +kernel), rfl, fun f hf => ?_, by decide +kernel⟩
  rw [show (checking { rgn := [(5, 3, 3, true)] } (vstate true 0 [])).me.v.flights = [] by decide +kernel] at hf
  cases hf
-- M reads spad that C has written
theorem witness_race_m : let s := checking { rgn := [(4, 0, 65535, true)] } (mstate [0] 1 nest1 id)
    Raced s (tileRegion 1 nest1 0) ∧ s.cur.eng = .m ∧ s.me.m.run = none ∧ s.me.m.preempt = false ∧ (tileWord s).isSome = true ∧ nestCause s nest1 0 = none :=
  ⟨raced_of _ rfl (by decide +kernel) (by decide +kernel), rfl, by decide +kernel⟩
-- A writes spad that C has read
theorem witness_race_a : let s := checking { rgn := [(4, 0, 65535, false)] } (base .a fun t => { t with areg := [(1, 0), (2, 0x100000040)] })
    Raced s [(4 * 1, 2, 2, false), (4 * 1, 0, 0, true)] ∧ s.cur.eng = .a ∧ s.me.a.ins = none ∧ (av s 1).toNat % aSize 0 = 0 ∧ OwnSpad s (av s 1).toNat (aSize 0 * 1)
    ∧ (av s 2).toNat / 2 ^ 49 = 0 ∧ (av s 2).toNat / 2 ^ 32 % 2 ^ 17 = 1 ∧ (av s 2).toNat % 8 = 0 ∧ OwnSpad s ((av s 2).toNat % 2 ^ 32) 8 := by
  refine ⟨raced_of _ rfl (by decide +kernel) (by decide +kernel), rfl, by decide +kernel, by decide +kernel, own_of (by decide +kernel), by decide +kernel, by decide +kernel,
    by decide +kernel, own_of (by decide +kernel)⟩
-- a race and none: ranges that meet at an edge and do not, two readers, an order that is known, updates of one task and of one kind
theorem witness_races : let y (r : List (Nat × Nat × Nat × Bool)) : RaceEnt := { id := 1, rgn := r }
    let u (task exempt : Nat) : RaceEnt := { id := 1, task := task, tgt := [(4, 0, 0, true)], exempt := exempt }
    races (y [(4, 0, 3, true)]) (y [(4, 3, 5, false)]) = true ∧ races (y [(4, 0, 3, true)]) (y [(4, 4, 5, false)]) = false
    ∧ races (y [(4, 0, 3, false)]) (y [(4, 3, 5, false)]) = false
    ∧ races (y [(4, 0, 3, true)]) { y [(4, 3, 5, false)] with pre := [1] } = false ∧ races (y [(4, 0, 3, true)]) (y [(5, 0, 3, true)]) = false
    ∧ races (u 2 1) (u 3 1) = false ∧ races (u 2 1) (u 3 2) = true ∧ races (u 2 1000) (u 2 1001) = false ∧ races (u 2 0) (u 2 1) = true := by decide +kernel
-- a checker with room and one that is full; a gang without a checker; a token of an instruction in it and of none; timed edges, barriers and records that tell
theorem witness_checker : let s := checking { seq := 5, beat := some (1, 4) } (base .s id)
    (s.gangOf 2).any (fun g => g.det && decide (g.race.length < 1024) && g.tokenIds 2 (tokenWord .s 5) == [1] && g.tokenIds 2 (tokenWord .s 6) == []) = true
    ∧ ((base .s id).gangOf 2).any (fun g => !g.det) = true ∧ ¬ (List.replicate 1024 ({} : RaceEnt)).length < 1024 ∧ (∃ f ∈ [Eng.c, .v, .m, .a], bitOf 2 f.tag = true)
    ∧ (s.gangOf 2).any (fun g => g.race.any fun y => match y.beat with | some (c, t) => c == 2 / 2 && decide (t ≤ 4) | none => false) = true := by decide +kernel

-- each condition of a move that fails: not attached, another bank issues, a core that is halted, a die that is fenced or has failed, an engine that has stopped
theorem witness_step_moves : mayMove (base .s id) 1 0 .s = true ∧ mayMove State.reset 1 0 .s = false ∧ mayMove (base .s id) 1 1 .s = false
    ∧ mayMove ((base .s id).modCore 1 fun c => { c with halted := true }) 1 0 .s = false
    ∧ mayMove ((base .s id).modDie 0 fun d => { d with fenced := true }) 1 0 .s = false
    ∧ mayMove ((base .s id).modDie 0 fun d => { d with failed := true }) 1 0 .s = false
    ∧ mayMove (eng .s (fun x => { x with stopped := true }) (base .s id)) 1 0 .s = false
    ∧ mayMove ((base .s id).modTask 2 fun t => { t with stop := true }) 1 0 .s = false ∧ mayMove (running run1 true none) 1 0 .m = true := by decide +kernel
theorem witness_step_wakes : wakes (.beatObserved 1 0 0) = some (1, 0) ∧ wakes .powerUp = none ∧ layout (.beatObserved 1 0 0) = none := ⟨rfl, rfl, rfl⟩
-- a control instruction that ends its block and one that does not, whose word is refused for another reason
theorem witness_step_control : isControl (.b 5) = true ∧ controlWord .s [0b1011100000110000, 0b0000000000000101] = true ∧ controlWord .s [0x8230, 5] = false
    ∧ decode .s [0b1011100011110000, 0b0000000000000101] = .bad 0 1 ∧ controlWord .s [0b1011100011110000, 0b0000000000000101] = true := by decide +kernel
-- a fetch at an odd address; from the unit read last; by a walk; refused; of a strip that cannot be read, and of a lost pseudo-channel; from outside the module
theorem witness_fetch_ways : let s := eng .s (fun x => { x with text := some (0x10000 / 32, List.replicate 32 1) }) (base .s id)
    (0x10001 % 2 = 1) ∧ (s.eng 2 .s).text = some (0x10000 / 32, List.replicate 32 1) ∧ ((base .s id).eng 2 .s).text = none
    ∧ (translate (base .s id) 2 2 0x20000 2 151).2 = .walk ∧ (translate (base .s id) 2 2 0x10000 2 151).2 = .leaf leaf
    ∧ (translate (mapped { leaf with x := false }) 2 2 0x10000 2 151).2 = .cause 151 := by decide +kernel
def faulty (tels : Nat) : State := { State.reset.setReg (regTels 1) tels with cellFaults := [{ strip := State.reset.stripOf 0x40000000, syms := 2 }] }
theorem witness_fetch_bad : (match (tierRead (faulty 0) 0x40000000 32 2).2 with | .error a => a == 0x40000000 | .ok _ => false) = true ∧ isLost (faulty 0) 1 = false
    ∧ isLost (faulty (2 ^ 11)) (chanOf 0x40000000) = true ∧ region 0x100000000000 = .host
    ∧ (match (textUnit (faulty 0) 0x40000000 0x10000).2 with | .error f => f == .bad 0x40000000 | .ok _ => false) = true
    ∧ (match (textUnit (faulty (2 ^ 11)) 0x40000000 0x10000).2 with | .error f => f == .cause 303 0x10000 | .ok _ => false) = true := by decide +kernel
-- a die that is behind the one that time names, one that is not, one that has failed and one that is fenced
theorem witness_step_dies : let s (f : Die → Die) := State.reset.modDie 0 f
    nextDie (s fun d => { d with tick2 := 1 }) 0 = 1 ∧ nextDie State.reset 3 = 3 ∧ nextDie (s fun d => { d with tick2 := 1, fenced := true }) 0 = 0
    ∧ ((s fun d => { d with failed := true }).die 0).failed = true ∧ nextDie (s fun d => { d with tick2 := 1, drift := 1 }) 0 = 0 := by decide +kernel

end Sys2Proof.Tests
end

section
/-!
SUPPORT. The observation of a beat (02_program_text R37, 04_beats R68, R73, R88): what a landing of V keeps of its task, and what an
engine that observes a beat leaves behind.
-/

namespace Sys2Proof.Machine

/-! ### What a cycle of V keeps -/

/-- What a change of one task keeps of every task. -/
theorem task_modTask_field {α : Type} (g : Task → α) {f : Task → Task} (hf : ∀ t, g (f t) = g t) (s : State) (k j : Nat) :
    g ((s.modTask k f).task j) = g (s.task j) := by
  unfold State.modTask
  rw [State.task_setTask]
  split
  · rename_i h; rw [hf, h]
  · rfl

/-- The part of a task that no landing touches: its path records and the base of its beats. -/
def Task.pathAndBase (t : Task) : List PathRec × Nat := (t.recs, t.csr.tbb)

theorem completeToken_pathAndBase (s : State) (k : Nat) (e : Eng) (n j : Nat) :
    ((completeToken s k e n).task j).pathAndBase = (s.task j).pathAndBase :=
  task_modTask_field Task.pathAndBase (fun t => by rfl) _ _ _

/-- A vtos lands in its register, or not at all where a later write of S is kept; it may draw a free value (R206). -/
theorem landSreg_cases (s : State) (k n m : Nat) (v : Word) : ∃ c, landSreg s k n m v = { s with free := c }
    ∨ landSreg s k n m v = ({ s with free := c } : State).modTask k fun t => { t with sreg := Sparse.wr 0 t.sreg n v } := by
  unfold landSreg State.choose
  split
  · exact ⟨s.free, .inl rfl⟩
  · cases wroteLater s k n m with
    | false => exact ⟨s.free, .inr rfl⟩
    | true =>
      by_cases hc : Config.freeChoice s.free % 2 = 1
      · exact ⟨s.free + 1, .inl (if_pos hc)⟩
      · exact ⟨s.free + 1, .inr (if_neg hc)⟩

theorem landSreg_pathAndBase (s : State) (k n m : Nat) (v : Word) (j : Nat) :
    ((landSreg s k n m v).task j).pathAndBase = (s.task j).pathAndBase := by
  obtain ⟨c, h | h⟩ := landSreg_cases s k n m v
  · rw [h]; rfl
  · rw [h, task_modTask_field Task.pathAndBase fun t => by rfl]; rfl

theorem landFlight_pathAndBase (s : State) (k : Nat) (f : Flight) (j : Nat) :
    ((landFlight s k f).task j).pathAndBase = (s.task j).pathAndBase := by
  have keep {h : Task → Task} (hh : ∀ t, (h t).pathAndBase = t.pathAndBase) (u : State) :
      ((u.modTask k h).task j).pathAndBase = (u.task j).pathAndBase := task_modTask_field Task.pathAndBase hh u k j
  have push (u : State) (a b c d : Nat) : ((pushEvent u k a b c d).task j).pathAndBase = (u.task j).pathAndBase :=
    keep (fun t => by split <;> rfl) u
  unfold landFlight
  dsimp only
  cases f.ev <;> dsimp only <;> (try rw [push]) <;> rw [keep fun t => by rfl]
  all_goals
    cases f.dst with
    | entry n => rfl
    | mark n => exact completeToken_pathAndBase _ _ _ _ _
    | sreg n => exact landSreg_pathAndBase _ _ _ _ _ _
    | outq n | opq n | jreg n => dsimp only; rw [keep fun t => by rfl]
    | mask n => dsimp only; rw [keep fun t => by split <;> simp only [Task.pathAndBase]]

/-- A cycle of V keeps the path records and the base of the beats of every task. -/
theorem cycleV_pathAndBase (s : State) (k j : Nat) : ((cycleV s k).task j).pathAndBase = (s.task j).pathAndBase := by
  have lands : ∀ (l : List Flight) (u : State),
      ((l.foldl (fun s f => landFlight s k f) u).task j).pathAndBase = (u.task j).pathAndBase := by
    intro l
    induction l with
    | nil => intro u; rfl
    | cons f r ih => intro u; rw [List.foldl_cons, ih, landFlight_pathAndBase]
  unfold cycleV landDue
  dsimp only
  rw [task_modTask_field Task.pathAndBase (fun t => by rfl), lands, task_modTask_field Task.pathAndBase (fun t => by rfl),
    task_modTask_field Task.pathAndBase (fun t => by rfl)]

/-! ### A cycle of V does not read what executes -/

theorem landSreg_setCur (s : State) (k n m : Nat) (v : Word) (c : Cur) :
    landSreg { s with cur := c } k n m v = { landSreg s k n m v with cur := c } := by
  have hw : wroteLater { s with cur := c } k n m = wroteLater s k n m := rfl
  unfold landSreg State.choose
  rw [hw]
  cases wroteLater s k n m <;> simp only [Bool.false_eq_true, if_false, if_true] <;> (repeat' split) <;> rfl

theorem landFlight_setCur (s : State) (k : Nat) (f : Flight) (c : Cur) :
    landFlight { s with cur := c } k f = { landFlight s k f with cur := c } := by
  unfold landFlight
  cases f.dst with
  | sreg n => simp only [landSreg_setCur]; cases f.ev <;> rfl
  | _ => cases f.ev <;> rfl

theorem foldl_landFlight_setCur (k : Nat) (c : Cur) : ∀ (l : List Flight) (s : State),
    l.foldl (fun s f => landFlight s k f) { s with cur := c } = { l.foldl (fun s f => landFlight s k f) s with cur := c }
  | [], _ => rfl
  | f :: r, s => by rw [List.foldl_cons, List.foldl_cons, landFlight_setCur, foldl_landFlight_setCur k c r]

theorem landDue_setCur (s : State) (k : Nat) (c : Cur) : landDue { s with cur := c } k = { landDue s k with cur := c } :=
  foldl_landFlight_setCur k c _ (s.modTask k fun t =>
    { t with v := { (s.task k).v with flights := (s.task k).v.flights.filter fun f => decide ((s.task k).v.cyc < f.due) } })

theorem cycleV_setCur (s : State) (k : Nat) (c : Cur) : cycleV { s with cur := c } k = { cycleV s k with cur := c } := by
  have h := landDue_setCur (s.modTask k fun t => { t with v := { t.v with cyc := t.v.cyc + 1 } }) k c
  unfold cycleV
  dsimp only
  exact (congrArg (fun u : State => u.modTask k fun t => { t with v := { t.v with sregs := t.sreg, pushed := [] } }) h).trans rfl

/-! ### The observation of a beat -/

/-- The cycle of V that an engine's move takes; nothing for another engine (R30). -/
def cycleOf (s : State) (k : Nat) (e : Eng) : State := if e = .v then cycleV s k else s

theorem cycleOf_cur (s : State) (k : Nat) (e : Eng) : (cycleOf s k e).cur = s.cur := by
  unfold cycleOf; split
  · exact cycleV_cur s k
  · rfl

theorem cycleOf_setCur (s : State) (k : Nat) (e : Eng) (c : Cur) : cycleOf { s with cur := c } k e = { cycleOf s k e with cur := c } := by
  unfold cycleOf; split
  · exact cycleV_setCur s k c
  · rfl

theorem cycleOf_key (s : State) (k : Nat) (e : Eng) : (cycleOf s k e).key = s.key := by unfold State.key; rw [cycleOf_cur]

theorem cycleOf_eng {α : Type} (g : EngSt → α) (hg : ∀ x l, g { x with opn := l } = g x) (s : State) (k : Nat) (e : Eng) (j : Nat)
    (i : Eng) : g ((cycleOf s k e).eng j i) = g (s.eng j i) := by
  unfold cycleOf; split
  · exact cycleV_eng g hg s k j i
  · rfl

theorem cycleOf_pathAndBase (s : State) (k : Nat) (e : Eng) (j : Nat) :
    ((cycleOf s k e).task j).pathAndBase = (s.task j).pathAndBase := by
  unfold cycleOf; split
  · exact cycleV_pathAndBase s k j
  · rfl

/-- Engine e of task k has observed a beat: V's cycle has passed, the cursor stands there, and C's next command starts an anchor. -/
def beatSeen (s : State) (k : Nat) (e : Eng) (cursor : Nat) : State :=
  let u := (cycleOf s k e).modEng k e fun x => { x with cursor := cursor }
  if e = .c then u.modTask k fun t => { t with c := { t.c with anchor := none } } else u

theorem beatSeen_cur (s : State) (k : Nat) (e : Eng) (c : Nat) : (beatSeen s k e c).cur = s.cur := by
  rw [← cycleOf_cur s k e]
  unfold beatSeen
  split <;> rfl

theorem beatSeen_setCur (s : State) (k : Nat) (e : Eng) (n : Nat) (c : Cur) :
    beatSeen { s with cur := c } k e n = { beatSeen s k e n with cur := c } := by
  unfold beatSeen
  rw [cycleOf_setCur]
  generalize cycleOf s k e = u
  split <;> rfl

/-- An observation keeps of the walk what a landing of V and a new cursor keep of it. -/
theorem beatSeen_eng {α : Type} (g : EngSt → α) (ho : ∀ x l, g { x with opn := l } = g x) (hc : ∀ x n, g { x with cursor := n } = g x)
    (s : State) (k : Nat) (e : Eng) (n : Nat) : g ((beatSeen s k e n).eng k e) = g (s.eng k e) := by
  have h : g (((cycleOf s k e).modEng k e fun x => { x with cursor := n }).eng k e) = g (s.eng k e) := by
    rw [State.eng_modEng_same, hc, cycleOf_eng g ho]
  unfold beatSeen
  split
  · rw [eng_modTask fun t => by rfl]; exact h
  · exact h

theorem learnBeat_task (s : State) (k : Nat) (e : Eng) (b j : Nat) : (learnBeat s k e b).task j = s.task j := by
  unfold learnBeat
  split
  · split <;> simp
  · rfl

/-- What an engine of u that observes a beat does to its cursor, and C to its anchor. -/
def setCursor (cursor : Nat) (u : State) : State :=
  let v := u.modMyEng fun x => { x with cursor := cursor }
  if u.cur.eng = .c then v.modMe fun t => { t with c := { t.c with anchor := none } } else v

theorem setCursor_walks {s t : State} (h : Walks s.key s.cur.eng s t) (n : Nat) :
    Walks s.key s.cur.eng (setCursor n s) (setCursor n t) := by
  have h1 : Walks s.key s.cur.eng (s.modMyEng fun x => { x with cursor := n }) (t.modMyEng fun x => { x with cursor := n }) :=
    h.modMyEng _ fun a b hab => by simp only [EngSt.still, EngSt.mk.injEq] at hab ⊢; simp_all
  unfold setCursor
  rw [h.cur]
  dsimp only
  by_cases hc : s.cur.eng = .c
  · rw [if_pos hc, if_pos hc]
    refine Walks.modMe (s := s.modMyEng fun x => { x with cursor := n }) h1 _ fun a b hab => ?_
    have hc : a.c = b.c := (congrArg Task.c hab :)
    simp only [Task.still, Task.mk.injEq] at hab ⊢
    simp_all
  · rw [if_neg hc, if_neg hc]
    exact h1

/-- Setting the cursor leaves the executing engine at its place. -/
theorem setCursor_atIt {s u : State} (h : AtIt s u) (n : Nat) : AtIt s (setCursor n u) := by
  have h1 : AtIt s (u.modMyEng fun x => { x with cursor := n }) := by
    refine ⟨?_, ?_⟩
    · rw [← h.1]; unfold State.myEng State.modMyEng; simp
    · rw [← h.2]; unfold State.me State.modMyEng State.modEng; simp [State.task_setEng]
  unfold setCursor
  dsimp only
  split
  · exact h1.modMe _ (fun t => by rfl) fun t => by rfl
  · exact h1

theorem beatSeen_eq (s : State) (n : Nat) : beatSeen s s.key s.cur.eng n = setCursor n (cycleOf s s.key s.cur.eng) := by
  have hk := cycleOf_key s s.key s.cur.eng
  have hc := cycleOf_cur s s.key s.cur.eng
  unfold beatSeen setCursor State.modMyEng State.modMe
  simp only [hk, hc, State.modEng_key]

/-- Observing a beat retires bw in the state that beatSeen gives, but for the race checker. -/
theorem observeBeat_eq (target : Nat) (s : State) :
    ∃ x, observeBeat target s = advance x
      ∧ Walks s.key s.cur.eng (beatSeen s s.key s.cur.eng ((target + 2 ^ 48 - s.me.csr.tbb) % 2 ^ 48)) x ∧ AtIt s x := by
  have hk := cycleOf_key s s.key s.cur.eng
  have hc := cycleOf_cur s s.key s.cur.eng
  have hp := cycleOf_pathAndBase s s.key s.cur.eng s.key
  have hl := cycleOf_eng EngSt.passes (fun _ _ => rfl) s s.key s.cur.eng s.key s.cur.eng
  rw [beatSeen_eq]
  have hx : observeBeat target s = advance (setCursor ((target + 2 ^ 48 -
      (learnBeat (cycleOf s s.key s.cur.eng) (cycleOf s s.key s.cur.eng).key (cycleOf s s.key s.cur.eng).cur.eng target).me.csr.tbb) % 2 ^ 48)
      (learnBeat (cycleOf s s.key s.cur.eng) (cycleOf s s.key s.cur.eng).key (cycleOf s s.key s.cur.eng).cur.eng target)) := rfl
  generalize cycleOf s s.key s.cur.eng = u at hk hc hp hl hx ⊢
  have hw := learnBeat_walks u u.key u.cur.eng target u.key u.cur.eng
  have htbb : (learnBeat u u.key u.cur.eng target).me.csr.tbb = s.me.csr.tbb := by
    unfold State.me; rw [learnBeat_task, hw.key, hk]; exact congrArg Prod.snd hp
  rw [htbb] at hx
  refine ⟨_, hx, ?_, ?_⟩
  · have := setCursor_walks hw ((target + 2 ^ 48 - s.me.csr.tbb) % 2 ^ 48)
    rw [hk, hc] at this
    rw [hk, hc]
    exact this
  · refine setCursor_atIt ⟨?_, ?_⟩ _
    · unfold State.myEng; unfold State.eng at hl ⊢; rw [learnBeat_task, hw.key, hw.cur, hk, hc]; exact hl
    · unfold State.me; rw [learnBeat_task, hw.key, hk]; exact congrArg Prod.fst hp

/-- A bw that has observed its beat has retired (R37). -/
theorem observeBeat_past (target : Nat) (s : State) :
    Walks s.key s.cur.eng (beatSeen s s.key s.cur.eng ((target + 2 ^ 48 - s.me.csr.tbb) % 2 ^ 48)) (observeBeat target s)
    ∧ PastIt s (observeBeat target s) := by
  obtain ⟨x, hx, hw, ha⟩ := observeBeat_eq target s
  rw [hx]
  have he {α : Type} (g : EngSt → α) (ho : ∀ x l, g { x with opn := l } = g x) (hc : ∀ x n, g { x with cursor := n } = g x) (n : Nat) :
      g (beatSeen s s.key s.cur.eng n).myEng = g s.myEng := by
    unfold State.myEng State.key
    rw [beatSeen_cur]
    exact beatSeen_eng g ho hc s s.key s.cur.eng n
  exact advance_does hw (beatSeen_cur _ _ _ _) (he _ (fun _ _ => rfl) (fun _ _ => rfl) _) (he _ (fun _ _ => rfl) (fun _ _ => rfl) _)
    (he _ (fun _ _ => rfl) (fun _ _ => rfl) _) ha

/-! ### The beat that a number names -/

/-- The nearest beat with a number of 48 bits (R2; log entry 80). -/
theorem beatAt_spec (b r : Nat) (h : r < 2 ^ 48) : beatAt b r % 2 ^ 48 = r ∧ beatAt b r ≤ b + 2 ^ 48 ∧ b ≤ beatAt b r + 2 ^ 47 := by
  unfold beatAt
  dsimp only
  split <;> omega

/-- The cursor that a bw leaves counts from the task's base beat as its target does. -/
theorem cursor_of_beatAt (b c tbb : Nat) (h : tbb < 2 ^ 48) :
    (beatAt b ((c + tbb) % 2 ^ 48) + 2 ^ 48 - tbb) % 2 ^ 48 = c % 2 ^ 48 := by
  have := (beatAt_spec b ((c + tbb) % 2 ^ 48) (Nat.mod_lt _ (by norm_num))).1
  omega

/-! ### The instructions -/

theorem nop16_does (s : State) : Does .nop16 s (cycleOf s s.key s.cur.eng) := by
  have hp := cycleOf_pathAndBase s s.key s.cur.eng s.key
  have he {α : Type} (g : EngSt → α) (ho : ∀ x l, g { x with opn := l } = g x) : g (cycleOf s s.key s.cur.eng).myEng = g s.myEng := by
    unfold State.myEng State.key
    rw [cycleOf_cur]
    exact cycleOf_eng g ho s s.key s.cur.eng s.key s.cur.eng
  have ha : AtIt s (cycleOf s s.key s.cur.eng) :=
    ⟨he EngSt.passes fun _ _ => rfl, by unfold State.me; rw [cycleOf_key]; exact congrArg Prod.fst hp⟩
  obtain ⟨hw, hpast⟩ := advance_does (Walks.refl _ _ _) (cycleOf_cur s s.key s.cur.eng) (he EngSt.body fun _ _ => rfl)
    (he EngSt.len fun _ _ => rfl) (he EngSt.serial fun _ _ => rfl) ha
  exact ⟨_, rfl, hw, hpast⟩

/-- The wake of an engine at bw, once its beat has opened and its die issues (R88, R362). -/
theorem wakeBeat_observes {s : State} {k b : Nat} {e : Eng} (hw : (s.eng k e).wait = .beat b) (hb : b ≤ (s.die (k / 2 / 96)).beat)
    (hs : (s.eng k e).stopped = false) (hp : (s.die (k / 2 / 96)).power.window = none) : wakeBeat s k e = observeBeat b (focus s k e) := by
  unfold wakeBeat
  dsimp only
  rw [hw]
  dsimp only
  rw [if_pos ⟨hb, by simp [hs], by simp [mayIssue, dieOf, hp]⟩]

theorem wakeBeat_sleeps {s : State} {k b : Nat} {e : Eng} (hw : (s.eng k e).wait = .beat b)
    (h : (s.die (k / 2 / 96)).beat < b ∨ (s.eng k e).stopped = true ∨ (s.die (k / 2 / 96)).power.window ≠ none) : wakeBeat s k e = s := by
  unfold wakeBeat
  dsimp only
  rw [hw]
  dsimp only
  rw [if_neg]
  rintro ⟨h1, h2, h3⟩
  rcases h with h | h | h
  · exact absurd h1 (by unfold dieOf; omega)
  · simp [h] at h2
  · exact h (by simpa [mayIssue, dieOf] using h3)

theorem exec_beatObserved (core bank : Nat) (e : Eng) (s : State) :
    exec (.beatObserved core bank e.tag) s = .next (wakeBeat s (tkey core bank) e) := by
  cases e <;> rfl

/-- The engine that waited has observed its beat (R88). -/
theorem wakeBeat_walks {s : State} {k b : Nat} {e : Eng} :
    let t := observeBeat b (focus s k e)
    Walks k e { beatSeen s k e ((b + 2 ^ 48 - (s.task k).csr.tbb) % 2 ^ 48) with cur := t.cur } t := by
  have hk := focus_key s k e
  obtain ⟨hw, -⟩ := observeBeat_past b (focus s k e)
  have hc := hw.cur
  rw [beatSeen_cur] at hc
  unfold State.me at hw
  rw [hk] at hw
  dsimp only
  rw [hc, ← beatSeen_setCur]
  exact hw

/-- Settles O18: nop16 and bw from the observation of a beat and its numbers. -/
theorem beatWaits : Obligations.BeatWaits := by
  unfold Obligations.BeatWaits
  intro s n core bank e observed open_ target k wakes
  refine ⟨fun h => ?_, fun h => ?_, fun h48 hopen => ?_, fun hopen => ?_, fun b hb => ⟨fun h1 h2 h3 => ?_, fun h => ?_⟩, beatAt_spec⟩
  · have := nop16_does s
    rwa [cycleOf, if_neg h] at this
  · have := nop16_does s
    rwa [cycleOf, if_pos h] at this
  · obtain ⟨hw, hp⟩ := observeBeat_past target s
    rw [cursor_of_beatAt _ _ _ h48] at hw
    have he : exec (.bw n) s = .next (observeBeat target s) := congrArg Host.Outcome.next (if_pos hopen)
    exact ⟨_, he, hw, hp⟩
  · have he : exec (.bw n) s = .next (waitFor (.beat target) s) := congrArg Host.Outcome.next (if_neg (Nat.not_le.2 hopen))
    exact ⟨_, he, waitFor_walks _ s, by simp [waitFor, State.myEng, State.modMyEng]⟩
  · exact ⟨_, (exec_beatObserved core bank e s).trans (congrArg _ (wakeBeat_observes hb h1 h2 h3)), wakeBeat_walks⟩
  · exact (exec_beatObserved core bank e s).trans (congrArg _ (wakeBeat_sleeps hb h))

end Sys2Proof.Machine
end

section
/-!
SUPPORT. The way of a piece out of its core (07_scratchpad R125, 17_node R152, 21_host R365): what sends it reads and changes nothing
of the walk of an engine. Memory reads and their logs, links, ports, pieces.
-/

namespace Sys2Proof.Machine

/-- Two answers that are the same but for the walk of engine e of task k in the states they leave. -/
def Together {α : Type} (k : Nat) (e : Eng) (p q : State × α) : Prop := ∃ s t a, p = (s, a) ∧ q = (t, a) ∧ Walks k e s t

theorem Together.intro {α : Type} {k : Nat} {e : Eng} {s t : State} (h : Walks k e s t) (a : α) : Together k e (s, a) (t, a) :=
  ⟨s, t, a, rfl, rfl, h⟩

namespace Walks

variable {k : Nat} {e : Eng} {s t : State}

/-! ### Logs and reads -/

theorem logEntry (h : Walks k e s t) (a hd o x : Nat) : Walks k e (Machine.logEntry s a hd o x) (Machine.logEntry t a hd o x) := by
  unfold Machine.logEntry
  dsimp only
  rw [h.reg, h.reg]
  exact (h.setReg _ _).setReg _ _

theorem logArray (h : Walks k e s t) (x src syn : Nat) (ue : Bool) :
    Walks k e (Machine.logArray s x src syn ue) (Machine.logArray t x src syn ue) := by
  unfold Machine.logArray
  extract_lets a st st' st1 st1'
  have h1 : st1 = st := h.reg a
  have h2 : st1' = st' := by unfold st1' st'; rw [h1]
  rw [h2]
  exact (h.setReg _ _).logEntry _ _ _ _

theorem eccRead (h : Walks k e s t) (x src : Nat) : Together k e (Machine.eccRead s x src) (Machine.eccRead t x src) := by
  unfold Machine.eccRead
  rw [h.stripData, h.cellFaults]
  cases s.cellFaults.find? fun f => f.strip == x with
  | none => exact .intro h _
  | some f =>
    dsimp only
    split
    · exact .intro h _
    · exact .intro (h.logArray _ _ _ _) _
    · exact .intro (h.logArray _ _ _ _) _
    · unfold State.choose
      rw [h.free]
      dsimp only
      split
      · exact .intro (Walks.logArray (h.setFree (s.free + 1)) _ _ _ _) _
      · exact .intro (Walks.logArray (h.setFree (s.free + 1 + 32)) _ _ _ _) _
      · exact .intro (h.setFree _) _

theorem fastRead (f : Nat → Nat) (src : Nat) : ∀ (l : List (Nat × Nat)) {s t : State}, Walks k e s t →
    Together k e (Machine.fastRead s f src l) (Machine.fastRead t f src l)
  | [], _, _, h => .intro h _
  | (a, n) :: r, s, t, h => by
    obtain ⟨s1, t1, x, hs, ht, h1⟩ := h.eccRead (f a) src
    obtain ⟨s2, t2, y, hs2, ht2, h2⟩ := fastRead f src r h1
    unfold Machine.fastRead
    rw [h.isLost, hs, ht]
    split
    · exact .intro h _
    · cases x with
      | none => exact .intro h1 _
      | some bs =>
        dsimp only
        rw [hs2, ht2]
        cases y <;> exact .intro h2 _

theorem tierRead (h : Walks k e s t) (pa n src : Nat) : Together k e (Machine.tierRead s pa n src) (Machine.tierRead t pa n src) := by
  unfold Machine.tierRead
  rw [show t.stripOf = s.stripOf from funext h.stripOf, h.mem]
  split
  · exact fastRead _ _ _ h
  · exact .intro h _

theorem tableWord (h : Walks k e s t) (pa : Nat) : Together k e (Machine.tableWord s pa) (Machine.tableWord t pa) := by
  obtain ⟨s1, t1, x, hs, ht, h1⟩ := h.tierRead pa 8 2
  unfold Machine.tableWord
  rw [hs, ht]
  cases x <;> exact .intro h1 _

/-! ### Links and ports -/

/-- The same change of the distributors on both sides, one that does not touch the gangs. -/
theorem modDist (h : Walks k e s t) (f : Dist → Dist) (hf : ∀ d l, ({ f d with gangs := l } : Dist) = f { d with gangs := l }) :
    Walks k e { s with dist := f s.dist } { t with dist := f t.dist } := by
  have hd : { t.dist with gangs := t.dist.gangs.map Gang.bare } = { s.dist with gangs := s.dist.gangs.map Gang.bare } :=
    (congrArg State.dist h.1 :)
  have hg (d : Dist) : (f d).gangs = d.gangs := (congrArg Dist.gangs (hf d d.gangs) :).symm
  refine ⟨?_, h.2⟩
  have h1 := h.1
  simp only [State.rest, State.mk.injEq, hg, hf, hd] at h1 ⊢
  simp_all

theorem config (h : Walks k e s t) : t.dist.config = s.dist.config := (congrArg (fun s => s.dist.config) h.1 :)

theorem hostRead (h : Walks k e s t) (pa n : Nat) : Walks k e (Machine.hostRead s pa n) (Machine.hostRead t pa n) := by
  unfold Machine.hostRead
  dsimp only
  rw [h.reg]
  exact h.modDist (fun d => { d with hostOut := d.hostOut ++ _ }) fun _ _ => rfl

theorem hostWrite (h : Walks k e s t) (pa : Nat) (bs : List Byte) : Walks k e (Machine.hostWrite s pa bs) (Machine.hostWrite t pa bs) := by
  unfold Machine.hostWrite
  dsimp only
  rw [h.reg]
  exact h.modDist (fun d => { d with hostOut := d.hostOut ++ _ }) fun _ _ => rfl

theorem transmit (h : Walks k e s t) (f : Frame) : Walks k e (Machine.transmit s f) (Machine.transmit t f) :=
  h.modDist (fun d => { d with sent := d.sent ++ [f] }) fun _ _ => rfl

theorem routePort (h : Walks k e s t) (id : Nat) : Together k e (Machine.routePort s id) (Machine.routePort t id) := by
  unfold Machine.routePort
  extract_lets base base'
  have hb : base' = base := by unfold base' base; rw [h.reg]
  rw [hb]
  split
  · exact .intro h _
  · obtain ⟨s1, t1, w, hs, ht, h1⟩ := h.tableWord (base + id / 8 * 8)
    rw [hs, ht]
    dsimp only
    rw [h1.config]
    exact .intro h1 _

/-- A request for a peer leaves on both sides, or on neither. -/
theorem sendFrame (h : Walks k e s t) (pa len : Nat) (wr : Bool) (data : List Byte) :
    Together k e (Machine.sendFrame s pa len wr data) (Machine.sendFrame t pa len wr data) := by
  rw [Machine.sendFrame, Machine.sendFrame]
  obtain ⟨s1, t1, x, hs, ht, h1⟩ := h.routePort (slice pa 32 18)
  rw [hs, ht]
  cases x with
  | none => exact .intro h1 _
  | some port =>
    have hn : nodeId t1 = nodeId s1 := by unfold nodeId; rw [h1.config]
    dsimp only
    rw [hn]
    exact .intro (h1.transmit _) _

/-- A send that is known on one side is known on the other. -/
theorem sendFrame_eq (h : Walks k e s t) {pa len : Nat} {wr : Bool} {data : List Byte} {v : State} {b : Bool}
    (hv : Machine.sendFrame s pa len wr data = (v, b)) : ∃ v', Machine.sendFrame t pa len wr data = (v', b) ∧ Walks k e v v' := by
  obtain ⟨s1, t1, x, hs, ht, h1⟩ := h.sendFrame pa len wr data
  rw [hs] at hv
  cases hv
  exact ⟨t1, ht, h1⟩

/-! ### Pieces -/

theorem setPieces (h : Walks k e s t) (n : Nat) (l : List Piece) :
    Walks k e { s with pieceNext := n, pieces := l } { t with pieceNext := n, pieces := l } := by
  refine ⟨?_, h.2⟩
  have h1 := h.1
  simp only [State.rest, State.mk.injEq] at h1 ⊢
  simp_all

end Walks

/-- The number of the next piece, and piece p with it under way. -/
def withPiece (s : State) (p : Piece) : State :=
  { s with pieceNext := s.pieceNext + 1, pieces := s.pieces ++ [{ p with id := s.pieceNext + 1 }] }

/-- The pieces without the one of that number. -/
def unsend (s : State) (id : Nat) : State := { s with pieces := s.pieces.filter fun x => x.id != id }

theorem Walks.withPiece {k : Nat} {e : Eng} {s t : State} (h : Walks k e s t) (p : Piece) :
    Walks k e (Machine.withPiece s p) (Machine.withPiece t p) := by
  unfold Machine.withPiece
  rw [h.pieceNext, h.pieces]
  exact h.setPieces _ _

theorem Walks.unsend {k : Nat} {e : Eng} {s t : State} (h : Walks k e s t) (n : Nat) :
    Walks k e (Machine.unsend s n) (Machine.unsend t n) := by
  have h1 : Machine.unsend t n = { t with pieceNext := s.pieceNext, pieces := s.pieces.filter fun x => x.id != n } := by
    rw [← h.pieceNext, ← h.pieces]; rfl
  rw [h1]
  exact h.setPieces s.pieceNext _

/-! How a piece leaves, by the region of its address. -/

theorem sendPiece_near (s : State) (p : Piece) (hh : region p.pa ≠ .host) (hp : region p.pa ≠ .peer) :
    sendPiece s p = (s.pieceNext + 1, withPiece s p) := by
  unfold sendPiece
  generalize region p.pa = r at hh hp
  cases r with
  | host => exact absurd rfl hh
  | peer => exact absurd rfl hp
  | fast | cap | mgmt | hole => rfl

theorem sendPiece_host (s : State) (p : Piece) (hh : region p.pa = .host) :
    sendPiece s p = (s.pieceNext + 1,
      if p.wr then hostRead (hostWrite (withPiece s p) p.pa p.data) p.pa 0 else hostRead (withPiece s p) p.pa p.len) := by
  unfold sendPiece
  rw [hh]
  rfl

theorem sendPiece_peer {s v : State} {p : Piece} (hp : region p.pa = .peer)
    (hv : sendFrame (withPiece s p) p.pa p.len p.wr p.data = (v, true)) : sendPiece s p = (s.pieceNext + 1, v) := by
  unfold sendPiece
  extract_lets id t
  change sendFrame t _ _ _ _ = _ at hv
  rw [hv, hp]

theorem sendPiece_unreachable {s v : State} {p : Piece} (hp : region p.pa = .peer) (ho : p.own.outside = false)
    (hv : sendFrame (withPiece s p) p.pa p.len p.wr p.data = (v, false)) :
    sendPiece s p = (0, raiseCause (unsend v (s.pieceNext + 1)) (tkey p.core p.bank) 334 0 0) := by
  unfold sendPiece
  extract_lets id t
  change sendFrame t _ _ _ _ = _ at hv
  rw [hv, hp, ho]
  rfl

end Sys2Proof.Machine
end

section
/-!
SUPPORT. An access of S (15_conductor R267, R268): what its translation leaves to prove of the instruction that makes it, and what S's
asking for bytes by a piece comes to.
-/

namespace Sys2Proof.Machine

/-! ### Translation -/

/-- An access of S that hits goes on from a state that S alone has walked to from u. -/
theorem exec_hit {i : Instr} {s u : State} {body : State → State} {start : Nat → State → State} {va acc : Nat} {l : Leaf}
    (he : exec i s = .next (issue false body s)) (h : CanIssue s)
    (hb : ∀ t, Walks s.key s.cur.eng s t → body t = withPhys va acc start t) (hh : Hits s va acc l u) :
    ∃ t, exec i s = .next (start (l.phys va) t) ∧ Walks s.key s.cur.eng u t ∧ AtIt s t := by
  obtain ⟨t, hex, hw, -, hr, m, hl⟩ := exec_issue he h (by simp)
  obtain ⟨v, hv, hwv⟩ := hw.hits hh
  refine ⟨v, by rw [hex, hb t hw, withPhys_hit hv], hwv, ?_⟩
  obtain ⟨c, -, -, -, rfl⟩ := hv
  exact AtIt.modMe ⟨by rw [hl], hr.1⟩ _ (fun x => by rfl) fun x => by rfl

theorem Walks.startWalk {e : Eng} {s t : State} (h : Walks s.key e s t) (unit va : Nat) (ahead : Bool) (cmd : Nat) :
    Walks s.key e (Machine.startWalk s s.key unit va ahead cmd) (Machine.startWalk t t.key unit va ahead cmd) := by
  unfold Machine.startWalk
  rw [h.key]
  refine h.modTask _ _ ?_
  have h2 := h.2
  have h3 : (t.task s.key).tlb = (s.task s.key).tlb := h.field (fun x => x.tlb) fun _ => rfl
  rw [h3]
  split
  · exact h2
  · simp only [Task.still, Task.mk.injEq] at h2 ⊢
    simp_all

/-- What a translation leaves to prove of an access of S: what it does where it hits (R267, R327, R328). -/
theorem translates_of {i : Instr} {s : State} {body : State → State} {start : Nat → State → State} {va acc : Nat} {go : Leaf → State → Prop}
    (he : exec i s = .next (issue false body s)) (h : CanIssue s)
    (hb : ∀ t, Walks s.key s.cur.eng s t → body t = withPhys va acc start t) (hgo : ∀ l u, Hits s va acc l u → go l u) :
    Translates i s va acc go := by
  have found (t : State) (hw : Walks s.key s.cur.eng s t) : (t.task t.key).tlb = s.me.tlb := hw.me_field (fun x => x.tlb) fun _ => rfl
  have front (c : List Leaf) (t : State) (hw : Walks s.key s.cur.eng s t) :
      Walks s.key s.cur.eng (s.modMe fun x => { x with tlb := { x.tlb with cond := c } })
        (t.modMe fun x => { x with tlb := { x.tlb with cond := c } }) := by
    refine hw.modMe _ fun a b hab => ?_
    have ht : a.tlb = b.tlb := (congrArg Task.tlb hab :)
    simp only [Task.still, Task.mk.injEq] at hab ⊢
    simp_all
  refine ⟨fun hmiss => moves_of he h (by simp) fun t hw _ => ?_, fun l c hl => ⟨fun hp => moves_of he h (by simp) fun t hw _ => ?_,
    fun hp ha => moves_of he h (by simp) fun t hw _ => ?_, fun hp ha => hgo l _ ⟨c, hl, hp, ha, rfl⟩⟩⟩
  · have h1 := hw.startWalk 0 va false 0
    have h2 := waitFor_walks .retry (Machine.startWalk t t.key 0 va false 0)
    have hc : (Machine.startWalk t t.key 0 va false 0).cur = s.cur := hw.cur
    rw [show (Machine.startWalk t t.key 0 va false 0).key = s.key from hw.key, hc] at h2
    rw [hb t hw]
    unfold withPhys translate
    rw [found t hw, hmiss]
    exact h1.trans h2
  · have h1 := Walks.trapAt (s := s.modMe fun x => { x with tlb := { x.tlb with cond := c } }) (front c t hw) 176 va
    rw [hb t hw]
    unfold withPhys translate
    rw [found t hw, hl]
    have hp' : Machine.placed (t.modTask t.key fun x => { x with tlb := { x.tlb with cond := c } }) l va = false := by
      rw [← hp, ← hw.placed l va]; rfl
    simp only [hp', Bool.not_false, if_true]
    exact h1
  · have h1 := Walks.trapAt (s := s.modMe fun x => { x with tlb := { x.tlb with cond := c } }) (front c t hw) 175 va
    rw [hb t hw]
    unfold withPhys translate
    rw [found t hw, hl]
    have hp' : Machine.placed (t.modTask t.key fun x => { x with tlb := { x.tlb with cond := c } }) l va = true := by
      rw [← hp, ← hw.placed l va]; rfl
    simp only [hp', ha, Bool.not_true, Bool.false_eq_true, if_false]
    exact h1

/-! ### Asking for bytes -/

theorem cur_of_sendFrame {s v : State} {pa n : Nat} {wr b : Bool} {data : List Byte} (h : sendFrame s pa n wr data = (v, b)) :
    v.cur = s.cur := by
  have hc := sendFrame_cur s pa n wr data
  rwa [h] at hc

/-- The piece by which S asks for n bytes at pa. -/
def loadPiece (s : State) (n pa : Nat) : Piece :=
  { core := s.cur.core, bank := s.cur.bank, die := dieOf s.cur.core, own := .sLoad, pa := pa, len := n }

/-- S waits for its load l. -/
def awaitLoad (l : SLoad) (s : State) : State := waitFor .load (s.modMe fun t => { t with s := { t.s with load := some l } })

/-- S asks for n bytes at pa for its load l: it waits, or stops where the piece could not leave. -/
def askFor (n pa : Nat) (l : SLoad) (s : State) : State :=
  match sendPiece s (loadPiece s n pa) with
  | (id, s) => if id = 0 then s.modMyEng fun x => { x with stopped := true } else awaitLoad { l with piece := id } s

theorem askFor_near {n pa : Nat} {l : SLoad} {s : State} (hh : region pa ≠ .host) (hp : region pa ≠ .peer) :
    askFor n pa l s = awaitLoad { l with piece := s.pieceNext + 1 } (withPiece s (loadPiece s n pa)) := by
  unfold askFor
  rw [sendPiece_near s (loadPiece s n pa) hh hp]
  rfl

/-- The executing engine changed in the same way on both sides, where u is reached from s. -/
theorem Walks.modMyEngFrom {s u t : State} (h : Walks s.key s.cur.eng u t) (hc : u.cur = s.cur) (f : EngSt → EngSt)
    (hf : ∀ a b : EngSt, a.still = b.still → (f a).still = (f b).still) : Walks s.key s.cur.eng (u.modMyEng f) (t.modMyEng f) := by
  have hk : u.key = s.key := by unfold State.key; rw [hc]
  rw [← hk, ← hc] at h ⊢
  exact h.modMyEng f hf

theorem Walks.halt {s u t : State} (h : Walks s.key s.cur.eng u t) (hc : u.cur = s.cur) :
    Walks s.key s.cur.eng (u.modMyEng fun x => { x with stopped := true }) (t.modMyEng fun x => { x with stopped := true }) :=
  h.modMyEngFrom hc _ fun a b hab => by simp only [EngSt.still, EngSt.mk.injEq] at hab ⊢; simp_all

theorem Walks.setLoad {s t : State} (h : Walks s.key s.cur.eng s t) (l : Option SLoad) :
    Walks s.key s.cur.eng (s.modMe fun x => { x with s := { x.s with load := l } }) (t.modMe fun x => { x with s := { x.s with load := l } }) := by
  refine h.modMe _ fun a b hab => ?_
  have hs : a.s = b.s := (congrArg Task.s hab :)
  simp only [Task.still, Task.mk.injEq] at hab ⊢
  simp_all

theorem awaitLoad_walks {s u t : State} (h : Walks s.key s.cur.eng u t) (hc : u.cur = s.cur) (l : SLoad) :
    Walks s.key s.cur.eng (u.modMe fun x => { x with s := { x.s with load := some l } }) (awaitLoad l t) := by
  have hk : u.key = s.key := by unfold State.key; rw [hc]
  rw [← hk, ← hc] at h ⊢
  exact waits_walks (s := u.modMe fun x => { x with s := { x.s with load := some l } }) (h.setLoad (some l)) .load

/-- What S's asking comes to (R125, R152, R268, R365). -/
theorem asks_of {i : Instr} {s u t : State} {n pa : Nat} {l : SLoad} (he : exec i s = .next (askFor n pa l t))
    (hw : Walks s.key s.cur.eng u t) (hc : u.cur = s.cur) : Asks i s u n pa l := by
  have hk : u.key = s.key := by unfold State.key; rw [hc]
  have hp : loadPiece t n pa = loadPiece s n pa := by unfold loadPiece; rw [hw.cur, hc]
  have hid : t.pieceNext + 1 ≠ 0 := by omega
  unfold askFor at he
  rw [hp] at he
  have hw1 := hw.withPiece (loadPiece s n pa)
  have waits (v v' : State) (hv : Walks s.key s.cur.eng v v') (hvc : v.cur = s.cur)
      (hs : sendPiece t (loadPiece s n pa) = (t.pieceNext + 1, v')) :
      Moves i s (v.modMe fun x => { x with s := { x.s with load := some { l with piece := u.pieceNext + 1 } } }) := by
    rw [hs] at he
    dsimp only at he
    rw [if_neg hid, hw.pieceNext] at he
    exact ⟨_, he, awaitLoad_walks hv hvc _⟩
  refine ⟨fun hh hpe => ?_, fun hh => ?_, fun hpe v => ⟨fun hv => ?_, fun hv => ?_⟩⟩
  · exact waits _ _ hw1 hc (sendPiece_near _ _ hh hpe)
  · exact waits _ _ (hw1.hostRead pa n) hc (sendPiece_host _ _ hh)
  · obtain ⟨v', hv', hwv⟩ := hw1.sendFrame_eq (pa := pa) (len := n) (wr := false) (data := []) hv
    exact waits _ _ hwv ((cur_of_sendFrame (s := withPiece u (loadPiece s n pa)) hv).trans hc) (sendPiece_peer hpe hv')
  · obtain ⟨v', hv', hwv⟩ := hw1.sendFrame_eq (pa := pa) (len := n) (wr := false) (data := []) hv
    have hvc : v.cur = s.cur := (cur_of_sendFrame (s := withPiece u (loadPiece s n pa)) hv).trans hc
    rw [sendPiece_unreachable (p := loadPiece s n pa) hpe rfl hv', hw.pieceNext] at he
    refine ⟨_, he, Walks.halt ((hwv.unsend (u.pieceNext + 1)).raiseCause s.key 334 0 0) ?_⟩
    rw [raiseCause_cur]
    exact hvc

end Sys2Proof.Machine
end

section
/-!
SUPPORT. The loads of S (15_conductor R267-R269, 16_ordering R293-R295), from issue to the return of their data.
-/

namespace Sys2Proof.Machine

/-! ### How a load starts -/

/-- A load that no line of the data cache can serve asks for its bytes: a plain one of the two tiers for its line (R268). -/
theorem startLoad_asks {d n va pa : Nat} {sgn : Bool} {acq : Option Nat} {s : State}
    (h : (acq.isNone && cacheable pa && (Sparse.rd none s.me.s.cache (pa / 64)).isSome) = false) :
    startLoad d n sgn acq va pa s = askFor (if (acq.isNone && cacheable pa) = true then 64 else n)
      (if (acq.isNone && cacheable pa) = true then pa / 64 * 64 else pa) { d := d, size := n, sgn := sgn, acq := acq, va := va, pa := pa } s := by
  unfold startLoad askFor loadPiece awaitLoad
  simp only [h, Bool.false_and, Bool.false_eq_true, if_false, Bool.not_false, true_and]

/-- A load whose line is present is served by it, where the line has stayed. -/
theorem startLoad_hits {d n va pa : Nat} {sgn : Bool} {acq : Option Nat} {s : State}
    (h : (acq.isNone && cacheable pa && (Sparse.rd none s.me.s.cache (pa / 64)).isSome) = true) (hc : Config.freeChoice s.free % 2 = 0) :
    startLoad d n sgn acq va pa s = awaitLoad { d := d, size := n, sgn := sgn, acq := acq, va := va, pa := pa } { s with free := s.free + 1 } := by
  unfold startLoad awaitLoad State.choose
  simp [h, hc]

/-- Where the line is gone, it is dropped and asked for again. -/
theorem startLoad_drops {d n va pa : Nat} {sgn : Bool} {acq : Option Nat} {s : State}
    (h : (acq.isNone && cacheable pa && (Sparse.rd none s.me.s.cache (pa / 64)).isSome) = true) (hc : Config.freeChoice s.free % 2 ≠ 0) :
    startLoad d n sgn acq va pa s = askFor 64 (pa / 64 * 64) { d := d, size := n, sgn := sgn, acq := acq, va := va, pa := pa }
      (({ s with free := s.free + 1 } : State).modMe fun t => { t with s := { t.s with cache := Sparse.wr none t.s.cache (pa / 64) none } }) := by
  obtain ⟨hw, hpres⟩ := Bool.and_eq_true_iff.1 h
  have hb : (Config.freeChoice s.free % 2 == 0) = false := by simpa using hc
  unfold startLoad askFor loadPiece awaitLoad State.choose
  simp only [hw, hpres, hb, Bool.true_and, Bool.and_false, Bool.false_eq_true, if_false, if_true, Bool.not_false, true_and]

/-! ### How a load returns -/

theorem returnLoad_unready {s u : State} {k : Nat} {l : SLoad} (hl : (s.task k).s.load = some l) (hs : (s.eng k .s).stopped = false)
    (hp : l.piece ≠ 0) (hr : readyPiece s l.piece = (u, none)) : returnLoad s k = u := by
  unfold returnLoad
  simp only [hl, hs, hp, hr, Bool.false_eq_true, if_false]

theorem returnLoad_bad {s u : State} {k : Nat} {l : SLoad} {p : Piece} (hl : (s.task k).s.load = some l) (hs : (s.eng k .s).stopped = false)
    (hp : l.piece ≠ 0) (hr : readyPiece s l.piece = (u, some p)) (hst : p.st = .bad) :
    returnLoad s k = (dropPiece u l.piece).modEng k .s fun x => { x with stopped := true } := by
  unfold returnLoad
  simp only [hl, hs, hp, hr, hst, Bool.false_eq_true, if_false, if_true]

theorem returnLoad_served {s u : State} {k : Nat} {l : SLoad} {p : Piece} (hl : (s.task k).s.load = some l) (hs : (s.eng k .s).stopped = false)
    (hp : l.piece ≠ 0) (hr : readyPiece s l.piece = (u, some p)) (hst : p.st = .served) :
    returnLoad s k = retireLoad (if p.len = 64 ∧ (!l.keep) = true then fillLine (dropPiece u l.piece) k (l.pa / 64) (Mem.wrList [] 0 p.data)
      else dropPiece u l.piece) k l p.pa p.data := by
  unfold returnLoad
  have hb : ¬ p.st = .bad := by rw [hst]; decide
  simp only [hl, hs, hp, hr, hb, Bool.false_eq_true, if_false]

theorem returnLoad_line {s : State} {k : Nat} {l : SLoad} (hl : (s.task k).s.load = some l) (hs : (s.eng k .s).stopped = false)
    (hp : l.piece = 0) :
    returnLoad s k = retireLoad s k l (64 * (l.pa / 64)) (((Sparse.rd none (s.task k).s.cache (l.pa / 64)).getD []).rdList 0 64) := by
  unfold returnLoad
  simp only [hl, hs, hp, Bool.false_eq_true, if_false, if_true]

theorem returnLoad_idle {s : State} {k : Nat} (hl : (s.task k).s.load = none) : returnLoad s k = s := by
  unfold returnLoad
  simp only [hl]

/-- The piece that is ready: one that has been served, or has failed, as it stands. -/
theorem readyPiece_ended {s : State} {id : Nat} {p : Piece} (hf : findPiece s id = some p) (hst : p.st = .served ∨ p.st = .bad) :
    readyPiece s id = (s, some p) := by
  unfold readyPiece
  rcases hst with h | h <;> simp only [hf, h]

theorem readyPiece_waits {s : State} {id : Nat} {p : Piece} (hf : findPiece s id = some p)
    (hst : p.st = .queued ∨ (p.st = .sent ∧ region p.pa ≠ .cap)) : readyPiece s id = (s, none) := by
  unfold readyPiece
  rcases hst with h | ⟨h, hr⟩
  · simp only [hf, h]
  · simp only [hf, h, hr, false_and, if_false]

theorem readyPiece_none {s : State} {id : Nat} (hf : findPiece s id = none) : readyPiece s id = (s, none) := by
  unfold readyPiece
  simp only [hf]

/-! ### What a load leaves -/

/-- The value of a load in its register, the load done with. -/
def landed (u : State) (k d : Nat) (w : Word) : State :=
  u.modTask k fun x => { x with sreg := if d = 0 then x.sreg else Sparse.wr 0 x.sreg d w, s := { x.s with load := none } }

theorem setS_focus (u : State) (k d : Nat) (w : Word) :
    let x := setS (focus (u.modTask k fun t => { t with s := { t.s with load := none } }) k .s) d w
    x = { landed u k d w with cur := x.cur } := by
  intro x
  have hkey := focus_key (u.modTask k fun t => { t with s := { t.s with load := none } }) k .s
  unfold x setS landed
  by_cases hd : d = 0
  · simp only [hd, if_true]; rfl
  · simp only [hd, if_false]
    unfold State.modMe
    rw [hkey]
    have h := modTask_modTask u k (fun t => { t with s := { t.s with load := none } }) fun t => { t with sreg := Sparse.wr 0 t.sreg d w }
    exact congrArg (fun v : State => { v with cur := (focus (u.modTask k fun t => { t with s := { t.s with load := none } }) k .s).cur }) h

/-- A load that does not keep its bytes for an instruction retires with them: its register takes the value, and S goes on (R258, R267). -/
theorem retireLoad_lands (u : State) (core bank : Nat) {l : SLoad} (hk : l.keep = false) (base : Nat) (bs : List Byte) :
    let k := tkey core bank
    let t := retireLoad u k l base bs
    (t.eng k .s).wait = .none
      ∧ Walks k .s { landed u k l.d (loadValue l.size l.sgn ((bs.drop (l.pa - base)).take l.size)) with cur := t.cur } t := by
  intro k t
  generalize hw : loadValue l.size l.sgn ((bs.drop (l.pa - base)).take l.size) = w
  have ht : t = advance (setS (focus (u.modTask k fun t => { t with s := { t.s with load := none } }) k .s) l.d w) := by
    unfold t retireLoad; simp only [hk, Bool.false_eq_true, if_false, hw]
  have hx := setS_focus u k l.d w
  have hkey : (setS (focus (u.modTask k fun t => { t with s := { t.s with load := none } }) k .s) l.d w).key = k := by
    rw [setS_key, focus_key]
  have heng : (setS (focus (u.modTask k fun t => { t with s := { t.s with load := none } }) k .s) l.d w).cur.eng = .s := by
    rw [setS_cur]; rfl
  generalize setS (focus (u.modTask k fun t => { t with s := { t.s with load := none } }) k .s) l.d w = x at ht hx hkey heng
  have hwait := advance_wait x
  have hwalk := advance_walks x
  rw [hkey, heng] at hwait hwalk
  rw [ht]
  refine ⟨hwait, ?_⟩
  rw [hwalk.cur, ← hx]
  exact hwalk

/-- A line put into the data cache changes that cache and the count of free values alone. -/
theorem near_fillLine (s : State) (k line : Nat) (m : Mem) : Near k s (fillLine s k line m) := by
  unfold fillLine
  dsimp only
  split
  · exact near_trans (near_of_eq (t := s.choose.2) rfl) (near_mod fun x => by rfl)
  · exact near_mod fun x => by rfl

theorem fillLine_pieces (s : State) (k line : Nat) (m : Mem) : (fillLine s k line m).pieces = s.pieces := by
  unfold fillLine; dsimp only; split <;> rfl
theorem fillLine_cur (s : State) (k line : Nat) (m : Mem) : (fillLine s k line m).cur = s.cur := by
  unfold fillLine; dsimp only; split <;> rfl

/-! ### A plain load of the capacity tier -/

/-- The byte of memory at a as S of task k sees it: its stores that memory does not hold yet lie over it. -/
def memSeen (s : State) (k a : Nat) : Byte :=
  (unperformed s k).foldl (fun b st => if st.pa ≤ a ∧ a < st.pa + st.size then BitVec.ofNat 8 (st.val / 256 ^ (a - st.pa)) else b) (s.mem.get a)

theorem seenByS_mem (s : State) (k base n : Nat) :
    seenByS s k base (s.mem.rdList base n) = (List.range n).map fun i => memSeen s k (base + i) := by
  rw [rdList_eq]
  exact seenByS_eq s k base n fun a => s.mem.get a

/-- A piece that has not been served hides no store. -/
theorem unperformed_last {s t : State} {k : Nat} {old : List Piece} {p q : Piece} (hs : s.pieces = old ++ [p]) (ht : t.pieces = old ++ [q])
    (hp : p.st = .sent) (hq : q.st = .sent) (hst : (t.task k).s.stores = (s.task k).s.stores) : unperformed t k = unperformed s k := by
  unfold unperformed
  rw [hst, hs, ht]
  have hne : (PieceSt.sent == PieceSt.served) = false := rfl
  simp [hp, hq, hne]

/-- The piece of a line of the capacity tier for a load of S, some of its units moved. -/
def linePiece (id core bank pa units : Nat) (data : List Byte) : Piece :=
  { id := id, core := core, bank := bank, die := dieOf core, own := .sLoad, pa := pa, len := 64, units := units, data := data }

theorem unitsIn_line {id core bank pa units : Nat} {data : List Byte} (h : pa % 64 = 0) : unitsIn (linePiece id core bank pa units data) = 2 := by
  unfold unitsIn linePiece; dsimp only; omega

theorem unitOff_line {id core bank pa units : Nat} {data : List Byte} (h : pa % 64 = 0) (n : Nat) :
    unitOff (linePiece id core bank pa units data) n = Nat.min 64 (32 * n) := by
  unfold unitOff linePiece; dsimp only
  rw [show pa % 32 = 0 by omega]; rfl

/-- Choosing how much of a piece moves draws a free value at most. -/
theorem portion_eq (s : State) (n : Nat) : ∃ c, (s.portion n).2 = { s with free := c } := by
  unfold State.portion State.choose
  split
  · exact ⟨s.free, rfl⟩
  · exact ⟨s.free + 1, rfl⟩

/-- The next n units of such a piece (R293): the bytes of their addresses as S sees them. -/
theorem line_ready {t : State} {old : List Piece} {id core bank pa m n : Nat} {data : List Byte} {u : State}
    (hp : t.pieces = old ++ [linePiece id core bank pa m data]) (hid : ∀ q ∈ old, q.id < id) (hm : t.reg regMcfg % 2 ^ 16 = 0)
    (hal : pa % 64 = 0) (hr : region pa = .cap) (hn : t.portion (2 - m) = (n, u)) :
    let f := Nat.min 64 (32 * m)
    let g := Nat.min 64 (32 * (m + n))
    let bs := data ++ (List.range (g - f)).map fun i => memSeen t (tkey core bank) (pa + f + i)
    let q : Piece := { linePiece id core bank pa (m + n) bs with st := if 2 ≤ m + n then .served else .sent }
    ∃ c, readyPiece t id = ({ u with counters := c, pieces := old ++ [q] }, if 2 ≤ m + n then some q else none) := by
  intro f g bs q
  obtain ⟨c0, hu⟩ := portion_eq t (2 - m)
  rw [hn] at hu
  dsimp only at hu
  have hid' : ∀ x ∈ old, x.id < (linePiece id core bank pa m data).id := hid
  have hpu : u.pieces = old ++ [linePiece id core bank pa m data] := by rw [hu]; exact hp
  have hready := ready_sent hp hid' rfl hr rfl
  rw [unitsIn_line hal, show (linePiece id core bank pa m data).units = m from rfl, hn] at hready
  obtain ⟨c, hc⟩ := serveCap_load hpu hid' (by rw [hu]; exact hm) rfl rfl n
  rw [unitsIn_line hal, unitOff_line hal, unitOff_line hal, seenByS_mem] at hc
  have hq : serveCap u (linePiece id core bank pa m data) n = { u with counters := c, pieces := old ++ [q] } := by
    rw [hc]
    subst hu
    rfl
  refine ⟨c, ?_⟩
  have hf : findPiece ({ u with counters := c, pieces := old ++ [q] } : State) id = some q :=
    find_last (t := { u with counters := c, pieces := old ++ [q] }) (p := q) rfl hid
  dsimp only at hready
  rw [hq, show (linePiece id core bank pa m data).id = id from rfl, hf] at hready
  rw [hready]
  refine Prod.ext rfl ?_
  unfold q
  by_cases h2 : 2 ≤ m + n
  · simp only [h2, if_true]; rfl
  · simp only [h2, if_false]; rfl

/-- S's load of a line of the capacity tier returns in one act or in two (R293), with the bytes of the line as S sees them. -/
theorem returnLoad_cap {t : State} {old : List Piece} {id core bank pa : Nat} {l : SLoad}
    (hp : t.pieces = old ++ [linePiece id core bank pa 0 []]) (hid : ∀ q ∈ old, q.id < id) (hm : t.reg regMcfg % 2 ^ 16 = 0)
    (hal : pa % 64 = 0) (hr : region pa = .cap) (hl : (t.task (tkey core bank)).s.load = some l)
    (hs : (t.eng (tkey core bank) .s).stopped = false) (hlp : l.piece = id) (h0 : id ≠ 0) (hkeep : l.keep = false) :
    let k := tkey core bank
    ∃ t1 t2 w, returnLoad t k = t1 ∧ (t2 = t1 ∨ returnLoad t1 k = t2)
      ∧ t2 = retireLoad w k l pa ((List.range 64).map fun i => memSeen t k (pa + i)) ∧ Near k t w ∧ w.pieces = old ∧ w.cur = t.cur := by
  intro k
  have hne : l.piece ≠ 0 := by rw [hlp]; exact h0
  -- The end of the last act, from a state v that differs from t in counters, free values and the piece alone.
  have ends (v : State) (q : Piece) (hv : Near k t v) (hvc : v.cur = t.cur) (hvp : v.pieces = old ++ [q]) (hq : q.id = id)
      (hlen : q.len = 64) :
      let w := if q.len = 64 ∧ (!l.keep) = true then fillLine (dropPiece v l.piece) k (l.pa / 64) (Mem.wrList [] 0 q.data) else dropPiece v l.piece
      Near k t w ∧ w.pieces = old ∧ w.cur = t.cur := by
    have hd : dropPiece v l.piece = { v with pieces := old } := by
      rw [hlp, ← hq]; exact drop_last hvp (by rw [hq]; exact hid)
    intro w
    have hw : w = fillLine { v with pieces := old } k (l.pa / 64) (Mem.wrList [] 0 q.data) := by
      unfold w; rw [if_pos ⟨hlen, by rw [hkeep]; rfl⟩, hd]
    rw [hw]
    refine ⟨near_trans hv (near_trans (near_of_eq rfl) (near_fillLine _ _ _ _)), fillLine_pieces _ _ _ _, ?_⟩
    rw [fillLine_cur]; exact hvc
  by_cases hc : Config.freeChoice t.free % 2 = 0
  · have hn : t.portion (2 - 0) = (2, { t with free := t.free + 1 }) := by
      unfold State.portion State.choose; simp [hc]
    obtain ⟨c, hready⟩ := line_ready hp hid hm hal hr hn
    let q : Piece := { linePiece id core bank pa 2 ((List.range 64).map fun i => memSeen t k (pa + i)) with st := .served }
    let v : State := { t with free := t.free + 1, counters := c, pieces := old ++ [q] }
    have hready' : readyPiece t l.piece = (v, some q) := by rw [hlp]; exact hready
    exact ⟨_, _, _, returnLoad_served hl hs hne hready' rfl, .inl rfl, rfl, ends v q (near_of_eq rfl) rfl rfl rfl rfl⟩
  · have hn : t.portion (2 - 0) = (1, { t with free := t.free + 1 }) := by
      have : Config.freeChoice t.free % 2 = 1 := by omega
      unfold State.portion State.choose; simp [this]
    obtain ⟨c, hready⟩ := line_ready hp hid hm hal hr hn
    let p1 := linePiece id core bank pa 1 ((List.range 32).map fun i => memSeen t k (pa + i))
    let t1 : State := { t with free := t.free + 1, counters := c, pieces := old ++ [p1] }
    have hready1 : readyPiece t l.piece = (t1, none) := by rw [hlp]; exact hready
    obtain ⟨c', hready'⟩ := line_ready (t := t1) (m := 1) (n := 1) (u := t1) rfl hid hm hal hr rfl
    have hmem (a : Nat) : memSeen t1 k a = memSeen t k a := by
      unfold memSeen
      rw [unperformed_last hp (show t1.pieces = old ++ [p1] from rfl) rfl rfl rfl]
    have hdata : ((List.range 32).map fun i => memSeen t k (pa + i)) ++ ((List.range 32).map fun i => memSeen t1 k (pa + 32 + i))
        = (List.range 64).map fun i => memSeen t k (pa + i) := by
      rw [show List.range 64 = List.range (32 + 32) from rfl, List.range_add, List.map_append, List.map_map]
      simp only [hmem, Function.comp_def, Nat.add_assoc]
    let q : Piece := { linePiece id core bank pa 2 ((List.range 64).map fun i => memSeen t k (pa + i)) with st := .served }
    let v : State := { t1 with counters := c', pieces := old ++ [q] }
    have hready2 : readyPiece t1 l.piece = (v, some q) := by
      rw [hlp]
      unfold v q
      rw [← hdata]
      exact hready'
    have hl1 : (t1.task k).s.load = some l := hl
    exact ⟨t1, _, _, returnLoad_unready hl hs hne hready1, .inr (returnLoad_served hl1 hs hne hready2 rfl), rfl,
      ends v q (near_of_eq rfl) rfl rfl rfl rfl⟩

/-! ### The load instructions -/

/-- Where a load starts, its address translated: an acquire invalidates the cache first (R269). -/
def loadStart (d n : Nat) (sgn : Bool) (acq : Option Nat) (va pa : Nat) (s : State) : State :=
  startLoad d n sgn acq va pa (match acq with
    | some sc => acquireAt s s.key sc
    | none => s)

/-- What an instruction does that loads n bytes at va, no load of S being under way. -/
def loadBody (d n : Nat) (sgn : Bool) (acq : Option Nat) (va : Nat) (s : State) : State :=
  if va % n ≠ 0 then trap 5 s else withPhys va 0 (loadStart d n sgn acq va) s

theorem cacheable_iff (pa : Nat) : cacheable pa = true ↔ region pa = .fast ∨ region pa = .cap := by
  unfold cacheable; simp

/-- The sizes of a load or store of S (R267). -/
def AccessSize (n : Nat) : Prop := n = 1 ∨ n = 2 ∨ n = 4 ∨ n = 8

theorem phys_mod {l : Leaf} {va n : Nat} (hl : l.pa % 2 ^ 16 = 0) (hn : AccessSize n) (hva : va % n = 0) : l.phys va % n = 0 := by
  unfold Leaf.phys
  rcases hn with rfl | rfl | rfl | rfl <;> split <;> omega

/-- An aligned access lies in one line of 64 bytes. -/
theorem access_line {pa n : Nat} (hn : AccessSize n) (h : pa % n = 0) : 0 < n ∧ pa % 64 + n ≤ 64 ∧ pa % 32 + n ≤ 32 := by
  rcases hn with rfl | rfl | rfl | rfl <;> omega

/-! What nearness keeps. -/

theorem near_field {α : Type} {k : Nat} {s t : State} (h : Near k s t) (f : Task → α) (hf : ∀ x, f (x.still .s) = f x)
    (ha : ∀ x, f (Task.aside x) = f x) : f (t.task k) = f (s.task k) := by
  have h1 := Walks.field h f hf
  rw [aside_eq, aside_eq] at h1
  change f ((t.modTask k Task.aside).task k) = f ((s.modTask k Task.aside).task k) at h1
  rwa [State.task_modTask_same, State.task_modTask_same, ha, ha] at h1

theorem near_mem {k : Nat} {s t : State} (h : Near k s t) : t.mem = s.mem :=
  Walks.mem (s := s.aside k) (t := t.aside k) h
theorem near_reg {k : Nat} {s t : State} (h : Near k s t) (a : Nat) : t.reg a = s.reg a :=
  Walks.reg (s := s.aside k) (t := t.aside k) h a

/-- The state in which S waits for a piece of the two tiers, seen from the state of the issue. -/
theorem awaiting_near {s u t : State} (hs : s.cur.eng = .s) (hu : Near s.key s u) (hc : u.cur = s.cur) (hw : Walks s.key s.cur.eng u t)
    (p : Piece) (l : SLoad) :
    let T := awaitLoad l (withPiece t p)
    Near s.key s T ∧ T.cur = s.cur ∧ (T.task s.key).s.load = some l ∧ (T.eng s.key .s).stopped = (u.eng s.key .s).stopped
      ∧ T.pieces = u.pieces ++ [{ p with id := u.pieceNext + 1 }] := by
  intro T
  have htc : t.cur = s.cur := hw.cur.trans hc
  have htk : t.key = s.key := by unfold State.key; rw [htc]
  have hv : T = waitFor .load ((withPiece t p).modTask s.key fun x => { x with s := { x.s with load := some l } }) := by
    unfold T awaitLoad State.modMe; rw [show (withPiece t p).key = s.key from htk]
  generalize hg : (withPiece t p).modTask s.key (fun x => { x with s := { x.s with load := some l } }) = v at hv
  have hvc : v.cur = s.cur := by rw [← hg]; exact htc
  have hvk : v.key = s.key := by unfold State.key; rw [hvc]
  have hvT := waitFor_walks .load v
  rw [hvk, hvc, ← hv] at hvT
  rw [hs] at hw hvT
  have hnv : Near s.key s v := by
    rw [← hg]
    exact near_trans hu (near_trans (near_of_walks hw) (near_trans (near_of_eq (t := withPiece t p) rfl) (near_mod fun x => by rfl)))
  refine ⟨near_trans hnv (near_of_walks hvT), hvT.cur.trans hvc, ?_, ?_, ?_⟩
  · rw [hvT.field (fun x => x.s.load) fun _ => rfl, ← hg]; simp
  · rw [hvT.engField (fun x => x.stopped) fun _ => rfl, ← hg, eng_modTask fun x => by rfl]
    exact hw.engField (fun x => x.stopped) fun _ => rfl
  · rw [hvT.pieces, ← hg, ← hw.pieces, ← hw.pieceNext]; rfl

/-- A piece that has not been served hides no store of S. -/
theorem unperformed_sent {s t : State} {k : Nat} {p : Piece} (ht : t.pieces = s.pieces ++ [p]) (hp : p.st = .sent)
    (hst : (t.task k).s.stores = (s.task k).s.stores) : unperformed t k = unperformed s k := by
  have hne : (PieceSt.sent == PieceSt.served) = false := rfl
  unfold unperformed
  rw [hst, ht]
  simp [hp, hne]

/-- The value of a load from the bytes of its line as S sees them. -/
theorem loadValue_line {s t : State} {pa n : Nat} {sgn : Bool} (hr : region pa = .cap) (hn : AccessSize n) (hal : pa % n = 0)
    (hmem : t.mem = s.mem) (hun : unperformed t s.key = unperformed s s.key) :
    loadValue n sgn ((((List.range 64).map fun i => memSeen t s.key (64 * (pa / 64) + i)).drop (pa - 64 * (pa / 64))).take n)
      = seenValue s pa n sgn := by
  obtain ⟨-, h64, -⟩ := access_line hn hal
  have hb : ((((List.range 64).map fun i => memSeen t s.key (64 * (pa / 64) + i)).drop (pa - 64 * (pa / 64))).take n)
      = (List.range n).map fun i => SeenByte s (pa + i) := by
    rw [part_eq _ _ _ (by rw [List.length_map, List.length_range]; omega)]
    apply List.map_congr_left
    intro i hi
    have hi : i < n := by simpa using hi
    have hlt : pa - 64 * (pa / 64) + i < 64 := by omega
    rw [List.getD_eq_getElem _ _ (by simpa using hlt), List.getElem_map, List.getElem_range,
      show 64 * (pa / 64) + (pa - 64 * (pa / 64) + i) = pa + i by omega]
    have hri : region (pa + i) = .cap := by rw [region_cap] at hr ⊢; omega
    unfold memSeen SeenByte State.byteAt
    rw [hri, hun, hmem]
  rw [hb]
  rfl

/-- What a load of S does, issued with no load under way. -/
theorem loadsTo_of {i : Instr} {s : State} {body : State → State} {d va n : Nat} {sgn : Bool} {acq : Option Nat}
    (he : exec i s = .next (issue false body s)) (h : CanIssue s) (hs : s.cur.eng = .s) (hstop : s.myEng.stopped = false)
    (hn : AccessSize n) (hb : ∀ t, Walks s.key s.cur.eng s t → body t = loadBody d n sgn acq va t) : LoadsTo i s d va n sgn acq := by
  refine ⟨fun hva => moves_of he h (by simp) fun t hw _ => ?_, fun hva => ?_⟩
  · rw [hb t hw, loadBody, if_pos hva]
    exact hw.trap 5
  refine translates_of (start := loadStart d n sgn acq va) he h (fun t hw => by rw [hb t hw, loadBody, if_neg (by simpa using hva)]) fun leaf u hh => ?_
  obtain ⟨t, hex, hw, ha⟩ := exec_hit (start := loadStart d n sgn acq va) he h (fun t hw => by rw [hb t hw, loadBody, if_neg (by simpa using hva)]) hh
  have huc : u.cur = s.cur := hh.cur
  have huk : u.key = s.key := hh.key
  have hcache : t.me.s.cache = s.me.s.cache := by
    obtain ⟨c, -, -, -, rfl⟩ := hh
    have h1 : t.key = s.key := hw.key
    unfold State.me
    rw [h1, hw.field (fun x => x.s.cache) fun _ => rfl]
    simp [State.modMe]
  have hfree : t.free = u.free := hw.free
  extract_lets pa l plain line chosen dropped
  have hline : line = Sparse.rd none t.me.s.cache (pa / 64) := by rw [hcache]
  have hmul : pa / 64 * 64 = 64 * (pa / 64) := Nat.mul_comm _ _
  have present (hp : plain) : (acq.isNone && cacheable pa) = true := by
    rw [hp.1, (cacheable_iff pa).2 hp.2]; rfl
  have hit (hp : plain) (hl : line ≠ none) : (acq.isNone && cacheable pa && (Sparse.rd none t.me.s.cache (pa / 64)).isSome) = true := by
    rw [present hp, ← hline, Bool.true_and]; exact Option.isSome_iff_ne_none.2 hl
  have miss (hl : line = none) : (acq.isNone && cacheable pa && (Sparse.rd none t.me.s.cache (pa / 64)).isSome) = false := by
    rw [← hline, hl, Option.isSome_none, Bool.and_false]
  have start (hp : acq = none) : loadStart d n sgn acq va pa t = startLoad d n sgn acq va pa t := by subst hp; rfl
  refine ⟨fun sc hsc => ?_, fun hp hnp => ?_, fun hp hl => ?_, fun hp hl hc => ?_, fun hp hl hc => ?_, fun hp hl hr hlp hm hid => ?_⟩
  · subst hsc
    have hwa := hw.acquireAt s.key sc rfl
    refine asks_of (hex.trans ?_) hwa ?_
    · have hk : t.key = s.key := hw.key.trans huk
      unfold loadStart
      dsimp only
      rw [hk, startLoad_asks rfl]
      rfl
    · unfold Acquired; split <;> exact huc
  · have hcache : cacheable pa = false := by
      rw [Bool.eq_false_iff]; exact fun hc => hnp ⟨hp, (cacheable_iff pa).1 hc⟩
    refine asks_of (hex.trans ?_) hw huc
    rw [start hp, startLoad_asks (by rw [hcache, Bool.and_false, Bool.false_and]), hcache, Bool.and_false]
    rfl
  · refine asks_of (hex.trans ?_) hw huc
    rw [start hp.1, startLoad_asks (miss hl), present hp, if_pos rfl, if_pos rfl, hmul]
  · refine ⟨_, hex, ?_⟩
    rw [start hp.1, startLoad_hits (hit hp hl) (by rw [hfree]; exact hc), hfree]
    exact awaitLoad_walks (u := { u with free := u.free + 1 }) (hw.setFree (u.free + 1)) huc l
  · refine asks_of (u := dropped) (t := ({ t with free := u.free + 1 } : State).modMe fun x =>
      { x with s := { x.s with cache := Sparse.wr none x.s.cache (pa / 64) none } }) (hex.trans ?_) ?_ huc
    · rw [start hp.1, startLoad_drops (hit hp hl) (by rw [hfree]; exact hc), hfree, hmul]
    · have hwf := hw.setFree (u.free + 1)
      rw [← huk] at hwf ⊢
      refine Walks.modMe (s := { u with free := u.free + 1 }) hwf _ fun a b hab => ?_
      have hsu : a.s = b.s := (congrArg Task.s hab :)
      simp only [Task.still, Task.mk.injEq] at hab ⊢
      simp_all
  · have hpa : pa % n = 0 := phys_mod hlp hn hva
    have hrl : region (64 * (pa / 64)) = .cap := by rw [region_cap] at hr ⊢; omega
    have hus : Near s.key s u ∧ u.pieces = s.pieces ∧ u.pieceNext = s.pieceNext ∧ u.eng s.key .s = s.eng s.key .s := by
      obtain ⟨c, -, -, -, rfl⟩ := hh
      exact ⟨near_mod fun x => by rfl, rfl, rfl, eng_modTask (fun x => by rfl) _ _⟩
    obtain ⟨hnu, hup, hun, hue⟩ := hus
    obtain ⟨hnT, hTc, hTl, hTs, hTp⟩ := awaiting_near hs hnu huc hw (loadPiece t 64 (64 * (pa / 64))) { l with piece := t.pieceNext + 1 }
    have hexT : exec i s = .next (awaitLoad { l with piece := t.pieceNext + 1 } (withPiece t (loadPiece t 64 (64 * (pa / 64))))) := by
      rw [hex, start hp.1, startLoad_asks (miss hl), present hp, if_pos rfl, if_pos rfl, hmul,
        askFor_near (by rw [hrl]; decide) (by rw [hrl]; decide)]
    generalize awaitLoad { l with piece := t.pieceNext + 1 } (withPiece t (loadPiece t 64 (64 * (pa / 64)))) = T at hnT hTc hTl hTs hTp hexT
    have hlast : T.pieces = s.pieces ++ [linePiece (s.pieceNext + 1) s.cur.core s.cur.bank (64 * (pa / 64)) 0 []] := by
      rw [hTp, hup, hun]
      unfold loadPiece
      rw [hw.cur, huc]
      rfl
    have hsT : (T.eng s.key .s).stopped = false := by
      rw [hTs, hue]; unfold State.myEng at hstop; rwa [hs] at hstop
    obtain ⟨t1, t2, w, h1, h2, h3, hnw, hwp, hwc⟩ := returnLoad_cap hlast (fun q hq => Nat.lt_succ_of_le (hid q hq))
      (by rw [near_reg hnT]; exact hm) (Nat.mul_mod_right 64 _) hrl hTl hsT (by rw [hw.pieceNext, hun]) (Nat.succ_ne_zero _) rfl
    have hstores : (T.task s.key).s.stores = (s.task s.key).s.stores := near_field hnT (fun x => x.s.stores) (fun _ => rfl) fun _ => rfl
    have hval := loadValue_line (sgn := sgn) hr hn hpa (near_mem hnT) (unperformed_sent hlast rfl hstores)
    have hwk : w.key = s.key := by unfold State.key; rw [hwc, hTc]
    obtain ⟨hr1, hr2, hr3, hr4⟩ := retire_near (s := w) hwk (l := { l with piece := t.pieceNext + 1 }) (base := 64 * (pa / 64)) rfl hval
    refine ⟨T, t1, t2, hexT, congrArg _ h1, h2.imp id fun h => congrArg _ h, ?_⟩
    rw [h3]
    exact ⟨near_trans (near_setS (near_trans hnT hnw) rfl hwk d _) hr1, hr2.trans hwp, hr3, hr4⟩

theorem loadOp_loads {i : Instr} {s : State} {d n a imm : Nat} {sgn : Bool} (he : exec i s = .next (loadOp d n sgn a imm s)) (h : CanIssue s)
    (hs : s.cur.eng = .s) (hstop : s.myEng.stopped = false) (hl : s.me.s.load = none) (hn : AccessSize n) :
    LoadsTo i s d ((sv s a + immS s imm).toNat % 2 ^ 56) n sgn none := by
  refine loadsTo_of he h hs hstop hn fun t hw => ?_
  have hl' : t.me.s.load = none := (hw.me_field (fun x => x.s.load) fun _ => rfl).trans hl
  unfold loadAt effective
  rw [hl', hw.sv, hw.immS]
  rfl

theorem ldAcq_loads {s : State} (d a sc : Nat) (h : CanIssue s) (hs : s.cur.eng = .s) (hstop : s.myEng.stopped = false)
    (hl : s.me.s.load = none) : LoadsTo (.ldAcq d a sc) s d ((sv s a).toNat % 2 ^ 56) 8 false (some sc) := by
  refine loadsTo_of rfl h hs hstop (.inr (.inr (.inr rfl))) fun t hw => ?_
  have hl' : t.me.s.load = none := (hw.me_field (fun x => x.s.load) fun _ => rfl).trans hl
  dsimp only
  rw [hl', hw.sv]
  rfl

/-! ### A far slot serves the piece of a load -/

theorem fastRead_congr (f g : Nat → Nat) (src : Nat) : ∀ (l : List (Nat × Nat)) (s : State), (∀ x ∈ l, f x.1 = g x.1) →
    fastRead s f src l = fastRead s g src l
  | [], _, _ => rfl
  | (a, n) :: r, s, h => by
    unfold fastRead
    rw [h (a, n) (by simp)]
    split
    · rfl
    · rcases eccRead s (g a) src with ⟨s1, x⟩
      cases x with
      | none => rfl
      | some bs =>
        dsimp only
        rw [fastRead_congr f g src r s1 fun x hx => h x (by simp [hx])]

/-- The spans of n bytes from a begin among them. -/
theorem spans_bounds (w : Nat) : ∀ (k a n : Nat), ∀ x ∈ spans w k a n, a ≤ x.1 ∧ x.1 < a + n
  | 0, _, _, _, h => by simp [spans] at h
  | k + 1, a, n, x, h => by
    unfold spans at h
    split at h
    · simp at h
    · rw [List.mem_cons] at h
      rcases h with rfl | h
      · dsimp only; omega
      · have := spans_bounds w k _ _ x h
        have hm : Nat.min n (w - a % w) ≤ n := Nat.min_le_left _ _
        omega

/-- The placement of a frame holds for all its addresses (R57). -/
theorem stripOf_frame (s : State) {a b : Nat} (h : a / 2 ^ 21 = b / 2 ^ 21) : s.stripOf a = State.stripIn (s.ccFrame b) a := by
  have hc : chanOf a = chanOf b := by
    unfold chanOf
    rw [show (2 : Nat) ^ 30 = 2 ^ 21 * 512 from rfl, ← Nat.div_div_eq_div_mul, ← Nat.div_div_eq_div_mul, h]
  have hf : s.ccFrame a = s.ccFrame b := by unfold State.ccFrame; rw [h, hc]
  unfold State.stripOf; rw [hf]

/-- The bytes that S of task k sees at addresses of the fast tier. -/
theorem seenByS_bytes (s : State) (pa n : Nat) :
    seenByS s s.key pa ((List.range n).map fun i => s.byteAt (pa + i)) = (List.range n).map fun i => SeenByte s (pa + i) :=
  seenByS_eq s s.key pa n s.byteAt

/-- A far slot serves the piece of a load with the bytes that S then sees (R78, R295). -/
theorem serveFast_load {s : State} {p : Piece} (ho : p.own = .sLoad) (hw : p.wr = false) (hcore : p.core = s.cur.core)
    (hbank : p.bank = s.cur.bank) (hcc : p.cc = s.ccFrame p.pa) (hr : region p.pa = .fast) (h64 : p.pa % 64 + p.len ≤ 64)
    (hs : s.Sound p.pa p.len) (hm : s.reg regMcfg % 2 ^ 16 = 0) :
    ∃ c, serveFast s p = setPiece { s with counters := c }
      { p with st := .served, data := (List.range p.len).map fun i => SeenByte s (p.pa + i) } := by
  obtain ⟨c, hc⟩ := countAccess_quiet hm p
  have hread : fastRead { s with counters := c } (State.stripIn p.cc) 1 (stripSpans p.pa p.len)
      = ({ s with counters := c }, .ok ((List.range p.len).map fun i => s.byteAt (p.pa + i))) := by
    have hplace : ∀ x ∈ stripSpans p.pa p.len, State.stripIn p.cc x.1 = ({ s with counters := c } : State).stripOf x.1 := by
      intro x hx
      obtain ⟨h1, h2⟩ := spans_bounds 32 _ _ _ x hx
      rw [hcc]
      exact (stripOf_frame s (by omega)).symm
    have h1 := tierRead_sound { s with counters := c } p.pa p.len 1 hs
    unfold tierRead at h1
    rw [if_pos hr, ← fastRead_congr _ _ 1 _ _ hplace] at h1
    exact h1
  refine ⟨c, ?_⟩
  have hb : readBy { s with counters := c } p p.pa ((List.range p.len).map fun i => s.byteAt (p.pa + i))
      = (List.range p.len).map fun i => SeenByte s (p.pa + i) := by
    unfold readBy
    rw [if_pos ho, hcore, hbank]
    exact seenByS_bytes s p.pa p.len
  unfold serveFast
  rw [hc, ho, hw]
  dsimp only
  rw [if_neg (by simp), hread]
  dsimp only
  rw [hb, noteFrame_own (.inl ho)]

/-! ### The statement -/

/-- A line joins the data cache; it takes the place of one of a full cache, and which is open (R268). -/
theorem fillLine_eq (s : State) (k line : Nat) (m : Mem) :
    fillLine s k line m = if (s.task k).s.cache.length < 1024
      then s.modTask k fun x => { x with s := { x.s with cache := Sparse.wr none (s.task k).s.cache line (some m) } }
      else ({ s with free := s.free + 1 } : State).modTask k fun x => { x with s := { x.s with
        cache := Sparse.wr none ((s.task k).s.cache.eraseIdx (Config.freeChoice s.free % (s.task k).s.cache.length)) line (some m) } } := by
  unfold fillLine State.choose
  by_cases h : (s.task k).s.cache.length < 1024
  · have h' : ¬ 1024 ≤ (s.task k).s.cache.length := by omega
    simp only [h, h', if_true, if_false]
  · have h' : 1024 ≤ (s.task k).s.cache.length := by omega
    simp only [h, h', if_true, if_false]

/-- Settles O25: the issue of every load, the returns of its data, and the far slot that serves its piece. -/
theorem loads : Obligations.Loads := by
  unfold Obligations.Loads
  intro s d a imm sc core bank l p va k returns bytes comes gone old fills filled
  have lands (u : State) (base : Nat) (bs : List Byte) (hk : l.keep = false) (hret : returnLoad s k = retireLoad u k l base bs) :
      comes u base bs := by
    obtain ⟨h1, h2⟩ := retireLoad_lands u core bank hk base bs
    exact ⟨_, congrArg Host.Outcome.next hret, h1, h2⟩
  refine ⟨fun h hs hstop hl => ⟨?_, ?_, ?_, ?_, ?_, ?_, ?_, ?_⟩, fun hl => congrArg _ (returnLoad_idle hl), fun _ hl hstop => ⟨fun hp hk => ?_,
    fun hp hf => congrArg _ (returnLoad_unready hl hstop hp (readyPiece_none hf)), fun hp hf => ⟨fun hst => ?_, fun hst => ?_, fun hst hk => ?_,
    fun hst hk => ?_⟩⟩, fun ho hw hcore hbank _ hcc hr h64 _ hsound hm => serveFast_load ho hw hcore hbank hcc hr h64 hsound hm⟩
  · exact loadOp_loads rfl h hs hstop hl (.inl rfl)
  · exact loadOp_loads rfl h hs hstop hl (.inl rfl)
  · exact loadOp_loads rfl h hs hstop hl (.inr (.inl rfl))
  · exact loadOp_loads rfl h hs hstop hl (.inr (.inl rfl))
  · exact loadOp_loads rfl h hs hstop hl (.inr (.inr (.inl rfl)))
  · exact loadOp_loads rfl h hs hstop hl (.inr (.inr (.inl rfl)))
  · exact loadOp_loads rfl h hs hstop hl (.inr (.inr (.inr rfl)))
  · exact ldAcq_loads d a sc h hs hstop hl
  · exact lands s _ _ hk (returnLoad_line hl hstop hp)
  · exact congrArg _ (returnLoad_unready hl hstop hp (readyPiece_waits hf hst))
  · exact congrArg _ (returnLoad_bad hl hstop hp (readyPiece_ended hf (.inr hst)) hst)
  · refine congrArg Host.Outcome.next ((returnLoad_served hl hstop hp (readyPiece_ended hf (.inl hst)) hst).trans ?_)
    rw [hk, if_neg (by simp)]
    unfold retireLoad
    simp only [hk, if_true]
    rfl
  · refine lands _ _ _ hk ((returnLoad_served hl hstop hp (readyPiece_ended hf (.inl hst)) hst).trans ?_)
    rw [hk, fillLine_eq]
    refine congrArg (fun t => retireLoad t k l p.pa p.data) ?_
    by_cases h64 : p.len = 64
    · rw [if_pos ⟨h64, by simp⟩, if_pos h64]
      rfl
    · rw [if_neg (fun h => h64 h.1), if_neg h64]

end Sys2Proof.Machine
end

section
/-!
SUPPORT. The stores of S (15_conductor R267-R269, 16_ordering R276, R292, R295), from issue to the moment they perform.
-/

namespace Sys2Proof.Machine

/-! ### What sending keeps of the tasks -/

theorem logEntry_tasks (s : State) (a h o e : Nat) : (logEntry s a h o e).tasks = s.tasks := by
  unfold logEntry
  rw [State.setReg_tasks, State.setReg_tasks]

theorem logArray_tasks (s : State) (x src syn : Nat) (ue : Bool) : (logArray s x src syn ue).tasks = s.tasks := by
  unfold logArray
  exact logEntry_tasks _ _ _ _ _

theorem eccRead_tasks (s : State) (x src : Nat) : (eccRead s x src).1.tasks = s.tasks := by
  unfold eccRead
  cases s.cellFaults.find? fun f => f.strip == x with
  | none => rfl
  | some f =>
    dsimp only
    split
    · rfl
    · exact logArray_tasks _ _ _ _ _
    · exact logArray_tasks _ _ _ _ _
    · unfold State.choose
      dsimp only
      split
      · exact logArray_tasks _ _ _ _ _
      · exact logArray_tasks _ _ _ _ _
      · rfl

theorem fastRead_tasks (f : Nat → Nat) (src : Nat) : ∀ (l : List (Nat × Nat)) (s : State), (fastRead s f src l).1.tasks = s.tasks
  | [], _ => rfl
  | (a, n) :: r, s => by
    have h1 := eccRead_tasks s (f a) src
    unfold fastRead
    rcases he : eccRead s (f a) src with ⟨u, o⟩
    rw [he] at h1
    split
    · rfl
    · cases o with
      | none => exact h1
      | some bs =>
        have h2 := fastRead_tasks f src r u
        dsimp only
        rcases hf : fastRead u f src r with ⟨v, x⟩
        rw [hf] at h2
        cases x <;> exact h2.trans h1

theorem tableWord_tasks (s : State) (pa : Nat) : (tableWord s pa).1.tasks = s.tasks := by
  have h : (tierRead s pa 8 2).1.tasks = s.tasks := by
    unfold tierRead
    split
    · exact fastRead_tasks _ _ _ _
    · rfl
  unfold tableWord
  rcases ht : tierRead s pa 8 2 with ⟨u, x⟩
  rw [ht] at h
  cases x <;> exact h

theorem routePort_tasks (s : State) (id : Nat) : (routePort s id).1.tasks = s.tasks := by
  unfold routePort
  extract_lets base
  have h := tableWord_tasks s (base + id / 8 * 8)
  split
  · rfl
  · rcases ht : tableWord s (base + id / 8 * 8) with ⟨u, w⟩
    rw [ht] at h
    exact h

theorem sendFrame_tasks (s : State) (pa len : Nat) (wr : Bool) (data : List Byte) : (sendFrame s pa len wr data).1.tasks = s.tasks := by
  have h := routePort_tasks s (slice pa 32 18)
  rw [sendFrame]
  rcases hr : routePort s (slice pa 32 18) with ⟨u, x⟩
  rw [hr] at h
  cases x <;> exact h

/-! ### What sending keeps of the engines -/

/-- Settling marks completes tokens of S, the rest of the marks kept. -/
theorem settleMarks_eq (s : State) (k : Nat) : ∃ l l' : List (Nat × Nat), settleMarks s k =
    l.foldl (fun s m => completeToken s k .s m.1) (s.modTask k fun t => { t with s := { t.s with marks := l' } }) := ⟨_, _, rfl⟩

/-- An engine without its open tokens. -/
def EngSt.closed (x : EngSt) : EngSt := { x with opn := [] }

/-- In t every engine stands where it stood in s, but for its open tokens, with the same path records, and the same one executes. -/
def Standing (s t : State) : Prop :=
  t.cur = s.cur ∧ (∀ j i, (t.eng j i).closed = (s.eng j i).closed) ∧ ∀ j, (t.task j).recs = (s.task j).recs

namespace Standing

variable {s t u : State}

theorem refl (s : State) : Standing s s := ⟨rfl, fun _ _ => rfl, fun _ => rfl⟩
theorem trans (h : Standing s t) (h' : Standing t u) : Standing s u :=
  ⟨h'.1.trans h.1, fun j i => (h'.2.1 j i).trans (h.2.1 j i), fun j => (h'.2.2 j).trans (h.2.2 j)⟩

theorem of_tasks (ht : t.tasks = s.tasks) (hc : t.cur = s.cur) : Standing s t := by
  have h (j : Nat) : t.task j = s.task j := by unfold State.task; rw [ht]
  exact ⟨hc, fun j i => by unfold State.eng; rw [h], fun j => by rw [h]⟩

theorem modTask (s : State) (k : Nat) (f : Task → Task) (he : ∀ x, (f x).engs = x.engs) (hr : ∀ x, (f x).recs = x.recs) :
    Standing s (s.modTask k f) := by
  refine ⟨rfl, fun j i => by rw [eng_modTask he], fun j => ?_⟩
  by_cases h : j = k
  · subst h; rw [State.task_modTask_same, hr]
  · rw [State.task_modTask_ne _ _ h]

theorem completeToken (s : State) (k : Nat) (e : Eng) (n : Nat) : Standing s (Machine.completeToken s k e n) := by
  refine ⟨completeToken_cur _ _ _ _, fun j i => completeToken_eng EngSt.closed (fun _ _ => rfl) s k j e i n, fun j => ?_⟩
  unfold Machine.completeToken State.modEng
  by_cases h : j = k
  · subst h; rw [State.task_setEng]
  · rw [State.task_setEng_ne _ _ _ h]

theorem setMarks (s : State) (k : Nat) (l : List (Nat × Nat)) :
    Standing s (s.modTask k fun t => { t with s := { t.s with marks := l } }) :=
  modTask s k _ (fun x => by rfl) fun x => by rfl

theorem completeTokens (k : Nat) : ∀ (l : List (Nat × Nat)) (s : State),
    Standing s (l.foldl (fun s m => Machine.completeToken s k .s m.1) s)
  | [], s => refl s
  | m :: r, s => (completeToken s k .s m.1).trans (completeTokens k r (Machine.completeToken s k .s m.1))

theorem settleMarks (s : State) (k : Nat) : Standing s (Machine.settleMarks s k) := by
  obtain ⟨l, l', h⟩ := settleMarks_eq s k
  rw [h]
  exact (setMarks s k l').trans (completeTokens k l _)

/-- A field of an engine other than its open tokens. -/
theorem field {α : Type} (h : Standing s t) (f : EngSt → α) (hf : ∀ x : EngSt, f x.closed = f x) : f t.myEng = f s.myEng := by
  unfold State.myEng State.key
  rw [h.1, ← hf (t.eng _ _), h.2.1, hf]

theorem atIt (h : Standing s t) : AtIt s t := by
  refine ⟨h.field (fun x => x.passes) fun _ => rfl, ?_⟩
  unfold State.me State.key
  rw [h.1]
  exact h.2.2 _

end Standing

theorem sendPiece_standing (s : State) (p : Piece) (ho : p.own.outside = false) : Standing s (sendPiece s p).2 := by
  have hp : Standing s (withPiece s p) := .of_tasks rfl rfl
  by_cases hh : region p.pa = .host
  · rw [sendPiece_host s p hh]
    refine hp.trans (.of_tasks ?_ ?_) <;> (dsimp only; split <;> rfl)
  by_cases hpe : region p.pa = .peer
  · have ht := sendFrame_tasks (withPiece s p) p.pa p.len p.wr p.data
    have hc := sendFrame_cur (withPiece s p) p.pa p.len p.wr p.data
    rcases hv : sendFrame (withPiece s p) p.pa p.len p.wr p.data with ⟨v, b⟩
    rw [hv] at ht hc
    cases b with
    | true => rw [sendPiece_peer hpe hv]; exact hp.trans (.of_tasks ht hc)
    | false =>
      rw [sendPiece_unreachable hpe ho hv]
      obtain ⟨c, m, d, l, h⟩ := raiseCause_eq (unsend v (s.pieceNext + 1)) (tkey p.core p.bank) 334 0 0
      dsimp only
      rw [h]
      exact hp.trans (.of_tasks ht hc)
  · rw [sendPiece_near s p hh hpe]; exact hp

/-! ### Sending the oldest store -/

/-- The piece by which a store of task k leaves. -/
def storePiece (k : Nat) (h : SStore) : Piece :=
  { core := k / 2, bank := k % 2, die := dieOf (k / 2), own := .sStore, pa := h.pa, len := h.size, wr := true, data := natToBytes h.size h.val }

theorem sendStore_idle {s : State} {k : Nat} (hs : (s.task k).s.stores = []) : sendStore s k = s := by
  unfold sendStore; rw [hs]

theorem sendStore_sent {s : State} {k : Nat} {h : SStore} {r : List SStore} (hs : (s.task k).s.stores = h :: r) (hp : h.piece ≠ 0) :
    sendStore s k = s := by
  unfold sendStore; rw [hs]; exact if_pos hp

/-- A store that was not sent goes on its way. -/
theorem sendStore_goes {s v : State} {k id : Nat} {h : SStore} {r : List SStore} (hs : (s.task k).s.stores = h :: r) (hp : h.piece = 0)
    (hv : sendPiece s (storePiece k h) = (id, v)) (hid : id ≠ 0) :
    sendStore s k = v.modTask k fun t => { t with s := { t.s with stores := { h with piece := id } :: r } } := by
  unfold sendStore
  unfold storePiece at hv
  rw [hs]
  dsimp only
  rw [if_neg (by simpa using hp), hv]
  exact if_neg hid

/-- A store that cannot leave is over. -/
theorem sendStore_lost {s v : State} {k : Nat} {h : SStore} {r : List SStore} (hs : (s.task k).s.stores = h :: r) (hp : h.piece = 0)
    (hv : sendPiece s (storePiece k h) = (0, v)) :
    sendStore s k = settleMarks (v.modTask k fun t => { t with s := { t.s with stores := r } }) k := by
  unfold sendStore
  unfold storePiece at hv
  rw [hs]
  dsimp only
  rw [if_neg (by simpa using hp), hv]
  exact if_pos rfl

theorem sendsOldest_of {v : State} {k : Nat} {go : State → Prop} (hgo : go (sendStore v k)) : SendsOldest v k go := by
  intro h r hs id t sent
  have goes {u : State} (hp : h.piece = 0) (hu : sendPiece v (storePiece k h) = (id, u)) : sent u := by
    unfold sent
    rw [← sendStore_goes hs hp hu (Nat.succ_ne_zero _)]
    exact hgo
  refine ⟨fun hp => by rwa [sendStore_sent hs hp] at hgo, fun hp hh hpe => goes hp (sendPiece_near _ _ hh hpe), fun hp hh => goes hp ?_,
    fun hp hpe w => ⟨fun hw => goes hp (sendPiece_peer hpe hw), fun hw => ?_⟩⟩
  · exact sendPiece_host v (storePiece k h) hh
  · rwa [sendStore_lost hs hp (sendPiece_unreachable (p := storePiece k h) hpe rfl hw)] at hgo

theorem sendStore_standing (s : State) (k : Nat) : Standing s (sendStore s k) := by
  rcases hs : (s.task k).s.stores with _ | ⟨h, r⟩
  · rw [sendStore_idle hs]; exact .refl s
  by_cases hp : h.piece = 0
  · have h1 := sendPiece_standing s (storePiece k h) rfl
    rcases hv : sendPiece s (storePiece k h) with ⟨id, v⟩
    rw [hv] at h1
    by_cases hid : id = 0
    · subst hid
      rw [sendStore_lost hs hp hv]
      exact (h1.trans (.modTask v k _ (fun x => by rfl) fun x => by rfl)).trans (.settleMarks _ k)
    · rw [sendStore_goes hs hp hv hid]
      exact h1.trans (.modTask v k _ (fun x => by rfl) fun x => by rfl)
  · rw [sendStore_sent hs hp]; exact .refl s

namespace Walks

variable {k : Nat} {e : Eng} {s t : State}

/-- S's memory side changed in the same way on both sides. -/
theorem modUnit (h : Walks k e s t) (f : SUnit → SUnit) :
    Walks k e (s.modTask k fun x => { x with s := f x.s }) (t.modTask k fun x => { x with s := f x.s }) := by
  have h2 := h.2
  have hs : (t.task k).s = (s.task k).s := (congrArg Task.s h2 :)
  refine h.modTask _ _ ?_
  simp only [Task.still, Task.mk.injEq] at h2 ⊢
  simp_all

theorem completeToken (h : Walks k e s t) (n : Nat) : Walks k e (Machine.completeToken s k e n) (Machine.completeToken t k e n) := by
  refine h.modEng _ fun a b hab => ?_
  simp only [EngSt.still, EngSt.mk.injEq] at hab ⊢
  simp_all

theorem settleMarks (h : Walks k .s s t) : Walks k .s (Machine.settleMarks s k) (Machine.settleMarks t k) := by
  have hm : (t.task k).s.marks = (s.task k).s.marks := h.field (fun x => x.s.marks) fun _ => rfl
  unfold Machine.settleMarks
  rw [hm]
  exact Walks.foldl _ (fun _ _ x hx => hx.completeToken x.1) _ _ _ (h.modUnit fun x => { x with marks := _ })

/-- A piece of an engine leaves on both sides in the same way. -/
theorem sendPiece (h : Walks k e s t) (p : Piece) (ho : p.own.outside = false) :
    ∃ id u v, Machine.sendPiece s p = (id, u) ∧ Machine.sendPiece t p = (id, v) ∧ Walks k e u v := by
  have hp := h.withPiece p
  by_cases hh : region p.pa = .host
  · rw [sendPiece_host s p hh, sendPiece_host t p hh, h.pieceNext]
    refine ⟨_, _, _, rfl, rfl, ?_⟩
    split
    · exact (hp.hostWrite _ _).hostRead _ _
    · exact hp.hostRead _ _
  by_cases hpe : region p.pa = .peer
  · rcases hv : Machine.sendFrame (Machine.withPiece s p) p.pa p.len p.wr p.data with ⟨v, b⟩
    obtain ⟨v', hv', hw⟩ := hp.sendFrame_eq hv
    cases b with
    | true => exact ⟨_, _, _, sendPiece_peer hpe hv, by rw [sendPiece_peer hpe hv', h.pieceNext], hw⟩
    | false =>
      exact ⟨_, _, _, sendPiece_unreachable hpe ho hv, sendPiece_unreachable hpe ho hv',
        by rw [h.pieceNext]; exact (hw.unsend _).raiseCause _ _ _ _⟩
  · exact ⟨_, _, _, sendPiece_near s p hh hpe, by rw [sendPiece_near t p hh hpe, h.pieceNext], hp⟩

theorem sendStore (h : Walks k .s s t) : Walks k .s (Machine.sendStore s k) (Machine.sendStore t k) := by
  have hst : (t.task k).s.stores = (s.task k).s.stores := h.field (fun x => x.s.stores) fun _ => rfl
  rcases hs : (s.task k).s.stores with _ | ⟨x, r⟩
  · rw [sendStore_idle hs, sendStore_idle (hst.trans hs)]; exact h
  by_cases hp : x.piece = 0
  · obtain ⟨id, u, v, hu, hv, hw⟩ := h.sendPiece (storePiece k x) rfl
    by_cases hid : id = 0
    · subst hid
      rw [sendStore_lost hs hp hu, sendStore_lost (hst.trans hs) hp hv]
      exact (hw.modUnit fun y => { y with stores := r }).settleMarks
    · rw [sendStore_goes hs hp hu hid, sendStore_goes (hst.trans hs) hp hv hid]
      exact hw.modUnit fun y => { y with stores := { x with piece := id } :: r }
  · rw [sendStore_sent hs hp, sendStore_sent (hst.trans hs) hp]; exact h

end Walks

end Sys2Proof.Machine
end

section
/-!
SUPPORT. The bytes that a store leaves in the two tiers (03_memory R53, R57, 16_ordering R292).
-/

namespace Sys2Proof.Machine

/-! ### The bytes of a number -/

theorem natToBytes_length : ∀ n v, (natToBytes n v).length = n
  | 0, _ => rfl
  | n + 1, v => by simp [natToBytes, natToBytes_length n]

theorem natToBytes_getD : ∀ (n v i : Nat), i < n → (natToBytes n v).getD i 0#8 = BitVec.ofNat 8 (v / 256 ^ i)
  | n + 1, v, 0, _ => by simp [natToBytes]
  | n + 1, v, i + 1, h => by
    rw [natToBytes, List.getD_cons_succ, natToBytes_getD n _ i (by omega), Nat.div_div_eq_div_mul, ← Nat.pow_succ']

/-- The bytes of a number depend on its low bytes alone. -/
theorem natToBytes_mod : ∀ n v, natToBytes n (v % 256 ^ n) = natToBytes n v
  | 0, _ => rfl
  | n + 1, v => by
    have hh : BitVec.ofNat 8 (v % 256 ^ (n + 1)) = BitVec.ofNat 8 v := by
      apply BitVec.eq_of_toNat_eq
      rw [BitVec.toNat_ofNat, BitVec.toNat_ofNat]
      exact Nat.mod_mod_of_dvd v (Dvd.intro_left (256 ^ n) rfl)
    have ht : v % 256 ^ (n + 1) / 256 = v / 256 % 256 ^ n := by
      rw [Nat.pow_succ', Nat.mod_mul_right_div_self]
    rw [natToBytes, natToBytes, hh, ht, natToBytes_mod n]

/-! ### Where a strip stands -/

/-- The frame of the strip that holds an address of the fast tier is that of the address (R57). -/
theorem stripIn_frame (cc : Bool) (pa : Nat) : State.stripIn cc pa / 2 ^ 16 = pa / 2 ^ 21 := by
  unfold State.stripIn stripAt chanOf
  split
  · dsimp only
    have ht : pa % 2 ^ 21 / 32 < 2 ^ 16 := by omega
    have hp : pa / 2 ^ 30 * 2 ^ 9 + pa / 2 ^ 21 % 512 = pa / 2 ^ 21 := by omega
    generalize pa % 2 ^ 21 / 32 = t at ht
    generalize pa / 2 ^ 30 = c at hp
    generalize pa / 2 ^ 21 % 512 = f at hp
    omega
  · omega

theorem stripIn_inj {cc : Bool} {a b : Nat} (h : State.stripIn cc a = State.stripIn cc b) : a / 32 = b / 32 := by
  have hf : a / 2 ^ 21 = b / 2 ^ 21 := by rw [← stripIn_frame cc a, h, stripIn_frame]
  unfold State.stripIn stripAt chanOf at h
  split at h
  · have ha : a % 2 ^ 21 / 32 + a / 2 ^ 21 * 2 ^ 16 = a / 32 := by omega
    have hb : b % 2 ^ 21 / 32 + b / 2 ^ 21 * 2 ^ 16 = b / 32 := by omega
    have hc : a / 2 ^ 30 = b / 2 ^ 30 := by omega
    rw [hf, hc] at h
    dsimp only at h
    generalize a % 2 ^ 21 / 32 = x at h ha
    generalize b % 2 ^ 21 / 32 = y at h hb
    have hxy : x = y := by omega
    omega
  · exact h

/-- Addresses of different units lie in different strips. -/
theorem stripOf_inj {s : State} {a b : Nat} (h : s.stripOf a = s.stripOf b) : a / 32 = b / 32 := by
  have hf : a / 2 ^ 21 = b / 2 ^ 21 := by
    rw [← stripIn_frame (s.ccFrame a) a, ← stripIn_frame (s.ccFrame b) b]; exact congrArg (· / 2 ^ 16) h
  rw [stripOf_frame s hf, stripOf_frame s (rfl : b / 2 ^ 21 = b / 2 ^ 21)] at h
  exact stripIn_inj h

/-- The strips of the fast tier stand in memory below the capacity tier. -/
theorem stripIn_below {pa : Nat} (cc : Bool) (h : region pa = .fast) : 32 * State.stripIn cc pa + 32 ≤ 0x00C000000000 := by
  rw [region_fast] at h
  have := stripIn_frame cc pa
  omega

/-! ### Writes to a strip and to memory -/

/-- The row line that a slot holds, where a bank has it open. -/
theorem openSlot_some {s : State} {p bank row i : Nat} {l : SlotSt} (h : s.openSlot p bank row = some (i, l)) :
    Sparse.rd none (s.chan p).slots i = some l ∧ l.row = row ∧ i / 8 = bank := by
  unfold State.openSlot at h
  obtain ⟨j, hj, hs⟩ := List.exists_of_findSome?_eq_some h
  have hj : j < 8 := by simpa using hj
  rcases hr : Sparse.rd none (s.chan p).slots (8 * bank + j) with _ | x
  · rw [hr] at hs; cases hs
  · rw [hr] at hs
    dsimp only at hs
    split at hs
    · rename_i hrow
      cases hs
      exact ⟨hr, hrow, by omega⟩
    · cases hs

/-- A slot given the data d: the open rows are the same, the row line of that slot holds d. -/
theorem openSlot_withData {s : State} {p i : Nat} {l : SlotSt} (hl : Sparse.rd none (s.chan p).slots i = some l) (d : Mem) (bank row : Nat) :
    (s.modChan p fun c => { c with slots := Sparse.wr none c.slots i (some { l with data := d }) }).openSlot p bank row
      = (s.openSlot p bank row).map fun x => if x.1 = i then (i, { l with data := d }) else x := by
  unfold State.openSlot
  rw [State.chan_modChan_same, List.map_findSome?]
  dsimp only
  congr 1
  funext j
  dsimp only [Function.comp]
  rw [Sparse.rd_wr]
  by_cases hj : 8 * bank + j = i
  · rw [if_pos hj, hj, hl]
    dsimp only
    by_cases hr : l.row = row
    · rw [if_pos hr, if_pos hr, Option.map_some, if_pos rfl]
    · rw [if_neg hr, if_neg hr, Option.map_none]
  · rw [if_neg hj]
    rcases Sparse.rd none (s.chan p).slots (8 * bank + j) with _ | x
    · rfl
    · dsimp only
      by_cases hr : x.row = row
      · rw [if_pos hr, Option.map_some, if_neg hj]
      · rw [if_neg hr, Option.map_none]

/-- Bytes written at offset o of an aligned unit of 32 bytes, read in any unit. -/
theorem get_wrList_unit (m : Mem) {o : Nat} {bs : List Byte} (h : o + bs.length ≤ 32) (a b : Nat) {i : Nat} (hi : i < 32) :
    (m.wrList (32 * a + o) bs).get (32 * b + i)
      = if b = a ∧ o ≤ i ∧ i < o + bs.length then bs.getD (i - o) 0#8 else m.get (32 * b + i) := by
  split
  · rename_i hin
    obtain ⟨rfl, h1, h2⟩ := hin
    have := Mem.get_wrList_in bs m (32 * b + o) (i - o) (by omega)
    rwa [show 32 * b + o + (i - o) = 32 * b + i by omega] at this
  · exact Mem.get_wrList_out bs m _ _ (by omega)

/-- A write to a part of strip y changes the bytes of that part alone, in the row line that holds its row or in the array (R53). -/
theorem stripData_stripWrite (s : State) {o : Nat} {bs : List Byte} (h : o + bs.length ≤ 32) (y z : Nat) {i : Nat} (hi : i < 32) :
    ((s.stripWrite y o bs).stripData z).getD i 0#8
      = if z = y ∧ o ≤ i ∧ i < o + bs.length then bs.getD (i - o) 0#8 else (s.stripData z).getD i 0#8 := by
  unfold State.stripWrite
  dsimp only
  have hsame : ({ s with cellFaults := s.cellFaults.filter fun f => f.strip != y } : State).openSlot = s.openSlot := rfl
  rw [hsame]
  rcases hy : s.openSlot (stripChan y) (stripBank y) (stripRow y) with _ | ⟨n, l⟩
  · -- The row of y stands in the array.
    have hopen : ∀ q c r, ({ s with cellFaults := s.cellFaults.filter fun f => f.strip != y, mem := s.mem.wrList (32 * y + o) bs } : State).openSlot q c r
        = s.openSlot q c r := fun _ _ _ => rfl
    unfold State.stripData
    dsimp only
    rw [hopen]
    rcases hz : s.openSlot (stripChan z) (stripBank z) (stripRow z) with _ | ⟨n, l⟩
    · dsimp only
      rw [rdList_getD _ _ _ _ hi, rdList_getD _ _ _ _ hi, get_wrList_unit _ h _ _ hi]
    · have hzy : z ≠ y := by rintro rfl; rw [hy] at hz; cases hz
      rw [if_neg fun hc => hzy hc.1]
  · -- A slot n holds it.
    obtain ⟨hl, hrow, hbank⟩ := openSlot_some hy
    unfold State.stripData
    dsimp only
    by_cases hc : stripChan z = stripChan y
    · rw [hc, openSlot_withData (s := { s with cellFaults := s.cellFaults.filter fun f => f.strip != y }) hl, hsame]
      rcases hz : s.openSlot (stripChan y) (stripBank z) (stripRow z) with _ | ⟨n', l'⟩
      · have hzy : z ≠ y := by rintro rfl; rw [hy] at hz; cases hz
        rw [if_neg fun hc => hzy hc.1]
        rfl
      · obtain ⟨hl', hrow', hbank'⟩ := openSlot_some hz
        rw [Option.map_some]
        dsimp only
        by_cases hn : n' = n
        · subst hn
          obtain rfl : l' = l := by rw [hl] at hl'; exact (Option.some.inj hl').symm
          have hzy : stripPos z = stripPos y ↔ z = y := by
            unfold stripRow stripBank stripChan stripPos at *
            omega
          rw [if_pos rfl]
          dsimp only
          rw [rdList_getD _ _ _ _ hi, rdList_getD _ _ _ _ hi, get_wrList_unit _ h _ _ hi]
          simp only [hzy]
        · have hzy : z ≠ y := by rintro rfl; rw [hy] at hz; cases hz; exact hn rfl
          rw [if_neg hn, if_neg fun hc => hzy hc.1]
    · have hzy : z ≠ y := by rintro rfl; exact hc rfl
      have hopen : ∀ c r, (({ s with cellFaults := s.cellFaults.filter fun f => f.strip != y } : State).modChan (stripChan y) fun c =>
          { c with slots := Sparse.wr none c.slots n (some { l with data := l.data.wrList (32 * stripPos y + o) bs }) }).openSlot (stripChan z) c r
          = s.openSlot (stripChan z) c r := by
        intro c r
        unfold State.openSlot
        rw [State.chan_modChan_ne _ _ hc]
        rfl
      rw [hopen, if_neg fun hc => hzy hc.1]
      rfl

theorem byteAt_fast {s : State} {x : Nat} (h : region x = .fast) : s.byteAt x = (s.stripData (s.stripOf x)).getD (x % 32) 0#8 := by
  unfold State.byteAt; rw [h]
theorem byteAt_cap {s : State} {x : Nat} (h : region x = .cap) : s.byteAt x = s.mem.get x := by
  unfold State.byteAt; rw [h]
theorem byteAt_elsewhere {s : State} {x : Nat} (hf : region x ≠ .fast) (hc : region x ≠ .cap) : s.byteAt x = 0#8 := by
  unfold State.byteAt
  cases h : region x with
  | fast => exact absurd h hf
  | cap => exact absurd h hc
  | mgmt | host | peer | hole => rfl

/-- A write to a strip of the fast tier keeps the array above that tier. -/
theorem get_stripWrite_above (s : State) {pa : Nat} {bs : List Byte} (hr : region pa = .fast) (h : pa % 32 + bs.length ≤ 32) {x : Nat}
    (hx : region x = .cap) : (s.stripWrite (s.stripOf pa) (pa % 32) bs).mem.get x = s.mem.get x := by
  have hbelow := stripIn_below (s.ccFrame pa) hr
  rw [region_cap] at hx
  unfold State.stripWrite
  dsimp only
  split
  · rfl
  · exact Mem.get_wrList_out bs s.mem _ _ (by unfold State.stripOf; omega)

/-- A write of bytes to an address of the fast tier that lie in one unit changes the bytes of those addresses alone. -/
theorem byteAt_stripWrite (s : State) {pa : Nat} {bs : List Byte} (hr : region pa = .fast) (h : pa % 32 + bs.length ≤ 32) (x : Nat) :
    (s.stripWrite (s.stripOf pa) (pa % 32) bs).byteAt x = if pa ≤ x ∧ x < pa + bs.length then bs.getD (x - pa) 0#8 else s.byteAt x := by
  have hstrip : (s.stripWrite (s.stripOf pa) (pa % 32) bs).stripOf x = s.stripOf x := by
    unfold State.stripWrite
    dsimp only
    split <;> rfl
  by_cases hf : region x = .fast
  · rw [byteAt_fast hf, byteAt_fast hf, hstrip, stripData_stripWrite s h _ _ (Nat.mod_lt x (by decide))]
    by_cases hx : pa ≤ x ∧ x < pa + bs.length
    · rw [if_pos hx, if_pos ⟨stripOf_congr s (by omega), by omega, by omega⟩]
      congr 1
      omega
    · rw [if_neg hx, if_neg ?_]
      rintro ⟨h1, h2, h3⟩
      have := stripOf_inj h1
      exact hx (by omega)
  · rw [if_neg (by rw [region_fast] at hr hf; omega)]
    by_cases hc : region x = .cap
    · rw [byteAt_cap hc, byteAt_cap hc, get_stripWrite_above s hr h hc]
    · rw [byteAt_elsewhere hf hc, byteAt_elsewhere hf hc]

/-- A write to the capacity tier keeps the strips of the fast tier. -/
theorem stripData_wrList_cap (s : State) {pa x : Nat} (bs : List Byte) (hr : region pa = .cap) (hx : region x = .fast) :
    ({ s with mem := s.mem.wrList pa bs } : State).stripData (s.stripOf x) = s.stripData (s.stripOf x) := by
  have hbelow := stripIn_below (s.ccFrame x) hx
  rw [region_cap] at hr
  unfold State.stripData
  rw [show ({ s with mem := s.mem.wrList pa bs } : State).openSlot = s.openSlot from rfl]
  split
  · rfl
  · rw [rdList_eq, rdList_eq]
    refine List.map_congr_left fun i hi => Mem.get_wrList_out bs s.mem _ _ ?_
    have hi : i < 32 := by simpa using hi
    unfold State.stripOf
    omega

/-- A write of bytes to an address of the capacity tier changes the bytes of those addresses alone. -/
theorem byteAt_wrList (s : State) {pa : Nat} {bs : List Byte} (hr : region pa = .cap) (h : pa % 32 + bs.length ≤ 32) (x : Nat) :
    ({ s with mem := s.mem.wrList pa bs } : State).byteAt x = if pa ≤ x ∧ x < pa + bs.length then bs.getD (x - pa) 0#8 else s.byteAt x := by
  by_cases hc : region x = .cap
  · rw [byteAt_cap hc, byteAt_cap hc]
    by_cases hx : pa ≤ x ∧ x < pa + bs.length
    · rw [if_pos hx]
      have := Mem.get_wrList_in bs s.mem pa (x - pa) (by omega)
      rwa [show pa + (x - pa) = x by omega] at this
    · rw [if_neg hx]
      exact Mem.get_wrList_out bs s.mem _ _ (by omega)
  · rw [if_neg (by rw [region_cap] at hr hc; omega)]
    by_cases hf : region x = .fast
    · rw [byteAt_fast hf, byteAt_fast hf]
      exact congrArg (fun l => l.getD (x % 32) 0#8) (stripData_wrList_cap s bs hr hf)
    · rw [byteAt_elsewhere hf hc, byteAt_elsewhere hf hc]

end Sys2Proof.Machine
end

section
/-!
SUPPORT. The stores of S (15_conductor R267-R269, 16_ordering R276, R292, R295): their retirement, the moment they perform, the far slot.
-/

namespace Sys2Proof.Machine

/-! ### A far slot serves the piece of a store -/

theorem stripSpans_unit {pa n : Nat} (h : pa % 32 + n ≤ 32) (h0 : 0 < n) : stripSpans pa n = [(pa, n)] := by
  have hm : Nat.min n (32 - pa % 32) = n := Nat.min_eq_left (by omega)
  unfold stripSpans spans
  rw [if_neg (by omega), hm]
  dsimp only
  rw [Nat.sub_self]
  unfold spans
  cases n / 32 + 1 with
  | zero => rfl
  | succ _ => rfl

theorem stripWrite_counters (s : State) (c : Sparse Nat) (x o : Nat) (bs : List Byte) :
    ({ s with counters := c } : State).stripWrite x o bs = { s.stripWrite x o bs with counters := c } := by
  unfold State.stripWrite
  dsimp only
  rw [show ({ s with counters := c, cellFaults := s.cellFaults.filter fun f => f.strip != x } : State).openSlot
    = ({ s with cellFaults := s.cellFaults.filter fun f => f.strip != x } : State).openSlot from rfl]
  split <;> rfl

/-- A far slot serves the piece of a store: it writes its bytes where they belong (R78, R295). -/
theorem serveFast_store {s : State} {p : Piece} (ho : p.own = .sStore) (hw : p.wr = true) (hl : p.data.length = p.len) (hcc : p.cc = s.ccFrame p.pa)
    (h32 : p.pa % 32 + p.len ≤ 32) (h0 : 0 < p.len) (hm : s.reg regMcfg % 2 ^ 16 = 0) (hlost : isLost s (chanOf p.pa) = false) :
    ∃ c, serveFast s p = setPiece { s.stripWrite (s.stripOf p.pa) (p.pa % 32) p.data with counters := c } { p with st := .served } := by
  obtain ⟨c, hc⟩ := countAccess_quiet hm p
  have hwrite : fastWrite { s with counters := c } (State.stripIn p.cc) (stripSpans p.pa p.len) p.data
      = { s.stripWrite (s.stripOf p.pa) (p.pa % 32) p.data with counters := c } := by
    rw [stripSpans_unit h32 h0, ← stripWrite_counters]
    unfold fastWrite fastWrite
    rw [show isLost { s with counters := c } (chanOf p.pa) = false from hlost, if_neg (by simp), hcc, List.take_of_length_le (by omega)]
    rfl
  refine ⟨c, ?_⟩
  unfold serveFast
  rw [hc]
  dsimp only
  rw [if_pos hw, hwrite, noteFrame_own (.inr ho)]

/-! ### Marks -/

theorem settleMarks_none {s : State} {k : Nat} (h : (s.task k).s.marks = []) :
    settleMarks s k = s.modTask k fun t => { t with s := { t.s with marks := [] } } := by
  unfold settleMarks; rw [h]; rfl

/-- A mark that waits for one more store completes; another comes one nearer (R276). -/
theorem settleMarks_later {s : State} {k q n : Nat} (h : (s.task k).s.marks = [(q, n + 1)]) (hn : n ≠ 0) :
    settleMarks s k = s.modTask k fun t => { t with s := { t.s with marks := [(q, n)] } } := by
  have h0 : (n == 0) = false := by simpa using hn
  unfold settleMarks
  rw [h]
  simp only [List.map_cons, List.map_nil, Nat.add_sub_cancel, List.filter_cons, List.filter_nil, h0, bne, Bool.not_false, if_true,
    Bool.false_eq_true, if_false, List.foldl_nil]

theorem settleMarks_last {s : State} {k q : Nat} (h : (s.task k).s.marks = [(q, 1)]) :
    settleMarks s k = completeToken (s.modTask k fun t => { t with s := { t.s with marks := [] } }) k .s q := by
  unfold settleMarks; rw [h]; rfl

theorem completeTokens_stores (k : Nat) : ∀ (l : List (Nat × Nat)) (s : State),
    ((l.foldl (fun s m => completeToken s k .s m.1) s).task k).s.stores = (s.task k).s.stores
  | [], _ => rfl
  | m :: r, s => by
    rw [List.foldl_cons, completeTokens_stores k r]
    unfold completeToken State.modEng
    rw [State.task_setEng]

theorem settleMarks_stores (s : State) (k : Nat) : ((settleMarks s k).task k).s.stores = (s.task k).s.stores := by
  obtain ⟨l, l', h⟩ := settleMarks_eq s k
  rw [h, completeTokens_stores, State.task_modTask_same]

/-! ### How a store performs -/

theorem performStore_idle {s : State} {k : Nat} (hs : (s.task k).s.stores = []) : performStore s k = s := by
  unfold performStore; rw [hs]

theorem performStore_waits {s u : State} {k : Nat} {h : SStore} {r : List SStore} (hs : (s.task k).s.stores = h :: r) (hp : h.piece ≠ 0)
    (hr : readyPiece s h.piece = (u, none)) : performStore s k = u := by
  unfold performStore
  rw [hs]
  dsimp only
  rw [if_neg hp, hr]

/-- The oldest store performs: its piece and it are gone, the marks come nearer, and the next is sent. -/
theorem performStore_ended {s u : State} {k : Nat} {h : SStore} {r : List SStore} {p : Piece} (hs : (s.task k).s.stores = h :: r)
    (hp : h.piece ≠ 0) (hr : readyPiece s h.piece = (u, some p)) (hu : (u.task k).s.stores = h :: r) :
    performStore s k = sendStore (settleMarks ((dropPiece u p.id).modTask k fun t => { t with s := { t.s with stores := r } }) k) k := by
  have hpop : (dropPiece u p.id).modTask k (fun t => { t with s := { t.s with stores := t.s.stores.drop 1 } })
      = (dropPiece u p.id).modTask k fun t => { t with s := { t.s with stores := r } } := by
    apply modTask_congr
    dsimp only
    rw [show ((dropPiece u p.id).task k).s.stores = h :: r from hu]
    rfl
  unfold performStore
  rw [hs]
  dsimp only
  rw [if_neg hp, hr]
  dsimp only
  rw [hpop]

/-! ### A store alone, in the capacity tier -/

/-- S's memory side without stores and marks. -/
def SUnit.clear (x : SUnit) : SUnit := { x with stores := [], marks := [] }

/-- The piece of a store under way, some of its units moved. -/
def sentStore (k id : Nat) (st : SStore) (units : Nat) (x : PieceSt) : Piece := { storePiece k st with id := id, units := units, st := x }

/-- The piece of the one store of S, in one unit of the capacity tier, is ready: its bytes are written (R292). -/
theorem store_ready {t : State} {old : List Piece} {k id : Nat} {st : SStore} (hp : t.pieces = old ++ [sentStore k id st 0 .sent])
    (hold : ∀ q ∈ old, q.id < id ∧ q.own ≠ .sStore) (hr : region st.pa = .cap) (h32 : st.pa % 32 + st.size ≤ 32) (hsz : 0 < st.size)
    (hm : t.reg regMcfg % 2 ^ 16 = 0) :
    ∃ c, readyPiece t id = ({ t with counters := c, mem := t.mem.wrList st.pa (natToBytes st.size st.val), pieces := old ++ [sentStore k id st 1 .served] },
      some (sentStore k id st 1 .served)) := by
  have hid : ∀ q ∈ old, q.id < id := fun q hq => (hold q hq).1
  have hu : unitsIn (sentStore k id st 0 .sent) = 1 := by unfold unitsIn sentStore storePiece; dsimp only; omega
  obtain ⟨c, hc⟩ := serveCap_store hp hid hm rfl rfl rfl hu (natToBytes_length _ _)
  have hserve : serveCap t (sentStore k id st 0 .sent) 1
      = { t with counters := c, mem := t.mem.wrList st.pa (natToBytes st.size st.val), pieces := old ++ [sentStore k id st 1 .served] } := hc
  have hb : behindWrite t (sentStore k id st 0 .sent) = false := by
    unfold behindWrite
    rw [hp, List.any_append, List.any_cons, List.any_nil, Bool.and_eq_false_iff, Bool.or_false, Bool.or_eq_false_iff, List.any_eq_false]
    refine .inr ⟨fun q hq => ?_, ?_⟩
    · have : (q.own == (sentStore k id st 0 .sent).own) = false := beq_eq_false_iff_ne.2 (hold q hq).2
      simp [this]
    · simp
  have hready := ready_sent hp hid rfl hr hb
  rw [hu, show t.portion (1 - (sentStore k id st 0 .sent).units) = (1, t) from rfl] at hready
  dsimp only at hready
  rw [hserve, show (sentStore k id st 0 .sent).id = (sentStore k id st 1 .served).id from rfl,
    find_last (p := sentStore k id st 1 .served) rfl hid] at hready
  exact ⟨c, hready⟩

/-- The one store of S, in one unit of the capacity tier, performs. -/
theorem performStore_cap {t : State} {old : List Piece} {k id : Nat} {st : SStore} (hs : (t.task k).s.stores = [{ st with piece := id }])
    (hmk : (t.task k).s.marks = []) (hp : t.pieces = old ++ [sentStore k id st 0 .sent])
    (hold : ∀ q ∈ old, q.id < id ∧ q.own ≠ .sStore) (h0 : id ≠ 0) (hr : region st.pa = .cap) (h32 : st.pa % 32 + st.size ≤ 32)
    (hsz : 0 < st.size) (hm : t.reg regMcfg % 2 ^ 16 = 0) :
    ∃ c, performStore t k = ({ t with counters := c, mem := t.mem.wrList st.pa (natToBytes st.size st.val), pieces := old } : State).modTask k fun x =>
      { x with s := x.s.clear } := by
  obtain ⟨c, hready⟩ := store_ready hp hold hr h32 hsz hm
  have hid : ∀ q ∈ old, q.id < id := fun q hq => (hold q hq).1
  refine ⟨c, ?_⟩
  rw [performStore_ended hs h0 hready hs, drop_last (p := sentStore k id st 1 .served) rfl hid, settleMarks_none, modTask_modTask, sendStore_idle]
  · rfl
  · rw [State.task_modTask_same]
  · rw [State.task_modTask_same]; exact hmk

theorem near_mod_at {k : Nat} {s : State} {f : Task → Task} (hf : Task.aside (f (s.task k)) = Task.aside (s.task k)) : Near k s (s.modTask k f) := by
  unfold State.task at hf
  apply near_of_eq
  simp only [aside_eq, State.modTask, State.setTask, State.task, Sparse.rd_wr_same, Sparse.wr_wr, hf]

/-- A store sent and performed has changed memory alone, beside what an access leaves. -/
theorem near_stored {s t : State} {k : Nat} {f : Task → Task} {p : Piece}
    (hf : Task.aside { f (s.task k) with s := (f (s.task k)).s.clear } = Task.aside (s.task k)) (h : Walks k .s (withPiece (s.modTask k f) p) t)
    (g : Mem → Mem) (c : Sparse Nat) (l : List Piece) :
    Near k { s with mem := g s.mem } (({ t with counters := c, mem := g t.mem, pieces := l } : State).modTask k fun x => { x with s := x.s.clear }) := by
  have h1 : Near k { s with mem := g s.mem } ((({ s with mem := g s.mem } : State).modTask k f).modTask k fun x => { x with s := x.s.clear }) := by
    rw [modTask_modTask]
    exact near_mod_at hf
  have h2 : Near k (({ s with mem := g s.mem } : State).modTask k f) { withPiece (s.modTask k f) p with mem := g s.mem } := near_of_eq rfl
  have h3 : Near k { withPiece (s.modTask k f) p with mem := g s.mem } { t with counters := c, mem := g t.mem, pieces := l } :=
    near_trans (near_of_walks (h.modMem g)) (near_of_eq rfl)
  refine near_trans h1 (near_modTask (near_trans h2 h3) (fun x => by rfl) fun a b hab => ?_)
  have hs : a.s = b.s := (congrArg Task.s hab :)
  simp only [Task.still, Task.mk.injEq] at hab ⊢
  simp_all

/-! ### The store instructions -/

/-- S's memory side with one more store behind the others; the line of the data cache takes it, where it is present (R268). -/
def storedIn (pa n v : Nat) (x : SUnit) : SUnit :=
  { x with
    stores := x.stores ++ [{ pa := pa, size := n, val := v }]
    cache := match Sparse.rd none x.cache (pa / 64) with
      | some m => Sparse.wr none x.cache (pa / 64) (some (m.wrN (pa % 64) n v))
      | none => x.cache }

theorem startStore_eq (n : Nat) (v : Word) (pa : Nat) (s : State) : startStore n v pa s =
    advance (sendStore (s.modTask s.key fun t => { t with s := storedIn pa n (v.toNat % 256 ^ n) t.s }) s.key) := rfl

/-- What a store of S does, issued past its token waits, where it hits: it retires, and the oldest store is sent. -/
theorem storesTo_sends {i : Instr} {s u t : State} {n pa : Nat} {v : Word} (he : exec i s = .next (startStore n v pa t))
    (hu : Standing s u) (hw : Walks s.key s.cur.eng u t) (ha : AtIt s t) (hs : s.cur.eng = .s) :
    Does i s (sendStore (u.modTask s.key fun t => { t with s := storedIn pa n (v.toNat % 256 ^ n) t.s }) s.key) := by
  have huk : u.key = s.key := by unfold State.key; rw [hu.1]
  have htk : t.key = s.key := hw.key.trans huk
  rw [startStore_eq, htk] at he
  rw [hs] at hw
  have hst := hu.trans ((Standing.modTask u s.key (fun t => { t with s := storedIn pa n (v.toNat % 256 ^ n) t.s }) (fun x => by rfl) fun x => by rfl).trans
    (sendStore_standing _ s.key))
  have hat : AtIt s (sendStore (t.modTask s.key fun t => { t with s := storedIn pa n (v.toNat % 256 ^ n) t.s }) s.key) := by
    have h1 := ((Standing.modTask t s.key (fun t => { t with s := storedIn pa n (v.toNat % 256 ^ n) t.s }) (fun x => by rfl) fun x => by rfl).trans
      (sendStore_standing _ s.key)).atIt
    exact ⟨h1.1.trans ha.1, h1.2.trans ha.2⟩
  have hws := (hw.modUnit (storedIn pa n (v.toNat % 256 ^ n))).sendStore
  rw [← hs] at hws
  obtain ⟨h1, h2⟩ := advance_does hws hst.1 (hst.field (fun x => x.body) fun _ => rfl) (hst.field (fun x => x.len) fun _ => rfl)
    (hst.field (fun x => x.serial) fun _ => rfl) hat
  exact ⟨_, he, h1, h2⟩

/-- A task whose S has sent its only store, the leaf of its page at the front of the cache. -/
def sentAlone (c : List Leaf) (pa n v id : Nat) (x : Task) : Task :=
  { x with
    tlb := { x.tlb with cond := c }
    s := { storedIn pa n v x.s with stores := [{ pa := pa, size := n, val := v, piece := id }] } }

theorem aside_sentAlone {x : Task} (hst : x.s.stores = []) (hmk : x.s.marks = []) (c : List Leaf) (pa n v id : Nat) :
    Task.aside { sentAlone c pa n v id x with s := (sentAlone c pa n v id x).s.clear } = Task.aside x := by
  unfold Task.aside SUnit.clear
  simp only [hst, hmk, sentAlone, storedIn]

theorem withPiece_modTask (s : State) (p : Piece) (k : Nat) (f : Task → Task) : (withPiece s p).modTask k f = withPiece (s.modTask k f) p := rfl

/-- A store of S alone, for the capacity tier, is sent. -/
theorem sendStore_alone {s : State} {k pa : Nat} (hst : (s.task k).s.stores = []) (hr : region pa = .cap) (c : List Leaf) (n v : Nat) :
    sendStore ((s.modTask k fun x => { x with tlb := { x.tlb with cond := c } }).modTask k fun x => { x with s := storedIn pa n v x.s }) k
      = withPiece (s.modTask k (sentAlone c pa n v (s.pieceNext + 1))) (storePiece k { pa := pa, size := n, val := v }) := by
  rw [modTask_modTask]
  have hs : ((s.modTask k fun x => { x with tlb := { x.tlb with cond := c }, s := storedIn pa n v x.s }).task k).s.stores
      = [{ pa := pa, size := n, val := v }] := by
    rw [State.task_modTask_same]
    dsimp only [storedIn]
    rw [hst, List.nil_append]
  rw [sendStore_goes hs rfl (sendPiece_near _ (storePiece k _) (by dsimp only [storePiece]; rw [hr]; decide) (by dsimp only [storePiece]; rw [hr]; decide))
    (Nat.succ_ne_zero _)]
  rw [withPiece_modTask, modTask_modTask]
  rfl

/-- A store of S alone, in the capacity tier, performs: its bytes are in memory, and nothing else has changed (R292). -/
theorem store_alone {s u t : State} {va pa n v : Nat} {l : Leaf} (hst : s.me.s.stores = []) (hmk : s.me.s.marks = []) (hh : Hits s va 1 l u)
    (ht : Walks s.key .s (sendStore (u.modTask s.key fun x => { x with s := storedIn pa n v x.s }) s.key) t) (hn : 0 < n)
    (h32 : pa % 32 + n ≤ 32) (hr : region pa = .cap) (hm : s.reg regMcfg % 2 ^ 16 = 0)
    (hold : ∀ p ∈ s.pieces, p.id ≤ s.pieceNext ∧ p.own ≠ .sStore) :
    Near s.key { s with mem := s.mem.wrList pa (natToBytes n v) } (performStore t s.key) ∧ (performStore t s.key).pieces = s.pieces := by
  obtain ⟨c, -, -, -, rfl⟩ := hh
  unfold State.me at hst hmk
  unfold State.modMe at ht
  rw [sendStore_alone hst hr] at ht
  have htask : (t.task s.key).s = (sentAlone c pa n v (s.pieceNext + 1) (s.task s.key)).s := by
    rw [ht.field (fun x => x.s) fun _ => rfl]
    exact congrArg Task.s (State.task_modTask_same s s.key _)
  obtain ⟨c', hperf⟩ := performStore_cap (t := t) (old := s.pieces) (k := s.key) (id := s.pieceNext + 1) (st := { pa := pa, size := n, val := v })
    (by rw [htask]; rfl) (by rw [htask]; exact hmk) ht.pieces (fun q hq => ⟨Nat.lt_succ_of_le (hold q hq).1, (hold q hq).2⟩)
    (Nat.succ_ne_zero _) hr h32 hn (by rw [ht.reg]; exact hm)
  rw [hperf]
  exact ⟨near_stored (aside_sentAlone hst hmk c pa n v _) ht (fun m => m.wrList pa (natToBytes n v)) c' s.pieces, rfl⟩

theorem near_byteAt {k : Nat} {s t : State} (h : Near k s t) (a : Nat) : t.byteAt a = s.byteAt a :=
  Walks.byteAt (s := s.aside k) (t := t.aside k) h a

/-- What a store of S does, issued. -/
theorem storesTo_of {i : Instr} {s : State} {body : State → State} {d va n : Nat} (he : exec i s = .next (issue false body s)) (h : CanIssue s)
    (hs : s.cur.eng = .s) (hn : AccessSize n) (hb : ∀ t, Walks s.key s.cur.eng s t → body t = storeAt n d va t) :
    StoresTo i s d va n := by
  have miss (hva : va % n ≠ 0) (t : State) (hw : Walks s.key s.cur.eng s t) : body t = trap 5 t := by
    rw [hb t hw, storeAt, if_pos hva]
  have aligned (hva : va % n = 0) (t : State) (hw : Walks s.key s.cur.eng s t) : body t = withPhys va 1 (startStore n (sv s d)) t := by
    rw [hb t hw, storeAt, if_neg (by simpa using hva), hw.sv]
  refine ⟨fun hva => moves_of he h (by simp) fun t hw _ => by rw [miss hva t hw]; exact hw.trap 5, fun hva =>
    translates_of he h (aligned hva) fun leaf u hh => ?_⟩
  obtain ⟨t, hex, hw, ha⟩ := exec_hit he h (aligned hva) hh
  have hsu : Standing s u := by
    obtain ⟨c, -, -, -, rfl⟩ := hh
    exact .modTask s s.key _ (fun x => by rfl) fun x => by rfl
  have hdoes := storesTo_sends hex hsu hw ha hs
  refine ⟨sendsOldest_of ?_, fun hst hmk hl hr hm hold => ?_⟩
  · unfold State.modMe; rw [hh.key]; exact hdoes
  · obtain ⟨h0, -, h32⟩ := access_line hn (phys_mod hl hn hva)
    obtain ⟨T, hT, hwT, -⟩ := hdoes
    rw [hs] at hwT
    obtain ⟨hnear, hpieces⟩ := store_alone hst hmk hh hwT h0 h32 hr hm hold
    refine ⟨T, _, hT, rfl, hnear, hpieces, fun a => ?_⟩
    refine (near_byteAt hnear a).trans ?_
    rw [natToBytes_mod, byteAt_wrList s hr (by rw [natToBytes_length]; exact h32), natToBytes_length]
    split
    · exact natToBytes_getD _ _ _ (by omega)
    · rfl

theorem storeOp_stores {i : Instr} {s : State} {d n a imm : Nat} (he : exec i s = .next (storeOp d n a imm s)) (h : CanIssue s)
    (hs : s.cur.eng = .s) (hn : AccessSize n) : StoresTo i s d ((sv s a + immS s imm).toNat % 2 ^ 56) n := by
  refine storesTo_of he h hs hn fun t hw => ?_
  unfold effective
  rw [hw.sv, hw.immS]

theorem stRel_stores {s : State} (d a sc : Nat) (h : CanIssue s) (hs : s.cur.eng = .s) :
    StoresTo (.stRel d a sc) s d ((sv s a).toNat % 2 ^ 56) 8 := by
  refine storesTo_of rfl h hs (.inr (.inr (.inr rfl))) fun t hw => ?_
  rw [hw.sv]

/-! ### The statement -/

/-- Settles O26: the issue of every store, the moment each performs, its marks, and the far slot that serves its piece. -/
theorem stores : Obligations.Stores := by
  unfold Obligations.Stores
  intro s d a imm sc core bank h r p q n va k performs popped
  refine ⟨fun hi hs _ => ⟨storeOp_stores rfl hi hs (.inl rfl), storeOp_stores rfl hi hs (.inr (.inl rfl)),
    storeOp_stores rfl hi hs (.inr (.inr (.inl rfl))), storeOp_stores rfl hi hs (.inr (.inr (.inr rfl))), stRel_stores d a sc hi hs⟩,
    fun hst => congrArg _ (performStore_idle hst),
    fun hst hp => ⟨fun hf => congrArg _ (performStore_waits hst hp (readyPiece_none hf)), fun hf =>
      ⟨fun hx => congrArg _ (performStore_waits hst hp (readyPiece_waits hf hx)), fun hx => ?_⟩⟩,
    settleMarks_none, settleMarks_later, settleMarks_last, fun ho hw hl hcc hr h32 h0 hm hlost => ?_⟩
  · have hperf : performs = .next (sendStore (settleMarks popped k) k) :=
      congrArg Host.Outcome.next (performStore_ended hst hp (readyPiece_ended hf hx) hst)
    have hleft : ((settleMarks popped k).task k).s.stores = r := by
      rw [settleMarks_stores]
      exact congrArg (fun x => x.s.stores) (State.task_modTask_same (dropPiece s p.id) k _)
    refine ⟨fun hr => ?_, fun _ => sendsOldest_of hperf⟩
    rw [hperf, sendStore_idle (hleft.trans hr)]
  · obtain ⟨c, hserve⟩ := serveFast_store ho hw hl hcc h32 h0 hm hlost
    refine ⟨c, hserve, fun x => ?_⟩
    rw [byteAt_stripWrite s hr (by omega), hl]

end Sys2Proof.Machine
end

section
/-!
PROOF. An instruction decodes from its encoding exactly where it is well formed (02_program_text R23, R43-R48, R390).
-/

namespace Sys2Proof

/-! ### The row of an instruction -/

/-- Row f makes i from its operands, and has the parts segs of a word of engine e, whatever the operands are. -/
inductive Makes (e : Eng) (segs : List Seg) : (List Nat → Instr) → Instr → Prop
  | of8 (c : Nat → Nat → Nat → Nat → Nat → Nat → Nat → Nat → Instr)
      (ho : ∀ p q r s t u v w, operands (c p q r s t u v w) = [p, q, r, s, t, u, v, w])
      (hl : ∀ p q r s t u v w, layout (c p q r s t u v w) = some ⟨.eng e, 32, segs⟩) (p q r s t u v w : Nat) :
      Makes e segs (mk8 c) (c p q r s t u v w)
  | of7 (c : Nat → Nat → Nat → Nat → Nat → Nat → Nat → Instr) (ho : ∀ p q r s t u v, operands (c p q r s t u v) = [p, q, r, s, t, u, v])
      (hl : ∀ p q r s t u v, layout (c p q r s t u v) = some ⟨.eng e, 32, segs⟩) (p q r s t u v : Nat) :
      Makes e segs (mk7 c) (c p q r s t u v)
  | of6 (c : Nat → Nat → Nat → Nat → Nat → Nat → Instr) (ho : ∀ p q r s t u, operands (c p q r s t u) = [p, q, r, s, t, u])
      (hl : ∀ p q r s t u, layout (c p q r s t u) = some ⟨.eng e, 32, segs⟩) (p q r s t u : Nat) : Makes e segs (mk6 c) (c p q r s t u)
  | of5 (c : Nat → Nat → Nat → Nat → Nat → Instr) (ho : ∀ p q r s t, operands (c p q r s t) = [p, q, r, s, t])
      (hl : ∀ p q r s t, layout (c p q r s t) = some ⟨.eng e, 32, segs⟩) (p q r s t : Nat) : Makes e segs (mk5 c) (c p q r s t)
  | of4 (c : Nat → Nat → Nat → Nat → Instr) (ho : ∀ p q r s, operands (c p q r s) = [p, q, r, s])
      (hl : ∀ p q r s, layout (c p q r s) = some ⟨.eng e, 32, segs⟩) (p q r s : Nat) : Makes e segs (mk4 c) (c p q r s)
  | of3 (c : Nat → Nat → Nat → Instr) (ho : ∀ p q r, operands (c p q r) = [p, q, r])
      (hl : ∀ p q r, layout (c p q r) = some ⟨.eng e, 32, segs⟩) (p q r : Nat) : Makes e segs (mk3 c) (c p q r)
  | of2 (c : Nat → Nat → Instr) (ho : ∀ p q, operands (c p q) = [p, q])
      (hl : ∀ p q, layout (c p q) = some ⟨.eng e, 32, segs⟩) (p q : Nat) : Makes e segs (mk2 c) (c p q)
  | of1 (c : Nat → Instr) (ho : ∀ p, operands (c p) = [p])
      (hl : ∀ p, layout (c p) = some ⟨.eng e, 32, segs⟩) (p : Nat) : Makes e segs (mk1 c) (c p)
  | of0 (i : Instr) (ho : operands i = []) (hl : layout i = some ⟨.eng e, 32, segs⟩) : Makes e segs (mk0 i) i

theorem Makes.layout {e : Eng} {segs : List Seg} {f : List Nat → Instr} {i : Instr} (h : Makes e segs f i) (xs : List Nat) :
    layout (f xs) = some ⟨.eng e, 32, segs⟩ := by
  cases h with
  | of0 _ _ hl => exact hl
  | _ c _ hl => apply hl

theorem Makes.operands {e : Eng} {segs : List Seg} {f : List Nat → Instr} {i : Instr} (h : Makes e segs f i) :
    f (operands i) = i ∧ ∀ xs, operands (f xs) = (List.range (operands i).length).map fun j => xs.getD j 0 := by
  cases h with
  | of0 i ho => exact ⟨rfl, fun xs => by rw [ho]; exact ho⟩
  | _ c ho hl => exact ⟨by rw [ho]; rfl, fun xs => by rw [ho]; apply ho⟩

/-- Every word has its row in the table of its engine. -/
theorem makes_of_layout (i : Instr) (e : Eng) (segs : List Seg) (h : layout i = some ⟨.eng e, 32, segs⟩) :
    ∃ f, Makes e segs f i ∧ f ∈ rowsOf e := by
  cases i <;> cases h <;> refine ⟨_, by constructor <;> intros <;> rfl, ?_⟩ <;>
    simp only [rowsOf, rowsS, rowsC, rowsV, rowsM, rowsA, List.mem_append, List.mem_cons, true_or, or_true]

/-! ### The major opcode -/

/-- The major opcode of a row whose selecting bits begin at bit 31 (R43). -/
def majorOf : List Seg → Nat
  | .op k v :: _ => v / 2 ^ (k - 7) % 64
  | _ => 0

/-- The row gives the seven high bits of its word, of which bit 31 is 1 (R23). -/
def leads : List Seg → Bool
  | .op k v :: _ => decide (7 ≤ k ∧ k ≤ 32 ∧ v / 2 ^ (k - 7) / 64 = 1)
  | _ => false

theorem major_of_selects : ∀ (segs : List Seg), leads segs = true → ∀ w < 2 ^ 32, Seg.selects segs 32 w = true →
    w / 2 ^ 25 = 64 + majorOf segs
  | .op k v :: r, hl, w, hw, hs => by
    obtain ⟨h7, h32, h1⟩ := of_decide_eq_true hl
    simp only [Seg.selects, Bool.and_eq_true, beq_iff_eq, slice] at hs
    have hpow : 2 ^ (32 - k) * 2 ^ k = 2 ^ 32 := by rw [← pow_add]; congr 1; omega
    rw [Nat.mod_eq_of_lt (Nat.div_lt_of_lt_mul (by rw [hpow]; exact hw))] at hs
    have h25 : v / 2 ^ (k - 7) = w / 2 ^ 25 := by
      rw [← hs.1, Nat.div_div_eq_div_mul, ← pow_add]
      congr 2; omega
    show w / 2 ^ 25 = 64 + v / 2 ^ (k - 7) % 64
    omega

/-- The rows of an engine lead, and have a field for each operand. -/
def rowSound (f : List Nat → Instr) : Bool :=
  match layout (f []) with
  | some l => leads l.segs && (Seg.fields l.segs l.bits 0).length == (operands (f [])).length
  | none => false

theorem rowsSound (e : Eng) : (rowsOf e).all rowSound = true := by cases e <;> decide +kernel

/-! ### What well-formedness asks -/

/-- The operands fit the row, and none has an illegal or a reserved value. -/
def Legal (e : Eng) (segs : List Seg) (i : Instr) : Bool :=
  Seg.fits segs (operands i) && !illegalValue i && !reservedValue e (majorOf segs) i

/-! Both sides ask an instruction for the same bounds, in another order: its fields' widths, and the limits of its reference. One lemma
for each engine keeps each cheap to check. -/

theorem wellFormed_s (i : Instr) (segs : List Seg) (h : layout i = some ⟨.eng .s, 32, segs⟩) : wellFormed i = Legal .s segs i := by
  cases i <;> cases h <;> delta Legal wellFormed operands illegalValue reservedValue <;> dsimp only [WellFormed.lt, WellFormed.ge, Seg.fits] <;>
    rw [Bool.eq_iff_iff] <;> simp [and_assoc]
  omega

theorem wellFormed_c (i : Instr) (segs : List Seg) (h : layout i = some ⟨.eng .c, 32, segs⟩) : wellFormed i = Legal .c segs i := by
  cases i <;> cases h <;> delta Legal wellFormed operands illegalValue reservedValue <;> dsimp only [WellFormed.lt, WellFormed.ge, Seg.fits] <;>
    rw [Bool.eq_iff_iff] <;> simp [and_assoc, majorOf]

theorem wellFormed_v (i : Instr) (segs : List Seg) (h : layout i = some ⟨.eng .v, 32, segs⟩) : wellFormed i = Legal .v segs i := by
  cases i <;> cases h <;> delta Legal wellFormed operands illegalValue reservedValue <;> dsimp only [WellFormed.lt, WellFormed.ge, Seg.fits] <;>
    rw [Bool.eq_iff_iff] <;> simp [and_assoc, majorOf] <;> omega

theorem wellFormed_m (i : Instr) (segs : List Seg) (h : layout i = some ⟨.eng .m, 32, segs⟩) : wellFormed i = Legal .m segs i := by
  cases i <;> cases h <;> delta Legal wellFormed operands illegalValue reservedValue <;> dsimp only [WellFormed.lt, WellFormed.ge, Seg.fits] <;>
    rw [Bool.eq_iff_iff] <;> simp

theorem wellFormed_a (i : Instr) (segs : List Seg) (h : layout i = some ⟨.eng .a, 32, segs⟩) : wellFormed i = Legal .a segs i := by
  cases i <;> cases h <;> delta Legal wellFormed operands illegalValue reservedValue <;> dsimp only [WellFormed.lt, WellFormed.ge, Seg.fits] <;>
    rw [Bool.eq_iff_iff] <;> simp [and_assoc] <;> omega

theorem wellFormed_of_layout (i : Instr) (segs : List Seg) : ∀ e, layout i = some ⟨.eng e, 32, segs⟩ → wellFormed i = Legal e segs i
  | .s => wellFormed_s i segs
  | .c => wellFormed_c i segs
  | .v => wellFormed_v i segs
  | .m => wellFormed_m i segs
  | .a => wellFormed_a i segs

/-! ### The statement -/

theorem majorOf_lt : ∀ segs : List Seg, majorOf segs < 64
  | .op _ _ :: _ => Nat.mod_lt _ (by decide)
  | .z _ :: _ | .f _ :: _ | [] => Nat.zero_lt_succ _

theorem wellFormed_short {i : Instr} {who : Owner} {segs : List Seg} (h : layout i = some ⟨who, 16, segs⟩) :
    wellFormed i = Seg.fits segs (operands i) := by
  cases i <;> cases h <;> simp [wellFormed, WellFormed.lt, operands, Seg.fits]

theorem decode_encode_word {i : Instr} {e : Eng} {segs : List Seg} (h : layout i = some ⟨.eng e, 32, segs⟩) :
    decode (engineOf i) (encodeHalfwords i) = .ok {} i 2 ↔ wellFormed i = true := by
  obtain ⟨f, hm, hf⟩ := makes_of_layout i e segs h
  have hs := List.all_eq_true.1 (rowsSound e) f hf
  unfold rowSound at hs
  rw [hm.layout] at hs
  obtain ⟨hl, hn⟩ := Bool.and_eq_true_iff.1 hs
  have hn : (Seg.fields segs 32 0).length = (operands (f [])).length := beq_iff_eq.1 hn
  refine word_case i e f segs (majorOf segs) h ((hm.layout []).trans h.symm) hf hm.operands.1 hm.operands.2 ?_ (major_of_selects segs hl)
    (majorOf_lt segs) (wellFormed_of_layout i segs e h)
  rw [hn, hm.operands.2, List.length_map, List.length_range]

/-- The parts of a block header (R25). -/
def headerSegs : List Seg := [.op 7 127, .f 3, .f 1, .z 1, .f 10, .f 10]

theorem decodeHeader_encode {ty imm lx rl : Nat} (h : wellFormed (.blockHeader ty imm lx rl) = true) :
    decodeHeader (encode (.blockHeader ty imm lx rl)) = some (.blockHeader ty imm lx rl) := by
  have hfit : Seg.fits headerSegs [ty, imm, lx, rl] = true := by
    simp only [wellFormed, WellFormed.lt, Bool.and_eq_true, decide_eq_true_eq] at h
    simp only [Seg.fits, headerSegs, Bool.and_eq_true, decide_eq_true_eq]
    exact ⟨by omega, by omega, by omega, by omega, rfl⟩
  obtain ⟨hsel, -, hfields⟩ := Seg.fill_row headerSegs [ty, imm, lx, rl] 0 rfl hfit
  rw [Nat.zero_mul, Nat.zero_add] at hsel hfields
  have hmajor : encode (.blockHeader ty imm lx rl) / 2 ^ 25 = 127 :=
    major_of_selects headerSegs (by decide) _ (Seg.fill_lt headerSegs [ty, imm, lx, rl] rfl) hsel
  unfold decodeHeader
  rw [if_pos hmajor]
  simp only [Seg.fields, headerSegs, List.cons.injEq] at hfields
  obtain ⟨h1, h2, h3, h4, -⟩ := hfields
  exact congrArg some (by congr)

/-- Settles O58: a word by its row, a short instruction by its own, a block header by its fields. -/
theorem decodeEncode : Obligations.DecodeEncode := by
  unfold Obligations.DecodeEncode
  refine ⟨fun i l h hb => ?_, fun ty imm lx rl h => ⟨decodeHeader_encode h, rfl⟩⟩
  cases i with
  | nop16 =>
    cases h
    exact short_case _ (mk0 .nop16) _ 0 _ rfl rfl (by simp) rfl (by simp [rows16Of, rowsAny16]) rfl (fun _ => rfl) rfl (wellFormed_short rfl)
  | bw n =>
    cases h
    exact short_case _ (mk1 .bw) _ 7 _ rfl rfl (by simp) rfl (by simp [rows16Of, rowsAny16]) rfl (fun _ => rfl) rfl (wellFormed_short rfl)
  | mov16 d a =>
    cases h
    exact short_case _ (mk2 .mov16) _ 8 _ rfl rfl (by simp) rfl (by simp [rows16Of, rowsS16]) rfl (fun _ => rfl) rfl (wellFormed_short rfl)
  | addi16 d n =>
    cases h
    exact short_case _ (mk2 .addi16) _ 9 _ rfl rfl (by simp) rfl (by simp [rows16Of, rowsS16]) rfl (fun _ => rfl) rfl (wellFormed_short rfl)
  | li16 d n =>
    cases h
    exact short_case _ (mk2 .li16) _ 10 _ rfl rfl (by simp) rfl (by simp [rows16Of, rowsS16]) rfl (fun _ => rfl) rfl (wellFormed_short rfl)
  | blockHeader ty imm lx rl => exact absurd rfl (hb ty imm lx rl)
  | _ => cases h <;> exact decode_encode_word rfl

/-- Settles O57: each word is decoded by the tables of its engine. -/
theorem decodeWords : Obligations.DecodeWords := by
  unfold Obligations.DecodeWords
  refine ⟨?_, ?_, ?_, ?_, ?_, ?_, ?_, ?_, ?_, ?_⟩ <;> decide +kernel

end Sys2Proof
end

section
/-!
PROOF. The short instructions of S and its reads of clocks, the open beat, the event queue and control and status registers
(02_program_text R41, 08_dies_time R151, 15_conductor R274, R282, R286, R287).
-/

namespace Sys2Proof.Machine

/-! ### The control and status registers -/

/-- A control and status register reads as the list of R287 says. -/
theorem csrValue_eq (s : State) (n : Nat) : csrValue s n = readsCsr s n := by
  unfold csrValue
  split
  case h_16 =>
    have hb : ∀ (b : Bool) (v : Nat), b2n b * v = if b then v else 0 := fun b v => by cases b <;> simp [b2n]
    show pwrValue s _ = _ * 2 ^ 40 + _ + _ + _ * 2 ^ 4 + _ * 2 ^ 2 + _
    unfold pwrValue
    simp only [hb]
    rfl
  case h_22 => unfold readsCsr; iterate 21 rw [if_neg (by assumption)]
  all_goals rfl

/-- The walk of an engine and the race checkers do not show in a control and status register. -/
theorem Walks.csrValue {e : Eng} {s t : State} (h : Walks s.key e s t) (n : Nat) : Machine.csrValue t n = Machine.csrValue s n := by
  have hg : (t.gangOf t.key).map (fun g => g.tasks.length) = (s.gangOf s.key).map (fun g => g.tasks.length) := by
    rw [h.key]; exact h.gang_field _ _ fun _ => rfl
  have hcsr : t.me.csr = s.me.csr := h.me_field (fun x => x.csr) fun _ => rfl
  have hcnt : t.me.bufcnt = s.me.bufcnt := h.me_field (fun x => x.bufcnt) fun _ => rfl
  have hidx : t.me.index = s.me.index := h.me_field (fun x => x.index) fun _ => rfl
  have htask : taskValue t = taskValue s := by
    unfold taskValue
    rw [hidx, h.cur]
    cases hs : s.gangOf s.key <;> cases ht : t.gangOf t.key <;> simp_all
  unfold Machine.csrValue skewValue slipValue pwrValue
  simp only [htask, hcsr, hcnt, h.cur, h.die, h.reg, h.grid, h.myCore, h.stack]

/-! ### A register of S is written -/

/-- A field of the executing task that is no register of S stands as before a write of a register. -/
theorem me_setS {α : Type} (f : Task → α) (hf : ∀ x r, f { x with sreg := r } = f x) (s : State) (d : Nat) (v : Word) :
    f (setS s d v).me = f s.me := by
  unfold setS
  split
  · rfl
  · rw [me_modMe, hf]

theorem myEng_setS (s : State) (d : Nat) (v : Word) : (setS s d v).myEng = s.myEng := by
  show Sparse.rd {} (setS s d v).me.engs (setS s d v).cur.eng.tag = _
  rw [setS_cur, me_setS (fun x => x.engs) fun _ _ => rfl]
  rfl

theorem AtIt.setS {s t : State} (h : AtIt s t) (d : Nat) (v : Word) : AtIt s (Machine.setS t d v) :=
  ⟨(congrArg EngSt.passes (myEng_setS t d v)).trans h.1, (me_setS (fun x => x.recs) (fun _ _ => rfl) t d v).trans h.2⟩

/-! ### The event queue -/

/-- The head of the event queue is taken (R282). -/
def dropEvent (s : State) : State := s.modMe fun t => { t with evq := t.evq.drop 1 }

theorem dropEvent_cur (s : State) : (dropEvent s).cur = s.cur := State.modMe_cur _ _
theorem dropEvent_key (s : State) : (dropEvent s).key = s.key := State.modMe_key _ _

theorem myEng_dropEvent (s : State) : (dropEvent s).myEng = s.myEng :=
  eng_modTask (s := s) (k := s.key) (f := fun t => { t with evq := t.evq.drop 1 }) (fun _ => rfl) s.key s.cur.eng

theorem Walks.dropEvent {e : Eng} {s t : State} (h : Walks s.key e s t) : Walks s.key e (Machine.dropEvent s) (Machine.dropEvent t) :=
  h.modMe _ fun a b hab => by
    have he : a.evq = b.evq := (congrArg Task.evq hab :)
    simp only [Task.still, Task.mk.injEq] at hab ⊢
    simp_all

theorem AtIt.dropEvent {s t : State} (h : AtIt s t) : AtIt s (Machine.dropEvent t) :=
  h.modMe (fun t => { t with evq := t.evq.drop 1 }) (fun _ => rfl) fun _ => rfl

theorem evpop_does {s : State} (d : Nat) (h : CanIssue s) : Does (.evpop d) s (setS (dropEvent s) d (BitVec.ofNat 64 (s.me.evq.headD 0))) := by
  refine ⟨_, rfl, issue_does h (by simp) fun t hw _ ha => ?_⟩
  have hq : t.me.evq = s.me.evq := hw.me_field (fun x => x.evq) fun _ => rfl
  have hx : Walks (dropEvent s).key s.cur.eng (dropEvent s) (dropEvent t) := dropEvent_key s ▸ hw.dropEvent
  have he := (myEng_setS (dropEvent s) d (BitVec.ofNat 64 (s.me.evq.headD 0))).trans (myEng_dropEvent s)
  rw [hq]
  exact advance_does (dropEvent_key s ▸ hx.setS d _) ((setS_cur _ _ _).trans (dropEvent_cur s)) (by rw [he]) (by rw [he]) (by rw [he])
    (ha.dropEvent.setS d _)

/-! ### The statement -/

/-- Settles O8: each writes one register, with a value that the walk of its engine does not change. -/
theorem scalarReads : Obligations.ScalarReads := by
  unfold Obligations.ScalarReads
  intro s d a imm n h die
  have writes {i : Instr} (f : State → Word) (he : exec i s = .next (scalarOp d f s)) (hf : ∀ t, Walks s.key s.cur.eng s t → f t = f s) :
      Does i s (setS s d (f s)) := ⟨_, he, scalarOp_does d f s h hf⟩
  exact ⟨writes (fun s => sv s a) rfl fun t hw => hw.sv a,
    writes (fun s => sv s d + BitVec.ofInt 64 (sext imm 6)) rfl fun t hw => by rw [hw.sv],
    writes (fun _ => BitVec.ofInt 64 (sext imm 6)) rfl fun t _ => rfl,
    writes (fun s => BitVec.ofNat 64 (((s.die (dieOf s.cur.core)).beat + 2 ^ 48 - s.me.csr.tbb) % 2 ^ 48)) rfl fun t hw => by
      rw [hw.die, hw.cur, hw.tbb],
    writes (fun s => BitVec.ofNat 64 ((s.die (dieOf s.cur.core)).tick2 / 2)) rfl fun t hw => by rw [hw.die, hw.cur],
    writes (fun s => BitVec.ofNat 64 (s.die (dieOf s.cur.core)).ntime) rfl fun t hw => by rw [hw.die, hw.cur],
    csrValue_eq s n ▸ writes (fun s => BitVec.ofNat 64 (csrValue s n)) rfl fun t hw => by rw [hw.csrValue],
    writes (fun s => BitVec.ofNat 64 (s.me.evq.headD 0)) rfl fun t hw => by rw [hw.me_field (fun x => x.evq) fun _ => rfl],
    evpop_does d h⟩

end Sys2Proof.Machine
end

section
/-!
PROOF. Branches (02_program_text R28, R31, R32; 15_conductor R270, R271).
-/

namespace Sys2Proof.Machine

/-- S leaves its block from a state that its walk and a write of a register separate from s. -/
theorem leaves_after {i : Instr} {s u t : State} {target : Nat} (he : exec i s = .next (takeBranch target t)) (hs : s.cur.eng = .s)
    (hw : Walks s.key s.cur.eng u t) (hc : u.cur = s.cur) (hr : t.me.recs = s.me.recs) (hwin : u.me.csr.win = s.me.csr.win)
    (hser : u.myEng.serial = s.myEng.serial) : Leaves i s u 1 target := by
  have hk : t.key = s.key := hw.key.trans (by rw [State.key, hc]; rfl)
  rw [hs] at hw
  refine leaves_of ?_ hs hw hc hr hwin hser
  rw [he, ← hk]
  rfl

theorem Walks.branchTarget {k : Nat} {e : Eng} {s t : State} (h : Walks k e s t) (off : Nat) :
    Machine.branchTarget t off = Machine.branchTarget s off := by
  unfold Machine.branchTarget wordAddress
  rw [h.cur]

theorem Walks.linkAddress {s t : State} (h : Walks s.key s.cur.eng s t) : Machine.linkAddress t = Machine.linkAddress s := by
  unfold Machine.linkAddress
  rw [h.my (fun x => x.body) fun _ => rfl, h.my (fun x => x.len) fun _ => rfl]

/-- A branch whose condition the walk does not change is taken where it holds, and else the last of its block (R270). -/
theorem branchOp_outcome {i : Instr} {s : State} {off : Nat} {cond : State → Bool} (he : exec i s = .next (branchOp off cond s))
    (h : CanIssue s) (hs : s.cur.eng = .s) (hcond : ∀ t, Walks s.key s.cur.eng s t → cond t = cond s) :
    (cond s = true → Leaves i s s 1 (branchTarget s off)) ∧ (cond s = false → Does i s s) := by
  refine ⟨fun hc => ?_, fun hc => ⟨_, he, issue_does h (by simp) fun t hw _ ha => ?_⟩⟩
  · obtain ⟨t, ht, hw, -, ⟨hr, -⟩, -⟩ := issue_ready false (fun s => if cond s then takeBranch (branchTarget s off) s else advance s) s h (by simp)
    refine leaves_after (he.trans (congrArg _ (ht.trans ?_))) hs hw rfl hr rfl rfl
    rw [if_pos ((hcond t hw).trans hc), hw.branchTarget]
  · rw [if_neg (by rw [hcond t hw, hc]; simp)]
    exact advance_does hw rfl rfl rfl rfl ha

/-- A jump to a target that the walk does not change leaves its block with the link written (R271). -/
theorem jump_leaves {i : Instr} {s : State} {d : Nat} {target : State → Nat}
    (he : exec i s = .next (issue false (fun s => takeBranch (target s) (setS s d (linkAddress s))) s)) (h : CanIssue s) (hs : s.cur.eng = .s)
    (htarget : ∀ t, Walks s.key s.cur.eng s t → target t = target s) :
    Leaves i s (setS s d (linkAddress s)) 1 (target s) := by
  obtain ⟨t, ht, hw, -, ⟨hr, -⟩, -⟩ := issue_ready false (fun s => takeBranch (target s) (setS s d (linkAddress s))) s h (by simp)
  rw [htarget t hw, hw.linkAddress] at ht
  refine leaves_after (he.trans (congrArg _ ht)) hs (hw.setS d _) (setS_cur _ _ _) ?_ ?_ (congrArg EngSt.serial (myEng_setS _ _ _))
  · rw [me_setS (fun x => x.recs) fun _ _ => rfl]; exact hr
  · exact me_setS (fun x => x.csr.win) (fun _ _ => rfl) _ _ _

/-- Settles O10: a branch decides in a state that only the walk of S separates from s. -/
theorem branches : Obligations.Branches := by
  unfold Obligations.Branches
  intro s p d a off h hs target link
  have cond (v : Nat) {i : Instr} (he : exec i s = .next (branchOp off (fun s => pv s p == v) s)) :
      if pv s p = v then Leaves i s s 1 target else Does i s s := by
    obtain ⟨hyes, hno⟩ := branchOp_outcome he h hs fun t hw => by rw [hw.pv]
    split
    · exact hyes (beq_iff_eq.2 ‹_›)
    · exact hno (beq_eq_false_iff_ne.2 ‹_›)
  exact ⟨cond 1 rfl, cond 0 rfl, cond 2 rfl, (branchOp_outcome (cond := fun _ => true) rfl h hs fun _ _ => rfl).1 rfl,
    jump_leaves (target := fun s => branchTarget s off) rfl h hs fun t hw => hw.branchTarget off,
    jump_leaves (target := fun s => (sv s a).toNat % 2 ^ 56) rfl h hs fun t hw => by rw [hw.sv]⟩

end Sys2Proof.Machine
end

section
/-!
PROOF. The walk of the program text: block headers, countPopped counts and path records (02_program_text R28, R29, R33).
-/

namespace Sys2Proof.Machine

/-! ### Block headers -/

/-- Settles O15: the header is read in the state that the cycle of V leaves, in which the same engine executes. -/
theorem blockHeaders : Obligations.BlockHeaders := by
  unfold Obligations.BlockHeaders
  intro s tag il len rep k e u x y own
  have he : exec (.blockHeader tag il len rep) s = .next (readHeader u k e tag il len rep) := by
    show Host.Outcome.next (readHeader (cycleOf s k e) (cycleOf s k e).key (cycleOf s k e).cur.eng tag il len rep) = _
    rw [cycleOf_key, cycleOf_cur]
    rfl
  rw [he]
  refine ⟨fun ht => ?_, fun ht hr => ?_, fun ht hr => ?_⟩
  · unfold readHeader; rw [if_neg ht]
  · unfold readHeader; rw [if_pos ht]; exact congrArg _ (if_neg hr)
  · unfold readHeader; rw [if_pos ht]; exact congrArg _ (if_pos hr)

/-! ### Counts -/

theorem exec_repnPop {core bank : Nat} {e : Eng} {s : State} (hp : (s.eng (tkey core bank) e).phase = .count)
    (hs : (s.eng (tkey core bank) e).stopped = false) :
    exec (.repnPop core bank e.tag) s = .next (popCount s (tkey core bank) e) := by
  have he : exec (.repnPop core bank e.tag) s = .next (if (s.eng (tkey core bank) e).phase = .count ∧ !(s.eng (tkey core bank) e).stopped
      then popCount s (tkey core bank) e else s) := by cases e <;> rfl
  rw [he, if_pos ⟨hp, by rw [hs]; rfl⟩]

theorem popCount_empty {s : State} {k : Nat} {e : Eng} (hq : Sparse.rd [] (s.task k).repn e.tag = []) : popCount s k e = s := by
  unfold popCount
  rw [hq]

/-- A count has been taken off the REPN queue of engine e, and leaves r. -/
def countPopped (s : State) (k : Nat) (e : Eng) (r : List Nat) : State :=
  s.modTask k fun t => { t with repn := Sparse.wr [] t.repn e.tag r }

theorem countPopped_eng (s : State) (k : Nat) (e : Eng) (r : List Nat) : (countPopped s k e r).eng k e = s.eng k e :=
  eng_modTask (s := s) (k := k) (f := fun t => { t with repn := Sparse.wr [] t.repn e.tag r }) (fun _ => rfl) k e

theorem popCount_zero {s : State} {k : Nat} {e : Eng} {r : List Nat} (hq : Sparse.rd [] (s.task k).repn e.tag = 0 :: r) :
    popCount s k e = leaveBlock (countPopped s k e r) k e := by
  unfold popCount
  rw [hq]
  rfl

theorem popCount_runs {s : State} {k n : Nat} {e : Eng} {r : List Nat} (hq : Sparse.rd [] (s.task k).repn e.tag = n :: r) (hn : n ≠ 0) :
    popCount s k e = (countPopped s k e r).setEng k e { s.eng k e with phase := .body, pc := (s.eng k e).body, passes := n, wait := .none } := by
  unfold popCount
  rw [hq]
  exact if_neg hn

/-- An engine that pops a count has walked from the state without it, and runs its body that many times or leaves its block. -/
theorem popCount_pops {s : State} {k n : Nat} {e : Eng} {r : List Nat} (hq : Sparse.rd [] (s.task k).repn e.tag = n :: r) :
    let t := popCount s k e
    Walks k e (countPopped s k e r) t
      ∧ (n ≠ 0 → (t.eng k e).phase = .body ∧ (t.eng k e).pc = (s.eng k e).body ∧ (t.eng k e).passes = n)
      ∧ (n = 0 → e ≠ .s → (t.eng k e).phase = .header ∧ (t.eng k e).pc = (s.eng k e).body + 2 * (s.eng k e).len) := by
  dsimp only
  by_cases hn : n = 0
  · subst hn
    rw [popCount_zero hq]
    refine ⟨leaveBlock_walks _ _ _, fun h => absurd rfl h, fun _ he => ?_⟩
    unfold leaveBlock
    dsimp only
    rw [if_neg he, countPopped_eng, State.eng_setEng_same]
    exact ⟨rfl, rfl⟩
  · rw [popCount_runs hq hn]
    refine ⟨Walks.ofEng _ _ _ _ (by rw [countPopped_eng]; rfl), fun _ => ?_, fun h => absurd h hn⟩
    rw [State.eng_setEng_same]
    exact ⟨rfl, rfl, rfl⟩

/-- Engine e of task k stands before an empty REPN queue in a stall that R29 names. -/
def Dry (s : State) (k : Nat) (e : Eng) : Prop :=
  (s.eng k e).phase = .count ∧ (s.eng k e).stopped = false ∧ Sparse.rd [] (s.task k).repn e.tag = [] ∧ (e = .s ∨ stalledFor s k e = true)

theorem starved_iff (s : State) (k : Nat) (e : Eng) : starved s k e = true ↔ Dry s k e := by
  unfold starved Dry
  simp [and_assoc]

theorem starve_none {s : State} {k : Nat} (h : ∀ e, ¬ Dry s k e) : starve s k = s := by
  have hf : engines.filter (starved s k) = [] := List.filter_eq_nil_iff.2 fun e _ => by rw [starved_iff]; exact h e
  unfold starve
  rw [hf]
  rfl

theorem starve_one {s : State} {k : Nat} {e : Eng} (he : Dry s k e) (h : ∀ f, f ≠ e → ¬ Dry s k f) :
    starve s k = raiseCause (s.modEng k e fun x => { x with stopped := true }) k 147 0 0 := by
  have hf : engines.filter (starved s k) = engines.filter (· == e) :=
    List.filter_congr fun f _ => by
      rw [Bool.eq_iff_iff, starved_iff, beq_iff_eq]
      exact ⟨fun hd => by_contra fun hne => h f hne hd, fun hfe => hfe ▸ he⟩
  have hone : engines.filter (· == e) = [e] := by cases e <;> rfl
  unfold starve
  rw [hf, hone]
  rfl

/-- Settles O16: a count is countPopped, waited for, or can no longer come. -/
theorem countsPopped : Obligations.CountsPopped := by
  unfold Obligations.CountsPopped
  intro s core bank e k x q dry
  refine ⟨fun hp hs => ⟨fun n r hq => ⟨_, exec_repnPop hp hs, popCount_pops hq⟩, fun hq => ?_⟩, ?_, fun h => ?_, starve_none, starve_one⟩
  · rw [exec_repnPop hp hs, popCount_empty hq]
  · unfold stalledFor
    dsimp only
    cases (s.eng k .s).wait <;> simp
  · show prompt core bank (prompted s k) s = _
    rw [h]
    rfl

/-! ### Path records -/

theorem exec_pathRecordTake {core bank : Nat} {e : Eng} {s : State} (he : e ≠ .s) (hp : (s.eng (tkey core bank) e).phase = .path)
    (hs : (s.eng (tkey core bank) e).stopped = false) :
    exec (.pathRecordTake core bank e.tag) s = .next (takeRecord s (tkey core bank) e) := by
  have hx : exec (.pathRecordTake core bank e.tag) s = .next (if e ≠ .s ∧ (s.eng (tkey core bank) e).phase = .path
      ∧ !(s.eng (tkey core bank) e).stopped then takeRecord s (tkey core bank) e else s) := by cases e <;> rfl
  rw [hx, if_pos ⟨he, hp, by rw [hs]; rfl⟩]

/-- What an engine sees late changes no engine. -/
theorem takeLate_engs (t : Task) (e : Eng) (n : Nat) : (takeLate t e n).engs = t.engs := by
  unfold takeLate
  refine List.foldlRecOn (motive := fun u : Task => u.engs = t.engs) _ _ rfl fun u hu x _ => ?_
  cases x.what <;> exact hu

theorem learnRecord_task (s : State) (k : Nat) (e : Eng) (n j : Nat) : (learnRecord s k e n).task j = s.task j := by
  unfold learnRecord
  split
  · split
    · split
      · exact State.modGang_task _ _ _ _
      · rfl
    · rfl
  · rfl

/-- An engine that has taken the record r: it goes on at its target, or stops for an end record (R33). -/
def afterRecord (x : EngSt) (r : PathRec) : EngSt :=
  { x with taken := (x.taken + 1) % 2 ^ 32, wait := .none
           phase := if r.kind = 2 then .idle else .header, pc := if r.kind = 2 then x.pc else r.target }

/-- Engine e of the task takes the record r, and the records that every engine has taken are dropped. -/
def recordTaken (t : Task) (e : Eng) (r : PathRec) : Task :=
  let u := takeLate t e r.serial
  trimPath { u with engs := Sparse.wr {} u.engs e.tag (afterRecord (Sparse.rd {} t.engs e.tag) r) }

theorem recordTaken_still (t : Task) (e : Eng) (r : PathRec) : (recordTaken t e r).still e = (takeLate t e r.serial).still e := by
  unfold recordTaken trimPath Task.still
  simp only [Sparse.rd_wr_same, Sparse.wr_wr, takeLate_engs]
  rfl

theorem takeRecord_some {s : State} {k : Nat} {e : Eng} {r : PathRec} (hb : ¬ (e = .c ∧ (s.task k).c.spc.isSome = true))
    (hr : (s.task k).recs[pathIndex (s.task k) (s.eng k e)]? = some r) :
    takeRecord s k e = learnRecord (s.setTask k (recordTaken (s.task k) e r)) k e r.serial := by
  unfold takeRecord
  dsimp only
  rw [if_neg hb, hr]
  rfl

theorem takeRecord_none {s : State} {k : Nat} {e : Eng}
    (h : (e = .c ∧ (s.task k).c.spc.isSome = true) ∨ (s.task k).recs[pathIndex (s.task k) (s.eng k e)]? = none) : takeRecord s k e = s := by
  have hn : (if e = .c ∧ (s.task k).c.spc.isSome then none else (s.task k).recs[pathIndex (s.task k) (s.eng k e)]?) = none := by
    split
    · rfl
    · exact h.resolve_left ‹_›
  unfold takeRecord
  dsimp only
  rw [hn]

/-- Settles O17: the record that follows those taken is taken, or there is none. -/
theorem recordsTaken : Obligations.RecordsTaken := by
  unfold Obligations.RecordsTaken
  intro s core bank e he k x busy hp hs
  refine ⟨fun r hb hr => ⟨_, (exec_pathRecordTake he hp hs).trans (congrArg _ (takeRecord_some hb hr)), ?_, ?_⟩, fun h => ?_⟩
  · refine Walks.trans ?_ (learnRecord_walks _ _ _ _ _ _)
    exact (Walks.refl k e s).modTask (fun _ => recordTaken (s.task k) e r) (fun t => takeLate t e r.serial) (recordTaken_still _ _ _)
  · have hx : (learnRecord (s.setTask k (recordTaken (s.task k) e r)) k e r.serial).eng k e = Sparse.rd {} (recordTaken (s.task k) e r).engs e.tag := by
      unfold State.eng
      rw [learnRecord_task, State.task_setTask_same]
    have hy : Sparse.rd {} (recordTaken (s.task k) e r).engs e.tag = afterRecord x r := by
      unfold recordTaken trimPath
      exact Sparse.rd_wr_same _ _ _
    rw [hx, hy]
    exact ⟨rfl, fun h2 => if_pos h2, fun h2 => ⟨if_neg h2, if_neg h2⟩⟩
  · rw [exec_pathRecordTake he hp hs, takeRecord_none h]

end Sys2Proof.Machine
end

section
/-!
PROOF. One step of the machine: the head of the agenda, the walk of an engine from its fetch to the instruction that it executes, the
text it reads, and the time that passes on a die (02_program_text R23-R31, R277, R390; 04_beats R142).
-/

namespace Sys2Proof.Machine

/-! ### The move of an engine -/

theorem step_head {s : State} {m : Move} {r : List Move} (h : s.agenda = m :: r) : step s = performMove { s with agenda := r } m := by
  unfold step nextMove
  rw [h]

theorem step_run {s : State} {r : List Move} {core bank : Nat} {e : Eng} (h : s.agenda = .run core bank e :: r) (hc : core < 768) (hb : bank < 2) :
    step s = settle core bank (runEngine { s with agenda := r } core bank e) := by
  rw [step_head h]
  exact if_pos ⟨hc, hb⟩

theorem mayMove_iff (u : State) (core bank : Nat) (e : Eng) :
    mayMove u core bank e = true ↔ u.attached (tkey core bank) = true ∧ (u.issuing core = bank ∨ (u.task (tkey core bank)).stop = true)
      ∧ (u.core core).halted = false ∧ (u.die (core / 96)).fenced = false ∧ (u.die (core / 96)).failed = false
      ∧ mayIssue u (tkey core bank) = true ∧ (u.eng (tkey core bank) e).stopped = false
      ∧ ((u.task (tkey core bank)).stop = true → (e = .m ∧ (u.task (tkey core bank)).m.run ≠ none)
        ∨ (e = .a ∧ (u.task (tkey core bank)).a.ins ≠ none)) := by
  unfold mayMove dieOf
  simp [and_assoc, Option.isSome_iff_ne_none, imp_iff_not_or, or_assoc]

theorem runEngine_stays {u : State} {core bank : Nat} {e : Eng} (h : mayMove u core bank e = false) : runEngine u core bank e = .next u := by
  unfold runEngine
  rw [h]
  rfl

/-- An engine that nothing holds does the next thing of its walk. -/
theorem runEngine_walking {u : State} {core bank : Nat} {e : Eng} (h : Walking u core bank e) :
    runEngine u core bank e = phaseMove u core bank e := by
  obtain ⟨-, -, hmay, hm, ha, hw⟩ := h
  unfold runEngine
  dsimp only
  rw [hmay]
  generalize (u.eng (tkey core bank) e).wait = w at hw ⊢
  cases w with
  | load | fence | gbar | waitt | beat => exact hw.elim
  | _ =>
    cases e with
    | m => rw [hm rfl]; rfl
    | a => rw [ha rfl]; rfl
    | _ => rfl

/-! ### A body -/

variable {u v : State} {core bank : Nat} {e : Eng}

theorem phaseMove_header (h : (u.eng (tkey core bank) e).phase = .header) : phaseMove u core bank e = headerMove u core bank e := by
  unfold phaseMove
  dsimp only
  rw [h]

theorem phaseMove_body (h : (u.eng (tkey core bank) e).phase = .body) : phaseMove u core bank e = bodyMove u core bank e := by
  unfold phaseMove
  dsimp only
  rw [h]

/-- A control instruction runs only as the last of its block (R31). -/
theorem runDecoded_ok {left n : Nat} {ch : Chain} {i : Instr} :
    ((isControl i = true → n = left) → runDecoded v core bank e left (.ok ch i n) = exec i (setCur v core bank e ch n))
      ∧ (isControl i = true → n ≠ left → runDecoded v core bank e left (.ok ch i n) = .next (trap 0 (setCur v core bank e ch n))) :=
  ⟨fun h => if_neg fun ⟨hc, hn⟩ => hn (h hc), fun hc hn => if_pos ⟨hc, hn⟩⟩

/-- What an engine with halfwords left in its body makes of what it fetches. -/
theorem bodyMove_gathers (hl : ((u.eng (tkey core bank) e).body + 2 * (u.eng (tkey core bank) e).len - (u.eng (tkey core bank) e).pc) / 2 ≠ 0) :
    let left := ((u.eng (tkey core bank) e).body + 2 * (u.eng (tkey core bank) e).len - (u.eng (tkey core bank) e).pc) / 2
    let g := gather (setCur u core bank e {} 0) (tkey core bank) e (u.eng (tkey core bank) e).pc left
    (∀ v hs, g = (v, .ok hs) → bodyMove u core bank e = runDecoded v core bank e left (decodeIn e left hs))
      ∧ ∀ v f, g = (v, f) → (∀ hs, f ≠ .ok hs) → bodyMove u core bank e = .next (fetchFailed v f) := by
  unfold bodyMove
  dsimp only
  rw [if_neg hl]
  refine ⟨fun v hs hg => by rw [hg], fun v f hg hf => ?_⟩
  rw [hg]
  cases f with
  | ok hs => exact absurd rfl (hf hs)
  | _ => rfl

theorem bodyMove_ends (hl : ((u.eng (tkey core bank) e).body + 2 * (u.eng (tkey core bank) e).len - (u.eng (tkey core bank) e).pc) / 2 = 0) :
    bodyMove u core bank e = .next (passEnd (setCur u core bank e {} 0) (tkey core bank) e) :=
  if_pos hl

/-! ### A header -/

theorem runHeader_none {w : Nat} (h : decodeHeader w = none) : runHeader w v = .next (trap 144 v) := by
  unfold runHeader
  rw [h]

theorem runHeader_some {w ty imm lx rl : Nat} (h : decodeHeader w = some (.blockHeader ty imm lx rl)) :
    runHeader w v = if 4 < ty ∨ lx = 0 then .next (trap 144 v) else if bitOf w 20 then .next (trap 145 v) else exec (.blockHeader ty imm lx rl) v := by
  unfold runHeader
  rw [h]

/-- The state in which engine e reads a header: it executes a word of two halfwords, and no text stands by. -/
def atHeader (u : State) (core bank : Nat) (e : Eng) : State :=
  (setCur u core bank e {} 2).modEng (tkey core bank) e fun x => { x with text := none }

/-- What an engine before a header makes of the two halfwords that it fetches. -/
theorem headerMove_reads :
    let first := textHalf (atHeader u core bank e) (tkey core bank) e (u.eng (tkey core bank) e).pc
    let second (v : State) := textHalf v (tkey core bank) e ((u.eng (tkey core bank) e).pc + 2)
    (∀ v f, first = (v, f) → (∀ hs, f ≠ .ok hs) → headerMove u core bank e = .next (fetchFailed v f))
      ∧ (∀ v h w f, first = (v, .ok [h]) → second v = (w, f) → (∀ hs, f ≠ .ok hs) → headerMove u core bank e = .next (fetchFailed w f))
      ∧ ∀ v w h l, first = (v, .ok [h]) → second v = (w, .ok [l]) → headerMove u core bank e = runHeader (h * 65536 + l) w := by
  intro first second
  have hd : headerMove u core bank e = match first with
      | (s, .ok [h]) =>
        match second s with
        | (s, .ok [l]) => runHeader (h * 65536 + l) s
        | (s, r) => .next (fetchFailed s r)
      | (s, r) => .next (fetchFailed s r) := rfl
  refine ⟨fun v f h1 hf => ?_, fun v h w f h1 h2 hf => ?_, fun v w h l h1 h2 => ?_⟩
  · rw [hd, h1]
    cases f with
    | ok hs => exact absurd rfl (hf hs)
    | _ => rfl
  · rw [hd, h1]
    dsimp only
    rw [h2]
    cases f with
    | ok hs => exact absurd rfl (hf hs)
    | _ => rfl
  · rw [hd, h1]
    dsimp only
    rw [h2]

/-! ### What a control word makes of a refusal (R31) -/

theorem decodeIn_cases (e : Eng) (left : Nat) (hs : List Nat) :
    ((∀ src c, decode e hs ≠ .bad src c) ∨ controlWord e hs = false ∨ hs.length = left → decodeIn e left hs = decode e hs)
      ∧ ∀ src c, decode e hs = .bad src c → controlWord e hs = true → hs.length ≠ left → decodeIn e left hs = .bad src 0 := by
  unfold decodeIn
  refine ⟨fun h => ?_, fun src c hd hw hl => by rw [hd]; exact if_pos ⟨hw, hl⟩⟩
  cases hd : decode e hs with
  | bad src c =>
    refine if_neg fun ⟨hw, hl⟩ => ?_
    rcases h with h | h | h
    · exact h src c hd
    · rw [hw] at h; cases h
    · exact hl h
  | _ => rfl

/-! ### The text -/

variable {k va : Nat}

theorem textHalf_odd (h : va % 2 = 1) : textHalf v k e va = (v, .cause 149 0) := by
  unfold textHalf
  rw [if_pos (by omega)]

theorem textHalf_kept {bs : List Byte} (h : va % 2 = 0) (ht : (v.eng k e).text = some (va / 32, bs)) :
    textHalf v k e va = (v, .ok [bytesToNat ((bs.drop (va % 32)).take 2)]) := by
  unfold textHalf
  rw [if_neg (by omega), ht, Option.filter_some_pos (by simp)]

theorem textHalf_fetches (h : va % 2 = 0) (ht : ∀ bs, (v.eng k e).text ≠ some (va / 32, bs)) {w : State} :
    (translate v k (2 + e.tag) va 2 151 = (w, .walk) → textHalf v k e va = (w, .walk))
      ∧ (∀ c, translate v k (2 + e.tag) va 2 151 = (w, .cause c) → textHalf v k e va = (w, .cause c va))
      ∧ (∀ l y, translate v k (2 + e.tag) va 2 151 = (w, .leaf l) →
        (∀ f, textUnit w (l.phys va / 32 * 32) va = (y, .error f) → textHalf v k e va = (y, f))
        ∧ (∀ bs, textUnit w (l.phys va / 32 * 32) va = (y, .ok bs) →
          textHalf v k e va = (y.modEng k e fun x => { x with text := some (va / 32, bs) }, .ok [bytesToNat ((bs.drop (va % 32)).take 2)]))) := by
  have hn : ((v.eng k e).text.filter fun x => x.1 == va / 32) = none := by
    refine Option.filter_eq_none_iff.2 fun x hx hp => ?_
    rw [← beq_iff_eq.1 hp] at ht
    exact ht x.2 hx
  unfold textHalf
  dsimp only
  rw [if_neg (by omega), hn]
  dsimp only
  refine ⟨fun h => by rw [h], fun c h => by rw [h], fun l y h => ⟨fun f hu => ?_, fun bs hu => ?_⟩⟩
  · rw [h]; dsimp only; rw [hu]
  · rw [h]; dsimp only; rw [hu]

theorem textUnit_outside {w : State} {pa : Nat} (hr : region pa = .host ∨ region pa = .peer) :
    (∀ bs, outsideRead v pa 32 = (w, some bs) → textUnit v pa va = (w, .ok bs))
      ∧ (outsideRead v pa 32 = (w, none) → textUnit v pa va = (w, .error (.cause 334 va))) := by
  unfold textUnit
  rw [if_pos hr]
  exact ⟨fun bs h => by rw [h], fun h => by rw [h]⟩

theorem textUnit_inside {w : State} {pa : Nat} (hh : region pa ≠ .host) (hp : region pa ≠ .peer) :
    (∀ bs, tierRead v pa 32 2 = (w, .ok bs) → textUnit v pa va = (w, .ok bs))
      ∧ ∀ a, tierRead v pa 32 2 = (w, .error a) →
        textUnit v pa va = (w, .error (if isLost w (chanOf a) then .cause 303 va else .bad a)) := by
  unfold textUnit
  rw [if_neg (not_or.2 ⟨hh, hp⟩)]
  exact ⟨fun bs h => by rw [h], fun a h => by rw [h]⟩

/-- A fetch that hits in the conductor TLB gives the leaf (R328). -/
theorem FetchHits.translate {w : State} {l : Leaf} (h : FetchHits v k va l w) (unit perm : Nat) :
    Machine.translate v k unit va 2 perm = (w, .leaf l) := by
  obtain ⟨c, hlook, hplaced, hallow, rfl⟩ := h
  have hp : placed (v.modTask k fun t => { t with tlb := { t.tlb with cond := c } }) l va = true := hplaced
  unfold Machine.translate
  rw [hlook]
  simp only [hp, hallow, Bool.not_true, Bool.false_eq_true, if_false, if_true]

/-- A new unit of sound text is what memory holds (R277). -/
theorem textHalf_sound {w : State} {l : Leaf} (h : va % 2 = 0) (hf : FetchHits v k va l w) (ht : ∀ bs, (v.eng k e).text ≠ some (va / 32, bs))
    (hs : v.Sound (l.phys va / 32 * 32) 32) :
    let bs := (List.range 32).map fun i => v.byteAt (l.phys va / 32 * 32 + i)
    textHalf v k e va = (w.modEng k e fun x => { x with text := some (va / 32, bs) }, .ok [bytesToNat ((bs.drop (va % 32)).take 2)]) := by
  refine ((textHalf_fetches h ht).2.2 l w (hf.translate _ _)).2 _ ((textUnit_inside ?_ ?_).1 _ ?_)
  · rcases hs.1 with hr | hr <;> rw [hr] <;> decide
  · rcases hs.1 with hr | hr <;> rw [hr] <;> decide
  · obtain ⟨c, -, -, -, rfl⟩ := hf
    exact tierRead_sound _ _ _ _ hs

/-! ### Time -/

/-- Every clock of a die, and everything outside the dies but the count of free choices, is the same. -/
def ClocksKept (s t : State) : Prop :=
  (∀ d, (t.die d).tick2 = (s.die d).tick2) ∧ t.mem = s.mem ∧ t.tasks = s.tasks ∧ t.cores = s.cores ∧ t.chans = s.chans ∧ t.mgmt = s.mgmt

theorem ClocksKept.refl (s : State) : ClocksKept s s := ⟨fun _ => rfl, rfl, rfl, rfl, rfl, rfl⟩

theorem ClocksKept.trans {s t u : State} (h : ClocksKept s t) (h' : ClocksKept t u) : ClocksKept s u := by
  obtain ⟨h1, h2, h3, h4, h5, h6⟩ := h
  obtain ⟨g1, g2, g3, g4, g5, g6⟩ := h'
  exact ⟨fun d => (g1 d).trans (h1 d), g2.trans h2, g3.trans h3, g4.trans h4, g5.trans h5, g6.trans h6⟩

theorem clocksKept_choose (s : State) : ClocksKept s s.choose.2 := ClocksKept.refl s

theorem clocksKept_modDie (s : State) (d : Nat) {f : Die → Die} (hf : ∀ x, (f x).tick2 = x.tick2) : ClocksKept s (s.modDie d f) := by
  refine ⟨fun j => ?_, rfl, rfl, rfl, rfl, rfl⟩
  by_cases hj : j = d
  · subst hj; rw [State.die_modDie_same, hf]
  · rw [State.die_modDie_ne _ _ hj]

theorem clocksKept_stepTime (s : State) : ClocksKept s (stepTime s) := by
  refine List.foldlRecOn (motive := fun t => ClocksKept s t) _ _ (clocksKept_choose s) fun t ht d _ => ?_
  exact ht.trans (clocksKept_modDie t d fun _ => rfl)

theorem ClocksKept.ite {s t u : State} {p : Prop} [Decidable p] (ht : ClocksKept s t) (hu : ClocksKept s u) :
    ClocksKept s (if p then t else u) := by
  split
  · exact ht
  · exact hu

theorem clocksKept_passTime (s : State) (d : Nat) : ClocksKept s (passTime s d) := by
  unfold passTime State.choose
  dsimp only
  have hc : ClocksKept s { s with free := s.free + 1 } := clocksKept_choose s
  have ha := hc.trans (clocksKept_modDie { s with free := s.free + 1 } d (f := fun x =>
    { x with ntime := ((({ s with free := s.free + 1 } : State).die d).ntime + Config.freeChoice s.free % 2) % 2 ^ 64 }) fun _ => rfl)
  exact .ite ((ClocksKept.ite ha hc).trans (clocksKept_stepTime _)) (.ite ha hc)

theorem clocksKept_drifts (s : State) (d : Nat) : ClocksKept s (drifts s d) := by
  unfold drifts
  dsimp only
  split
  · exact ClocksKept.refl s
  · exact (clocksKept_choose s).trans (clocksKept_modDie _ _ fun _ => rfl)

theorem halfTick_passes (s : State) (d : Nat) : ((halfTick s d).die d).tick2 = (s.die d).tick2 + 1
    ∧ (halfTick s d).mem = s.mem ∧ (halfTick s d).tasks = s.tasks ∧ (halfTick s d).cores = s.cores
    ∧ (halfTick s d).chans = s.chans ∧ (halfTick s d).mgmt = s.mgmt := by
  obtain ⟨ht, hrest⟩ := (clocksKept_drifts (s.modDie d fun x =>
    { x with tick2 := x.tick2 + 1, off2 := if counting x ∧ s.grid.started then x.off2 + 1 else x.off2 }) d).trans (clocksKept_passTime _ d)
  refine ⟨(ht d).trans ?_, hrest⟩
  rw [State.die_modDie_same]

/-- The first least of a list, with a start. -/
theorem foldl_least (f : Nat → Int) : ∀ (l : List Nat) (d : Nat), let m := l.foldl (fun m e => if f e < f m then e else m) d
    (m = d ∨ m ∈ l) ∧ f m ≤ f d ∧ ∀ e ∈ l, f m ≤ f e
  | [], d => ⟨.inl rfl, Int.le_refl _, by simp⟩
  | e :: l, d => by
    rw [List.foldl_cons]
    by_cases he : f e < f d
    · rw [if_pos he]
      obtain ⟨hm, hd, hl⟩ := foldl_least f l e
      exact ⟨.inr (by simpa using hm), hd.trans he.le, List.forall_mem_cons.2 ⟨hd, hl⟩⟩
    · rw [if_neg he]
      obtain ⟨hm, hd, hl⟩ := foldl_least f l d
      exact ⟨hm.imp_right (List.mem_cons_of_mem e), hd, List.forall_mem_cons.2 ⟨hd.trans (not_lt.1 he), hl⟩⟩

theorem nextDie_working {d : Nat} (h : (u.die d).fenced = false) : (nextDie u d = d ∨ nextDie u d ∈ workingDies u)
    ∧ reached u (nextDie u d) ≤ reached u d
    ∧ ∀ i < 8, (u.die i).fenced = false → (u.die i).failed = false → reached u (nextDie u d) ≤ reached u i := by
  have hn : nextDie u d = (workingDies u).foldl (fun m e => if reached u e < reached u m then e else m) d := by
    unfold nextDie
    rw [h]
    rfl
  obtain ⟨hm, hd, hl⟩ := foldl_least (reached u) (workingDies u) d
  rw [hn]
  refine ⟨hm, hd, fun i hi hf hx => hl i ?_⟩
  unfold workingDies
  simp [hi, hf, hx]

theorem elapseDie_working {d : Nat} (h8 : d < 8) (hf : (u.die d).failed = false) :
    elapseDie u d = match dieWork u (nextDie u d) with | some s => s | none => halfTick u (nextDie u d) :=
  if_neg (by simp [hf, h8])

/-! ### The statement -/

theorem step_event {s : State} {r : List Move} {i : Instr} (hag : s.agenda = .event i :: r) (hl : layout i = none) :
    step s = performEvent i { s with agenda := r } := by
  rw [step_head hag]
  exact if_pos (by rw [hl]; rfl)

/-- Settles O56: by the kind of the move, and for an engine that walks on by its phase and what it fetches. -/
theorem stepRunsDecoded : Obligations.StepRunsDecoded := by
  unfold Obligations.StepRunsDecoded
  intro s m r hag u half
  refine ⟨fun i hm hl => ?_, fun core bank e hm hc hb hmay => ?_, mayMove_iff u, fun core bank e hm hw => ?_, decodeIn_cases,
    fun v => ⟨rfl, rfl, fun c va hc => if_neg hc, fun pa => rfl⟩, fun v k e va => textHalf_odd, fun v k e va bs => textHalf_kept,
    fun v k e va w h ht => textHalf_fetches h ht, fun v k e va l w h hf ht hs => textHalf_sound h hf ht hs,
    fun v w pa va => ⟨textUnit_outside, fun hh hp => ⟨(textUnit_inside hh hp).1, fun a ha hx => ?_, fun a ha hx => ?_⟩⟩,
    fun d hm hd => ?_, fun d hm h8 hf => ?_, fun d hd => if_pos hd, fun d hd => nextDie_working hd⟩
  · subst hm
    rw [step_event hag hl]
    unfold performEvent
    exact ⟨fun hw => by rw [hw], fun core bank hw => by rw [hw]⟩
  · subst hm
    rw [step_run hag hc hb, runEngine_stays hmay]
  · subst hm
    intro k x left here at_ leads
    have lead {z : Result} (hz : phaseMove u core bank e = z) : leads z := by
      show step s = settle core bank z
      rw [step_run hag hw.1 hw.2.1, runEngine_walking hw, hz]
    have reads := headerMove_reads (u := u) (core := core) (bank := bank) (e := e)
    refine ⟨fun hp hl => lead ((phaseMove_body hp).trans (bodyMove_ends hl)), fun hp hl => ⟨fun v hs hg => ?_, fun v f hg hf => ?_⟩,
      fun hp => ⟨fun v f h1 hf => ?_, fun v h w f h1 h2 hf => ?_, fun v w h l h1 h2 => ?_⟩⟩
    · have hz := (phaseMove_body hp).trans ((bodyMove_gathers hl).1 v hs hg)
      refine ⟨fun ch i n hd => ?_, fun src c hd => lead (hz.trans (by rw [hd]; rfl)), fun hd => lead (hz.trans (by rw [hd]; rfl))⟩
      rw [hd] at hz
      exact ⟨fun hn => lead (hz.trans (runDecoded_ok.1 hn)), fun hi hn => lead (hz.trans (runDecoded_ok.2 hi hn))⟩
    · exact lead ((phaseMove_body hp).trans ((bodyMove_gathers hl).2 v f hg hf))
    · exact lead ((phaseMove_header hp).trans (reads.1 v f h1 hf))
    · exact lead ((phaseMove_header hp).trans (reads.2.1 v h w f h1 h2 hf))
    · have hz := (phaseMove_header hp).trans (reads.2.2 v w h l h1 h2)
      refine ⟨fun hd => lead (hz.trans (runHeader_none hd)), fun ty imm lx rl hd => ?_⟩
      rw [runHeader_some hd] at hz
      refine ⟨fun hb => lead (hz.trans (if_pos hb)), fun ht hx hb => lead (hz.trans ?_), fun ht hx hb => lead (hz.trans ?_)⟩
      · rw [if_neg (by omega), if_pos hb]
      · rw [if_neg (by omega), if_neg (by rw [hb]; simp)]
  · rw [(textUnit_inside hh hp).2 a ha, if_pos hx]
  · rw [(textUnit_inside hh hp).2 a ha, if_neg (by rw [hx]; simp)]
  · subst hm
    rw [step_head hag]
    exact congrArg _ (if_pos hd)
  · subst hm
    have hstep : step s = .next (elapseDie u d) := step_head hag
    rw [hstep, elapseDie_working h8 hf]
    refine ⟨fun w hw => by rw [hw], fun hw => ⟨_, by rw [hw], halfTick_passes u _⟩⟩
end Sys2Proof.Machine
end

section
/-!
SUPPORT. The invariant of memory, carried through the operations that every engine shares (03_stacks_rows R52, R53, R57). One lemma for each
operation: it keeps the canonical form. Most operations do not touch memory or row lines, or do so only by the operations of
Laws/Memory.lean; such a proof is the case split over the branches of the definition, with the facts of the operations that the
branches call. Recursions, folds and the operations that write memory themselves are proved by hand
-/

namespace Sys2Proof.Machine

variable {s : State}

/-- The part of a state that its canonical form speaks of: memory, and the pseudo-channels with their row lines. -/
def StoreWf (m : Mem) (c : Sparse Chan) : Prop := m.wf = true ∧ ∀ x ∈ c, ∀ l ∈ x.2.slots, slotWf l.2 = true

/-- The next state of an outcome, where there is one, holds memory and row lines in canonical form. -/
def KeepsWf (r : Result) : Prop := ∀ t, r = .next t → t.MemWf

/-- The state that an operation leaves beside its result is in canonical form. With this name over the pair, the kernel compares an
operation's conditional whole and never evaluates the physical address that it turns on. -/
def LeavesWf {α : Type} (y : State × α) : Prop := y.1.MemWf

/-! ### The parts of a state -/

theorem memWf_iff : s.MemWf ↔ StoreWf s.mem s.chans := Iff.rfl

theorem memWf_setTask (k : Nat) (x : Task) : (s.setTask k x).MemWf ↔ s.MemWf := Iff.rfl
theorem memWf_setEng (k : Nat) (e : Eng) (x : EngSt) : (s.setEng k e x).MemWf ↔ s.MemWf := Iff.rfl
theorem memWf_modMe (f : Task → Task) : (s.modMe f).MemWf ↔ s.MemWf := Iff.rfl
theorem memWf_modMyCore (f : Core → Core) : (s.modMyCore f).MemWf ↔ s.MemWf := Iff.rfl
theorem memWf_modMyEng (f : EngSt → EngSt) : (s.modMyEng f).MemWf ↔ s.MemWf := Iff.rfl
theorem memWf_setDist (d : Dist) : State.MemWf { s with dist := d } ↔ s.MemWf := Iff.rfl
theorem memWf_setPieces (l : List Piece) : State.MemWf { s with pieces := l } ↔ s.MemWf := Iff.rfl

/-- A change of a pseudo-channel that leaves its slots alone. -/
theorem memWf_modChan (h : s.MemWf) (p : Nat) (f : Chan → Chan) (hf : (f (s.chan p)).slots = (s.chan p).slots) : (s.modChan p f).MemWf :=
  h.modChan p f (by rw [hf]; exact h.chan p)

/-! ### Branches -/

theorem memWf_ite {p : Prop} [Decidable p] {t u : State} (ht : t.MemWf) (hu : u.MemWf) : (if p then t else u).MemWf := by
  split
  · exact ht
  · exact hu

theorem leavesWf_ite {α : Type} {p : Prop} [Decidable p] {a b : State × α} (ha : LeavesWf a) (hb : LeavesWf b) :
    LeavesWf (if p then a else b) := by
  split
  · exact ha
  · exact hb

theorem keepsWf_next {t : State} (h : t.MemWf) : KeepsWf (.next t) := by
  rintro _ ⟨⟩
  exact h

theorem keepsWf_ite {p : Prop} [Decidable p] {a b : Result} (ha : KeepsWf a) (hb : KeepsWf b) : KeepsWf (if p then a else b) := by
  split
  · exact ha
  · exact hb

/-! ### Memory by physical address -/

theorem memWf_portion (h : s.MemWf) (n : Nat) : (s.portion n).2.MemWf := by
  grind [State.portion, memWf_choose]

theorem memWf_logEntry (h : s.MemWf) (status head ovfBit e : Nat) : (logEntry s status head ovfBit e).MemWf := h

theorem memWf_freeBytes (h : s.MemWf) (n : Nat) : (freeBytes s n).1.MemWf := h

theorem memWf_hostWrite (h : s.MemWf) (pa : Nat) (bs : List Byte) : (hostWrite s pa bs).MemWf := h

theorem memWf_hostRead (h : s.MemWf) (pa n : Nat) : (hostRead s pa n).MemWf := h

theorem memWf_tableWord (h : s.MemWf) (pa : Nat) : (tableWord s pa).1.MemWf := by
  grind [tableWord, memWf_tierRead]

theorem leavesWf_routePort (h : s.MemWf) (id : Nat) : LeavesWf (routePort s id) := by
  unfold routePort
  refine leavesWf_ite h ?_
  have ht : LeavesWf (tableWord s (slice (s.reg regRoutebase) 18 34 * 2 ^ 18 + id / 8 * 8)) := memWf_tableWord h _
  rcases hy : tableWord s (slice (s.reg regRoutebase) 18 34 * 2 ^ 18 + id / 8 * 8) with ⟨u, w⟩
  rw [hy] at ht
  exact ht

theorem memWf_outsideRead (h : s.MemWf) (pa n : Nat) : (outsideRead s pa n).1.MemWf := by
  grind [outsideRead, memWf_hostRead, memWf_sendFrame, memWf_choose, memWf_freeBytes]

theorem memWf_physRead (h : s.MemWf) (pa n src : Nat) : (physRead s pa n src).1.MemWf := by
  grind [physRead, memWf_tierRead, memWf_freeBytes, memWf_hostRead, memWf_sendFrames]

/-! ### Translation -/

theorem memWf_walkFrom (va : Nat) : ∀ (l : List (Nat × Nat × Nat)) (base : Nat) {s : State}, s.MemWf → (walkFrom va l base s).1.MemWf
  | [], _, _, h => h
  | _ :: r, base, s, h => by grind [walkFrom, memWf_tierRead, memWf_walkFrom va r]

theorem memWf_walk (h : s.MemWf) (v va : Nat) : (walk s v va).1.MemWf := by
  grind [walk, memWf_walkFrom]

theorem memWf_vfPhys (h : s.MemWf) (v va acc : Nat) : (vfPhys s v va acc).1.MemWf := by
  grind [vfPhys, memWf_walk]

/-! ### What the device tells the outside -/

theorem memWf_devEvent (h : s.MemWf) (kind named low payload : Nat) : (devEvent s kind named low payload).MemWf := by
  grind [devEvent, memWf_iff, memWf_hostWrite, memWf_setReg]

theorem memWf_replay (h : s.MemWf) (kind beat : Nat) (ws : List Nat) : (replay s kind beat ws).MemWf := by
  grind [replay, memWf_iff, memWf_physWrite, memWf_setReg]

theorem memWf_pushEvent (h : s.MemWf) (k src status count tag : Nat) : (pushEvent s k src status count tag).MemWf := h

theorem memWf_logMachineCheck (h : s.MemWf) (c src strip pa syn : Nat) : (logMachineCheck s c src strip pa syn).MemWf := by
  grind [logMachineCheck, memWf_setReg]

/-! ### Cut records -/

theorem memWf_readStrips32 : ∀ (l : List (Nat × Nat)) (o : Nat) {s : State} (m : Mem), s.MemWf → (readStrips32 l o s m).1.MemWf
  | [], _, _, _, h => h
  | _ :: r, o, s, m, h => by grind [readStrips32, memWf_fastRead, memWf_freeBytes, memWf_readStrips32 r]

theorem memWf_readRecord (h : s.MemWf) (pa : Nat) : (readRecord s pa).1.MemWf := by
  grind [readRecord, memWf_readStrips32]

theorem memWf_restoreCore (h : s.MemWf) (c : Nat) (m : Mem) : (restoreCore s c m).MemWf := by
  grind [restoreCore, memWf_modCore, memWf_modChan]

/-! ### The race checker -/

theorem memWf_learnTokens (h : s.MemWf) (k : Nat) (e : Eng) (ws : List Word) : (learnTokens s k e ws).MemWf := by
  grind [learnTokens, memWf_modGang]

theorem memWf_learnBeat (h : s.MemWf) (k : Nat) (e : Eng) (b : Nat) : (learnBeat s k e b).MemWf := by
  grind [learnBeat, memWf_modGang]

theorem memWf_learnFence (h : s.MemWf) (k mask : Nat) : (learnFence s k mask).MemWf := by
  grind [learnFence, memWf_modGang]

theorem memWf_meetBarrier (h : s.MemWf) (k n : Nat) : (meetBarrier s k n).MemWf := by
  grind [meetBarrier, memWf_modGang]

theorem memWf_learnBarrier (h : s.MemWf) (k n : Nat) : (learnBarrier s k n).MemWf := by
  grind [learnBarrier, memWf_modGang]

theorem memWf_shareRecord (h : s.MemWf) (k n : Nat) : (shareRecord s k n).MemWf := by
  grind [shareRecord, memWf_modGang]

theorem memWf_learnRecord (h : s.MemWf) (k : Nat) (e : Eng) (n : Nat) : (learnRecord s k e n).MemWf := by
  grind [learnRecord, memWf_modGang]

/-! ### Causes, tokens, the walk of the text, landings, the cut and the resume, pieces -/

theorem memWf_releaseGang (h : s.MemWf) (g : Gang) : (releaseGang s g).MemWf := by
  grind [releaseGang, memWf_releaseRows, memWf_foldl]

theorem memWf_trap (h : s.MemWf) (code : Nat) : (trap code s).MemWf := by
  grind [trap, memWf_raiseCause, memWf_modMyEng]

theorem memWf_trapAt (h : s.MemWf) (code va : Nat) : (trapAt code va s).MemWf := by
  grind [trapAt, memWf_raiseCause, memWf_modMyEng]

theorem memWf_trapOwn (h : s.MemWf) (c : Nat) : (trapOwn c s).MemWf := by
  grind [trapOwn, memWf_trap]

theorem memWf_machineCheck (h : s.MemWf) (c src strip pa syn : Nat) : (machineCheck s c src strip pa syn).MemWf := by
  grind [machineCheck, memWf_logMachineCheck, memWf_modCore, memWf_detach, memWf_modGang]

theorem memWf_completeToken (h : s.MemWf) (k : Nat) (e : Eng) (seq : Nat) : (completeToken s k e seq).MemWf := h

theorem memWf_newToken (h : s.MemWf) : (newToken s).2.MemWf := h

theorem memWf_waitFor (h : s.MemWf) (w : Wait) : (waitFor w s).MemWf := h

theorem memWf_tryEmit (h : s.MemWf) (k : Nat) : (tryEmit s k).MemWf := by
  grind [tryEmit, memWf_setTask, memWf_modEng, memWf_shareRecord]

theorem memWf_leaveBlockS (h : s.MemWf) (k kind target : Nat) : (leaveBlockS s k kind target).MemWf := by
  grind [leaveBlockS, memWf_setEng, memWf_tryEmit, memWf_modTask]

theorem memWf_leaveBlock (h : s.MemWf) (k : Nat) (e : Eng) : (leaveBlock s k e).MemWf := by
  grind [leaveBlock, memWf_leaveBlockS, memWf_setEng]

theorem memWf_passEnd (h : s.MemWf) (k : Nat) (e : Eng) : (passEnd s k e).MemWf := by
  grind [passEnd, memWf_setEng, memWf_leaveBlock]

theorem memWf_stepOver (h : s.MemWf) : (stepOver s).MemWf := h

theorem memWf_advance (h : s.MemWf) : (advance s).MemWf := by
  grind [advance, memWf_stepOver, memWf_passEnd]

theorem memWf_readHeader (h : s.MemWf) (k : Nat) (e : Eng) (tag il len rep : Nat) : (readHeader s k e tag il len rep).MemWf := by
  grind [readHeader, memWf_setEng]

theorem memWf_starve (h : s.MemWf) (k : Nat) : (starve s k).MemWf := by
  grind [starve, memWf_raiseCause, memWf_modEng, memWf_foldl]

theorem memWf_popCount (h : s.MemWf) (k : Nat) (e : Eng) : (popCount s k e).MemWf := by
  grind [popCount, memWf_modTask, memWf_leaveBlock, memWf_setEng]

theorem memWf_takeRecord (h : s.MemWf) (k : Nat) (e : Eng) : (takeRecord s k e).MemWf := by
  grind [takeRecord, memWf_setTask, memWf_learnRecord]

theorem memWf_afterTokens (h : s.MemWf) (prod : Bool) (vals : List Word) (body : State → State)
    (hbody : ∀ t, t.MemWf → (body t).MemWf) :
    (afterTokens prod vals body s).MemWf := by
  grind [afterTokens, memWf_modMyEng, memWf_waitFor, memWf_learnTokens]

theorem memWf_issue (h : s.MemWf) (prod : Bool) (body : State → State) (hbody : ∀ t, t.MemWf → (body t).MemWf) :
    (issue prod body s).MemWf := by
  grind [issue, memWf_afterTokens, memWf_waitFor]

theorem memWf_declareAs (h : s.MemWf) (x : RaceEnt) (at_ : List (Nat × Point)) (all : Bool) (body : State → State)
    (hbody : ∀ t, t.MemWf → (body t).MemWf) : (declareAs x at_ all body s).MemWf := by
  grind [declareAs, memWf_trapOwn, memWf_trap, memWf_modGang]

theorem memWf_declare (h : s.MemWf) (rgn : List (Nat × Nat × Nat × Bool)) (seq : Nat) (beat : Option (Nat × Nat)) (all : Bool)
    (body : State → State) (hbody : ∀ t, t.MemWf → (body t).MemWf) : (declare rgn seq beat all body s).MemWf := by
  grind [declare, memWf_declareAs]

theorem memWf_landSreg (h : s.MemWf) (k n serial : Nat) (v : Word) : (landSreg s k n serial v).MemWf := by
  grind [landSreg, memWf_choose, memWf_modTask]

theorem memWf_landFlight (h : s.MemWf) (k : Nat) (f : Flight) : (landFlight s k f).MemWf := by
  grind [landFlight, memWf_modCore, memWf_modTask, memWf_landSreg, memWf_completeToken, memWf_pushEvent]

theorem memWf_landDue (h : s.MemWf) (k : Nat) : (landDue s k).MemWf := by
  grind [landDue, memWf_modTask, memWf_landFlight, memWf_foldl]

theorem memWf_cycleV (h : s.MemWf) (k : Nat) : (cycleV s k).MemWf := by
  grind [cycleV, memWf_landDue, memWf_modTask]

theorem memWf_drainV (h : s.MemWf) (k : Nat) : (drainV s k).MemWf := by
  grind [drainV, memWf_modTask, memWf_landFlight, memWf_foldl]

theorem memWf_refillV (h : s.MemWf) (k : Nat) : (refillV s k).MemWf := by
  unfold refillV
  rw [memWf_modTask]
  generalize (s.task k).v.shadows = l
  induction l with
  | nil => exact h
  | cons x l ih => exact memWf_landFlight ih _ _

theorem memWf_stopBlocks (h : s.MemWf) (k : Nat) : (stopBlocks s k).MemWf := by
  grind [stopBlocks, memWf_modStack, memWf_foldl]

theorem memWf_discardCmds (h : s.MemWf) (k : Nat) : (discardCmds s k).MemWf := by
  grind [discardCmds, memWf_modChan, memWf_modDie]

theorem memWf_stopTask (h : s.MemWf) (k : Nat) : (stopTask s k).MemWf := by
  grind [stopTask, memWf_modTask, memWf_drainV, memWf_stopBlocks, memWf_discardCmds, memWf_releaseRows]

theorem memWf_dropLoad (h : s.MemWf) (k : Nat) : (dropLoad s k).MemWf := by
  unfold dropLoad
  split
  · exact h
  · rename_i l _
    have ht : (s.modTask k fun t => { t with s := { t.s with load := none, got := none } }).MemWf := h
    exact memWf_modChan ht (l.pa / 2 ^ 30) (fun c => c.forget [l.piece]) rfl

theorem memWf_takeCut (h : s.MemWf) (g : Gang) : (takeCut s g).MemWf := by
  grind [takeCut, memWf_dropLoad, memWf_stopTask, memWf_writeRecord, memWf_modChan, memWf_modGang, memWf_foldl]

theorem memWf_placeAgain (h : s.MemWf) (k n : Nat) (moved : Bool) : (placeAgain s k n moved).MemWf := by
  grind [placeAgain, memWf_modTask, memWf_modChan, memWf_modDie]

theorem memWf_restoreBlocks (h : s.MemWf) (stack k n : Nat) (m : Mem) : (restoreBlocks s stack k n m).MemWf := h

theorem memWf_resumeTask (h : s.MemWf) (g : Gang) (k n : Nat) : (resumeTask s g k n).MemWf := by
  rw [show resumeTask = _ by delta resumeTask; rfl]
  split
  · exact h
  · rename_i pa _
    have hr := memWf_readRecord h pa
    dsimp only
    generalize readRecord s pa = y at hr
    refine memWf_placeAgain (memWf_refillV (memWf_foldl _ (fun _ _ h => memWf_restoreBlocks h _ _ _ _) _ ?_) _) _ _ _
    rw [memWf_modTask]
    exact memWf_restoreCore hr _ _

/-- A piece for a peer that cannot be reached is not sent: whoever asks for it learns so, a task by a cause. -/

theorem sendPiece_failed {v : State} {p : Piece} (hp : region p.pa = .peer)
    (hv : sendFrame (withPiece s p) p.pa p.len p.wr p.data = (v, false)) :
    sendPiece s p = (0, if p.own.outside then unsend v (s.pieceNext + 1)
      else raiseCause (unsend v (s.pieceNext + 1)) (tkey p.core p.bank) 334 0 0) := by
  unfold sendPiece
  extract_lets id t
  change sendFrame t _ _ _ _ = _ at hv
  rw [hv, hp]
  rfl

theorem memWf_sendPiece (h : s.MemWf) (p : Piece) : (sendPiece s p).2.MemWf := by
  have ht : (withPiece s p).MemWf := h
  by_cases hh : region p.pa = .host
  · rw [sendPiece_host s p hh]
    exact memWf_ite (memWf_hostRead (memWf_hostWrite ht _ _) _ _) (memWf_hostRead ht _ _)
  by_cases hp : region p.pa = .peer
  · have hv := memWf_sendFrame ht p.pa p.len p.wr p.data
    rcases hf : sendFrame (withPiece s p) p.pa p.len p.wr p.data with ⟨v, b⟩
    rw [hf] at hv
    cases b with
    | true => rw [sendPiece_peer hp hf]; exact hv
    | false =>
      rw [sendPiece_failed hp hf]
      exact memWf_ite hv (memWf_raiseCause ((memWf_setPieces _).2 hv) _ _ _ _)
  · rw [sendPiece_near s p hh hp]
    exact ht

theorem memWf_dropPiece (h : s.MemWf) (id : Nat) : (dropPiece s id).MemWf := h

theorem memWf_setPiece (h : s.MemWf) (p : Piece) : (setPiece s p).MemWf := h

theorem memWf_countAccess (h : s.MemWf) (p : Piece) : (countAccess s p).MemWf := by
  grind [countAccess, memWf_iff, memWf_devEvent]

theorem memWf_noteFrame (h : s.MemWf) (p : Piece) : (noteFrame s p).MemWf := by
  grind [noteFrame, memWf_replay]

theorem memWf_serveFast (h : s.MemWf) (p : Piece) : (serveFast s p).MemWf := by
  grind [serveFast, memWf_countAccess, memWf_noteFrame, memWf_setPiece, memWf_fastWrite, memWf_fastRead, memWf_raiseCause,
    memWf_machineCheck]

theorem memWf_serveCap (h : s.MemWf) (p : Piece) (n : Nat) : (serveCap s p n).MemWf := by
  unfold serveCap
  grind [memWf_countAccess, memWf_setPiece, State.MemWf.setMem, Mem.wf_wrList, memWf_noteFrame, State.MemWf]

theorem memWf_readyPiece (h : s.MemWf) (id : Nat) : (readyPiece s id).1.MemWf := by
  grind [readyPiece, memWf_portion, memWf_serveCap]

theorem memWf_arrivePiece (h : s.MemWf) (id : Nat) : (arrivePiece s id).MemWf := by
  grind [arrivePiece, memWf_setPiece, memWf_modChan]

/-! ### Operands -/

theorem memWf_setS (h : s.MemWf) (n : Nat) (v : Word) : (setS s n v).MemWf := by
  grind [setS, memWf_modMe]

theorem memWf_setP (h : s.MemWf) (n v : Nat) : (setP s n v).MemWf := by
  grind [setP, memWf_modMe]

theorem memWf_setC (h : s.MemWf) (n : Nat) (v : Word) : (setC s n v).MemWf := h

theorem memWf_checked (h : s.MemWf) (l : List (Bool × Nat)) (body : State → State) (hbody : ∀ t, t.MemWf → (body t).MemWf) :
    (checked l body s).MemWf := by
  grind [checked, memWf_trap]

end Sys2Proof.Machine
end

section
/-!
SUPPORT. The invariant of memory through the operations of S, of power and of control (15_conductor, 16_ordering, 20_power)
-/

namespace Sys2Proof.Machine

variable {s : State}

/-! ### Arithmetic of S -/

theorem memWf_scalarOp (h : s.MemWf) (d : Nat) (f : State → Word) : (scalarOp d f s).MemWf := by
  grind [scalarOp, memWf_issue, memWf_advance, memWf_setS]

theorem memWf_predOp (h : s.MemWf) (d : Nat) (f : State → Nat) : (predOp d f s).MemWf := by
  grind [predOp, memWf_issue, memWf_advance, memWf_setP]

/-! ### Power -/

theorem memWf_fenceDie (h : s.MemWf) (d : Nat) : (fenceDie s d).MemWf := by
  grind [fenceDie, memWf_iff, memWf_modDie, memWf_devEvent]

theorem memWf_openWindow (h : s.MemWf) (d l : Nat) (rising : Bool) : (openWindow s d l rising).MemWf := h

theorem memWf_switchPoint (h : s.MemWf) (d : Nat) : (switchPoint s d).MemWf := by
  grind [switchPoint, memWf_openWindow]

theorem memWf_switchPoints (h : s.MemWf) : (switchPoints s).MemWf := by
  grind [switchPoints, memWf_switchPoint, memWf_foldl]

theorem memWf_regrant (h : s.MemWf) (d : Nat) : (regrant s d).MemWf := by
  grind [regrant, memWf_modDie, memWf_switchPoint]

theorem memWf_endWindow (h : s.MemWf) (d : Nat) : (endWindow s d).MemWf := by
  grind [endWindow, memWf_modDie, memWf_detach, memWf_switchPoint, memWf_regrant, memWf_foldl]

theorem memWf_feel (h : s.MemWf) (d : Nat) : (feel s d).MemWf := by
  grind [feel, memWf_modDie, memWf_regrant, memWf_fenceDie]

theorem memWf_turnStack (h : s.MemWf) (stack : Nat) : (turnStack s stack).MemWf := by
  grind [turnStack, memWf_modStack, memWf_modChan, memWf_foldl]

theorem memWf_skipClock (h : s.MemWf) (d : Nat) : (skipClock s d).MemWf := h

theorem memWf_noteSwitch (h : s.MemWf) : (noteSwitch s).MemWf := by
  grind [noteSwitch, memWf_modDie, memWf_switchPoint]

theorem memWf_unswitch (h : s.MemWf) (k : Nat) : (unswitch s k).MemWf := h

/-! ### Loads, stores and page walks of S -/

theorem memWf_startWalk (h : s.MemWf) (k unit va : Nat) (ahead : Bool) (cmd : Nat) : (startWalk s k unit va ahead cmd).MemWf := h

theorem memWf_translate (h : s.MemWf) (k unit va acc perm : Nat) : (translate s k unit va acc perm).1.MemWf := by
  grind [translate, memWf_modTask, memWf_startWalk]

theorem memWf_withPhys (h : s.MemWf) (va acc : Nat) (body : Nat → State → State) (hbody : ∀ a t, t.MemWf → (body a t).MemWf) :
    (withPhys va acc body s).MemWf := by
  grind [withPhys, memWf_translate, memWf_waitFor, memWf_trapAt]

theorem memWf_fillLine (h : s.MemWf) (k line : Nat) (m : Mem) : (fillLine s k line m).MemWf := by
  grind [fillLine, memWf_choose, memWf_modTask]

theorem memWf_acquireAt (h : s.MemWf) (k sc : Nat) : (acquireAt s k sc).MemWf := by
  grind [acquireAt, memWf_modTask]

theorem memWf_startLoad (h : s.MemWf) (d size : Nat) (sgn : Bool) (acq : Option Nat) (va pa : Nat) :
    (startLoad d size sgn acq va pa s).MemWf := by
  grind [startLoad, memWf_choose, memWf_modMe, memWf_sendPiece, memWf_modMyEng, memWf_waitFor]

theorem memWf_startRead (h : s.MemWf) (va n pa : Nat) : (startRead va n pa s).MemWf := by
  grind [startRead, memWf_sendPiece, memWf_modMyEng, memWf_waitFor, memWf_modMe]

theorem memWf_withBytes (h : s.MemWf) (va n : Nat) (body : List Byte → State → State) (hbody : ∀ a t, t.MemWf → (body a t).MemWf) :
    (withBytes va n body s).MemWf := by
  grind [withBytes, memWf_modMe, memWf_waitFor, memWf_withPhys, memWf_startRead]

theorem memWf_loadAt (h : s.MemWf) (d size : Nat) (sgn : Bool) (acq : Option Nat) (va : Nat) : (loadAt d size sgn acq va s).MemWf := by
  grind [loadAt, memWf_waitFor, memWf_trap, memWf_withPhys, memWf_startLoad]

theorem memWf_loadOp (h : s.MemWf) (d size : Nat) (sgn : Bool) (a imm : Nat) : (loadOp d size sgn a imm s).MemWf := by
  grind [loadOp, memWf_issue, memWf_loadAt]

theorem memWf_focus (h : s.MemWf) (k : Nat) (e : Eng) : (focus s k e).MemWf := h

theorem memWf_retireLoad (h : s.MemWf) (k : Nat) (l : SLoad) (base : Nat) (bs : List Byte) : (retireLoad s k l base bs).MemWf := by
  grind [retireLoad, memWf_modTask, memWf_modEng, memWf_focus, memWf_advance, memWf_setS]

theorem memWf_returnLoad (h : s.MemWf) (k : Nat) : (returnLoad s k).MemWf := by
  grind [returnLoad, memWf_retireLoad, memWf_readyPiece, memWf_dropPiece, memWf_modEng, memWf_fillLine]

theorem memWf_settleMarks (h : s.MemWf) (k : Nat) : (settleMarks s k).MemWf := by
  grind [settleMarks, memWf_modTask, memWf_completeToken, memWf_foldl]

theorem memWf_sendStore (h : s.MemWf) (k : Nat) : (sendStore s k).MemWf := by
  grind [sendStore, memWf_sendPiece, memWf_settleMarks, memWf_modTask]

theorem memWf_startStore (h : s.MemWf) (size : Nat) (v : Word) (pa : Nat) : (startStore size v pa s).MemWf := by
  grind [startStore, memWf_modMe, memWf_advance, memWf_sendStore]

theorem memWf_storeAt (h : s.MemWf) (size : Nat) (d va : Nat) : (storeAt size d va s).MemWf := by
  grind [storeAt, memWf_trap, memWf_withPhys, memWf_startStore]

theorem memWf_storeOp (h : s.MemWf) (d size : Nat) (a imm : Nat) : (storeOp d size a imm s).MemWf := by
  grind [storeOp, memWf_issue, memWf_storeAt]

theorem memWf_performStore (h : s.MemWf) (k : Nat) : (performStore s k).MemWf := by
  grind [performStore, memWf_sendStore, memWf_readyPiece, memWf_dropPiece, memWf_modTask, memWf_settleMarks]

theorem memWf_failCommand (h : s.MemWf) (k cmd code va : Nat) : (failCommand s k cmd code va).MemWf := by
  grind [failCommand, memWf_raiseCause, memWf_modEng, memWf_modTask]

theorem memWf_failAccess (h : s.MemWf) (k : Nat) (w : Walk) (code : Nat) : (failAccess s k w code).MemWf := by
  grind [failAccess, memWf_failCommand, memWf_raiseCause, memWf_modEng]

theorem memWf_endWalk (h : s.MemWf) (k unit : Nat) : (endWalk s k unit).MemWf := by
  grind [endWalk, memWf_modTask, memWf_walk, memWf_failAccess, memWf_machineCheck]

/-! ### Control flow -/

theorem memWf_observeBeat (h : s.MemWf) (target : Nat) : (observeBeat target s).MemWf := by
  grind [observeBeat, memWf_cycleV, memWf_learnBeat, memWf_modMyEng, memWf_modMe, memWf_advance]

theorem memWf_wakeBeat (h : s.MemWf) (k : Nat) (e : Eng) : (wakeBeat s k e).MemWf := by
  grind [wakeBeat, memWf_observeBeat, memWf_focus]

theorem memWf_takeBranch (h : s.MemWf) (target : Nat) : (takeBranch target s).MemWf := by
  grind [takeBranch, memWf_leaveBlockS]

theorem memWf_branchOp (h : s.MemWf) (off : Nat) (cond : State → Bool) : (branchOp off cond s).MemWf := by
  grind [branchOp, memWf_issue, memWf_takeBranch, memWf_advance]

theorem memWf_endTask (h : s.MemWf) (succ : Option (List Nat)) : (endTask succ s).MemWf := by
  grind [endTask, memWf_modMe, memWf_modGang, memWf_leaveBlockS, memWf_stepOver]

/-! ### Order, events and control registers -/

theorem memWf_wakeWaitt (h : s.MemWf) (k : Nat) : (wakeWaitt s k).MemWf := by
  grind [wakeWaitt, memWf_advance, memWf_focus]

theorem memWf_retireFence (h : s.MemWf) (scope mask : Nat) : (retireFence scope mask s).MemWf := by
  grind [retireFence, memWf_advance, memWf_learnFence, memWf_acquireAt]

theorem memWf_wakeFence (h : s.MemWf) (k : Nat) : (wakeFence s k).MemWf := by
  grind [wakeFence, memWf_retireFence, memWf_focus]

theorem memWf_invalidate (h : s.MemWf) (va : Nat) (all : Bool) : (invalidate va all s).MemWf := by
  grind [invalidate, memWf_advance, memWf_modMe]

theorem memWf_retireBarrier (h : s.MemWf) (scope : Nat) : (retireBarrier scope s).MemWf := by
  grind [retireBarrier, memWf_advance, memWf_learnBarrier, memWf_acquireAt]

theorem memWf_arrive (h : s.MemWf) : (arrive s).MemWf := by
  grind [arrive, memWf_modMe, memWf_meetBarrier]

theorem memWf_atBarrier (h : s.MemWf) (scope : Nat) : (atBarrier scope s).MemWf := by
  grind [atBarrier, memWf_retireBarrier, memWf_trap, memWf_waitFor]

theorem memWf_wakeBarrier (h : s.MemWf) (k : Nat) : (wakeBarrier s k).MemWf := by
  grind [wakeBarrier, memWf_atBarrier, memWf_focus, memWf_arrive]

theorem memWf_breakQueue (h : s.MemWf) (v q : Nat) : (breakQueue s v q).MemWf := by
  grind [breakQueue, memWf_devEvent, memWf_setReg]

theorem memWf_moveTail (h : s.MemWf) (v q t : Nat) : (moveTail s v q t).MemWf := by
  grind [moveTail, memWf_replay, memWf_setReg]

theorem memWf_vfWrite (h : s.MemWf) (v va : Nat) (bs : List Byte) : (vfWrite s v va bs).1.MemWf := by
  grind [vfWrite, memWf_vfPhys, memWf_physWrite]

theorem memWf_postPacket (h : s.MemWf) (v q : Nat) (bs : List Byte) : (postPacket s v q bs).1.MemWf := by
  grind [postPacket, memWf_breakQueue, memWf_vfWrite, memWf_moveTail]

theorem memWf_csrUpdate (h : s.MemWf) (a cx : Nat) (f : Word → Word → Word) : (csrUpdate a cx f s).MemWf := by
  grind [csrUpdate, memWf_issue, memWf_advance, memWf_modMe, memWf_trap]

theorem memWf_callOut (h : s.MemWf) (code imm : Nat) : (callOut code imm s).MemWf := by
  grind [callOut, memWf_stepOver, memWf_raiseCause, memWf_modMyEng]

end Sys2Proof.Machine
end

section
/-!
SUPPORT. The invariant of memory through the work of C, of the pseudo-channels, the base dies and the fabric (04_beats to 08_dies_time): the
opens, releases, infusions and transfers of R103-R114 are where row lines come and go
-/

namespace Sys2Proof.Machine

variable {s : State}

/-! ### Row commands and infusions -/

theorem memWf_retireDone (h : s.MemWf) : (retireDone s).MemWf := by
  grind [retireDone, memWf_newToken, memWf_advance, memWf_completeToken]

theorem memWf_issueToken (h : s.MemWf) (body : State → State) (hbody : ∀ t, t.MemWf → (body t).MemWf) : (issueToken body s).MemWf := by
  grind [issueToken, memWf_issue, memWf_waitFor]

theorem memWf_quick (h : s.MemWf) (rgn : List (Nat × Nat × Nat × Bool)) (f : State → State) (hf : ∀ t, t.MemWf → (f t).MemWf) :
    (quick rgn f s).MemWf := by
  grind [quick, memWf_declare, memWf_retireDone]

theorem memWf_setPlace (h : s.MemWf) (cursor off : Nat) : (setPlace s cursor off).MemWf := h

theorem memWf_sendFrom (h : s.MemWf) (src : Nat) (kind : CmdKind) (gp nx : Nat) (rgn : List (Nat × Nat × Nat × Bool)) :
    (sendFrom src kind gp nx rgn s).MemWf := by
  unfold sendFrom
  exact memWf_ite (memWf_waitFor h _) (memWf_ite (memWf_trap h _) (memWf_declareAs h _ _ _ _ fun t ht =>
    memWf_advance (memWf_modChan (memWf_setPlace (memWf_newToken ht) _ _) _ _ rfl)))

theorem memWf_sendCmd (h : s.MemWf) (kind : CmdKind) (gp nx : Nat) (rgn : List (Nat × Nat × Nat × Bool)) :
    (sendCmd kind gp nx rgn s).MemWf := by
  grind [sendCmd, memWf_sendFrom]

theorem memWf_withRow (h : s.MemWf) (a : Nat) (body : Nat → Bool → State → State) (hbody : ∀ a b t, t.MemWf → (body a b t).MemWf) :
    (withRow a body s).MemWf := by
  grind [withRow, memWf_trap, memWf_trapAt]

theorem memWf_infuse (h : s.MemWf) (op : IaOp) (bf : Bool) (d a b gp nx sx cx : Nat) : (infuse op bf d a b gp nx sx cx s).MemWf := by
  grind [infuse, memWf_issueToken, memWf_sendCmd]

/-! ### The channel sequencer -/

theorem memWf_seqRaise (h : s.MemWf) (p bank code : Nat) (first : List Cmd) : (seqRaise s p bank code first).MemWf := by
  grind [seqRaise, memWf_modChan, memWf_raiseCause, memWf_stopTask]

theorem memWf_readStrips (p bank pos : Nat) : ∀ (l : List Nat) {s : State}, s.MemWf → (readStrips s p bank pos l).1.MemWf
  | [], _, h => h
  | _ :: r, s, h => by grind [readStrips, memWf_eccRead, memWf_machineCheck, memWf_readStrips p bank pos r]

theorem memWf_infuseStrip (h : s.MemWf) (op : IaOp) (bf : Bool) (d a b p bank pos : Nat) :
    (infuseStrip op bf d a b p bank pos s).MemWf := by
  grind [infuseStrip, memWf_readStrips, memWf_stripWrite, memWf_modChan]

theorem memWf_infuseAll (h : s.MemWf) (op : IaOp) (bf : Bool) (d a b p j n : Nat) : (infuseAll op bf d a b p j n s).MemWf :=
  memWf_foldl _ (fun _ _ h => memWf_foldl _ (fun _ _ h => memWf_infuseStrip h _ _ _ _ _ _ _ _) _ h) _ h

theorem memWf_refreshNow (h : s.MemWf) (p g : Nat) : (refreshNow s p g).MemWf := by
  grind [refreshNow, memWf_modChan]

theorem memWf_readRow (h : s.MemWf) (p x j : Nat) : ∀ n : Nat, (readRow s p x j n).1.MemWf
  | 0 => h
  | n + 1 => by grind [readRow, memWf_eccRead, memWf_machineCheck, memWf_readRow h p x j n]

theorem memWf_holdRow (h : s.MemWf) (p x : Nat) :
    (s.modChan p fun ch => { ch with slots := match Sparse.rd none ch.slots x with
        | some l => Sparse.wr none ch.slots x (some { l with held := true })
        | none => ch.slots }).MemWf := by
  refine h.modChan p _ ?_
  have h1 := slotsWf_rd (h.chan p) x
  dsimp only
  split
  · rename_i l hl
    rw [hl] at h1
    exact slotsWf_wr (h.chan p) x h1
  · exact h.chan p

theorem memWf_beginCmd (h : s.MemWf) (p : Nat) (c : Cmd) : (beginCmd s p c).MemWf := by
  unfold beginCmd
  refine memWf_modChan ?_ _ _ rfl
  have h1 : ((usesOf c.kind).foldl (fun v x => noteUse v p x
      ⟨c.plan.beat, c.plan.off + (s.chan p).debt + useTicks (decide (1 ≤ foldOf s p)) c.kind⟩) s).MemWf :=
    memWf_foldl _ (fun _ _ h => memWf_noteUse h _ _ _) _ h
  revert h1
  dsimp only
  generalize (usesOf c.kind).foldl _ s = u
  intro h1
  cases c.kind with dsimp only
  | opn x row w => exact memWf_openRow h1 _ _ _ _ _ _
  | opnw x row w => exact memWf_foldl _ (fun _ _ h => memWf_openRow h _ _ _ _ _ _) _ h1
  | hold x => exact memWf_holdRow h1 p x
  | rel x => exact memWf_releaseRow h1 p x _
  | relw x => exact memWf_foldl _ (fun _ _ h => memWf_releaseRow h _ _ _) _ h1
  | drd x a j n b => exact memWf_readRow h1 _ _ _ _
  | dwr x j n b data => exact h1
  | dref g => exact memWf_refreshNow h1 _ _
  | ia op bf d a b j n => exact memWf_infuseAll h1 _ _ _ _ _ _ _ _

theorem memWf_startNext (h : s.MemWf) (p : Nat) : (startNext s p).MemWf := by
  grind [startNext, memWf_modChan, memWf_seqRaise, memWf_beginCmd]

theorem memWf_countBuf (h : s.MemWf) (k buf which n : Nat) : (countBuf s k buf which n).MemWf := h

theorem memWf_countTransfer (h : s.MemWf) (p : Nat) (c : Cmd) : (countTransfer s p c).MemWf := by
  grind [countTransfer, memWf_countBuf]

theorem memWf_completeNext (h : s.MemWf) (p : Nat) : (completeNext s p).MemWf := by
  grind [completeNext, memWf_modChan, memWf_countTransfer, memWf_completeToken]

theorem memWf_foldOrLose (h : s.MemWf) (p : Nat) : (foldOrLose s p).MemWf := by
  grind [foldOrLose, memWf_setReg, memWf_modChan, memWf_devEvent]

theorem memWf_paritySend (h : s.MemWf) (p d : Nat) (folded : Bool) : (paritySend s p d folded).1.MemWf := by
  grind [paritySend, memWf_modChan, memWf_foldOrLose]

theorem memWf_logTransfer (h : s.MemWf) (p : Nat) (r : RunCmd) (ok : Bool) : (logTransfer s p r ok).MemWf := by
  grind [logTransfer, memWf_logEntry, memWf_setReg]

theorem memWf_putStrips (h : s.MemWf) (p bank row j : Nat) (m : Mem) : ∀ n : Nat, (putStrips s p bank row j m n).MemWf
  | 0 => h
  | n + 1 => memWf_stripWrite (memWf_putStrips h p bank row j m n) _ _ _

theorem memWf_setRun (h : s.MemWf) (p : Nat) (old new : RunCmd) : (setRun s p old new).MemWf := by
  grind [setRun, memWf_modChan]

theorem memWf_endTransfer (h : s.MemWf) (p : Nat) (r : RunCmd) : (endTransfer s p r).MemWf := by
  grind [endTransfer, memWf_modChan, memWf_setRun]

theorem memWf_endSend (h : s.MemWf) (p : Nat) (r : RunCmd) : (endSend s p r).MemWf := by
  grind [endSend, memWf_paritySend, memWf_logTransfer, memWf_putStrips, memWf_setRun, memWf_seqRaise, memWf_endTransfer, memWf_modChan]

theorem memWf_beginSend (h : s.MemWf) (p at2 : Nat) (r : RunCmd) : (beginSend s p at2 r).MemWf := by
  grind [beginSend, memWf_seqRaise, memWf_endTransfer, memWf_logTransfer, memWf_setRun]

theorem memWf_sendNext (h : s.MemWf) (p : Nat) : (sendNext s p).MemWf := by
  grind [sendNext, memWf_beginSend, memWf_endSend]

theorem memWf_landStrip (h : s.MemWf) (p : Nat) : (landStrip s p).MemWf := by
  grind [landStrip, memWf_modCore, memWf_endTransfer, memWf_setRun]

/-! ### Refreshes and freezes -/

theorem memWf_setRefresh (h : s.MemWf) (p g : Nat) (r : Refresh) : (setRefresh s p g r).MemWf := by
  grind [setRefresh, memWf_modChan]

theorem memWf_forceRefresh (h : s.MemWf) (p g k : Nat) (r : Refresh) : (forceRefresh s p g k r).MemWf := by
  grind [forceRefresh, memWf_iff, memWf_setRefresh, memWf_raiseCause]

theorem memWf_checkRefresh (h : s.MemWf) (p g : Nat) : (checkRefresh s p g).MemWf := by
  grind [checkRefresh, memWf_setRefresh, memWf_forceRefresh]

theorem memWf_beginFreeze (h : s.MemWf) (d : Nat) : (beginFreeze s d).MemWf := by
  grind [beginFreeze, memWf_iff, memWf_modDie, memWf_setReg]

theorem memWf_startForced (h : s.MemWf) (p : Nat) : (startForced s p).MemWf := by
  grind [startForced, memWf_iff, memWf_refreshNow]

theorem memWf_endFreeze (h : s.MemWf) (d : Nat) : (endFreeze s d).MemWf := by
  grind [endFreeze, memWf_iff, memWf_modDie]

/-! ### Far slots and reductions -/

theorem memWf_loseFar (h : s.MemWf) (q : Piece) : (loseFar s q).MemWf := by
  grind [loseFar, memWf_setPiece, memWf_raiseCause]

theorem memWf_openSlot (h : s.MemWf) (p : Nat) : (openSlot s p).MemWf := by
  grind [openSlot, memWf_modChan, memWf_choose]

theorem memWf_logFar (h : s.MemWf) (p : Nat) (q : Piece) (ok : Bool) : (logFar s p q ok).MemWf := by
  grind [logFar, memWf_logTransfer, memWf_modChan]

theorem memWf_endFar (h : s.MemWf) (p at2 : Nat) (q : Piece) : (endFar s p at2 q).MemWf := by
  grind [endFar, memWf_loseFar, memWf_logFar, memWf_paritySend, memWf_serveFast, memWf_modChan]

theorem memWf_serveSlot (h : s.MemWf) (p : Nat) : (serveSlot s p).MemWf := by
  grind [serveSlot, memWf_endFar, memWf_modChan, memWf_openSlot]

theorem memWf_setBlock (h : s.MemWf) (stack : Nat) (old new : RedBlk) : (setBlock s stack old new).MemWf := h

theorem memWf_dropBlock (h : s.MemWf) (stack : Nat) (x : RedBlk) : (dropBlock s stack x).MemWf := h

theorem memWf_readSources (i : Nat) : ∀ (l : List Nat) {s : State}, s.MemWf → (readSources s i l).1.MemWf
  | [], _, h => h
  | _ :: r, s, h => by grind [readSources, memWf_eccRead, memWf_readSources i r]

theorem memWf_sendStrip (stack : Nat) (x : RedBlk) : ∀ (l : List (Nat × Nat)) {s : State}, s.MemWf → (sendStrip s stack x l).1.MemWf
  | [], _, h => h
  | _ :: r, s, h => by grind [sendStrip, memWf_paritySend, memWf_logTransfer, memWf_modChan, memWf_sendStrip stack x r]

theorem memWf_reduceStrip (h : s.MemWf) (stack : Nat) : (reduceStrip s stack).MemWf := by
  grind [reduceStrip, memWf_sendStrip, memWf_raiseCause, memWf_setBlock, memWf_readSources, memWf_machineCheck, memWf_dropBlock,
    memWf_stripWrite, memWf_modStack, memWf_countBuf]

theorem memWf_finishBlock (h : s.MemWf) (stack : Nat) : (finishBlock s stack).MemWf := by
  grind [finishBlock, memWf_dropBlock, memWf_completeToken, memWf_pushEvent, memWf_sendPiece]

theorem memWf_checkNamed (h : s.MemWf) (stack : Nat) : (checkNamed s stack).MemWf := by
  grind [checkNamed, memWf_raiseCause]

/-! ### Address commands and scratchpad commands -/

theorem memWf_leafOf (h : s.MemWf) (k : Nat) (c : CCmd) (va : Nat) : (leafOf s k c va).1.MemWf := by
  grind [leafOf, memWf_modTask]

theorem memWf_countStall (h : s.MemWf) (k buf : Nat) : (countStall s k buf).MemWf := h

theorem memWf_modCmd (h : s.MemWf) (k id : Nat) (f : CCmd → CCmd) : (modCmd s k id f).MemWf := h

theorem memWf_fetchAhead (h : s.MemWf) (k : Nat) (c : CCmd) (l : Leaf) : (fetchAhead s k c l).MemWf := by
  grind [fetchAhead, memWf_startWalk]

theorem memWf_sendNextPiece (h : s.MemWf) (k id : Nat) : (sendNextPiece s k id).MemWf := by
  grind [sendNextPiece, memWf_countStall, memWf_leafOf, memWf_startWalk, memWf_failCommand, memWf_sendPiece, memWf_modCmd, memWf_fetchAhead]

theorem memWf_countPiece (h : s.MemWf) (k : Nat) (p : Piece) : (countPiece s k p).MemWf := by
  grind [countPiece, memWf_countBuf]

theorem memWf_settleCmd (h : s.MemWf) (k id : Nat) : (settleCmd s k id).MemWf := by
  grind [settleCmd, memWf_completeToken, memWf_modTask]

theorem memWf_startAddress (h : s.MemWf) (c : CCmd) (rgn : List (Nat × Nat × Nat × Bool)) : (startAddress c rgn s).MemWf := by
  grind [startAddress, memWf_waitFor, memWf_modMe, memWf_leafOf, memWf_countStall, memWf_startWalk, memWf_trapAt, memWf_declare,
    memWf_newToken, memWf_sendNextPiece, memWf_advance, memWf_settleCmd]

theorem memWf_plainCopy (h : s.MemWf) (store pinned : Bool) (va spad cx : Nat) : (plainCopy store pinned va spad cx s).MemWf := by
  grind [plainCopy, memWf_checked, memWf_trapAt, memWf_startAddress]

theorem memWf_elements (h : s.MemWf) (store : Bool) (va spad cx ex : Nat) : (elements store va spad cx ex s).MemWf := by
  grind [elements, memWf_checked, memWf_startAddress]

theorem memWf_readNextPiece (h : s.MemWf) (d : Nat) : (readNextPiece s d).MemWf := by
  grind [readNextPiece, memWf_sendPiece, memWf_modDie]

theorem memWf_copyReply (h : s.MemWf) (d : Nat) (p : Piece) : (copyReply s d p).MemWf := by
  grind [copyReply, memWf_dropPiece, memWf_modDie, memWf_readNextPiece, memWf_sendPiece]

theorem memWf_answerFrame (h : s.MemWf) (f : Frame) (err : Bool) (bs : List Byte) : (answerFrame s f err bs).MemWf := h

theorem memWf_performFrame (h : s.MemWf) (f : Frame) (e : Nat) : (performFrame s f e).MemWf := by
  grind [performFrame, memWf_sendPiece, memWf_modCore, memWf_replay, memWf_answerFrame]

theorem memWf_serveWaiting (src : Nat) : ∀ (n : Nat) {s : State}, s.MemWf → (serveWaiting src n s).MemWf
  | 0, _, h => h
  | n + 1, s, h => by grind [serveWaiting, memWf_iff, memWf_performFrame, memWf_serveWaiting src n]

theorem memWf_frameReply (h : s.MemWf) (p : Piece) (port src off : Nat) : (frameReply s p port src off).MemWf := by
  grind [frameReply, memWf_answerFrame, memWf_dropPiece, memWf_serveWaiting]

theorem memWf_replyPiece (h : s.MemWf) (id : Nat) : (replyPiece s id).MemWf := by
  grind [replyPiece, memWf_readyPiece, memWf_returnLoad, memWf_performStore, memWf_copyReply, memWf_frameReply, memWf_dropPiece,
    memWf_completeToken, memWf_pushEvent, memWf_modCore, memWf_countPiece, memWf_settleCmd, memWf_modCmd]

theorem memWf_startSpad (h : s.MemWf) (c : SpadCmd) (rgn : List (Nat × Nat × Nat × Bool)) : (startSpad c rgn s).MemWf := by
  grind [startSpad, memWf_declare, memWf_newToken, memWf_advance, memWf_modMe]

theorem memWf_intoStore (h : s.MemWf) (kind size sp a b cx : Nat) : (intoStore kind size sp a b cx s).MemWf := by
  grind [intoStore, memWf_checked, memWf_startSpad]

theorem memWf_endSpad (h : s.MemWf) (k : Nat) (c : SpadCmd) : (endSpad s k c).MemWf := h

theorem memWf_queueStuck (h : s.MemWf) (k : Nat) (c : SpadCmd) (code : Nat) : (queueStuck s k c code).MemWf := by
  grind [queueStuck, memWf_raiseCause, memWf_modTask, memWf_modEng]

theorem memWf_copyBytes (h : s.MemWf) (own : Nat) (c : SpadCmd) (o m : Nat) : (copyBytes s own c o m).MemWf := by
  grind [copyBytes, memWf_modCore]

theorem memWf_copyUnits32 (h : s.MemWf) (k : Nat) (c : SpadCmd) : (copyUnits32 s k c).MemWf := by
  grind [copyUnits32, memWf_portion, memWf_copyBytes, memWf_endSpad, memWf_modTask]

theorem memWf_runSpad (h : s.MemWf) (k : Nat) : (runSpad s k).MemWf := by
  grind [runSpad, memWf_endSpad, memWf_queueStuck, memWf_modTask, memWf_modCore, memWf_copyUnits32]

theorem memWf_handOver (h : s.MemWf) (x : Nat) (w pas : List Nat) (flag : Option Nat) : (handOver x w pas flag s).MemWf := by
  unfold handOver
  exact memWf_declare h _ _ _ _ _ fun t ht => memWf_advance (memWf_newToken ht)

theorem memWf_acceptBlock (h : s.MemWf) (k : Nat) : (acceptBlock s k).MemWf := by
  grind [acceptBlock, memWf_modStack, memWf_modTask]

/-! ### Beacons, timed transfers and the node transport -/

theorem memWf_sendBeacons (h : s.MemWf) (d : Nat) : (sendBeacons s d).MemWf := by
  grind [sendBeacons, memWf_modDie]

theorem memWf_skewLimit (h : s.MemWf) (d e : Nat) : (skewLimit s d e).MemWf := by
  grind [skewLimit, memWf_iff, memWf_raiseCause, memWf_foldl]

theorem memWf_takeBeacon (h : s.MemWf) (d e : Nat) : (takeBeacon s d e).MemWf := by
  grind [takeBeacon, memWf_modDie, memWf_skewLimit, memWf_foldl]

theorem memWf_setCtx (h : s.MemWf) (old new : CtxCmd) : (setCtx s old new).MemWf := h

theorem memWf_collided (h : s.MemWf) (t : CtxCmd) : (collided s t).MemWf := by
  grind [collided, memWf_raiseCause]

theorem memWf_collide (h : s.MemWf) (c : Collision) : (collide s c).MemWf := by
  grind [collide, memWf_setCtx, memWf_collided]

theorem memWf_sendCtx (h : s.MemWf) (d : Nat) : (sendCtx s d).MemWf := by
  grind [sendCtx, memWf_collided, memWf_modDie, memWf_setCtx]

theorem memWf_landCtx (h : s.MemWf) (d : Nat) : (landCtx s d).MemWf := by
  grind [landCtx, memWf_landStrip, memWf_modCore, memWf_setCtx, memWf_completeToken, memWf_modDie]

theorem memWf_ctxEmpty (h : s.MemWf) (d : Nat) : (ctxEmpty s d).MemWf := h

theorem leavesWf_exportEntry (h : s.MemWf) (off : Nat) (wr : Bool) : LeavesWf (exportEntry s off wr) := by
  unfold exportEntry
  refine leavesWf_ite h ?_
  have ht : LeavesWf (tableWord s (slice (s.reg regExpbase) 19 33 * 2 ^ 19 + off / 65536 * 8)) := memWf_tableWord h _
  rcases hy : tableWord s (slice (s.reg regExpbase) 19 33 * 2 ^ 19 + off / 65536 * 8) with ⟨u, w⟩
  rw [hy] at ht
  exact ht

theorem memWf_takeRequest (h : s.MemWf) (f : Frame) : (takeRequest s f).MemWf := by
  unfold takeRequest
  have he := leavesWf_exportEntry h f.off f.wr
  revert he
  generalize exportEntry s f.off f.wr = y
  exact fun he => memWf_serveWaiting _ _ ((memWf_setDist _).2 he)

theorem memWf_peerError (h : s.MemWf) (p : Piece) : (peerError s p).MemWf := by
  grind [peerError, memWf_setPiece, memWf_raiseCause]

theorem memWf_answerPiece (h : s.MemWf) (p : Piece) (ok : Bool) (data : List Byte) : (answerPiece s p ok data).MemWf := by
  grind [answerPiece, memWf_peerError, memWf_setPiece]

theorem memWf_takeAnswer (h : s.MemWf) (f : Frame) : (takeAnswer s f).MemWf := by
  grind [takeAnswer, memWf_answerPiece]

end Sys2Proof.Machine
end

section
/-!
SUPPORT. The invariant of memory through launches, stops, beat boundaries and the host (17_gangs to 21_host)
-/

namespace Sys2Proof.Machine

variable {s : State}

/-! ### Launch queues and gangs -/

theorem memWf_setQueueState (h : s.MemWf) (v q n : Nat) : (setQueueState s v q n).MemWf := h

theorem memWf_setHead (h : s.MemWf) (v q n : Nat) : (setHead s v q n).MemWf := h

theorem memWf_modLaunch (h : s.MemWf) (id : Nat) (f : Launch → Launch) : (modLaunch s id f).MemWf := h

theorem memWf_settleQueue (h : s.MemWf) (v q : Nat) : (settleQueue s v q).MemWf := by
  grind [settleQueue, memWf_setQueueState]

theorem memWf_putTicket (h : s.MemWf) (v ticket status : Nat) : (putTicket s v ticket status).MemWf := by
  grind [putTicket, memWf_iff]

theorem memWf_putRecord (h : s.MemWf) (l : Launch) (bs : List Byte) : (putRecord s l bs).1.MemWf := by
  grind [putRecord, memWf_vfPhys, memWf_physWrite, memWf_sendPiece]

theorem memWf_completeOne (h : s.MemWf) (l : Launch) (status reason : Nat) : (completeOne s l status reason).MemWf := by
  grind [completeOne, memWf_iff, memWf_putRecord, memWf_breakQueue, memWf_settleQueue, memWf_putTicket]

theorem memWf_settleInputs : ∀ (n : Nat) {s : State}, s.MemWf → (settleInputs n s).MemWf
  | 0, _, h => h
  | n + 1, s, h => by grind [settleInputs, memWf_completeOne, memWf_settleInputs n]

theorem memWf_completeLaunch (h : s.MemWf) (l : Launch) (status reason : Nat) : (completeLaunch s l status reason).MemWf := by
  grind [completeLaunch, memWf_settleInputs, memWf_completeOne]

theorem memWf_settleLaunch (h : s.MemWf) (id : Nat) : (settleLaunch s id).MemWf := by
  grind [settleLaunch, memWf_completeLaunch, memWf_settleQueue]

theorem memWf_fetchPacket (h : s.MemWf) (v q : Nat) : (fetchPacket s v q).1.MemWf := by
  grind [fetchPacket, memWf_vfPhys, memWf_physRead]

theorem memWf_recordOk (h : s.MemWf) (v : Nat) (l : Launch) : (recordOk s v l).1.MemWf := by
  grind [recordOk, memWf_vfPhys]

theorem memWf_takePacket (h : s.MemWf) (v q : Nat) : (takePacket s v q).1.MemWf := by
  grind [takePacket, memWf_iff, memWf_fetchPacket, memWf_breakQueue, memWf_setHead, memWf_recordOk]

theorem memWf_readPacket (h : s.MemWf) (v q : Nat) : (readPacket s v q).MemWf := by
  grind [readPacket, memWf_takePacket, memWf_completeLaunch, memWf_settleInputs]

theorem memWf_issueGang (h : s.MemWf) (b : Nat) (l : Launch) (p : List (Nat × Nat)) : (issueGang s b l p).MemWf := by
  grind [issueGang, memWf_iff, memWf_modLaunch, memWf_modCore, memWf_foldl]

theorem memWf_placeGangs (b : Nat) : ∀ (n : Nat) {s : State}, s.MemWf → (placeGangs b n s).MemWf
  | 0, _, h => h
  | n + 1, s, h => by grind [placeGangs, memWf_issueGang, memWf_placeGangs b n]

theorem memWf_noteLevels (h : s.MemWf) (b : Nat) : (noteLevels s b).MemWf := h

theorem memWf_schedule (h : s.MemWf) (b : Nat) : (schedule s b).MemWf := by
  grind [schedule, memWf_placeGangs, memWf_noteLevels, memWf_settleInputs]

theorem memWf_readWindows (h : s.MemWf) (v base : Nat) : ∀ n : Nat, (readWindows s v base n).1.MemWf
  | 0 => h
  | n + 1 => by
    have ih := memWf_readWindows h v base n
    unfold readWindows
    grind [memWf_vfPhys, memWf_physRead, memWf_walk]

theorem memWf_windowsOf (h : s.MemWf) (v : Nat) : (windowsOf s v).1.MemWf := by
  grind [windowsOf, memWf_readWindows]

theorem memWf_freshCore (h : s.MemWf) (c : Nat) : (freshCore s c).MemWf := by
  grind [freshCore, memWf_modCore, memWf_modChan]

theorem memWf_clearShares (h : s.MemWf) (c bank : Nat) : (clearShares s c bank).MemWf := h

theorem memWf_startTask (h : s.MemWf) (g : Gang) (l : Launch) (pins : List Leaf) (k : Nat) : (startTask s g l pins k).MemWf := by
  grind [startTask, memWf_clearShares, memWf_freshCore, memWf_unswitch, memWf_setTask]

theorem memWf_endGang (h : s.MemWf) (g : Gang) (exited : Bool) : (endGang s g exited).MemWf := by
  unfold endGang
  refine memWf_switchPoints (memWf_settleLaunch (memWf_modLaunch ((memWf_setDist _).2 (memWf_foldl _ (fun t k ht => ?_) _ h)) _ _) _)
  refine memWf_foldl _ (fun u p hu => memWf_modChan hu p _ rfl) _ ((memWf_setPieces _).2 ?_)
  refine memWf_foldl _ (fun u i hu => (memWf_modStack _ _).2 hu) _ ?_
  exact (memWf_modDie _ _).2 (memWf_modChan ((memWf_modCore _ _).2 ((memWf_setTask _ _).2 ht)) _ _ rfl)

theorem memWf_failLaunch (h : s.MemWf) (id status reason : Nat) : (failLaunch s id status reason).MemWf := h

theorem memWf_startSuccessor (h : s.MemWf) (g : Gang) (ws : List Nat) (k : Nat) : (startSuccessor s g ws k).MemWf := by
  grind [startSuccessor, memWf_freshCore, memWf_unswitch, memWf_setTask]

theorem memWf_attachGang (h : s.MemWf) (g : Gang) (b : Nat) : (attachGang s g b).MemWf := by
  grind [attachGang, memWf_endGang, memWf_modGang, memWf_windowsOf, memWf_failLaunch]

theorem memWf_startTasks (h : s.MemWf) (d b : Nat) : (startTasks s d b).MemWf := by
  grind [startTasks, memWf_attachGang, memWf_startSuccessor, memWf_startTask, memWf_foldl]

theorem memWf_finishTask (h : s.MemWf) (k : Nat) : (finishTask s k).MemWf := by
  grind [finishTask, memWf_iff, memWf_raiseCause, memWf_setTask, memWf_modLaunch, memWf_modGang, memWf_endGang, memWf_switchPoints]

/-! ### Stops and answers -/

theorem memWf_requestStop (h : s.MemWf) (k : Nat) : (requestStop s k).MemWf := by
  grind [requestStop, memWf_stopTask]

theorem memWf_endDetached (h : s.MemWf) (g : Gang) : (endDetached s g).MemWf := by
  grind [endDetached, memWf_writeBackAll, memWf_modChan, memWf_endGang, memWf_foldl]

theorem memWf_noteCause (h : s.MemWf) (g : Gang) (code : Nat) : (noteCause s g code).MemWf := h

theorem memWf_endByDevice (h : s.MemWf) (g : Gang) (how : Nat) : (endByDevice s g how).MemWf := by
  grind [endByDevice, memWf_modLaunch, memWf_failLaunch, memWf_endDetached]

theorem memWf_askPreempt (h : s.MemWf) (g : Gang) : (askPreempt s g).MemWf := by
  grind [askPreempt, memWf_modTask, memWf_modGang, memWf_foldl]

theorem memWf_askYield (h : s.MemWf) (g : Gang) : (askYield s g).MemWf := by
  grind [askYield, memWf_askPreempt, memWf_foldl]

theorem memWf_readRows (h : s.MemWf) (g : Gang) (k : Nat) : (readRows s g k).MemWf := by
  rw [show readRows = _ by delta readRows; rfl]
  split
  · exact h
  · rename_i pa _
    have hr := memWf_readRecord h pa
    dsimp only
    generalize readRecord s pa = y at hr
    exact memWf_ite h hr

theorem memWf_answerGang (h : s.MemWf) (g : Gang) (op : Nat) : (answerGang s g op).MemWf := by
  grind [answerGang, memWf_endDetached, memWf_noteCause, memWf_readRows, memWf_askYield, memWf_modGang, memWf_foldl]

theorem memWf_finishCut (h : s.MemWf) (g : Gang) : (finishCut s g).MemWf := by
  grind [finishCut, memWf_switchPoints, memWf_takeCut, memWf_endByDevice, memWf_endDetached, memWf_noteCause, memWf_devEvent,
    memWf_answerGang]

theorem memWf_cutAnswer (h : s.MemWf) (vf val op : Nat) : (cutAnswer s vf val op).MemWf := by
  grind [cutAnswer, memWf_answerGang, memWf_modGang]

theorem memWf_detachAt (h : s.MemWf) (g : Gang) (b code : Nat) (pre : Bool) (ends : Option Nat) : (detachAt s g b code pre ends).MemWf := by
  grind [detachAt, memWf_releaseGang, memWf_modGang]

theorem memWf_preemptAt (h : s.MemWf) (b : Nat) : (preemptAt s b).MemWf := by
  grind [preemptAt, memWf_detachAt, memWf_foldl]

theorem memWf_endAt (h : s.MemWf) (g : Gang) (b how : Nat) : (endAt s g b how).MemWf := by
  grind [endAt, memWf_detachAt, memWf_modGang, memWf_endByDevice]

theorem memWf_fencedStops (h : s.MemWf) (b : Nat) : (fencedStops s b).MemWf := by
  grind [fencedStops, memWf_endAt, memWf_foldl]

theorem memWf_abortPackets (v q : Nat) : ∀ (n : Nat) {s : State}, s.MemWf → (abortPackets v q n s).MemWf
  | 0, _, h => h
  | n + 1, s, h => by grind [abortPackets, memWf_takePacket, memWf_completeLaunch, memWf_abortPackets v q n]

theorem memWf_abortQueue (h : s.MemWf) (v q b : Nat) : (abortQueue s v q b).MemWf := by
  grind [abortQueue, memWf_failLaunch, memWf_endAt, memWf_settleLaunch, memWf_abortPackets, memWf_settleQueue, memWf_setHead, memWf_foldl]

theorem memWf_abortQueues (h : s.MemWf) (b : Nat) : (abortQueues s b).MemWf := by
  grind [abortQueues, memWf_abortQueue, memWf_foldl]

theorem memWf_chooseRebases (h : s.MemWf) (b : Nat) : (chooseRebases s b).MemWf := by
  grind [chooseRebases, memWf_askYield, memWf_modGang, memWf_foldl]

theorem memWf_planReopens (h : s.MemWf) (d b : Nat) (g : Gang) : (planReopens s d b g).MemWf := by
  grind [planReopens, memWf_modChan, memWf_foldl]

theorem memWf_openSpans (h : s.MemWf) (d b : Nat) : (openSpans s d b).MemWf := by
  grind [openSpans, memWf_planReopens, memWf_foldl]

theorem memWf_reopenNext (h : s.MemWf) (p : Nat) : (reopenNext s p).MemWf := by
  grind [reopenNext, memWf_modChan, memWf_reopenRow, memWf_foldl]

theorem memWf_attachResumed (h : s.MemWf) (b : Nat) : (attachResumed s b).MemWf := by
  grind [attachResumed, memWf_modGang, memWf_foldl]

theorem memWf_resumeTasks (h : s.MemWf) (d b : Nat) : (resumeTasks s d b).MemWf := by
  grind [resumeTasks, memWf_resumeTask, memWf_foldl]

/-! ### The beat boundary -/

theorem memWf_lateCommand (h : s.MemWf) (p b : Nat) : (lateCommand s p b).MemWf := by
  grind [lateCommand, memWf_seqRaise, memWf_modChan]

theorem memWf_heldCheck (h : s.MemWf) (p b : Nat) : (heldCheck s p b).MemWf := by
  grind [heldCheck, memWf_raiseCause]

theorem memWf_resetDebt (h : s.MemWf) (p : Nat) : (resetDebt s p).MemWf := by
  grind [resetDebt, memWf_modChan, memWf_setReg]

theorem memWf_closeChan (h : s.MemWf) (p b : Nat) : (closeChan s p b).MemWf := by
  grind [closeChan, memWf_resetDebt, memWf_heldCheck, memWf_lateCommand]

theorem memWf_alignEst (h : s.MemWf) (d : Nat) : (alignEst s d).MemWf := h

theorem memWf_switchPlan (h : s.MemWf) (b : Nat) : (switchPlan s b).MemWf := by
  grind [switchPlan, memWf_iff, memWf_setReg]

theorem memWf_turnSlip (h : s.MemWf) (b : Nat) : (turnSlip s b).MemWf := by
  grind [turnSlip, memWf_iff, memWf_setReg]

theorem memWf_firstOpening (h : s.MemWf) (b : Nat) : (firstOpening s b).MemWf := by
  grind [firstOpening, memWf_iff, memWf_switchPlan, memWf_turnSlip, memWf_preemptAt, memWf_fencedStops, memWf_abortQueues,
    memWf_attachResumed, memWf_chooseRebases]

theorem memWf_passAligns (h : s.MemWf) : (passAligns s).MemWf := h

theorem memWf_windowAt (h : s.MemWf) (d : Nat) : (windowAt s d).MemWf := by
  grind [windowAt, memWf_openWindow]

theorem memWf_chargeBeat (h : s.MemWf) (d : Nat) : (chargeBeat s d).MemWf := by
  grind [chargeBeat, memWf_setReg, memWf_modLaunch, memWf_foldl]

theorem memWf_sampleTime (h : s.MemWf) (d b : Nat) : (sampleTime s d b).MemWf := by
  grind [sampleTime, memWf_replay]

theorem memWf_openBeat (h : s.MemWf) (d b : Nat) : (openBeat s d b).MemWf := by
  grind [openBeat, memWf_modDie, memWf_firstOpening, memWf_windowAt, memWf_passAligns, memWf_resumeTasks, memWf_openSpans,
    memWf_startTasks, memWf_checkNamed, memWf_schedule, memWf_sampleTime, memWf_chargeBeat]

theorem memWf_openAligned (h : s.MemWf) (d : Nat) : (openAligned s d).MemWf := by
  grind [openAligned, memWf_choose, memWf_modDie, memWf_openBeat]

theorem memWf_closeBeat (h : s.MemWf) (d : Nat) : (closeBeat s d).MemWf := by
  grind [closeBeat, memWf_closeChan, memWf_modStack, memWf_alignEst, memWf_openAligned, memWf_modDie, memWf_openBeat, memWf_foldl]

theorem memWf_endPause (h : s.MemWf) (d : Nat) : (endPause s d).MemWf := by
  grind [endPause, memWf_openAligned]

/-! ### Registers and accesses of the host -/

theorem memWf_writeTail (h : s.MemWf) (v q t : Nat) : (writeTail s v q t).MemWf := by
  grind [writeTail, memWf_moveTail, memWf_breakQueue]

theorem memWf_runQueue (h : s.MemWf) (v q : Nat) : (runQueue s v q).MemWf := by
  grind [runQueue, memWf_setHead, memWf_setReg, memWf_setQueueState]

theorem memWf_writePlanact (h : s.MemWf) (v : Nat) : (writePlanact s v).MemWf := by
  grind [writePlanact, memWf_setReg]

theorem memWf_clearLog (h : s.MemWf) (a lo n ovf : Nat) : (clearLog s a lo n ovf).MemWf := h

theorem memWf_writeMclog (h : s.MemWf) (c w v : Nat) : (writeMclog s c w v).MemWf := by
  grind [writeMclog, memWf_setReg]

theorem memWf_dropTask (h : s.MemWf) (k va : Nat) (all : Bool) : (dropTask s k va all).MemWf := h

theorem memWf_writeAsinv (h : s.MemWf) (v x : Nat) : (writeAsinv s v x).MemWf := by
  grind [writeAsinv, memWf_iff, memWf_dropTask, memWf_setReg, memWf_foldl]

theorem memWf_writeCebase (h : s.MemWf) (d v : Nat) : (writeCebase s d v).MemWf := h

theorem memWf_startJob (h : s.MemWf) (d : Nat) : (startJob s d).MemWf := by
  grind [startJob, memWf_iff, memWf_physRead, memWf_setReg, memWf_modDie, memWf_readNextPiece]

theorem memWf_endJob (h : s.MemWf) (d : Nat) : (endJob s d).MemWf := by
  grind [endJob, memWf_iff, memWf_modDie, memWf_physWrite, memWf_putTicket, memWf_settleInputs]

theorem memWf_writeBwin (h : s.MemWf) (v : Nat) : (writeBwin s v).MemWf := by
  grind [writeBwin, memWf_iff, memWf_setReg]

theorem memWf_startBoot (h : s.MemWf) (len : Nat) : (startBoot s len).MemWf := by
  grind [startBoot, memWf_iff, memWf_setReg]

theorem memWf_writeAttreq (h : s.MemWf) (v : Nat) : (writeAttreq s v).MemWf := by
  grind [writeAttreq, memWf_iff, memWf_setReg]

theorem memWf_storeReg (h : s.MemWf) (pa v : Nat) : (storeReg s pa v).MemWf := by
  grind [storeReg, memWf_setReg]

theorem memWf_mgmtWrite (h : s.MemWf) (pa v : Nat) : (mgmtWrite s pa v).MemWf := by
  unfold mgmtWrite
  simp only [execAelsWrite, execTelsWrite, execPwrctlWrite, execCutcmdPreempt, after]
  refine memWf_ite (memWf_clearLog h _ _ _ _) <| memWf_ite (memWf_clearLog h _ _ _ _) <| memWf_ite (memWf_writePlanact h _) <|
    memWf_ite (memWf_ite (memWf_writeTail h _ _ _) (memWf_ite ?_ h)) <| memWf_ite ((memWf_setReg _ _).2 h) <|
    memWf_ite (memWf_writeAsinv h _ _) <| memWf_ite (memWf_writeMclog h _ _ _) <| memWf_ite ?_ <|
    memWf_ite (memWf_feel ((memWf_setReg _ _).2 h) _) <| memWf_ite (memWf_startBoot h _) <| memWf_ite (memWf_writeBwin h _) <|
    memWf_ite (memWf_writeAttreq h _) <| memWf_ite ((memWf_setReg _ _).2 h) <| memWf_ite ?_ (memWf_storeReg h _ _)
  · split
    · exact memWf_setQueueState h _ _ _
    · exact memWf_runQueue h _ _
    · exact memWf_settleQueue (memWf_setQueueState h _ _ _) _ _
    · exact memWf_setQueueState h _ _ _
  · split
    · exact memWf_cutAnswer h _ _ _
    · exact memWf_cutAnswer h _ _ _
    · split
      · exact memWf_askPreempt h _
      · exact h
    · exact h
  · split
    · exact memWf_writeCebase h _ _
    · exact (memWf_setReg _ _).2 h
    · exact h

theorem memWf_mgmtPut (h : s.MemWf) (pa : Nat) (bs : List Byte) : (mgmtPut s pa bs).MemWf := by
  grind [mgmtPut, memWf_mgmtWrite, memWf_foldl]

theorem memWf_hostReply (h : s.MemWf) (fn : Nat) (r : Option (List Byte)) : (hostReply s fn r).MemWf := h

theorem keepsWf_hostAccess (h : s.MemWf) (fn pa n : Nat) (wr : Bool) (bs : List Byte) :
    KeepsWf (hostAccess s fn pa n wr bs) := by
  grind [KeepsWf, hostAccess, memWf_mgmtPut, memWf_hostReply, memWf_physWrite, memWf_physRead]

theorem memWf_readVirtual (v : Nat) : ∀ (l : List (Nat × Nat)) {s : State}, s.MemWf → (readVirtual v l s).1.MemWf
  | [], _, h => h
  | _ :: r, s, h => by grind [readVirtual, memWf_vfPhys, memWf_physRead, memWf_readVirtual v r]

theorem memWf_writeVirtual (v : Nat) : ∀ (l : List (Nat × Nat)) (bs : List Byte) {s : State}, s.MemWf → (writeVirtual v l bs s).MemWf
  | [], _, _, h => h
  | _ :: r, _, _, h => memWf_writeVirtual v r _ (memWf_vfWrite h _ _ _)

theorem keepsWf_barAccess (h : s.MemWf) (fn bar off size : Nat) (wr : Bool) (val : Nat) :
    KeepsWf (barAccess fn bar off size wr val s) := by
  grind [KeepsWf, barAccess, keepsWf_hostAccess, memWf_mgmtPut, memWf_hostReply, memWf_writeVirtual, memWf_readVirtual]

/-! ### Boot, reports and dumps -/

theorem memWf_startGrid (h : s.MemWf) (d : Nat) : (startGrid s d).MemWf := h

theorem memWf_applyConfig (h : s.MemWf) (w : List Nat) : (applyConfig s w).MemWf := by
  grind [applyConfig, memWf_iff, memWf_feel, memWf_setReg, memWf_startGrid, memWf_sampleTime, memWf_foldl]

theorem memWf_endBoot (h : s.MemWf) : (endBoot s).MemWf := by
  grind [endBoot, memWf_iff, memWf_setReg, memWf_applyConfig]

theorem memWf_endReport (h : s.MemWf) : (endReport s).MemWf := by
  grind [endReport, memWf_physWrite, memWf_devEvent, memWf_setReg]

end Sys2Proof.Machine
end

section
/-!
SUPPORT. The invariant of memory through V, the interval unit, the matrix engine, the scatter engine and the fetch (11_vector to
14_return_path)
-/

namespace Sys2Proof.Machine

variable {s : State}

/-! ### V -/

theorem memWf_queueWait (h : s.MemWf) (inter : Bool) (code : Nat) : (queueWait inter code s).MemWf := by
  grind [queueWait, memWf_waitFor, memWf_trap]

theorem memWf_vIssue (h : s.MemWf) (r : VReq) (body : List Mem → State → State) (hbody : ∀ a t, t.MemWf → (body a t).MemWf) :
    (vIssue r body s).MemWf := by
  grind [vIssue, memWf_issue, memWf_cycleV, memWf_trap, memWf_waitFor, memWf_queueWait, memWf_declare, memWf_modMe]

theorem memWf_fly (h : s.MemWf) (lat : Nat) (f : Flight) : (fly lat f s).MemWf := by
  grind [fly, memWf_advance, memWf_modMe]

theorem memWf_vResult (h : s.MemWf) (lat : Nat) (dst : VDst) (esz n els : Nat) (f : Nat → Nat × Nat) :
    (vResult lat dst esz n els f s).MemWf := by
  grind [vResult, memWf_fly]

theorem memWf_vMasked (h : s.MemWf) (lat d ty : Nat) (qs : List (Nat × Nat)) (op : VCtx → List Mem → Nat → Nat × Nat) :
    (vMasked lat d ty qs op s).MemWf := by
  grind [vMasked, memWf_vIssue, memWf_vResult]

theorem memWf_vBinary (h : s.MemWf) (lat d a px b qx ty : Nat) (fop : Fmt → Mode → Nat → Nat → FRes) (iop : Int → Int → Int) :
    (vBinary lat d a px b qx ty fop iop s).MemWf := by
  grind [vBinary, memWf_vMasked]

theorem memWf_vUnary (h : s.MemWf) (lat d a px ty : Nat) (fop : Fmt → Mode → Nat → FRes) (iop : Int → Int) :
    (vUnary lat d a px ty fop iop s).MemWf := by
  grind [vUnary, memWf_vMasked]

theorem memWf_vTernary (h : s.MemWf) (lat d a px b qx cx rl ty : Nat) (fop : Fmt → Mode → Nat → Nat → Nat → FRes) :
    (vTernary lat d a px b qx cx rl ty fop s).MemWf := by
  grind [vTernary, memWf_vMasked]

theorem memWf_vBits (h : s.MemWf) (lat d a px b qx ty : Nat) (op : Nat → Nat → Nat) : (vBits lat d a px b qx ty op s).MemWf := by
  grind [vBits, memWf_vMasked]

theorem memWf_maskResult (h : s.MemWf) (lat md els : Nat) (v : List Nat) (jst : Nat) : (maskResult lat md els v jst s).MemWf := by
  grind [maskResult, memWf_fly]

theorem memWf_vCompare (h : s.MemWf) (cond md a px b qx ty : Nat) : (vCompare cond md a px b qx ty s).MemWf := by
  grind [vCompare, memWf_vIssue, memWf_maskResult]

theorem memWf_maskOp (h : s.MemWf) (md : Nat) (srcs : List Nat) (f : Task → List Nat) : (maskOp md srcs f s).MemWf := by
  grind [maskOp, memWf_vIssue, memWf_maskResult]

theorem memWf_vReduce (h : s.MemWf) (kind d a px ty : Nat) : (vReduce kind d a px ty s).MemWf := by
  grind [vReduce, memWf_vIssue, memWf_vResult]

/-! ### The interval unit -/

theorem memWf_flyAll (h : s.MemWf) (lat : Nat) (fs : List Flight) : (flyAll lat fs s).MemWf := by
  grind [flyAll, memWf_advance, memWf_modMe]

theorem memWf_jForwardOp (h : s.MemWf) (op : JOp) (lat jd a b ty : Nat) : (jForwardOp op lat jd a b ty s).MemWf := by
  grind [jForwardOp, memWf_vIssue, memWf_fly]

theorem memWf_jExtract (h : s.MemWf) (kind d a ex ty : Nat) : (jExtract kind d a ex ty s).MemWf := by
  grind [jExtract, memWf_vIssue, memWf_fly]

theorem memWf_jCompare (h : s.MemWf) (fn md a b ty : Nat) : (jCompare fn md a b ty s).MemWf := by
  grind [jCompare, memWf_vIssue, memWf_maskResult]

theorem memWf_jContractOp (h : s.MemWf) (op : JOp) (two : Bool) (lat z x y ty : Nat) : (jContractOp op two lat z x y ty s).MemWf := by
  grind [jContractOp, memWf_vIssue, memWf_flyAll]

/-! ### The matrix engine -/

theorem memWf_modM (h : s.MemWf) (k : Nat) (f : MUnit → MUnit) : (modM s k f).MemWf := h

theorem memWf_issueM (h : s.MemWf) (body : State → State) (hbody : ∀ t, t.MemWf → (body t).MemWf) : (issueM body s).MemWf := by
  grind [issueM, memWf_issueToken, memWf_waitFor]

theorem memWf_runStep (h : s.MemWf) (k : Nat) (r : MRun) : (runStep s k r).MemWf := h

theorem memWf_recheckTile (h : s.MemWf) (k : Nat) (r : MRun) : (recheckTile s k r).MemWf := by
  grind [recheckTile, memWf_modM, memWf_modCore, memWf_raiseCause, memWf_modEng, memWf_completeToken]

theorem memWf_tileStep (h : s.MemWf) (core : Nat) : (tileStep s core).MemWf := by
  grind [tileStep, memWf_modM, memWf_recheckTile, memWf_runStep]

theorem memWf_reductionEnd (h : s.MemWf) (core : Nat) : (reductionEnd s core).MemWf := by
  grind [reductionEnd, memWf_modM, memWf_completeToken]

theorem memWf_drainCopy (h : s.MemWf) (core : Nat) : (drainCopy s core).MemWf := by
  grind [drainCopy, memWf_choose, memWf_modCore, memWf_modM, memWf_completeToken, memWf_foldl]

/-! ### The scatter engine -/

theorem memWf_issueA (h : s.MemWf) (body : State → State) (hbody : ∀ t, t.MemWf → (body t).MemWf) : (issueA body s).MemWf := by
  grind [issueA, memWf_issueToken, memWf_waitFor]

theorem memWf_modA (h : s.MemWf) (k : Nat) (f : AUnit → AUnit) : (modA s k f).MemWf := h

theorem memWf_beginA (h : s.MemWf) (i : AIns) (x : RaceEnt) : (beginA i x s).MemWf := by
  grind [beginA, memWf_declareAs, memWf_newToken, memWf_waitFor, memWf_modA]

theorem memWf_updateOp (h : s.MemWf) (op d a b ty : Nat) (scale : Int) : (updateOp op d a b ty scale s).MemWf := by
  grind [updateOp, memWf_issueA, memWf_checked, memWf_beginA]

theorem memWf_sendWindow (h : s.MemWf) (k : Nat) (i : AIns) : (sendWindow s k i).MemWf := by
  unfold sendWindow
  dsimp only
  split
  · exact memWf_raiseCause ((memWf_modEng _ _ _).2 h) _ _ _ _
  · grind [memWf_modA, memWf_advance, memWf_focus, memWf_completeToken]

theorem memWf_windowStep (h : s.MemWf) (k : Nat) : (windowStep s k).MemWf := by
  grind [windowStep, memWf_sendWindow]

theorem memWf_applyUpdate (own core : Nat) (i : AIns) (u : Nat × Nat × Int × Nat) {r : State × Nat} (h : r.1.MemWf) :
    (applyUpdate own core i u r).1.MemWf := by
  grind [applyUpdate, memWf_modCore]

theorem memWf_applyUpdates (own core : Nat) (i : AIns) (l : List (Nat × Nat × Int × Nat)) {x : State × Nat} (h : x.1.MemWf) :
    (l.foldl (fun x u => applyUpdate own core i u x) x).1.MemWf := by
  induction l generalizing x with
  | nil => exact h
  | cons u l ih => exact ih (memWf_applyUpdate _ _ _ _ h)

theorem memWf_performRmw (h : s.MemWf) (k : Nat) : (performRmw s k).MemWf := by
  unfold performRmw State.choose
  refine memWf_ite h ?_
  dsimp only
  split
  · exact h
  · rename_i r _
    have h1 := memWf_applyUpdates (k / 2) r.core r.ins r.ups (x := ({ s with free := s.free + 1 }, 0)) h
    generalize r.ups.foldl _ _ = y at h1
    exact memWf_ite ((memWf_modTask _ _).2 h1) (memWf_completeToken ((memWf_modTask _ _).2 h1) _ _ _)

theorem memWf_finishRd (h : s.MemWf) (k : Nat) : (finishRd s k).MemWf := by
  grind [finishRd, memWf_portion, memWf_modCore, memWf_modA, memWf_advance, memWf_focus, memWf_completeToken]

/-! ### Fetching -/

theorem memWf_textUnit (h : s.MemWf) (pa va : Nat) : (textUnit s pa va).1.MemWf := by
  grind [textUnit, memWf_outsideRead, memWf_tierRead]

theorem memWf_textHalf (h : s.MemWf) (k : Nat) (e : Eng) (va : Nat) : (textHalf s k e va).1.MemWf := by
  grind [textHalf, memWf_translate, memWf_textUnit, memWf_modEng]

theorem memWf_bodyHalf (h : s.MemWf) (k : Nat) (e : Eng) (va : Nat) : (bodyHalf s k e va).1.MemWf := by
  grind [bodyHalf, memWf_textHalf, memWf_modEng]

theorem memWf_gather (k : Nat) (e : Eng) : ∀ (n va : Nat) {s : State}, s.MemWf → (gather s k e va n).1.MemWf
  | 0, _, _, h => h
  | n + 1, va, s, h => by grind [gather, memWf_bodyHalf, memWf_gather k e n]

theorem memWf_fetchFailed (h : s.MemWf) (f : Fetched) : (fetchFailed s f).MemWf := by
  cases f <;> grind [fetchFailed, memWf_trap, memWf_trapAt, memWf_machineCheck, memWf_modMyEng]

theorem memWf_setCur (h : s.MemWf) (core bank : Nat) (e : Eng) (ch : Chain) (n : Nat) : (setCur s core bank e ch n).MemWf := h

theorem memWf_nestMove (h : s.MemWf) (core : Nat) (r : MRun) : (nestMove s core r).MemWf := by
  grind [nestMove, memWf_reductionEnd, memWf_tileStep]

theorem memWf_matrixWalks (h : s.MemWf) (k : Nat) : (matrixWalks s k).2.MemWf := by
  grind [matrixWalks, memWf_choose]

theorem memWf_stepTime (h : s.MemWf) : (stepTime s).MemWf := by
  grind [stepTime, memWf_choose, memWf_modDie, memWf_foldl]

theorem memWf_passTime (h : s.MemWf) (d : Nat) : (passTime s d).MemWf := by
  grind [passTime, memWf_choose, memWf_modDie, memWf_stepTime]

theorem memWf_drifts (h : s.MemWf) (d : Nat) : (drifts s d).MemWf := by
  grind [drifts, memWf_choose, memWf_modDie]

theorem memWf_halfTick (h : s.MemWf) (d : Nat) : (halfTick s d).MemWf := by
  grind [halfTick, memWf_passTime, memWf_drifts, memWf_modDie]

end Sys2Proof.Machine
end

section
/-!
PROOF. Every instruction and every event keeps memory and the row lines in canonical form: the instructions whose bodies branch, then all of
them by what they are made of
-/

namespace Sys2Proof.Machine

variable {s : State}

/-! ### Instructions whose bodies branch -/

theorem keepsWf_execPalign (h : s.MemWf) (a imm : Nat) : KeepsWf (execPalign a imm s) :=
  keepsWf_next (memWf_issue h _ _ fun _ ht => memWf_ite (memWf_trap ht _) (memWf_ite (memWf_advance ht)
    (memWf_ite (memWf_trap ht _) (memWf_advance ht))))

theorem keepsWf_execVpf (h : s.MemWf) (ex qx : Nat) : KeepsWf (execVpf ex qx s) :=
  keepsWf_next (memWf_issue h _ _ fun t ht => by
    have hc := memWf_cycleV ht t.key
    exact memWf_ite (memWf_trap hc _) (memWf_ite (memWf_waitFor hc _) (memWf_ite (memWf_trap hc _)
      (memWf_declare hc _ _ _ _ _ fun u hu => memWf_fly hu _ _))))

theorem keepsWf_execVmark (h : s.MemWf) : KeepsWf (execVmark s) :=
  keepsWf_next (memWf_issue h _ _ fun t ht => by
    have hc := memWf_cycleV ht t.key
    exact memWf_ite (memWf_advance hc) (memWf_declare hc _ _ _ _ _ fun u hu =>
      memWf_ite (memWf_advance (memWf_completeToken (memWf_newToken hu) _ _ _)) (memWf_advance (memWf_newToken hu))))

theorem keepsWf_execRdc (h : s.MemWf) (a : Nat) : KeepsWf (execRdc a s) := by
  refine keepsWf_next (memWf_issueToken h _ fun t ht => memWf_checked ht _ _ fun u hu => memWf_checked hu _ _ fun v hv => ?_)
  dsimp only
  split
  · exact memWf_trapAt hv _ _
  · refine memWf_ite (memWf_handOver hv _ _ _ _) (memWf_ite (memWf_waitFor hv _) ?_)
    have hp : (v.modMe passMarks).MemWf := hv
    split
    · exact memWf_waitFor (memWf_countStall (memWf_startWalk hp _ _ _ _ _) _ _) _
    · split
      · exact memWf_trapAt ((memWf_modMe _).2 hp) _ _
      · exact memWf_handOver ((memWf_modMe _).2 hp) _ _ _ _

theorem keepsWf_execCtx (h : s.MemWf) (d sx lx gp nx : Nat) : KeepsWf (execCtx d sx lx gp nx s) := by
  refine keepsWf_next (memWf_issueToken h _ fun t ht => memWf_checked ht _ _ fun u hu => ?_)
  dsimp only
  split
  · exact memWf_trap hu _
  · exact memWf_ite (memWf_trap hu _) (memWf_declareAs hu _ _ _ _ fun v hv =>
      memWf_advance ((memWf_modDie _ _).2 (memWf_setPlace (memWf_newToken hv) _ _)))

theorem keepsWf_execNodeFrameArrival (h : s.MemWf) (port src dst head len : Nat) (wr : Bool) (data : List Byte) :
    KeepsWf (execNodeFrameArrival port src dst head len wr data s) := by
  unfold execNodeFrameArrival
  extract_lets kind f
  refine keepsWf_next (memWf_ite (memWf_ite (memWf_takeRequest h _) (memWf_takeAnswer h _)) ?_)
  have hr := leavesWf_routePort h dst
  revert hr
  generalize routePort s dst = y
  intro hr
  split <;> exact hr

theorem keepsWf_execFatalErrorDump (h : s.MemWf) (cause : Nat) : KeepsWf (execFatalErrorDump cause s) :=
  keepsWf_next (memWf_devEvent (memWf_ite (h.setMem (Sparse.wf_paste _ _ _ _ h.1 (Mem.wf_canon _))) (memWf_physWrite h _ _)) _ _ _ _)

theorem keepsWf_execCcpy (h : s.MemWf) (a b cx : Nat) : KeepsWf (execCcpy a b cx s) := by
  refine keepsWf_next (memWf_issueToken h _ fun t ht => memWf_checked ht _ _ fun u hu => ?_)
  split
  · exact memWf_startSpad hu _ _
  · exact memWf_trap hu _

theorem keepsWf_execTake (h : s.MemWf) (d : Nat) : KeepsWf (execTake d s) := by
  refine keepsWf_next (memWf_issueToken h _ fun t ht => ?_)
  split
  · exact memWf_quick ht _ _ fun u hu => memWf_setC ((memWf_modMe _).2 hu) _ _
  · exact memWf_ite (memWf_trap ht _) (memWf_waitFor ht _)

theorem keepsWf_execSmark (h : s.MemWf) : KeepsWf (execSmark s) := by
  refine keepsWf_next (memWf_issue h _ _ fun t ht => ?_)
  split
  · exact memWf_advance ht
  · exact memWf_advance ((memWf_modMe _).2 ((memWf_modMyEng _).2 ht))

theorem keepsWf_execGbar (h : s.MemWf) (sx : Nat) : KeepsWf (execGbar sx s) := by
  refine keepsWf_next (memWf_issue h _ _ fun t ht => ?_)
  split
  · exact memWf_atBarrier ht _
  · exact memWf_ite (memWf_atBarrier (memWf_arrive ht) _) (memWf_waitFor ht _)

theorem keepsWf_execMtile (h : s.MemWf) (b : Nat) : KeepsWf (execMtile b s) := by
  refine keepsWf_next (memWf_issueM h _ fun t ht => memWf_ite (memWf_waitFor ht _) ?_)
  split
  · exact memWf_trap ht _
  · rename_i rest _
    dsimp only
    split
    · exact memWf_trap ht _
    · refine memWf_declare ht _ _ _ _ _ fun u hu => ?_
      have hm := memWf_newToken ((memWf_modMyCore fun c => { c with fq := rest }).2 hu)
      exact memWf_advance (memWf_ite (memWf_completeToken (memWf_modM hm _ _) _ _ _) (memWf_modM hm _ _))

theorem keepsWf_execMret (h : s.MemWf) : KeepsWf (execMret s) := by
  refine keepsWf_next (memWf_issueM h _ fun t ht => ?_)
  split
  · exact memWf_quick ht _ _ fun _ hu => hu
  · exact memWf_declare ht _ _ _ _ _ fun u hu => memWf_advance (memWf_modM (memWf_newToken hu) _ _)

theorem keepsWf_execMmark (h : s.MemWf) : KeepsWf (execMmark s) :=
  keepsWf_next (memWf_issueM h _ fun t ht => memWf_declare ht _ _ _ _ _ fun u hu => by
    have hm := memWf_newToken hu
    exact memWf_advance (memWf_ite (memWf_completeToken (memWf_modM hm _ _) _ _ _) (memWf_modM hm _ _)))

theorem keepsWf_execFarRequestArrival (h : s.MemWf) (id : Nat) : KeepsWf (execFarRequestArrival id s) := by
  refine keepsWf_next ?_
  split
  · exact h
  · refine memWf_ite h (memWf_ite ?_ (memWf_arrivePiece h _))
    split
    · exact memWf_countStall h _ _
    · exact h

theorem keepsWf_execNodeAcknowledgement (h : s.MemWf) (id : Nat) (ok : Bool) (data : List Byte) :
    KeepsWf (execNodeAcknowledgement id ok data s) := by
  refine keepsWf_next ?_
  split
  · exact h
  · exact memWf_ite h (memWf_answerPiece h _ _ _)

theorem keepsWf_execHostWindowCompletion (h : s.MemWf) (id : Nat) (ok : Bool) (data : List Byte) :
    KeepsWf (execHostWindowCompletion id ok data s) := by
  refine keepsWf_next ?_
  split
  · exact h
  · exact memWf_ite h (memWf_answerPiece h _ _ _)

theorem keepsWf_execCutTaken (h : s.MemWf) (gang : Nat) : KeepsWf (execCutTaken gang s) := by
  refine keepsWf_next ?_
  split
  · exact memWf_finishCut h _
  · exact h

theorem keepsWf_execCutcmdPreempt (h : s.MemWf) (vf val : Nat) : KeepsWf (execCutcmdPreempt vf val s) := by
  refine keepsWf_next ?_
  split
  · exact memWf_askPreempt h _
  · exact h

/-! ### All instructions and events -/

theorem keepsWf_exec (h : s.MemWf) (i : Instr) : KeepsWf (exec i s) := by
  cases i with
  | nop16 => exact keepsWf_next (memWf_advance (memWf_ite (memWf_cycleV h _) h))
  | bw => exact keepsWf_next (memWf_ite (memWf_observeBeat h _) (memWf_waitFor h _))
  | blockHeader => exact keepsWf_next (memWf_readHeader (memWf_ite (memWf_cycleV h _) h) _ _ _ _ _ _)
  | repnPop => exact keepsWf_next (memWf_ite (memWf_popCount h _ _) h)
  | pathRecordTake => exact keepsWf_next (memWf_ite (memWf_takeRecord h _ _) h)
  | vsel | vcvt => exact keepsWf_next (memWf_vIssue h _ _ fun _ t ht => memWf_vResult ht _ _ _ _ _ _)
  | vrot | viota | vsplat | vshl | vdeq | vperm | vbcast | vmov | vclr => exact keepsWf_next (memWf_vMasked h _ _ _ _ _)
  | vmark => exact keepsWf_execVmark h
  | jmkPair | jmkPoint | jredsum | jst | jcvt | jsplat | vqnt | vtos =>
    exact keepsWf_next (memWf_vIssue h _ _ fun _ t ht => memWf_fly ht _ _)
  | jempty => exact keepsWf_next (memWf_vIssue h _ _ fun _ t ht => memWf_maskResult ht _ _ _ _ _)
  | nodeFrameArrival => exact keepsWf_execNodeFrameArrival h _ _ _ _ _ _ _
  | nodeDestinationUnreachable => exact keepsWf_next (memWf_foldl _ (fun _ _ h => memWf_peerError h _) _ h)
  | cutcmdNoEffect => exact keepsWf_next h
  | powerUp => exact keepsWf_next memWf_reset
  | hostBarAccess => exact keepsWf_barAccess h _ _ _ _ _ _
  | fatalErrorDump => exact keepsWf_execFatalErrorDump h _
  | pwrctlWrite => exact keepsWf_next (memWf_feel ((memWf_setReg _ _).2 h) _)
  | eventMessageTimestamp => exact keepsWf_next ((memWf_setDist _).2 h)
  | mov16 | addi16 | li16 | add | sub | and | or | xor | andn | sll | srl | sra | rotl | min | max | minn | maxn | mul | mulh
  | mulhn | div | divn | rem | remn | clz | ctz | popc | addi | andi | ori | xori | slli | srli | srai | lih | sel | bnow
  | tick | ntime => exact keepsWf_next (memWf_scalarOp h _ _)
  | cmpEq | cmpNe | cmpLt | cmpLe | cmpLtn | cmpLen | cmpiEq | cmpiLt | cmpiLtn | pand | por | pxor | pnot | pknow | pset
  | popv | pwr => exact keepsWf_next (memWf_predOp h _ _)
  | ldI8 | ldN8 | ldI16 | ldN16 | ldI32 | ldN32 | ldI64 => exact keepsWf_next (memWf_loadOp h _ _ _ _ _)
  | st8 | st16 | st32 | st64 => exact keepsWf_next (memWf_storeOp h _ _ _ _)
  | ldAcq =>
    exact keepsWf_next (memWf_issue h _ _ fun _ ht => memWf_ite (memWf_waitFor ht _) (memWf_ite (memWf_trap ht _)
      (memWf_withPhys ht _ _ _ fun _ _ hu => memWf_startLoad (memWf_acquireAt hu _ _) _ _ _ _ _ _)))
  | stRel => exact keepsWf_next (memWf_issue h _ _ fun _ ht => memWf_storeAt ht _ _ _)
  | jal | jr => exact keepsWf_next (memWf_issue h _ _ fun _ ht => memWf_takeBranch (memWf_setS ht _ _) _)
  | swpt =>
    exact keepsWf_next (memWf_issue h _ _ fun _ ht => memWf_ite (memWf_trap ht _) (memWf_withBytes ht _ _ _ fun _ _ hu =>
      memWf_noteSwitch (memWf_takeBranch hu _)))
  | palign => exact keepsWf_execPalign h _ _
  | waitt | isync => exact keepsWf_next (memWf_issue h _ _ fun _ ht => memWf_ite (memWf_advance ht) (memWf_waitFor ht _))
  | fence => exact keepsWf_next (memWf_issue h _ _ fun _ ht => memWf_ite (memWf_retireFence ht _ _) (memWf_waitFor ht _))
  | tlbi | tlbiAll => exact keepsWf_next (memWf_issue h _ _ fun _ ht => memWf_invalidate ht _ _)
  | smark => exact keepsWf_execSmark h
  | ezw => exact keepsWf_next (memWf_issue h _ _ fun _ ht => memWf_ite (memWf_waitFor ht _) (memWf_advance ((memWf_modMyCore _).2 ht)))
  | fpush => exact keepsWf_next (memWf_issue h _ _ fun _ ht => memWf_ite (memWf_advance ((memWf_modMyCore _).2 ht))
    (memWf_waitFor ht _))
  | repn =>
    exact keepsWf_next (memWf_issue h _ _ fun _ ht => memWf_ite (memWf_trap ht _) (memWf_ite (memWf_advance ((memWf_modMe _).2 ht))
      (memWf_ite (memWf_trap ht _) (memWf_waitFor ht _))))
  | handC =>
    exact keepsWf_next (memWf_issue h _ _ fun _ ht => memWf_ite (memWf_advance ((memWf_modMe _).2 ht)) (memWf_ite (memWf_trap ht _)
      (memWf_waitFor ht _)))
  | handA => exact keepsWf_next (memWf_issue h _ _ fun _ ht => memWf_ite (memWf_trap ht _) (memWf_advance ((memWf_modMe _).2 ht)))
  | evpop => exact keepsWf_next (memWf_issue h _ _ fun _ ht => memWf_advance (memWf_setS ((memWf_modMe _).2 ht) _ _))
  | evpeek | csrr => exact keepsWf_next (memWf_issue h _ _ fun _ ht => memWf_advance (memWf_setS ht _ _))
  | gbar => exact keepsWf_execGbar h _
  | exit =>
    exact keepsWf_next (memWf_issue h _ _ fun _ ht => memWf_ite (memWf_endTask ht _) (memWf_ite (memWf_trap ht _)
      (memWf_withBytes ht _ _ _ fun _ _ hu => memWf_ite (memWf_endTask hu _) (memWf_trap hu _))))
  | post =>
    exact keepsWf_next (memWf_issue h _ _ fun _ ht => memWf_ite (memWf_trap ht _) (memWf_ite (memWf_trap ht _) (memWf_ite
      (memWf_waitFor ht _) (memWf_withBytes ht _ _ _ fun _ _ hu => memWf_advance (memWf_setS (memWf_postPacket hu _ _ _) _ _)))))
  | svc | brk => exact keepsWf_next (memWf_issue h _ _ fun _ ht => memWf_callOut ht _ _)
  | vpf => exact keepsWf_execVpf h _ _
  | sLoadReturn => exact keepsWf_next (memWf_returnLoad h _)
  | sStorePerform => exact keepsWf_next (memWf_performStore h _)
  | bT | bF | bU | b => exact keepsWf_next (memWf_branchOp h _ _)
  | waittWake => exact keepsWf_next (memWf_wakeWaitt h _)
  | fenceRetire => exact keepsWf_next (memWf_wakeFence h _)
  | gbarRelease => exact keepsWf_next (memWf_wakeBarrier h _)
  | csrw | csrs | csrc => exact keepsWf_next (memWf_csrUpdate h _ _ _)
  | dopen | dopenw => exact keepsWf_next (memWf_issueToken h _ fun _ ht => memWf_withRow ht _ _ fun _ _ _ hu =>
    memWf_sendCmd hu _ _ _ _)
  | dhold | drel | drelw => exact keepsWf_next (memWf_issueToken h _ fun _ ht => memWf_sendCmd ht _ _ _ _)
  | drd | dref => exact keepsWf_next (memWf_issueToken h _ fun _ ht => memWf_checked ht _ _ fun _ hu => memWf_sendCmd hu _ _ _ _)
  | dwr => exact keepsWf_next (memWf_issueToken h _ fun _ ht => memWf_checked ht _ _ fun _ hu => memWf_sendFrom hu _ _ _ _ _)
  | dgap => exact keepsWf_next (memWf_issueToken h _ fun _ ht => memWf_quick ht _ _ fun _ hu => memWf_setPlace hu _ _)
  | cbeat =>
    exact keepsWf_next (memWf_issueToken h _ fun _ ht => memWf_checked ht _ _ fun _ hu => memWf_quick hu _ _ fun _ hv =>
      (memWf_modMe _).2 ((memWf_modMyEng _).2 hv))
  | cld | cldBs | cst | cstBs => exact keepsWf_next (memWf_issueToken h _ fun _ ht => memWf_plainCopy ht _ _ _ _ _)
  | ccpy => exact keepsWf_execCcpy h _ _ _
  | cfq | cdq | cvf | cfv => exact keepsWf_next (memWf_issueToken h _ fun _ ht => memWf_checked ht _ _ fun _ hu =>
    memWf_startSpad hu _ _)
  | ccv | cpl => exact keepsWf_next (memWf_issueToken h _ fun _ ht => memWf_intoStore ht _ _ _ _ _ _)
  | cgat | csct => exact keepsWf_next (memWf_issueToken h _ fun _ ht => memWf_elements ht _ _ _ _ _)
  | cpat =>
    exact keepsWf_next (memWf_issueToken h _ fun _ ht => memWf_checked ht _ _ fun _ hu => memWf_checked hu _ _ fun _ hv =>
      memWf_quick hv _ _ fun _ hw => (memWf_modMe _).2 hw)
  | rdc => exact keepsWf_execRdc h _
  | ctx => exact keepsWf_execCtx h _ _ _ _ _
  | cadd | caddSub | caddShl | cmov =>
    exact keepsWf_next (memWf_issueToken h _ fun _ ht => memWf_quick ht _ _ fun _ hu => memWf_setC hu _ _)
  | cmovLd =>
    exact keepsWf_next (memWf_issueToken h _ fun _ ht => memWf_checked ht _ _ fun _ hu => memWf_quick hu _ _ fun _ hv =>
      memWf_setC hv _ _)
  | cmovSt =>
    exact keepsWf_next (memWf_issueToken h _ fun _ ht => memWf_checked ht _ _ fun _ hu => memWf_quick hu _ _ fun _ hv =>
      (memWf_modMyCore _).2 hv)
  | take => exact keepsWf_execTake h _
  | iaZero | iaCopy | iaAddBf16 | iaAddF32 | iaSubBf16 | iaSubF32 | iaMulBf16 | iaMulF32 | iaFmaBf16 | iaFmaF32 | iaAxpyBf16
  | iaAxpyF32 | iaAccBf16 | iaAccF32 | iaWldF32 | iaWldBf16 | iaWstF32 | iaWstBf16 | iaMaxBf16 | iaMaxF32 | iaMinBf16
  | iaMinF32 | iaCvt | iaScale => exact keepsWf_next (memWf_infuse h _ _ _ _ _ _ _ _ _)
  | vadd | vsub | vmul | vmin | vmax | vdiv => exact keepsWf_next (memWf_vBinary h _ _ _ _ _ _ _ _ _)
  | vfma | vfms => exact keepsWf_next (memWf_vTernary h _ _ _ _ _ _ _ _ _ _)
  | vabs | vneg | vrcp | vrsq | vexp2 | vlog2 | vsqrt => exact keepsWf_next (memWf_vUnary h _ _ _ _ _ _ _)
  | vand | vor | vxor | vshr | vsra => exact keepsWf_next (memWf_vBits h _ _ _ _ _ _ _ _)
  | vcmpEq | vcmpNe | vcmpLt | vcmpLe | vcmpGt | vcmpGe | vcmpUo => exact keepsWf_next (memWf_vCompare h _ _ _ _ _ _ _)
  | mand | mor | mxor | mnot | mknow | mall | mnone => exact keepsWf_next (memWf_maskOp h _ _ _)
  | vredsum | vredmax | vredmin => exact keepsWf_next (memWf_vReduce h _ _ _ _ _)
  | vResultLanding => exact keepsWf_next (memWf_landDue h _)
  | jadd | jsub | jmul | jdiv | jsqr | jsqrt | jexp2 | jmax | jmin | jabs | jneg | jhull | jisect =>
    exact keepsWf_next (memWf_jForwardOp h _ _ _ _ _ _)
  | jlo | jhi | jmid | jrad | jwid => exact keepsWf_next (memWf_jExtract h _ _ _ _ _)
  | jcmpLt | jcmpLe | jcmpEq | jcmpNe | jcmpSub | jcmpDis => exact keepsWf_next (memWf_jCompare h _ _ _ _ _)
  | jaddBk | jsubBk | jmulBk | jdivBk | jsqrBk | jsqrtBk | jexp2Bk | jmaxBk | jminBk | jabsBk | jnegBk =>
    exact keepsWf_next (memWf_jContractOp h _ _ _ _ _ _ _)
  | mtile => exact keepsWf_execMtile h _
  | mzacc => exact keepsWf_next (memWf_issueM h _ fun _ ht => memWf_quick ht _ _ fun _ hu => memWf_modM ((memWf_modMyCore _).2 hu) _ _)
  | mret => exact keepsWf_execMret h
  | mmark => exact keepsWf_execMmark h
  | mtileStep => exact keepsWf_next (memWf_tileStep h _)
  | mtileReductionEnd => exact keepsWf_next (memWf_reductionEnd h _)
  | mtileRetirementDone => exact keepsWf_next (memWf_drainCopy h _)
  | saAdd | saAddq | saMin | saMax | saOr | saAnd | saXch | saCnt => exact keepsWf_next (memWf_updateOp h _ _ _ _ _ _)
  | saScl =>
    exact keepsWf_next (memWf_issueA h _ fun _ ht => memWf_checked ht _ _ fun _ hu => memWf_quick hu _ _ fun _ hv =>
      (memWf_modMe _).2 hv)
  | saRd => exact keepsWf_next (memWf_issueA h _ fun _ ht => memWf_checked ht _ _ fun _ hu => memWf_beginA hu _ _)
  | saWindow => exact keepsWf_next (memWf_windowStep h _)
  | saRmwPerform => exact keepsWf_next (memWf_performRmw h _)
  | beatBoundary => exact keepsWf_next (memWf_closeBeat h _)
  | alignmentPauseEnd => exact keepsWf_next (memWf_endPause h _)
  | beatObserved => exact keepsWf_next (memWf_wakeBeat h _ _)
  | beaconSend => exact keepsWf_next (memWf_sendBeacons h _)
  | beaconReceive => exact keepsWf_next (memWf_takeBeacon h _ _)
  | livenessTimeout => exact keepsWf_next (memWf_ite (memWf_fenceDie h _) h)
  | deadlineRefresh => exact keepsWf_next (memWf_ite (memWf_refreshNow h _ _) h)
  | asinvDone => exact keepsWf_next (memWf_ite ((memWf_setDist _).2 ((memWf_setReg _ _).2 h)) h)
  | clockSkipTimeout => exact keepsWf_next (memWf_ite (memWf_skipClock h _) h)
  | transitionWindowEnd => exact keepsWf_next (memWf_ite (memWf_endWindow h _) h)
  | refreshCheck => exact keepsWf_next (memWf_checkRefresh h _ _)
  | freezeBegin => exact keepsWf_next (memWf_beginFreeze h _)
  | forcedRefreshStart => exact keepsWf_next (memWf_startForced h _)
  | freezeEnd => exact keepsWf_next (memWf_endFreeze h _)
  | seqCommandStart => exact keepsWf_next (memWf_startNext h _)
  | seqCommandComplete => exact keepsWf_next (memWf_completeNext h _)
  | transferSend => exact keepsWf_next (memWf_sendNext h _)
  | drdStripLanding => exact keepsWf_next (memWf_landStrip h _)
  | farRequestArrival => exact keepsWf_execFarRequestArrival h _
  | nodeAcknowledgement => exact keepsWf_execNodeAcknowledgement h _ _ _
  | cutTaken => exact keepsWf_execCutTaken h _
  | cutcmdPreempt => exact keepsWf_execCutcmdPreempt h _ _
  | hostWindowCompletion => exact keepsWf_execHostWindowCompletion h _ _ _
  | farSlot => exact keepsWf_next (memWf_serveSlot h _)
  | rdcBlockAccept => exact keepsWf_next (memWf_acceptBlock h _)
  | reductionStrip => exact keepsWf_next (memWf_reduceStrip h _)
  | reductionFinish => exact keepsWf_next (memWf_finishBlock h _)
  | addressPieceSend => exact keepsWf_next (memWf_sendNextPiece h _ _)
  | addressPieceReply => exact keepsWf_next (memWf_replyPiece h _)
  | pageWalk => exact keepsWf_next (memWf_endWalk h _ _)
  | ctxSend => exact keepsWf_next (memWf_sendCtx h _)
  | ctxLanding => exact keepsWf_next (memWf_landCtx (memWf_ctxEmpty h _) _)
  | taskEnd => exact keepsWf_next (memWf_finishTask h _)
  | lqtailWrite => exact keepsWf_next (memWf_writeTail h _ _ _)
  | packetRead => exact keepsWf_next (memWf_readPacket h _ _)
  | lqctlOff | lqctlAbort => exact keepsWf_next (memWf_setQueueState h _ _ _)
  | lqctlRun => exact keepsWf_next (memWf_runQueue h _ _)
  | lqctlDrain => exact keepsWf_next (memWf_settleQueue (memWf_setQueueState h _ _ _) _ _)
  | vfuseWrite | cetailWrite | pcieConventionalReset | rlptrWrite => exact keepsWf_next ((memWf_setReg _ _).2 h)
  | planactWrite => exact keepsWf_next (memWf_writePlanact h _)
  | aelsWrite | telsWrite => exact keepsWf_next (memWf_clearLog h _ _ _ _)
  | mclogWrite => exact keepsWf_next (memWf_writeMclog h _ _ _)
  | asinvWrite => exact keepsWf_next (memWf_writeAsinv h _ _)
  | cebaseWrite => exact keepsWf_next (memWf_writeCebase h _ _)
  | ceJobStart => exact keepsWf_next (memWf_startJob h _)
  | ceJobComplete => exact keepsWf_next (memWf_endJob h _)
  | gangStopRequest => exact keepsWf_next (memWf_requestStop h _)
  | cutcmdResume | cutcmdEnd => exact keepsWf_next (memWf_cutAnswer h _ _ _)
  | rowReopen => exact keepsWf_next (memWf_reopenNext h _)
  | bootctlGo => exact keepsWf_next (memWf_startBoot h _)
  | bootVerificationDone => exact keepsWf_next (memWf_endBoot h)
  | bwinWrite => exact keepsWf_next (memWf_writeBwin h _)
  | attreqWrite => exact keepsWf_next (memWf_writeAttreq h _)
  | attestationReportDone => exact keepsWf_next (memWf_endReport h)
  | thermalThresholdChange => exact keepsWf_next (memWf_feel ((memWf_modDie _ _).2 h) _)
  | stackHotChange => exact keepsWf_next (memWf_turnStack ((memWf_modStack _ _).2 h) _)
  | registerWrite => exact keepsWf_next (memWf_storeReg h _ _)
  | cScratchpadCommandComplete => exact keepsWf_next (memWf_runSpad h _)
  | saRdComplete => exact keepsWf_next (memWf_finishRd h _)

end Sys2Proof.Machine
end

section
/-!
PROOF. One step keeps memory and the row lines in canonical form: what is due on a die, the move of an engine, and the moves of the agenda
(02_program_text R23-R31; 03_stacks_rows R52, R53, R57; 16_ordering R291)
-/

namespace Sys2Proof.Machine

variable {s : State}

/-! ### Searches for work -/

/-- Each state that a search for work finds. -/
def WorkWf (o : Option State) : Prop := ∀ t, o = some t → t.MemWf

theorem workWf_none : WorkWf none := by rintro _ ⟨⟩
theorem workWf_some {t : State} (h : t.MemWf) : WorkWf (some t) := by rintro _ ⟨⟩; exact h
theorem workWf_ite {p : Prop} [Decidable p] {a b : Option State} (ha : WorkWf a) (hb : WorkWf b) : WorkWf (if p then a else b) := by
  split
  · exact ha
  · exact hb
theorem workWf_map {α : Type} {f : α → State} (h : ∀ x, (f x).MemWf) (o : Option α) : WorkWf (o.map f) := by
  cases o with
  | none => exact workWf_none
  | some x => exact workWf_some (h x)
theorem workWf_findSome {α : Type} {f : α → Option State} (h : ∀ x, WorkWf (f x)) (l : List α) : WorkWf (l.findSome? f) := fun t ht =>
  have ⟨x, _, hx⟩ := List.exists_of_findSome?_eq_some ht
  h x t hx
theorem workWf_orElse {a b : Option State} (ha : WorkWf a) (hb : WorkWf b) : WorkWf (a.orElse fun _ => b) := by
  cases a with
  | none => exact hb
  | some t => exact ha
theorem workWf_firstChan {f : Nat → Option State} (h : ∀ p, WorkWf (f p)) (d : Nat) : WorkWf (firstChan d f) := workWf_findSome h _
theorem workWf_firstStack {f : Nat → Option State} (h : ∀ p, WorkWf (f p)) (d : Nat) : WorkWf (firstStack d f) := workWf_findSome h _

/-! ### The work of a die -/

theorem workWf_landWork (h : s.MemWf) (d : Nat) : WorkWf (landWork s d) := by
  unfold landWork
  have hl : WorkWf (firstChan d fun p => (landDueOf s p).map fun _ => landStrip s p) :=
    workWf_firstChan (fun p => workWf_map (fun _ => memWf_landStrip h p) _) d
  split
  · exact workWf_some (hl _ ‹_›)
  · split
    · exact workWf_some (memWf_collide h _)
    · exact workWf_ite (workWf_some (memWf_ctxEmpty h d)) (workWf_ite (workWf_some (memWf_landCtx h d)) workWf_none)

theorem workWf_doneWork (h : s.MemWf) (d : Nat) : WorkWf (doneWork s d) :=
  workWf_firstChan (fun p => workWf_ite (workWf_some (memWf_completeNext h p)) (workWf_ite (workWf_some (memWf_sendNext h p))
    (workWf_ite (workWf_some (memWf_serveSlot h p)) workWf_none))) d

theorem workWf_endWork (h : s.MemWf) (d : Nat) : WorkWf (endWork s d) :=
  workWf_ite (workWf_some (memWf_endFreeze h d)) (workWf_ite (workWf_some (memWf_endWindow h d))
    (workWf_ite (workWf_some (memWf_endPause h d)) (workWf_ite (workWf_some (memWf_closeBeat h d)) workWf_none)))

theorem workWf_refreshWork (h : s.MemWf) (d : Nat) : WorkWf (refreshWork s d) := by
  refine workWf_firstChan (fun p => ?_) d
  split
  · exact workWf_some (memWf_checkRefresh h p _)
  · exact workWf_ite (workWf_some (memWf_startForced h p)) (workWf_map (fun g => memWf_refreshNow h p g) _)

theorem workWf_fabricWork (h : s.MemWf) (d : Nat) : WorkWf (fabricWork s d) := by
  unfold fabricWork
  split
  · exact workWf_some (memWf_takeBeacon h d _)
  · exact workWf_ite (workWf_some (memWf_sendCtx h d)) (workWf_ite (workWf_map (memWf_fenceDie h) _)
      (workWf_ite (workWf_some (memWf_sendBeacons h d)) workWf_none))

theorem workWf_powerWork (h : s.MemWf) (d : Nat) : WorkWf (powerWork s d) :=
  workWf_ite (workWf_some (memWf_skipClock h d)) (workWf_ite (workWf_some (memWf_feel h d))
    (workWf_firstStack (fun k => workWf_map (fun _ => memWf_turnStack h k) _) d))

theorem workWf_pieceWork (h : s.MemWf) (d : Nat) : WorkWf (pieceWork s d) :=
  workWf_firstChan (fun _ => workWf_findSome (fun k => workWf_map (fun id => memWf_sendNextPiece h k id) _) _) d

theorem workWf_startWork (h : s.MemWf) (d : Nat) : WorkWf (startWork s d) := by
  unfold startWork
  have hc : WorkWf (firstChan d fun p =>
      if (startDue s p).isSome then some (startNext s p)
      else if (reopenDue s p).isSome then some (reopenNext s p)
      else if (slotNow s p).isSome then some (serveSlot s p)
      else none) :=
    workWf_firstChan (fun p => workWf_ite (workWf_some (memWf_startNext h p)) (workWf_ite (workWf_some (memWf_reopenNext h p))
      (workWf_ite (workWf_some (memWf_serveSlot h p)) workWf_none))) d
  split
  · exact workWf_some (hc _ ‹_›)
  · exact workWf_firstStack (fun k => workWf_ite (workWf_some (memWf_reduceStrip h k))
      (workWf_ite (workWf_some (memWf_finishBlock h k)) workWf_none)) d

theorem workWf_stopWork (h : s.MemWf) (d : Nat) : WorkWf (stopWork s d) :=
  workWf_findSome (fun _ => workWf_ite workWf_none (workWf_ite workWf_none (workWf_map (memWf_requestStop h) _))) _

theorem workWf_dieWork (h : s.MemWf) (d : Nat) : WorkWf (dieWork s d) :=
  workWf_orElse (workWf_landWork h d) <| workWf_orElse (workWf_doneWork h d) <| workWf_orElse (workWf_endWork h d) <|
    workWf_orElse (workWf_refreshWork h d) <| workWf_ite (workWf_some (memWf_beginFreeze h d)) <|
    workWf_orElse (workWf_fabricWork h d) <| workWf_orElse (workWf_powerWork h d) <| workWf_orElse (workWf_startWork h d) <|
    workWf_orElse (workWf_pieceWork h d) (workWf_stopWork h d)

/-! ### Time -/

theorem memWf_elapseDie (h : s.MemWf) (d : Nat) : (elapseDie s d).MemWf := by
  unfold elapseDie
  have hw := workWf_dieWork h (nextDie s d)
  refine memWf_ite h ?_
  dsimp only
  split
  · exact hw _ ‹_›
  · exact memWf_halfTick h _

/-! ### Moves -/

theorem keepsWf_runDecoded (h : s.MemWf) (core bank : Nat) (e : Eng) (left : Nat) (d : Decoded) :
    KeepsWf (runDecoded s core bank e left d) := by
  cases d with
  | ok ch i n =>
    have hc : (setCur s core bank e ch n).MemWf := memWf_setCur h _ _ _ _ _
    exact keepsWf_ite (keepsWf_next (memWf_trap hc 0)) (keepsWf_exec hc i)
  | bad src c => exact keepsWf_next (memWf_trap h _)
  | cut => exact keepsWf_next (memWf_trap h _)

theorem keepsWf_runHeader (h : s.MemWf) (w : Nat) : KeepsWf (runHeader w s) := by
  unfold runHeader
  split
  · exact keepsWf_ite (keepsWf_next (memWf_trap h _)) (keepsWf_ite (keepsWf_next (memWf_trap h _)) (keepsWf_exec h _))
  · exact keepsWf_next (memWf_trap h _)

theorem keepsWf_bodyMove (h : s.MemWf) (core bank : Nat) (e : Eng) : KeepsWf (bodyMove s core bank e) := by
  have hc : (setCur s core bank e {} 0).MemWf := memWf_setCur h core bank e {} 0
  refine keepsWf_ite (keepsWf_next (memWf_passEnd hc _ _)) ?_
  let x := s.eng (tkey core bank) e
  have hg := memWf_gather (tkey core bank) e ((x.body + 2 * x.len - x.pc) / 2) x.pc hc
  split
  · rename_i u hs hu
    exact keepsWf_runDecoded (by simpa [x, hu] using hg) _ _ _ _ _
  · rename_i u f _ hu
    exact keepsWf_next (memWf_fetchFailed (by simpa [x, hu] using hg) f)

theorem keepsWf_headerMove (h : s.MemWf) (core bank : Nat) (e : Eng) : KeepsWf (headerMove s core bank e) := by
  have hc : ((setCur s core bank e {} 2).modEng (tkey core bank) e fun x => { x with text := none }).MemWf :=
    memWf_setCur h core bank e {} 2
  unfold headerMove
  grind [memWf_textHalf, keepsWf_next, keepsWf_runHeader, memWf_fetchFailed]

theorem keepsWf_phaseMove (h : s.MemWf) (core bank : Nat) (e : Eng) : KeepsWf (phaseMove s core bank e) := by
  have hv : (if e = .v then cycleV s (tkey core bank) else s).MemWf := memWf_ite (memWf_cycleV h _) h
  unfold phaseMove
  dsimp only
  cases (s.eng (tkey core bank) e).phase with
  | idle => exact keepsWf_next hv
  | header => exact keepsWf_headerMove h _ _ _
  | count => exact keepsWf_next (memWf_popCount h _ _)
  | body => exact keepsWf_bodyMove h _ _ _
  | path => exact keepsWf_ite (keepsWf_next (memWf_tryEmit h _)) (keepsWf_next (memWf_takeRecord hv _ _))

theorem keepsWf_matrixMove (h : s.MemWf) (core bank : Nat) (r : MRun) : KeepsWf (matrixMove s core bank r) := by
  grind [matrixMove, memWf_matrixWalks, keepsWf_phaseMove, keepsWf_next, memWf_nestMove]

theorem keepsWf_runEngine (h : s.MemWf) (core bank : Nat) (e : Eng) : KeepsWf (runEngine s core bank e) := by
  unfold runEngine
  refine keepsWf_ite (keepsWf_next h) ?_
  split
  · exact keepsWf_matrixMove h _ _ _
  · exact keepsWf_next (memWf_ite (memWf_finishRd h _) (memWf_windowStep h _))
  · split
    · exact keepsWf_next (memWf_returnLoad h _)
    · exact keepsWf_next (memWf_wakeFence h _)
    · exact keepsWf_next (memWf_wakeBarrier h _)
    · exact keepsWf_next (memWf_wakeWaitt h _)
    · exact keepsWf_next (memWf_wakeBeat h _ _)
    · exact keepsWf_phaseMove h _ _ _

theorem keepsWf_prompt (core bank : Nat) : ∀ (l : List Eng) {s : State}, s.MemWf → KeepsWf (prompt core bank l s)
  | [], _, h => keepsWf_next (memWf_starve h _)
  | e :: r, s, h => by
    have he := keepsWf_runEngine h core bank e
    unfold prompt
    split
    · exact keepsWf_prompt core bank r (he _ ‹_›)
    · exact he

theorem keepsWf_settle (core bank : Nat) {r : Result} (h : KeepsWf r) : KeepsWf (settle core bank r) := by
  cases r with
  | next t => exact keepsWf_prompt core bank _ (h t rfl)
  | fault f => exact h
  | refused f => exact h

theorem keepsWf_performEvent (h : s.MemWf) (i : Instr) : KeepsWf (performEvent i s) := by
  unfold performEvent
  split
  · exact keepsWf_settle _ _ (keepsWf_exec h i)
  · exact keepsWf_exec h i

theorem keepsWf_performMove (h : s.MemWf) (m : Move) : KeepsWf (performMove s m) := by
  cases m with
  | run core bank e => exact keepsWf_ite (keepsWf_settle _ _ (keepsWf_runEngine h _ _ _)) (keepsWf_next h)
  | event i => exact keepsWf_ite (keepsWf_performEvent h i) (keepsWf_next h)
  | elapse d => exact keepsWf_next (memWf_elapseDie h d)
  | cellFault strip syms syn flips => exact keepsWf_next h
  | busFault p fails => exact keepsWf_next (memWf_modChan h _ _ rfl)
  | dieFault d => exact keepsWf_next h

theorem keepsWf_step (h : s.MemWf) : KeepsWf (step s) := by
  unfold step nextMove
  split
  · rename_i m r _
    exact keepsWf_performMove (s := { s with agenda := r }) h m
  · exact keepsWf_performMove (s := { s with moves := s.moves + 1 }) h _

/-- Settles O59: each move of the agenda or of the environment keeps the canonical form. -/
theorem memoryInvariant : Obligations.MemoryInvariant := by
  unfold Obligations.MemoryInvariant
  exact fun _ t h ht => keepsWf_step h t ht

end Sys2Proof.Machine
end

section
/-!
SUPPORT. The channel sequencer (04_beats R72-R77, 06_vertical_bus R103-R114, 05_vertical_bus R90-R94, R382-R384): what is due, the causes at
a start in their order, and what each kind of command, each end of a send and each landing leaves.
-/

namespace Sys2Proof.Machine

variable {s : State} {p : Nat} {c : Cmd} {r : RunCmd}

/-! ### What is due to start -/

theorem mayStart_iff {d : Nat} : mayStart s d = true ↔ (s.die d).freeze = none ∧ (s.die d).pause = none ∧ freezeDue s d = none := by
  simp [mayStart, counting, and_assoc]

theorem startDue_halted (h : mayStart s (dieOf p) = false) : startDue s p = none := by
  simp [startDue, h]

theorem startDue_single (h : mayStart s (dieOf p) = true) (hc : (s.chan p).cmds = [c]) :
    startDue s p = if c.plan.beat = (s.die (dieOf p)).beat ∧ 2 * (c.plan.off + (s.chan p).debt) ≤ (s.die (dieOf p)).off2
      then some c else none := by
  simp [startDue, h, hc, nextCmd]

/-! ### The checks at a start, and what a start leaves -/

/-- The state that a command meets at its start: it has left the queue. -/
def takenCmd (s : State) (p : Nat) (c : Cmd) : State := s.modChan p fun ch => { ch with cmds := ch.cmds.erase c }

@[simp] theorem takenCmd_debt : ((takenCmd s p c).chan p).debt = (s.chan p).debt := by simp [takenCmd]
@[simp] theorem takenCmd_slotAt (x : Nat) : slotAt (takenCmd s p c) p x = slotAt s p x := by simp [takenCmd, slotAt]

theorem startNext_none (h : startDue s p = none) : startNext s p = s := by simp [startNext, h]

theorem startNext_faults {code : Nat} (h : startDue s p = some c) (hc : startCause (takenCmd s p c) p c = some code) :
    startNext s p = seqRaise (takenCmd s p c) p c.bank code [c] := by
  unfold takenCmd at *; simp [startNext, h, hc]

theorem startNext_begins (h : startDue s p = some c) (hc : startCause (takenCmd s p c) p c = none) :
    startNext s p = beginCmd (takenCmd s p c) p c := by
  unfold takenCmd at *; simp [startNext, h, hc]

/-- The point at which a command starts: its planned start delayed by the debt of the beat (R77). -/
def startPoint (s : State) (p : Nat) (c : Cmd) : Point := ⟨c.plan.beat, c.plan.off + (s.chan p).debt⟩

/-- The point to which a command that starts now uses its row lines, and a transfer the bus. -/
def usePoint (s : State) (p : Nat) (c : Cmd) : Point :=
  ⟨c.plan.beat, c.plan.off + (s.chan p).debt + useTicks (decide (1 ≤ foldOf s p)) c.kind⟩

/-- The row lines that a command uses have noted its use. -/
def notedUses (s : State) (p : Nat) (c : Cmd) : State := (usesOf c.kind).foldl (fun v x => noteUse v p x (usePoint s p c)) s

/-- A command as it starts, without what a transfer adds. -/
def startedRun (s : State) (p : Nat) (c : Cmd) : RunCmd :=
  let folded := decide (1 ≤ foldOf s p)
  let now2 := (s.die (dieOf p)).tick2
  { cmd := c, start := startPoint s p c, from2 := now2, folded := folded, done2 := some (now2 + 2 * planTicks folded c.kind) }

/-- A transfer of n strips as it starts: it completes only after a send that passes (R382). -/
def startedTransfer (s : State) (p : Nat) (c : Cmd) (n : Nat) (m : Mem) (good : List Nat) (row : Nat) : RunCmd :=
  { startedRun s p c with done2 := none, strips := m, good := good, row := row,
                          end2 := (s.die (dieOf p)).tick2 + 2 * busTicks (decide (1 ≤ foldOf s p)) n }

/-- The sequencer holds the started command: the last step of every start from state s, where v holds the effect of the command. -/
def joinRuns (s : State) (p : Nat) (c : Cmd) (run : RunCmd) (n : Nat) (v : State) : State :=
  v.modChan p fun ch =>
    { ch with runs := ch.runs ++ [run]
              hist := noteStart ch.hist c.kind (startPoint s p c) (usePoint s p c)
                ⟨c.plan.beat, c.plan.off + (s.chan p).debt + planTicks (decide (1 ≤ foldOf s p)) c.kind⟩
              debt := if foldOf s p = 1 then ch.debt + (n - (n + 1) / 2) else ch.debt }

theorem beginCmd_opn {x row : Nat} {w : Bool} (h : c.kind = .opn x row w) :
    beginCmd s p c = joinRuns s p c (startedRun s p c) 0 (openRow s p x row w false (startPoint s p c)) := by
  cases c; cases h; rfl

theorem beginCmd_opnw {x row : Nat} {w : Bool} (h : c.kind = .opnw x row w) :
    beginCmd s p c = joinRuns s p c (startedRun s p c) 0
      ((wholeSlot x).foldl (fun v y => openRow v p y row w true (startPoint s p c)) s) := by
  cases c; cases h; rfl

/-- The hold of a row line that holds a row. -/
theorem beginCmd_hold {x : Nat} {l : SlotSt} (h : c.kind = .hold x) (hl : slotAt s p x = some l) :
    beginCmd s p c = joinRuns s p c (startedRun s p c) 0 (s.modChan p fun ch =>
      { ch with slots := Sparse.wr none ch.slots x (some { l with held := true }) }) := by
  have hs : (s.modChan p fun ch => { ch with slots := Sparse.wr none ch.slots x (some { l with held := true }) })
      = s.modChan p fun ch => { ch with slots := match Sparse.rd none ch.slots x with
        | some l => Sparse.wr none ch.slots x (some { l with held := true })
        | none => ch.slots } := by
    unfold slotAt at hl
    simp only [State.modChan, hl]
  rw [hs]
  cases c; cases h; rfl

theorem beginCmd_rel {x : Nat} (h : c.kind = .rel x) :
    beginCmd s p c = joinRuns s p c (startedRun s p c) 0 (releaseRow s p x (startPoint s p c)) := by
  cases c; cases h; rfl

theorem beginCmd_relw {x : Nat} (h : c.kind = .relw x) :
    beginCmd s p c = joinRuns s p c (startedRun s p c) 0
      ((wholeSlot x).foldl (fun v y => releaseRow v p y (startPoint s p c)) s) := by
  cases c; cases h; rfl

theorem beginCmd_drd {x a j n buf : Nat} (h : c.kind = .drd x a j n buf) :
    let q := readRow (notedUses s p c) p x j n
    beginCmd s p c = joinRuns s p c (startedTransfer s p c n q.2.1 q.2.2 0) n q.1 := by
  cases c; cases h; rfl

theorem beginCmd_dwr {x j n buf : Nat} {data : Mem} (h : c.kind = .dwr x j n buf data) :
    beginCmd s p c = joinRuns s p c
      (startedTransfer s p c n data [] ((slotAt (notedUses s p c) p x).map SlotSt.row |>.getD 0)) n (notedUses s p c) := by
  cases c; cases h; rfl

theorem beginCmd_dref {g : Nat} (h : c.kind = .dref g) :
    beginCmd s p c = joinRuns s p c (startedRun s p c) 0 (refreshNow s p g) := by
  cases c; cases h; rfl

theorem beginCmd_ia {op : IaOp} {bf : Bool} {d a b j n : Nat} (h : c.kind = .ia op bf d a b j n) :
    beginCmd s p c = joinRuns s p c (startedRun s p c) 0 (infuseAll op bf d a b p j n (notedUses s p c)) := by
  cases c; cases h; rfl

/-! ### Completion -/

/-- The state with a command that has completed gone from the sequencer, and its token complete. -/
def completed (s : State) (p : Nat) (r : RunCmd) : State :=
  completeToken (s.modChan p fun ch => { ch with runs := ch.runs.erase r }) (tkey p r.cmd.bank) .c r.cmd.seq

theorem completeNext_none (h : doneDue s p = none) : completeNext s p = s := by simp [completeNext, h]

theorem completeNext_some (h : doneDue s p = some r) : completeNext s p = countTransfer (completed s p r) p r.cmd := by
  simp [completeNext, h, completed]

theorem countTransfer_other (h : isTransfer c.kind = false) : countTransfer s p c = s := by
  unfold countTransfer
  split
  · next hk => simp [isTransfer, hk] at h
  · next hk => simp [isTransfer, hk] at h
  · rfl

theorem countTransfer_drd {x a j n buf : Nat} (h : c.kind = .drd x a j n buf) :
    countTransfer s p c = countBuf s (tkey p c.bank) buf 0 (32 * n) := by simp [countTransfer, h]

theorem countTransfer_dwr {x j n buf : Nat} {data : Mem} (h : c.kind = .dwr x j n buf data) :
    countTransfer s p c = countBuf s (tkey p c.bank) buf 0 (32 * n) := by simp [countTransfer, h]

/-! ### Sends -/

theorem sendNext_none (h : sendDue s p = none) : sendNext s p = s := by simp [sendNext, h]

theorem sendNext_ends (h : sendDue s p = some r) (h2 : r.send2 = none) : sendNext s p = endSend s p r := by
  simp [sendNext, h, h2]

theorem sendNext_begins {at2 : Nat} (h : sendDue s p = some r) (h2 : r.send2 = some at2) : sendNext s p = beginSend s p at2 r := by
  simp [sendNext, h, h2]

theorem foldOrLose_unworn (h : (s.chan p).fails = []) : foldOrLose s p = s := by
  simp [foldOrLose, h, Sparse.rd]

/-- A send to which the environment gives no bad tick, where no lane group had failed before. -/
theorem paritySend_clean (d : Nat) (folded : Bool) (hb : (s.chan p).busFaults = []) (hf : (s.chan p).fails = []) :
    paritySend s p d folded = (s.modChan p fun ch => { ch with busFaults := [], fails := [] }, []) := by
  have hbad : failing folded (halfOf s p) d ((s.chan p).busFaults.headD []) = [] := by simp [hb, failing]
  simp only [paritySend, hbad, List.map_nil]
  rw [foldOrLose_unworn (by simp [hf, countFails_nil])]
  simp [State.modChan, hb, hf, countFails_nil]

/-- The point in half ticks at which the send of r that ends now began. -/
def sendBegan (r : RunCmd) : Nat := r.end2 - 2 * busTicks r.folded (stripsOf r.cmd.kind).1

/-- The landings of the strips of the ticks that passed, where bad holds the failing (tick, group) pairs. -/
def passedLandings (r : RunCmd) (bad : List (Nat × Nat)) : List (Nat × Nat) :=
  if (stripsOf r.cmd.kind).2 then
    (r.good.filter fun i => !(bad.map Prod.fst).contains (if r.folded then i else i / 2)).map fun i =>
      (sendBegan r + landHalf r.folded i, i)
  else []

theorem logTransfer_unfailed (ok : Bool) (h : r.fails = 0) : logTransfer s p r ok = s := by simp [logTransfer, h]

theorem endSend_passes_drd {x a j n buf : Nat} (hk : r.cmd.kind = .drd x a j n buf) (hf : r.fails = 0)
    (hp : (paritySend s p (busTicks r.folded n) r.folded).2 = []) :
    endSend s p r = setRun (paritySend s p (busTicks r.folded n) r.folded).1 p r
      { r with lands := r.lands ++ r.good.map fun i => (r.end2 - 2 * busTicks r.folded n + landHalf r.folded i, i)
               end2 := 0, done2 := some (r.end2 - 2 * busTicks r.folded n + landHalf r.folded (n - 1)) } := by
  simp [endSend, hk, stripsOf, hp, logTransfer_unfailed, hf, setRun]

theorem endSend_passes_dwr {x j n buf : Nat} {data : Mem} (hk : r.cmd.kind = .dwr x j n buf data) (hf : r.fails = 0)
    (hp : (paritySend s p (busTicks r.folded n) r.folded).2 = []) :
    endSend s p r = setRun (putStrips (paritySend s p (busTicks r.folded n) r.folded).1 p (x / 8) r.row j data n) p r
      { r with end2 := 0, done2 := some r.end2 } := by
  simp [endSend, hk, stripsOf, hp, logTransfer_unfailed, hf, setRun]

/-- A transfer after a send that failed: the strips of its good ticks are on their way, and the failure is counted. -/
def failedRun (r : RunCmd) (bad : List (Nat × Nat)) : RunCmd :=
  { r with lands := r.lands ++ passedLandings r bad, fails := r.fails + 1, grp := (bad.getLastD (0, 0)).2 }

/-- The debt of a send of r that failed: the gap before the next send, and what a fold in that send costs (R77, R92). -/
def sendDebt (s u : State) (p : Nat) (r : RunCmd) : Nat :=
  let n := (stripsOf r.cmd.kind).1
  max 16 (busTicks r.folded n) + (if foldOf s p = 0 ∧ foldOf u p = 1 ∧ r.folded = false then n - (n + 1) / 2 else 0)

/-- The point in half ticks at which the send after a failed one begins. -/
def nextSend (r : RunCmd) : Nat := sendBegan r + 2 * max 16 (busTicks r.folded (stripsOf r.cmd.kind).1)

/-- A transfer that waits for its next send, after one that failed and left state u. -/
def retried (u : State) (p : Nat) (r : RunCmd) (bad : List (Nat × Nat)) : RunCmd :=
  { failedRun r bad with end2 := 0, send2 := some (nextSend r), folded := decide (1 ≤ foldOf u p) }

/-- The state after a failed send that left u: the beat owes more. -/
def owed (s u : State) (p : Nat) (r : RunCmd) : State := u.modChan p fun ch => { ch with debt := ch.debt + sendDebt s u p r }

section
variable {u : State} {bad : List (Nat × Nat)}
  (hps : paritySend s p (busTicks r.folded (stripsOf r.cmd.kind).1) r.folded = (u, bad)) (hb : bad ≠ [])
include hps hb

theorem endSend_loses (hl : isLost u p = true) :
    endSend s p r = seqRaise (endTransfer (logTransfer u p (failedRun r bad) false) p (failedRun r bad)) p r.cmd.bank 303 [] := by
  simp only [endSend, hps, if_neg hb, if_pos hl]
  rfl

theorem endSend_delays (hl : isLost u p = false) : endSend s p r =
    if sendOver (owed s u p r) p (nextSend r) (retried u p r bad)
    then setRun (logTransfer (owed s u p r) p (retried u p r bad) false) p r { retried u p r bad with fails := 0 }
    else setRun (owed s u p r) p r (retried u p r bad) := by
  have howed : owed s u p r = u.modChan p fun ch =>
      { ch with debt := ch.debt + Nat.max 16 (busTicks r.folded (stripsOf r.cmd.kind).1)
          + (if (foldOf s p = 0 ∧ foldOf u p = 1) ∧ !r.folded
              then (stripsOf r.cmd.kind).1 - ((stripsOf r.cmd.kind).1 + 1) / 2 else 0) } := by
    simp [owed, sendDebt, Nat.add_assoc, and_assoc]
  rw [howed]
  simp only [endSend, hps, if_neg hb, hl]
  rfl

end

theorem beginSend_over {at2 : Nat} (h : sendOver s p at2 r = true) :
    beginSend s p at2 r = seqRaise (endTransfer (logTransfer s p r false) p r) p r.cmd.bank 252 [] := if_pos h

theorem beginSend_fits {at2 : Nat} (h : sendOver s p at2 r = false) : beginSend s p at2 r =
    setRun s p r { r with send2 := none, end2 := at2 + 2 * busTicks r.folded (stripsOf r.cmd.kind).1 } :=
  if_neg (by simp [h])

/-! ### Landings -/

/-- A transfer with one of its strips landed. -/
def landedRun (r : RunCmd) (x : Nat × Nat) : RunCmd := { r with lands := r.lands.erase x }

/-- Strip x of a drd into the scratchpad at a stands there. -/
def landedStrip (s : State) (p a : Nat) (r : RunCmd) (x : Nat × Nat) : State :=
  s.modCore p fun y => { y with spad := y.spad.putMem (a + 32 * x.2) 32 (Sparse.window r.strips (32 * x.2) 32) }

theorem landStrip_none (h : landDueOf s p = none) : landStrip s p = s := by simp [landStrip, h]

theorem landStrip_drd {x : Nat × Nat} {y a j n buf : Nat} (h : landDueOf s p = some (r, x)) (hk : r.cmd.kind = .drd y a j n buf) :
    landStrip s p = if (landedRun r x).lands = [] ∧ r.end2 = 0 ∧ r.send2 = none ∧ r.done2 = none
      then endTransfer (landedStrip s p a r x) p (landedRun r x) else setRun (landedStrip s p a r x) p r (landedRun r x) := by
  simp [landStrip, h, hk, landedRun, landedStrip]

theorem endTransfer_landed (h : r.lands = []) : endTransfer s p r = s.modChan p fun ch =>
    { ch with runs := ch.runs.filter fun z => !(z.cmd.seq == r.cmd.seq && z.cmd.bank == r.cmd.bank) } := by
  simp [endTransfer, h]

end Sys2Proof.Machine
end

section
/-!
PROOF. The channel sequencer (04_beats R72-R77, 05_vertical_bus R90-R94, 06_vertical_bus R103-R114, R382-R384).
-/

namespace Sys2Proof.Machine

theorem exec_seqCommandStart (pc : Nat) (s : State) : exec (.seqCommandStart pc) s = .next (startNext s pc) := rfl
theorem exec_seqCommandComplete (pc : Nat) (s : State) : exec (.seqCommandComplete pc) s = .next (completeNext s pc) := rfl
theorem exec_transferSend (pc : Nat) (s : State) : exec (.transferSend pc) s = .next (sendNext s pc) := rfl
theorem exec_drdStripLanding (pc : Nat) (s : State) : exec (.drdStripLanding pc) s = .next (landStrip s pc) := rfl

/-- Settles O50, clause by clause from what each operation of the sequencer leaves. -/
theorem sequencerWork : Obligations.SequencerWork := by
  unfold Obligations.SequencerWork
  intro s pc c r p
  extract_lets ch x start u b o fold folded t cause use used run moving begun full out done sends sent begins n load d ps landing failed
    more late next again rest ended
  have hdebt : (u.chan pc).debt = ch.debt := takenCmd_debt
  have ht : startPoint u pc c = t := by simp [startPoint, hdebt, t, b, o]
  have huse : usePoint u pc c = use := by simp only [usePoint, hdebt]; rfl
  have hused : notedUses u pc c = used := by rw [notedUses, huse]
  have hrun : startedRun u pc c = run := by rw [startedRun, ht]; rfl
  have hmoving (n m good row) : startedTransfer u pc c n m good row = moving n m good row := by
    rw [startedTransfer, hrun]; rfl
  have hbegun (run n v) : .next (joinRuns u pc c run n v) = begun run n v := by
    simp only [joinRuns, ht, huse, hdebt]; rfl
  have hcause : startCause u pc c = cause := by
    simp only [startCause, firstCause, hdebt]; rfl
  have hpass (hb : ch.busFaults = []) (hf : ch.fails = []) (m : Nat) : paritySend s pc m r.folded = (sent, []) :=
    paritySend_clean m r.folded hb hf
  have hps : paritySend s pc d r.folded = (ps.1, ps.2) := rfl
  have hstart : start = .next (startNext s pc) := exec_seqCommandStart pc s
  have hsends : sends = .next (sendNext s pc) := exec_transferSend pc s
  simp only [exec_seqCommandComplete, exec_drdStripLanding]
  refine ⟨fun h => ?_, fun h1 h2 h3 hc => ?_, fun h => ?_, fun h => ⟨fun code hcode => ?_, fun hcode => ?_⟩, fun h => ?_,
    fun h => ?_, fun h => ?_, fun h h2 hf hb hg => ?_, fun h h2 hb => ?_, fun at2 h h2 => ?_, fun h => ?_,
    fun line a j n buf h hk => ?_⟩
  -- what is due to start
  · refine startDue_halted (Bool.eq_false_iff.2 fun hm => ?_)
    obtain ⟨h1, h2, h3⟩ := mayStart_iff.1 hm
    exact h.elim (absurd h1) fun h => h.elim (absurd h2) (absurd h3)
  · have hd : startDue s pc = if b = x.beat ∧ 2 * (o + ch.debt) ≤ x.off2 then some c else none :=
      startDue_single (mayStart_iff.2 ⟨h1, h2, h3⟩) hc
    exact ⟨fun h => hd.trans (if_pos h), fun h => hd.trans (if_neg (by omega))⟩
  -- the start of a command
  · rw [hstart, startNext_none h]
  · rw [hstart, startNext_faults h (hcause.trans hcode)]; rfl
  · rw [hstart, startNext_begins h (hcause.trans hcode), show takenCmd s pc c = u from rfl]
    refine ⟨fun line row w hk => ?_, fun slot row w hk => ?_, fun line l hk hl => ?_, fun line hk => ?_, fun slot hk => ?_,
      fun line a j n buf hk => ?_, fun line j n buf data hk => ?_, fun g hk => ?_, fun op bf d a e j n hk => ?_⟩
    · rw [beginCmd_opn hk, hbegun, hrun, ht]; rfl
    · rw [beginCmd_opnw hk, hbegun, hrun, ht]
    · have hu : slotAt u pc line = some l := (takenCmd_slotAt line).trans hl
      rw [beginCmd_hold hk hu, hbegun, hrun]
    · rw [beginCmd_rel hk, hbegun, hrun, ht]
    · rw [beginCmd_relw hk, hbegun, hrun, ht]
    · rw [beginCmd_drd hk, hbegun, hmoving, hused]
    · rw [beginCmd_dwr hk, hbegun, hmoving, hused]
    · rw [beginCmd_dref hk, hbegun, hrun]; rfl
    · rw [beginCmd_ia hk, hbegun, hrun, hused]
  -- its completion
  · rw [completeNext_none h]
  · rw [completeNext_some h, show completed s pc r = done from rfl]
    refine ⟨fun hk => ?_, fun line a j n buf hk => ?_, fun line j n buf data hk => ?_⟩
    · rw [countTransfer_other hk]
    · rw [countTransfer_drd hk]
    · rw [countTransfer_dwr hk]
  -- the end of a send, passing and failed, and the beginning of a further one
  · rw [hsends, sendNext_none h]
  · rw [hsends, sendNext_ends h h2]
    refine ⟨fun line a j n buf hk => ?_, fun line j n buf data hk => ?_⟩
    · rw [endSend_passes_drd hk hf (by rw [hpass hb hg]), hpass hb hg]
    · rw [endSend_passes_dwr hk hf (by rw [hpass hb hg]), hpass hb hg]
  · rw [hsends, sendNext_ends h h2]
    refine ⟨fun hl => ?_, fun hl ho => ?_, fun hl ho => ?_⟩
    · rw [endSend_loses hps hb hl]; rfl
    · exact congrArg Host.Outcome.next ((endSend_delays hps hb hl).trans (if_neg (ne_true_of_eq_false ho)))
    · exact congrArg Host.Outcome.next ((endSend_delays hps hb hl).trans (if_pos ho))
  · rw [hsends, sendNext_begins h h2]
    refine ⟨fun ho => ?_, fun ho => ?_⟩
    · rw [beginSend_over ho]
    · rw [beginSend_fits ho]
  -- the landing of a strip
  · rw [landStrip_none h]
  · rw [landStrip_drd h hk]
    refine ⟨fun he => congrArg Host.Outcome.next (if_neg he), fun he => congrArg Host.Outcome.next ?_⟩
    exact (if_pos he).trans (endTransfer_landed he.1)

end Sys2Proof.Machine
end

section
/-!
SUPPORT. The commands of C that join the queue of the channel sequencer (04_beats R73-R75, 06_access_instructions R100-R114): the place in
the beat, the checks of a row address and of scratchpad bytes, and what the sending of a command comes to.
-/

namespace Sys2Proof.Machine

variable {i : Instr} {s t : State} {kind : CmdKind} {src gp nx : Nat} {rgn : List (Nat × Nat × Nat × Bool)}

/-! ### The place of a command in its beat -/

theorem Walks.placeCmd (hw : Walks s.key s.cur.eng s t) {l : Option (List Word)} (hl : t.myEng = { s.myEng with latched := l })
    (gp nx : Nat) : Machine.placeCmd t gp nx = Machine.placeCmd s gp nx := by
  have hc : t.me.c = s.me.c := hw.me_field (fun x => x.c) fun _ => rfl
  unfold Machine.placeCmd
  rw [hl, hc, hw.cur]

theorem Walks.planOf (hw : Walks s.key s.cur.eng s t) (p : Nat × Nat) : Machine.planOf t p = Machine.planOf s p := by
  unfold Machine.planOf
  rw [hw.die, hw.cur, hw.tbb]

/-- The gap of a command as the statements write it. -/
theorem gapOf_eq (ch : Chain) (gp : Nat) : gapOf ch gp = match ch.gap with | none => gp | some x => 64 * x + gp := by
  unfold gapOf
  cases ch.gap with
  | none => rfl
  | some x => exact congrArg (· + gp) (Nat.mul_comm x 64)

/-- The cursor and the offset of a command as the statements write them (R73). -/
theorem placeCmd_eq (s : State) (gp nx : Nat) : placeCmd s gp nx =
    let gap := match s.cur.ch.gap with | none => gp | some x => 64 * x + gp
    (if nx = 1 then (s.myEng.cursor + 1) % 2 ^ 48 else s.myEng.cursor, if nx = 1 then gap else s.me.c.anchor.getD 0 + gap) := by
  unfold placeCmd
  dsimp only
  rw [← gapOf_eq]
  split <;> rfl

/-! ### Operand checks -/

theorem Walks.windowOf (hw : Walks s.key s.cur.eng s t) : Machine.windowOf t = Machine.windowOf s := by
  funext va
  unfold Machine.windowOf
  rw [hw.me_field (fun x => x.tlb) fun _ => rfl]

section
variable {a : Nat} {body : Nat → Bool → State → State} {l : Leaf}

theorem withRow_unaligned (h : (cv s a).toNat % 2 ^ 14 ≠ 0) : withRow a body s = trap 29 s := by
  unfold withRow
  exact if_pos h

theorem withRow_unmapped (hal : (cv s a).toNat % 2 ^ 14 = 0)
    (h : ∀ l, windowOf s (cv s a).toNat = some l → ¬ (region (l.phys (cv s a).toNat) = .fast ∧ l.phys (cv s a).toNat / 2 ^ 30 = s.cur.core)) :
    withRow a body s = trapAt 200 (cv s a).toNat s := by
  unfold withRow chanOf slice
  dsimp only
  rw [if_neg (not_not.2 hal)]
  cases hw : windowOf s (cv s a).toNat with
  | none => rfl
  | some l => exact if_pos (not_and_or.1 (h l hw))

/-- A row address in a window on the home pseudo-channel: R decides (R101). -/
theorem withRow_mapped (hal : (cv s a).toNat % 2 ^ 14 = 0) (hl : windowOf s (cv s a).toNat = some l)
    (hr : region (l.phys (cv s a).toNat) = .fast) (hc : l.phys (cv s a).toNat / 2 ^ 30 = s.cur.core) :
    withRow a body s = if l.r then body (l.phys (cv s a).toNat / 2 ^ 14 % 2 ^ 16) l.w s else trapAt 199 (cv s a).toNat s := by
  unfold withRow chanOf slice
  dsimp only
  rw [if_neg (not_not.2 hal), hl]
  dsimp only
  rw [if_neg (not_or.2 ⟨not_not.2 hr, not_not.2 hc⟩)]
  cases l.r <;> rfl

end

theorem firstCause_unaligned {v n : Nat} (h : v % 32 ≠ 0) : firstCause (spadChecks s v n 32) = some 29 := by
  simp [spadChecks, firstCause, h]

theorem firstCause_outside {v n : Nat} (h : v % 32 = 0) (ho : ¬ OwnSpad s v n) : firstCause (spadChecks s v n 32) = some 32 := by
  rw [← inShare_iff] at ho
  simp [spadChecks, firstCause, h, ho]

theorem firstCause_inside {v n : Nat} (h : v % 32 = 0) (ho : OwnSpad s v n) : firstCause (spadChecks s v n 32) = none := by
  rw [← inShare_iff] at ho
  simp [spadChecks, firstCause, h, ho]

theorem Walks.spadChecks (hw : Walks s.key s.cur.eng s t) (v n al : Nat) : Machine.spadChecks t v n al = Machine.spadChecks s v n al := by
  unfold Machine.spadChecks
  rw [hw.inShare]

/-- The strips of a transfer as the statements write them (R42, R109). -/
theorem colRange_eq (ch : Chain) : colRange ch =
    (match ch.col with | none => 0 | some c => c / 2 ^ 5 % 2 ^ 5, match ch.col with | none => 32 | some c => c % 2 ^ 5 + 1) := by
  unfold colRange slice
  cases ch.col <;> simp

/-! ### A command that C hands over -/

/-- An instruction that has come to the sending of its command is placed, stays or raises code 250, by its planned start. -/
theorem sendsFrom_of (he : exec i s = .next (sendFrom src kind gp nx rgn t)) (hw : Walks s.key s.cur.eng s t) (hck : CheckerIdle t)
    {l : Option (List Word)} (hl : t.myEng = { s.myEng with latched := l }) : SendsFrom src i s kind gp nx := by
  unfold SendsFrom
  extract_lets gap cursor off now plan stuck
  have hplace : placeCmd t gp nx = (cursor, off) := (hw.placeCmd hl gp nx).trans (placeCmd_eq s gp nx)
  have hplan : planOf t (cursor, off) = plan := hw.planOf _
  have hnow : t.now (dieOf t.cur.core) = now := by rw [hw.now, hw.cur]; rfl
  have hchan : t.chan t.cur.core = s.chan s.cur.core := by rw [hw.chan, hw.cur]
  unfold sendFrom at he
  simp only [hplace, hplan, hnow, hchan, hw.delta] at he
  refine ⟨fun hfree hin => ?_, fun hfree hlate => ?_, fun hstuck => ?_⟩
  · rw [if_neg hfree, if_neg (by omega)] at he
    obtain ⟨u, hu, hwu, -⟩ := exec_declareAs he hck s.key s.cur.eng
    exact acts_of (f := queued src kind cursor off plan) hu (hw.trans hwu) (hw.trans hwu).cur
  · rw [if_neg hfree, if_pos hlate] at he
    exact ⟨_, he, hw.trap 250⟩
  · rw [if_pos hstuck] at he
    exact ⟨_, he, waits_walks hw _⟩

/-- A command without operand checks. -/
theorem sends_of (he : exec i s = .next (issueToken (sendCmd kind gp nx rgn) s)) (h : CanSend s) : Sends i s kind gp nx := by
  obtain ⟨t, ht, hw, hck, l, hl⟩ := exec_token he h
  exact sendsFrom_of ht hw hck hl

/-- An open checks its row address in the order of R101 and R390. -/
theorem opensRow_of {a : Nat} {kind : Nat → Bool → CmdKind}
    (he : exec i s = .next (issueToken (withRow a fun row w => sendCmd (kind row w) gp nx []) s)) (h : CanSend s) :
    OpensRow i s a gp nx kind := by
  obtain ⟨t, ht, hw, hck, x, hx⟩ := exec_token he h
  have hcv : cv t a = cv s a := hw.cv a
  have hcore : t.cur.core = s.cur.core := by rw [hw.cur]
  unfold OpensRow
  extract_lets va win
  have hwin : windowOf t (cv t a).toNat = win := by rw [hw.windowOf, hcv]; rfl
  refine ⟨fun hal => ?_, fun hal hno => ?_, fun l hal hl hr hc => ⟨fun hn => ?_, fun hn => ?_⟩⟩
  · rw [withRow_unaligned (by rwa [hcv])] at ht
    exact ⟨_, ht, hw.trap 29⟩
  · rw [withRow_unmapped (by rwa [hcv]) (by rw [hwin, hcv, hcore]; exact hno), hcv] at ht
    exact ⟨_, ht, hw.trapAt 200 va⟩
  all_goals
    rw [withRow_mapped (by rwa [hcv]) (hwin.trans hl) (by rwa [hcv]) (by rw [hcv, hcore]; exact hc), hcv] at ht
  · rw [if_neg (by simp [hn])] at ht
    exact ⟨_, ht, hw.trapAt 199 va⟩
  · rw [if_pos hn] at ht
    exact sendsFrom_of ht hw hck hx

/-- A command whose one operand is checked is sent where the check passes; f gives what the command carries, which the walk does not change. -/
theorem checkedSend_of {f : State → Nat × CmdKind × List (Nat × Nat × Nat × Bool)} {checks : State → List (Bool × Nat)}
    (he : exec i s = .next (issueToken (fun u => checked (checks u) (sendFrom (f u).1 (f u).2.1 gp nx (f u).2.2) u) s)) (h : CanSend s)
    (hc : ∀ t, Walks s.key s.cur.eng s t → checks t = checks s) (hf : ∀ t, Walks s.key s.cur.eng s t → f t = f s) :
    (∀ code, firstCause (checks s) = some code → Moves i s (trap code s))
    ∧ (firstCause (checks s) = none → SendsFrom (f s).1 i s (f s).2.1 gp nx) := by
  obtain ⟨t, ht, hw, hck, l, hl⟩ := exec_token he h
  rw [hc t hw, hf t hw] at ht
  refine ⟨fun code hcode => ?_, fun hcode => ?_⟩
  · rw [checked_cause hcode] at ht
    exact ⟨_, ht, hw.trap code⟩
  · rw [checked_pass hcode] at ht
    exact sendsFrom_of ht hw hck hl

end Sys2Proof.Machine
end

section
/-!
PROOF. The row commands and the infusions of C (06_access_instructions R100-R114).
-/

namespace Sys2Proof.Machine

variable {s t : State}

/-- What a drd carries: where its strips go, and the command. -/
def drdSent (x a : Nat) (s : State) : Nat × CmdKind × List (Nat × Nat × Nat × Bool) :=
  let j := colRange s.cur.ch
  let v := (cv s a).toNat
  (0, .drd x v j.1 j.2 s.cur.ch.buf, unitRange (spadSpace s.cur.core) v (32 * j.2) true)

/-- What a dwr carries: where its bytes stand, and the command with them. -/
def dwrSent (x a : Nat) (s : State) : Nat × CmdKind × List (Nat × Nat × Nat × Bool) :=
  let j := colRange s.cur.ch
  let v := (cv s a).toNat
  (v, .dwr x j.1 j.2 s.cur.ch.buf (Sparse.window s.myCore.spad v (32 * j.2)), unitRange (spadSpace s.cur.core) v (32 * j.2) false)

/-- The checks of the scratchpad bytes of a transfer (R109). -/
def transferChecks (a : Nat) (s : State) : List (Bool × Nat) := spadChecks s (cv s a).toNat (32 * (colRange s.cur.ch).2) 32

section
variable (hw : Walks s.key s.cur.eng s t) (x a : Nat)
include hw

theorem Walks.drdSent : drdSent x a t = drdSent x a s := by unfold Machine.drdSent; rw [hw.cur, hw.cv]
theorem Walks.dwrSent : dwrSent x a t = dwrSent x a s := by unfold Machine.dwrSent; rw [hw.cur, hw.cv, hw.myCore]
theorem Walks.transferChecks : transferChecks a t = transferChecks a s := by
  unfold Machine.transferChecks; rw [hw.spadChecks, hw.cur, hw.cv]

end

theorem execDrd_eq (x a gp nx : Nat) (s : State) : exec (.drd x a gp nx) s = .next (issueToken (fun u =>
    checked (transferChecks a u) (sendFrom (drdSent x a u).1 (drdSent x a u).2.1 gp nx (drdSent x a u).2.2) u) s) := rfl
theorem execDwr_eq (x a gp nx : Nat) (s : State) : exec (.dwr x a gp nx) s = .next (issueToken (fun u =>
    checked (transferChecks a u) (sendFrom (dwrSent x a u).1 (dwrSent x a u).2.1 gp nx (dwrSent x a u).2.2) u) s) := rfl
theorem execDref_eq (a gp nx : Nat) (s : State) : exec (.dref a gp nx) s = .next (issueToken (fun u =>
    checked [(decide (2 ^ 13 ≤ (cv u a).toNat), 25)] (sendFrom 0 (.dref (cv u a).toNat) gp nx []) u) s) := rfl

/-- Settles O29, instruction by instruction from its operand checks and the sending of its command. -/
theorem rowCommands : Obligations.RowCommands := by
  unfold Obligations.RowCommands
  intro s x a gp nx h v j n
  have hcol : colRange s.cur.ch = (j, n) := colRange_eq _
  have hchecks : transferChecks a s = spadChecks s v (32 * n) 32 := by rw [transferChecks, hcol]
  obtain ⟨hdrd, hdrd'⟩ := checkedSend_of (execDrd_eq x a gp nx s) h (fun _ hw => hw.transferChecks a) fun _ hw => hw.drdSent x a
  obtain ⟨hdwr, hdwr'⟩ := checkedSend_of (execDwr_eq x a gp nx s) h (fun _ hw => hw.transferChecks a) fun _ hw => hw.dwrSent x a
  obtain ⟨hdref, hdref'⟩ := checkedSend_of (f := fun u => (0, .dref (cv u a).toNat, [])) (execDref_eq a gp nx s) h
    (fun _ hw => by rw [hw.cv]) fun _ hw => by rw [hw.cv]
  rw [hchecks] at hdrd hdrd' hdwr hdwr'
  simp only [drdSent, dwrSent, hcol] at hdrd' hdwr'
  refine ⟨opensRow_of rfl h, opensRow_of rfl h, sends_of rfl h, sends_of rfl h, sends_of rfl h, fun hal => ?_, fun hal ho => ?_,
    fun hal ho => ?_, fun hg => ?_, fun hg => ?_⟩
  · exact ⟨hdrd _ (firstCause_unaligned hal), hdwr _ (firstCause_unaligned hal)⟩
  · exact ⟨hdrd _ (firstCause_outside hal ho), hdwr _ (firstCause_outside hal ho)⟩
  · exact ⟨hdrd' (firstCause_inside hal ho), hdwr' (firstCause_inside hal ho)⟩
  · exact hdref 25 (by rw [firstCause, if_pos (by simpa using hg)])
  · exact hdref' (by rw [firstCause, if_neg (by simpa using hg), firstCause])

/-- Settles O30: an infusion has no operand to check. -/
theorem infusions : Obligations.Infusions := by
  unfold Obligations.Infusions
  intro s d a b gp nx sx cx h ia
  exact ⟨sends_of rfl h, sends_of rfl h, sends_of rfl h, sends_of rfl h, sends_of rfl h, sends_of rfl h, sends_of rfl h, sends_of rfl h,
    sends_of rfl h, sends_of rfl h, sends_of rfl h, sends_of rfl h, sends_of rfl h, sends_of rfl h, sends_of rfl h, sends_of rfl h,
    sends_of rfl h, sends_of rfl h, sends_of rfl h, sends_of rfl h, sends_of rfl h, sends_of rfl h, sends_of rfl h, sends_of rfl h⟩

end Sys2Proof.Machine
end

section
/-!
PROOF. What power-up leaves (04_beats R66, R70, 15_conductor R313, 18_translation R330, 20_power R356, 21_host R366, R367).
-/

namespace Sys2Proof.Machine

/-! ### The management registers at power-up -/

/-- Nothing has been written, so that each register reads its power-up value. -/
theorem reg_reset (pa : Nat) : State.reset.reg pa = mgmtReset pa % 2 ^ 64 := by
  simp [State.reg, State.reset, Sparse.rd]

theorem mgmtReset_vfweight {v : Nat} (h : v < 384) : mgmtReset (regVfweight v) = 1 := by
  unfold mgmtReset regVfweight regVfuse regBlim regPlanact
  rw [if_neg (by omega), if_neg (by omega), if_pos (by omega)]

theorem mgmtReset_asinv {v : Nat} (h : v < 384) : mgmtReset (regAsinv v) = 2 ^ 63 := by
  unfold mgmtReset regAsinv regPwlist regVfweight regVfuse regBlim regPlanact
  rw [if_neg (by omega), if_neg (by omega), if_neg (by omega), if_pos (by omega)]

theorem mgmtReset_pwrctl {d : Nat} (h : d < 8) : mgmtReset (regPwrctl d) = 110 * 2 ^ 24 + 100 * 2 ^ 16 + 95 * 2 ^ 8 := by
  unfold mgmtReset regPwrctl regAsinv regPwlist regVfweight regVfuse regBlim regPlanact
  rw [if_neg (by omega), if_neg (by omega), if_neg (by omega), if_neg (by omega), if_pos (by omega)]

/-- The idle plan runs, and its one entry has 1,024 ticks. -/
theorem entry_reset (b : Nat) : State.reset.entry b = State.idleEntry := by
  unfold State.entry
  exact if_pos rfl

/-! ### The statement -/

/-- Settles O60, register by register from its power-up value; the parts that nothing has set are the defaults of their types. -/
theorem powerUpState : Obligations.PowerUpState := by
  unfold Obligations.PowerUpState
  refine ⟨memWf_reset, ?_, fun v hv => ⟨?_, ?_⟩, fun d hd => ?_, ?_, ?_, ?_, rfl, fun b => ?_, fun d => ⟨rfl, rfl⟩, fun k => rfl⟩
  · rw [reg_reset]; decide
  · rw [reg_reset, mgmtReset_vfweight hv]; decide
  · rw [reg_reset, mgmtReset_asinv hv]; decide
  · rw [reg_reset, mgmtReset_pwrctl hd]; decide
  · rw [reg_reset]; decide
  · rw [reg_reset]; decide
  · rw [reg_reset]; decide
  · rw [entry_reset b]; decide

end Sys2Proof.Machine
end

section
/-!
SUPPORT. Which freeze is due on a die, and when the grid may start work there (04_beats R84).
-/

namespace Sys2Proof.Machine

variable {s : State} {d : Nat} {f : Freeze}

/-- The point of freeze f has come on die d, where it has not begun. -/
def freezeReached (s : State) (d : Nat) (f : Freeze) : Prop :=
  d ∉ f.begun ∧ (f.at_.beat < (s.die d).beat ∨ (f.at_.beat = (s.die d).beat ∧ 2 * f.at_.off ≤ (s.die d).off2))

/-- The points of the grid in their order. -/
def Point.place (x : Point) : Nat ×ₗ Nat := toLex (x.beat, x.off)

theorem Point.before_iff (x y : Point) : x.before y = true ↔ x.place < y.place := by
  simp [Point.before, Point.place, Prod.Lex.toLex_lt_toLex]

/-- Where the offset of die d counts, the freeze that is due is the first of those whose points have come. -/
theorem freezeDue_eq (h : counting (s.die d) = true) : freezeDue s d =
    ((comingFreezes s d).filter fun f => decide (f.at_.beat < (s.die d).beat ∨ (f.at_.beat = (s.die d).beat ∧ 2 * f.at_.off ≤ (s.die d).off2))).argmin
      fun f => f.at_.place := by
  unfold freezeDue List.argmin
  simp only [h, Bool.not_true, Bool.false_eq_true, if_false, List.foldl_filter, decide_eq_true_eq]
  congr 1
  funext m f
  cases m with
  | none => rfl
  | some y => simp only [List.argAux, Point.before_iff]

theorem freezeDue_stopped (h : counting (s.die d) = false) : freezeDue s d = none := by
  simp [freezeDue, h]

theorem mem_reached : f ∈ ((comingFreezes s d).filter fun f =>
    decide (f.at_.beat < (s.die d).beat ∨ (f.at_.beat = (s.die d).beat ∧ 2 * f.at_.off ≤ (s.die d).off2)))
    ↔ f ∈ s.grid.freezes ∧ freezeReached s d f := by
  simp only [comingFreezes, freezeReached, List.mem_filter, decide_eq_true_eq, Bool.not_eq_true', List.contains_eq_mem, decide_eq_false_iff_not, and_assoc]

theorem freezeDue_eq_none : freezeDue s d = none ↔ counting (s.die d) = false ∨ ∀ z ∈ s.grid.freezes, ¬ freezeReached s d z := by
  cases h : counting (s.die d) with
  | false => simp [freezeDue_stopped h]
  | true =>
    rw [freezeDue_eq h, List.argmin_eq_none, List.eq_nil_iff_forall_not_mem]
    simp only [mem_reached, not_and, Bool.true_eq_false, false_or]

/-- The freeze that is due: its point has come, and no other whose point has come stands before it. -/
theorem freezeDue_some (h : freezeDue s d = some f) : counting (s.die d) = true ∧ f ∈ s.grid.freezes ∧ freezeReached s d f
    ∧ ∀ z ∈ s.grid.freezes, freezeReached s d z → z.at_.before f.at_ = false := by
  cases hc : counting (s.die d) with
  | false => rw [freezeDue_stopped hc] at h; cases h
  | true =>
    rw [freezeDue_eq hc] at h
    obtain ⟨hf, hr⟩ := mem_reached.1 (List.argmin_mem h)
    refine ⟨rfl, hf, hr, fun z hz hzr => Bool.eq_false_iff.2 fun hb => ?_⟩
    exact List.not_lt_of_mem_argmin (mem_reached.2 ⟨hz, hzr⟩) h ((Point.before_iff _ _).1 hb)

/-- The offset of die d counts, and no announced freeze has come to its point there. -/
theorem mayStart_iff_free : mayStart s d = true ↔ counting (s.die d) = true ∧ ∀ z ∈ s.grid.freezes, ¬ freezeReached s d z := by
  unfold mayStart
  rw [Bool.and_eq_true, Option.isNone_iff_eq_none, freezeDue_eq_none]
  cases counting (s.die d) <;> simp

end Sys2Proof.Machine
end

section
/-!
SUPPORT. Timed transfers (08_dies_time R145-R149, 07_scratchpad R120): the operand checks of ctx, the transfer that is due to be sent, and
the strip that is due to land.
-/

namespace Sys2Proof.Machine

variable {s t : State} {d : Nat} {c : CtxCmd} {i : Nat}

/-! ### Sending -/

/-- A transfer is due to be sent: its planned start has come. -/
def CtxReady (x : Die) (y : CtxCmd) : Prop :=
  y.sent2 = none ∧ (y.plan.beat < x.beat ∨ (y.plan.beat = x.beat ∧ 2 * y.plan.off ≤ x.off2))

theorem ctxDue_stopped (h : mayStart s d = false) : ctxDue s d = none := by simp [ctxDue, h]

theorem ctxDue_eq_none (h : ∀ y ∈ (s.die d).ctx, ¬ CtxReady (s.die d) y) : ctxDue s d = none := by
  unfold ctxDue
  dsimp only
  split
  · rfl
  · refine List.find?_eq_none.2 fun y hy hr => h y hy ?_
    simpa [CtxReady, Option.isNone_iff_eq_none] using hr

theorem ctxDue_eq_some {pre post : List CtxCmd} (hm : mayStart s d = true) (hz : (s.die d).ctx = pre ++ c :: post)
    (hpre : ∀ y ∈ pre, ¬ CtxReady (s.die d) y) (hc : CtxReady (s.die d) c) : ctxDue s d = some c := by
  unfold ctxDue
  dsimp only
  rw [if_neg (by simp [hm]), hz, List.find?_append, List.find?_eq_none.2, List.find?_cons_of_pos]
  · rfl
  · simpa [CtxReady, Option.isNone_iff_eq_none] using hc
  · intro y hy hr
    exact hpre y hy (by simpa [CtxReady, Option.isNone_iff_eq_none] using hr)

theorem sendCtx_none (h : ctxDue s d = none) : sendCtx s d = s := by simp [sendCtx, h]

theorem sendCtx_late (h : ctxDue s d = some c) (hb : c.plan.beat < (s.die d).beat) : sendCtx s d =
    collided (s.modDie d fun x => { x with ctx := x.ctx.erase c, ctxAgain := x.ctxAgain ++ [c] }) c := by
  simp [sendCtx, h, hb]

theorem sendCtx_sends (h : ctxDue s d = some c) (hb : c.plan.beat = (s.die d).beat) : sendCtx s d =
    setCtx s c { c with sent2 := some (s.die d).tick2, strips := List.range c.n } := by
  simp [sendCtx, h, hb]

/-! ### Landing -/

theorem foldl_min_spec {α : Type} (f : α → Nat) (l : List α) (x : α) :
    let r := l.foldl (fun m y => if f y < f m then y else m) x
    r ∈ x :: l ∧ ∀ z ∈ x :: l, f r ≤ f z := by
  induction l generalizing x with
  | nil => simp
  | cons y r ih =>
    obtain ⟨h1, h2⟩ := ih (if f y < f x then y else x)
    rw [List.foldl_cons]
    refine ⟨?_, fun z hz => ?_⟩
    · rcases List.mem_cons.1 h1 with h | h
      · rw [h]; split <;> simp
      · exact List.mem_cons_of_mem _ (List.mem_cons_of_mem _ h)
    · have hx := h2 _ (List.mem_cons_self ..)
      rcases List.mem_cons.1 hz with rfl | hz
      · refine hx.trans ?_; split <;> omega
      · rcases List.mem_cons.1 hz with rfl | hz
        · refine hx.trans ?_; split <;> omega
        · exact h2 z (List.mem_cons_of_mem _ hz)

theorem mem_landingCtx {x : CtxCmd × Nat} : x ∈ landingCtx s d ↔ x.1 ∈ (s.die d).ctx ∧ stripLands s x.1 = some x.2 := by
  obtain ⟨c, i⟩ := x
  simp [landingCtx]

theorem ctxLandDue_eq_none : ctxLandDue s d = none ↔ ∀ y ∈ (s.die d).ctx, stripLands s y = none := by
  unfold ctxLandDue
  simp [landingCtx]

/-- The strip that lands next: it is due, and none due for its core has a sender of lower number (R120). -/
theorem ctxLandDue_some (h : ctxLandDue s d = some (c, i)) : stripLands s c = some i
    ∧ ∀ e < 8, ∀ y ∈ (s.die e).ctx, y.dcore = c.dcore → stripLands s y ≠ none → c.core ≤ y.core := by
  unfold ctxLandDue at h
  obtain ⟨x, hx, hfold⟩ := Option.map_eq_some_iff.1 h
  have hx' : x ∈ landingCtx s d := List.mem_of_mem_head? hx
  obtain ⟨hmem, hmin⟩ := foldl_min_spec (fun y : CtxCmd × Nat => y.1.core)
    (((List.range 8).flatMap (landingCtx s)).filter fun y => y.1.dcore == x.1.dcore) x
  rw [hfold] at hmem hmin
  have hc : stripLands s c = some i ∧ c.dcore = x.1.dcore := by
    rcases List.mem_cons.1 hmem with hm | hm
    · rw [← hm] at hx' ⊢
      exact ⟨(mem_landingCtx.1 hx').2, rfl⟩
    · obtain ⟨hm, hd⟩ := List.mem_filter.1 hm
      obtain ⟨e, -, he⟩ := List.mem_flatMap.1 hm
      exact ⟨(mem_landingCtx.1 he).2, by simpa using hd⟩
  refine ⟨hc.1, fun e he y hy hd hl => ?_⟩
  obtain ⟨j, hj⟩ := Option.ne_none_iff_exists'.1 hl
  exact hmin (y, j) (List.mem_cons_of_mem _ (List.mem_filter.2 ⟨List.mem_flatMap.2 ⟨e, List.mem_range.2 he,
    mem_landingCtx.2 ⟨hy, hj⟩⟩, by simpa using hd.trans hc.2⟩))

theorem landCtx_none (h : ctxLandDue s d = none) : landCtx s d = s := by simp [landCtx, h]

theorem landCtx_waits (h : ctxLandDue s d = some (c, i)) (hl : landDueOf s c.dcore ≠ none) : landCtx s d = landStrip s c.dcore := by
  simp [landCtx, h, Option.isSome_iff_ne_none.2 hl]

/-- The state with strip i of transfer c in the scratchpad of its destination. -/
def landedCtx (s : State) (c : CtxCmd) (i : Nat) : State :=
  s.modCore c.dcore fun y => { y with spad := y.spad.putMem (c.daddr + 32 * i) 32 (Sparse.window c.data (32 * i) 32) }

theorem landCtx_last (h : ctxLandDue s d = some (c, i)) (hl : landDueOf s c.dcore = none) (hr : c.strips.erase i = []) (hc : c.cut = []) :
    landCtx s d = completeToken ((landedCtx s c i).modDie (dieOf c.core) fun x => { x with ctx := x.ctx.erase c }) (tkey c.core c.bank) .c c.seq := by
  simp [landCtx, h, hl, hr, hc, landedCtx]

theorem landCtx_more (h : ctxLandDue s d = some (c, i)) (hl : landDueOf s c.dcore = none) (hr : c.strips.erase i ≠ [] ∨ c.cut ≠ []) :
    landCtx s d = setCtx (landedCtx s c i) c { c with strips := c.strips.erase i } := by
  simp only [landCtx, h, hl]
  rw [if_neg (by simp), if_pos hr]
  rfl

end Sys2Proof.Machine
end

section
/-!
PROOF. Timed transfers (08_dies_time R145-R149).
-/

namespace Sys2Proof.Machine

variable {s t : State}

/-- Scratchpad bytes that a command reaches, as the model computes their core and address (R121). -/
theorem reach_of_reaches {x n core at_ : Nat} (h : Reaches s x n core at_) : reach s x n = some (core, at_) := by
  unfold reach
  rcases h with ⟨hx, hown, hc, ha⟩ | ⟨hx, g, k, hg, hk, hc, ha, hshare⟩
  · have hin : inShare s x n = true := (inShare_iff s x n).2 hown
    rw [if_pos (by omega), if_pos hin, hc, ha]
  · rw [if_neg (by omega), if_neg (by omega)]
    dsimp only
    rw [hg]
    dsimp only
    rw [show (0x200000 : Nat) = 2 ^ 21 by norm_num, hk]
    dsimp only
    rw [← ha, ← hc, if_pos]
    unfold spadShare
    dsimp only at hshare
    split
    · next hb => rw [if_pos hb] at hshare; exact ⟨Nat.zero_le _, hshare⟩
    · next hb => rw [if_neg hb] at hshare; exact hshare

theorem setCtx_eq {old new : CtxCmd} {d : Nat} (h : dieOf old.core = d) : setCtx s old new =
    s.modDie d fun x => { x with ctx := x.ctx.map fun t => if t = old then new else t } := by
  subst h
  rfl

theorem exec_ctxSend (die : Nat) (s : State) : exec (.ctxSend die) s = .next (sendCtx s die) := rfl
theorem exec_ctxLanding (die : Nat) (s : State) : exec (.ctxLanding die) s = .next (landCtx (ctxEmpty s die) die) := rfl

/-- Settles O46, the issue of ctx from its checks and its place in the beat, its sends and its landings from what is due. -/
theorem timedTransfers : Obligations.TimedTransfers := by
  unfold Obligations.TimedTransfers
  intro s d x lx gp nx dc da die i c
  extract_lets src len gap cursor off own plan sends z counts due u arrives rest lands
  have hcounts : counts ↔ mayStart s die = true := by
    rw [mayStart_iff_free, counting_iff, and_assoc]
    refine and_congr Iff.rfl (and_congr Iff.rfl (forall₂_congr fun f _ => ?_))
    rw [freezeReached, not_and]
    exact imp_congr Iff.rfl (by simp only [z]; omega)
  have harr : arrives = stripLands u := rfl
  refine ⟨fun h h1 h2 h3 h4 h5 h6 h7 h8 h9 => ?_, fun h => ?_, fun pre post hc hz hpre hdue hdie => ⟨fun hb => ?_, fun hb => ?_⟩, ?_, fun h => ?_, ?_,
    fun h => ⟨?_, ?_, fun hl => ?_, fun hl => ⟨fun hr hcut => ?_, fun hr => ?_⟩⟩⟩
  · obtain ⟨t, ht, hw, hck, l, hl⟩ := exec_token (i := .ctx d x lx gp nx) (s := s) rfl h
    have hsane : (if len < 32 ∨ 4096 < len ∨ len % 32 ≠ 0 then 32 else len) = len := if_neg (by omega)
    have hfar : (dieOf dc != dieOf s.cur.core) = true := by simpa [dieOf] using h7
    have hplace : placeCmd t gp nx = (cursor, off) := (hw.placeCmd hl gp nx).trans (placeCmd_eq s gp nx)
    have hplan : planOf t (cursor, off) = plan := hw.planOf _
    have hpass : firstCause ([(decide ((cv s d).toNat % 32 ≠ 0), 29), (!true, 32)] ++ spadChecks s src len 32
        ++ [(decide (len < 32) || decide (4096 < len), 25), (decide (len % 32 ≠ 0), 29)]) = none := by
      rw [firstCause_append, firstCause_append, firstCause_inside h8 h9]
      simp [firstCause, h4, h3]
      omega
    have hlen : (if lx = 0 then 32 else (cv s lx).toNat) = len := rfl
    have hown : dieOf s.cur.core = own := rfl
    simp only [hw.cv, hw.reach, hw.spadChecks, hw.cur, hlen, hsane, if_neg (not_lt.2 h5), reach_of_reaches h6, hfar] at ht
    rw [checked_pass hpass] at ht
    simp only [hw.cur, hplace, hplan, hw.now, hw.delta, hown] at ht
    refine ⟨fun hlate => ?_, fun hin => ?_⟩
    · rw [if_pos hlate] at ht
      exact ⟨_, ht, hw.trap 322⟩
    · rw [if_neg (Nat.not_lt.2 hin)] at ht
      obtain ⟨v, hv, hwv, -⟩ := exec_declareAs ht hck s.key s.cur.eng
      have hwv := hw.trans hwv
      have hcur : (setPlace (newToken v).2 cursor off).cur = s.cur := hwv.cur
      have hcore : (setPlace (newToken v).2 cursor off).myCore = s.myCore := hwv.myCore
      rw [hcur, hcore] at hv
      exact acts_of (f := sends) hv hwv hwv.cur
  · rw [exec_ctxSend, sendCtx_none]
    rcases h with h | h
    · exact ctxDue_stopped (by simpa [hcounts] using h)
    · exact ctxDue_eq_none h
  · rw [exec_ctxSend, sendCtx_late (ctxDue_eq_some (hcounts.1 hc) hz hpre hdue) hb]
    rfl
  · rw [exec_ctxSend, sendCtx_sends (ctxDue_eq_some (hcounts.1 hc) hz hpre hdue) hb, setCtx_eq hdie]
    rfl
  · rfl
  · rw [exec_ctxLanding, landCtx_none h]
  · rw [harr]
    exact ctxLandDue_eq_none
  · rw [harr]
    exact (ctxLandDue_some h).1
  · rw [harr]
    exact (ctxLandDue_some h).2
  · rw [exec_ctxLanding, landCtx_waits h hl]
  · rw [exec_ctxLanding, landCtx_last h hl hr hcut]
    rfl
  · rw [exec_ctxLanding, landCtx_more h hl hr]
    rfl

end Sys2Proof.Machine
end

section
/-!
SUPPORT. The pieces of address commands of C (07_copy_paths R124-R129, R131): what their translation admits, how the next piece leaves, and
when the command completes.
-/

namespace Sys2Proof.Machine

variable {s u v : State} {core bank n : Nat} {c : CCmd} {l : Leaf} {tlb : List Leaf}

/-! ### Translation -/

theorem pieceOf_eq (c : CCmd) : pieceOf c = nextPiece c := by
  unfold pieceOf nextPiece
  rfl

/-- The leaf l does not stand for the placement at va, or is not of the placement that the variant of c asks for (R126). -/
def Misplaced (s : State) (c : CCmd) (l : Leaf) (va : Nat) : Prop := placed s l va = false ∨ (c.elem = false ∧ l.cc ≠ c.pinned)

theorem leafCause_eq (s : State) (c : CCmd) (l : Leaf) (va : Nat) [Decidable (Misplaced s c l va)] :
    leafCause s l va c.store (demand c) = if Misplaced s c l va then some 200 else if (if c.store then l.w else l.r) = true then none else some 199 := by
  unfold leafCause demand
  cases he : c.elem <;> cases hp : placed s l va <;> cases hc : (l.cc != c.pinned) <;> simp_all [Misplaced]

theorem farFull_iff {k : Nat} : farFull s k = true ↔ ∃ q ∈ s.pieces, tkey q.core q.bank = k ∧ (∃ m, q.own = .cCmd m) ∧ q.st = .sent
    ∧ region q.pa = .fast ∧ 64 ≤ (s.chan (chanOf q.pa)).farq.length := by
  unfold farFull
  simp only [List.any_eq_true, Bool.and_eq_true, beq_iff_eq, decide_eq_true_eq, and_assoc]
  refine exists_congr fun q => and_congr Iff.rfl (and_congr Iff.rfl (and_congr ?_ Iff.rfl))
  cases q.own <;> simp

theorem leafOf_pinned (k va : Nat) (h : c.pinned = true) : leafOf s k c va = (s, (s.task k).tlb.pins.find? fun l => l.maps va) := by
  simp [leafOf, h]

theorem leafOf_miss {k va : Nat} (h : c.pinned = false) (hl : lookup (s.task k).tlb.strm va = none) : leafOf s k c va = (s, none) := by
  simp [leafOf, h, hl]

theorem leafOf_hit {k va : Nat} (h : c.pinned = false) (hl : lookup (s.task k).tlb.strm va = some (l, tlb)) :
    leafOf s k c va = (s.modTask k fun x => { x with tlb := { x.tlb with strm := tlb } }, some l) := by
  simp [leafOf, h, hl]

/-! ### The next piece -/

theorem sendNextPiece_gone {k : Nat} (h : findCmd s k n = none) : sendNextPiece s k n = s := by simp [sendNextPiece, h]

/-- A command that has failed, has no piece to send, or whose core has halted sends nothing. -/
theorem sendNextPiece_rests {k : Nat} (h : findCmd s k n = some c)
    (hr : c.failed = true ∨ c.len ≤ c.next ∨ (s.core (k / 2)).halted = true) : sendNextPiece s k n = s := by
  unfold sendNextPiece
  rw [h]
  exact if_pos hr

/-- Command c of task k has a piece to send. -/
def Sending (s : State) (k : Nat) (c : CCmd) : Prop := c.failed = false ∧ c.next < c.len ∧ (s.core (k / 2)).halted = false

theorem Sending.not_rests {k : Nat} (h : Sending s k c) : ¬ (c.failed = true ∨ c.len ≤ c.next ∨ (s.core (k / 2)).halted = true) := by
  obtain ⟨h1, h2, h3⟩ := h
  simp [h1, h2, h3]

theorem sendNextPiece_full {k : Nat} (h : findCmd s k n = some c) (hs : Sending s k c) (hf : farFull s k = true) :
    sendNextPiece s k n = stalled s k c.buf := by
  unfold sendNextPiece
  rw [h]
  exact (if_neg hs.not_rests).trans (if_pos hf)

theorem sendNextPiece_walks {k : Nat} (h : findCmd s k n = some c) (hs : Sending s k c) (hf : farFull s k = false)
    (hl : leafOf s k c (nextPiece c).1 = (u, none)) :
    sendNextPiece s k n = stalled (startWalk u k 1 (nextPiece c).1 false n) k c.buf := by
  unfold sendNextPiece
  rw [h]
  refine (if_neg hs.not_rests).trans ((if_neg (by simp [hf])).trans ?_)
  dsimp only
  rw [pieceOf_eq, hl]
  rfl

/-- The next piece of command c of the task of core and bank, which leaf l translates, before it has a number. -/
def cmdPiece (s : State) (core bank n : Nat) (c : CCmd) (l : Leaf) : Piece :=
  { core := core, bank := bank, die := core / 96, own := .cCmd n, pa := l.phys (nextPiece c).1, len := (nextPiece c).2, wr := c.store
    spad := c.spad + c.next, buf := c.buf
    data := if c.store then (s.core core).spad.rdList (c.spad + c.next) (nextPiece c).2 else [] }

/-- A piece of command n of task k has left and the state is v; the page after is fetched ahead (R126). -/
def pieceSent (s v : State) (k core n : Nat) (c : CCmd) (l : Leaf) : State :=
  fetchAhead (modCmd v k n fun x => { x with next := x.next + (nextPiece c).2, out := x.out + 1, sent2 := (s.die (core / 96)).tick2 }) k c l

section
variable {k : Nat} (h : findCmd s k n = some c) (hs : Sending s k c) (hf : farFull s k = false)
  (hl : leafOf s k c (nextPiece c).1 = (u, some l))
include h hs hf hl

theorem sendNextPiece_fails {code : Nat} (hc : leafCause u l (nextPiece c).1 c.store (demand c) = some code) :
    sendNextPiece s k n = failCommand u k n code (nextPiece c).1 := by
  unfold sendNextPiece
  rw [h]
  refine (if_neg hs.not_rests).trans ((if_neg (by simp [hf])).trans ?_)
  dsimp only
  rw [pieceOf_eq, hl]
  dsimp only
  rw [hc]

section
variable (hk : k / 2 = core)
include hk

/-- An admitted piece is sent, or could not leave, which has raised code 334. -/
theorem sendNextPiece_admitted (hb : k % 2 = bank) (hc : leafCause u l (nextPiece c).1 c.store (demand c) = none) :
    sendNextPiece s k n =
      let r := sendPiece u (cmdPiece u core bank n c l)
      if r.1 = 0 then modCmd r.2 k n fun c => { c with failed := true }
      else fetchAhead (modCmd r.2 k n fun x =>
        { x with next := x.next + (nextPiece c).2, out := x.out + 1, sent2 := (u.die (core / 96)).tick2 }) k c l := by
  subst hk hb
  unfold sendNextPiece
  rw [h]
  refine (if_neg hs.not_rests).trans ((if_neg (by simp [hf])).trans ?_)
  dsimp only
  rw [pieceOf_eq, hl]
  dsimp only
  rw [hc]
  rfl

theorem sendNextPiece_sends {m : Nat} (hb : k % 2 = bank) (hc : leafCause u l (nextPiece c).1 c.store (demand c) = none)
    (hv : sendPiece u (cmdPiece u core bank n c l) = (m + 1, v)) :
    sendNextPiece s k n = pieceSent u v k core n c l := by
  rw [sendNextPiece_admitted h hs hf hl hk hb hc, hv]
  exact (if_neg (Nat.succ_ne_zero m)).trans rfl

theorem sendNextPiece_unreachable (hb : k % 2 = bank) (hc : leafCause u l (nextPiece c).1 c.store (demand c) = none)
    (hv : sendPiece u (cmdPiece u core bank n c l) = (0, v)) : sendNextPiece s k n = modCmd v k n fun c => { c with failed := true } := by
  rw [sendNextPiece_admitted h hs hf hl hk hb hc, hv]
  rfl

end

end

/-! ### The end of a command -/

theorem settleCmd_completes {k : Nat} (h : findCmd s k n = some c) (hd : c.len ≤ c.next) (ho : c.out = 0) (hf : c.failed = false) :
    settleCmd s k n = completeToken (s.modTask k fun t => { t with c := { t.c with cmds := t.c.cmds.filter fun x => x.id != n } }) k .c c.seq := by
  simp [settleCmd, h, hd, ho, hf]

theorem settleCmd_goesOn {k : Nat} (h : findCmd s k n = some c) (hd : c.next < c.len ∨ c.out ≠ 0 ∨ c.failed = true) :
    settleCmd s k n = s := by
  unfold settleCmd
  rw [h]
  refine if_neg fun hx => ?_
  obtain ⟨h1, h2, h3⟩ := hx
  rcases hd with hd | hd | hd
  · omega
  · exact hd h2
  · simp [hd] at h3

end Sys2Proof.Machine
end

section
/-!
SUPPORT. Pieces on their way back (07_copy_paths R125, R131; 16_ordering R293): a piece of the capacity tier served in portions, its return
to the command of C that sent it, and the arrival of a far request (04_beats R78).
-/

namespace Sys2Proof.Machine

variable {s u : State} {p q : Piece} {id n : Nat}

/-! ### The pieces of a state -/

theorem findPiece_id (h : findPiece s id = some p) : p.id = id := by
  have := List.find?_some h
  simpa using this

/-- The first piece of a number, where the pieces of that number have all become q. -/
theorem findPiece_setPiece (h : findPiece s id = some p) (hq : q.id = id) : findPiece (setPiece s q) id = some q := by
  unfold findPiece setPiece at *
  dsimp only
  rw [List.find?_map]
  have hc : ((fun x : Piece => x.id == id) ∘ fun x => if x.id = q.id then q else x) = fun x => x.id == id := by
    funext x
    simp only [Function.comp]
    split
    · next hx => rw [hq, hx, hq]
    · rfl
  rw [hc, h]
  have hp : p.id = id := findPiece_id (s := s) h
  simp [hp, hq]

theorem devEvent_pieces (s : State) (a b c d : Nat) : (devEvent s a b c d).pieces = s.pieces := by
  have written (x : State) (r v : Nat) (d : Dist) : ({ x.setReg r v with dist := d } : State).pieces = x.pieces := rfl
  unfold devEvent
  dsimp only
  by_cases h : s.reg regDevqbase % 16 < 4 ∨ 2 ^ (s.reg regDevqbase % 16) ≤ (s.reg regDevqptr % 2 ^ 32 + 2 ^ 32 - slice (s.reg regDevqptr) 32 32) % 2 ^ 32
  · rw [if_pos h]
  · rw [if_neg h, written]
    split <;> rfl

theorem countAccess_pieces (s : State) (p : Piece) : (countAccess s p).pieces = s.pieces := by
  unfold countAccess
  split
  · rfl
  · dsimp only
    split
    · exact devEvent_pieces _ _ _ _ _
    · rfl

theorem behindWrite_iff : behindWrite s p = true ↔ p.wr = true ∧ ∃ q ∈ s.pieces, q.wr = true ∧ q.core = p.core ∧ q.bank = p.bank
    ∧ q.own = p.own ∧ q.st = .sent ∧ q.id < p.id ∧ q.pa < p.pa + p.len ∧ p.pa < q.pa + q.len := by
  simp [behindWrite, and_assoc]

theorem arrivesNow_iff : arrivesNow s p = true ↔ ∀ q ∈ s.pieces, q.core = p.core → q.bank = p.bank → q.own = p.own →
    chanOf q.pa = chanOf p.pa → q.st = .sent → p.id ≤ q.id := by
  simp [arrivesNow, imp_iff_not_or, or_assoc]

/-! ### A piece of the capacity tier -/

/-- How far a portion takes a piece of which some units are left (R293): to its end, or to a unit that a free choice names. -/
def portionEnd (s : State) (p : Piece) : Nat :=
  let f := Config.freeChoice s.free % (unitsIn p - p.units)
  if unitsIn p - p.units ≤ 1 ∨ f = 0 then unitsIn p else p.units + f

/-- A choice is drawn where more than one unit is left. -/
def portionDrawn (s : State) (p : Piece) : State := if unitsIn p - p.units ≤ 1 then s else { s with free := s.free + 1 }

theorem portion_units : s.portion (unitsIn p - p.units) = (portionEnd s p - p.units, portionDrawn s p) := by
  unfold State.portion portionEnd portionDrawn State.choose
  dsimp only
  by_cases h1 : unitsIn p - p.units ≤ 1
  · rw [if_pos h1, if_pos (.inl h1), if_pos h1]
  · rw [if_neg h1, if_neg h1]
    by_cases hf : Config.freeChoice s.free % (unitsIn p - p.units) = 0
    · rw [if_pos hf, if_pos (.inr hf)]
    · rw [if_neg hf, if_neg (not_or.2 ⟨h1, hf⟩), Nat.add_sub_cancel_left]

theorem portionEnd_bounds (h : p.units < unitsIn p) : p.units < portionEnd s p ∧ portionEnd s p ≤ unitsIn p := by
  have hlt := Nat.mod_lt (Config.freeChoice s.free) (show 0 < unitsIn p - p.units by omega)
  unfold portionEnd
  dsimp only
  split <;> omega

/-- Piece p of a command of C with its units up to m read or written, in a state whose memory they came from. -/
def movedPiece (u : State) (p : Piece) (m : Nat) : Piece :=
  let o := unitOff p p.units
  { p with units := m, st := if m = unitsIn p then .served else .sent
           data := if p.wr then p.data else p.data ++ u.mem.rdList (p.pa + o) (unitOff p m - o) }

/-- The counters and the memory once the units of p up to m have moved. -/
def unitsMoved (s : State) (p : Piece) (m : Nat) : State :=
  let u := if p.units = 0 then countAccess s p else s
  let o := unitOff p p.units
  if p.wr then { u with mem := u.mem.wrList (p.pa + o) ((p.data.drop o).take (unitOff p m - o)) } else u

/-- The state with the units of p up to m moved. -/
def movedTo (s : State) (p : Piece) (m : Nat) : State := setPiece (unitsMoved s p m) (movedPiece (unitsMoved s p m) p m)

theorem unitsMoved_pieces (s : State) (p : Piece) (m : Nat) : (unitsMoved s p m).pieces = s.pieces := by
  have hu : (if p.units = 0 then countAccess s p else s).pieces = s.pieces := by
    split
    · exact countAccess_pieces s p
    · rfl
  unfold unitsMoved
  dsimp only
  split <;> exact hu

theorem findPiece_movedTo (m : Nat) (hf : findPiece s id = some p) :
    findPiece (movedTo s p m) id = some (movedPiece (unitsMoved s p m) p m) := by
  have hu : findPiece (unitsMoved s p m) id = some p := by unfold findPiece; rw [unitsMoved_pieces]; exact hf
  have hid : p.id = id := findPiece_id hf
  exact findPiece_setPiece hu hid

theorem serveCap_cmd {m : Nat} (ho : p.own = .cCmd n) (hlt : p.units < m) (hle : m ≤ unitsIn p) :
    serveCap s p (m - p.units) = movedTo s p m := by
  have hm : p.units + (m - p.units) = m := by omega
  have hst : (if unitsIn p ≤ m then PieceSt.served else .sent) = if m = unitsIn p then .served else .sent :=
    if_congr (by omega) rfl rfl
  have hread (u : State) (a : Nat) (bs : List Byte) : readBy u p a bs = bs := if_neg (by simp [ho])
  have hnote (u : State) : noteFrame u p = u := by unfold noteFrame; rw [ho]
  unfold serveCap movedTo movedPiece unitsMoved
  simp only [hm, hst, hread, hnote, ite_self]
  cases p.wr <;> rfl

/-- A piece of the capacity tier that waits for nothing moves a portion of its units, and is ready once it has moved the last. -/
theorem readyPiece_cap (hf : findPiece s id = some p) (ho : p.own = .cCmd n) (hst : p.st = .sent) (hr : region p.pa = .cap)
    (hb : behindWrite s p = false) (hu : p.units < unitsIn p) :
    readyPiece s id = (movedTo (portionDrawn s p) p (portionEnd s p),
      if portionEnd s p = unitsIn p then some (movedPiece (unitsMoved (portionDrawn s p) p (portionEnd s p)) p (portionEnd s p)) else none) := by
  obtain ⟨hlt, hle⟩ := portionEnd_bounds (s := s) hu
  have hd : findPiece (portionDrawn s p) id = some p := by unfold portionDrawn; split <;> exact hf
  unfold readyPiece
  rw [hf]
  dsimp only
  rw [hst]
  dsimp only
  rw [if_pos ⟨hr, by simp [hb]⟩, portion_units]
  dsimp only
  rw [serveCap_cmd ho hlt hle, findPiece_movedTo _ hd]
  by_cases hm : portionEnd s p = unitsIn p <;> simp [movedPiece, hm]

/-- A piece of the capacity tier that waits behind an earlier write of its bytes does not return (R131). -/
theorem readyPiece_behind (hf : findPiece s id = some p) (hst : p.st = .sent) (hb : behindWrite s p = true) : readyPiece s id = (s, none) := by
  unfold readyPiece
  rw [hf]
  dsimp only
  rw [hst]
  dsimp only
  exact if_neg (by simp [hb])

/-! ### The return to a command of C -/

theorem replyPiece_waits (hr : readyPiece s id = (u, none)) : replyPiece s id = u := by
  unfold replyPiece
  rw [hr]

/-- Piece p of command n of C of task k has returned: what a load has read stands in the scratchpad, and the piece is counted (R124, R129). -/
def cmdReplied (u : State) (core k n id : Nat) (p : Piece) : State :=
  let v := dropPiece u id
  let good := p.st ≠ .bad
  let v := if p.wr = false ∧ good then v.modCore core fun y => { y with spad := y.spad.wrList p.spad (p.data.take p.len) } else v
  settleCmd (modCmd (if good then countPiece v k p else v) k n fun c => { c with out := c.out - 1 }) k n

theorem replyPiece_cmd {core bank : Nat} (ho : p.own = .cCmd n) (hc : p.core = core) (hb : p.bank = bank) (hr : readyPiece s id = (u, some p)) :
    replyPiece s id = cmdReplied u core (tkey core bank) n id p := by
  subst hc hb
  unfold replyPiece cmdReplied
  rw [hr]
  dsimp only
  rw [ho]
  dsimp only
  by_cases hb : p.st = .bad <;> cases hw : p.wr <;> simp [hb]

/-! ### The arrival of a far request -/

theorem execFarRequestArrival_none (h : findPiece s id = none) : execFarRequestArrival id s = .next s := by
  unfold execFarRequestArrival
  rw [h]

section
variable (hf : findPiece s id = some p) (hst : p.st = .sent) (hr : region p.pa = .fast) (ha : arrivesNow s p = true)
include hf hst hr ha

theorem execFarRequestArrival_full (ho : p.own = .cCmd n) (hq : 64 ≤ (s.chan (chanOf p.pa)).farq.length) :
    execFarRequestArrival id s = .next (stalled s (tkey p.core p.bank) p.buf) := by
  unfold execFarRequestArrival
  rw [hf]
  dsimp only
  rw [if_neg (by simp [ha]), if_pos ⟨hr, hst, hq⟩, ho]
  rfl

theorem execFarRequestArrival_room (hq : (s.chan (chanOf p.pa)).farq.length < 64) :
    execFarRequestArrival id s = .next (setPiece (s.modChan (chanOf p.pa) fun y => { y with farq := y.farq ++ [id] })
      { p with st := .queued, cc := s.ccFrame p.pa }) := by
  unfold execFarRequestArrival
  rw [hf]
  dsimp only
  rw [if_neg (by simp [ha]), if_neg fun h => absurd h.2.2 (Nat.not_le.2 hq)]
  unfold arrivePiece
  rw [hf]
  exact congrArg Host.Outcome.next (if_pos ⟨hr, hst, hq⟩)

end

end Sys2Proof.Machine
end

section
/-!
SUPPORT. The far slots of a pseudo-channel (04_beats R78; 05_vertical_bus R90) and the ends of page walks (16_ordering R326, R328;
07_copy_paths R126).
-/

namespace Sys2Proof.Machine

variable {s u : State} {p : Piece} {id pc k unit : Nat} {x : Nat × Nat} {w : Walk}

/-! ### A slot that opens -/

theorem modChan_modChan (s : State) (pc : Nat) (f g : Chan → Chan) : (s.modChan pc f).modChan pc g = s.modChan pc fun y => g (f y) := by
  simp only [State.modChan, State.setChan, State.chan, Sparse.rd_wr_same, Sparse.wr_wr]

theorem serveSlot_idle (h : (s.chan pc).serving = none) : serveSlot s pc = openSlot s pc := by
  unfold serveSlot farDue
  rw [h]
  rfl

theorem openSlot_none (h : slotNow s pc = none) : openSlot s pc = s := by
  unfold openSlot
  rw [h]

/-- Slot x of pseudo-channel pc is the one that has opened last. -/
def slotOpened (s : State) (pc : Nat) (x : Nat × Nat) : State := s.modChan pc fun y => { y with slotDone := some x }

theorem slotOpened_farq : ((slotOpened s pc x).chan pc).farq = (s.chan pc).farq := by
  unfold slotOpened
  rw [State.chan_modChan_same]

theorem openSlot_empty (h : slotNow s pc = some x) (hq : (s.chan pc).farq = []) : openSlot s pc = slotOpened s pc x := by
  have hq' := (slotOpened_farq (x := x)).trans hq
  unfold openSlot
  rw [h]
  change (match ((slotOpened s pc x).chan pc).farq with | [] => slotOpened s pc x | _ :: _ => _) = _
  rw [hq']

/-- The clock at which the send of request p that a slot of pseudo-channel pc takes now ends: free in the slot (R391). -/
def farEnd2 (s : State) (pc : Nat) (p : Piece) : Nat :=
  let d := farTicks s pc p
  (s.die (dieOf pc)).tick2 + 2 * (Config.freeChoice s.free % (41 - d) + d)

theorem openSlot_serves {r : List Nat} (h : slotNow s pc = some x) (hq : (s.chan pc).farq = id :: r) (hf : findPiece s id = some p) :
    openSlot s pc = { s with free := s.free + 1 }.modChan pc fun y =>
      { y with slotDone := some x, farq := r, serving := some (id, farEnd2 s pc p) } := by
  have hq' := (slotOpened_farq (x := x)).trans hq
  have hf' : findPiece (slotOpened s pc x) id = some p := hf
  unfold openSlot
  rw [h]
  change (match ((slotOpened s pc x).chan pc).farq with | [] => slotOpened s pc x | _ :: _ => _) = _
  rw [hq']
  dsimp only
  change (match findPiece (slotOpened s pc x) id with | none => _ | some _ => _) = _
  rw [hf']
  have hm := modChan_modChan { s with free := s.free + 1 } pc (fun y => { y with slotDone := some x })
    (fun y => { y with farq := r, serving := some (id, farEnd2 s pc p) })
  exact hm

/-! ### A send that ends -/

theorem serveSlot_early {at2 : Nat} (h : (s.chan pc).serving = some (id, at2)) (hlt : (s.die (dieOf pc)).tick2 < at2) : serveSlot s pc = s := by
  have hd : farDue s pc = none := by simp [farDue, h, hlt]
  unfold serveSlot
  rw [hd]
  refine openSlot_none ?_
  unfold slotNow
  simp [h]

theorem serveSlot_ends {at2 : Nat} (h : (s.chan pc).serving = some (id, at2)) (hle : at2 ≤ (s.die (dieOf pc)).tick2)
    (hf : findPiece s id = some p) : serveSlot s pc = endFar s pc at2 p := by
  have hd : farDue s pc = some (id, at2) := by simp [farDue, h, hle]
  unfold serveSlot
  rw [hd]
  dsimp only
  rw [hf]

theorem endFar_lost {at2 : Nat} (h : isLost s pc = true) : endFar s pc at2 p = loseFar (logFar s pc p false) p := by
  unfold endFar
  exact if_pos h

/-- A send of request p of pseudo-channel pc, by the parity of its strips: the state, and what has failed (R90). -/
def farSend (s : State) (pc : Nat) (p : Piece) : State × List (Nat × Nat) := paritySend s pc (farTicks s pc p) (decide (foldOf s pc ≠ 0))

/-- A failed send of request p has been counted, and its bus time is owed (R90). -/
def farFailed (s : State) (pc : Nat) (p : Piece) : State :=
  let d := farTicks s pc p
  (farSend s pc p).1.modChan pc fun y =>
    { y with debt := y.debt + max 16 d, farBad := (y.farBad.1 + 1, ((farSend s pc p).2.getLastD (0, 0)).2) }

/-- The clock at which the send of request p after a failed one that ended at at2 ends. -/
def farNext2 (s : State) (pc at2 : Nat) (p : Piece) : Nat :=
  let d := farTicks s pc p
  at2 + 2 * (max 16 d - d) + 2 * farTicks (farSend s pc p).1 pc p

section
variable {at2 : Nat} (h : isLost s pc = false)
include h

theorem endFar_passes (hr : (farSend s pc p).2 = []) :
    endFar s pc at2 p = serveFast (logFar (farSend s pc p).1 pc p (decide (foldOf s pc = 0))) p := by
  unfold farSend at hr ⊢
  unfold endFar
  rw [if_neg (by simp [h])]
  dsimp only
  generalize paritySend s pc (farTicks s pc p) (decide (foldOf s pc ≠ 0)) = y at hr ⊢
  obtain ⟨u, l⟩ := y
  have hl : l = [] := hr
  rw [hl]
  simp

theorem endFar_fails (hr : (farSend s pc p).2 ≠ []) :
    endFar s pc at2 p =
      let v := farFailed s pc p
      if isLost v pc then loseFar (logFar v pc p false) p
      else if farNext2 s pc at2 p ≤ slotEnd2 v pc then v.modChan pc fun y => { y with serving := some (p.id, farNext2 s pc at2 p) }
      else v.modChan pc fun y => { y with serving := none, farq := p.id :: y.farq } := by
  unfold farFailed farNext2 farSend at *
  unfold endFar
  rw [if_neg (by simp [h])]
  dsimp only
  generalize paritySend s pc (farTicks s pc p) (decide (foldOf s pc ≠ 0)) = y at hr ⊢
  obtain ⟨u, l⟩ := y
  cases l with
  | nil => exact absurd rfl hr
  | cons a r => rfl

end

/-! ### The end of a page walk -/

theorem gangOf_modTask {f : Task → Task} (hf : (f (s.task k)).gang = (s.task k).gang) : (s.modTask k f).gangOf k = s.gangOf k := by
  unfold State.gangOf
  rw [State.task_modTask_same, hf]
  rfl

/-- The causes of a walk of unit that ends without a leaf: for no entry, for its attributes, for its permissions (R327). -/
def walkCodes (unit : Nat) : Nat × Nat × Nat := if unit = 0 then (174, 176, 175) else if unit = 1 then (198, 200, 199) else (150, 151, 151)

theorem walkCause_eq {e : WalkEnd} (he : e = .absent ∨ e = .attr ∨ e = .perm) :
    walkCause unit e = if e = .absent then (walkCodes unit).1 else if e = .attr then (walkCodes unit).2.1 else (walkCodes unit).2.2 := by
  rcases he with rfl | rfl | rfl <;> rfl

theorem endWalk_none (h : (s.task k).tlb.walks.find? (fun w => w.unit == unit) = none) : endWalk s k unit = s := by
  unfold endWalk
  rw [h]

/-- Task k of s without walk w. -/
def walkTaken (s : State) (k : Nat) (w : Walk) : State := s.modTask k fun t => { t with tlb := { t.tlb with walks := t.tlb.walks.erase w } }

/-- The virtual function in whose address space task k walks. -/
def walkVf (s : State) (k : Nat) : Nat := match s.gangOf k with | some g => g.vf | none => 0

section
variable {e : WalkEnd} (h : (s.task k).tlb.walks.find? (fun w => w.unit == unit) = some w)
include h

theorem endWalk_eq : endWalk s k unit = match walk (walkTaken s k w) (walkVf s k) w.va with
    | (s, .leaf l) => s.modTask k fun t =>
        if unit = 1 then { t with tlb := { t.tlb with strm := cacheLeaf 16 t.tlb.strm l } }
        else { t with tlb := { t.tlb with cond := cacheLeaf 64 t.tlb.cond l } }
    | (s, .bad pa) =>
      if w.ahead then s
      else if isLost s (chanOf pa) then failAccess s k w 303
      else machineCheck s (k / 2) 2 (s.stripOf pa) (pa / 32 * 32) (syndrome s (s.stripOf pa))
    | (s, e) => if w.ahead then s else failAccess s k w (walkCause unit e) := by
  have hg : (walkTaken s k w).gangOf k = s.gangOf k := gangOf_modTask rfl
  unfold endWalk walkVf
  rw [h]
  dsimp only
  rw [← hg]
  rfl

theorem endWalk_leaf {l : Leaf} (hw : walk (walkTaken s k w) (walkVf s k) w.va = (u, .leaf l)) :
    endWalk s k unit = u.modTask k fun t =>
      if unit = 1 then { t with tlb := { t.tlb with strm := cacheLeaf 16 t.tlb.strm l } }
      else { t with tlb := { t.tlb with cond := cacheLeaf 64 t.tlb.cond l } } := by
  rw [endWalk_eq h, hw]

/-- A walk ahead that finds no leaf raises nothing. -/
theorem endWalk_ahead (hw : walk (walkTaken s k w) (walkVf s k) w.va = (u, e)) (he : ∀ l, e ≠ .leaf l) (ha : w.ahead = true) :
    endWalk s k unit = u := by
  rw [endWalk_eq h, hw]
  cases e with
  | leaf l => exact absurd rfl (he l)
  | absent | attr | perm | bad => exact if_pos ha

theorem failAccess_eq (code : Nat) : failAccess u k w code =
    if unit = 1 then failCommand u k w.cmd code w.va
    else raiseCause (u.modEng k (walkEngine unit) fun x => { x with stopped := true }) k code w.va 0 := by
  have hu : w.unit = unit := by simpa using List.find?_some h
  unfold failAccess
  rw [hu]

theorem endWalk_fails (hw : walk (walkTaken s k w) (walkVf s k) w.va = (u, e)) (he : e = .absent ∨ e = .attr ∨ e = .perm) (ha : w.ahead = false) :
    endWalk s k unit = failAccess u k w (walkCause unit e) := by
  have hna : ¬ w.ahead = true := by simp [ha]
  rw [endWalk_eq h, hw]
  rcases he with rfl | rfl | rfl <;> exact if_neg hna

theorem endWalk_bad {pa : Nat} (hw : walk (walkTaken s k w) (walkVf s k) w.va = (u, .bad pa)) (ha : w.ahead = false) :
    endWalk s k unit = if isLost u (chanOf pa) then failAccess u k w 303
      else machineCheck u (k / 2) 2 (u.stripOf pa) (pa / 32 * 32) (syndrome u (u.stripOf pa)) := by
  have hna : ¬ w.ahead = true := by simp [ha]
  rw [endWalk_eq h, hw]
  exact if_neg hna

end

end Sys2Proof.Machine
end

section
/-!
PROOF. Pieces of address commands, far requests and page walks (O47).
-/

namespace Sys2Proof.Machine

/-- A pair by its second component, for pairs too large to be compared by evaluation. -/
theorem eq_mk_of_snd {α β : Type} {x : α × β} {b : β} (h : x.2 = b) : x = (x.1, b) := by
  subst h
  rfl

/-- A piece that is admitted is sent where it can leave; the command stops where it cannot (R125, R126, R129). -/
theorem sendNextPiece_goes {s u : State} {k core bank n : Nat} {c : CCmd} {l : Leaf} (hk : k / 2 = core) (hb : k % 2 = bank)
    (h : findCmd s k n = some c) (hs : Sending s k c) (hf : farFull s k = false) (hl : leafOf s k c (nextPiece c).1 = (u, some l)) :
    let piece := cmdPiece u core bank n c l
    let v := withPiece u piece
    let frame := sendFrame v piece.pa piece.len c.store piece.data
    let goes (v : State) : Prop := sendNextPiece s k n = pieceSent u v k core n c l
    let fails (code : Nat) : Prop := sendNextPiece s k n = failCommand u k n code (nextPiece c).1
    let allowed := (if c.store then l.w else l.r) = true
    (Misplaced u c l (nextPiece c).1 → fails 200)
    ∧ (¬ Misplaced u c l (nextPiece c).1 → ¬ allowed → fails 199)
    ∧ (¬ Misplaced u c l (nextPiece c).1 → allowed →
      (region piece.pa = .fast ∨ region piece.pa = .cap → goes v)
      ∧ (region piece.pa = .host → c.store = true → goes (hostRead (hostWrite v piece.pa piece.data) piece.pa 0))
      ∧ (region piece.pa = .host → c.store = false → goes (hostRead v piece.pa piece.len))
      ∧ (region piece.pa = .peer → frame.2 = true → goes frame.1)
      ∧ (region piece.pa = .peer → frame.2 = false → sendNextPiece s k n =
        modCmd (raiseCause (unsend frame.1 (u.pieceNext + 1)) (tkey core bank) 334 0 0) k n fun c => { c with failed := true })) := by
  classical
  extract_lets piece v frame goes fails allowed
  have hc := leafCause_eq u c l (nextPiece c).1
  refine ⟨fun hm => sendNextPiece_fails h hs hf hl (hc.trans (if_pos hm)),
    fun hm ha => sendNextPiece_fails h hs hf hl ((hc.trans (if_neg hm)).trans (if_neg ha)), fun hm ha => ?_⟩
  have hadm := (hc.trans (if_neg hm)).trans (if_pos ha)
  have sent {w : State} (hw : sendPiece u piece = (u.pieceNext + 1, w)) : goes w := sendNextPiece_sends h hs hf hl hk hb hadm hw
  have hframe : sendFrame (withPiece u piece) piece.pa piece.len piece.wr piece.data = frame := rfl
  refine ⟨fun hr => sent (sendPiece_near u piece ?_ ?_), fun hr hw => sent ?_, fun hr hw => sent ?_, fun hr hfr => ?_, fun hr hfr => ?_⟩
  · rcases hr with hr | hr <;> rw [hr] <;> decide
  · rcases hr with hr | hr <;> rw [hr] <;> decide
  · exact (sendPiece_host u piece hr).trans (congrArg _ (if_pos hw))
  · exact (sendPiece_host u piece hr).trans (congrArg _ (if_neg (by simp [piece, cmdPiece, hw])))
  · exact sent (sendPiece_peer hr (v := frame.1) (hframe.trans (eq_mk_of_snd hfr)))
  · exact sendNextPiece_unreachable h hs hf hl hk hb hadm (sendPiece_unreachable hr rfl (v := frame.1) (hframe.trans (eq_mk_of_snd hfr)))

/-- Settles O47, by the moves of a piece: it is sent, arrives at its pseudo-channel, is served by a slot or in portions, and returns. -/
theorem addressPieces : Obligations.AddressPieces := by
  unfold Obligations.AddressPieces
  intro s core bank n id pc unit c l tlb p w hbank
  extract_lets k send a len full piece sent allowed goes ch off units behind back z slot walked vf fails _ m _ _ drawn counted moved q u
  have hk : k / 2 = core := tkey_core hbank
  have hk2 : k % 2 = bank := tkey_bank hbank
  have hfull : farFull s k = true ↔ full := farFull_iff
  have nf (hf : ¬ full) : farFull s k = false := Bool.eq_false_iff.2 fun h => hf (hfull.1 h)
  have goes_of {x : List (Nat × Task)} (hc : findCmd s k n = some c) (hs : Sending s k c) (hf : ¬ full)
      (hl : leafOf s k c a = ({ s with tasks := x }, some l)) : goes { s with tasks := x } := by
    obtain ⟨h200, h199, hgo⟩ := sendNextPiece_goes hk hk2 hc hs (nf hf) hl
    refine ⟨fun hm => congrArg _ (h200 hm), fun hm ha => congrArg _ (h199 hm ha), fun hm ha => ?_⟩
    obtain ⟨hnear, hst, hld, hpeer, hlost⟩ := hgo hm ha
    exact ⟨fun hr => congrArg _ (hnear hr), fun hr hw => congrArg _ (hst hr hw), fun hr hw => congrArg _ (hld hr hw),
      fun hr hv => congrArg _ (hpeer hr hv), fun hr hv => congrArg _ (hlost hr hv)⟩
  have sending (h1 : c.failed = false) (h2 : c.next < c.len) (h3 : (s.core core).halted = false) : Sending s k c := ⟨h1, h2, hk ▸ h3⟩
  refine ⟨fun h => congrArg _ (sendNextPiece_gone h), fun hc => ⟨fun hr => ?_, fun h1 h2 h3 => ?_⟩, fun hc => ⟨?_, ?_⟩,
    fun hf => ⟨?_, execFarRequestArrival_none hf⟩, fun hf ho hpc hpb => ⟨?_, ?_, ?_, ?_⟩, fun hi => ⟨?_, ?_, ?_⟩, fun at2 hi hf => ?_,
    ?_, fun hw => ⟨?_, ?_, ?_, ?_⟩⟩
  · exact congrArg _ (sendNextPiece_rests hc (hk ▸ hr))
  · have hs := sending h1 h2 h3
    refine ⟨fun hf => congrArg _ (sendNextPiece_full hc hs (hfull.2 hf)),
      fun hf hp hl => congrArg _ (sendNextPiece_walks hc hs (nf hf) (leafOf_miss hp hl)),
      fun hf hp hl => goes_of hc hs hf (leafOf_hit hp hl), fun hf hp hl => goes_of hc hs hf ((leafOf_pinned k a hp).trans ?_)⟩
    rw [hl]
  · exact fun ⟨hd, ho, hf⟩ => settleCmd_completes hc hd ho hf
  · exact settleCmd_goesOn hc
  · exact congrArg _ (replyPiece_waits (readyPiece_none hf))
  · intro hst
    refine congrArg _ (replyPiece_waits ?_)
    rcases hst with hst | ⟨hst, hr | hb⟩
    · exact readyPiece_waits hf (.inl hst)
    · exact readyPiece_waits hf (.inr ⟨hst, hr⟩)
    · exact readyPiece_behind hf hst (behindWrite_iff.2 hb)
  · exact fun hst => congrArg _ (replyPiece_cmd ho hpc hpb (readyPiece_ended hf hst))
  · intro hst hr hb hu
    have hcap := readyPiece_cap hf ho hst hr (Bool.eq_false_iff.2 fun h => hb (behindWrite_iff.1 h)) hu
    have hm : portionEnd s p = m := rfl
    have hmoved : unitsMoved (portionDrawn s p) p m = moved := rfl
    have hq : movedPiece moved p m = q := rfl
    rw [movedTo, hm, hmoved, hq] at hcap
    by_cases hl : m = units
    · rw [if_pos hl]
      rw [if_pos (show m = unitsIn p from hl)] at hcap
      exact congrArg Host.Outcome.next (replyPiece_cmd (p := q) ho hpc hpb hcap)
    · rw [if_neg hl]
      rw [if_neg (show ¬ m = unitsIn p from hl)] at hcap
      exact congrArg Host.Outcome.next (replyPiece_waits hcap)
  · intro hst hr ha
    have harr : arrivesNow s p = true := arrivesNow_iff.2 (by rw [hpc, hpb]; exact ha)
    refine ⟨fun hq => execFarRequestArrival_room hf hst hr harr hq, fun hq => ?_⟩
    have hfull := execFarRequestArrival_full hf hst hr harr ho hq
    rw [hpc, hpb] at hfull
    exact hfull
  · exact fun h => congrArg _ ((serveSlot_idle hi).trans (openSlot_none h))
  · exact fun x h hq => congrArg _ ((serveSlot_idle hi).trans (openSlot_empty h hq))
  · exact fun x r h hq hf => congrArg _ ((serveSlot_idle hi).trans (openSlot_serves h hq hf))
  · refine ⟨fun hlt => congrArg _ (serveSlot_early hi hlt), fun hle => ?_⟩
    have hend := serveSlot_ends hi hle hf
    have hid : p.id = id := findPiece_id hf
    refine ⟨fun hl => congrArg _ (hend.trans (endFar_lost hl)), fun hl hr => congrArg _ (hend.trans (endFar_passes hl hr)),
      fun hl hr hl' => congrArg _ (hend.trans ((endFar_fails hl hr).trans (if_pos hl'))), fun hl hr hl' => ?_⟩
    have hfail := hend.trans ((endFar_fails hl hr).trans (if_neg (ne_true_of_eq_false hl')))
    rw [hid] at hfail
    exact ⟨fun h => congrArg _ (hfail.trans (if_pos h)), fun h => congrArg _ (hfail.trans (if_neg (Nat.not_le.2 h)))⟩
  · exact fun h => congrArg _ (endWalk_none h)
  · exact fun u l h => congrArg _ (endWalk_leaf hw h)
  · exact fun u e h he ha => congrArg _ (endWalk_ahead hw h he ha)
  · intro u e h he ha
    have hfail := endWalk_fails hw h he ha
    rw [failAccess_eq hw, walkCause_eq he] at hfail
    exact congrArg _ hfail
  · intro u pa h ha
    have hbad := endWalk_bad hw h ha
    rw [failAccess_eq hw, hk] at hbad
    exact ⟨fun hl => congrArg _ (hbad.trans (if_pos hl)), fun hl => congrArg _ (hbad.trans (if_neg (ne_true_of_eq_false hl)))⟩

end Sys2Proof.Machine
end

section
/-!
SUPPORT. The work of the grid: the close of a beat and the alignment that may follow (04_beats R67, R87; 08_dies_time R143), beacons and
liveness (08_dies_time R141, R142; 17_gangs R317), the refresh check and the freezes (04_beats R79-R84), the reopen span (R348) and the
sensor of a stack (R79).
-/

namespace Sys2Proof.Machine

variable {s : State} {d e pc g : Nat}

/-! ### The close of a beat -/

theorem closeDue_iff : closeDue s d = true
    ↔ ((s.die d).freeze = none ∧ (s.die d).pause = none) ∧ 2 * s.lenOf (s.die d).beat ≤ (s.die d).off2 ∧ landsOn s d = false := by
  simp [closeDue, counting_iff, and_assoc]

theorem closeBeat_waits (h : ¬ closeDue s d = true) : closeBeat s d = s := by
  unfold closeBeat
  exact if_pos (by simpa using h)

/-- The open beat of die d has closed on each of its pseudo-channels, and no block of a reduction is named by it any more. -/
def beatClosed (s : State) (d : Nat) : State :=
  let v := (chansOf d).foldl (fun v p => closeChan v p (s.die d).beat) s
  (v.modStack (2 * d) fun z => { z with owners := [] }).modStack (2 * d + 1) fun z => { z with owners := [] }

theorem closeBeat_closes (h : closeDue s d = true) : closeBeat s d =
    let v := beatClosed s d
    if aligned v (s.die d).beat then
      if pauseOf v d = 0 then openAligned (alignEst v d) d
      else (alignEst v d).modDie d fun z => { z with pause := some (z.tick2 + 2 * pauseOf v d) }
    else openBeat v d ((s.die d).beat + 1) := by
  unfold closeBeat
  exact if_neg (by simp [h])

theorem largestLag_eq (s : State) (d : Nat) :
    largestLag s d = (List.range 8).foldl (fun m h => max m (Sparse.rd 0 (s.die d).est h).toNat) 0 := rfl
theorem pauseOf_eq (s : State) (d : Nat) : pauseOf s d = min 8 (largestLag s d / 2) := rfl

theorem alignEst_eq (s : State) (d : Nat) : alignEst s d = s.modDie d fun z => { z with opens := [], est := (List.range 8).foldl (fun m h =>
      if h = d then m else Sparse.wr 0 m h (Sparse.rd 0 (s.die d).est h
        + 2 * ((min 8 (((largestLag s d : Int) - Sparse.rd 0 (s.die d).est h).toNat / 2) : Nat) - (pauseOf s d : Int)))) [] } := by
  unfold alignEst State.modDie
  rfl
theorem openAligned_eq (s : State) (d : Nat) : openAligned s d =
    openBeat (({ s with free := s.free + 1 } : State).modDie d fun z =>
      { z with aligned2 := z.tick2, drift := z.drift + ((Config.freeChoice s.free + 1) % 3 : Nat) - 1 }) d ((s.die d).beat + 1) := by
  unfold openAligned State.choose
  dsimp only
  rw [State.die_modDie_same]
  rfl

theorem endPause_none (h : (s.die d).pause = none) : endPause s d = s := by simp [endPause, pauseOver, h]

theorem endPause_some {at2 : Nat} (h : (s.die d).pause = some at2) : endPause s d = if at2 ≤ (s.die d).tick2 then openAligned s d else s := by
  simp [endPause, pauseOver, h]

/-! ### Beacons and liveness -/

theorem sendBeacons_early (h : (s.die d).tick2 < (s.die d).beacon2 + 2048) : sendBeacons s d = s := by
  unfold sendBeacons
  exact if_pos (by simp [beaconDue, h])

theorem sendBeacons_due (h : (s.die d).beacon2 + 2048 ≤ (s.die d).tick2) : sendBeacons s d = s.modDie d fun x =>
    { x with beacon2 := x.tick2
             beacons := x.beacons ++ (neighbours d).map fun e =>
               { dst := e, sent2 := x.tick2, opens := x.opens.map fun o => (o.1, x.tick2 - o.2), est := x.est } } := by
  unfold sendBeacons
  exact if_neg (by simp [beaconDue, h])

theorem takeBeacon_none (h : arrived s d e = none) : takeBeacon s d e = s := by
  unfold takeBeacon
  rw [h]

/-- Die d has taken beacon b of die e: it is under way no more, and its time is noted. -/
def beaconTaken (s : State) (d e : Nat) (b : Beacon) : State :=
  (s.modDie e fun x => { x with beacons := x.beacons.erase b }).modDie d fun x => { x with heard := Sparse.wr 0 x.heard e x.tick2 }

/-- The estimates of die d once the lag of die e is known: that of e, and of the dies that it reaches by e. -/
def nearerEst (est : List (Nat × Int)) (d e : Nat) (b : Beacon) (near : Int) : List (Nat × Int) :=
  (List.range 8).foldl (fun m f =>
    if f = d then m
    else if f = e then Sparse.wr 0 m f near
    else if hops d f = 1 + hops e f then Sparse.wr 0 m f (near + Sparse.rd 0 b.est f)
    else m) est

theorem takeBeacon_some {b : Beacon} (h : arrived s d e = some b) : takeBeacon s d e =
    let t := beaconTaken s d e b
    match lagOf t d b with
    | none => t
    | some near =>
      let est := nearerEst (t.die d).est d e b near
      ((List.range 8).filter fun f => decide (16 ≤ (Sparse.rd 0 est f).natAbs)).foldl (fun s f => skewLimit s d f)
        (t.modDie d fun x => { x with est := est }) := by
  unfold takeBeacon
  rw [h]
  rfl

theorem silent_iff : silent s d = true ↔ (s.die d).fenced = false
    ∧ ∃ e < 8, hops d e = 1 ∧ (s.die e).fenced = false ∧ Sparse.rd 0 (s.die e).heard d + 16384 ≤ (s.die e).tick2 := by
  simp [silent, neighbours]

theorem fenceDie_eq (h : (s.die d).fenced = false) : fenceDie s d =
    devEvent { s.modDie d fun x => { x with fenced := true } with
      dist := { s.dist with scoreboard := if d = masterDie s then s.dist.mirror else s.dist.scoreboard } } 6 d 382 0 := by
  unfold fenceDie
  exact if_neg (by simp [h])

/-! ### The refresh check -/

theorem drefComes_iff {r : Refresh} : drefComes s pc g r = true ↔ ∃ c ∈ (s.chan pc).cmds, c.kind = .dref g
    ∧ (s.die (dieOf pc)).tick2 / 2 + ticksTo s (dieOf pc) (startOf s pc c) + 64 ≤ r.deadline := by
  simp [drefComes]

theorem checkDue_iff : checkDue s pc g = true ↔ (refreshOf s pc g).checked = false ∧ ownedBy s pc ≠ none
    ∧ (refreshOf s pc g).deadline ≤ (s.die (dieOf pc)).tick2 / 2 + 320 := by
  simp [checkDue, and_assoc, Option.isSome_iff_ne_none]

theorem checkRefresh_early (h : ¬ checkDue s pc g = true) : checkRefresh s pc g = s := by
  unfold checkRefresh
  exact if_pos (by simpa using h)

theorem checkRefresh_due {k : Nat} (h : checkDue s pc g = true) (hk : ownedBy s pc = some k) : checkRefresh s pc g =
    let r := refreshOf s pc g
    if drefComes s pc g r then setRefresh s pc g { r with checked := true } else forceRefresh s pc g k r := by
  unfold checkRefresh
  rw [if_neg (by simp [h]), hk]

section
variable {k : Nat} {r : Refresh}

/-- Group g of pseudo-channel pc has been checked (R80). -/
def refreshChecked (s : State) (pc g : Nat) (r : Refresh) : State := setRefresh s pc g { r with checked := true }

/-- Ticks from now until the forced point of a refresh (R81). -/
def forcedIn (s : State) (pc : Nat) (r : Refresh) : Nat := r.deadline - 64 - (s.die (dieOf pc)).tick2 / 2

/-- The point of the freeze that carries a forced refresh, where none can be joined (R81). -/
def forcedPoint (s : State) (pc g : Nat) (r : Refresh) : Point :=
  let u := refreshChecked s pc g r
  outOfSlot u (pointIn u (dieOf pc) (forcedIn s pc r))

theorem forceRefresh_joins {f : Freeze} (h : joinable (refreshChecked s pc g r) pc (forcedIn s pc r) = some f) : forceRefresh s pc g k r =
    { refreshChecked s pc g r with grid := { s.grid with
        freezes := s.grid.freezes.map fun z => if z.id = f.id then { z with refs := z.refs ++ [(pc, g)] } else z } } := by
  unfold forceRefresh
  dsimp only
  unfold refreshChecked forcedIn at *
  rw [h]
  rfl

theorem forceRefresh_alone (h : joinable (refreshChecked s pc g r) pc (forcedIn s pc r) = none) : forceRefresh s pc g k r =
    let u := refreshChecked s pc g r
    let x := forcedPoint s pc g r
    let w := busyAfter u pc x
    let slip := slipOf u x.beat + (96 + w)
    if s.reg regBlim % 2 ^ 12 < slip then raiseCause (setRefresh u pc g r) k 348 0 0
    else { u with grid := { s.grid with
      slip := Sparse.wr 0 s.grid.slip x.beat slip
      freezeNext := s.grid.freezeNext + 1
      freezes := s.grid.freezes ++ [{ id := s.grid.freezeNext, at_ := x, len := 96 + w, w := w, refs := [(pc, g)] }] } } := by
  unfold forceRefresh forcedPoint
  dsimp only
  unfold refreshChecked forcedIn at *
  rw [h]
  rfl

end

/-! ### Freezes -/

theorem beginFreeze_none (h : freezeDue s d = none) : beginFreeze s d = s := by
  unfold beginFreeze
  rw [h]

theorem beginFreeze_some {f : Freeze} (h : freezeDue s d = some f) : beginFreeze s d =
    let n := if f.begun = [] then (s.grid.freezeCount + 1) % 2 ^ 20 else s.grid.freezeCount
    let t := s.modDie d fun x => { x with freeze := some (f.id, x.tick2, x.tick2 + 2 * f.len) }
    { t.setReg regSlip (putBits (s.reg regSlip) 12 20 n) with grid := { s.grid with
        freezeCount := n
        freezes := s.grid.freezes.map fun x => if x.id = f.id then { x with begun := x.begun ++ [d] } else x } } := by
  have hn : (if (f.begun == []) = true then (s.grid.freezeCount + 1) % 2 ^ 20 else s.grid.freezeCount)
      = if f.begun = [] then (s.grid.freezeCount + 1) % 2 ^ 20 else s.grid.freezeCount := if_congr beq_iff_eq rfl rfl
  unfold beginFreeze
  rw [h]
  dsimp only
  rw [hn]
  rfl

theorem startForced_none (h : forcedDue s pc = none) : startForced s pc = s := by
  unfold startForced
  rw [h]

theorem startForced_some {f : Freeze} (h : forcedDue s pc = some (f, g)) : startForced s pc =
    refreshNow { s with grid := { s.grid with freezes := s.grid.freezes.map fun x =>
      if x.id = f.id then { x with refs := x.refs.erase (pc, g) } else x } } pc g := by
  unfold startForced
  rw [h]

theorem endFreeze_none (h : (s.die d).freeze = none) : endFreeze s d = s := by simp [endFreeze, freezeOver, h]

theorem endFreeze_early {z : Nat × Nat × Nat} (h : (s.die d).freeze = some z) (hlt : (s.die d).tick2 < z.2.2) : endFreeze s d = s := by
  simp [endFreeze, freezeOver, h, hlt]

/-- Every die has been through freeze f, and its forced refreshes have run. -/
def freezePassed (s : State) (f : Freeze) : Bool := f.begun.length == 8 && f.refs == [] && (List.range 8).all fun e =>
  match (s.die e).freeze with | some z => z.1 != f.id | none => true

theorem endFreeze_over {z : Nat × Nat × Nat} (h : (s.die d).freeze = some z) (hle : z.2.2 ≤ (s.die d).tick2) : endFreeze s d =
    let t := s.modDie d fun x => { x with freeze := none }
    { t with grid := { s.grid with freezes := s.grid.freezes.filter fun f => !freezePassed t f } } := by
  have ho : freezeOver (s.die d) = true := by simp [freezeOver, h, hle]
  unfold endFreeze
  exact (if_neg (by simp [ho])).trans rfl

/-! ### The reopen span -/

theorem reopenDue_held (h : mayStart s (dieOf pc) = false) : reopenDue s pc = none := by simp [reopenDue, h]

theorem reopenDue_some {y : Point × Bool × List SavedRow} (h : reopenDue s pc = some y) : y ∈ (s.chan pc).reopen
    ∧ (y.1.beat < (s.die (dieOf pc)).beat ∨ (y.1.beat = (s.die (dieOf pc)).beat ∧ 2 * y.1.off ≤ (s.die (dieOf pc)).off2)) := by
  unfold reopenDue at h
  dsimp only at h
  split at h
  · cases h
  · exact ⟨List.mem_of_find?_eq_some h, by simpa using List.find?_some h⟩

theorem reopenNext_none (h : reopenDue s pc = none) : reopenNext s pc = s := by
  unfold reopenNext
  rw [h]

theorem reopenNext_some {y : Point × Bool × List SavedRow} (h : reopenDue s pc = some y) : reopenNext s pc =
    let t := s.now (dieOf pc)
    let v := s.modChan pc fun z => { z with
      reopen := z.reopen.erase y
      hist := if y.2.1 then { z.hist with openw := some t } else { z.hist with opens := (t :: z.hist.opens).take 8 } }
    y.2.2.foldl (fun v l => reopenRow v pc y.2.1 t l) v := by
  unfold reopenNext
  rw [h]

/-! ### The sensor of a stack -/

section
variable {sk temp : Nat}

/-- The sensor of stack sk has read temp. -/
def felt (s : State) (sk temp : Nat) : State := s.modStack sk fun z => { z with temp := temp }

/-- The retention state of the stack may change now: 800,000 ticks have passed since it did (R358). -/
def mayTurn (s : State) (sk : Nat) : Prop := ∀ c, (s.stack sk).since = some c → c + 800000 ≤ (s.die (sk / 2)).tick2 / 2

/-- A stack turns hot above 85 and cool below 83. -/
theorem stackTurns_felt [Decidable (mayTurn s sk)] : stackTurns (felt s sk temp) sk =
    if mayTurn s sk ∧ (s.stack sk).hot = false ∧ 85 < temp then some true
    else if mayTurn s sk ∧ (s.stack sk).hot = true ∧ temp < 83 then some false else none := by
  have hs : (felt s sk temp).stack sk = { s.stack sk with temp := temp } := State.stack_modStack_same _ _ _
  have hd : (felt s sk temp).die (sk / 2) = s.die (sk / 2) := rfl
  have hw : dwell = 800000 := rfl
  unfold stackTurns
  rw [hs, hd, hw]
  cases hc : (s.stack sk).since with
  | none =>
    have hm : mayTurn s sk := fun c h => by simp [hc] at h
    simp [hm, hc]
  | some c =>
    have hm : mayTurn s sk ↔ c + 800000 ≤ (s.die (sk / 2)).tick2 / 2 := by simp [mayTurn, hc]
    simp [hm, hc, and_assoc]

theorem turnStack_hot (hm : mayTurn s sk) (hh : (s.stack sk).hot = false) (ht : 85 < temp) : turnStack (felt s sk temp) sk =
    (List.range 48).foldl (fun s i => s.modChan (48 * sk + i) fun c =>
      { c with refresh := c.refresh.map fun e => (e.1, e.2.map fun r => { r with deadline := Nat.min r.deadline (r.last + 25600000) }) })
      ((felt s sk temp).modStack sk fun x => { x with hot := true, early := true, since := some ((s.die (sk / 2)).tick2 / 2) }) := by
  classical
  have h := stackTurns_felt (s := s) (sk := sk) (temp := temp)
  rw [if_pos ⟨hm, hh, ht⟩] at h
  unfold turnStack
  rw [h]
  rfl

theorem turnStack_cool (hm : mayTurn s sk) (hh : (s.stack sk).hot = true) (ht : temp < 83) : turnStack (felt s sk temp) sk =
    (felt s sk temp).modStack sk fun x => { x with hot := false, since := some ((s.die (sk / 2)).tick2 / 2) } := by
  classical
  have h := stackTurns_felt (s := s) (sk := sk) (temp := temp)
  rw [if_neg (by simp [hh]), if_pos ⟨hm, hh, ht⟩] at h
  unfold turnStack
  rw [h]
  rfl

theorem turnStack_stays (h : ¬ mayTurn s sk ∨ ((s.stack sk).hot = false ∧ temp ≤ 85) ∨ ((s.stack sk).hot = true ∧ 83 ≤ temp)) :
    turnStack (felt s sk temp) sk = felt s sk temp := by
  classical
  have ht := stackTurns_felt (s := s) (sk := sk) (temp := temp)
  rw [if_neg (by rintro ⟨h1, h2, h3⟩; simp [h1, h2] at h; omega), if_neg (by rintro ⟨h1, h2, h3⟩; simp [h1, h2] at h; omega)] at ht
  unfold turnStack
  rw [ht]

end

end Sys2Proof.Machine
end

section
/-!
PROOF. Beats, alignment, beacons, freezes and refreshes (O51).
-/

namespace Sys2Proof.Machine

/-- Settles O51, operation by operation: each is at rest until it is due, and leaves the state that the statement writes out. -/
theorem gridWork : Obligations.GridWork := by
  unfold Obligations.GridWork
  intro s d e pc g sk temp bn f y at2
  extract_lets x counts done _ closed lag most n turned opens quiet board gone took est on limit now r checked dist at_ w slip reached begun
    through hot tick may felt
  have hdone : closeDue s d = true ↔ done := closeDue_iff
  have hquiet : silent s d = true ↔ quiet := silent_iff
  have hcounts : counting x = true ↔ counts := counting_iff x
  have hopens (t : State) : openAligned t d = opens t := openAligned_eq t d
  have hdue : checkDue s pc g = true ↔ r.checked = false ∧ ownedBy s pc ≠ none ∧ r.deadline ≤ now + 320 := checkDue_iff
  refine ⟨fun h => ?_, fun h => ?_, fun h => ?_, fun h => ?_, fun h => ?_, fun h => ?_, fun h => ?_, fun h => ?_, fun h => ?_, fun h => ?_,
    drefComes_iff, fun h => ?_, fun k hc hk hr => ?_, ?_, fun h => ?_, fun h => ?_, fun h => ?_, fun h => ?_, fun h => ?_, fun h => ?_,
    fun id from2 to2 h => ⟨fun hlt => ?_, fun hle => ?_⟩, fun h => ?_, fun h => ?_, fun h => ?_, reopenDue_some, fun h => ?_, fun h => ?_,
    fun hm hh ht => ?_, fun hm hh ht => ?_, fun h => ?_⟩
  · exact congrArg _ (closeBeat_waits (mt hdone.1 h))
  · have hclosed : beatClosed s d = closed := rfl
    have hmost : largestLag closed d = most := largestLag_eq closed d
    have hn : pauseOf closed d = n := (pauseOf_eq closed d).trans (by rw [hmost])
    have hturned : alignEst closed d = turned := (alignEst_eq closed d).trans (by rw [hmost, hn])
    have hclose := closeBeat_closes (hdone.2 h)
    dsimp only at hclose
    rw [hclosed, hn, hturned, hopens] at hclose
    exact ⟨fun ha => congrArg _ (hclose.trans (if_neg (ne_true_of_eq_false ha))),
      fun ha hn => congrArg _ (hclose.trans ((if_pos ha).trans (if_pos hn))),
      fun ha hn => congrArg _ (hclose.trans ((if_pos ha).trans (if_neg hn)))⟩
  · exact congrArg _ (endPause_none h)
  · exact ⟨fun hlt => congrArg _ ((endPause_some h).trans (if_neg (Nat.not_le.2 hlt))),
      fun hle => congrArg _ ((endPause_some h).trans ((if_pos hle).trans (hopens s)))⟩
  · exact congrArg _ (sendBeacons_early h)
  · exact congrArg _ (sendBeacons_due h)
  · exact congrArg _ (takeBeacon_none h)
  · have htake := takeBeacon_some h
    have htook : beaconTaken s d e bn = took := rfl
    dsimp only at htake
    rw [htook] at htake
    have hlimit : (fun v h => skewLimit v d h) = limit := rfl
    refine ⟨fun hl => ?_, fun l hl => ?_⟩
    · rw [hl] at htake
      exact congrArg Host.Outcome.next htake
    · have hest : nearerEst (took.die d).est d e bn l = est l := rfl
      rw [hl] at htake
      dsimp only at htake
      rw [hlimit, hest] at htake
      exact congrArg Host.Outcome.next htake
  · exact congrArg _ (if_neg (mt hquiet.1 h))
  · exact congrArg _ ((if_pos (hquiet.2 h)).trans (fenceDie_eq h.1))
  · refine congrArg _ (checkRefresh_early fun hd => ?_)
    obtain ⟨h1, h2, h3⟩ := hdue.1 hd
    rcases h with h | h | h
    · exact absurd h (by rw [h1]; decide)
    · exact h2 h
    · omega
  · have hcheck := checkRefresh_due (hdue.2 ⟨hc, by rw [hk]; exact Option.some_ne_none k, hr⟩) hk
    refine ⟨fun hd => congrArg _ (hcheck.trans (if_pos hd)), fun hd => ?_⟩
    have hforce := hcheck.trans (if_neg (ne_true_of_eq_false hd))
    refine ⟨fun hj => congrArg _ (hforce.trans (forceRefresh_joins hj)), fun hj => ?_⟩
    have halone := hforce.trans (forceRefresh_alone hj)
    exact ⟨fun hb => congrArg _ (halone.trans (if_pos hb)), fun hb => congrArg _ (halone.trans (if_neg (Nat.not_lt.2 hb)))⟩
  · rw [← hcounts, Bool.not_eq_true]
    exact freezeDue_eq_none
  · obtain ⟨hc, hf, hr, hfirst⟩ := freezeDue_some h
    refine ⟨hcounts.1 hc, hf, hr, fun z hz hzr hb => ?_⟩
    have hno := hfirst z hz hzr
    simp [Point.before] at hno
    omega
  · exact congrArg _ (beginFreeze_none h)
  · exact congrArg _ (beginFreeze_some h)
  · exact congrArg _ (startForced_none h)
  · exact congrArg _ (startForced_some h)
  · exact congrArg _ (endFreeze_none h)
  · exact congrArg _ (endFreeze_early h hlt)
  · exact congrArg _ (endFreeze_over h hle)
  · exact congrArg _ (if_neg (ne_true_of_eq_false h))
  · exact congrArg _ (if_pos h)
  · refine reopenDue_held (Bool.eq_false_iff.2 fun hm => ?_)
    obtain ⟨hc, hfree⟩ := mayStart_iff_free.1 hm
    obtain ⟨hf, hp⟩ := (counting_iff _).1 hc
    rcases h with h | h | h
    · exact h hf
    · exact h hp
    · exact h (freezeDue_eq_none.2 (.inr hfree))
  · exact congrArg _ (reopenNext_none h)
  · exact congrArg _ (reopenNext_some h)
  · exact congrArg Host.Outcome.next (turnStack_hot (s := s) (sk := sk) hm hh ht)
  · exact congrArg Host.Outcome.next (turnStack_cool (s := s) (sk := sk) hm hh ht)
  · exact congrArg Host.Outcome.next (turnStack_stays (s := s) (sk := sk) h)

end Sys2Proof.Machine
end

section
/-!
SUPPORT. The launch queues and the end of a task (17_gangs R284, R309, R311, R316, R319-R321) and the registers of the driver (04_beats R70,
05_vertical_bus R94, 18_translation R330, 19_stops R351).
-/

namespace Sys2Proof.Machine

variable {s u : State} {v q k : Nat}

/-! ### The end of a task -/

/-- A slot of the pseudo-channel of task k holds a row line. -/
def holdsRow (s : State) (k : Nat) : Prop := ∃ x < 128, slotAt s (k / 2) x ≠ none

theorem holdsRow_iff : ((List.range 128).any fun x => (slotAt s (k / 2) x).isSome) = true ↔ holdsRow s k := by
  simp [holdsRow, Option.isSome_iff_ne_none]

theorem finishTask_none (h : s.gangOf k = none) : finishTask s k = s := by
  unfold finishTask
  rw [h]

/-- Task k has left gang g: its gang ends with its last task. -/
def taskLeft (s : State) (g : Gang) (k : Nat) : State :=
  let left := { g with gone := g.gone ++ [k] }
  let y := s.modGang g.id fun _ => left
  if left.live = [] then endGang y left true else switchPoints y

/-- The gang of the successor that task k of gang g has named by the words sw (R316). -/
def successorGang (s : State) (g : Gang) (k : Nat) (sw : List Nat) : Gang := { g with
  id := s.dist.next, tasks := [k], colours := [g.colours.getD (s.task k).index 0], start := (s.die (dieOf (k / 2))).beat + 1
  st := .issued, preempt := false, resume := none, cut := {}, succ := some sw, pins := [], exits := [], gone := []
  det := bitOf (sw.getD 2 0) 4, race := [], raceNext := 1, known := [], shown := [], met := [] }

section
variable {g : Gang} (h : s.gangOf k = some g)
include h

theorem finishTask_waits (hw : g.st ≠ .attached ∨ taskOver s k = false) : finishTask s k = s := by
  unfold finishTask
  rw [h]
  exact if_pos (hw.imp_right fun hw => by rw [hw]; rfl)

section
variable (ha : g.st = .attached) (ho : taskOver s k = true)
include ha ho

theorem finishTask_holds (hr : holdsRow s k) : finishTask s k = raiseCause s k 250 0 0 := by
  unfold finishTask
  rw [h]
  exact (if_neg (by simp [ha, ho])).trans (if_pos (holdsRow_iff.2 hr))

theorem finishTask_ends (hr : ¬ holdsRow s k) (hs : (s.task k).s.succ = none) : finishTask s k = taskLeft (s.setTask k {}) g k := by
  unfold finishTask
  rw [h]
  refine (if_neg (by simp [ha, ho])).trans ((if_neg (mt holdsRow_iff.1 hr)).trans ?_)
  dsimp only
  rw [hs]
  rfl

theorem finishTask_succeeds {sw : List Nat} (hr : ¬ holdsRow s k) (hs : (s.task k).s.succ = some sw) : finishTask s k =
    let x := { s with dist := { s.dist with next := s.dist.next + 1, gangs := s.dist.gangs ++ [successorGang s g k sw] } }
    taskLeft ((modLaunch x g.launch fun l => { l with live := l.live + 1 }).setTask k { tlb := { pins := (s.task k).tlb.pins } }) g k := by
  unfold finishTask
  rw [h]
  refine (if_neg (by simp [ha, ho])).trans ((if_neg (mt holdsRow_iff.1 hr)).trans ?_)
  dsimp only
  rw [hs]
  rfl

end

end

/-! ### The states of a queue -/

theorem queueState_setQueueState {n : Nat} (hn : n < 4) : queueState (setQueueState s v q n) v q = n := by
  unfold queueState setQueueState
  dsimp only
  rw [State.reg_setReg, if_pos rfl]
  unfold putBits
  omega

/-- Nothing is left of what queue q of v has begun: no launch has a gang that lives, or has issued some and not all. -/
def queueIdle (s : State) (v q : Nat) : Prop := ∀ l ∈ queueLaunches s v q, l.live = 0 ∧ (l.unissued = false ∨ l.issued = 0)

theorem settleQueue_drain [Decidable (queueIdle s v q)] (h : queueState s v q = 2) :
    settleQueue s v q = if queueIdle s v q then setQueueState s v q 0 else s := by
  have hidle : queueIdle s v q ↔ ¬ busy s v q = true ∧ ((queueLaunches s v q).all fun l => !(l.unissued && decide (l.issued ≠ 0))) = true := by
    simp [queueIdle, busy, forall₂_and]
  unfold settleQueue
  dsimp only
  by_cases hb : busy s v q = true
  · rw [if_pos hb, if_neg fun hi => (hidle.1 hi).1 hb]
  · rw [if_neg hb]
    by_cases ha : ((queueLaunches s v q).all fun l => !(l.unissued && decide (l.issued ≠ 0))) = true
    · rw [if_pos ⟨h, ha⟩, if_pos (hidle.2 ⟨hb, ha⟩)]
    · rw [if_neg fun hx => ha hx.2, if_neg fun hx => absurd (h.symm.trans hx.1) (by decide), if_neg fun hi => ha (hidle.1 hi).2]

theorem runQueue_whole (h : queueBroken s v q = false) : runQueue s v q = setQueueState s v q 1 := by simp [runQueue, h]

theorem runQueue_broken (h : queueBroken s v q = true) : runQueue s v q =
    setQueueState ((s.setReg (regQueue v q + 0x18) (putBits (s.reg (regQueue v q + 0x18)) 2 1 0)).setReg (regQueue v q + 0x10)
      (s.reg (regQueue v q + 8) % 2 ^ 32)) v q 1 := by
  simp [runQueue, h, setHead, queueTail]

/-! ### Packets -/

theorem canRead_iff : canRead s v q = true ↔ s.reg regBootctl % 4 = 2 ∧ queueState s v q = 1 ∧ queueBroken s v q = false
    ∧ queueHead s v q ≠ queueTail s v q ∧ ∀ l ∈ queueLaunches s v q, l.unissued = false ∨ l.fail ≠ none := by
  simp [canRead, running, and_assoc, Option.isSome_iff_ne_none]

/-- Where the packet at the head of a queue stands in its ring, in the address space of v, if it is mapped. -/
def packetPlace (s : State) (v q : Nat) : State × Option Nat :=
  vfPhys s v (slice (s.reg (regQueue v q)) 6 50 * 64 + 64 * (queueHead s v q % 2 ^ (s.reg (regQueue v q) % 32))) 0

theorem fetchPacket_noRing (h : s.reg (regQueue v q) % 32 = 0 ∨ 16 < s.reg (regQueue v q) % 32) : fetchPacket s v q = (s, none) := by
  unfold fetchPacket
  exact if_pos h

section
variable (h : ¬ (s.reg (regQueue v q) % 32 = 0 ∨ 16 < s.reg (regQueue v q) % 32))
include h

theorem fetchPacket_unmapped (hp : (packetPlace s v q).2 = none) : fetchPacket s v q = ((packetPlace s v q).1, none) := by
  unfold packetPlace at *
  unfold fetchPacket
  refine (if_neg h).trans ?_
  generalize vfPhys s v _ 0 = y at hp ⊢
  obtain ⟨u, x⟩ := y
  have hx : x = none := hp
  rw [hx]

theorem fetchPacket_mapped {pa : Nat} (hp : (packetPlace s v q).2 = some pa) : fetchPacket s v q =
    match physRead (packetPlace s v q).1 pa 64 2 with
    | (s, .ok bs) => (s, some (bytesToWords 8 bs))
    | (s, .error _) => (s, none) := by
  unfold packetPlace at *
  unfold fetchPacket
  refine (if_neg h).trans ?_
  generalize vfPhys s v _ 0 = y at hp ⊢
  obtain ⟨u, x⟩ := y
  have hx : x = some pa := hp
  subst hx
  rfl

end

theorem readPacket_waits (h : canRead s v q = false) : readPacket s v q = s := by
  unfold readPacket
  exact if_pos (by simp [h])

theorem readPacket_unreadable (h : canRead s v q = true) (hf : fetchPacket s v q = (u, none)) : readPacket s v q = breakQueue u v q := by
  unfold readPacket takePacket
  rw [if_neg (by simp [h]), hf]

/-- The launch that the words of a packet of queue q of v describe, as state u numbers it. -/
def packetLaunch (u : State) (v q : Nat) (ws : List Nat) : Launch :=
  { id := u.dist.next, vf := v, q := q, words := ws, readBeat := (u.die (masterDie u)).beat, order := u.dist.queueOrder }

/-- The head of queue q of v has passed its packet, which has a number and a place in the order of the packets read. -/
def packetCounted (u : State) (v q : Nat) : State :=
  { setHead u v q (queueHead u v q + 1) with dist := { u.dist with next := u.dist.next + 1, queueOrder := u.dist.queueOrder + 1 } }

section
variable {ws : List Nat} (h : canRead s v q = true) (hf : fetchPacket s v q = (u, some ws))
include h hf

/-- A packet that has been read breaks its queue where its record address does not serve; else it is a launch or is rejected (R311). -/
theorem readPacket_read : readPacket s v q =
    match recordOk (packetCounted u v q) v (packetLaunch u v q ws) with
    | (x, true) =>
      let shown := { x with dist := { x.dist with launches := x.dist.launches ++ [packetLaunch u v q ws] } }
      match rejectReason (packetLaunch u v q ws) with
      | some r => completeLaunch shown (packetLaunch u v q ws) 3 r
      | none => settleInputs shown.dist.launches.length shown
    | (x, false) => breakQueue x v q := by
  have htake : takePacket s v q =
      match recordOk (packetCounted u v q) v (packetLaunch u v q ws) with
      | (x, true) => ({ x with dist := { x.dist with launches := x.dist.launches ++ [packetLaunch u v q ws] } }, some (packetLaunch u v q ws))
      | (x, false) => (breakQueue x v q, none) := by
    unfold takePacket
    rw [hf]
    rfl
  unfold readPacket
  rw [if_neg (by simp [h]), htake]
  generalize recordOk (packetCounted u v q) v (packetLaunch u v q ws) = y
  obtain ⟨x, b⟩ := y
  cases b <;> rfl

end

theorem recordOk_bad {l : Launch} (h : ¬ (l.record ≠ 0 ∧ l.record % 64 = 0)) : recordOk s v l = (s, false) := by
  unfold recordOk
  exact if_pos (by omega)

theorem recordOk_good {l : Launch} (h : l.record ≠ 0 ∧ l.record % 64 = 0) :
    recordOk s v l = ((vfPhys s v l.record 1).1, (vfPhys s v l.record 1).2.isSome) := by
  unfold recordOk
  exact if_neg (by omega)

/-! ### The registers of the driver -/

/-- The slot and the number of entries that a write of PLANACT asks for serve: the entries are valid (R70). -/
def planServes (s : State) (val : Nat) : Prop :=
  slice val 4 9 ≠ 0 ∧ slice val 4 9 ≤ 256 ∧ ∀ i < slice val 4 9, entryValid (s.reg (regPlan (val % 16) i)) = true

theorem planServes_iff (val : Nat) : (slice val 4 9 ≠ 0 ∧ slice val 4 9 ≤ 256
    ∧ ((List.range (slice val 4 9)).all fun i => entryValid (s.reg (regPlan (val % 16) i))) = true) ↔ planServes s val := by
  simp [planServes]

theorem writePlanact_serves {val : Nat} (h : planServes s val) :
    writePlanact s val = s.setReg regPlanact (putBits (putBits (s.reg regPlanact) 0 13 (val % 2 ^ 13)) 32 2 1) := by
  unfold writePlanact
  dsimp only
  rw [if_pos ((planServes_iff val).2 h)]

theorem writePlanact_fails {val : Nat} (h : ¬ planServes s val) :
    writePlanact s val = s.setReg regPlanact (putBits (putBits (s.reg regPlanact) 0 13 (val % 2 ^ 13)) 32 2 2) := by
  unfold writePlanact
  dsimp only
  rw [if_neg (mt (planServes_iff val).1 h)]

theorem writeMclog_clears {c val : Nat} (h : bitOf val 63 = false) :
    writeMclog s c 0 val = s.setReg (regMclog c) (s.reg (regMclog c) % 2 ^ 63) := if_pos ⟨rfl, by simp [h]⟩

theorem writeMclog_keeps {c w val : Nat} (h : w ≠ 0 ∨ bitOf val 63 = true) : writeMclog s c w val = s :=
  if_neg fun ⟨hw, hb⟩ => by
    rcases h with h | h
    · exact h hw
    · simp [h] at hb

theorem writeAsinv_busy {val : Nat} (h : bitOf (s.reg (regAsinv v)) 63 = false) : writeAsinv s v val = s := by
  unfold writeAsinv
  exact if_pos (by simp [h])

/-- An invalidation starts: u is the state in which the tasks of v have dropped their translations. -/
theorem writeAsinv_starts {val : Nat} (h : bitOf (s.reg (regAsinv v)) 63 = true)
    (hu : (tasksOf s v).foldl (fun u k => dropTask u k (slice val 16 40 * 2 ^ 16) (bitOf val 56)) s = u) : writeAsinv s v val =
    { u.setReg (regAsinv v) (slice val 16 41 * 2 ^ 16) with dist := { u.dist with
      asinv := Sparse.wr [] u.dist.asinv v ((tasksOf s v).map fun k => (k, (s.task k).gang, (s.task k).c.nextId)) } } := by
  unfold writeAsinv
  dsimp only
  rw [if_neg (by simp [h]), hu, State.setReg_dist]

theorem asinvOver_iff : asinvOver s v = true ↔ bitOf (s.reg (regAsinv v)) 63 = false
    ∧ ∀ m ∈ Sparse.rd [] s.dist.asinv v, (s.task m.1).gang ≠ m.2.1 ∨ ∀ c ∈ (s.task m.1).c.cmds, m.2.2 < c.id := by
  simp [asinvOver]

end Sys2Proof.Machine
end

section
/-!
PROOF. Launch queues, task ends and the driver registers (O53).
-/

namespace Sys2Proof.Machine

/-- Settles O53, register by register and step by step: each operation comes to the state that the statement writes out. -/
theorem launchWork : Obligations.LaunchWork := by
  classical
  unfold Obligations.LaunchWork
  intro s u v q t val pc core bank w g ws
  extract_lets k ctl tail head moved room passed breaks mode broken rest idle size place read l _ counted record good _ _ shown reads ends left ended
    next planOk plan cleared inv va all done
  have hslots : holdsRow s k ↔ ∃ x < 128, slotAt s (k / 2) x ≠ none := Iff.rfl
  have hdrain := settleQueue_drain (s := mode 2 s) (v := v) (q := q) (queueState_setQueueState (by decide))
  have hsize : ¬ (size = 0 ∨ 16 < size) ↔ 1 ≤ size ∧ size ≤ 16 := by omega
  have hover : asinvOver s v = true ↔ bitOf (s.reg inv) 63 = false ∧ done := asinvOver_iff
  have hplan : planServes s val ↔ planOk := Iff.rfl
  have hl : packetLaunch u v q ws = l := rfl
  have hrec (hg : good) : recordOk (packetCounted u v q) v (packetLaunch u v q ws) = (record.1, record.2.isSome) := recordOk_good hg
  refine ⟨fun h => ?_, fun h => ⟨fun hw => ?_, fun ha ho => ⟨fun hr => ?_, fun hr => ⟨fun hs => ?_, fun sw hs => ?_⟩⟩⟩,
    fun h => ?_, fun h => ?_, rfl, rfl, fun h => ?_, fun h => ?_, fun h => ?_, fun h => ?_, canRead_iff, fun h => ?_,
    fun h1 h2 => ⟨fun hp => ?_, fun pa hp => ?_⟩, fun h => ?_, fun h hf => ?_,
    fun h hf => ⟨fun hg => ?_, fun hg hr => ?_, fun hg hr => ?_⟩, rfl, fun h => ?_, fun h => ?_, rfl, rfl,
    fun hw h => ?_, fun h => ?_, fun h => ?_, fun h => ?_, fun h => ?_, fun h hd => ?_⟩
  · exact congrArg _ (finishTask_none h)
  · exact congrArg _ (finishTask_waits h hw)
  · exact congrArg _ (finishTask_holds h ha ho hr)
  · exact congrArg _ (finishTask_ends h ha ho (fun ⟨x, hx, hne⟩ => hne (hr x hx)) hs)
  · exact congrArg _ (finishTask_succeeds h ha ho (fun ⟨x, hx, hne⟩ => hne (hr x hx)) hs)
  · exact congrArg _ (if_neg h)
  · exact congrArg _ (if_pos h)
  · exact congrArg _ (runQueue_whole h)
  · exact congrArg _ (runQueue_broken h)
  · exact congrArg _ (hdrain.trans (if_pos h))
  · exact congrArg _ (hdrain.trans (if_neg h))
  · exact fetchPacket_noRing h
  · exact fetchPacket_unmapped (hsize.2 ⟨h1, h2⟩) hp
  · have hread := fetchPacket_mapped (hsize.2 ⟨h1, h2⟩) hp
    have hplace : packetPlace s v q = place := rfl
    rw [hplace] at hread
    exact ⟨fun x bs hr => by rw [hread, hr], fun x e hr => by rw [hread, hr]⟩
  · exact congrArg _ (readPacket_waits h)
  · exact congrArg _ (readPacket_unreadable h hf)
  · have hread := readPacket_read h hf
    rw [recordOk_bad (l := packetLaunch u v q ws) hg] at hread
    exact congrArg _ hread
  · have hread := readPacket_read h hf
    rw [hrec hg, hr] at hread
    exact congrArg _ hread
  · have hread := readPacket_read h hf
    rw [hrec hg, Option.isSome_iff_ne_none.2 hr, hl] at hread
    dsimp only at hread
    exact ⟨fun r hj => congrArg _ (hread.trans (by rw [hj])), fun hj => congrArg _ (hread.trans (by rw [hj]))⟩
  · exact congrArg Host.Outcome.next (writePlanact_serves (hplan.2 h))
  · exact congrArg Host.Outcome.next (writePlanact_fails (mt hplan.1 h))
  · subst hw
    exact congrArg _ (writeMclog_clears h)
  · exact congrArg _ (writeMclog_keeps h)
  · exact congrArg _ (writeAsinv_busy h)
  · exact congrArg _ (writeAsinv_starts h rfl)
  · refine congrArg _ (if_neg fun ho => ?_)
    obtain ⟨hb, hd⟩ := hover.1 ho
    rcases h with h | h
    · rw [hb] at h
      cases h
    · exact h hd
  · exact congrArg _ (if_pos (hover.2 ⟨h, hd⟩))

end Sys2Proof.Machine
end

section
/-!
SUPPORT. Stops and cuts (19_stops R340-R349) and the copy engines (R338, R339): what a stop request does to its task, what the cut of a
gang comes to, which gang a CUTCMD write names, and how a copy job starts and ends.
-/

namespace Sys2Proof.Machine

variable {s u : State} {g : Gang} {k : Nat}

/-! ### The stop request -/

theorem requestStop_none (hg : s.gangOf k = none) : requestStop s k = s := by
  unfold requestStop
  rw [hg]

section
variable (hg : s.gangOf k = some g)
include hg

theorem requestStop_unmoved (hs : g.st ≠ .detaching ∨ (s.task k).stop = true) : requestStop s k = s := by
  unfold requestStop
  rw [hg]
  refine if_neg fun ⟨hd, hn⟩ => hs.elim (absurd hd) fun hs => ?_
  rw [hs] at hn
  cases hn

theorem requestStop_stops (hd : g.st = .detaching) (hs : (s.task k).stop = false) : requestStop s k = stopTask s k := by
  unfold requestStop
  rw [hg]
  exact if_pos ⟨hd, by rw [hs]; rfl⟩

end

/-- Block x of stack i where a stop has reached task k: it ends, unless the engine is at a strip of it (R99). -/
def blockStopped (s : State) (k i : Nat) (x : RedBlk) : RedBlk :=
  if tkey x.core x.bank = k ∧ stripUnderWay s i x = false then { x with stopped := true } else x

theorem stopBlocks_eq (s : State) (k : Nat) : stopBlocks s k =
    (List.range 16).foldl (fun u i => u.modStack i fun z => { z with red := z.red.map (blockStopped u k i) }) s := by
  unfold stopBlocks
  congr 1
  funext u i
  have hends : (fun x : RedBlk => if tkey x.core x.bank = k ∧ (!stripUnderWay u i x) = true then { x with stopped := true } else x)
      = blockStopped u k i := funext fun x => if_congr (by rw [Bool.not_eq_true']) rfl rfl
  exact congrArg (fun f => u.modStack i fun z => { z with red := z.red.map f }) hends

/-- The open row lines of the pseudo-channel of task k kept for its record and written back (R348). -/
def rowsKept (s : State) (k : Nat) : State :=
  let rows := openRows s (k / 2)
  writeBackAll (s.modChan (k / 2) fun c => { c with saved := (c.saved.filter fun y => rows.all fun z => z.x != y.x) ++ rows }) (k / 2)

theorem releaseRows_none (hr : openRows s (k / 2) = []) : releaseRows s k = s := by
  unfold releaseRows
  rw [hr]

theorem releaseRows_some (hr : openRows s (k / 2) ≠ []) : releaseRows s k = rowsKept s k := by
  unfold releaseRows rowsKept
  generalize openRows s (k / 2) = rows at hr ⊢
  cases rows with
  | nil => exact absurd rfl hr
  | cons y r => rfl

/-- Task k has stopped and its commands and blocks with it: only its row lines are still open. -/
def workStopped (s : State) (k : Nat) : State :=
  let u := s.modTask k fun t => { t with
    stop := true, engs := [Eng.s, .c, .v].foldl (fun m e => Sparse.wr {} m e.tag { Sparse.rd {} m e.tag with stopped := true }) t.engs }
  let u := if (u.core (k / 2)).halted = true then u else drainV u k
  (List.range 16).foldl (fun u i => u.modStack i fun z => { z with red := z.red.map (blockStopped u k i) }) (discardCmds u k)

theorem stopTask_eq (s : State) (k : Nat) : stopTask s k =
    let u := workStopped s k
    if reopening u k = true ∨ openRows u (k / 2) = [] then u else rowsKept u k := by
  have hwork : stopTask s k = if reopening (workStopped s k) k then workStopped s k else releaseRows (workStopped s k) k := by
    unfold stopTask
    simp only [stopBlocks_eq]
    rfl
  rw [hwork]
  dsimp only
  by_cases hr : openRows (workStopped s k) (k / 2) = []
  · rw [releaseRows_none hr, ite_self, if_pos (.inr hr)]
  · rw [releaseRows_some hr]
    exact if_congr (by simp [hr]) rfl rfl

/-! ### The cut -/

/-- The tasks of gang g whose dies are not fenced. -/
def hereTasks (s : State) (g : Gang) : List Nat := g.live.filter fun k => !(s.die (dieOf (k / 2))).fenced

/-- The work of gang g has ended: every task has stopped, and no load of S is under way. -/
def gangStopped (s : State) (g : Gang) : State := g.live.foldl (fun u k => dropLoad (if (u.task k).stop then u else stopTask u k) k) s

/-- Task k of gang g leaves its record, where it has an area (R343). -/
def keepRecord (g : Gang) (u : State) (k : Nat) : State :=
  match recordAt u g.vf k with
  | some pa => writeRecord u pa (recordImage u g k)
  | none => u

/-- The same, where the records of the gang are kept. -/
def keepRecordIf (g : Gang) (kept : Bool) (u : State) (k : Nat) : State :=
  match recordAt u g.vf k with
  | some pa => if kept then writeRecord u pa (recordImage u g k) else u
  | none => u

/-! A definition that matches on recordAt is unfolded as a function, by an equation between functions: applied to a state, the kernel would
evaluate recordAt there, whose bounds it would count down by ones. -/

theorem keepRecord_at {pa : Nat} (hr : recordAt u g.vf k = some pa) : keepRecord g u k = writeRecord u pa (recordImage u g k) := by
  rw [show keepRecord = _ by delta keepRecord; rfl, hr]

theorem keepRecord_none (hr : recordAt u g.vf k = none) : keepRecord g u k = u := by
  rw [show keepRecord = _ by delta keepRecord; rfl, hr]

theorem keepRecordIf_true (g : Gang) : keepRecordIf g true = keepRecord g := by
  rw [show keepRecordIf = _ by delta keepRecordIf; rfl, show keepRecord = _ by delta keepRecord; rfl]
  simp only [if_true]

theorem keepRecordIf_false (g : Gang) (u : State) (k : Nat) : keepRecordIf g false u k = u := by
  rw [show keepRecordIf = _ by delta keepRecordIf; rfl]
  cases recordAt u g.vf k <;> rfl

/-- Every task of gang g that is left has an area for its record. -/
def recordsKept (s : State) (g : Gang) : Bool := (hereTasks s g).all fun k => (recordAt (gangStopped s g) g.vf k).isSome

/-- The pseudo-channels of the tasks of gang g without what the cut records of them. -/
def chansCut (s : State) (g : Gang) : State := g.live.foldl (fun u k => u.modChan (k / 2) fun c =>
  if reopening u k then { c with saved := [] } else { c with hist := {}, reopen := [], saved := [] }) s

theorem foldl_unchanged {α : Type} (f : State → α → State) (hf : ∀ u x, f u x = u) (l : List α) (u : State) : l.foldl f u = u := by
  induction l with
  | nil => rfl
  | cons x r ih => rw [List.foldl_cons, hf, ih]

/-- The state that the records leave: those of all tasks of gang g, or none. -/
def recordsWritten (s : State) (g : Gang) : State :=
  if recordsKept s g then (hereTasks s g).foldl (keepRecord g) (gangStopped s g) else gangStopped s g

theorem takeCut_eq (s : State) (g : Gang) : takeCut s g = (chansCut (recordsWritten s g) g).modGang g.id
    fun y => { y with st := .detached, cut := { y.cut with written := recordsKept s g } } := by
  have hcut : takeCut s g = (chansCut ((hereTasks s g).foldl (keepRecordIf g (recordsKept s g)) (gangStopped s g)) g).modGang g.id
      fun y => { y with st := .detached, cut := { y.cut with written := recordsKept s g } } := by
    rw [show takeCut = _ by delta takeCut; rfl]
    rfl
  have hwritten : (hereTasks s g).foldl (keepRecordIf g (recordsKept s g)) (gangStopped s g) = recordsWritten s g := by
    unfold recordsWritten
    cases recordsKept s g with
    | true => rw [keepRecordIf_true, if_pos rfl]
    | false => exact (foldl_unchanged _ (keepRecordIf_false g) _ _).trans (if_neg Bool.false_ne_true).symm
  rw [hcut, hwritten]

/-- The cut of gang g has been taken. -/
def cutDone (s : State) (g : Gang) : State := switchPoints (takeCut s g)

/-- The cause that the driver reads of gang h (R351). -/
def causeShown (h : Gang) : Nat := if h.cut.machineCheck then 278 else h.cut.code

/-- The event of kind 2 for gang h has been sent (R369). -/
def cutTold (u : State) (h : Gang) : State := devEvent u 2 h.vf (originCore h * 2 ^ 16 + causeShown h) 0

theorem finishCut_unready (hr : cutReady s g = false) : finishCut s g = s := by
  unfold finishCut
  exact if_pos (by simp [hr])

section
variable {h : Gang} (hr : cutReady s g = true) (hh : (cutDone s g).gang g.id = some h)
include hr hh

/-- The cut of a gang is taken: the distributor's end comes first, then the lack of a record, then the driver's answer. -/
theorem finishCut_ready : finishCut s g = h.cut.ends.elim
    (if h.cut.written then h.cut.answer.elim (cutTold (cutDone s g) h) (answerGang (cutTold (cutDone s g) h) h)
      else endDetached (noteCause (cutDone s g) h 383) h)
    (endByDevice (cutDone s g) h) := by
  unfold cutDone at *
  unfold finishCut
  refine (if_neg (by simp [hr])).trans ?_
  dsimp only
  rw [hh]
  dsimp only
  cases h.cut.ends with
  | some how => rw [Option.elim_some]
  | none =>
    rw [Option.elim_none]
    cases h.cut.written with
    | false => exact (if_neg Bool.false_ne_true).symm
    | true =>
      rw [if_pos rfl]
      cases h.cut.answer with
      | none =>
        rw [Option.elim_none]
        rfl
      | some op =>
        rw [Option.elim_some]
        rfl

theorem finishCut_ends {how : Nat} (he : h.cut.ends = some how) : finishCut s g = endByDevice (cutDone s g) h how := by
  rw [finishCut_ready hr hh, he, Option.elim_some]

section
variable (he : h.cut.ends = none)
include he

theorem finishCut_unwritten (hw : h.cut.written = false) : finishCut s g = endDetached (noteCause (cutDone s g) h 383) h := by
  rw [finishCut_ready hr hh, he, Option.elim_none, hw, if_neg Bool.false_ne_true]

section
variable (hw : h.cut.written = true)
include hw

theorem finishCut_waits (ha : h.cut.answer = none) : finishCut s g = cutTold (cutDone s g) h := by
  rw [finishCut_ready hr hh, he, Option.elim_none, if_pos hw, ha, Option.elim_none]

theorem finishCut_answers {op : Nat} (ha : h.cut.answer = some op) :
    finishCut s g = answerGang (cutTold (cutDone s g) h) h op := by
  rw [finishCut_ready hr hh, he, Option.elim_none, if_pos hw, ha, Option.elim_some]

end

end

end

theorem answerGang_ends (s : State) (g : Gang) : answerGang s g 2 = endDetached (noteCause s g (causeShown g)) g := rfl

/-- Gang g has been answered, its rows are read, and the bank-1 gangs in its way yield (R348). -/
def gangResumed (s : State) (g : Gang) : State :=
  askYield ((g.live.foldl (fun u k => readRows u g k) s).modGang g.id fun y => { y with cut := { y.cut with answer := none, answered := true } }) g

theorem answerGang_resumes {op : Nat} (ho : op ≠ 2) (s : State) (g : Gang) :
    answerGang s g op = if g.cut.answered ∨ g.cut.machineCheck then s else gangResumed s g := if_neg ho

/-! ### The end of a gang without its tasks -/

theorem endByDevice_again (s : State) (g : Gang) :
    endByDevice s g 0 = endDetached (modLaunch s g.launch fun l => { l with again := joinNats l.again [g.num] }) g := rfl

theorem endByDevice_fails {how : Nat} (hn : how ≠ 0) (s : State) (g : Gang) :
    endByDevice s g how = endDetached (modLaunch s g.launch fun l => { l with fail := some (l.fail.getD 2) }) g := by
  unfold endByDevice
  rw [if_neg hn]
  rfl

theorem endDetached_closed (hb : g.cut.rebase = none) : endDetached s g = endGang s g false := by
  unfold endDetached
  rw [hb]
  rfl

theorem endDetached_reopened (hb : g.cut.rebase ≠ none) : endDetached s g =
    endGang (g.live.foldl (fun u k => writeBackAll (u.modChan (k / 2) fun c => { c with reopen := [] }) (k / 2)) s) g false := by
  unfold endDetached
  rw [Option.isNone_eq_false_iff.2 (Option.isSome_iff_ne_none.2 hb)]
  rfl

/-! ### CUTCMD -/

section
variable {v val op : Nat} {ok : Gang → Bool}

/-- CUTCMD names the gang of bank 0 of its core before that of bank 1. -/
theorem namedGang_of (ho : val / 2 ^ 62 = op) (hz : slice val 10 52 = 0) : namedGang s v val op ok =
    (s.dist.gangs.find? fun g => g.vf == v && g.live.contains (tkey (val % 2 ^ 10) 0) && ok g).or
      (s.dist.gangs.find? fun g => g.vf == v && g.live.contains (tkey (val % 2 ^ 10) 1) && ok g) := by
  unfold namedGang
  refine (if_neg (not_or.2 ⟨not_not.2 ho, not_not.2 hz⟩)).trans ?_
  dsimp only
  generalize (s.dist.gangs.find? fun g => g.vf == v && g.live.contains (tkey (val % 2 ^ 10) 0) && ok g) = x
  cases x <;> rfl

theorem namedGang_none (h : val / 2 ^ 62 ≠ op ∨ slice val 10 52 ≠ 0) : namedGang s v val op ok = none := if_pos h

end

/-- Gang g detaches or has detached: an answer acts on it. -/
def answerable (g : Gang) : Bool := g.st == .detaching || g.st == .detached

section
variable {v val op : Nat}

theorem cutAnswer_eq : cutAnswer s v val op = (namedGang s v val op answerable).elim s fun g =>
    if g.st = .detached then answerGang s g op else if op ≠ 2 ∧ g.cut.machineCheck then s
    else s.modGang g.id fun y => { y with cut := { y.cut with answer := some op } } := by
  unfold cutAnswer
  generalize hx : namedGang s v val op _ = x
  change namedGang s v val op answerable = x at hx
  rw [hx]
  cases x <;> rfl

theorem cutAnswer_none (hn : namedGang s v val op answerable = none) : cutAnswer s v val op = s := by
  rw [cutAnswer_eq, hn, Option.elim_none]

section
variable (hn : namedGang s v val op answerable = some g)
include hn

theorem cutAnswer_detached (hd : g.st = .detached) : cutAnswer s v val op = answerGang s g op := by
  rw [cutAnswer_eq, hn, Option.elim_some, if_pos hd]

theorem cutAnswer_detaching (hd : g.st ≠ .detached) : cutAnswer s v val op = if op ≠ 2 ∧ g.cut.machineCheck then s else
    s.modGang g.id fun y => { y with cut := { y.cut with answer := some op } } := by
  rw [cutAnswer_eq, hn, Option.elim_some, if_neg hd]

end

end

theorem exec_cutTaken (gang : Nat) (s : State) : exec (.cutTaken gang) s = .next ((s.gang gang).elim s (finishCut s)) := by
  refine congrArg Host.Outcome.next ?_
  cases s.gang gang <;> rfl

theorem exec_cutcmdPreempt (v val : Nat) (s : State) : exec (.cutcmdPreempt v val) s =
    .next ((namedGang s v val 3 fun g => g.st == .attached).elim s (askPreempt s)) := by
  refine congrArg Host.Outcome.next ?_
  cases namedGang s v val 3 fun g => g.st == .attached <;> rfl

/-! ### The rows of a record -/

/-- The row line that slot x of record m keeps, if it keeps one (R344). -/
def savedIn (m : Mem) (x : Nat) : Option SavedRow :=
  let w := m.rdN (0x2400 + 8 * x) 8
  if bitOf w 63 then some { x := x, row := w % 2 ^ 16, w := bitOf w 61, held := bitOf w 62 } else none

theorem savedIn_eq_some {m : Mem} {x : Nat} {y : SavedRow} : savedIn m x = some y ↔
    bitOf (m.rdN (0x2400 + 8 * x) 8) 63 = true ∧ y = { x := x, row := m.rdN (0x2400 + 8 * x) 8 % 2 ^ 16
                                                       w := bitOf (m.rdN (0x2400 + 8 * x) 8) 61, held := bitOf (m.rdN (0x2400 + 8 * x) 8) 62 } := by
  unfold savedIn
  generalize m.rdN (0x2400 + 8 * x) 8 = w
  dsimp only
  cases bitOf w 63 <;> simp [eq_comm]

theorem mem_savedIn (m : Mem) (y : SavedRow) : y ∈ (List.range 128).filterMap (savedIn m) ↔
    y.x < 128 ∧ bitOf (m.rdN (0x2400 + 8 * y.x) 8) 63 = true ∧ y.row = m.rdN (0x2400 + 8 * y.x) 8 % 2 ^ 16
      ∧ y.w = bitOf (m.rdN (0x2400 + 8 * y.x) 8) 61 ∧ y.held = bitOf (m.rdN (0x2400 + 8 * y.x) 8) 62 := by
  obtain ⟨x, row, w, held⟩ := y
  simp only [List.mem_filterMap, List.mem_range, savedIn_eq_some, SavedRow.mk.injEq]
  constructor
  · rintro ⟨i, hi, hb, rfl, hrow, hw, hh⟩
    exact ⟨hi, hb, hrow, hw, hh⟩
  · rintro ⟨hx, hb, hrow, hw, hh⟩
    exact ⟨x, hx, hb, rfl, hrow, hw, hh⟩

theorem readRows_none (hn : recordAt s g.vf k = none ∨ g.rows = false) : readRows s g k = s := by
  rw [show readRows = _ by delta readRows; rfl]
  cases hr : recordAt s g.vf k with
  | none => rfl
  | some pa => exact if_pos (by simp [hn.resolve_left (by simp [hr])])

theorem readRows_some {pa : Nat} {m : Mem} (hr : recordAt s g.vf k = some pa) (hg : g.rows = true) (hm : readRecord s pa = (u, m)) :
    readRows s g k = u.modTask k fun t => { t with saved := (List.range 128).filterMap (savedIn m) } := by
  rw [show readRows = _ by delta readRows; rfl]
  generalize readRecord = read at hm ⊢
  generalize recordAt s g.vf k = place at hr ⊢
  subst hr
  refine (if_neg (by simp [hg])).trans ?_
  rw [hm]
  rfl

/-! ### Copy engines -/

/-- n bytes from a lie wholly in one region that a copy job may name. -/
def CopyRange (a n : Nat) : Prop := region a = region (a + n - 1) ∧ (region a = .fast ∨ region a = .cap ∨ region a = .host)

theorem copyRange_iff (a n : Nat) : copyRange a n = true ↔ CopyRange a n := by
  simp [copyRange, CopyRange, inTiers, or_assoc]

/-- The limits of R339 one by one. -/
theorem jobOk_iff (ws : List Nat) : jobOk ws = true ↔
    ws.getD 0 0 % 256 = 0 ∧ ws.getD 1 0 % 256 = 0 ∧ ws.getD 2 0 / 2 ^ 32 = 0 ∧ ws.getD 2 0 % 2 ^ 32 % 256 = 0 ∧ ws.getD 2 0 % 2 ^ 32 ≠ 0
      ∧ slice (ws.getD 3 0) 9 23 = 0 ∧ ws.getD 3 0 % 512 < 384
      ∧ ws.getD 4 0 % 8 = 0 ∧ (ws.getD 4 0 = 0 ∨ region (ws.getD 4 0) = .fast ∨ region (ws.getD 4 0) = .cap)
      ∧ (∀ x ∈ ws.drop 5, x = 0) ∧ CopyRange (ws.getD 0 0) (ws.getD 2 0 % 2 ^ 32) ∧ CopyRange (ws.getD 1 0) (ws.getD 2 0 % 2 ^ 32)
      ∧ (ws.getD 0 0 + ws.getD 2 0 % 2 ^ 32 ≤ ws.getD 1 0 ∨ ws.getD 1 0 + ws.getD 2 0 % 2 ^ 32 ≤ ws.getD 0 0) := by
  unfold jobOk
  simp only [Bool.and_eq_true, Bool.or_eq_true, decide_eq_true_eq, beq_iff_eq, List.all_eq_true, copyRange_iff, inTiers, and_assoc]

section
variable {d : Nat}

/-- The copy engine of die d is idle and its ring holds a descriptor (R338). -/
def DescriptorWaits (s : State) (d : Nat) : Prop :=
  (s.die d).ce = none ∧ 1 ≤ s.reg (regCe d) % 16 ∧ s.reg (regCe d) % 16 ≤ 12 ∧ s.reg (regCe d + 8) ≠ s.reg (regCe d + 16)

theorem jobWaits_iff : jobWaits s d = true ↔ DescriptorWaits s d := by
  simp [jobWaits, DescriptorWaits, and_assoc]

/-- Where the descriptor at the head of the ring of die d stands. -/
def descriptorAt (s : State) (d : Nat) : Nat :=
  slice (s.reg (regCe d)) 12 40 * 2 ^ 12 + 64 * (s.reg (regCe d + 16) % 2 ^ (s.reg (regCe d) % 16))

/-- The words of a descriptor by the answer to its read. -/
def wordsRead (x : Except Nat (List Byte)) : List Nat := match x with
  | .ok bs => bytesToWords 8 bs
  | .error _ => []

/-- The job that the words of a descriptor describe. -/
def jobOf (ws : List Nat) : CeJob :=
  { src := ws.getD 0 0, dst := ws.getD 1 0, len := ws.getD 2 0 % 2 ^ 32, ticket := ws.getD 3 0 / 2 ^ 32
    vf := ws.getD 3 0 % 512, done := ws.getD 4 0, status := if jobOk ws then 0 else 3 }

/-- The copy engine of die d has taken the descriptor with the words ws, whose read has left u. -/
def jobTaken (s u : State) (d : Nat) (ws : List Nat) : State :=
  let x := jobOf ws
  let u := (u.setReg (regCe d + 16) ((s.reg (regCe d + 16) + 1) % 2 ^ 32)).modDie d fun y => { y with ce := some x }
  readNextPiece { u with dist := { u.dist with jobs := u.dist.jobs ++ if x.ticket = 0 then [] else [(x.vf, x.ticket)] } } d

theorem startJob_idle (h : ¬ DescriptorWaits s d) : startJob s d = s := by
  unfold startJob
  exact if_pos (by rw [Bool.eq_false_iff.2 (mt jobWaits_iff.1 h)]; rfl)

section
variable (h : DescriptorWaits s d)
include h

/-- Outside the tiers no descriptor is read: its words count as zeros. -/
theorem startJob_outside (hp : inTiers (descriptorAt s d) = false) : startJob s d = jobTaken s s d [] := by
  have hp' : inTiers (slice (s.reg (regCe d)) 12 40 * 2 ^ 12 + 64 * (s.reg (regCe d + 16) % 2 ^ (s.reg (regCe d) % 16))) = false := hp
  unfold startJob
  refine (if_neg (by rw [jobWaits_iff.2 h]; decide)).trans ?_
  dsimp only
  rw [hp']
  rfl

theorem startJob_inside (hp : inTiers (descriptorAt s d) = true) : startJob s d =
    jobTaken s (physRead s (descriptorAt s d) 64 2).1 d (wordsRead (physRead s (descriptorAt s d) 64 2).2) := by
  have hread : (if inTiers (descriptorAt s d) = true then physRead s (descriptorAt s d) 64 2 else (s, .ok []))
      = physRead s (descriptorAt s d) 64 2 := if_pos hp
  unfold startJob
  refine (if_neg (by rw [jobWaits_iff.2 h]; decide)).trans ?_
  rw [← hread]
  rfl

end

theorem endJob_none (h : (s.die d).ce = none) : endJob s d = s := by
  unfold endJob
  rw [h]

variable {j : CeJob}

theorem jobEnd_none (hs : j.status = 0) (ho : j.off < j.len) : jobEnd j = none := by
  unfold jobEnd
  rw [if_neg (not_not.2 hs), if_neg (Nat.not_le.2 ho)]

theorem jobEnd_some (h : j.status ≠ 0 ∨ j.len ≤ j.off) : jobEnd j = some (if j.status ≠ 0 then j.status else 1) := by
  unfold jobEnd
  by_cases hs : j.status = 0
  · rw [if_neg (not_not.2 hs), if_neg (not_not.2 hs), if_pos (h.resolve_left (not_not.2 hs))]
  · rw [if_pos hs, if_pos hs]

/-- The completion word of job j, which ends with status st, is written where the job names a place for it. -/
def wordWritten (s : State) (j : CeJob) (st : Nat) : State :=
  if j.done ≠ 0 ∧ (region j.done = .fast ∨ region j.done = .cap)
  then physWrite s j.done (natToBytes 8 (st * 2 ^ 56 + if st = 3 then 0 else j.off / 256)) else s

theorem endJob_goesOn (h : (s.die d).ce = some j) (hs : j.status = 0) (ho : j.off < j.len) : endJob s d = s := by
  unfold endJob
  rw [h]
  dsimp only
  rw [jobEnd_none hs ho]

theorem endJob_ends {st : Nat} (h : (s.die d).ce = some j) (he : jobEnd j = some st) : endJob s d =
    let u := wordWritten (s.modDie d fun x => { x with ce := none }) j st
    let u := putTicket { u with dist := { u.dist with jobs := u.dist.jobs.erase (j.vf, j.ticket) } } j.vf j.ticket st
    settleInputs u.dist.launches.length u := by
  have hword (v : State) : (if j.done = 0 ∨ (!inTiers j.done) = true then v
      else physWrite v j.done (natToBytes 8 (st * 2 ^ 56 + if st = 3 then 0 else j.off / 256))) = wordWritten v j st := by
    unfold wordWritten
    rw [← ite_not]
    exact if_congr (by simp [inTiers, or_iff_not_imp_left]) rfl rfl
  unfold endJob
  rw [h]
  dsimp only
  rw [he]
  dsimp only
  rw [hword]

end

end Sys2Proof.Machine
end

section
/-!
PROOF. Stops, cuts, CUTCMD and the copy engines (O54).
-/

namespace Sys2Proof.Machine

/-- Settles O54, operation by operation: each comes to the state that the statement writes out. -/
theorem stopsAndCopies : Obligations.StopsAndCopies := by
  unfold Obligations.StopsAndCopies
  intro s u core bank gang v val d st p g h j ws
  extract_lets k stops takes here ended kept saved left cut cause told named halts held preempts resumes ends ring at_ pa waits len whole limits taken
  have hstops : stops = fun k u => stopTask u k := by
    funext k u
    exact (stopTask_eq u k).symm
  clear_value stops
  subst hstops
  have hsaved : recordsWritten s g = saved := by
    refine if_congr Iff.rfl (congrArg (fun f => here.foldl f ended) (funext₂ fun u k => ?_)) rfl
    cases hr : recordAt u g.vf k with
    | none => exact keepRecord_none hr
    | some pa => exact keepRecord_at hr
  have hcut : cutDone s g = cut := by
    unfold cutDone
    rw [takeCut_eq, hsaved]
    rfl
  clear_value cut
  subst hcut
  have hnamed {op : Nat} {ok : Gang → Bool} {x : Option Gang} (hx : named op ok x) : namedGang s v val op ok = x :=
    (namedGang_of hx.1 hx.2.1).trans hx.2.2.symm
  have htakes {x : Option Gang} (hx : s.gang gang = x) : takes = .next (x.elim s (finishCut s)) := hx ▸ exec_cutTaken gang s
  have hpreempt {x : Option Gang} (hx : namedGang s v val 3 (fun g => g.st == .attached) = x) :
      exec (.cutcmdPreempt v val) s = .next (x.elim s (askPreempt s)) := hx ▸ exec_cutcmdPreempt v val s
  have hpa : descriptorAt s d = pa := rfl
  refine ⟨fun hg => ?_, fun hg => ⟨fun hs => ?_, fun hd hs => ?_⟩, fun hg => ?_,
    fun hg => ⟨fun hr => ?_, fun hr hh => ⟨fun how he => ?_, fun he hw => ?_, fun he hw ha => ?_, fun he hw ha => ?_, fun op he hw ha ho => ?_⟩⟩,
    fun hn => ?_, fun hn => ?_, endDetached_closed, endDetached_reopened, rfl, fun hx => ?_, fun hx => ⟨fun hd => ?_, fun hd => ?_⟩,
    fun hx => ?_, fun hx => ⟨fun hd => ?_, fun hd => ?_⟩, fun hx => ?_, fun hx => ?_, fun hx => ?_, fun hx => ?_, fun hx => ?_,
    readRows_none, fun hr hrows m hm => ?_, rfl, rfl, jobOk_iff ws, fun hw => ?_, fun hw h1 h2 => ?_, fun hw hp => ⟨fun bs hx => ?_, fun e hx => ?_⟩,
    fun hj => ?_, fun hj => ⟨fun hs ho => ?_, fun hst he => ?_⟩⟩
  -- the stop request
  · exact congrArg Host.Outcome.next (requestStop_none hg)
  · exact congrArg Host.Outcome.next (requestStop_unmoved hg hs)
  · exact congrArg Host.Outcome.next (requestStop_stops hg hd hs)
  -- the cut
  · exact htakes hg
  · rw [htakes hg, Option.elim_some, finishCut_unready hr]
  · rw [htakes hg, Option.elim_some, finishCut_ends hr hh he]
  · rw [htakes hg, Option.elim_some, finishCut_unwritten hr hh he hw]
    rfl
  · rw [htakes hg, Option.elim_some, finishCut_waits hr hh he hw ha]
    rfl
  · rw [htakes hg, Option.elim_some, finishCut_answers hr hh he hw ha, answerGang_ends]
    rfl
  · rw [htakes hg, Option.elim_some, finishCut_answers hr hh he hw ha, answerGang_resumes ho]
    rfl
  · subst hn
    exact endByDevice_again s g
  · exact endByDevice_fails hn s g
  -- CUTCMD
  · exact congrArg Host.Outcome.next (cutAnswer_none (hnamed hx))
  · exact congrArg Host.Outcome.next ((cutAnswer_detached (hnamed hx) hd).trans (answerGang_resumes (by decide) s g))
  · exact congrArg Host.Outcome.next ((cutAnswer_detaching (hnamed hx) hd).trans (if_congr (by simp) rfl rfl))
  · exact congrArg Host.Outcome.next (cutAnswer_none (hnamed hx))
  · exact congrArg Host.Outcome.next ((cutAnswer_detached (hnamed hx) hd).trans (answerGang_ends s g))
  · exact congrArg Host.Outcome.next ((cutAnswer_detaching (hnamed hx) hd).trans (if_neg (by simp)))
  · exact hpreempt (hnamed hx)
  · exact hpreempt (hnamed hx)
  · exact congrArg Host.Outcome.next (cutAnswer_none (namedGang_none hx))
  · exact congrArg Host.Outcome.next (cutAnswer_none (namedGang_none hx))
  · exact hpreempt (namedGang_none hx)
  -- the rows of a record
  · exact ⟨_, readRows_some hr hrows hm, mem_savedIn m⟩
  -- the copy engines
  · exact congrArg Host.Outcome.next (startJob_idle hw)
  · exact congrArg Host.Outcome.next (startJob_outside hw (inTiers_false h1 h2))
  · exact congrArg Host.Outcome.next ((startJob_inside hw (inTiers_true hp)).trans (by rw [hpa, hx]; rfl))
  · exact congrArg Host.Outcome.next ((startJob_inside hw (inTiers_true hp)).trans (by rw [hpa, hx]; rfl))
  · exact congrArg Host.Outcome.next (endJob_none hj)
  · exact congrArg Host.Outcome.next (endJob_goesOn hj hs ho)
  · subst hst
    exact congrArg Host.Outcome.next (endJob_ends hj (jobEnd_some he))

end Sys2Proof.Machine
end

section
/-!
SUPPORT. The reduction engine (05_vertical_bus R95-R99, R116, R117, R377, R380): the checks of a parameter block and its hand-over by C,
its acceptance, the strip whose end has come with its transfers and its sum, and the end of a block.
-/

namespace Sys2Proof.Machine

variable {s t u v : State} {x stack : Nat} {w pas : List Nat} {i : Instr} {b : RedBlk}

/-! ### The checks of a parameter block -/

theorem firstCause_spadChecks_unaligned {n al : Nat} (h : x % al ≠ 0) : firstCause (spadChecks s x n al) = some 29 := by
  simp [spadChecks, firstCause, h]

theorem firstCause_spadChecks_outside {n al : Nat} (h : x % al = 0) (ho : ¬ OwnSpad s x n) : firstCause (spadChecks s x n al) = some 32 := by
  rw [← inShare_iff] at ho
  simp [spadChecks, firstCause, h, ho]

theorem firstCause_spadChecks_inside {n al : Nat} (h : x % al = 0) (ho : OwnSpad s x n) : firstCause (spadChecks s x n al) = none := by
  rw [← inShare_iff] at ho
  simp [spadChecks, firstCause, h, ho]

/-- The checks of R116 that the words of a block alone decide, in their order. -/
def wordChecks (w : List Nat) : List (Bool × Nat) :=
  [(rdcFieldBad w, 25), ((rdcBuffers w).any fun v => v % 32 != 0, 29), (decide (w.getD 1 0 % 8 ≠ 0), 29)]

theorem wordChecks_field (h : rdcFieldBad w = true) : firstCause (wordChecks w) = some 25 := by
  simp [wordChecks, firstCause, h]

section
variable (h : rdcFieldBad w = false)
include h

theorem wordChecks_buffer (hb : ∃ v ∈ rdcBuffers w, v % 32 ≠ 0) : firstCause (wordChecks w) = some 29 := by
  have hany : ((rdcBuffers w).any fun v => v % 32 != 0) = true := by simpa using hb
  rw [wordChecks, h, hany]
  rfl

variable (hb : ∀ v ∈ rdcBuffers w, v % 32 = 0)
include hb

theorem wordChecks_flag (hf : w.getD 1 0 % 8 ≠ 0) : firstCause (wordChecks w) = some 29 := by
  have hany : ((rdcBuffers w).any fun v => v % 32 != 0) = false := by simpa using hb
  rw [wordChecks, h, hany, decide_eq_true hf]
  rfl

theorem wordChecks_pass (hf : w.getD 1 0 % 8 = 0) : firstCause (wordChecks w) = none := by
  have hany : ((rdcBuffers w).any fun v => v % 32 != 0) = false := by simpa using hb
  rw [wordChecks, h, hany, decide_eq_false (not_not.2 hf)]
  rfl

end

/-! ### The buffers of a block against the pinned windows -/

/-- The physical address that the windows give address v. -/
def windowPa (s : State) (v : Nat) : Nat := match windowOf s v with | some l => l.phys v | none => 0

/-- n bytes from v leave the window that holds v, or enter one from outside every window. -/
def leavesWindow (s : State) (n v : Nat) : Bool := match windowOf s v with
  | some l => !l.maps (v + n - 1)
  | none => s.me.tlb.pins.any fun l => decide (v < l.va) && decide (l.va < v + n)

/-- Address v does not lie in the fast tier, in the stack of address d. -/
def offStack (s : State) (d v : Nat) : Bool := match windowOf s v with
  | some l => region (l.phys v) != .fast || stackOf (chanOf (l.phys v)) != stackOf (chanOf (windowPa s d))
  | none => true

/-- The window of v forbids reads. -/
def unreadable (s : State) (v : Nat) : Bool := !(windowOf s v).any Leaf.r

/-- n bytes from v overlap the n bytes from d without being those. -/
def overlaps (s : State) (d n v : Nat) : Bool :=
  windowPa s v != windowPa s d && decide (windowPa s v < windowPa s d + n) && decide (windowPa s d < windowPa s v + n)

/-- The addresses of the buffers of a block without bits 63:56 (log entry 78). -/
def bufferVas (w : List Nat) : List Nat := (rdcBuffers w).map fun v => v % 2 ^ 56

/-- Bytes of each buffer of a block. -/
def bufferSize (w : List Nat) : Nat := 32 * (w.getD 2 0 % 2 ^ 30)

/-- The checks of R116 against the windows in their order. -/
theorem rdcPlaces_eq (s : State) (w : List Nat) :
    let base := bufferVas w
    let d := w.getD 0 0 % 2 ^ 56
    rdcPlaces s w = (base.find? (leavesWindow s (bufferSize w))).elim
      ((base.find? (offStack s d)).elim
        (if (windowOf s d).any Leaf.w = false then .error (199, d) else
          ((base.drop 1).find? (unreadable s)).elim
            (if (base.drop 1).any (overlaps s d (bufferSize w)) then .error (32, 0) else .ok (base.map (windowPa s)))
            fun v => .error (199, v))
        fun v => .error (200, v))
      fun v => .error (201, v) := by
  extract_lets base d
  have hzip : base.zip (base.map fun v => windowOf s v) = base.map fun v => (v, windowOf s v) := List.map_prod_left_eq_zip.symm
  have hfind (p : Nat × Option Leaf → Bool) : ((base.map fun v => (v, windowOf s v)).find? p).map Prod.fst
      = base.find? fun v => p (v, windowOf s v) := by
    rw [List.find?_map, Option.map_map]
    exact Option.map_id'
  unfold rdcPlaces
  dsimp only
  rw [show (rdcBuffers w).map (fun v => v % 2 ^ 56) = base from rfl, hzip, hfind, hfind, List.map_map, ← List.map_drop, List.find?_map]
  generalize hP : List.map (_ ∘ fun v => (v, windowOf s v)) base = P
  change base.map (windowPa s) = P at hP
  subst hP
  generalize hA : List.find? _ base = A
  change base.find? (leavesWindow s (bufferSize w)) = A at hA
  generalize hB : List.find? _ base = B
  change base.find? (offStack s d) = B at hB
  rw [hA, hB]
  cases A with
  | some v => rfl
  | none =>
    cases B with
    | some v => rfl
    | none =>
      refine if_congr (by rw [Bool.not_eq_true']; rfl) rfl ?_
      generalize hC : List.find? _ (base.drop 1) = C
      change (base.drop 1).find? (unreadable s) = C at hC
      rw [hC]
      cases C with
      | some v => rfl
      | none =>
        refine if_congr (Bool.eq_iff_iff.1 ?_) rfl rfl
        rw [← List.map_drop, List.any_map]
        rfl

/-! ### The markers before a flag, and the page of the flag -/

theorem marked_eq (s : State) : marked s = s.modMe passMarks := by
  unfold marked
  congr 1
  funext y
  unfold passMarks
  cases hm : y.c.marks with
  | nil => rfl
  | cons m r => rfl

theorem unsent_iff {l : List CCmd} : l.any CCmd.unsent = true ↔ ∃ c ∈ l, c.pinned = false ∧ c.failed = false ∧ c.next < c.len := by
  simp [CCmd.unsent, and_assoc]

theorem leafCause_store (s : State) (l : Leaf) (va : Nat) :
    leafCause s l va true none = if placed s l va = false then some 200 else if l.w = true then none else some 199 := by
  unfold leafCause
  cases placed s l va <;> rfl

section
variable (hw : Walks s.key s.cur.eng s t)
include hw

theorem Walks.marked : Walks s.key s.cur.eng (marked s) (marked t) := by
  rw [marked_eq, marked_eq]
  refine hw.modMe _ fun a b hab => ?_
  have hc : a.c = b.c := (congrArg Task.c hab :)
  have ht : a.tlb = b.tlb := (congrArg Task.tlb hab :)
  unfold passMarks
  rw [hc, ht]
  split
  · exact hab
  · simp only [Task.still, Task.mk.injEq] at hab ⊢
    simp_all

theorem Walks.afterStall (buf : Nat) : Walks s.key s.cur.eng (stalled s s.key buf) (stalled t t.key buf) := by
  have hf : Walks s.key s.cur.eng { s with free := s.free + 1 } { t with free := s.free + 1 } := hw.setFree _
  unfold stalled countBuf
  rw [hw.free]
  refine Walks.modMe (s := { s with free := s.free + 1 }) hf _ fun a b hab => ?_
  have hb : a.bufcnt = b.bufcnt := (congrArg Task.bufcnt hab :)
  simp only [Task.still, Task.mk.injEq] at hab ⊢
  simp_all

theorem Walks.frontStream (l : List Leaf) : Walks s.key s.cur.eng (s.modMe fun y => { y with tlb := { y.tlb with strm := l } })
    (t.modMe fun y => { y with tlb := { y.tlb with strm := l } }) := by
  refine hw.modMe _ fun a b hab => ?_
  have ht : a.tlb = b.tlb := (congrArg Task.tlb hab :)
  simp only [Task.still, Task.mk.injEq] at hab ⊢
  simp_all

end

theorem checkerIdle_modMe {f : Task → Task} (hf : ∀ y, (f y).gang = y.gang) (h : CheckerIdle s) : CheckerIdle (s.modMe f) := by
  intro g hg
  exact h g ((gangOf_modTask (hf _)).symm.trans hg)

theorem passMarks_gang (y : Task) : (passMarks y).gang = y.gang := by
  unfold passMarks
  split <;> rfl

/-! ### rdc -/

theorem waitFor_walks_at (hc : t.cur = s.cur) (w : Wait) : Walks s.key s.cur.eng t (waitFor w t) := by
  have h := waitFor_walks w t
  rwa [show t.key = s.key from congrArg (fun c : Cur => tkey c.core c.bank) hc, hc] at h

/-- What rdc does once leaf l translates the address of its flag. -/
def rdcFlagged (x : Nat) (w pas : List Nat) (l : Leaf) (s : State) : State :=
  match leafCause s l (w.getD 1 0 % 2 ^ 56) true none with
  | some code => trapAt code (w.getD 1 0 % 2 ^ 56) s
  | none => handOver x w pas (some (l.phys (w.getD 1 0 % 2 ^ 56))) s

/-- What rdc does with the words w of its block at scratchpad address x once they have passed the checks of their own. -/
def rdcPlaced (x : Nat) (w : List Nat) (s : State) : State :=
  match rdcPlaces s w with
  | .error e => trapAt e.1 e.2 s
  | .ok pas =>
    if w.getD 1 0 = 0 then handOver x w pas none s
    else if s.me.c.marks ≠ [] ∧ s.me.c.cmds.any CCmd.unsent then waitFor .retry s
    else
      let va := w.getD 1 0 % 2 ^ 56
      let s := s.modMe passMarks
      match lookup s.me.tlb.strm va with
      | none => waitFor .retry (countStall (startWalk s s.key 1 va false 0) s.key s.cur.ch.buf)
      | some (l, t) => rdcFlagged x w pas l (s.modMe fun y => { y with tlb := { y.tlb with strm := t } })

theorem exec_rdc (a : Nat) (s : State) : exec (.rdc a) s = .next (issueToken (fun u => checked (spadChecks u (cv u a).toNat 128 128)
    (fun v => checked (wordChecks (v.myCore.spad.getWords (cv u a).toNat 16))
      (rdcPlaced (cv u a).toNat (v.myCore.spad.getWords (cv u a).toNat 16)) v) u) s) := by
  change execRdc a s = _
  unfold execRdc
  refine congrArg (fun f => Host.Outcome.next (issueToken f s)) (funext fun u => ?_)
  refine congrArg (fun f => checked (spadChecks u (cv u a).toNat 128 128) f u) (funext fun v => ?_)
  refine congrArg (fun f => checked (wordChecks (v.myCore.spad.getWords (cv u a).toNat 16)) f v) (funext fun z => ?_)
  unfold rdcPlaced
  cases rdcPlaces z (v.myCore.spad.getWords (cv u a).toNat 16) <;> rfl

/-- The hand-over of a block whose flag lies at that address, if it has one. -/
theorem handOver_acts {flag : Option Nat} (he : exec i s = .next (handOver x w pas flag t)) (hw : Walks s.key s.cur.eng u t)
    (hc : t.cur = s.cur) (hck : CheckerIdle t) : Acts i s u (handing w pas (flag.elim 0 (· + 1))) := by
  unfold handOver at he
  obtain ⟨t', he, hw', -⟩ := exec_declare he hck s.key s.cur.eng
  refine acts_of (t := t') ?_ (hw.trans hw') (hw'.cur.trans hc)
  rw [he]
  cases flag <;> rfl

/-- An rdc whose address operand passes goes on with the words of its block. -/
theorem rdc_reads {a : Nat} (h : CanSend s) (hx : (cv s a).toNat % 128 = 0) (ho : OwnSpad s (cv s a).toNat 128) :
    ∃ t, exec (.rdc a) s = .next (checked (wordChecks (s.myCore.spad.getWords (cv s a).toNat 16))
        (rdcPlaced (cv s a).toNat (s.myCore.spad.getWords (cv s a).toNat 16)) t)
      ∧ Walks s.key s.cur.eng s t ∧ CheckerIdle t := by
  obtain ⟨t, ht, hw, hck, -⟩ := exec_token (exec_rdc a s) h
  refine ⟨t, ?_, hw, hck⟩
  rw [hw.cv, hw.spadChecks, checked_pass (firstCause_spadChecks_inside hx ho), hw.myCore] at ht
  exact ht

theorem rdc_address {a code : Nat} (h : CanSend s) (hc : firstCause (spadChecks s (cv s a).toNat 128 128) = some code) :
    Moves (.rdc a) s (trap code s) := by
  obtain ⟨t, ht, hw, -, -⟩ := exec_token (exec_rdc a s) h
  rw [hw.cv, hw.spadChecks, checked_cause hc] at ht
  exact ⟨_, ht, hw.trap code⟩

section
variable (he : exec i s = .next (rdcPlaced x w t)) (hw : Walks s.key s.cur.eng s t)
include he hw

theorem rdcPlaced_fails {code va : Nat} (hp : rdcPlaces s w = .error (code, va)) : Moves i s (trapAt code va s) := by
  unfold rdcPlaced at he
  rw [hw.rdcPlaces, hp] at he
  exact ⟨_, he, hw.trapAt code va⟩

section
variable (hp : rdcPlaces s w = .ok pas)
include hp

theorem rdcPlaced_unflagged (hck : CheckerIdle t) (hf : w.getD 1 0 = 0) : Acts i s s (handing w pas 0) := by
  unfold rdcPlaced at he
  rw [hw.rdcPlaces, hp] at he
  dsimp only at he
  rw [if_pos hf] at he
  exact handOver_acts he hw hw.cur hck

section
variable (hf : w.getD 1 0 ≠ 0)
include hf

theorem rdcPlaced_waits (hm : s.me.c.marks ≠ []) (hu : s.me.c.cmds.any CCmd.unsent = true) : Moves i s s := by
  have hc : t.me.c = s.me.c := hw.me_field (fun y => y.c) fun _ => rfl
  unfold rdcPlaced at he
  rw [hw.rdcPlaces, hp] at he
  dsimp only at he
  rw [if_neg hf, if_pos (by rw [hc]; exact ⟨hm, hu⟩)] at he
  exact ⟨_, he, waits_walks hw _⟩

section
variable (hm : ¬ (s.me.c.marks ≠ [] ∧ s.me.c.cmds.any CCmd.unsent = true))
include hm

theorem rdcPlaced_walks (hl : lookup (marked s).me.tlb.strm (w.getD 1 0 % 2 ^ 56) = none) :
    Moves i s (stalled (startWalk (marked s) s.key 1 (w.getD 1 0 % 2 ^ 56) false 0) s.key s.cur.ch.buf) := by
  have hc : t.me.c = s.me.c := hw.me_field (fun y => y.c) fun _ => rfl
  have ht : (marked t).me.tlb = (marked s).me.tlb := Walks.me_field (s := marked s) hw.marked (fun y => y.tlb) fun _ => rfl
  unfold rdcPlaced at he
  rw [hw.rdcPlaces, hp] at he
  dsimp only at he
  rw [if_neg hf, if_neg (by rw [hc]; exact hm), ← marked_eq, ht, hl] at he
  have hwalk := Walks.startWalk (s := marked s) hw.marked 1 (w.getD 1 0 % 2 ^ 56) false 0
  have hstall := Walks.afterStall (s := startWalk (marked s) s.key 1 (w.getD 1 0 % 2 ^ 56) false 0) hwalk s.cur.ch.buf
  have hcur : (marked t).cur = s.cur := hw.cur
  rw [hcur] at he
  exact ⟨_, he, hstall.trans (waitFor_walks_at hstall.cur .retry)⟩

theorem rdcPlaced_finds {l : Leaf} {c : List Leaf} (hck : CheckerIdle t)
    (hl : lookup (marked s).me.tlb.strm (w.getD 1 0 % 2 ^ 56) = some (l, c)) :
    ∃ v, exec i s = .next (rdcFlagged x w pas l v) ∧ CheckerIdle v
      ∧ Walks s.key s.cur.eng ((marked s).modMe fun y => { y with tlb := { y.tlb with strm := c } }) v := by
  have hc : t.me.c = s.me.c := hw.me_field (fun y => y.c) fun _ => rfl
  have ht : (marked t).me.tlb = (marked s).me.tlb := Walks.me_field (s := marked s) hw.marked (fun y => y.tlb) fun _ => rfl
  unfold rdcPlaced at he
  rw [hw.rdcPlaces, hp] at he
  dsimp only at he
  rw [if_neg hf, if_neg (by rw [hc]; exact hm), ← marked_eq, ht, hl] at he
  refine ⟨_, he, checkerIdle_modMe (fun _ => rfl) ?_, Walks.frontStream (s := marked s) hw.marked c⟩
  rw [marked_eq]
  exact checkerIdle_modMe passMarks_gang hck

end

end

end

end

section
variable {l : Leaf} (he : exec i s = .next (rdcFlagged x w pas l t)) (hw : Walks s.key s.cur.eng u t) (hc : u.cur = s.cur)
include he hw hc

theorem rdcFlagged_fails {code : Nat} (hl : leafCause u l (w.getD 1 0 % 2 ^ 56) true none = some code) :
    Moves i s (trapAt code (w.getD 1 0 % 2 ^ 56) u) := by
  have hk : u.key = s.key := congrArg (fun c : Cur => tkey c.core c.bank) hc
  unfold rdcFlagged at he
  rw [leafCause_store, hw.placed, ← leafCause_store, hl] at he
  rw [← hk, ← hc] at hw
  refine ⟨_, he, ?_⟩
  rw [← hk, ← hc]
  exact hw.trapAt code _

theorem rdcFlagged_hands (hck : CheckerIdle t) (hl : leafCause u l (w.getD 1 0 % 2 ^ 56) true none = none) :
    Acts i s u (handing w pas (l.phys (w.getD 1 0 % 2 ^ 56) + 1)) := by
  unfold rdcFlagged at he
  rw [leafCause_store, hw.placed, ← leafCause_store, hl] at he
  exact handOver_acts he hw (hw.cur.trans hc) hck

end

/-! ### The acceptance of a block -/

theorem acceptBlock_none {k : Nat} (h : (s.task k).c.rdc = none) : acceptBlock s k = s := by
  unfold acceptBlock
  rw [h]

/-- The block that the words w of C of task k describe to the engine of its stack (R95). -/
def blockOf (s : State) (k : Nat) (w : List Nat) : RedBlk :=
  { core := k / 2, bank := k % 2, seq := w.getD 0 0, buf := w.getD 1 0, dst := w.getD 5 0, srcs := w.drop 6
    flag := if w.getD 4 0 = 0 then none else some (w.getD 4 0 - 1)
    scope := slice (w.getD 2 0) 38 3, sequential := bitOf (w.getD 2 0) 35, bf := bitOf (w.getD 2 0) 34
    nstrips := w.getD 2 0 % 2 ^ 30, stride := slice (w.getD 3 0) 48 16, nbeats := slice (w.getD 3 0) 32 16, first := w.getD 3 0 % 2 ^ 32
    accepted := (s.die (stackOf (chanOf (w.getD 5 0)) / 2)).beat }

section
variable {k : Nat} (h : (s.task k).c.rdc = some w)
include h

theorem acceptBlock_full (hr : 4 ≤ (s.stack (stackOf (chanOf (w.getD 5 0)))).red.length ∨ (s.task k).stop = true) : acceptBlock s k = s := by
  unfold acceptBlock
  rw [h]
  exact if_pos hr

theorem acceptBlock_joins (hr : (s.stack (stackOf (chanOf (w.getD 5 0)))).red.length < 4) (hs : (s.task k).stop = false) : acceptBlock s k =
    (s.modStack (stackOf (chanOf (w.getD 5 0))) fun z => { z with red := z.red ++ [blockOf s k w] }).modTask k
      fun t => { t with c := { t.c with rdc := none } } := by
  unfold acceptBlock
  rw [h]
  exact if_neg (not_or.2 ⟨Nat.not_le.2 hr, by simp [hs]⟩)

end

/-! ### Strips -/

/-- The end of the next strip of block b has come: the engine could begin it, and it ends inside the window (R96). -/
def StripEnds (s : State) (stack : Nat) (b : RedBlk) : Prop :=
  let z := s.die (stack / 2)
  redUser s stack z.beat = some b ∧ z.freeze = none ∧ z.pause = none ∧ 2 * stripStart s stack z.beat ≤ z.off2
    ∧ stripEnd s stack z.beat b ≤ s.windowEnd z.beat ∧ (∀ p ∈ b.channels stack, s.steep p z.beat = false)
    ∧ 2 * stripEnd s stack z.beat b ≤ z.off2

theorem stripDue_eq_some : stripDue s stack = some b ↔ StripEnds s stack b := by
  unfold stripDue StripEnds
  dsimp only
  cases hu : redUser s stack (s.die (stack / 2)).beat with
  | none => simp
  | some y =>
    simp only [Option.ite_none_right_eq_some, counting_iff, stripUnderWay, hu, Bool.and_eq_true, decide_eq_true_eq, List.all_eq_true,
      and_assoc, Bool.not_eq_true', Option.some.injEq, beq_iff_eq, true_and]
    constructor
    · rintro ⟨h1, h2, h3, h4, h5, h6, rfl⟩
      exact ⟨rfl, h1, h2, h3, h4, h5, h6⟩
    · rintro ⟨rfl, h1, h2, h3, h4, h5, h6⟩
      exact ⟨h1, h2, h3, h4, h5, h6, rfl⟩

theorem reduceStrip_none (h : ∀ b, ¬ StripEnds s stack b) : reduceStrip s stack = s := by
  unfold reduceStrip
  rw [Option.eq_none_iff_forall_ne_some.2 fun b hb => h b (stripDue_eq_some.1 hb)]

/-- Strips of a block already done in the beat that is open. -/
def stripsUsed (s : State) (stack : Nat) (b : RedBlk) : Nat :=
  match b.cur with | some c => if c.1 = (s.die (stack / 2)).beat then c.2 else 0 | none => 0

section
variable (h : StripEnds s stack b)
include h

theorem reduceStrip_loses {bad : List (Nat × Nat × Nat)} (hr : sendStrip s stack b (stripSends s stack b) = (v, bad, true)) :
    reduceStrip s stack = raiseCause (setBlock v stack b { b with stopped := true }) (tkey b.core b.bank) 303 0 0 := by
  unfold reduceStrip
  rw [stripDue_eq_some.2 h]
  dsimp only
  rw [hr]

theorem reduceStrip_retries {bad : List (Nat × Nat × Nat)} (hr : sendStrip s stack b (stripSends s stack b) = (v, bad, false))
    (hb : bad ≠ []) : reduceStrip s stack = setBlock v stack b { b with
      late := ((s.die (stack / 2)).beat, (if b.late.1 = (s.die (stack / 2)).beat then b.late.2 else 0) + 16 * bad.length), bad := bad } := by
  unfold reduceStrip
  rw [stripDue_eq_some.2 h]
  dsimp only
  rw [hr]
  cases bad with
  | nil => exact absurd rfl hb
  | cons y r => rfl

/-- All transfers of a strip pass, and its sources are read: their sum is written, and the block goes on (R97). -/
theorem reduceStrip_sums {l : List (List Byte)} (hr : sendStrip s stack b (stripSends s stack b) = (v, [], false))
    (hl : readSources v b.done b.srcs = (v, .ok l)) : reduceStrip s stack =
    let u := v.stripWrite (v.stripOf (b.dst + 32 * b.done)) 0 (sumStrips b.bf b.sequential l)
    let c := { b with done := b.done + 1, cur := some ((s.die (stack / 2)).beat, stripsUsed s stack b + 1), late := (0, 0), bad := []
                      stopped := (u.task (tkey b.core b.bank)).stop }
    countBuf ((setBlock u stack b c).modStack stack fun y =>
        { y with busy := ((s.die (stack / 2)).beat, stripEnd s stack (s.die (stack / 2)).beat b) })
      (tkey b.core b.bank) b.buf 0 (32 * (b.srcs.length + 1)) := by
  unfold reduceStrip
  rw [stripDue_eq_some.2 h]
  dsimp only
  rw [hr]
  dsimp only
  rw [hl]
  rfl

end

theorem readSources_sound {n : Nat} {l : List Nat} (h : ∀ a ∈ l, ∀ f ∈ s.cellFaults, f.strip ≠ s.stripOf (a + 32 * n)) :
    readSources s n l = (s, .ok (l.map fun a => s.stripData (s.stripOf (a + 32 * n)))) := by
  induction l with
  | nil => rfl
  | cons a r ih =>
    unfold readSources
    rw [eccRead_sound s _ 3 (h a (List.mem_cons_self ..))]
    dsimp only
    rw [ih fun y hy => h y (List.mem_cons_of_mem _ hy)]
    rfl

/-- No transfer over the bus of pseudo-channel p fails: it is not lost nor folded, and the environment gives no bad tick. -/
def BusClean (s : State) (p : Nat) : Prop := isLost s p = false ∧ foldOf s p = 0 ∧ (s.chan p).busFaults = [] ∧ (s.chan p).fails = []

/-- A passing send over a clean bus leaves every clean bus clean. -/
theorem busClean_sent {p q : Nat} (h : BusClean s q) : BusClean (s.modChan p fun c => { c with busFaults := [], fails := [] }) q := by
  obtain ⟨h1, h2, h3, h4⟩ := h
  refine ⟨h1, h2, ?_⟩
  by_cases hq : q = p
  · subst hq
    rw [State.chan_modChan_same]
    exact ⟨rfl, rfl⟩
  · rw [State.chan_modChan_ne _ _ hq]
    exact ⟨h3, h4⟩

theorem sendStrip_clean {l : List (Nat × Nat)} (hb : b.bad = []) (h : ∀ y ∈ l, BusClean s (chanOf (y.2 + 32 * b.done))) :
    (sendStrip s stack b l).2 = ([], false) := by
  induction l generalizing s with
  | nil => rfl
  | cons y r ih =>
    obtain ⟨i, a⟩ := y
    obtain ⟨h1, h2, h3, h4⟩ := h (i, a) (List.mem_cons_self ..)
    unfold sendStrip
    dsimp only
    rw [if_neg (by rw [h1]; decide), paritySend_clean _ _ h3 h4, hb]
    dsimp only
    rw [logTransfer_unfailed _ rfl]
    exact ih fun y hy => busClean_sent (h y (List.mem_cons_of_mem _ hy))

/-! ### The end of a block -/

theorem ending_pair (s : State) (stack : Nat) (x : RedBlk) : (x.ending s stack).map (fun st => (x, st)) =
    if x.nstrips ≤ x.done then some (x, 1)
    else if x.live s ∧ beatAt (s.die (stack / 2)).beat ((x.first + (s.task (tkey x.core x.bank)).csr.tbb + (x.nbeats - 1) * x.stride) % 2 ^ 48)
      < (s.die (stack / 2)).beat then some (x, 2) else none := by
  unfold RedBlk.ending
  dsimp only
  split_ifs <;> rfl

theorem finishBlock_none (h : endingBlock s stack = none) : finishBlock s stack = s := by
  unfold finishBlock
  rw [h]

section
variable {status : Nat} (h : endingBlock s stack = some (b, status))
include h

theorem finishBlock_tells (hf : b.flag = none) : finishBlock s stack =
    completeToken (pushEvent (dropBlock s stack b) (tkey b.core b.bank) 11 status (min b.done 65535) b.seq) (tkey b.core b.bank) .c b.seq := by
  unfold finishBlock
  rw [h]
  dsimp only
  rw [hf]

theorem finishBlock_flags {pa : Nat} (hf : b.flag = some pa) (hr : region pa = .fast ∨ region pa = .cap) : finishBlock s stack =
    withPiece (dropBlock s stack b) { core := b.core, bank := b.bank, die := stack / 2, own := .flag b.seq status (min b.done 65535), pa := pa
                                      len := 8, wr := true, data := natToBytes 8 status } := by
  unfold finishBlock
  rw [h]
  dsimp only
  rw [hf]
  dsimp only
  rw [sendPiece_near _ _ (by rcases hr with hr | hr <;> simp [hr]) (by rcases hr with hr | hr <;> simp [hr])]

end

end Sys2Proof.Machine
end

section
/-!
PROOF. The reduction engine (O45).
-/

namespace Sys2Proof.Machine

/-- Settles O45: rdc check by check as in R116, then the acceptance, the strips and the end of a block. -/
theorem reductions : Obligations.Reductions := by
  unfold Obligations.Reductions
  intro s a core bank stack n l t
  extract_lets x w flag bufs base dst size win pa crosses away unready laps stops va unsent u k z y start end_ due put last leaves
  have hwords : s.myCore.spad.getWords x 16 = w := range16 _ 16 x _ fun _ => rfl
  have hunsent : s.me.c.cmds.any CCmd.unsent = true ↔ unsent := unsent_iff
  have hplaces : rdcPlaces s w = (base.find? crosses).elim
      ((base.find? away).elim
        (if (win dst).any Leaf.w = false then .error (199, dst) else
          ((base.drop 1).find? unready).elim (if (base.drop 1).any laps then .error (32, 0) else .ok (base.map pa)) fun v => .error (199, v))
        fun v => .error (200, v))
      fun v => .error (201, v) := rdcPlaces_eq s w
  refine ⟨fun h => ⟨fun hx => ?_, fun hx ho => ?_, fun hx ho => ?_⟩, fun hr => ?_, fun seq buf x y f dst srcs hb hr => ?_, fun hn => ?_,
    fun b hd => ?_, ?_, fun he => ?_, fun b status he hn => ?_⟩
  -- the address of the block
  · exact rdc_address h (firstCause_spadChecks_unaligned hx)
  · exact rdc_address h (firstCause_spadChecks_outside hx ho)
  · obtain ⟨v, he, hv, hck⟩ := rdc_reads h hx ho
    change exec (.rdc a) s = .next (checked (wordChecks (s.myCore.spad.getWords x 16)) (rdcPlaced x (s.myCore.spad.getWords x 16)) v) at he
    rw [hwords] at he
    have hfails {code : Nat} (hc : firstCause (wordChecks w) = some code) : Moves (.rdc a) s (trap code s) := by
      rw [checked_cause hc] at he
      exact ⟨_, he, hv.trap code⟩
    -- the words of the block
    refine ⟨fun hw => hfails (wordChecks_field hw), fun hw hb => hfails (wordChecks_buffer hw hb),
      fun hw hb hf => hfails (wordChecks_flag hw hb hf), fun hw hb hf => ?_⟩
    rw [checked_pass (wordChecks_pass hw hb hf)] at he
    -- the windows of the buffers
    refine ⟨fun p hp => rdcPlaced_fails he hv (by rw [hplaces, hp]; rfl), fun hcross => ?_⟩
    rw [hcross, Option.elim_none] at hplaces
    refine ⟨fun p hp => rdcPlaced_fails he hv (by rw [hplaces, hp]; rfl), fun haway => ?_⟩
    rw [haway, Option.elim_none] at hplaces
    refine ⟨fun hdst => rdcPlaced_fails he hv (by rw [hplaces, if_pos hdst]), fun hdst => ?_⟩
    rw [if_neg (by rw [hdst]; decide)] at hplaces
    refine ⟨fun p hp => rdcPlaced_fails he hv (by rw [hplaces, hp]; rfl), fun hread => ?_⟩
    rw [hread, Option.elim_none] at hplaces
    refine ⟨fun hlap => rdcPlaced_fails he hv (by rw [hplaces, if_pos hlap]), fun hlap => ?_⟩
    rw [if_neg (by rw [hlap]; decide)] at hplaces
    -- the flag
    refine ⟨rdcPlaced_unflagged he hv hplaces hck, fun hf hm hu => rdcPlaced_waits he hv hplaces hf hm (hunsent.2 hu), fun hf hm => ?_⟩
    have hsent : ¬ (s.me.c.marks ≠ [] ∧ s.me.c.cmds.any CCmd.unsent = true) :=
      fun ⟨h1, h2⟩ => hm.elim h1 fun hn => hn (hunsent.1 h2)
    refine ⟨rdcPlaced_walks he hv hplaces hf hsent, fun hl => ?_⟩
    obtain ⟨v', he', hck', hv'⟩ := rdcPlaced_finds he hv hplaces hf hsent hck hl
    have hcur : u.cur = s.cur := rfl
    have hleaf : leafCause u l va true none = if placed u l va = false then some 200 else if l.w = true then none else some 199 :=
      leafCause_store u l va
    refine ⟨fun hp => rdcFlagged_fails he' hv' hcur ?_, fun hp hlw => rdcFlagged_fails he' hv' hcur ?_,
      fun hp hlw => rdcFlagged_hands he' hv' hcur hck' ?_⟩
    · exact hleaf.trans (if_pos hp)
    · exact hleaf.trans (by rw [hp, hlw]; rfl)
    · exact hleaf.trans (by rw [hp, hlw]; rfl)
  -- the acceptance
  · exact congrArg Host.Outcome.next (acceptBlock_none hr)
  · intro sk b
    have hblock : blockOf s k (seq :: buf :: x :: y :: f :: dst :: srcs) = b := by
      unfold blockOf
      rw [tkey_core hb, tkey_bank hb]
      rfl
    exact ⟨fun hfull => congrArg Host.Outcome.next (acceptBlock_full hr hfull),
      fun hroom hs => congrArg Host.Outcome.next ((acceptBlock_joins hr hroom hs).trans (by rw [hblock]; rfl))⟩
  -- the strips
  · exact congrArg Host.Outcome.next (reduceStrip_none hn)
  · have hstrip : StripEnds s stack b := hd
    intro sends sends' r v
    have hsend : sendStrip s stack b (stripSends s stack b) = (v, r.2.1, r.2.2) := rfl
    refine ⟨fun hlost => ?_, fun hlost hbad => ?_, fun hlost hbad hsound => ?_, fun hbad hclean => sendStrip_clean hbad hclean⟩
    · rw [hlost] at hsend
      exact congrArg Host.Outcome.next (reduceStrip_loses hstrip hsend)
    · rw [hlost] at hsend
      exact congrArg Host.Outcome.next (reduceStrip_retries hstrip hsend hbad)
    · rw [hlost, hbad] at hsend
      exact congrArg Host.Outcome.next (reduceStrip_sums hstrip hsend (readSources_sound hsound))
  -- the end of a block
  · unfold endingBlock
    exact congrArg (y.red.findSome? ·) (funext (ending_pair s stack))
  · exact congrArg Host.Outcome.next (finishBlock_none he)
  · subst hn
    exact ⟨fun hf => congrArg Host.Outcome.next (finishBlock_tells he hf),
      fun p hf hr => congrArg Host.Outcome.next (finishBlock_flags he hf hr)⟩

end Sys2Proof.Machine
end

section
/-!
SUPPORT. The commands of C that finish as they issue (06_access_instructions R111, R134, R136): their effect is written for any walked
state, and the checks of their operands read what the walk does not change.
-/

namespace Sys2Proof.Machine

variable {i : Instr} {s t : State} {l m : List (Bool × Nat)}

/-! ### What the walk does not change -/

/-- The place of a command in its beat: the walk moves neither the cursor nor the anchor (R73). -/
theorem Walks.placeCmd_walked (hw : Walks s.key s.cur.eng s t) (gp nx : Nat) : Machine.placeCmd t gp nx = Machine.placeCmd s gp nx := by
  have hcursor : t.myEng.cursor = s.myEng.cursor := hw.my (fun x => x.cursor) fun _ => rfl
  have hc : t.me.c = s.me.c := hw.me_field (fun x => x.c) fun _ => rfl
  unfold Machine.placeCmd
  rw [hcursor, hc, hw.cur]

/-- The stall of S, as another engine sees it: the walk of that engine leaves S where it is (R29). -/
theorem Walks.stalledFor_eq (hw : Walks s.key s.cur.eng s t) (hs : s.cur.eng ≠ .s) (hemit : t.me.emit = s.me.emit) (e : Eng) :
    stalledFor t t.key e = stalledFor s s.key e := by
  have heng : t.eng t.key .s = s.eng s.key .s := by rw [hw.key, hw.eng_ne (Ne.symm hs)]
  have hemit : (t.task t.key).emit = (s.task s.key).emit := hemit
  unfold stalledFor
  rw [heng, hemit]

/-! ### Operand checks -/

theorem firstCause_single {p : Prop} [Decidable p] (c : Nat) : firstCause [(decide p, c)] = if p then some c else none := by
  by_cases h : p <;> simp [firstCause, h]

/-- Checks that a body makes first come after the checks before it, in one list. -/
theorem checked_append {outer body : State → State} (h : outer s = checked m body s) : checked l outer s = checked (l ++ m) body s := by
  unfold checked at *
  rw [firstCause_append]
  cases firstCause l with
  | some c => rfl
  | none => exact h

/-! ### Quick commands -/

section
variable {g : State → State} (h : CanSend s) (hg : ∀ u : State, (g u).cur = u.cur)
include h hg

/-- A quick command without operand checks. -/
theorem quick_acts {rgn : List (Nat × Nat × Nat × Bool)} {f : State → State} (he : exec i s = .next (issueToken (quick rgn f) s))
    (hf : ∀ u, Walks s.key s.cur.eng s u → f u = g u) : Acts i s s fun t => doneToken (g t) := by
  obtain ⟨t, ht, hw, hck, -⟩ := exec_token he h
  exact quick_case' ht hw hck hg fun u hu _ => hf u hu

/-- A quick command whose operands are checked: what it declares and what it does may be read before the checks, in a walked state. -/
theorem checkedQuick_acts {checks : State → List (Bool × Nat)} {rgn : State → List (Nat × Nat × Nat × Bool)} {f : State → State → State}
    (he : exec i s = .next (issueToken (fun t => checked (checks t) (quick (rgn t) (f t)) t) s))
    (hc : ∀ t, Walks s.key s.cur.eng s t → checks t = checks s)
    (hf : ∀ t u, Walks s.key s.cur.eng s t → Walks s.key s.cur.eng s u → f t u = g u) :
    (∀ code, firstCause (checks s) = some code → Moves i s (trap code s))
    ∧ (firstCause (checks s) = none → Acts i s s fun t => doneToken (g t)) := by
  obtain ⟨t, ht, hw, hck, -⟩ := exec_token he h
  rw [hc t hw] at ht
  refine ⟨fun code hcode => ?_, fun hpass => ?_⟩
  · rw [checked_cause hcode] at ht
    exact ⟨_, ht, hw.trap code⟩
  · rw [checked_pass hpass] at ht
    exact quick_case' ht hw hck hg fun u hu _ => hf t u hw hu

end

end Sys2Proof.Machine
end

section
/-!
PROOF. The quick commands of C (06_access_instructions R111, R134, R136): dgap, cbeat, cadd, cmov, cpat and take.
-/

namespace Sys2Proof.Machine

variable {s : State}

/-- The word v stored at scratchpad address x (R136). -/
def storesWord (x v : Nat) (s : State) : State := s.modMyCore fun c => { c with spad := c.spad.wrN x 8 v }

/-- Pattern register px with the descriptor p (R134). -/
def loadsPattern (px p : Nat) (s : State) : State := s.modMe fun x => { x with pat := Sparse.wr 0 x.pat px p }

/-- C's cursor at a beat, and no anchor (R111). -/
def setsBeat (cursor : Nat) (s : State) : State :=
  (s.modMyEng fun x => { x with cursor := cursor }).modMe fun x => { x with c := { x.c with anchor := none } }

/-- The descriptor of a pattern at scratchpad address aN (R134). -/
def patternAt (s : State) (a : Nat) : Nat := s.myCore.spad.rdN (cv s a).toNat 64

/-- The checks of cpat: its address, then the descriptor that stands there (R134). -/
def cpatChecks (a : Nat) (s : State) : List (Bool × Nat) := spadChecks s (cv s a).toNat 64 64 ++ [(!patOk (patternAt s a), 25)]

theorem Walks.patternAt {t : State} (hw : Walks s.key s.cur.eng s t) (a : Nat) : patternAt t a = patternAt s a := by
  unfold Machine.patternAt
  rw [hw.myCore, hw.cv]

theorem Walks.cpatChecks {t : State} (hw : Walks s.key s.cur.eng s t) (a : Nat) : cpatChecks a t = cpatChecks a s := by
  unfold Machine.cpatChecks
  rw [hw.spadChecks, hw.cv, hw.patternAt]

theorem cpatChecks_unaligned {a : Nat} (hal : (cv s a).toNat % 64 ≠ 0) : firstCause (cpatChecks a s) = some 29 := by
  rw [cpatChecks, firstCause_append, firstCause_spadChecks_unaligned hal, Option.some_or]

theorem cpatChecks_outside {a : Nat} (hal : (cv s a).toNat % 64 = 0) (ho : ¬ OwnSpad s (cv s a).toNat 64) :
    firstCause (cpatChecks a s) = some 32 := by
  rw [cpatChecks, firstCause_append, firstCause_spadChecks_outside hal ho, Option.some_or]

/-- An address that passes leaves the descriptor to decide. -/
theorem cpatChecks_inside {a : Nat} (hal : (cv s a).toNat % 64 = 0) (ho : OwnSpad s (cv s a).toNat 64) :
    firstCause (cpatChecks a s) = if patOk (patternAt s a) then none else some 25 := by
  rw [cpatChecks, firstCause_append, firstCause_spadChecks_inside hal ho, Option.none_or]
  cases hk : patOk (patternAt s a) <;> simp [firstCause]

theorem exec_cpat (a px : Nat) (s : State) : exec (.cpat a px) s = .next (issueToken (fun t =>
    checked (cpatChecks a t) (quick (unitRange (spadSpace t.cur.core) (cv t a).toNat 64 false)
      (loadsPattern px (patternAt t a))) t) s) := by
  refine congrArg (fun f => Host.Outcome.next (issueToken f s)) (funext fun t => ?_)
  exact checked_append rfl

/-- A pattern register is loaded from a descriptor that keeps the limits of R134. -/
theorem cpat_cases (a px : Nat) (h : CanSend s) :
    (∀ code, firstCause (cpatChecks a s) = some code → Moves (.cpat a px) s (trap code s))
    ∧ (firstCause (cpatChecks a s) = none → Acts (.cpat a px) s s fun t => doneToken (loadsPattern px (patternAt s a) t)) :=
  checkedQuick_acts (g := loadsPattern px (patternAt s a)) h (fun _ => rfl) (exec_cpat a px s)
    (fun _ hw => hw.cpatChecks a) fun _ _ hw _ => by rw [hw.patternAt]

theorem cmovLd_cases (d a : Nat) (h : CanSend s) :
    (∀ code, firstCause (spadChecks s (cv s a).toNat 8 8) = some code → Moves (.cmovLd d a) s (trap code s))
    ∧ (firstCause (spadChecks s (cv s a).toNat 8 8) = none → Acts (.cmovLd d a) s s fun t =>
      doneToken (setC t d (BitVec.ofNat 64 (s.myCore.spad.rdN (cv s a).toNat 8)))) :=
  checkedQuick_acts (checks := fun t => spadChecks t (cv t a).toNat 8 8) h (fun _ => setC_cur _ _ _) rfl
    (fun _ hw => by rw [hw.spadChecks, hw.cv]) fun _ _ hw hu => by rw [hw.cv, hu.myCore]

theorem cmovSt_cases (d a : Nat) (h : CanSend s) :
    (∀ code, firstCause (spadChecks s (cv s d).toNat 8 8) = some code → Moves (.cmovSt d a) s (trap code s))
    ∧ (firstCause (spadChecks s (cv s d).toNat 8 8) = none → Acts (.cmovSt d a) s s fun t =>
      doneToken (storesWord (cv s d).toNat (cv s a).toNat t)) :=
  checkedQuick_acts (g := storesWord (cv s d).toNat (cv s a).toNat) (checks := fun t => spadChecks t (cv t d).toNat 8 8)
    (f := fun t u => storesWord (cv t d).toNat (cv u a).toNat u) h (fun _ => rfl) rfl
    (fun _ hw => by rw [hw.spadChecks, hw.cv]) fun _ _ hw hu => by rw [hw.cv, hu.cv]

/-- The beat cursor takes a beat below 2^48, and the anchor is cleared (R111). -/
theorem cbeat_cases (a : Nat) (h : CanSend s) :
    (2 ^ 48 ≤ (cv s a).toNat → Moves (.cbeat a) s (trap 25 s))
    ∧ ((cv s a).toNat < 2 ^ 48 → Acts (.cbeat a) s s fun t => doneToken (setsBeat (cv s a).toNat t)) := by
  obtain ⟨hfail, hpass⟩ := checkedQuick_acts (i := .cbeat a) (checks := fun t => [(decide (2 ^ 48 ≤ (cv t a).toNat), 25)])
    (f := fun t => setsBeat (cv t a).toNat) (g := setsBeat (cv s a).toNat) h (fun _ => rfl) rfl
    (fun _ hw => by rw [hw.cv]) fun _ _ hw _ => by rw [hw.cv]
  exact ⟨fun hv => hfail 25 ((firstCause_single 25).trans (if_pos hv)),
    fun hv => hpass ((firstCause_single 25).trans (if_neg (Nat.not_le.2 hv)))⟩

/-- dgap moves the cursor and the anchor to the place of a command with its gap (R111). -/
theorem dgap_acts (gp nx : Nat) (h : CanSend s) :
    Acts (.dgap gp nx) s s fun t => doneToken (setPlace t (placeCmd s gp nx).1 (placeCmd s gp nx).2) :=
  quick_acts h (g := fun t => setPlace t (placeCmd s gp nx).1 (placeCmd s gp nx).2) (fun _ => rfl) rfl fun _ hu => by
    dsimp only
    rw [hu.placeCmd_walked]

/-- An instruction that writes one address register with a function of two others (R136). -/
theorem addressOp_acts {i : Instr} {d a b : Nat} (op : Word → Word → Word) (h : CanSend s)
    (he : exec i s = .next (issueToken (quick [] fun t => setC t d (op (cv t a) (cv t b))) s)) :
    Acts i s s fun t => doneToken (setC t d (op (cv s a) (cv s b))) :=
  quick_acts h (fun _ => setC_cur _ _ _) he fun u hu => by rw [hu.cv, hu.cv]

/-- take pops the first word of hq (R136). -/
theorem take_pops (d : Nat) {v : Word} {r : List Word} (h : CanSend s) (hq : s.me.hq = v :: r) :
    Acts (.take d) s s fun t => doneToken (setC (t.modMe fun x => { x with hq := r }) d v) := by
  obtain ⟨t, ht, hw, hck, -⟩ := exec_token (i := .take d) rfl h
  have hhq : t.me.hq = v :: r := (hw.me_field (fun x => x.hq) fun _ => rfl).trans hq
  rw [hhq] at ht
  exact quick_case (f := fun u => setC (u.modMe fun x => { x with hq := r }) d v) ht hw hck fun _ => setC_cur _ _ _

/-- take finds hq empty: it raises code 27 where S is stalled, and else waits (R136). -/
theorem take_empty (d : Nat) (h : CanSend s) (hq : s.me.hq = []) (hs : s.cur.eng ≠ .s) :
    ∃ t, Walks s.key s.cur.eng s t ∧ exec (.take d) s = .next (if stalledFor s s.key .c then trap 27 t else waitFor .hq t) := by
  obtain ⟨t, ht, hw, -, -, hemit⟩ := exec_token' (i := .take d) rfl h
  have hhq : t.me.hq = [] := (hw.me_field (fun x => x.hq) fun _ => rfl).trans hq
  rw [hhq] at ht
  exact ⟨t, hw, by rw [ht, ← hw.stalledFor_eq hs hemit]⟩

theorem waitFor_wait (w : Wait) (s : State) : (waitFor w s).myEng.wait = w := by
  simp [waitFor, State.myEng, State.modMyEng]

/-- Settles O31, instruction by instruction from its checks and its effect. -/
theorem quickCommands : Obligations.QuickCommands := by
  unfold Obligations.QuickCommands
  intro s d a b gp nx h
  extract_lets finishes gap place va vd
  have hplace := placeCmd_eq s gp nx
  have hgap := dgap_acts gp nx h
  obtain ⟨hbad, hbeat⟩ := cbeat_cases a h
  obtain ⟨hld, hld'⟩ := cmovLd_cases d a h
  obtain ⟨hst, hst'⟩ := cmovSt_cases d a h
  obtain ⟨hpat, hpat'⟩ := cpat_cases a d h
  refine ⟨fun hnx => ?_, fun hnx => ?_, hbad, hbeat, addressOp_acts (· + ·) h rfl, addressOp_acts (· - ·) h rfl,
    addressOp_acts (fun x y => x <<< (y.toNat % 64)) h rfl, addressOp_acts (b := b) (fun x _ => x) h rfl,
    fun hal => hld _ (firstCause_spadChecks_unaligned hal), fun hal ho => hld _ (firstCause_spadChecks_outside hal ho),
    fun hal ho => hld' (firstCause_spadChecks_inside hal ho),
    fun hal => hst _ (firstCause_spadChecks_unaligned hal), fun hal ho => hst _ (firstCause_spadChecks_outside hal ho),
    fun hal ho => hst' (firstCause_spadChecks_inside hal ho),
    fun hal => hpat _ (cpatChecks_unaligned hal), fun hal ho => hpat _ (cpatChecks_outside hal ho),
    fun hal ho hk => hpat _ ((cpatChecks_inside hal ho).trans (if_neg (ne_true_of_eq_false hk))),
    fun hal ho hk => hpat' ((cpatChecks_inside hal ho).trans (if_pos hk)),
    fun v r hq => take_pops d h hq, fun hq hs hstall => ?_, fun hq hs hstall => ?_⟩
  -- dgap
  · simp only [hplace, if_pos hnx] at hgap
    exact hgap
  · simp only [hplace, if_neg hnx] at hgap
    exact hgap
  -- take
  all_goals obtain ⟨t, hw, ht⟩ := take_empty d h hq hs
  · rw [if_pos hstall] at ht
    exact ⟨_, ht, hw.trap 27⟩
  · rw [if_neg (by simp [hstall])] at ht
    exact ⟨_, ht, waits_walks hw _, waitFor_wait _ _⟩

end Sys2Proof.Machine
end

section
/-!
SUPPORT. The scratchpad commands of C as they begin (07_copy_paths R121-R124): the checks of their operands where these pass, and what a
command that has passed them comes to.
-/

namespace Sys2Proof.Machine

variable {i : Instr} {s t : State} {l m : List (Bool × Nat)} {x n : Nat}

/-! ### Operands -/

theorem firstCause_pass (hl : firstCause l = none) (hm : firstCause m = none) : firstCause (l ++ m) = none := by
  rw [firstCause_append, hl, hm, Option.or_none]

theorem Walks.lengthOf (hw : Walks s.key s.cur.eng s t) (cx : Nat) : Machine.lengthOf t cx = Machine.lengthOf s cx := by
  unfold Machine.lengthOf
  rw [hw.cv]

theorem Walks.countOf (hw : Walks s.key s.cur.eng s t) (cx : Nat) : Machine.countOf t cx = Machine.countOf s cx := by
  unfold Machine.countOf
  rw [hw.cv]

theorem saneLength_good (h : GoodLength n) : saneLength n = n := by
  obtain ⟨h1, h2, h3⟩ := h
  exact if_neg (by omega)

theorem lengthChecks_good (h : GoodLength n) : firstCause (lengthChecks n) = none := by
  obtain ⟨h1, h2, h3⟩ := h
  simp [lengthChecks, firstCause, h1, h2, h3]

section
variable (h1 : 1 ≤ n) (h2 : n ≤ 768)
include h1 h2

theorem saneCount_good : saneCount n = n := if_neg (by omega)

theorem countChecks_good : firstCause (countChecks n) = none := by
  simp [countChecks, firstCause, h2]
  omega

end

/-- n entries from e lie in the own share of the underfile (R157). -/
def OwnFile (s : State) (e n : Nat) : Prop :=
  if s.cur.bank = 0 then e + n ≤ s.myCore.fsplit else s.myCore.fsplit ≤ e ∧ e + n ≤ 768

theorem inFile_iff (s : State) (e n : Nat) : inFile s e n = true ↔ OwnFile s e n := by
  unfold inFile fileShare OwnFile
  dsimp only
  split <;> simp

theorem Walks.fileChecks (hw : Walks s.key s.cur.eng s t) (e n : Nat) : Machine.fileChecks t e n = Machine.fileChecks s e n := by
  unfold Machine.fileChecks inFile
  rw [hw.myCore, hw.cur]

theorem fileChecks_inside {e : Nat} (h : OwnFile s e n) : firstCause (fileChecks s e n) = none := by
  simp [fileChecks, firstCause, (inFile_iff s e n).2 h]

/-! ### The beginning of a command -/

/-- A command that has passed its checks takes its token, and C stays in it (R123). -/
theorem startSpad_begins {c : SpadCmd} {rgn : List (Nat × Nat × Nat × Bool)} (he : exec i s = .next (startSpad c rgn t))
    (hw : Walks s.key s.cur.eng s t) (hck : CheckerIdle t) : Acts i s s (begins c) := by
  unfold startSpad at he
  obtain ⟨u, hu, hwu, -⟩ := exec_declare he hck s.key s.cur.eng
  exact acts_of (f := begins c) hu (hw.trans hwu) (hw.trans hwu).cur

/-- A command whose checks pass begins; c gives it, which the walk does not change. -/
theorem checkedSpad_begins {checks : State → List (Bool × Nat)} {c : State → SpadCmd} {rgn : State → List (Nat × Nat × Nat × Bool)}
    (he : exec i s = .next (issueToken (fun u => checked (checks u) (startSpad (c u) (rgn u)) u) s)) (h : CanSend s)
    (hk : ∀ t, Walks s.key s.cur.eng s t → checks t = checks s) (hc : ∀ t, Walks s.key s.cur.eng s t → c t = c s)
    (hpass : firstCause (checks s) = none) : Acts i s s (begins (c s)) := by
  obtain ⟨t, ht, hw, hck, -⟩ := exec_token he h
  rw [hk t hw, hc t hw, checked_pass hpass] at ht
  exact startSpad_begins ht hw hck

end Sys2Proof.Machine
end

section
/-!
PROOF. The scratchpad commands of C as they begin (07_copy_paths R130, R132-R135): ccpy, cfq, cdq, cvf, cfv, ccv and cpl.
-/

namespace Sys2Proof.Machine

variable {s t : State}

/-- The checks of ccpy: both addresses, then the length (R130). -/
def ccpyChecks (a b cx : Nat) (s : State) : List (Bool × Nat) :=
  let n := saneLength (lengthOf s cx)
  let d := (cv s a).toNat
  let x := (cv s b).toNat
  [(decide (d % 32 ≠ 0), 29), ((reach s d n).isNone, 32), (decide (x % 32 ≠ 0), 29), ((reach s x n).isNone, 32)] ++ lengthChecks (lengthOf s cx)

/-- The checks of ccv and cpl, which copy into a storage of that size (R132). -/
def storeChecks (size a b cx : Nat) (s : State) : List (Bool × Nat) :=
  let n := saneLength (lengthOf s cx)
  let d := (cv s a).toNat
  [(decide (d % 32 ≠ 0), 29), (decide (size < d + n), 32)] ++ spadChecks s (cv s b).toNat n 32 ++ lengthChecks (lengthOf s cx)

theorem Walks.ccpyChecks (hw : Walks s.key s.cur.eng s t) (a b cx : Nat) : ccpyChecks a b cx t = ccpyChecks a b cx s := by
  simp only [Machine.ccpyChecks, hw.cv, hw.reach, hw.lengthOf]

theorem Walks.storeChecks (hw : Walks s.key s.cur.eng s t) (size a b cx : Nat) : storeChecks size a b cx t = storeChecks size a b cx s := by
  simp only [Machine.storeChecks, hw.cv, hw.spadChecks, hw.lengthOf]

/-- A copy between ranges that C reaches begins (R130). -/
theorem ccpy_begins {a b cx dc da sc sa : Nat} (h : CanSend s) (hl : GoodLength (lengthOf s cx)) (ha : (cv s a).toNat % 32 = 0)
    (hb : (cv s b).toNat % 32 = 0) (hd : Reaches s (cv s a).toNat (lengthOf s cx) dc da)
    (hx : Reaches s (cv s b).toNat (lengthOf s cx) sc sa) :
    Acts (.ccpy a b cx) s s (begins { kind := 0, dcore := dc, dst := da, score := sc, src := sa, n := lengthOf s cx }) := by
  have hrd := reach_of_reaches hd
  have hrx := reach_of_reaches hx
  have hpass : firstCause (ccpyChecks a b cx s) = none := by
    refine firstCause_pass ?_ (lengthChecks_good hl)
    simp [saneLength_good hl, firstCause, ha, hb, hrd, hrx]
  obtain ⟨t, ht, hw, hck, -⟩ := exec_token (i := .ccpy a b cx) rfl h
  change _ = Host.Outcome.next (checked (ccpyChecks a b cx t) _ t) at ht
  rw [hw.ccpyChecks, checked_pass hpass] at ht
  simp only [hw.cv, hw.lengthOf, hw.reach, hrd, hrx] at ht
  exact startSpad_begins ht hw hck

/-- A copy into a storage that holds the range begins (R132). -/
theorem intoStore_begins {i : Instr} {kind size sp a b cx : Nat} (he : exec i s = .next (issueToken (intoStore kind size sp a b cx) s))
    (h : CanSend s) (hl : GoodLength (lengthOf s cx)) (ha : (cv s a).toNat % 32 = 0) (hd : (cv s a).toNat + lengthOf s cx ≤ size)
    (hb : (cv s b).toNat % 32 = 0) (hx : OwnSpad s (cv s b).toNat (lengthOf s cx)) :
    Acts i s s (begins { kind := kind, dst := (cv s a).toNat, src := (cv s b).toNat, n := lengthOf s cx }) := by
  refine checkedSpad_begins (checks := storeChecks size a b cx)
    (c := fun u => { kind := kind, dst := (cv u a).toNat, src := (cv u b).toNat, n := lengthOf u cx }) he h
    (fun _ hw => hw.storeChecks size a b cx) (fun _ hw => by rw [hw.cv, hw.cv, hw.lengthOf]) ?_
  unfold storeChecks
  rw [saneLength_good hl]
  refine firstCause_pass (firstCause_pass ?_ (firstCause_inside hb hx)) (lengthChecks_good hl)
  simp [firstCause, ha, hd]

section
variable {a b q cx : Nat} (h : CanSend s) (h1 : 1 ≤ countOf s cx) (h2 : countOf s cx ≤ 768)
include h h1 h2

/-- Entries are pushed from a range of the own share (R133, R135). -/
theorem cfq_begins {px : Nat} (ha : (cv s a).toNat % 32 = 0)
    (hx : OwnSpad s (cv s a).toNat (patBytes (Sparse.rd 0 s.me.pat px) (countOf s cx))) :
    Acts (.cfq q a cx px) s s (begins { kind := 1, src := (cv s a).toNat, n := countOf s cx, q := q, pat := Sparse.rd 0 s.me.pat px }) := by
  have hpat {t : State} (hw : Walks s.key s.cur.eng s t) : t.me.pat = s.me.pat := hw.me_field (fun x => x.pat) fun _ => rfl
  refine checkedSpad_begins
    (checks := fun u => spadChecks u (cv u a).toNat (patBytes (Sparse.rd 0 u.me.pat px) (saneCount (countOf u cx))) 32 ++ countChecks (countOf u cx))
    (c := fun u => { kind := 1, src := (cv u a).toNat, n := countOf u cx, q := q, pat := Sparse.rd 0 u.me.pat px }) rfl h
    (fun _ hw => by rw [hw.spadChecks, hw.cv, hw.countOf, hpat hw]) (fun _ hw => by rw [hw.cv, hw.countOf, hpat hw]) ?_
  rw [saneCount_good h1 h2]
  exact firstCause_pass (firstCause_inside ha hx) (countChecks_good h1 h2)

/-- Entries are popped into a range of the own share (R133). -/
theorem cdq_begins (ha : (cv s a).toNat % 32 = 0) (hx : OwnSpad s (cv s a).toNat (1024 * countOf s cx)) :
    Acts (.cdq a q cx) s s (begins { kind := 2, dst := (cv s a).toNat, n := countOf s cx, q := q }) := by
  refine checkedSpad_begins
    (checks := fun u => spadChecks u (cv u a).toNat (1024 * saneCount (countOf u cx)) 32 ++ countChecks (countOf u cx))
    (c := fun u => { kind := 2, dst := (cv u a).toNat, n := countOf u cx, q := q }) rfl h
    (fun _ hw => by rw [hw.spadChecks, hw.cv, hw.countOf]) (fun _ hw => by rw [hw.cv, hw.countOf]) ?_
  rw [saneCount_good h1 h2]
  exact firstCause_pass (firstCause_inside ha hx) (countChecks_good h1 h2)

/-- Entries are copied into the own share of the underfile (R132). -/
theorem cvf_begins (hb : (cv s b).toNat % 32 = 0) (hx : OwnSpad s (cv s b).toNat (1024 * countOf s cx))
    (hf : OwnFile s (cv s a).toNat (countOf s cx)) :
    Acts (.cvf a b cx) s s (begins { kind := 3, dst := (cv s a).toNat, src := (cv s b).toNat, n := countOf s cx }) := by
  refine checkedSpad_begins
    (checks := fun u => fileChecks u (cv u a).toNat (saneCount (countOf u cx))
      ++ spadChecks u (cv u b).toNat (1024 * saneCount (countOf u cx)) 32 ++ countChecks (countOf u cx))
    (c := fun u => { kind := 3, dst := (cv u a).toNat, src := (cv u b).toNat, n := countOf u cx }) rfl h
    (fun _ hw => by rw [hw.fileChecks, hw.spadChecks, hw.cv, hw.cv, hw.countOf]) (fun _ hw => by rw [hw.cv, hw.cv, hw.countOf]) ?_
  rw [saneCount_good h1 h2]
  exact firstCause_pass (firstCause_pass (fileChecks_inside hf) (firstCause_inside hb hx)) (countChecks_good h1 h2)

/-- Entries are copied out of the own share of the underfile (R132). -/
theorem cfv_begins (ha : (cv s a).toNat % 32 = 0) (hx : OwnSpad s (cv s a).toNat (1024 * countOf s cx))
    (hf : OwnFile s (cv s b).toNat (countOf s cx)) :
    Acts (.cfv a b cx) s s (begins { kind := 4, dst := (cv s a).toNat, src := (cv s b).toNat, n := countOf s cx }) := by
  refine checkedSpad_begins
    (checks := fun u => spadChecks u (cv u a).toNat (1024 * saneCount (countOf u cx)) 32
      ++ fileChecks u (cv u b).toNat (saneCount (countOf u cx)) ++ countChecks (countOf u cx))
    (c := fun u => { kind := 4, dst := (cv u a).toNat, src := (cv u b).toNat, n := countOf u cx }) rfl h
    (fun _ hw => by rw [hw.fileChecks, hw.spadChecks, hw.cv, hw.cv, hw.countOf]) (fun _ hw => by rw [hw.cv, hw.cv, hw.countOf]) ?_
  rw [saneCount_good h1 h2]
  exact firstCause_pass (firstCause_pass (firstCause_inside ha hx) (fileChecks_inside hf)) (countChecks_good h1 h2)

end

/-- Settles O32, command by command from the checks that its operands pass. -/
theorem scratchpadCommands : Obligations.ScratchpadCommands := by
  unfold Obligations.ScratchpadCommands
  intro s a b q cx px h va vb len n pat file
  exact ⟨fun _ _ _ _ hl ha hb hd hx => ccpy_begins h hl ha hb hd hx, fun h1 h2 ha hx => cfq_begins h h1 h2 ha hx,
    fun h1 h2 ha hx => cdq_begins h h1 h2 ha hx, fun h1 h2 hb hx hf => cvf_begins h h1 h2 hb hx hf,
    fun h1 h2 ha hx hf => cfv_begins h h1 h2 ha hx hf, fun hl ha hd hb hx => intoStore_begins rfl h hl ha hd hb hx,
    fun hl ha hd hb hx => intoStore_begins rfl h hl ha hd hb hx⟩

end Sys2Proof.Machine
end

section
/-!
SUPPORT. The scratchpad command that C is in (07_copy_paths R124, R130-R135, R293): the share of its units that a copy moves in one act, and
the entries that a queue command moves or waits for.
-/

namespace Sys2Proof.Machine

variable {s : State} {k : Nat} {c : SpadCmd}

/-! ### Copies -/

/-- The 32-byte units of a copy. -/
def spadUnits (c : SpadCmd) : Nat := (c.size + 31) / 32

/-- A copy moves all at once where its ranges overlap, or with its last unit (R130, R293). -/
def movesWhole (c : SpadCmd) : Bool := c.overlaps || decide (spadUnits c - c.done ≤ 1)

/-- The units that a copy moves now: all, or a free number of them (R293). -/
def copyShare (s : State) (c : SpadCmd) : Nat :=
  let left := spadUnits c - c.done
  let f := Config.freeChoice s.free % left
  if movesWhole c then spadUnits c else if f = 0 then left else f

/-- A choice is drawn where a copy may move a part. -/
def copyDrawn (s : State) (c : SpadCmd) : State := if movesWhole c then s else { s with free := s.free + 1 }

theorem copyDrawn_core (s : State) (c : SpadCmd) (j : Nat) : (copyDrawn s c).core j = s.core j := by
  unfold copyDrawn
  split <;> rfl

/-- A copy moves the bytes of its next n units, and completes with its last (R124). -/
def copyActs (k : Nat) (c : SpadCmd) (n : Nat) (s : State) : State :=
  let v := copyBytes s (k / 2) c (32 * c.done) (min (32 * n) (c.size - 32 * c.done))
  if spadUnits c ≤ c.done + n then endSpad v k c
  else v.modTask k fun t => { t with c := { t.c with spc := some { c with done := c.done + n } } }

theorem movesWhole_iff : movesWhole c = true ↔
    (c.kind = 0 ∧ c.dcore = c.score ∧ c.dst < c.src + c.n ∧ c.src < c.dst + c.n) ∨ spadUnits c - c.done ≤ 1 := by
  simp [movesWhole, SpadCmd.overlaps, and_assoc]

/-- The units that are left, where they are all that a copy moves, come to the same as all of its units. -/
theorem copyActs_last (h : spadUnits c - c.done ≤ 1) (k : Nat) (s : State) :
    copyActs k c (spadUnits c - c.done) s = copyActs k c (spadUnits c) s := by
  have hbytes : min (32 * (spadUnits c - c.done)) (c.size - 32 * c.done) = min (32 * spadUnits c) (c.size - 32 * c.done) := by
    unfold spadUnits at *
    omega
  unfold copyActs
  dsimp only
  rw [hbytes, if_pos (by omega), if_pos (by omega)]

/-- A copy moves its share, and draws a choice where that may be a part. -/
theorem copyUnits32_eq (s : State) (k : Nat) (c : SpadCmd) : copyUnits32 s k c = copyActs k c (copyShare s c) (copyDrawn s c) := by
  have hacts : copyUnits32 s k c = (fun p : Nat × State => copyActs k c p.1 p.2)
    (if c.overlaps then (spadUnits c, s) else s.portion (spadUnits c - c.done)) := rfl
  rw [hacts]
  unfold copyShare copyDrawn movesWhole
  by_cases ho : c.overlaps = true
  · simp [ho]
  by_cases hl : spadUnits c - c.done ≤ 1
  · have hp : s.portion (spadUnits c - c.done) = (spadUnits c - c.done, s) := if_pos hl
    simp only [ho, hl, hp, decide_true, Bool.or_true, if_true]
    exact copyActs_last hl k s
  · have hp : s.portion (spadUnits c - c.done) = (if s.choose.1 % (spadUnits c - c.done) = 0 then spadUnits c - c.done
      else s.choose.1 % (spadUnits c - c.done), s.choose.2) := if_neg hl
    simp only [ho, hl, hp, decide_false, Bool.or_false]
    rfl

/-! #### The storages that it moves bytes between (R130, R132) -/

section
variable {own o m : Nat}

theorem copyBytes_spad (h : c.kind = 0) : copyBytes s own c o m =
    s.modCore c.dcore fun y => { y with spad := y.spad.putMem (c.dst + o) m (Sparse.window (s.core c.score).spad (c.src + o) m) } := by
  unfold copyBytes
  rw [h]
  rfl

theorem copyBytes_intoFile (h : c.kind = 3) : copyBytes s own c o m =
    s.modCore own fun y => { y with uf := y.uf.putMem (1024 * c.dst + o) m (Sparse.window (s.core own).spad (c.src + o) m) } := by
  unfold copyBytes
  rw [h]
  rfl

theorem copyBytes_outOfFile (h : c.kind = 4) : copyBytes s own c o m =
    s.modCore own fun y => { y with spad := y.spad.putMem (c.dst + o) m (Sparse.window (s.core own).uf (1024 * c.src + o) m) } := by
  unfold copyBytes
  rw [h]
  rfl

theorem copyBytes_canvas (h : c.kind = 5) : copyBytes s own c o m =
    s.modCore own fun y => { y with canvas := y.canvas.putMem (c.dst + o) m (Sparse.window (s.core own).spad (c.src + o) m) } := by
  unfold copyBytes
  rw [h]
  rfl

theorem copyBytes_palette (h : c.kind = 6) : copyBytes s own c o m =
    s.modCore own fun y => { y with palette := y.palette.putMem (c.dst + o) m (Sparse.window (s.core own).spad (c.src + o) m) } := by
  unfold copyBytes
  rw [h]
  rfl

end

/-! ### Entries of a queue -/

/-- An entry is pushed: it counts for what V finds in its queue from its next cycle on (R160). -/
def entryPushed (k : Nat) (c : SpadCmd) (s : State) : State :=
  s.modTask k fun t =>
    { t with opq := Sparse.wr [] t.opq c.q (Sparse.rd [] t.opq c.q ++ [patEntry (s.core (k / 2)).spad c.src c.pat c.done])
             c := { t.c with spc := some { c with done := c.done + 1 } }
             v := { t.v with pushed := Sparse.wr 0 t.v.pushed c.q (Sparse.rd 0 t.v.pushed c.q + 1) } }

/-- Entry e is popped into the scratchpad, which leaves r. -/
def entryPopped (k : Nat) (c : SpadCmd) (e : Mem) (r : List Mem) (s : State) : State :=
  (s.modTask k fun t =>
    { t with outq := Sparse.wr [] t.outq c.q r, c := { t.c with spc := some { c with done := c.done + 1 } } }).modCore (k / 2) fun y =>
    { y with spad := y.spad.putMem (c.dst + 1024 * c.done) 1024 e }

/-- A queue command has moved an entry: it completes with its last. -/
def entryMoved (k : Nat) (c : SpadCmd) (s : State) : State := if c.n ≤ c.done + 1 then endSpad s k c else s

/-- A cfq pushes its next entry, or finds its queue full (R133). -/
def cfqActs (k : Nat) (c : SpadCmd) (s : State) : State :=
  if c.n ≤ c.done then endSpad s k c
  else if 4 ≤ opqPlaces (s.task k) c.q then queueStuck s k c 28
  else entryMoved k c (entryPushed k c s)

/-- A cdq pops its next entry, or finds its queue empty (R133). -/
def cdqActs (k : Nat) (c : SpadCmd) (s : State) : State :=
  match Sparse.rd [] (s.task k).outq c.q with
  | [] => queueStuck s k c 27
  | e :: r => entryMoved k c (entryPopped k c e r s)

theorem cdqActs_empty (h : Sparse.rd [] (s.task k).outq c.q = []) : cdqActs k c s = queueStuck s k c 27 := by
  unfold cdqActs
  rw [h]

theorem cdqActs_pops {e : Mem} {r : List Mem} (h : Sparse.rd [] (s.task k).outq c.q = e :: r) :
    cdqActs k c s = entryMoved k c (entryPopped k c e r s) := by
  unfold cdqActs
  rw [h]

/-! ### What the command comes to -/

/-- A command that has not failed works by its kind. -/
def spadActs (k : Nat) (c : SpadCmd) (s : State) : State :=
  match c.kind with
  | 1 => cfqActs k c s
  | 2 => cdqActs k c s
  | _ => copyUnits32 s k c

theorem runSpad_none (h : (s.task k).c.spc = none) : runSpad s k = s := by
  unfold runSpad
  rw [h]

section
variable (h : (s.task k).c.spc = some c)
include h

theorem runSpad_failed (hf : c.failed = true) : runSpad s k = s := by
  unfold runSpad
  rw [h]
  exact if_pos hf

section
variable (hf : c.failed = false)
include hf

theorem runSpad_acts : runSpad s k = spadActs k c s := by
  unfold runSpad spadActs
  rw [h]
  exact if_neg (ne_true_of_eq_false hf)

theorem runSpad_cfq (hk : c.kind = 1) : runSpad s k = cfqActs k c s := by
  rw [runSpad_acts h hf, spadActs, hk]
  rfl

theorem runSpad_cdq (hk : c.kind = 2) : runSpad s k = cdqActs k c s := by
  rw [runSpad_acts h hf, spadActs, hk]
  rfl

theorem runSpad_copies (h1 : c.kind ≠ 1) (h2 : c.kind ≠ 2) : runSpad s k = copyActs k c (copyShare s c) (copyDrawn s c) := by
  rw [runSpad_acts h hf, spadActs, ← copyUnits32_eq]
  split
  · exact absurd ‹_› h1
  · exact absurd ‹_› h2
  · rfl

end

end

/-! ### A queue that is full or empty -/

/-- V of task k no longer acts for a command of C with that number (R133): it has taken an end record, or waits on a token of the command
or of a later one. -/
def VGone (s : State) (k seq : Nat) : Prop :=
  let x := s.eng k .v
  x.phase = .idle ∨ (x.wait = .tokens ∧ ∃ w ∈ x.latched.getD [], w.toNat / 2 ^ 35 % 2 = 1 ∧ w.toNat / 2 ^ 32 % 8 = Eng.c.tag
    ∧ tokenDone s k w = false ∧ (w.toNat % 2 ^ 32 + 2 ^ 32 - seq) % 2 ^ 32 < 2 ^ 31)

theorem vGone_iff (s : State) (k seq : Nat) : vGone s k seq = true ↔ VGone s k seq := by
  unfold vGone VGone bitOf slice
  simp only [Bool.or_eq_true, beq_iff_eq, Bool.and_eq_true, List.any_eq_true, decide_eq_true_eq, Bool.not_eq_true', and_assoc]
  rfl

/-- The command stops with its cause. -/
def spadTrapped (s : State) (k : Nat) (c : SpadCmd) (code : Nat) : State :=
  raiseCause ((s.modTask k fun t => { t with c := { t.c with spc := some { c with failed := true } } }).modEng k .c fun x =>
    { x with stopped := true }) k code 0 0

/-- An entry on its way keeps an empty queue from its cause, and not a full one (log entry 62). -/
theorem queueStuck_traps {code : Nat} (hg : VGone s k c.seq) (hs : (s.task k).stop = false)
    (hc : code = 27 → ¬ ∃ f ∈ (s.task k).v.flights, f.dst = .outq c.q) : queueStuck s k c code = spadTrapped s k c code := by
  refine if_pos ⟨(vGone_iff s k c.seq).2 hg, by simp [hs], fun ⟨h27, hcome⟩ => hc h27 ?_⟩
  simpa [outqComing] using hcome

theorem queueStuck_waits {code : Nat} (h : ¬ VGone s k c.seq ∨ (s.task k).stop = true
    ∨ (code = 27 ∧ ∃ f ∈ (s.task k).v.flights, f.dst = .outq c.q)) : queueStuck s k c code = s := by
  refine if_neg fun ⟨hg, hs, hc⟩ => ?_
  rcases h with h | h | ⟨h27, hcome⟩
  · exact h ((vGone_iff s k c.seq).1 hg)
  · simp [h] at hs
  · exact hc ⟨h27, by simpa [outqComing] using hcome⟩

end Sys2Proof.Machine
end

section
/-!
PROOF. The work of the scratchpad command that C is in (07_copy_paths R124, R130, R132, R133, R293).
-/

namespace Sys2Proof.Machine

theorem exec_cScratchpadCommandComplete (core bank : Nat) (s : State) :
    exec (.cScratchpadCommandComplete core bank) s = .next (runSpad s (tkey core bank)) := rfl

/-- Settles O33, by the kind of the command and what its queue holds. -/
theorem scratchpadWork : Obligations.ScratchpadWork := by
  unfold Obligations.ScratchpadWork
  intro s core bank c hb
  extract_lets k i ends on places size units left whole f n u o m moved from_ x vst gone coming trapped
  have hk : k / 2 = core := tkey_core hb
  have hwhole : movesWhole c = true ↔ whole := movesWhole_iff
  have hn : copyShare s c = n := if_congr hwhole rfl rfl
  have hu : copyDrawn s c = u := if_congr hwhole rfl rfl
  have hcore (j : Nat) : u.core j = s.core j := by rw [← hu, copyDrawn_core]
  refine ⟨fun h => congrArg _ (runSpad_none h), fun h hf => congrArg _ (runSpad_failed h hf), fun h hf => ?_⟩
  have hcopies (h1 : c.kind ≠ 1) (h2 : c.kind ≠ 2) {v : State} (hv : copyBytes u (k / 2) c o m = v) : exec i s = moved v := by
    rw [← hv]
    refine congrArg Host.Outcome.next ((runSpad_copies h hf h1 h2).trans ?_)
    rw [hn, hu]
    rfl
  have hcfq (hc : c.kind = 1) {v : State} (hv : cfqActs k c s = v) : exec i s = .next v :=
    congrArg Host.Outcome.next ((runSpad_cfq h hf hc).trans hv)
  have hcdq (hc : c.kind = 2) {v : State} (hv : cdqActs k c s = v) : exec i s = .next v :=
    congrArg Host.Outcome.next ((runSpad_cdq h hf hc).trans hv)
  refine ⟨fun hc => ?_, fun hc => ?_, fun hc => ?_, fun hc => ?_, fun hc => ?_, fun hc hd => hcfq hc (if_pos hd),
    fun hc hd hp => hcfq hc ?_, fun hc hd hp => ⟨fun hg hs => hcfq hc ?_, fun hw => hcfq hc ?_⟩,
    fun e r hc hq => hcdq hc ?_, fun hc hq => ⟨fun hg hs hno => hcdq hc ?_, fun hw => hcdq hc ?_⟩⟩
  -- copies
  · exact hcopies (by simp [hc]) (by simp [hc]) (by rw [copyBytes_spad hc, hcore])
  · exact hcopies (by simp [hc]) (by simp [hc]) (by rw [copyBytes_intoFile hc, hk, hcore])
  · exact hcopies (by simp [hc]) (by simp [hc]) (by rw [copyBytes_outOfFile hc, hk, hcore])
  · exact hcopies (by simp [hc]) (by simp [hc]) (by rw [copyBytes_canvas hc, hk, hcore])
  · exact hcopies (by simp [hc]) (by simp [hc]) (by rw [copyBytes_palette hc, hk, hcore])
  -- cfq
  · refine (if_neg (Nat.not_le.2 hd)).trans ((if_neg (Nat.not_le.2 hp)).trans ?_)
    unfold entryMoved entryPushed
    rw [hk]
    rfl
  · exact (if_neg (Nat.not_le.2 hd)).trans ((if_pos hp).trans (queueStuck_traps hg hs fun h => absurd h (by decide)))
  · exact (if_neg (Nat.not_le.2 hd)).trans ((if_pos hp).trans (queueStuck_waits (hw.imp_right .inl)))
  -- cdq
  · refine (cdqActs_pops hq).trans ?_
    unfold entryMoved entryPopped
    rw [hk]
    rfl
  · exact (cdqActs_empty hq).trans (queueStuck_traps hg hs fun _ => hno)
  · exact (cdqActs_empty hq).trans (queueStuck_waits (hw.imp_right (Or.imp_right fun hcome => ⟨rfl, hcome⟩)))

end Sys2Proof.Machine
end

section
/-!
SUPPORT. The address commands of C as they start (07_copy_paths R123, R126, R127, R137; 18_translation R307; 19_stops R344; log entries 23
and 79): the wait for a place, the page of the first piece, and the command on its way.
-/

namespace Sys2Proof.Machine

variable {i : Instr} {s t u : State} {c : CCmd} {l : Leaf} {old : Option (Nat × Nat)} {rgn : List (Nat × Nat × Nat × Bool)}

/-! ### The executing engine while a piece leaves -/

theorem leafOf_cur (s : State) (k : Nat) (c : CCmd) (va : Nat) : (leafOf s k c va).1.cur = s.cur := by
  unfold leafOf
  split
  · rfl
  · split <;> rfl

theorem fetchAhead_cur (s : State) (k : Nat) (c : CCmd) (l : Leaf) : (fetchAhead s k c l).cur = s.cur := by
  unfold fetchAhead
  generalize (if c.pinned = true then none else nextPage c l) = o
  cases o with
  | none => rfl
  | some va => exact ite_cur _ _ _ _ rfl rfl

theorem failCommand_cur (s : State) (k cmd code va : Nat) : (failCommand s k cmd code va).cur = s.cur := by
  unfold failCommand
  exact ite_cur _ _ _ _ (raiseCause_cur _ _ _ _ _) (raiseCause_cur _ _ _ _ _)

theorem sendNextPiece_cur (s : State) (k n : Nat) : (sendNextPiece s k n).cur = s.cur := by
  rcases hc : findCmd s k n with _ | c
  · rw [sendNextPiece_gone hc]
  by_cases hr : c.failed = true ∨ c.len ≤ c.next ∨ (s.core (k / 2)).halted = true
  · rw [sendNextPiece_rests hc hr]
  have hs : Sending s k c := by simpa [Sending] using hr
  by_cases hf : farFull s k = true
  · rw [sendNextPiece_full hc hs hf]
    rfl
  have hf : farFull s k = false := Bool.eq_false_iff.2 hf
  have hu := leafOf_cur s k c (nextPiece c).1
  rcases hl : leafOf s k c (nextPiece c).1 with ⟨u, _ | l⟩ <;> rw [hl] at hu
  · rw [sendNextPiece_walks hc hs hf hl]
    exact hu
  rcases hk : leafCause u l (nextPiece c).1 c.store (demand c) with _ | code
  · rw [sendNextPiece_admitted hc hs hf hl rfl rfl hk]
    have hp := (sendPiece_standing u (cmdPiece u (k / 2) (k % 2) n c l) rfl).1.trans hu
    exact ite_cur _ _ _ _ hp ((fetchAhead_cur _ _ _ _).trans hp)
  · rw [sendNextPiece_fails hc hs hf hl hk, failCommand_cur]
    exact hu

theorem settleCmd_cur (s : State) (k n : Nat) : (settleCmd s k n).cur = s.cur := by
  unfold settleCmd
  split
  · rfl
  · exact ite_cur _ _ _ _ (completeToken_cur _ _ _ _) rfl

theorem flies_cur (c : CCmd) (old : Option (Nat × Nat)) (peer : Bool) (s : State) : (flies c old peer s).cur = s.cur := by
  unfold flies
  refine (settleCmd_cur _ _ _).trans ?_
  split
  · exact sendNextPiece_cur _ _ _
  · rfl

/-! ### The leaf of the first piece -/

/-- The entry of the record that stopped the command at the executing instruction (R344). -/
def stoppedAt (s : State) : Option (Nat × Nat) := s.me.resume.find? fun e => e.1 == s.cur.pc % 2 ^ 56

/-- Command c taken up at the offset of that entry. -/
def takenUp (old : Option (Nat × Nat)) (c : CCmd) : CCmd := { c with next := min c.len ((old.map Prod.snd).getD 0) }

/-- What a command does once leaf l translates its first piece: it raises its cause, or goes on its way. -/
def startLeaf (c : CCmd) (old : Option (Nat × Nat)) (rgn : List (Nat × Nat × Nat × Bool)) (l : Leaf) (s : State) : State :=
  match leafCause s l (nextPiece c).1 c.store (demand c) with
  | some code => trapAt code (nextPiece c).1 s
  | none => declare rgn (nextSeq s) none false (fun s => advance (flies c old (region (l.phys (nextPiece c).1) == .peer) s)) s

/-- Eight commands are in flight, or the command would pass a tlbi marker that waits for pieces before it. -/
def startWaits (c : CCmd) (s : State) : Prop :=
  8 ≤ s.me.c.cmds.length ∨ (!c.pinned ∧ s.me.c.marks ≠ [] ∧ s.me.c.cmds.any CCmd.unsent)

/-- The state in which the first piece is translated: the markers have taken effect on the stream TLB. -/
def passedMarks (c : CCmd) (s : State) : State := if c.pinned then s else s.modMe passMarks

/-- Where the page of the first piece is not held, C stalls for it. -/
def startFound (c : CCmd) (old : Option (Nat × Nat)) (rgn : List (Nat × Nat × Nat × Bool)) (x : State × Option Leaf) : State :=
  match x.2 with
  | none => waitFor .retry (stalled (startWalk x.1 x.1.key 1 (nextPiece c).1 false 0) x.1.key c.buf)
  | some l => startLeaf c old rgn l x.1

theorem startFound_leaf (v : State) (l : Leaf) : startFound c old rgn (v, some l) = startLeaf c old rgn l v := rfl

theorem startAddress_waits (h : startWaits c s) : startAddress c rgn s = waitFor .retry s := if_pos h

/-- A command that flies is in flight, has sent its first piece where that goes to a peer, and C has retired it. -/
theorem advance_flies (c : CCmd) (old : Option (Nat × Nat)) (pa : Nat) (s : State) :
    let r := newToken s
    let id := s.me.c.nextId + 1
    let v := r.2.modMe fun t =>
      { t with resume := t.resume.filter fun e => some e != old
               c := { t.c with nextId := id, cmds := t.c.cmds ++ [{ c with id := id, seq := r.1, pc := s.cur.pc }] } }
    let w := if region pa = .peer then sendNextPiece v v.key id else v
    advance (settleCmd w w.key id) = advance (flies c old (region pa == .peer) s) := by
  extract_lets r id v w
  have hcur : w.cur = s.cur := ite_cur _ _ _ _ (sendNextPiece_cur _ _ _) rfl
  have hkey : w.key = s.key := congrArg (fun c : Cur => tkey c.core c.bank) hcur
  have hw : w = if region pa == .peer then sendNextPiece v s.key id else v := if_congr beq_iff_eq.symm rfl rfl
  rw [hkey, hw]
  rfl

theorem startAddress_starts (h : ¬ startWaits c s) :
    let old := stoppedAt s
    let d := takenUp old c
    let m := passedMarks c s
    startAddress c rgn s = startFound d old rgn (leafOf m m.key d (nextPiece d).1) := by
  intro old d m
  refine (if_neg h).trans ?_
  change (match leafOf m m.key d (pieceOf d).1 with
    | (s, none) => _
    | (s, some l) => _) = _
  rw [pieceOf_eq]
  rcases leafOf m m.key d (nextPiece d).1 with ⟨v, _ | l⟩
  · rfl
  · change (match leafCause v l (pieceOf d).1 d.store (demand d) with
      | some code => _
      | none => declare rgn (nextSeq v) none false _ v) = startLeaf _ _ _ _ _
    unfold startLeaf
    rw [pieceOf_eq]
    rcases leafCause v l (nextPiece d).1 d.store (demand d) with _ | code
    · exact congrArg (fun f => declare rgn (nextSeq v) none false f v) (funext (advance_flies d old (l.phys (nextPiece d).1)))
    · rfl

/-! ### What the statements say of a start -/

theorem startWaits_iff : startWaits c s ↔ 8 ≤ s.me.c.cmds.length
    ∨ (c.pinned = false ∧ s.me.c.marks ≠ [] ∧ ∃ x ∈ s.me.c.cmds, x.pinned = false ∧ x.failed = false ∧ x.next < x.len) := by
  unfold startWaits
  rw [unsent_iff, Bool.not_eq_true']

theorem misplaced_iff {va : Nat} : Misplaced s c l va ↔ placed s l va = false ∨ ∃ x, demand c = some x ∧ l.cc ≠ x := by
  unfold Misplaced demand
  cases c.elem <;> simp

theorem Walks.misplaced {k : Nat} {e : Eng} (hw : Walks k e u t) (va : Nat) : Misplaced t c l va ↔ Misplaced u c l va := by
  unfold Misplaced
  rw [hw.placed]

section
variable (he : exec i s = .next (startLeaf c old rgn l t)) (hw : Walks s.key s.cur.eng u t) (hc : u.cur = s.cur)
include he hw hc

theorem startLeaf_fails {code : Nat} (hl : leafCause t l (nextPiece c).1 c.store (demand c) = some code) :
    Moves i s (trapAt code (nextPiece c).1 u) := by
  have hk : u.key = s.key := congrArg (fun c : Cur => tkey c.core c.bank) hc
  unfold startLeaf at he
  rw [hl] at he
  rw [← hk, ← hc] at hw
  refine ⟨_, he, ?_⟩
  rw [← hk, ← hc]
  exact hw.trapAt code _

/-- A leaf that is misplaced, forbids the access or admits it (R55, R59, R126). -/
theorem startLeaf_goes (hck : CheckerIdle t) :
    (Misplaced u c l (nextPiece c).1 → Moves i s (trapAt 200 (nextPiece c).1 u))
    ∧ (¬ Misplaced u c l (nextPiece c).1 → (if c.store then l.w else l.r) = false → Moves i s (trapAt 199 (nextPiece c).1 u))
    ∧ (¬ Misplaced u c l (nextPiece c).1 → (if c.store then l.w else l.r) = true →
      Acts i s u (flies c old (region (l.phys (nextPiece c).1) == .peer))) := by
  classical
  have hcause := leafCause_eq t c l (nextPiece c).1
  rw [if_congr (hw.misplaced (nextPiece c).1) rfl rfl] at hcause
  refine ⟨fun hm => ?_, fun hm hp => ?_, fun hm hp => ?_⟩
  · exact startLeaf_fails he hw hc (hcause.trans (if_pos hm))
  · exact startLeaf_fails he hw hc (hcause.trans ((if_neg hm).trans (if_neg (ne_true_of_eq_false hp))))
  · unfold startLeaf at he
    rw [hcause.trans ((if_neg hm).trans (if_pos hp))] at he
    obtain ⟨v, hv, hwv, -⟩ := exec_declare he hck s.key s.cur.eng
    exact acts_of hv (hw.trans hwv) ((flies_cur _ _ _ _).trans (hwv.cur.trans (hw.cur.trans hc)))

end

/-- A command whose page is not held stalls C for it (R126, R137). -/
theorem startFound_moves (he : exec i s = .next (startFound c old rgn (t, none))) (hw : Walks s.key s.cur.eng u t) (hc : u.cur = s.cur) :
    Moves i s (stalled (startWalk u s.key 1 (nextPiece c).1 false 0) s.key c.buf) := by
  have hk : u.key = s.key := congrArg (fun c : Cur => tkey c.core c.bank) hc
  rw [← hk, ← hc] at hw
  have hwalk := hw.startWalk 1 (nextPiece c).1 false 0
  have hstall := Walks.afterStall (s := startWalk u u.key 1 (nextPiece c).1 false 0) hwalk c.buf
  rw [← hk]
  refine ⟨_, he, ?_⟩
  rw [← hk, ← hc]
  exact hstall.trans (waitFor_walks_at hstall.cur .retry)

/-- An address command whose operands have passed starts (R123, R126). -/
theorem starts_of {cc : Option Bool} (he : exec i s = .next (startAddress c rgn t)) (hw : Walks s.key s.cur.eng s t) (hck : CheckerIdle t)
    (hcc : demand c = cc) : Starts i s cc c := by
  subst hcc
  unfold Starts
  extract_lets old d va unsent waits m goes
  have hc : t.me.c = s.me.c := hw.me_field (fun x => x.c) fun _ => rfl
  have htlb : t.me.tlb = s.me.tlb := hw.me_field (fun x => x.tlb) fun _ => rfl
  have hold : stoppedAt t = old := by
    unfold stoppedAt
    rw [hw.me_field (fun x => x.resume) fun _ => rfl, hw.cur]
  have hwaits : startWaits c t ↔ waits := by rw [startWaits_iff, hc]
  have hgoes {l : Leaf} {u v : State} (he : exec i s = .next (startLeaf d old rgn l v)) (hv : Walks s.key s.cur.eng u v)
      (hu : u.cur = s.cur) (hckv : CheckerIdle v) : goes l u := by
    obtain ⟨h200, h199, hgo⟩ := startLeaf_goes he hv hu hckv
    rw [misplaced_iff] at h200 h199 hgo
    exact ⟨h200, h199, hgo⟩
  have hstarts (hn : ¬ waits) : exec i s = .next (startFound d old rgn (leafOf (passedMarks c t) (passedMarks c t).key d va)) := by
    rw [he, startAddress_starts (mt hwaits.1 hn), hold]
    rfl
  refine ⟨fun hy => ?_, fun hn hp l hl => ?_, fun hn hp => ?_⟩
  · rw [startAddress_waits (hwaits.2 hy)] at he
    exact ⟨_, he, waits_walks hw _⟩
  · have hm : m = s := if_pos hp
    have hmt : passedMarks c t = t := if_pos hp
    have hfind : (t.task t.key).tlb.pins.find? (fun l => l.maps va) = some l := (congrArg (fun x : Tlbs => x.pins.find? _) htlb).trans hl
    have he := hstarts hn
    rw [hmt, leafOf_pinned _ _ hp, hfind, startFound_leaf] at he
    rw [hm]
    exact hgoes he hw rfl hck
  · have hm : m = marked s := if_neg (ne_true_of_eq_false hp)
    have hmt : passedMarks c t = marked t := (if_neg (ne_true_of_eq_false hp)).trans (marked_eq t).symm
    have hwm : Walks (marked s).key (marked s).cur.eng (marked s) (marked t) := hw.marked
    have htlbm : (marked t).me.tlb = (marked s).me.tlb := hwm.me_field (fun y => y.tlb) fun _ => rfl
    have hckm : CheckerIdle (marked t) := by
      rw [marked_eq]
      exact checkerIdle_modMe passMarks_gang hck
    have he := hstarts hn
    rw [hmt] at he
    rw [hm]
    refine ⟨fun hl => ?_, fun l x hl => ?_⟩
    · rw [leafOf_miss hp ((congrArg (fun x : Tlbs => lookup x.strm va) htlbm).trans hl)] at he
      exact startFound_moves he hwm rfl
    · rw [leafOf_hit hp ((congrArg (fun x : Tlbs => lookup x.strm va) htlbm).trans hl), startFound_leaf] at he
      exact hgoes he (hwm.frontStream x) rfl (checkerIdle_modMe (fun _ => rfl) hckm)

end Sys2Proof.Machine
end

section
/-!
PROOF. The address commands of C (07_copy_paths R127, R129, R131): cld, cst, their .bs forms, cgat and csct from their operands.
-/

namespace Sys2Proof.Machine

variable {i : Instr} {s t : State} {c : CCmd} {l : Leaf} {rgn : List (Nat × Nat × Nat × Bool)}

/-! ### The window of a .bs form -/

theorem windowCause_unmapped {va len : Nat} {store : Bool} (h : windowOf s va = none) : windowCause s va len store = some 200 := by
  unfold windowCause
  rw [h]

theorem windowCause_mapped {va len : Nat} {store : Bool} (h : windowOf s va = some l) : windowCause s va len store =
    if l.maps (va + len - 1) = false then some 201 else if (if store then l.w else l.r) = false then some 199
    else if l.cc = false ∨ placed s l va = false then some 200 else none := by
  unfold windowCause
  rw [h]
  simp only [Bool.not_eq_true', Bool.or_eq_true]

theorem Walks.windowCause (hw : Walks s.key s.cur.eng s t) (va len : Nat) (store : Bool) :
    Machine.windowCause t va len store = Machine.windowCause s va len store := by
  unfold Machine.windowCause
  simp only [hw.windowOf, hw.placed]

/-- A .bs form is checked against its window; every form then starts. -/
def startCopy (c : CCmd) (rgn : List (Nat × Nat × Nat × Bool)) (s : State) : State :=
  match (if c.pinned then windowCause s c.va c.len c.store else none) with
  | some code => trapAt code c.va s
  | none => startAddress c rgn s

section
variable (he : exec i s = .next (startCopy c rgn t)) (hw : Walks s.key s.cur.eng s t)
include he hw

theorem startCopy_plain (hck : CheckerIdle t) (hp : c.pinned = false) (hd : c.elem = false) : Starts i s (some false) c := by
  unfold startCopy at he
  rw [if_neg (ne_true_of_eq_false hp)] at he
  exact starts_of he hw hck (by simp [demand, hp, hd])

section
variable (hp : c.pinned = true)
include hp

theorem startCopy_fails {code : Nat} (hc : windowCause s c.va c.len c.store = some code) : Moves i s (trapAt code c.va s) := by
  unfold startCopy at he
  rw [if_pos hp, hw.windowCause, hc] at he
  exact ⟨_, he, hw.trapAt code _⟩

/-- The checks of R127 in their order. -/
theorem startCopy_windowed (hck : CheckerIdle t) (hd : c.elem = false) :
    ((s.me.tlb.pins.find? fun l => l.maps c.va) = none → Moves i s (trapAt 200 c.va s))
    ∧ ∀ l, (s.me.tlb.pins.find? fun l => l.maps c.va) = some l →
      (l.maps (c.va + c.len - 1) = false → Moves i s (trapAt 201 c.va s))
      ∧ (l.maps (c.va + c.len - 1) = true → (if c.store then l.w else l.r) = false → Moves i s (trapAt 199 c.va s))
      ∧ (l.maps (c.va + c.len - 1) = true → (if c.store then l.w else l.r) = true →
        (l.cc = false ∨ placed s l c.va = false → Moves i s (trapAt 200 c.va s))
        ∧ (l.cc = true → placed s l c.va = true → Starts i s (some true) c)) := by
  refine ⟨fun hl => startCopy_fails he hw hp (windowCause_unmapped hl), fun l hl => ?_⟩
  have hcause := windowCause_mapped (len := c.len) (store := c.store) (show windowOf s c.va = some l from hl)
  refine ⟨fun hm => ?_, fun hm ha => ?_, fun hm ha => ⟨fun hb => ?_, fun hcc hpl => ?_⟩⟩
  · exact startCopy_fails he hw hp (hcause.trans (if_pos hm))
  · exact startCopy_fails he hw hp (hcause.trans ((if_neg (ne_false_of_eq_true hm)).trans (if_pos ha)))
  all_goals rw [if_neg (ne_false_of_eq_true hm), if_neg (ne_false_of_eq_true ha)] at hcause
  · exact startCopy_fails he hw hp (hcause.trans (if_pos hb))
  · rw [if_neg (by simp [hcc, hpl])] at hcause
    unfold startCopy at he
    rw [if_pos hp, hw.windowCause, hcause] at he
    exact starts_of he hw hck (by simp [demand, hp, hd])

end

end

/-! ### Operands -/

/-- The checks of the two addresses go in the order in which the operands stand (R129, R131). -/
theorem firstCause_either {l m : List (Bool × Nat)} (store : Bool) (hl : firstCause l = none) (hm : firstCause m = none) :
    firstCause (if store then m ++ l else l ++ m) = none := by
  cases store
  · exact firstCause_pass hl hm
  · exact firstCause_pass hm hl

/-- The command that a copy of the length in field cx is, between the memory address in register va and the scratchpad address in spad. -/
def copyCmd (store pinned : Bool) (va spad cx : Nat) (s : State) : CCmd :=
  { store := store, pinned := pinned, va := (cv s va).toNat % 2 ^ 56, len := lengthOf s cx, spad := (cv s spad).toNat, buf := s.cur.ch.buf }

/-- A copy whose operands pass comes to its window, if it has one, and to its start (R129). -/
theorem plainCopy_passes {store pinned : Bool} {va spad cx : Nat} (he : exec i s = .next (issueToken (plainCopy store pinned va spad cx) s))
    (h : CanSend s) (hl : GoodLength (lengthOf s cx)) (hv : (cv s va).toNat % 32 = 0) (hx : (cv s spad).toNat % 32 = 0)
    (ho : OwnSpad s (cv s spad).toNat (lengthOf s cx)) :
    ∃ t rgn, exec i s = .next (startCopy (copyCmd store pinned va spad cx s) rgn t) ∧ Walks s.key s.cur.eng s t ∧ CheckerIdle t := by
  obtain ⟨t, ht, hw, hck, -⟩ := exec_token he h
  have hmem : firstCause (vaChecks (cv s va).toNat 32) = none := by simp [vaChecks, firstCause, hv]
  have hpass := firstCause_pass (firstCause_either store (firstCause_inside hx ho) hmem) (lengthChecks_good hl)
  unfold plainCopy at ht
  simp only [hw.lengthOf, hw.cv, hw.spadChecks, saneLength_good hl] at ht
  rw [checked_pass hpass, hw.cur] at ht
  exact ⟨t, _, ht, hw, hck⟩

/-- The command that moves the elements of 32 x 2^ex bytes that the index list of register cx names. -/
def elementCmd (store : Bool) (va spad cx ex : Nat) (s : State) : CCmd :=
  let w := (cv s cx).toNat
  let n := w / 2 ^ 32
  { store := store, elem := true, va := (cv s va).toNat % 2 ^ 56, len := n * (32 * 2 ^ ex), spad := (cv s spad).toNat, esz := 32 * 2 ^ ex
    buf := s.cur.ch.buf, idx := (List.range n).map fun i => s.myCore.spad.rdN (w % 2 ^ 32 + 4 * i) 4 }

/-- A gather or scatter whose operands pass starts (R131). -/
theorem elements_starts {store : Bool} {va spad cx ex : Nat} (he : exec i s = .next (issueToken (elements store va spad cx ex) s))
    (h : CanSend s) (h1 : 1 ≤ (cv s cx).toNat / 2 ^ 32) (h2 : (cv s cx).toNat / 2 ^ 32 ≤ 65536) (hal : (cv s cx).toNat % 2 ^ 32 % 4 = 0)
    (hlist : OwnSpad s ((cv s cx).toNat % 2 ^ 32) (4 * ((cv s cx).toNat / 2 ^ 32))) (hv : (cv s va).toNat % (32 * 2 ^ ex) = 0)
    (hx : (cv s spad).toNat % 32 = 0) (ho : OwnSpad s (cv s spad).toNat ((cv s cx).toNat / 2 ^ 32 * (32 * 2 ^ ex))) :
    Starts i s none (elementCmd store va spad cx ex s) := by
  obtain ⟨t, ht, hw, hck, -⟩ := exec_token he h
  have hbad : (decide ((cv s cx).toNat / 2 ^ 32 < 1) || decide (65536 < (cv s cx).toNat / 2 ^ 32)) = false := by
    simp only [Bool.or_eq_false_iff, decide_eq_false_iff_not]
    omega
  have hmem : firstCause (vaChecks (cv s va).toNat (32 * 2 ^ ex)) = none := by simp [vaChecks, firstCause, hv]
  have hpass := firstCause_pass (firstCause_pass (firstCause_either store (firstCause_inside hx ho) hmem) (m := [(false, 25)]) rfl)
    (firstCause_spadChecks_inside hal hlist)
  unfold elements at ht
  simp only [hw.cv, hw.spadChecks, hbad, Bool.false_eq_true, if_false] at ht
  rw [checked_pass hpass, hw.cur, hw.myCore] at ht
  exact starts_of ht hw hck rfl

/-- Settles O34, command by command from its operands, its window and the page of its first piece. -/
theorem addressCommands : Obligations.AddressCommands := by
  unfold Obligations.AddressCommands
  intro s a b cx ex h va vb len buf e list n idx base windowed
  refine ⟨fun hl ha hb => ⟨fun ho => ?_, fun ho => ?_, fun ho => ?_, fun ho => ?_⟩, fun h1 h2 hal hlist =>
    ⟨fun ha ho hb => elements_starts rfl h h1 h2 hal hlist hb ha ho, fun ha hb ho => elements_starts rfl h h1 h2 hal hlist ha hb ho⟩⟩
  · obtain ⟨t, rgn, he, hw, hck⟩ := plainCopy_passes (i := .cld a b cx) rfl h hl hb ha ho
    exact startCopy_plain he hw hck rfl rfl
  · obtain ⟨t, rgn, he, hw, hck⟩ := plainCopy_passes (i := .cst a b cx) rfl h hl ha hb ho
    exact startCopy_plain he hw hck rfl rfl
  · obtain ⟨t, rgn, he, hw, hck⟩ := plainCopy_passes (i := .cldBs a b cx) rfl h hl hb ha ho
    exact startCopy_windowed he hw rfl hck rfl
  · obtain ⟨t, rgn, he, hw, hck⟩ := plainCopy_passes (i := .cstBs a b cx) rfl h hl ha hb ho
    exact startCopy_windowed he hw rfl hck rfl

end Sys2Proof.Machine
end

section
/-!
SUPPORT. Alignment requests and waits for node time (08_dies_time R144, R151; 20_power R362): what palign, waitt and the wake of waitt come
to past their token waits.
-/

namespace Sys2Proof.Machine

/-! ### palign -/

theorem Walks.setAligns {k : Nat} {e : Eng} {s t : State} (h : Walks k e s t) (l : List Nat) :
    Walks k e { s with grid := { s.grid with aligns := l } } { t with grid := { t.grid with aligns := l } } := by
  refine ⟨?_, h.2⟩
  have h1 := h.1
  simp only [State.rest, State.mk.injEq] at h1 ⊢
  simp_all

/-- The beat whose boundary palign names (R144; log entry 80). -/
def alignBeat (a imm : Nat) (s : State) : Nat :=
  beatAt (s.now (dieOf s.cur.core)).beat (((sv s a + immS s imm).toNat + s.me.csr.tbb) % 2 ^ 48)

/-- What palign does past its token waits. -/
def palignBody (a imm : Nat) (s : State) : State :=
  let now := s.now (dieOf s.cur.core)
  let b := alignBeat a imm s
  if b ≤ now.beat ∨ s.delta now ⟨b, 0⟩ < 128 then trap 346 s
  else if s.grid.aligns.contains b then advance s
  else if 16 ≤ (s.grid.aligns.filter fun x => decide (now.beat < x)).length then trap 359 s
  else advance { s with grid := { s.grid with aligns := s.grid.aligns ++ [b] } }

theorem exec_palign (a imm : Nat) (s : State) : exec (.palign a imm) s = .next (issue false (palignBody a imm) s) := rfl

/-- palign decides on what the walk of its engine does not change. -/
theorem palignBody_walked (a imm : Nat) {s t : State} (h : Walks s.key s.cur.eng s t) :
    palignBody a imm t =
      let now := s.now (dieOf s.cur.core)
      let b := alignBeat a imm s
      if b ≤ now.beat ∨ s.delta now ⟨b, 0⟩ < 128 then trap 346 t
      else if b ∈ s.grid.aligns then advance t
      else if 16 ≤ s.grid.aligns.countP (fun x => decide (now.beat < x)) then trap 359 t
      else advance { t with grid := { t.grid with aligns := s.grid.aligns ++ [b] } } := by
  unfold palignBody alignBeat
  simp only [h.now, h.cur, h.sv, h.immS, h.tbb, h.delta, h.grid, List.contains_iff_mem, List.countP_eq_length_filter]


/-- palign check by check: the distance of the boundary, a request that it repeats, and the number of requests pending (R144). -/
theorem palign_cases (a imm : Nat) {s : State} (h : CanIssue s) :
    let now := s.now (dieOf s.cur.core)
    let b := alignBeat a imm s
    let pending := s.grid.aligns.countP (fun x => decide (now.beat < x))
    ((b ≤ now.beat ∨ s.delta now ⟨b, 0⟩ < 128) → Moves (.palign a imm) s (trap 346 s))
    ∧ (now.beat < b → 128 ≤ s.delta now ⟨b, 0⟩ →
      (b ∈ s.grid.aligns → Does (.palign a imm) s s)
      ∧ (b ∉ s.grid.aligns → 16 ≤ pending → Moves (.palign a imm) s (trap 359 s))
      ∧ (b ∉ s.grid.aligns → pending < 16 →
        Does (.palign a imm) s { s with grid := { s.grid with aligns := s.grid.aligns ++ [b] } })) := by
  intro now b pending
  have hex := exec_palign a imm s
  refine ⟨fun hn => ?_, fun hb hd => ?_⟩
  · refine moves_of hex h (by simp) fun t hw _ => ?_
    rw [palignBody_walked a imm hw]
    exact (if_pos hn).symm ▸ hw.trap 346
  have hn : ¬ (b ≤ now.beat ∨ s.delta now ⟨b, 0⟩ < 128) := by omega
  refine ⟨fun hm => ?_, fun hm hp => ?_, fun hm hp => ?_⟩
  · refine does_of hex h (by simp) fun t hw _ ha => ?_
    rw [palignBody_walked a imm hw]
    dsimp only
    rw [if_neg hn, if_pos hm]
    exact advance_does hw rfl rfl rfl rfl ha
  · refine moves_of hex h (by simp) fun t hw _ => ?_
    rw [palignBody_walked a imm hw]
    dsimp only
    rw [if_neg hn, if_neg hm, if_pos hp]
    exact hw.trap 359
  · refine does_of hex h (by simp) fun t hw _ ha => ?_
    rw [palignBody_walked a imm hw]
    dsimp only
    rw [if_neg hn, if_neg hm, if_neg (Nat.not_le.2 hp)]
    exact advance_does (hw.setAligns _) rfl rfl rfl rfl ha

/-! ### waitt -/

theorem exec_waitt (a : Nat) (s : State) : exec (.waitt a) s = .next (issue false (fun s =>
    if (sv s a).toNat ≤ (s.die (dieOf s.cur.core)).ntime then advance s else waitFor (.waitt (sv s a)) s) s) := rfl

/-- Node time has reached the operand of waitt at its issue (R151). -/
theorem waitt_reached {a : Nat} {s : State} (h : CanIssue s) (hn : (sv s a).toNat ≤ (s.die (dieOf s.cur.core)).ntime) :
    Does (.waitt a) s s := by
  refine does_of (exec_waitt a s) h (by simp) fun t hw _ ha => ?_
  rw [hw.sv, hw.die, hw.cur, if_pos hn]
  exact advance_does hw rfl rfl rfl rfl ha

/-- S stalls at waitt until node time reaches its operand (R151). -/
theorem waitt_stalls {a : Nat} {s : State} (h : CanIssue s) (hn : (s.die (dieOf s.cur.core)).ntime < (sv s a).toNat) :
    ∃ t, exec (.waitt a) s = .next t ∧ Walks s.key s.cur.eng s t ∧ t.myEng.wait = .waitt (sv s a) := by
  obtain ⟨t, hex, hw, -⟩ := exec_issue (exec_waitt a s) h (by simp)
  rw [hw.sv, hw.die, hw.cur, if_neg (Nat.not_le.2 hn)] at hex
  exact ⟨_, hex, waits_walks hw _, by simp [waitFor, State.myEng, State.modMyEng]⟩

/-- The task may go on from a waitt whose operand is w: node time has reached w, and S of task k issues (R151, R362). -/
def WaittReached (s : State) (k : Nat) (w : Word) : Prop :=
  w.toNat ≤ (s.die (k / 2 / 96)).ntime ∧ (s.eng k .s).stopped = false ∧ (s.die (k / 2 / 96)).power.window = none

theorem wakeWaitt_waiting {s : State} {k : Nat} {w : Word} (hw : (s.eng k .s).wait = .waitt w) [Decidable (WaittReached s k w)] :
    wakeWaitt s k = if WaittReached s k w then advance (focus s k .s) else s := by
  unfold wakeWaitt
  dsimp only
  rw [hw]
  refine if_congr ?_ rfl rfl
  simp [WaittReached, mayIssue, dieOf]

/-- S goes on past its waitt. -/
theorem wakeWaitt_wakes {s : State} {k : Nat} {w : Word} (hw : (s.eng k .s).wait = .waitt w) (hr : WaittReached s k w) :
    Walks k .s { s with cur := (wakeWaitt s k).cur } (wakeWaitt s k) ∧ ((wakeWaitt s k).eng k .s).wait = .none := by
  classical
  rw [wakeWaitt_waiting hw, if_pos hr]
  have hk := focus_key s k .s
  have ha := advance_walks (focus s k .s)
  have hwait := advance_wait (focus s k .s)
  rw [hk] at ha hwait
  exact ⟨by rw [ha.cur]; exact ha, hwait⟩

/-- Settles O19: palign by its checks, waitt by node time at its issue and at its wake. -/
theorem alignmentRequests : Obligations.AlignmentRequests := by
  classical
  unfold Obligations.AlignmentRequests
  intro s a imm core bank w now b k reached
  refine ⟨fun h => palign_cases a imm h, waitt_reached, waitt_stalls, fun hw hr => ?_, fun hw hr => ?_⟩
  · exact ⟨_, rfl, wakeWaitt_wakes hw hr⟩
  · exact congrArg Host.Outcome.next ((wakeWaitt_waiting hw).trans (if_neg hr))

end Sys2Proof.Machine
end

section
/-!
SUPPORT. Node transport (08_dies_time R150, R152-R154; 21_host R371): what the device's reads of its tables leave, the route to a
device, the entry of the table of exports, requests that arrive, and the answers to pieces under way to a peer.
-/

namespace Sys2Proof.Machine

variable {s t : State}

theorem bitOf_eq_true {x i : Nat} : bitOf x i = true ↔ x / 2 ^ i % 2 = 1 := by simp [bitOf]

/-! ### What a read of a table by the device leaves: the error logs and the count of free values alone -/

/-- Only management registers and the count of free values differ. -/
def Logged (s t : State) : Prop := ∃ m n, t = { s with mgmt := m, free := n }

theorem Logged.refl (s : State) : Logged s s := ⟨s.mgmt, s.free, rfl⟩

theorem Logged.trans {u : State} : Logged s t → Logged t u → Logged s u := by
  rintro ⟨m, n, rfl⟩ ⟨m', n', rfl⟩
  exact ⟨m', n', rfl⟩

theorem Logged.dist (h : Logged s t) : t.dist = s.dist := by
  obtain ⟨m, n, rfl⟩ := h
  rfl

theorem logged_setReg (s : State) (a v : Nat) : Logged s (s.setReg a v) := ⟨_, s.free, rfl⟩

theorem logged_setFree (s : State) (n : Nat) : Logged s { s with free := n } := ⟨s.mgmt, n, rfl⟩

theorem logged_logArray (s : State) (x src syn : Nat) (ue : Bool) : Logged s (logArray s x src syn ue) := by
  unfold logArray logEntry
  exact (logged_setReg _ _ _).trans ((logged_setReg _ _ _).trans (logged_setReg _ _ _))

theorem logged_eccRead (s : State) (x src : Nat) : Logged s (eccRead s x src).1 := by
  unfold eccRead
  cases s.cellFaults.find? fun f => f.strip == x with
  | none => exact .refl s
  | some f =>
    dsimp only
    split
    · exact .refl s
    · exact logged_logArray _ _ _ _ _
    · exact logged_logArray _ _ _ _ _
    · unfold State.choose
      dsimp only
      split
      · exact (logged_setFree _ _).trans (logged_logArray _ _ _ _ _)
      · exact (logged_setFree _ _).trans ((logged_setFree _ _).trans (logged_logArray _ _ _ _ _))
      · exact logged_setFree _ _

theorem logged_fastRead (f : Nat → Nat) (src : Nat) : ∀ (l : List (Nat × Nat)) (s : State), Logged s (fastRead s f src l).1
  | [], s => .refl s
  | (a, n) :: r, s => by
    have h1 := logged_eccRead s (f a) src
    unfold fastRead
    rcases he : eccRead s (f a) src with ⟨u, o⟩
    rw [he] at h1
    split
    · exact .refl s
    · cases o with
      | none => exact h1
      | some bs =>
        have h2 := logged_fastRead f src r u
        dsimp only
        rcases hf : fastRead u f src r with ⟨v, x⟩
        rw [hf] at h2
        cases x <;> exact h1.trans h2

theorem logged_tableWord (s : State) (pa : Nat) : Logged s (tableWord s pa).1 := by
  have h : Logged s (tierRead s pa 8 2).1 := by
    unfold tierRead
    split
    · exact logged_fastRead _ _ _ _
    · exact .refl s
  unfold tableWord
  rcases ht : tierRead s pa 8 2 with ⟨u, x⟩
  rw [ht] at h
  cases x <;> exact h

/-! ### The route to a device (R154) -/

/-- Where the route table starts. -/
def routeBase (s : State) : Nat := slice (s.reg regRoutebase) 18 34 * 2 ^ 18

theorem routePort_outside (id : Nat) (h : inTiers (routeBase s) = false) : routePort s id = (s, none) := by
  unfold routePort
  exact if_pos (by rw [← routeBase, h]; rfl)

/-- The port that the byte b of the route table names, where the configuration c enables it. -/
def portNamed (c b : Nat) : Option Nat :=
  if b / 2 ^ 7 = 1 ∧ b / 2 ^ 4 % 2 ^ 3 = 0 ∧ c / 2 ^ (b % 16) % 2 = 1 then some (b % 16) else none

/-- Inside the tiers the route table is read, and the byte of the device names its port. -/
def RouteRead (s : State) (id : Nat) : Prop :=
  inTiers (routeBase s) = true →
    routePort s id = ((tableWord s (routeBase s + id / 8 * 8)).1,
      portNamed (s.dist.config.getD 1 0) ((tableWord s (routeBase s + id / 8 * 8)).2 / 2 ^ (8 * (id % 8)) % 2 ^ 8))

theorem routePort_inside (id : Nat) : RouteRead s id := by
  intro h
  rcases hy : tableWord s (routeBase s + id / 8 * 8) with ⟨u, w⟩
  have hd : u.dist = s.dist := by
    have := (logged_tableWord s (routeBase s + id / 8 * 8)).dist
    rwa [hy] at this
  unfold routePort
  extract_lets base
  change tableWord s (base + id / 8 * 8) = (u, w) at hy
  rw [hy]
  refine (if_neg (show ¬ (!inTiers (routeBase s)) = true by rw [h]; decide)).trans ?_
  have h7 : bitOf (slice w (8 * (id % 8)) 8) 7 = true ↔ slice w (8 * (id % 8)) 8 / 2 ^ 7 = 1 := by
    have hb : slice w (8 * (id % 8)) 8 < 2 ^ 8 := Nat.mod_lt _ (by norm_num)
    rw [bitOf_eq_true]
    omega
  refine congrArg (Prod.mk u) (if_congr ?_ rfl rfl)
  rw [hd, h7, bitOf_eq_true]
  rfl

/-! ### The table of exports (R153) -/

/-- Where the table of exports starts. -/
def exportBase (s : State) : Nat := slice (s.reg regExpbase) 19 33 * 2 ^ 19

/-- The entry x of the table of exports admits reads, or writes. -/
def EntryLets (wr : Bool) (x : Nat) : Prop := if wr then x / 2 ^ 60 % 2 = 1 else x / 2 ^ 61 % 2 = 1

/-- The entry x names a frame of the tiers, or a frame of a scratchpad, and keeps its other bits 0. -/
def EntryClean (x : Nat) : Prop :=
  (x / 2 ^ 62 = 1 ∧ x / 2 ^ 52 % 2 ^ 8 = 0 ∧ x % 2 ^ 16 = 0 ∧ inTiers (x / 2 ^ 16 % 2 ^ 36 * 2 ^ 16) = true)
  ∨ (x / 2 ^ 62 = 2 ∧ x / 2 ^ 42 % 2 ^ 18 = 0 ∧ x / 2 ^ 21 % 2 ^ 11 = 0 ∧ x % 2 ^ 16 = 0
    ∧ 0 < x / 2 ^ 32 % 2 ^ 10 ∧ x / 2 ^ 32 % 2 ^ 10 < 768)

theorem exportEntry_closed (off : Nat) (wr : Bool) (h : s.reg regExpbase % 2 = 0 ∨ inTiers (exportBase s) = false) :
    exportEntry s off wr = (s, none) := by
  unfold exportEntry
  refine if_pos ?_
  rcases h with h | h
  · simp [bitOf, h]
  · rw [← exportBase, h]; simp

/-- The test of the entry's access bit, and of the fields of its kind. -/
theorem entryLets_iff {wr : Bool} {x : Nat} : (if wr then bitOf x 60 else bitOf x 61) = true ↔ EntryLets wr x := by
  unfold EntryLets
  cases wr <;> exact bitOf_eq_true

/-- What exportEntry asks of the fields of an entry, by its kind. -/
def entryCleanTest (x : Nat) : Bool :=
  match x / 2 ^ 62 with
  | 1 => slice x 52 8 == 0 && x % 2 ^ 16 == 0 && inTiers (slice x 16 36 * 2 ^ 16)
  | 2 => slice x 42 18 == 0 && slice x 21 11 == 0 && x % 2 ^ 16 == 0 && slice x 32 10 != 0 && decide (slice x 32 10 < 768)
  | _ => false

theorem entryCleanTest_iff {x : Nat} : entryCleanTest x = true ↔ EntryClean x := by
  unfold entryCleanTest EntryClean slice
  generalize x / 2 ^ 62 = kind
  split
  · simp [and_assoc]
  · simp [and_assoc, Nat.pos_iff_ne_zero]
  · next h1 h2 => simp [show kind ≠ 1 from h1, show kind ≠ 2 from h2]

/-- An open window gives the entry of the table where it admits the access and is clean. -/
theorem exportEntry_open {u : State} {x : Nat} (off : Nat) (wr : Bool) (h1 : s.reg regExpbase % 2 = 1) (h2 : inTiers (exportBase s) = true)
    (hy : tableWord s (exportBase s + off / 65536 * 8) = (u, x)) :
    (EntryLets wr x ∧ EntryClean x → exportEntry s off wr = (u, some x))
    ∧ (¬ EntryLets wr x ∨ ¬ EntryClean x → exportEntry s off wr = (u, none)) := by
  have he : exportEntry s off wr =
      (u, if ((if wr then bitOf x 60 else bitOf x 61) && entryCleanTest x) = true then some x else none) := by
    have hc : ¬ (!bitOf (s.reg regExpbase) 0 || !inTiers (exportBase s)) = true := by rw [h2]; simp [bitOf, h1]
    unfold exportEntry
    extract_lets r base
    change tableWord s (base + off / 65536 * 8) = (u, x) at hy
    rw [hy]
    exact if_neg hc
  have hc : ((if wr then bitOf x 60 else bitOf x 61) && entryCleanTest x) = true ↔ EntryLets wr x ∧ EntryClean x := by
    rw [Bool.and_eq_true, entryLets_iff, entryCleanTest_iff]
  exact ⟨fun h => he.trans (by rw [if_pos (hc.2 h)]), fun h => he.trans (by rw [if_neg (mt hc.1 (not_and_or.2 h))])⟩

/-! ### Requests that arrive (R152, R153; log entry 81) -/

/-- The frame that a request, an answer or an answer with an error is as it arrives, by the number above its offset. -/
def arrivedFrame (port src dst head len : Nat) (wr : Bool) (data : List Byte) : Frame :=
  { port := port, peer := dst, src := src, off := head % 2 ^ 32, wr := wr, len := len, reply := head / 2 ^ 32 != 0,
    err := head / 2 ^ 32 == 2, data := data }

section
variable {port src dst head len : Nat} {wr : Bool} {data : List Byte}

theorem exec_frame_here (h : dst = nodeId s) : exec (.nodeFrameArrival port src dst head len wr data) s =
    .next (if head / 2 ^ 32 = 0 then takeRequest s (arrivedFrame port src dst head len wr data)
      else takeAnswer s (arrivedFrame port src dst head len wr data)) := congrArg Host.Outcome.next (if_pos h)

/-- A frame for another device goes on by the port of its route. -/
theorem exec_frame_on {q : Nat} (h : dst ≠ nodeId s) (hr : routePort s dst = (t, some q)) :
    exec (.nodeFrameArrival port src dst head len wr data) s
      = .next (transmit t { arrivedFrame port src dst head len wr data with port := q }) := by
  refine congrArg Host.Outcome.next ((if_neg h).trans ?_)
  rw [hr]
  rfl

/-- One for a device that no route reaches is answered with an error in the name of that device. -/
theorem exec_frame_lost (h : dst ≠ nodeId s) (hr : routePort s dst = (t, none)) :
    exec (.nodeFrameArrival port src dst head len wr data) s
      = .next (transmit t { arrivedFrame port src dst head len wr data with peer := src, src := dst, reply := true, err := true, data := [] }) := by
  refine congrArg Host.Outcome.next ((if_neg h).trans ?_)
  rw [hr]
  rfl

end

/-- No request of device src waits. -/
def NoneWaits (s : State) (src : Nat) : Prop := ∀ w ∈ s.dist.waiting, w.1.src ≠ src

theorem frameUnderWay_iff {src : Nat} : frameUnderWay s src = true ↔ ∃ q ∈ s.pieces, ∃ a c, q.own = .frame a src c := by
  unfold frameUnderWay
  rw [List.any_eq_true]
  refine exists_congr fun q => and_congr_right fun _ => ?_
  cases q.own <;> simp

/-- Nothing is served where nothing of that source waits. -/
theorem serveWaiting_none {src : Nat} (h : NoneWaits s src) : ∀ n, serveWaiting src n s = s
  | 0 => rfl
  | n + 1 => by
    have hf : s.dist.waiting.find? (fun w => w.1.src == src) = none := List.find?_eq_none.2 fun w hw => by simpa using h w hw
    unfold serveWaiting
    rw [hf]
    exact ite_self s

/-- A request of device src that comes to wait. -/
def queueFrame (s : State) (f : Frame) (e : Nat) : State := { s with dist := { s.dist with waiting := s.dist.waiting ++ [(f, e)] } }

theorem takeRequest_eq {f : Frame} {e : Option Nat} (h : exportEntry s f.off f.wr = (t, e)) :
    takeRequest s f = serveWaiting f.src (t.dist.waiting.length + 1) (queueFrame t f (e.getD 0)) := by
  unfold takeRequest
  rw [h]
  dsimp only [queueFrame]
  rw [List.length_append]
  rfl

/-- Where a request of its source is under way, a request waits. -/
theorem serveWaiting_busy {f : Frame} {n e : Nat} (hb : frameUnderWay t f.src = true) :
    serveWaiting f.src (n + 1) (queueFrame t f e) = queueFrame t f e := by
  unfold serveWaiting
  exact if_pos hb

/-- Where none of its source is under way or waits, a request is performed. -/
theorem serveWaiting_performs {f : Frame} {n e : Nat} (hb : frameUnderWay t f.src = false) (hw : NoneWaits t f.src)
    (hk : (performFrame t f e).dist.waiting = t.dist.waiting) : serveWaiting f.src (n + 1) (queueFrame t f e) = performFrame t f e := by
  have hf : (queueFrame t f e).dist.waiting.find? (fun w => w.1.src == f.src) = some (f, e) := by
    refine (List.find?_append ..).trans ?_
    rw [List.find?_eq_none.2 fun w hm => by simpa using hw w hm]
    simp
  have hn : (f, e) ∉ t.dist.waiting := fun hm => hw _ hm rfl
  have he : (queueFrame t f e).dist.waiting.erase (f, e) = t.dist.waiting := by
    refine (List.erase_append_right _ hn).trans ?_
    simp
  unfold serveWaiting
  rw [if_neg (by rw [show frameUnderWay (queueFrame t f e) f.src = frameUnderWay t f.src from rfl, hb]; decide), hf]
  dsimp only
  rw [he]
  change serveWaiting f.src n (performFrame t f e) = performFrame t f e
  exact serveWaiting_none (by unfold NoneWaits; rw [hk]; exact hw) n

/-! ### What a request performs (R153) -/

/-- A request for memory becomes a piece. -/
theorem performFrame_memory {f : Frame} {y : Nat} (hy : y / 2 ^ 62 = 1) (hr : region (y / 2 ^ 16 % 2 ^ 36 * 2 ^ 16 + f.off % 65536) = .fast
      ∨ region (y / 2 ^ 16 % 2 ^ 36 * 2 ^ 16 + f.off % 65536) = .cap) :
    performFrame t f y = withPiece t { die := f.port / 2, own := .frame f.port f.src f.off, pa := y / 2 ^ 16 % 2 ^ 36 * 2 ^ 16 + f.off % 65536
                                       len := f.len, wr := f.wr, data := f.data } := by
  unfold performFrame
  rw [if_pos hy]
  refine congrArg Prod.snd (sendPiece_near t _ ?_ ?_)
  · exact fun h => by rcases hr with hr | hr <;> exact absurd (hr.symm.trans h) (by decide)
  · exact fun h => by rcases hr with hr | hr <;> exact absurd (hr.symm.trans h) (by decide)

/-- A request for the scratchpad of core c moves its bytes at a, and is recorded. -/
def spadFrame (t : State) (f : Frame) (c a : Nat) : State :=
  replay (if f.wr then t.modCore c fun z => { z with spad := z.spad.wrList a (f.data.take f.len) } else t) 2 (t.die (dieOf c)).beat
    [f.port + f.src * 2 ^ 32, f.off, f.len]

theorem performFrame_spad {f : Frame} {y : Nat} (hy : y / 2 ^ 62 = 2) :
    let c := y / 2 ^ 32 % 2 ^ 10
    let a := y / 2 ^ 16 % 2 ^ 5 * 2 ^ 16 + f.off % 65536
    let v := spadFrame t f c a
    performFrame t f y = answerFrame v f false (if f.wr then [] else (v.core c).spad.rdList a f.len) := by
  unfold performFrame
  rw [if_neg (by omega), if_pos hy]
  rfl

/-! A request that is performed leaves those that wait. -/

theorem stripWrite_dist (s : State) (x o : Nat) (bs : List Byte) : (s.stripWrite x o bs).dist = s.dist := by
  unfold State.stripWrite
  dsimp only
  split <;> rfl

theorem fastWrite_dist (f : Nat → Nat) : ∀ (l : List (Nat × Nat)) (s : State) (bs : List Byte), (fastWrite s f l bs).dist = s.dist
  | [], _, _ => rfl
  | (a, n) :: r, s, bs => by
    unfold fastWrite
    rw [fastWrite_dist f r]
    split
    · rfl
    · exact stripWrite_dist _ _ _ _

/-- A write of the tiers changes nothing of the distributors. -/
theorem physWrite_dist {pa : Nat} (h : inTiers pa = true) (bs : List Byte) : (physWrite s pa bs).dist = s.dist := by
  have hr : region pa = .fast ∨ region pa = .cap := by simpa [inTiers] using h
  unfold physWrite
  rcases hr with hr | hr
  · rw [hr]; exact fastWrite_dist _ _ _ _
  · rw [hr]

theorem replay_waiting (s : State) (kind beat : Nat) (ws : List Nat) : (replay s kind beat ws).dist.waiting = s.dist.waiting := by
  unfold replay
  extract_lets base n tail pa ovf u d v
  have hu : u.dist = s.dist := by
    unfold u
    split
    · exact physWrite_dist ‹_› _
    · rfl
  have hv : v.dist.waiting = u.dist.waiting := by
    unfold v
    split <;> rfl
  split
  · rfl
  · rw [State.setReg_dist, hv, hu]

theorem answerFrame_waiting (s : State) (f : Frame) (err : Bool) (bs : List Byte) : (answerFrame s f err bs).dist.waiting = s.dist.waiting := rfl

theorem spadFrame_waiting (f : Frame) (c a : Nat) : (spadFrame t f c a).dist.waiting = t.dist.waiting := by
  unfold spadFrame
  rw [replay_waiting]
  split <;> rfl

/-! ### A request for this device -/

section
variable {f : Frame} {e : Option Nat} (h : exportEntry s f.off f.wr = (t, e))
include h

theorem takeRequest_busy (hb : frameUnderWay t f.src = true) : takeRequest s f = queueFrame t f (e.getD 0) := by
  rw [takeRequest_eq h, serveWaiting_busy hb]

section
variable (hb : frameUnderWay t f.src = false) (hw : NoneWaits t f.src)
include hb hw

theorem takeRequest_refused (he : e = none) : takeRequest s f = answerFrame t f true [] := by
  subst he
  rw [takeRequest_eq h, serveWaiting_performs hb hw rfl]
  rfl

theorem takeRequest_memory {y : Nat} (he : e = some y) (hy : y / 2 ^ 62 = 1)
    (hr : region (y / 2 ^ 16 % 2 ^ 36 * 2 ^ 16 + f.off % 65536) = .fast ∨ region (y / 2 ^ 16 % 2 ^ 36 * 2 ^ 16 + f.off % 65536) = .cap) :
    takeRequest s f = withPiece t { die := f.port / 2, own := .frame f.port f.src f.off, pa := y / 2 ^ 16 % 2 ^ 36 * 2 ^ 16 + f.off % 65536
                                    len := f.len, wr := f.wr, data := f.data } := by
  subst he
  have hp := performFrame_memory (t := t) hy hr
  rw [takeRequest_eq h, Option.getD_some, serveWaiting_performs hb hw (by rw [hp]; rfl), hp]

theorem takeRequest_spad {y : Nat} (he : e = some y) (hy : y / 2 ^ 62 = 2) :
    let c := y / 2 ^ 32 % 2 ^ 10
    let a := y / 2 ^ 16 % 2 ^ 5 * 2 ^ 16 + f.off % 65536
    let v := spadFrame t f c a
    takeRequest s f = answerFrame v f false (if f.wr then [] else (v.core c).spad.rdList a f.len) := by
  subst he
  intro c a v
  have hp := performFrame_spad (t := t) (f := f) hy
  rw [takeRequest_eq h, Option.getD_some, serveWaiting_performs hb hw (by rw [hp, answerFrame_waiting, spadFrame_waiting]), hp]

end

end

/-! ### Answers to pieces under way to a peer (R152) -/

/-- Piece q is under way to offset off of device src, as a write where wr. -/
def UnderWay (src off : Nat) (wr : Bool) (q : Piece) : Prop :=
  region q.pa = .peer ∧ q.pa / 2 ^ 32 % 2 ^ 18 = src ∧ q.pa % 2 ^ 32 = off ∧ q.wr = wr ∧ q.st = .sent

/-- An earlier write of the same task to the same peer has not performed. -/
def BehindPeer (s : State) (p : Piece) : Prop :=
  p.wr = true ∧ ∃ q ∈ s.pieces, q.wr = true ∧ q.core = p.core ∧ q.bank = p.bank ∧ q.own.outside = p.own.outside
    ∧ q.st = .sent ∧ region q.pa = .peer ∧ q.pa / 2 ^ 32 % 2 ^ 18 = p.pa / 2 ^ 32 % 2 ^ 18 ∧ q.id < p.id

theorem behindPeer_iff {p : Piece} : behindPeer s p = true ↔ BehindPeer s p := by
  unfold behindPeer BehindPeer slice
  simp only [Bool.and_eq_true, List.any_eq_true, beq_iff_eq, decide_eq_true_eq, and_assoc]

theorem underWay_iff {f : Frame} {q : Piece} :
    (region q.pa == .peer && slice q.pa 32 18 == f.src && q.pa % 2 ^ 32 == f.off && q.wr == f.wr && q.st == .sent) = true
      ↔ UnderWay f.src f.off f.wr q := by
  unfold UnderWay slice
  simp only [Bool.and_eq_true, beq_iff_eq, and_assoc]

theorem takeAnswer_none {f : Frame} (h : ∀ q ∈ s.pieces, ¬ UnderWay f.src f.off f.wr q) : takeAnswer s f = s := by
  unfold takeAnswer
  rw [List.find?_eq_none.2 fun q hq => mt underWay_iff.1 (h q hq)]

/-- An answer is for the oldest piece under way to its offset. -/
theorem takeAnswer_some {f : Frame} {p : Piece} {l l' : List Piece} (hs : s.pieces = l ++ p :: l') (hp : UnderWay f.src f.off f.wr p)
    (hl : ∀ q ∈ l, ¬ UnderWay f.src f.off f.wr q) :
    takeAnswer s f = if behindPeer s p then s else answerPiece s p (!f.err) f.data := by
  unfold takeAnswer
  rw [hs, List.find?_append, List.find?_eq_none.2 fun q hq => mt underWay_iff.1 (hl q hq), Option.none_or]
  simp only [List.find?_cons, underWay_iff.2 hp]

/-- A piece that performs: a read has its bytes. -/
def performed (s : State) (p : Piece) (data : List Byte) : State :=
  setPiece s { p with st := .served, data := if p.wr then p.data else readBy s p p.pa (data.take p.len) }

section
variable {port src dst head len : Nat} {wr : Bool} {data : List Byte} {p : Piece}

/-- The answer to piece p arrives as a frame. -/
theorem takeAnswer_arrivedFrame {l l' : List Piece} (hs : s.pieces = l ++ p :: l') (hp : UnderWay src (head % 2 ^ 32) wr p)
    (hl : ∀ q ∈ l, ¬ UnderWay src (head % 2 ^ 32) wr q) :
    let v := takeAnswer s (arrivedFrame port src dst head len wr data)
    (BehindPeer s p → v = s) ∧ (¬ BehindPeer s p → head / 2 ^ 32 = 2 → v = peerError s p)
    ∧ (¬ BehindPeer s p → head / 2 ^ 32 ≠ 2 → v = performed s p data) := by
  have hv : takeAnswer s (arrivedFrame port src dst head len wr data) =
      if behindPeer s p = true then s else answerPiece s p (!(head / 2 ^ 32 == 2)) data := takeAnswer_some hs hp hl
  refine ⟨fun hb => ?_, fun hb hk => ?_, fun hb hk => ?_⟩
  · rw [hv, if_pos (behindPeer_iff.2 hb)]
  · rw [hv, if_neg (mt behindPeer_iff.1 hb), hk]
    rfl
  · rw [hv, if_neg (mt behindPeer_iff.1 hb), beq_false_of_ne hk]
    rfl

end

/-- The answer to a piece by its number. -/
theorem exec_nodeAcknowledgement {id : Nat} {ok : Bool} {data : List Byte} {p : Piece} (hf : findPiece s id = some p) :
    (region p.pa ≠ .peer ∨ p.st ≠ .sent ∨ BehindPeer s p → exec (.nodeAcknowledgement id ok data) s = .next s)
    ∧ (region p.pa = .peer → p.st = .sent → ¬ BehindPeer s p →
      exec (.nodeAcknowledgement id ok data) s = .next (answerPiece s p ok data)) := by
  have he : exec (.nodeAcknowledgement id ok data) s =
      .next (if region p.pa ≠ .peer ∨ p.st ≠ .sent ∨ behindPeer s p then s else answerPiece s p ok data) := by
    change execNodeAcknowledgement id ok data s = _
    unfold execNodeAcknowledgement
    rw [hf]
  have hb : region p.pa ≠ .peer ∨ p.st ≠ .sent ∨ behindPeer s p = true ↔ region p.pa ≠ .peer ∨ p.st ≠ .sent ∨ BehindPeer s p := by
    rw [behindPeer_iff]
  exact ⟨fun h => he.trans (congrArg _ (if_pos (hb.2 h))),
    fun hr hs hn => he.trans (congrArg _ (if_neg fun h => (hb.1 h).elim (· hr) fun h => h.elim (· hs) hn))⟩

theorem exec_nodeAcknowledgement_none {id : Nat} {ok : Bool} {data : List Byte} (hf : findPiece s id = none) :
    exec (.nodeAcknowledgement id ok data) s = .next s := by
  change execNodeAcknowledgement id ok data s = _
  unfold execNodeAcknowledgement
  rw [hf]

/-- Settles O52: frames by their device and their kind, requests by their entry, answers by the piece that they are for. -/
theorem nodeWork : Obligations.NodeWork := by
  intro s t port src dst head len id dev dir e wr ok data p l l' off kind arrives f put answer routes way b window table entry x clean lets busy
    alone under behind fails performs acks
  have hentry : entry = (entry.1, entry.2) := Prod.mk.eta.symm
  -- The route clause is given as RouteRead: checked under the statement's own lets, its proof of decidability is costly to compare.
  refine And.intro (b := RouteRead s dst ∧ _) (routePort_outside dst) ⟨routePort_inside dst, exportEntry_closed off wr,
    fun h1 h2 => exportEntry_open off wr h1 h2 hentry,
    fun h => ⟨fun q hr => exec_frame_on h hr, fun hr => exec_frame_lost h hr⟩, fun h hk he => ?_,
    fun h hk => ?_, exec_nodeAcknowledgement_none, fun hf => ?_, rfl, rfl⟩
  · have hex : arrives = .next (takeRequest s f) := (exec_frame_here h).trans (congrArg _ (if_pos hk))
    have hanswer (err : Bool) (bs : List Byte) (v : State) : answer err bs v = answerFrame v f err bs := rfl
    rw [hex]
    refine ⟨fun hb => congrArg Host.Outcome.next (takeRequest_busy he (frameUnderWay_iff.2 hb)), fun hb ha => ?_⟩
    have hb' : frameUnderWay t f.src = false := by rwa [← Bool.not_eq_true, frameUnderWay_iff]
    refine ⟨fun hn => ?_, fun y hy hm => ?_, fun y hy hm => ?_⟩
    · exact congrArg Host.Outcome.next (takeRequest_refused he hb' ha hn)
    · intro pa hr
      exact congrArg Host.Outcome.next (takeRequest_memory (f := f) he hb' ha hy hm hr)
    · intro c a u v
      have hv : v = spadFrame t f c a := rfl
      rw [hanswer, hv]
      exact congrArg Host.Outcome.next (takeRequest_spad (f := f) he hb' ha hy hm)
  · have hex : arrives = .next (takeAnswer s f) := (exec_frame_here h).trans (congrArg _ (if_neg hk))
    rw [hex]
    refine ⟨fun hn => congrArg _ (takeAnswer_none hn), fun hs hp hl => ?_⟩
    obtain ⟨h1, h2, h3⟩ := takeAnswer_arrivedFrame (port := port) (dst := dst) (len := len) (data := data) hs hp hl
    exact ⟨fun hb => congrArg _ (h1 hb), fun hb hk => congrArg _ (h2 hb hk), fun hb hk => congrArg _ (h3 hb hk)⟩
  · obtain ⟨h1, h2⟩ := exec_nodeAcknowledgement (ok := ok) (data := data) hf
    exact ⟨h1, fun hr hs hb => ⟨fun hk => by subst hk; exact h2 hr hs hb, fun hk => by subst hk; exact h2 hr hs hb⟩⟩

end Sys2Proof.Machine
end

section
/-!
SUPPORT. The race checker (19_stops R353; 16_ordering R296-R303): when two instructions race, what an instruction is tested against and
what it enters, what tells an engine what is ordered before it, and when an instruction leaves the checker.
-/

namespace Sys2Proof.Machine

/-! ### Ranges and the race of two instructions -/

theorem mem_joinNats {a b : List Nat} {j : Nat} : j ∈ joinNats a b ↔ j ∈ a ∨ j ∈ b := by
  unfold joinNats
  rw [List.mem_append, List.mem_filter]
  by_cases h : j ∈ a <;> simp [h]

/-- A range of a and one of b meet, and one of the two is written. -/
def Meets (a b : List (Nat × Nat × Nat × Bool)) : Prop :=
  ∃ p ∈ a, ∃ q ∈ b, p.1 = q.1 ∧ p.2.1 ≤ q.2.2.1 ∧ q.2.1 ≤ p.2.2.1 ∧ (p.2.2.2 = true ∨ q.2.2.2 = true)

theorem anyClash_iff {a b : List (Nat × Nat × Nat × Bool)} : anyClash a b = true ↔ Meets a b := by
  simp only [anyClash, rangesClash, Meets, List.any_eq_true, Bool.and_eq_true, Bool.or_eq_true, beq_iff_eq, decide_eq_true_eq, and_assoc]

theorem Meets.symm {a b : List (Nat × Nat × Nat × Bool)} : Meets a b → Meets b a :=
  fun ⟨p, hp, q, hq, hs, h1, h2, hw⟩ => ⟨q, hq, p, hp, hs.symm, h2, h1, hw.symm⟩

theorem Meets.of_append {a b c : List (Nat × Nat × Nat × Bool)} : Meets a (b ++ c) → Meets a b ∨ Meets a c :=
  fun ⟨p, hp, q, hq, h⟩ => (List.mem_append.1 hq).imp (fun hq => ⟨p, hp, q, hq, h⟩) fun hq => ⟨p, hp, q, hq, h⟩

/-- A pair of updates that R250 or R255 excuses. -/
def Excused (x y : RaceEnt) : Prop :=
  x.exempt ≠ 0 ∧ y.exempt ≠ 0 ∧ (x.task = y.task ∨ (x.exempt = y.exempt ∧ x.exempt < 1000))

theorem updatesOrdered_iff {x y : RaceEnt} : updatesOrdered x y = true ↔ Excused x y := by
  simp [updatesOrdered, Excused, and_assoc]

theorem races_iff {x y : RaceEnt} : races x y = true ↔
    x.id ∉ y.pre ∧ (Meets x.rgn (y.rgn ++ y.tgt) ∨ Meets x.tgt y.rgn ∨ (Meets x.tgt y.tgt ∧ ¬ Excused x y)) := by
  rw [← updatesOrdered_iff]
  simp only [races, Bool.and_eq_true, Bool.or_eq_true, anyClash_iff, Bool.not_eq_true', or_assoc, List.contains_eq_mem,
    decide_eq_false_iff_not, Bool.not_eq_true]

/-! ### What is ordered before an engine -/

/-- The instruction of number j is y, or ordered before y's start. -/
def SelfOrBefore (y : RaceEnt) (j : Nat) : Prop := j = y.id ∨ j ∈ y.pre

theorem mem_flatMap_selfOrBefore {l : List RaceEnt} {j : Nat} : (j ∈ l.flatMap fun y => y.id :: y.pre) ↔ ∃ y ∈ l, SelfOrBefore y j := by
  simp only [List.mem_flatMap, List.mem_cons, SelfOrBefore]

theorem mem_foldl_joinNats {j : Nat} : ∀ (l : List RaceEnt) (acc : List Nat),
    j ∈ l.foldl (fun l x => joinNats l (x.id :: x.pre)) acc ↔ j ∈ acc ∨ ∃ y ∈ l, SelfOrBefore y j
  | [], acc => by simp
  | y :: r, acc => by
    rw [List.foldl_cons, mem_foldl_joinNats r, mem_joinNats, List.mem_cons]
    simp [SelfOrBefore, or_assoc]

theorem engTag_inj {e f : Eng} : e.tag = f.tag ↔ e = f := by cases e <;> cases f <;> simp [Eng.tag]

theorem engTag_lt (e : Eng) : e.tag < 8 := by cases e <;> decide

section
variable {g : Gang} {k k' : Nat} {e e' : Eng} {ids : List Nat} {j : Nat}

theorem mem_engineIds : j ∈ g.engineIds k e ↔ ∃ y ∈ g.race, y.task = k ∧ y.eng = e ∧ SelfOrBefore y j := by
  unfold Gang.engineIds
  simp only [mem_foldl_joinNats, List.not_mem_nil, false_or, List.mem_filter, Bool.and_eq_true, beq_iff_eq, and_assoc]

theorem knows_learn : (g.learn k e ids).knows k e = joinNats (g.knows k e) ids := Sparse.rd_wr_same _ _ _

/-- What one engine learns tells no other. -/
theorem knows_learn_ne (h : k ≠ k' ∨ e ≠ e') : (g.learn k e ids).knows k' e' = g.knows k' e' := by
  refine Sparse.rd_wr_ne _ _ fun hk => ?_
  have h1 := engTag_lt e
  have h2 := engTag_lt e'
  rcases h with h | h
  · omega
  · exact h (engTag_inj.1 (by omega))

theorem mem_engines (e : Eng) : e ∈ engines := by cases e <;> decide

/-- An instruction stays while an engine of a task that has not ended has not been told. -/
theorem mem_trim_race {y : RaceEnt} : y ∈ g.trim.race ↔ y ∈ g.race ∧ ∃ t ∈ g.live, ∃ f, y.id ∉ g.knows t f := by
  simp [Gang.trim, Gang.seats, mem_engines]

/-- The token word w of task k names the instruction y. -/
def TokenNames (k : Nat) (w : Word) (y : RaceEnt) : Prop :=
  y.task = k ∧ y.eng.tag = w.toNat / 2 ^ 32 % 2 ^ 3 ∧ y.seq = w.toNat % 2 ^ 32 ∧ y.seq ≠ 0

theorem tokenNames_iff {w : Word} {y : RaceEnt} :
    (y.task == k && y.eng.tag == slice w.toNat 32 3 && y.seq == w.toNat % 2 ^ 32 && y.seq != 0) = true ↔ TokenNames k w y := by
  simp only [TokenNames, slice, Bool.and_eq_true, beq_iff_eq, bne_iff_ne, and_assoc]

theorem tokenIds_none {w : Word} (h : ∀ y ∈ g.race, ¬ TokenNames k w y) : g.tokenIds k w = [] := by
  unfold Gang.tokenIds
  rw [List.find?_eq_none.2 fun y hy => mt tokenNames_iff.1 (h y hy)]

theorem tokenIds_some {w : Word} {z : RaceEnt} {l l' : List RaceEnt} (hg : g.race = l ++ z :: l') (hz : TokenNames k w z)
    (hl : ∀ y ∈ l, ¬ TokenNames k w y) : g.tokenIds k w = z.id :: z.pre := by
  unfold Gang.tokenIds
  rw [hg, List.find?_append, List.find?_eq_none.2 fun y hy => mt tokenNames_iff.1 (hl y hy), Option.none_or]
  simp only [List.find?_cons, tokenNames_iff.2 hz]

end

/-! ### A gang with a checker, and one without -/

/-- What f gives for the gang of task k, where it checks for races; else the state as it is. -/
def whereChecked (s : State) (k : Nat) (f : Gang → State) : State :=
  match s.gangOf k with
  | some g => if g.det then f g else s
  | none => s

section
variable {s : State} {k : Nat} {g : Gang} {f : Gang → State}

theorem whereChecked_off (h : s.gangOf k = none ∨ (s.gangOf k = some g ∧ g.det = false)) : whereChecked s k f = s := by
  unfold whereChecked
  rcases h with h | ⟨h, hd⟩
  · rw [h]
  · rw [h]
    exact if_neg (by rw [hd]; decide)

theorem whereChecked_on (h : s.gangOf k = some g) (hd : g.det = true) : whereChecked s k f = f g := by
  unfold whereChecked
  rw [h]
  exact if_pos hd

end

/-- The gang of number n has told engine e of task k that ids are ordered before it. -/
def tellEngine (s : State) (n k : Nat) (e : Eng) (ids : List Nat) : State := s.modGang n fun v => (v.learn k e ids).trim

/-- The instructions of the core of task k that its observation of beat b orders (R300, R301). -/
def beatIds (g : Gang) (k b : Nat) : List Nat :=
  (g.race.filter fun x =>
    match x.beat with
    | some (c, n) => c == k / 2 && decide (n ≤ b)
    | none => false).flatMap fun x => x.id :: x.pre

/-- The instructions of the engines of mask, that a fence of task k orders (R299). -/
def fenceIds (g : Gang) (k mask : Nat) : List Nat := ([Eng.c, .v, .m, .a].filter fun e => bitOf mask e.tag).flatMap (g.engineIds k)

/-- What was ordered before the arrival of each task at the n-th barrier (R303). -/
def barrierIds (g : Gang) (n : Nat) : List Nat := (g.met.filter fun x => x.2.1 == n).flatMap fun x => x.2.2

/-- What the path record of block serial n tells engine e of task k of gang g (R298). -/
def tellRecord (s : State) (g : Gang) (k : Nat) (e : Eng) (n : Nat) : State :=
  match g.shown.find? fun x => x.1 == k && x.2.1 == n with
  | some x => tellEngine s g.id k e x.2.2
  | none => s

section
variable (s : State) (k n b : Nat) (e : Eng) (ws : List Word) (g : Gang)

theorem learnTokens_eq : learnTokens s k e ws =
    whereChecked s k fun g => s.modGang g.id fun v => (v.learn k e (ws.flatMap (v.tokenIds k))).trim := rfl
theorem learnBeat_eq : learnBeat s k e b = whereChecked s k fun g => tellEngine s g.id k e (beatIds g k b) := rfl
theorem learnFence_eq : learnFence s k n = whereChecked s k fun g => tellEngine s g.id k .s (fenceIds g k n) := rfl
theorem meetBarrier_eq : meetBarrier s k n =
    whereChecked s k fun g => s.modGang g.id fun v => { v with met := (k, n, v.knows k .s) :: v.met.take 4096 } := rfl
theorem learnBarrier_eq : learnBarrier s k n = whereChecked s k fun g => tellEngine s g.id k .s (barrierIds g n) := rfl
theorem shareRecord_eq : shareRecord s k n =
    whereChecked s k fun g => s.modGang g.id fun v => { v with shown := (k, n, v.knows k .s) :: v.shown.take 4096 } := rfl
theorem learnRecord_eq : learnRecord s k e n = whereChecked s k fun g => tellRecord s g k e n := rfl

variable {s k n b e g} {j : Nat}

theorem mem_beatIds : j ∈ beatIds g k b ↔ ∃ y ∈ g.race, ∃ t, y.beat = some (k / 2, t) ∧ t ≤ b ∧ SelfOrBefore y j := by
  unfold beatIds
  simp only [mem_flatMap_selfOrBefore, List.mem_filter, and_assoc]
  refine exists_congr fun y => and_congr_right fun _ => ?_
  cases y.beat with
  | none => simp
  | some p =>
    obtain ⟨c, t⟩ := p
    simp only [Bool.and_eq_true, beq_iff_eq, decide_eq_true_eq, Option.some.injEq, Prod.mk.injEq]
    constructor
    · rintro ⟨⟨rfl, ht⟩, hj⟩
      exact ⟨t, ⟨rfl, rfl⟩, ht, hj⟩
    · rintro ⟨_, ⟨rfl, rfl⟩, ht, hj⟩
      exact ⟨⟨rfl, ht⟩, hj⟩

theorem mem_fenceIds : j ∈ fenceIds g k n ↔ ∃ f ∈ [Eng.c, .v, .m, .a], bitOf n f.tag = true ∧ j ∈ g.engineIds k f := by
  simp only [fenceIds, List.mem_flatMap, List.mem_filter, and_assoc]

theorem mem_barrierIds : j ∈ barrierIds g n ↔ ∃ y ∈ g.met, y.2.1 = n ∧ j ∈ y.2.2 := by
  simp only [barrierIds, List.mem_flatMap, List.mem_filter, beq_iff_eq, and_assoc]

theorem tellRecord_none (h : ∀ y ∈ g.shown, y.1 = k → y.2.1 ≠ n) : tellRecord s g k e n = s := by
  unfold tellRecord
  rw [List.find?_eq_none.2 fun y hy => by simpa using h y hy]

theorem tellRecord_some {y : Nat × Nat × List Nat} (h : (g.shown.find? fun y => y.1 == k && y.2.1 == n) = some y) :
    tellRecord s g k e n = tellEngine s g.id k e y.2.2 := by
  unfold tellRecord
  rw [h]

end

/-! ### The test of an instruction -/

/-- A timed transfer of the checker that reaches one of the cores at_ early enough for every access there (R148). -/
def TimedBefore (s : State) (at_ : List (Nat × Point)) (y : RaceEnt) : Prop :=
  ∃ c p need, y.timed = some (c, p, need) ∧ (∃ q ∈ at_, q.1 = c) ∧ ∀ q ∈ at_, q.1 = c → need ≤ s.delta p q.2

theorem timedBefore_iff {s : State} {at_ : List (Nat × Point)} {y : RaceEnt} : timedBefore s at_ y = true ↔ TimedBefore s at_ y := by
  unfold timedBefore TimedBefore
  cases y.timed with
  | none => simp
  | some t =>
    obtain ⟨c, p, need⟩ := t
    simp [List.filter_eq_nil_iff, imp_iff_not_or]

/-- What is ordered before an instruction of the executing engine that reaches the cores at_ at fixed times. -/
def orderedBefore (s : State) (g : Gang) (at_ : List (Nat × Point)) : List Nat :=
  joinNats (g.knows s.key s.cur.eng) ((g.race.filter (timedBefore s at_)).flatMap fun y => y.id :: y.pre)

theorem mem_orderedBefore {s : State} {g : Gang} {at_ : List (Nat × Point)} {j : Nat} :
    j ∈ orderedBefore s g at_ ↔ j ∈ g.knows s.key s.cur.eng ∨ ∃ y ∈ g.race, TimedBefore s at_ y ∧ SelfOrBefore y j := by
  unfold orderedBefore
  simp only [mem_joinNats, mem_flatMap_selfOrBefore, List.mem_filter, timedBefore_iff, and_assoc]

/-- The instruction x as it stands in the checker of gang g. -/
def inChecker (s : State) (g : Gang) (at_ : List (Nat × Point)) (x : RaceEnt) : RaceEnt :=
  { x with task := s.key, eng := s.cur.eng, pre := orderedBefore s g at_ }

section
variable {s : State} {g : Gang} {x : RaceEnt} {at_ : List (Nat × Point)} {all : Bool} {body : State → State}

theorem declareAs_none (h : s.gangOf s.key = none) : declareAs x at_ all body s = body s := by
  unfold declareAs
  rw [h]

theorem declareAs_undetermined (h : s.gangOf s.key = some g) (hd : g.det = false) : declareAs x at_ all body s = body s := by
  unfold declareAs
  rw [h]
  exact if_pos (by rw [hd]; rfl)

section
variable (h : s.gangOf s.key = some g) (hd : g.det = true)
include h hd

theorem declareAs_eq : declareAs x at_ all body s =
    if (g.race.any fun y => races y (inChecker s g at_ x)) = true then trap (causeOf s.cur.eng.source 16) s
    else if 1024 ≤ g.race.length then trap 383 s
    else body (s.modGang g.id fun v => enterRace v (inChecker s g at_ x) all) := by
  unfold declareAs
  rw [h]
  exact if_neg (by rw [hd]; decide)

theorem declareAs_races (hr : ∃ y ∈ g.race, races y (inChecker s g at_ x) = true) :
    declareAs x at_ all body s = trap (causeOf s.cur.eng.source 16) s := by
  rw [declareAs_eq h hd]
  exact if_pos (List.any_eq_true.2 hr)

section
variable (hr : ∀ y ∈ g.race, races y (inChecker s g at_ x) = false)
include hr

theorem declareAs_full (hn : 1024 ≤ g.race.length) : declareAs x at_ all body s = trap 383 s := by
  rw [declareAs_eq h hd, if_neg (by simpa using hr), if_pos hn]

theorem declareAs_enters (hn : g.race.length < 1024) :
    declareAs x at_ all body s = body (s.modGang g.id fun v => enterRace v (inChecker s g at_ x) all) := by
  rw [declareAs_eq h hd, if_neg (by simpa using hr), if_neg (Nat.not_le.2 hn)]

end

end

end

end Sys2Proof.Machine
end

section
/-!
PROOF. An instruction that races raises the code of its engine (R353): what comes before its test keeps the race, and one instruction of
C, V, M and A each comes to its test (07_copy_paths R132, 11_vector R205, 13_matrix R235, 14_scatter R253).
-/

namespace Sys2Proof.Machine

variable {s t u : State} {rgn rgn' : List (Nat × Nat × Nat × Bool)}

/-! ### What keeps a race -/

theorem raced_iff : Raced s rgn ↔ ∃ g, s.gangOf s.key = some g ∧ g.det = true ∧ s.key ∈ g.live
    ∧ ∃ y ∈ g.race, y.id ∉ g.knows s.key s.cur.eng ∧ Meets rgn (y.rgn ++ y.tgt) := Iff.rfl

theorem raced_mono (h : Raced s rgn) (hs : rgn ⊆ rgn') : Raced s rgn' := by
  obtain ⟨g, hg, hd, hl, y, hy, hk, p, hp, hc⟩ := h
  exact ⟨g, hg, hd, hl, y, hy, hk, p, hs hp, hc⟩

/-- A race is one of the executing engine and of its gang. -/
theorem raced_congr (h : Raced s rgn) (hg : t.gangOf s.key = s.gangOf s.key) (hc : t.cur = s.cur) : Raced t rgn := by
  have hk : t.key = s.key := by rw [State.key, hc]; rfl
  obtain ⟨g, h1, h2⟩ := h
  refine ⟨g, ?_, ?_⟩
  · rw [hk, hg, h1]
  · rw [hk, hc]
    exact h2

theorem gangOf_modTask_of {k : Nat} {f : Task → Task} (hf : ∀ x, (f x).gang = x.gang) (j : Nat) : (s.modTask k f).gangOf j = s.gangOf j := by
  have : ((s.modTask k f).task j).gang = (s.task j).gang := by
    rw [State.modTask, State.task_setTask]
    split
    · rename_i h
      rw [hf, h]
    · rfl
  unfold State.gangOf
  rw [this]
  rfl

theorem gangOf_modMyEng (f : EngSt → EngSt) (j : Nat) : (s.modMyEng f).gangOf j = s.gangOf j :=
  gangOf_modTask_of (f := fun t => { t with engs := Sparse.wr {} t.engs s.cur.eng.tag (f s.myEng) }) (fun _ => rfl) j

theorem gangOf_cycled (j : Nat) : (cycled s).gangOf j = s.gangOf j :=
  gangOf_modTask_of (f := fun x => { x with v := { x.v with cyc := x.v.cyc + 1, sregs := x.sreg, pushed := [] } }) (fun _ => rfl) j

/-- A gang changed by its number is the gang of its tasks still. -/
theorem gangOf_modGang {k : Nat} {g : Gang} {f : Gang → Gang} (h : s.gangOf k = some g) (hf : ∀ x, (f x).id = x.id) :
    (s.modGang g.id f).gangOf k = some (f g) := by
  unfold State.gangOf at h ⊢
  rw [State.modGang_task]
  cases hn : (s.task k).gang with
  | none => rw [hn] at h; cases h
  | some n =>
    rw [hn] at h
    simp only [State.gang, State.modGang, List.find?_map] at h ⊢
    have hcomp : ((fun x : Gang => x.id == n) ∘ fun x : Gang => if x.id = g.id then f x else x) = fun x : Gang => x.id == n := by
      funext x
      simp only [Function.comp]
      split
      · rw [hf]
      · rfl
    rw [hcomp, h, Option.map_some, if_pos rfl]

/-- A wait for no token tells the engine nothing. -/
theorem raced_learnTokens_nil (h : Raced s rgn) : Raced (learnTokens s s.key s.cur.eng []) rgn := by
  obtain ⟨g, hg, hd, hl, y, hy, hk, hm⟩ := h
  have hkey : (learnTokens s s.key s.cur.eng []).key = s.key := (learnTokens_walks s s.key s.cur.eng [] s.key s.cur.eng).key
  have hcur : (learnTokens s s.key s.cur.eng []).cur = s.cur := (learnTokens_walks s s.key s.cur.eng [] s.key s.cur.eng).cur
  have hknows : (g.learn s.key s.cur.eng []).knows s.key s.cur.eng = g.knows s.key s.cur.eng := by
    rw [knows_learn]
    exact List.append_nil _
  refine ⟨(g.learn s.key s.cur.eng []).trim, ?_, hd, ?_, y, ?_, ?_, hm⟩
  · rw [hkey, learnTokens_eq, whereChecked_on hg hd]
    exact gangOf_modGang hg fun _ => rfl
  · rw [hkey]
    exact hl
  · exact mem_trim_race.2 ⟨hy, s.key, hl, s.cur.eng, by rwa [hknows]⟩
  · rw [hkey, hcur]
    show y.id ∉ (g.learn s.key s.cur.eng []).knows s.key s.cur.eng
    rwa [hknows]

/-! ### Issue of an instruction that races -/

section
variable {i : Instr} {body : State → State} (hw : s.cur.ch.waits = []) (hl : s.myEng.latched = none)
  (ho : s.myEng.opn.length < tokenLimit) (hr : Raced s rgn)
include hw hl ho hr

/-- An instruction without token waits comes to its body with its race. -/
theorem exec_issue_raced {prod : Bool} (he : exec i s = .next (issue prod body s)) :
    ∃ t, exec i s = .next (body t) ∧ Walks s.key s.cur.eng s t ∧ Raced t rgn := by
  have hopn : (s.modMyEng fun x => { x with latched := some [] }).myEng.opn = s.myEng.opn := by simp [State.myEng, State.modMyEng]
  refine ⟨_, he.trans (congrArg Host.Outcome.next ?_),
    (modMyEng_walks s (fun x => { x with latched := some [] }) fun _ => rfl).trans (learnTokens_walks _ _ _ _ _ _),
    raced_learnTokens_nil (raced_congr hr (gangOf_modMyEng _ _) rfl)⟩
  unfold issue
  rw [hl]
  dsimp only
  rw [hw, if_neg (by simp), List.map_nil]
  unfold afterTokens
  dsimp only
  rw [List.all_nil, if_pos rfl, if_neg (by rw [hopn]; omega)]

/-- The same of an instruction that produces a token. -/
theorem exec_token_raced (hb : cBusy s = false) (he : exec i s = .next (issueToken body s)) :
    ∃ t, exec i s = .next (body t) ∧ Walks s.key s.cur.eng s t ∧ Raced t rgn := by
  obtain ⟨t, ht, hwt, hrt⟩ := exec_issue_raced hw hl ho hr he
  exact ⟨t, ht.trans (congrArg _ (if_neg (by rw [hwt.cBusy, hb]; decide))), hwt, hrt⟩

end

/-- The test of an instruction that races and is no update raises the code of its engine. -/
theorem declareAs_raced {x : RaceEnt} {all : Bool} {body : State → State} (h : Raced s x.rgn) :
    declareAs x [] all body s = trap (causeOf s.cur.eng.source 16) s := by
  obtain ⟨g, hg, hd, -, y, hy, hk, hm⟩ := raced_iff.1 h
  refine declareAs_races hg hd ⟨y, hy, races_iff.2 ⟨?_, ?_⟩⟩
  · intro hp
    rcases mem_orderedBefore.1 hp with hp | ⟨_, -, ⟨_, _, _, -, ⟨_, hq, -⟩, -⟩, -⟩
    · exact hk hp
    · cases hq
  · rcases hm.of_append with hm | hm
    · obtain ⟨p, hp, q, hq, hc⟩ := hm.symm
      exact .inl ⟨p, hp, q, List.mem_append_left _ hq, hc⟩
    · exact .inr (.inl hm.symm)

/-- An instruction that comes to its test with a race in a state walked to from u raises its code there. -/
theorem moves_raced {i : Instr} {x : RaceEnt} {all : Bool} {body : State → State} {code : Nat}
    (he : exec i s = .next (declareAs x [] all body t)) (hu : u.cur = s.cur) (hw : Walks u.key u.cur.eng u t) (hr : Raced t x.rgn)
    (hcode : causeOf s.cur.eng.source 16 = code) : Moves i s (trap code u) := by
  refine ⟨_, he, ?_⟩
  rw [declareAs_raced hr, hw.cur, hu, hcode, State.key, ← hu]
  exact hw.trap code

theorem unitRange_pos {sp a n : Nat} {w : Bool} (h : 0 < n) : unitRange sp a n w = [(sp, a / 32, (a + n - 1) / 32, w)] :=
  if_neg (by omega)

theorem Walks.inFile (h : Walks s.key s.cur.eng s t) (e n : Nat) : Machine.inFile t e n = Machine.inFile s e n := by
  unfold Machine.inFile
  rw [h.myCore, h.cur]

theorem aSize_pos (ty : Nat) : 0 < aSize ty := by
  unfold aSize
  split <;> decide

/-- The checks of an index descriptor that is well formed and whose list lies in the own share (R249). -/
theorem indexChecks_good {w al : Nat} (h : w / 2 ^ 49 = 0) (h1 : 1 ≤ slice w 32 17) (h2 : slice w 32 17 ≤ 65536) (hal : w % al = 0)
    (ho : OwnSpad s (w % 2 ^ 32) (al * slice w 32 17)) : firstCause (indexChecks s w al) = none := by
  rw [← inShare_iff] at ho
  unfold indexChecks
  dsimp only
  rw [h, hal, ho]
  generalize slice w 32 17 = n at h1 h2
  have hn : ¬ (n = 0 ∨ 65536 < n) := by omega
  simpa [firstCause] using hn

theorem Walks.indexChecks (h : Walks s.key s.cur.eng s t) (w al : Nat) : Machine.indexChecks t w al = Machine.indexChecks s w al := by
  unfold Machine.indexChecks
  simp only [h.inShare]

/-! ### The instructions -/

section
variable (hw : s.cur.ch.waits = []) (hl : s.myEng.latched = none) (ho : s.myEng.opn.length < tokenLimit)
include hw hl ho

/-- V reads an underfile entry into a queue (R205). -/
theorem vpf_raced {ex qx : Nat} (hv : s.cur.eng = .v) (hn : NoLanding s) (hin : inFile s ex 1 = true)
    (hfl : s.myEng.inter = true → inFlight s.me (.entry ex) = false) (hq : opqPlaces s.me qx < 4)
    (hr : Raced s [(4 * s.cur.core + 1, ex, ex, false)]) : Moves (.vpf ex qx) s (trap 64 (cycled s)) := by
  obtain ⟨t, ht, hwt, hrt⟩ := exec_issue_raced hw hl ho hr (show exec (.vpf ex qx) s = _ from rfl)
  obtain ⟨hcy, hwc⟩ := cycled_walks hwt hn
  have hinter : (cycled t).myEng.inter = s.myEng.inter := by
    rw [cycled_myEng]
    exact hwt.my (fun x => x.inter) fun _ => rfl
  have hopq : opqPlaces (cycled t).me qx = opqPlaces s.me qx := by
    rw [cycled, me_modMe]
    exact hwt.me_field (fun x => opqPlaces x qx) fun _ => rfl
  have hbusy : ¬ (s.myEng.inter = true ∧ inFlight s.me (.entry ex) = true) := fun h => by simpa [hfl h.1] using h.2
  dsimp only at ht
  rw [hcy, show inFile (cycled t) ex 1 = true from (hwt.inFile ex 1).trans hin, if_neg (by decide), hinter, inFlight_cycled, hwt.inFlight,
    if_neg hbusy, hopq, if_neg (Nat.not_le.2 hq), show (cycled t).cur = s.cur from hwt.cur] at ht
  unfold declare at ht
  exact moves_raced ht rfl hwc (raced_congr hrt (gangOf_cycled _) rfl) (by rw [hv]; rfl)

section
variable (hb : cBusy s = false)
include hb

/-- C copies scratchpad bytes into its palette (R132). -/
theorem cpl_raced {d a cx : Nat} (hc : s.cur.eng = .c) (hd : (cv s d).toNat % 32 = 0) (hsize : (cv s d).toNat + (cv s cx).toNat ≤ 16384)
    (ha : (cv s a).toNat % 32 = 0) (hown : OwnSpad s (cv s a).toNat (cv s cx).toNat) (hlen : GoodLength (cv s cx).toNat) (hx : cx ≠ 0)
    (hr : Raced s [(4 * s.cur.core + 3, (cv s d).toNat / 32, ((cv s d).toNat + (cv s cx).toNat - 1) / 32, true),
      (4 * s.cur.core, (cv s a).toNat / 32, ((cv s a).toNat + (cv s cx).toNat - 1) / 32, false)]) :
    Moves (.cpl d a cx) s (trap 40 s) := by
  obtain ⟨t, ht, hwt, hrt⟩ := exec_token_raced hw hl ho hr hb (show exec (.cpl d a cx) s = _ from rfl)
  have hpos : 0 < (cv s cx).toNat := by have := hlen.1; omega
  have hlenOf : lengthOf s cx = (cv s cx).toNat := if_neg hx
  have hpass : firstCause ([(decide ((cv s d).toNat % 32 ≠ 0), 29), (decide (16384 < (cv s d).toNat + (cv s cx).toNat), 32)]
      ++ spadChecks s (cv s a).toNat (cv s cx).toNat 32 ++ lengthChecks (cv s cx).toNat) = none := by
    refine firstCause_pass (firstCause_pass ?_ (firstCause_inside ha hown)) (lengthChecks_good hlen)
    simp [firstCause, hd, hsize]
  unfold intoStore at ht
  simp only [hwt.lengthOf, hwt.cv, hwt.spadChecks, hlenOf, saneLength_good hlen] at ht
  rw [checked_pass hpass, hwt.cur, unitRange_pos hpos, unitRange_pos hpos] at ht
  unfold startSpad declare at ht
  exact moves_raced ht rfl hwt (raced_mono hrt (List.Perm.swap _ _ []).subset) (by rw [hc]; rfl)

/-- M starts a nest (R235). -/
theorem mtile_raced {b f n : Nat} {q : List Word} (hm : s.cur.eng = .m) (hrun : s.me.m.run = none) (hpre : s.me.m.preempt = false)
    (hf : tileWord s = some (f, n, q)) (hnest : nestCause s (easelWords s.myCore b) f = none)
    (hr : Raced s (tileRegion s.cur.core (easelWords s.myCore b) f)) : Moves (.mtile b) s (trap 112 s) := by
  obtain ⟨t, ht, hwt, hrt⟩ := exec_token_raced hw hl ho hr hb (show exec (.mtile b) s = _ from rfl)
  have hmu : t.me.m = s.me.m := hwt.me_field (fun x => x.m) fun _ => rfl
  have htile : tileWord t = tileWord s := by
    unfold tileWord
    rw [hmu, hwt.myCore]
  have hcause : nestCause t (easelWords s.myCore b) f = none := by
    rw [← hnest]
    unfold nestCause nestOutside rangeInShare
    simp only [hwt.inShare, hwt.me_field (fun x => x.csr) fun _ => rfl]
  dsimp only at ht
  rw [if_neg (by rw [hmu, hrun]; decide), if_neg (by rw [hmu, hpre]; decide), htile, hf] at ht
  dsimp only at ht
  rw [hwt.myCore, hcause, hwt.cur] at ht
  unfold declare at ht
  exact moves_raced ht rfl hwt hrt (by rw [hm]; rfl)

/-- A converts sums (R253). -/
theorem saRd_raced {d a sx ty : Nat} (ha : s.cur.eng = .a) (hins : s.me.a.ins = none) (hal : (av s d).toNat % aSize ty = 0)
    (hout : OwnSpad s (av s d).toNat (aSize ty * ((av s a).toNat / 2 ^ 32 % 2 ^ 17))) (hhi : (av s a).toNat / 2 ^ 49 = 0)
    (h1 : 1 ≤ (av s a).toNat / 2 ^ 32 % 2 ^ 17) (h2 : (av s a).toNat / 2 ^ 32 % 2 ^ 17 ≤ 65536) (h8 : (av s a).toNat % 8 = 0)
    (hidx : OwnSpad s ((av s a).toNat % 2 ^ 32) (8 * ((av s a).toNat / 2 ^ 32 % 2 ^ 17)))
    (hr : Raced s [(4 * s.cur.core, (av s a).toNat % 2 ^ 32 / 32,
        ((av s a).toNat % 2 ^ 32 + 8 * ((av s a).toNat / 2 ^ 32 % 2 ^ 17) - 1) / 32, false),
      (4 * s.cur.core, (av s d).toNat / 32, ((av s d).toNat + aSize ty * ((av s a).toNat / 2 ^ 32 % 2 ^ 17) - 1) / 32, true)]) :
    Moves (.saRd d a sx ty) s (trap 136 s) := by
  obtain ⟨t, ht, hwt, hrt⟩ := exec_token_raced hw hl ho hr hb (show exec (.saRd d a sx ty) s = _ from rfl)
  have hau : t.me.a = s.me.a := hwt.me_field (fun x => x.a) fun _ => rfl
  have hslice : slice (av s a).toNat 32 17 = (av s a).toNat / 2 ^ 32 % 2 ^ 17 := rfl
  rw [← hslice] at h1 h2 hidx hout hrt
  have hpass : firstCause ([((av s d).toNat % aSize ty != 0, 125), (!inShare s (av s d).toNat (aSize ty * slice (av s a).toNat 32 17), 128)]
      ++ indexChecks s (av s a).toNat 8) = none := by
    refine firstCause_pass ?_ (indexChecks_good hhi h1 h2 h8 hidx)
    rw [hal, (inShare_iff s _ _).2 hout]
    rfl
  dsimp only at ht
  rw [if_neg (by rw [hau, hins]; decide)] at ht
  simp only [hwt.av, hwt.inShare, hwt.indexChecks, hwt.cur] at ht
  rw [if_neg (by omega), checked_pass hpass, unitRange_pos (by omega), unitRange_pos (Nat.mul_pos (aSize_pos ty) h1)] at ht
  unfold beginA at ht
  exact moves_raced ht rfl hwt hrt (by rw [ha]; rfl)

end

end

/-- Settles O3: the race of two instructions, the test of one, what each operation tells, and one instruction of each engine that races. -/
theorem raceChecker : Obligations.RaceChecker := by
  unfold Obligations.RaceChecker
  intro s x z at_ all body k k' n b a d cx sx ex qx ty e e' g ids w ws l l' meets excused timed code enters told token off now va vd len out i m
    size easel
  have hcode : causeOf s.cur.eng.source 16 = code := by
    unfold code
    cases s.cur.eng <;> rfl
  refine ⟨races_iff, declareAs_none, declareAs_undetermined, fun hg hd => ⟨orderedBefore s g at_, fun _ => mem_orderedBefore, ?_⟩,
    fun _ => mem_engineIds, fun _ => by rw [knows_learn, mem_joinNats], knows_learn_ne, fun _ => mem_trim_race, tokenIds_none, tokenIds_some,
    fun h => ?_, fun hg hd => ?_, ?_, ?_, ?_, ?_⟩
  · rw [← hcode]
    exact ⟨declareAs_races hg hd, declareAs_full hg hd, declareAs_enters hg hd⟩
  · rw [learnTokens_eq, learnBeat_eq, learnFence_eq, meetBarrier_eq, learnBarrier_eq, shareRecord_eq, learnRecord_eq]
    simp only [whereChecked_off h, and_self]
  · rw [learnTokens_eq, learnBeat_eq, learnFence_eq, meetBarrier_eq, learnBarrier_eq, shareRecord_eq, learnRecord_eq]
    simp only [whereChecked_on hg hd, true_and]
    exact ⟨⟨beatIds g k b, rfl, fun _ => mem_beatIds⟩, ⟨fenceIds g k n, rfl, fun _ => mem_fenceIds⟩,
      ⟨barrierIds g n, rfl, fun _ => mem_barrierIds⟩, tellRecord_none, fun _ => tellRecord_some⟩
  · exact fun ⟨hw, hl, ho, hb⟩ hc hd hsize ha hown hlen hx => cpl_raced hw hl ho hb hc hd hsize ha hown hlen hx
  · exact fun ⟨hw, hl, ho, _⟩ hv hn hin hfl hq => vpf_raced hw hl ho hv hn hin hfl hq
  · exact fun ⟨hw, hl, ho, hb⟩ hm hrun hpre f n q hf hnest => mtile_raced hw hl ho hb hm hrun hpre hf hnest
  · exact fun ⟨hw, hl, ho, hb⟩ ha hins hal hout hhi h1 h2 h8 hidx => saRd_raced hw hl ho hb ha hins hal hout hhi h1 h2 h8 hidx

end Sys2Proof.Machine
end
